-- ==== Sys2Proof/Word.lean ====
section
/-! DEFINITION. The word types of the machine (R5, R11, R72). -/

namespace Sys2Proof

/-- A 64-bit register, address or instruction word. -/
abbrev Word := BitVec 64

/-- A 32-bit pattern: an FP32 or I32 element, a chisel word. -/
abbrev Word32 := BitVec 32

/-- One byte of memory. -/
abbrev Byte := BitVec 8

end Sys2Proof
end

