-- ==== Sys2Proof/Syntax.lean ====
section
/-! DEFINITION. The syntax: one constructor of `Instr` per row of the spec's table of operations and events, with the
operands the row's encoding or event carries. A guard, an address and the bundle belong to a slot, not to `Instr` (R73). -/

namespace Sys2Proof

/-- A scalar register number, s0 to s63 (R11, R78). -/
abbrev Reg := BitVec 6
/-- A predicate number, p0 to p7 (R11, R78). -/
abbrev Pred := BitVec 3
/-- A handle number, h0 to h15 (R12, R78). -/
abbrev HReg := BitVec 4
/-- An ordering class, oc0 to oc15 (R131). -/
abbrev Oc := BitVec 4
/-- A chisel lane register e0 to e7, or a port constant k0 to k7 (R85). -/
abbrev EReg := BitVec 3
/-- A chisel predicate q0 to q3, or a carried register c0 to c3 (R85). -/
abbrev QReg := BitVec 2

/-- The condition codes 0 to 9, in the order of R83. -/
inductive Cond where
  | eq | ne | lt | ge | ltn | gen | le | gt | len | gtn
  deriving DecidableEq, Repr

/-- The floating compare conditions of R108. -/
inductive FCond where
  | eq | ne | lt | ge | le | gt
  deriving DecidableEq, Repr

/-- The rounding modes 0 to 4 of R46. -/
inductive Rm where
  | rne | rtz | rpi | rni | sr
  deriving DecidableEq, Repr

/-- Access sizes .B .H .W .D (R79). -/
inductive Size where
  | b | h | w | d
  deriving DecidableEq, Repr

/-- The six queues, qn 0 to 5 (R88). -/
inductive Queue where
  | qm | qc | qr | qv | qk | qg
  deriving DecidableEq, Repr

/-- The four chisel ports, codes 0 to 3 (R175). -/
inductive Port where
  | a | b | d | s
  deriving DecidableEq, Repr

/-- The twelve scopes, values 0 to 11 (R293). -/
inductive Scope where
  | core | cluster | part | die | device | group | host | peer | pod | tier2 | media | system
  deriving DecidableEq, Repr

/-- The atomic functions, fn 0 to 10 (R84). -/
inductive AmoFn where
  | add | fadd | min | max | minn | maxn | and | or | xor | swap | cas
  deriving DecidableEq, Repr

/-- The CSRs of R21. -/
inductive Csr where
  | dcc | rsc | lcore | pid | vfid | gmemb | recnt | relim | rstat | lscale | lscfg | lsstat | srseed | steptag
  | trapc | trapv0 | trapv1 | trapv2 | trapv3 | numf | fshare | errinjA | errinjC | burstcfg | shapeg
  deriving DecidableEq, Repr

/-- The permissions an XLATE or PROBE asks for, bits [31:29] (R123). -/
structure Perms where
  rd : Bool
  wr : Bool
  at_ : Bool
  deriving DecidableEq, Repr

/-- A memory operand `[hN, sx, off]` (R128). -/
structure MemOp where
  h : HReg
  x : Reg
  oc : Oc
  off : BitVec 28
  deriving DecidableEq, Repr

/-- The operand of an atomic, whose offset has 12 bits (R132). -/
structure AtomOp where
  h : HReg
  x : Reg
  oc : Oc
  off : BitVec 12
  deriving DecidableEq, Repr

/-- An engine command record: eight 64-bit words (R87). -/
structure CmdRec where
  w0 : Word
  w1 : Word
  w2 : Word
  w3 : Word
  w4 : Word
  w5 : Word
  w6 : Word
  w7 : Word
  deriving DecidableEq, Repr

/-- What a step of an engine command is: its start from the head of a queue, or the reads or the writes that its
schedule places in the present cycle, for the running command `run` (R196, R215). -/
inductive Beat where
  | start (q : Queue)
  | read (run : Nat)
  | write (run : Nat)
  deriving DecidableEq, Repr

/-- A scalar destination whose result comes later than its bundle (R91). -/
inductive Dest where
  | s (r : Reg)
  | p (r : Pred)
  deriving DecidableEq, Repr

/-- The CACC modes of R191. -/
inductive CaccMode where
  | add | max | min | sqadd
  deriving DecidableEq, Repr

/-- The formats a chisel CVT converts to (R191). -/
inductive CvtFmt where
  | fp32 | bf16 | fp16 | e4m3 | e5m2 | i8 | i32
  deriving DecidableEq, Repr

/-- The fabric channels of R359 and R362. -/
inductive Channel where
  | host | peer | mgmt | idle
  deriving DecidableEq, Repr

/-- A flit as received on a link (R359). -/
structure Flit where
  seq : BitVec 12
  ack : BitVec 12
  nak : Bool
  ch : Channel
  payload : List Byte
  lcrc : BitVec 64
  deriving DecidableEq, Repr

/-- The combine kinds of COPY (R221). -/
inductive CombKind where
  | add | max | min | sradd
  deriving DecidableEq, Repr

/-- What a transaction does to the bytes it names (R362). A combine carries the element's format tag, its rounding and saturation, the
FP32 or I32 value, and what its stochastic rounding hashes (R53, R221). `again` asks for an answer whose check has failed (R340). -/
inductive TxnKind where
  | read (n : Nat)
  | write (bytes : List Byte)
  | atomic (fn : AmoFn) (sz : Size) (y c : Word)
  | combine (k : CombKind) (fmt : BitVec 6) (rm : Rm) (sat int : Bool) (v : Word32) (seed : Word) (steptag : BitVec 16)
  | again
  deriving DecidableEq, Repr

/-- An inbound fabric transaction: source, channel, fabric class, aperture offset, its CRC-32C (R340) with the number of its sends, the
present one among them, the link it comes by, whether it was sent before the acknowledgement of the removal of its node from the
fenced set (R367), and the number that its source gave it. -/
structure Txn where
  snode : BitVec 11
  spart : BitVec 4
  ch : Channel
  cls : BitVec 4
  off : BitVec 39
  kind : TxnKind
  crc : BitVec 32
  tries : Nat
  link : BitVec 5
  stale : Bool
  tag : Word
  deriving DecidableEq, Repr

/-- What the answer to a transaction of the device says: done, rejected (R370), to be sent again (R340), or that poison was met
(R338). -/
inductive TxnAnswer where
  | done | rejected | resend | poisoned
  deriving DecidableEq, Repr

/-- An answer beside its data: what it says, its CRC-32C and the number of its sends (R340). -/
structure TxnReply where
  verdict : TxnAnswer
  crc : BitVec 32
  tries : Nat
  deriving DecidableEq, Repr

/-- What a management write names first, together with the node that writes it: only a managing host may (R362). -/
structure FromNode (α : Type) where
  node : BitVec 11
  val : α
  deriving DecidableEq, Repr

/-- A management-channel write of a table or register that has no row of its own in the table (R362). -/
inductive MgmtReg where
  /-- A virtual function's descriptor words 0 and 1 (R369). -/
  | vfDesc (vf : BitVec 7) (w0 w1 : Word)
  /-- A relocation base of a virtual function (R310). -/
  | rbase (vf : BitVec 7) (i : BitVec 4) (v : Word)
  /-- A partition's default actions (R331). -/
  | actdef (part : BitVec 4) (v : Word)
  /-- A partition's best-effort maximum region length (R318). -/
  | belmax (part : BitVec 4) (v : BitVec 24)
  /-- A partition's best-effort quantum (R317). -/
  | quantum (part : BitVec 4) (v : Word)
  /-- A partition's admission ceiling (R315). -/
  | ceilf (part : BitVec 4) (v : BitVec 16)
  /-- A partition's array allowance (R381). -/
  | allowance (part : BitVec 4) (v : BitVec 2)
  /-- A microcode descriptor (R343). -/
  | microcode (part : BitVec 4) (e : BitVec 12) (w0 w1 : Word)
  /-- A peer window entry (R370). -/
  | window (part : BitVec 4) (i : BitVec 4) (w0 w1 : Word)
  /-- A partition's rank-table base (R366). -/
  | rtbase (part : BitVec 4) (v : Word)
  /-- A retrain of a link to full width (R361). -/
  | retrain (link : BitVec 5)
  /-- A launch whose contexts are saved, named by its partition, queue and SEQ, is restored into another partition, under a function
  of that partition (R325). -/
  | restore (src : BitVec 4) (queue : BitVec 12) (seq : BitVec 32) (dst : BitVec 4) (vf : BitVec 7)
  /-- Bytes of the mailbox request buffer (R376). -/
  | request (off : BitVec 12) (bytes : List Byte)
  /-- The mailbox doorbell (R376). -/
  | doorbell (v : Word)
  deriving DecidableEq, Repr

/-- One row of the spec's table of operations and events each. -/
inductive Instr where
  -- scalar arithmetic (R97)
  | add (d a b : Reg) | sub (d a b : Reg) | and (d a b : Reg) | or (d a b : Reg) | xor (d a b : Reg)
  | andn (d a b : Reg) | shl (d a b : Reg) | shr (d a b : Reg) | sar (d a b : Reg) | rol (d a b : Reg)
  | ror (d a b : Reg) | mul (d a b : Reg) | mulh (d a b : Reg) | mulhn (d a b : Reg) | div (d a b : Reg)
  | divn (d a b : Reg) | rem (d a b : Reg) | remn (d a b : Reg) | min (d a b : Reg) | max (d a b : Reg)
  | minn (d a b : Reg) | maxn (d a b : Reg) | clz (d a : Reg) | ctz (d a : Reg) | popc (d a : Reg)
  | bswap (d a : Reg) | sext (d a b : Reg) | zext (d a b : Reg)
  -- immediate forms and constants (R99, R100)
  | addi (d a : Reg) (imm : BitVec 36) | andi (d a : Reg) (imm : BitVec 36) | ori (d a : Reg) (imm : BitVec 36)
  | xori (d a : Reg) (imm : BitVec 36) | shli (d a : Reg) (imm : BitVec 36) | shri (d a : Reg) (imm : BitVec 36)
  | sari (d a : Reg) (imm : BitVec 36) | muli (d a : Reg) (imm : BitVec 36)
  | li (d : Reg) (imm : BitVec 46) | lih (d : Reg) (imm : BitVec 18) | la (d : Reg) (imm : BitVec 46)
  -- compares, predicates, selection (R101 to R104)
  | cmp (d : Pred) (a b : Reg) (c : Cond) | cmpi (d : Pred) (a : Reg) (c : Cond) (imm : BitVec 36)
  | pand (d a b : Pred) | por (d a b : Pred) | pxor (d a b : Pred) | pnot (d a : Pred) | pmov (d a : Pred)
  | sel (d a b : Reg) (c : Pred) | movpsGet (d : Reg) | movpsSet (a : Reg)
  -- scalar floating point (R106, R107)
  | fadd (d a b : Reg) (rm : Rm) (sat : Bool) | fsub (d a b : Reg) (rm : Rm) (sat : Bool)
  | fmul (d a b : Reg) (rm : Rm) (sat : Bool) | fdiv (d a b : Reg) (rm : Rm) (sat : Bool)
  | fmin (d a b : Reg) | fmax (d a b : Reg) | fsqrt (d a : Reg) (rm : Rm) (sat : Bool)
  | fabs (d a : Reg) | fneg (d a : Reg) | fcmp (d : Pred) (a b : Reg) (c : FCond)
  | fcvtF2i (d a : Reg) (rm : Rm) | fcvtI2f (d a : Reg) (rm : Rm)
  | fcvtF2b (d a : Reg) (rm : Rm) (sat : Bool) | fcvtB2f (d a : Reg)
  | scalarWriteback (d : Dest) (v : Word) (flags : BitVec 8)
  -- branches (R110)
  | b (disp : BitVec 32) | bcmp (a b : Reg) (c : Cond) (disp : BitVec 32) | call (a : Reg) (disp : BitVec 32)
  | ret (a : Reg) | bi (a : Reg) | loop (a : Reg) (disp : BitVec 32) | bzm (disp : BitVec 32)
  -- mask stack (R112)
  | mpush (a b : Reg) | mget (a b : Reg)
  -- handles and memory (R123 to R136)
  | xlate (h : HReg) (x : Reg) (p : Perms) | xlateComplete (id : Nat) | hinv (h : HReg) | hinfo (d : Reg) (h : HReg)
  | ld (d : Reg) (m : MemOp) (sz : Size) (sx : Bool) (inc : Bool) | ldReturn (id : Nat)
  | st (d : Reg) (m : MemOp) (sz : Size) (inc : Bool)
  | amo (d : Reg) (m : AtomOp) (sz : Size) (sx : Bool) (b c : Reg) (fn : AmoFn) | amoReturn (id : Nat)
  | amop (m : AtomOp) (sz : Size) (b : Reg) (fn : AmoFn) | homeSliceApply (id : Nat)
  | probe (d x : Reg) (p : Perms) | probeComplete (id : Nat) | pref (m : MemOp) | l2Fill (line : Nat)
  -- regions (R113 to R126)
  | region (len : BitVec 24) (amask : BitVec 4) | commit (sc : Scope) | publishApply (id : Nat)
  | regionLong (entry : Nat) | translationInvalidate (vf : BitVec 7) (va len : Nat)
  -- fences and groups (R137 to R149)
  | fence (sc : Scope) (mask : BitVec 16) | fenceComplete (id : Nat)
  | arrive (g : BitVec 8) (pt : BitVec 5) | rvArrival (g : BitVec 8) (pt : BitVec 5) (lcore : Nat) (fl : BitVec 8)
  | rvInitApply (g : BitVec 8) (pt : BitVec 5) (n : BitVec 5)
  | rvAnswer (g : BitVec 8) (pt : BitVec 5) (gen : BitVec 8)
  | waitrv (g : BitVec 8) (pt : BitVec 5) | waitrvRelease (g : BitVec 8) (pt : BitVec 5) (gen : Option (BitVec 8))
  | bar (g : BitVec 8) | barRelease (g : BitVec 8) | rvinit (g : BitVec 8) (pt : BitVec 5) (a : Reg)
  | rvflags (g : BitVec 8) (pt : BitVec 5) (a : Reg) | rvflagsReply (g : BitVec 8) (pt : BitVec 5) (a : Reg) (v : Option Word)
  | flagw (n : BitVec 6) (a : Reg) | dccr (a : Reg) | waitc (a : Reg)
  | align (g : BitVec 8) (timeout : BitVec 24) | alignComplete (g : BitVec 8) | alignTimeout (serial : Nat)
  -- queues (R156 to R160) and array power (R161 to R163), LAYER (R164)
  | qpush (q : Queue) (pd : Pred) (a : Reg) | qpusht (q : Queue) (pd : Pred) (n : BitVec 6) (b c : Reg)
  | tmpl (n : BitVec 6) (a : Reg) | qstat (q : Queue) (a : Reg) | cruiserRecordCheck (q : Queue) (r : CmdRec)
  | shape (a : Reg) | shapeGrant (sh : BitVec 2) | mburst (n : BitVec 15) | mburstWindowEnd (serial : Nat)
  | rampUpDone (serial : Nat) | rampHoldExpiry (serial : Nat) | rampDownEnd (serial : Nat)
  | layer (e : BitVec 12) (a : Reg)
  -- chisel management and tile tags (R182 to R189)
  | pload (slot : BitVec 4) (a : Reg) (n : BitVec 5) | ploadInstall (slot : BitVec 4) (prog : List Word32)
  | pbind (slot : BitVec 4) (port : Port) | pbindUn (slot : BitVec 4) | pconst (port : Port) (k : EReg) (a : Reg)
  | pctl (slot : BitVec 4) (ctl : BitVec 15) | pstat (a : Reg) (slot : BitVec 4)
  | ttagRd (a : Reg) (tile : BitVec 7) | ttagWr (tile : BitVec 7) (a : Reg) | tclr (tile : BitVec 7)
  -- CSRs and system (R165 to R174)
  | csrr (a : Reg) (c : Csr) | csrw (c : Csr) (a : Reg) | trap (code : BitVec 16)
  | lsstep (a : Reg) | seed (a : Reg) | event (code : BitVec 16) (a : Reg) | ctxsave (a : Reg) | ctxload (a : Reg)
  -- chisel operations (R191)
  | chiselFadd (d a b : EReg) (rm : Rm) | chiselFsub (d a b : EReg) (rm : Rm) | chiselFmul (d a b : EReg) (rm : Rm)
  | chiselFma (d a b c : EReg) (rm : Rm) | chiselFmin (d a b : EReg) | chiselFmax (d a b : EReg)
  | chiselFabs (d a : EReg) | chiselFneg (d a : EReg) | chiselClamp (d a : EReg) (lo hi : EReg)
  | chiselFcmp (d : QReg) (a b : EReg) (c : FCond) | chiselSel (d a b : EReg) (q : QReg)
  | chiselCvt (d a : EReg) (fmt : CvtFmt) (rm : Rm) | chiselCvtI2f (d a : EReg) (rm : Rm)
  | chiselExp2 (d a : EReg) | chiselLog2 (d a : EReg) | chiselRcp (d a : EReg) | chiselRsqrt (d a : EReg)
  | chiselIadd (d a b : EReg) | chiselIaddImm (d a : EReg) (imm : BitVec 13)
  | chiselIand (d a b : EReg) | chiselIandImm (d a : EReg) (imm : BitVec 13)
  | chiselIshl (d a b : EReg) | chiselIshlImm (d a : EReg) (imm : BitVec 13)
  | chiselMovk (d k : EReg) | chiselMovkX (d a : EReg) | chiselGetc (d : EReg) (c : QReg)
  | chiselPutc (c : QReg) (a : EReg) | chiselPrev (d a : EReg) (n : BitVec 2)
  | chiselCacc (c : QReg) (a : EReg) (mode : CaccMode) (rm : Rm) | chiselRaise (q : QReg) (a : EReg) (flags : BitVec 8)
  | chiselOut (a : EReg) | chiselCoordRow (d : EReg) | chiselCoordCol (d : EReg) | chiselDrop (q : QReg)
  -- engine commands (R196 to R270)
  | mma (r : CmdRec) (b : Beat) | mmaSp (r : CmdRec) (b : Beat) | mmaMx (r : CmdRec) (b : Beat)
  | accz (r : CmdRec) (b : Beat) | accst (r : CmdRec) (b : Beat) | fload (r : CmdRec) (b : Beat)
  | forest (r : CmdRec) (b : Beat) | leafg (r : CmdRec) (b : Beat) | copy (r : CmdRec) (b : Beat)
  | fill (r : CmdRec) (b : Beat) | reduce (r : CmdRec) (b : Beat) | quant (r : CmdRec) (b : Beat)
  | deq (r : CmdRec) (b : Beat) | attn (r : CmdRec) (b : Beat) | kappend (r : CmdRec) (b : Beat)
  | kchase (r : CmdRec) (b : Beat) | yarderHoldExpiry (line : Nat) | rspanK (r : CmdRec) (b : Beat)
  | rspanC (r : CmdRec) (b : Beat) | ktopk (r : CmdRec) (b : Beat) | kcompact (r : CmdRec) (b : Beat)
  | beamset (r : CmdRec) (b : Beat) | sgath (r : CmdRec) (b : Beat) | sgpat (r : CmdRec) (b : Beat)
  | setf (r : CmdRec) (b : Beat) | setfFlagWrite (n : BitVec 6) (clr : Bool)
  | waitf (r : CmdRec) (b : Beat) | waitfComplete (q : Queue)
  -- traps and pre-emption (R319 to R331)
  | boundaryReplay (serial : Nat) | killComplete (launch : Nat) (cause : BitVec 8) | schedulingDecision (part : BitVec 4)
  | commitGraceExpiry (serial : Nat)
  -- the invocation front end (R302 to R317)
  | notifyStore (q : BitVec 12) (v : Word) (node : BitVec 11) | launchStart (launch : Nat)
  | tstartCheck (launch : Nat) | predDoneResume (launch : Nat) | periodStart (part : BitVec 4) (cid : BitVec 6)
  | budgetExhausted (part : BitVec 4) (cid : BitVec 6) | deadlineMiss (launch : Nat) | quantumExpiry (serial : Nat)
  | queueDescriptorWrite (q : FromNode (BitVec 12)) (w0 w1 : Word)
  | residentSlotWrite (part : FromNode (BitVec 4)) (slot : BitVec 10) (v : Word)
  | contractWrite (part : FromNode (BitVec 4)) (cid : BitVec 6) (w0 w1 w2 w3 w4 w5 : Word)
  | resumeWord (part : FromNode (BitVec 4)) (v : Word) | fenceWordWrite (v : FromNode Word)
  | rtloadWrite (part : FromNode (BitVec 4))
  | encoderSlotWrite (part : FromNode (BitVec 4)) (slot : BitVec 5) (w0 w1 w2 w3 w4 : Word) | mgmtRegisterWrite (node : BitVec 11) (r : MgmtReg)
  -- fabric (R359 to R370)
  | flitReceive (link : BitVec 5) (f : Flit) | linkRetrainDone (link : BitVec 5) | linkDown (link : BitVec 5)
  | fabricTransaction (t : Txn) | transactionAck (id : Nat) (a : TxnReply) (data : List Byte)
  -- media (R374, R375)
  | frameStart (part : BitVec 4) (slot : BitVec 5) | frameComplete (part : BitVec 4) (slot : BitVec 5)
  -- management (R342, R376 to R382)
  | status (req : List Byte) | readId (req : List Byte) | readLog (req : List Byte) | loadRecovery (req : List Byte)
  | readSensors (req : List Byte) | attest (req : List Byte) | updateWrite (req : List Byte)
  | updateActivate (req : List Byte) | readConfig (req : List Byte)
  | powerUp (cxlCaps : List Nat)
  | unassignedOpcode (w : Word) | hciWrite (vf : BitVec 7) (node : BitVec 11) (hci : BitVec 32)
  | cxlDeviceFailed (port : BitVec 2)
  -- the rows without operands (R112, R119, R122, R148, R168 to R174, R304, R319, R320, R379, R382)
  | minv | mpop | commitCheck | reentry | waitcExpiry | eret | halt | yield | nop
  | preemptArrival | saveAreaReserve | contextSwap | contextUnreserve | scannerTick | sensorRefresh | thermalCoolRaise | thermalTrip | powerLoss
  deriving DecidableEq, Repr

end Sys2Proof
end

