-- ==== Sys2Proof/Machine/Float.lean ====
section
/-! DEFINITION. Number formats, the one rounding function, flags and exact arithmetic (R38 to R64). Reals are exact:
a sign, a natural significand and an exponent of two, with a mark for a remainder that is not zero but below one unit of the
significand (quotients and roots only). -/

namespace Sys2Proof.Machine

/-- The floating formats of R38. -/
inductive FFmt where
  | fp32 | bf16 | fp16 | e5m2 | e4m3 | e2m1
  deriving DecidableEq, Repr

/-- Fraction bits. -/
def FFmt.mbits : FFmt → Nat
  | .fp32 => 23 | .bf16 => 7 | .fp16 => 10 | .e5m2 => 2 | .e4m3 => 3 | .e2m1 => 1

/-- Exponent bits. -/
def FFmt.ebits : FFmt → Nat
  | .fp32 => 8 | .bf16 => 8 | .fp16 => 5 | .e5m2 => 5 | .e4m3 => 4 | .e2m1 => 2

def FFmt.bias : FFmt → Nat
  | .fp32 => 127 | .bf16 => 127 | .fp16 => 15 | .e5m2 => 15 | .e4m3 => 7 | .e2m1 => 1

/-- The exponent of the least normal number. -/
def FFmt.emin (f : FFmt) : Int := 1 - f.bias

/-- The pattern of the largest finite number (R38). -/
def FFmt.maxPat : FFmt → Nat
  | .fp32 => 0x7F7FFFFF | .bf16 => 0x7F7F | .fp16 => 0x7BFF | .e5m2 => 0x7B | .e4m3 => 0x7E | .e2m1 => 0x7

/-- The sign bit's weight. -/
def FFmt.signBit (f : FFmt) : Nat := 2 ^ (f.ebits + f.mbits)

/-- The pattern of positive infinity, where the format has one. -/
def FFmt.infPat : FFmt → Option Nat
  | .fp32 => some 0x7F800000 | .bf16 => some 0x7F80 | .fp16 => some 0x7C00 | .e5m2 => some 0x7C
  | .e4m3 => none | .e2m1 => none

/-- The canonical NaN of R39. -/
def FFmt.nanPat : FFmt → Option Nat
  | .fp32 => some 0x7FC00000 | .bf16 => some 0x7FC0 | .fp16 => some 0x7E00 | .e5m2 => some 0x7E | .e4m3 => some 0x7F
  | .e2m1 => none

/-- A value: NaN, an infinity, or ±m × 2^e, exact (`neg` is the sign of a zero too). -/
inductive Val where
  | nan (signalling : Bool)
  | inf (neg : Bool)
  | fin (neg : Bool) (m : Nat) (e : Int)
  deriving DecidableEq, Repr

/-- Numerical flags in the bit order of R55. -/
abbrev Flags := BitVec 8

def flagNV : Flags := 1
def flagDZ : Flags := 2
def flagOF : Flags := 4
def flagUF : Flags := 8
def flagNX : Flags := 16
def flagSAT : Flags := 32
def flagNANS : Flags := 64
def flagOVR : Flags := 128

/-- A flag that a condition sets. -/
def flagIf (c : Bool) (f : Flags) : Flags := if c then f else 0

/-- The value of a pattern (R38, R39). -/
def valOf (f : FFmt) (pat : Nat) : Val :=
  let p := pat % (2 * f.signBit)
  let neg := decide (f.signBit ≤ p)
  let mag := p % f.signBit
  let ex := mag / 2 ^ f.mbits
  let fr := mag % 2 ^ f.mbits
  if f.infPat.any (fun i => mag == i) then .inf neg
  else if f.maxPat < mag then .nan (match f with
    | .fp32 | .bf16 | .fp16 => decide (fr < 2 ^ (f.mbits - 1))
    | .e5m2 | .e4m3 | .e2m1 => false)
  else if ex = 0 then .fin neg fr (f.emin - f.mbits)
  else .fin neg (2 ^ f.mbits + fr) ((ex : Int) - f.bias - f.mbits)

def Val.isNan : Val → Bool
  | .nan _ => true
  | _ => false

def Val.isSnan : Val → Bool
  | .nan s => s
  | _ => false

def Val.isInf : Val → Bool
  | .inf _ => true
  | _ => false

def Val.isZero : Val → Bool
  | .fin _ m _ => m == 0
  | _ => false

def Val.neg : Val → Bool
  | .nan _ => false
  | .inf n => n
  | .fin n _ _ => n

def Val.abs : Val → Val
  | .nan s => .nan s
  | .inf _ => .inf false
  | .fin _ m e => .fin false m e

def Val.flip : Val → Val
  | .nan s => .nan s
  | .inf n => .inf (!n)
  | .fin n m e => .fin (!n) m e

/-- A rounded result and its flags. -/
structure Rounded where
  pat : Nat
  flags : Flags
  deriving DecidableEq, Repr

/-- A signed pattern. -/
def withSign (f : FFmt) (neg : Bool) (mag : Nat) : Nat := if neg then f.signBit + mag else mag

/-- NaNOut of R47: the canonical NaN; +0 with NV for E2M1 (R51). -/
def nanOut (f : FFmt) : Rounded :=
  match f.nanPat with
  | some p => ⟨p, 0⟩
  | none => ⟨0, flagNV⟩

/-- InfOut of R49. -/
def infOut (f : FFmt) (neg sat : Bool) : Rounded :=
  match f.infPat with
  | some p => ⟨withSign f neg p, 0⟩
  | none =>
    match f with
    | .e2m1 => ⟨withSign f neg f.maxPat, flagSAT⟩
    | _ => if sat then ⟨withSign f neg f.maxPat, flagSAT⟩ else ⟨0x7F, flagNV⟩

/-- Does the mode round away from zero in the direction of the sign (R48)? -/
def awayFromZero (neg : Bool) : Rm → Bool
  | .rne | .sr => true
  | .rtz => false
  | .rpi => !neg
  | .rni => neg

/-- Overflow of R48. -/
def overflow (f : FFmt) (neg : Bool) (mode : Rm) (sat : Bool) : Rounded :=
  let big := withSign f neg f.maxPat
  match f with
  | .e2m1 => ⟨big, flagNX ||| flagSAT⟩
  | _ =>
    if sat then ⟨big, flagNX ||| flagSAT⟩
    else if awayFromZero neg mode then
      match f.infPat with
      | some p => ⟨withSign f neg p, flagNX ||| flagOF⟩
      | none => ⟨0x7F, flagNX ||| flagOF⟩
    else ⟨big, flagNX ||| flagOF⟩

/-- Whether the upper neighbour is taken, for a magnitude `n + (r + sticky) / 2^shift` with `r < 2^shift` that is no
integer (R47). -/
def roundUp (neg : Bool) (mode : Rm) (hash : BitVec 16) (n r shift : Nat) (sticky : Bool) : Bool :=
  match mode with
  | .rne =>
    if shift = 0 then false
    else
      let half := 2 ^ (shift - 1)
      if r > half then true
      else if r = half then sticky || n % 2 == 1
      else false
  | .rtz => false
  | .rpi => !neg
  | .rni => neg
  | .sr => decide (2 ^ 16 ≤ r * 2 ^ 16 / 2 ^ shift + hash.toNat)

/-- The significand, exponent and greatest value of a finite magnitude `n × 2^q` as a pattern. -/
def packMag (f : FFmt) (n : Nat) (q : Int) : Nat :=
  if n < 2 ^ f.mbits then n
  else
    let n' := if n = 2 ^ (f.mbits + 1) then 2 ^ f.mbits else n
    let q' := if n = 2 ^ (f.mbits + 1) then q + 1 else q
    (q' + f.mbits + f.bias).toNat * 2 ^ f.mbits + (n' - 2 ^ f.mbits)

/-- RoundTo of R47 for the magnitude `(m + sticky) × 2^e`. -/
def roundMag (f : FFmt) (neg : Bool) (m : Nat) (e : Int) (sticky : Bool) (mode : Rm) (sat : Bool) (hash : BitVec 16) :
    Rounded :=
  if m = 0 then ⟨withSign f neg 0, 0⟩
  else
    let top : Int := (Nat.log2 m : Int) + e
    let q : Int := max top f.emin - f.mbits
    let shift : Nat := (q - e).toNat
    let n := if e < q then m / 2 ^ shift else m * 2 ^ (e - q).toNat
    let r := if e < q then m % 2 ^ shift else 0
    let exact := r == 0 && !sticky
    let n' := if exact then n else if roundUp neg mode hash n r shift sticky then n + 1 else n
    let fl : Flags := if exact then 0 else flagNX ||| flagIf (decide (top < f.emin)) flagUF
    let pat := packMag f n' q
    if f.maxPat < pat then
      let o := overflow f neg mode sat
      ⟨o.pat, o.flags ||| fl⟩
    else ⟨withSign f neg pat, fl⟩

/-- RoundTo of R47. -/
def roundTo (f : FFmt) (v : Val) (mode : Rm) (sat : Bool) (hash : BitVec 16) : Rounded :=
  match v with
  | .nan _ => nanOut f
  | .inf neg => infOut f neg sat
  | .fin neg m e => roundMag f neg m e false mode sat hash

/-! Exact arithmetic on values, with the special cases of R57. -/

/-- A value and the flags its computation raised before rounding. -/
structure Exact where
  v : Val
  sticky : Bool
  flags : Flags
  deriving DecidableEq, Repr

def Exact.of (v : Val) : Exact := ⟨v, false, 0⟩

/-- NV of a signalling operand (R39) (DEDUCED, log entry 73). -/
def snanFlag (xs : List Val) : Flags := flagIf (xs.any Val.isSnan) flagNV

/-- The signed significand of ±m × 2^e at a lower exponent `b`. -/
def signedAt (neg : Bool) (m : Nat) (e b : Int) : Int :=
  let k : Int := (m * 2 ^ (e - b).toNat : Nat)
  if neg then -k else k

/-- A value from a signed significand; `z` is the sign of an exact zero. -/
def ofSigned (k : Int) (e : Int) (z : Bool) : Val :=
  if k = 0 then .fin z 0 0 else .fin (decide (k < 0)) k.natAbs e

/-- The exact sum, with the zero rules of R57. -/
def exactAdd (x y : Val) (mode : Rm) : Exact :=
  match x, y with
  | .nan _, _ | _, .nan _ => ⟨.nan false, false, snanFlag [x, y]⟩
  | .inf a, .inf b => if a = b then ⟨.inf a, false, 0⟩ else ⟨.nan false, false, flagNV⟩
  | .inf a, .fin .. => ⟨.inf a, false, 0⟩
  | .fin .., .inf b => ⟨.inf b, false, 0⟩
  | .fin a m e, .fin b n g =>
    if m = 0 ∧ n = 0 ∧ a = b then ⟨.fin a 0 0, false, 0⟩
    else
      let lo := min e g
      ⟨ofSigned (signedAt a m e lo + signedAt b n g lo) lo (mode == .rni), false, 0⟩

/-- The exact product. -/
def exactMul (x y : Val) : Exact :=
  match x, y with
  | .nan _, _ | _, .nan _ => ⟨.nan false, false, snanFlag [x, y]⟩
  | .inf a, .inf b => ⟨.inf (a != b), false, 0⟩
  | .inf a, .fin b n _ => if n = 0 then ⟨.nan false, false, flagNV⟩ else ⟨.inf (a != b), false, 0⟩
  | .fin a m _, .inf b => if m = 0 then ⟨.nan false, false, flagNV⟩ else ⟨.inf (a != b), false, 0⟩
  | .fin a m e, .fin b n g => ⟨.fin (a != b) (m * n) (e + g), false, 0⟩

/-- The exact x × y + z. -/
def exactFma (x y z : Val) (mode : Rm) : Exact :=
  let p := exactMul x y
  let r := exactAdd p.v z mode
  ⟨r.v, false, p.flags ||| r.flags⟩

/-- The quotient to 96 bits beyond its operands, with its remainder marked. -/
def exactDiv (x y : Val) : Exact :=
  match x, y with
  | .nan _, _ | _, .nan _ => ⟨.nan false, false, snanFlag [x, y]⟩
  | .inf _, .inf _ => ⟨.nan false, false, flagNV⟩
  | .inf a, .fin b _ _ => ⟨.inf (a != b), false, 0⟩
  | .fin a _ _, .inf b => ⟨.fin (a != b) 0 0, false, 0⟩
  | .fin a m e, .fin b n g =>
    if n = 0 then (if m = 0 then ⟨.nan false, false, flagNV⟩ else ⟨.inf (a != b), false, flagDZ⟩)
    else if m = 0 then ⟨.fin (a != b) 0 0, false, 0⟩
    else
      let k := 96 + Nat.log2 n
      let d := m * 2 ^ k
      ⟨.fin (a != b) (d / n) (e - g - k), d % n != 0, 0⟩

/-- The integer square root, bit by bit from bit `fuel - 1` down. -/
def isqrtFrom (n : Nat) : Nat → Nat → Nat
  | 0, r => r
  | k + 1, r => if (r + 2 ^ k) * (r + 2 ^ k) ≤ n then isqrtFrom n k (r + 2 ^ k) else isqrtFrom n k r

def isqrt (n : Nat) : Nat := isqrtFrom n (Nat.log2 n / 2 + 1) 0

/-- The square root to 64 bits beyond its operand, with its remainder marked. -/
def exactSqrt (x : Val) : Exact :=
  match x with
  | .nan s => ⟨.nan false, false, flagIf s flagNV⟩
  | .inf neg => if neg then ⟨.nan false, false, flagNV⟩ else ⟨.inf false, false, 0⟩
  | .fin neg m e =>
    if m = 0 then ⟨.fin neg 0 0, false, 0⟩
    else if neg then ⟨.nan false, false, flagNV⟩
    else
      let odd := e % 2 != 0
      let m' := if odd then m * 2 ^ 129 else m * 2 ^ 128
      let e' := if odd then (e - 129) / 2 else (e - 128) / 2
      let r := isqrt m'
      ⟨.fin false r e', r * r != m', 0⟩

/-- Round an exact result, collecting its flags. -/
def Exact.round (x : Exact) (f : FFmt) (mode : Rm) (sat : Bool) (hash : BitVec 16) : Rounded :=
  match x.v with
  | .fin neg m e =>
    let r := roundMag f neg m e x.sticky mode sat hash
    ⟨r.pat, r.flags ||| x.flags⟩
  | v =>
    let r := roundTo f v mode sat hash
    ⟨r.pat, r.flags ||| x.flags⟩

/-- The exact order of two values that are not NaN: is x below y? -0 equals +0. -/
def Val.lt (x y : Val) : Bool :=
  match x, y with
  | .nan _, _ | _, .nan _ => false
  | .inf a, .inf b => a && !b
  | .inf a, .fin .. => a
  | .fin .., .inf b => !b
  | .fin a m e, .fin b n g =>
    let lo := min e g
    decide (signedAt a m e lo < signedAt b n g lo)

def Val.eq (x y : Val) : Bool := !x.isNan && !y.isNan && !x.lt y && !y.lt x

/-- The conditions of R108, with the NaN rule of R57. -/
def FCond.holds (c : FCond) (x y : Val) : Bool :=
  match c with
  | .eq => x.eq y
  | .ne => !x.eq y
  | .lt => x.lt y
  | .ge => !x.isNan && !y.isNan && !x.lt y
  | .le => !x.isNan && !y.isNan && !y.lt x
  | .gt => y.lt x

/-- FMIN and FMAX of R57 on FP32 patterns; the chosen operand keeps its pattern. -/
def fminmax (isMax : Bool) (a b : Nat) : Rounded :=
  let x := valOf .fp32 a
  let y := valOf .fp32 b
  let fl := snanFlag [x, y]
  if x.isNan && y.isNan then ⟨0x7FC00000, fl⟩
  else if x.isNan then ⟨b, fl⟩
  else if y.isNan then ⟨a, fl⟩
  else if x.isZero && y.isZero then
    ⟨if isMax then (if x.neg && y.neg then 0x80000000 else 0) else (if x.neg || y.neg then 0x80000000 else 0), fl⟩
  else if (if isMax then x.lt y else y.lt x) then ⟨b, fl⟩ else ⟨a, fl⟩

/-! The FP32 operations that FALU, the chisels and the atomics share. -/

def fpAdd (a b : Nat) (mode : Rm) (sat : Bool) (hash : BitVec 16) : Rounded :=
  (exactAdd (valOf .fp32 a) (valOf .fp32 b) mode).round .fp32 mode sat hash

def fpSub (a b : Nat) (mode : Rm) (sat : Bool) (hash : BitVec 16) : Rounded :=
  (exactAdd (valOf .fp32 a) (valOf .fp32 b).flip mode).round .fp32 mode sat hash

def fpMul (a b : Nat) (mode : Rm) (sat : Bool) (hash : BitVec 16) : Rounded :=
  (exactMul (valOf .fp32 a) (valOf .fp32 b)).round .fp32 mode sat hash

def fpFma (a b c : Nat) (mode : Rm) (sat : Bool) (hash : BitVec 16) : Rounded :=
  (exactFma (valOf .fp32 a) (valOf .fp32 b) (valOf .fp32 c) mode).round .fp32 mode sat hash

def fpDiv (a b : Nat) (mode : Rm) (sat : Bool) (hash : BitVec 16) : Rounded :=
  (exactDiv (valOf .fp32 a) (valOf .fp32 b)).round .fp32 mode sat hash

def fpSqrt (a : Nat) (mode : Rm) (sat : Bool) (hash : BitVec 16) : Rounded :=
  (exactSqrt (valOf .fp32 a)).round .fp32 mode sat hash

/-! Integers (R44, R50). -/

/-- A two's-complement number of width `w`. -/
def toSigned (w n : Nat) : Int := if 2 ^ (w - 1) ≤ n % 2 ^ w then (n % 2 ^ w : Nat) - (2 ^ w : Nat) else (n % 2 ^ w : Nat)

/-- The pattern of an integer at width `w`. -/
def ofSignedInt (w : Nat) (k : Int) : Nat := (k % (2 ^ w : Nat)).toNat

/-- Clamp to the bounds of width `w`, with SAT where the bound replaces the number. -/
def clampInt (w : Nat) (k : Int) : Int × Flags :=
  let hi : Int := (2 ^ (w - 1) : Nat) - 1
  let lo : Int := -(2 ^ (w - 1) : Nat)
  if k > hi then (hi, flagSAT) else if k < lo then (lo, flagSAT) else (k, 0)

/-- Conversion to I8 or I32 (R50). -/
def toInt (w : Nat) (x : Exact) (mode : Rm) (hash : BitVec 16) : Rounded :=
  match x.v with
  | .nan _ => ⟨0, flagNV ||| x.flags⟩
  | .inf neg => ⟨ofSignedInt w (if neg then -(2 ^ (w - 1) : Nat) else (2 ^ (w - 1) : Nat) - 1), flagSAT ||| x.flags⟩
  | .fin neg m e =>
    let shift := (-e).toNat
    let n := if e < 0 then m / 2 ^ shift else m * 2 ^ e.toNat
    let r := if e < 0 then m % 2 ^ shift else 0
    let exact := r == 0 && !x.sticky
    let n' := if exact then n else if roundUp neg mode hash n r shift x.sticky then n + 1 else n
    let c := clampInt w (if neg then -(n' : Int) else n')
    ⟨ofSignedInt w c.1, c.2 ||| flagIf (!exact) flagNX ||| x.flags⟩

/-- An integer as an exact value. -/
def valOfInt (k : Int) : Val := .fin (decide (k < 0)) k.natAbs 0

/-! Stochastic rounding bits (R52, R53). -/

/-- The mixing step of R52 and R173, before its last line. -/
def srMix (x : Word) : Word :=
  let y := (x ^^^ (x >>> 33)) * 0x8F3A5C6127E9B4D5
  y ^^^ (y >>> 29)

def srHash (pa : Word) (steptag : BitVec 16) (seed : Word) : BitVec 16 :=
  (srMix (pa ^^^ ((steptag.setWidth 64) <<< 48) ^^^ seed)).setWidth 16

/-- pa of a scalar destination (R53). -/
def paScalar (d : Reg) : Word := BitVec.ofNat 64 (2 ^ 61 + d.toNat * 8)

/-- pa of an accumulator element (R53). -/
def paAcc (n i j : Nat) : Nat := 2 ^ 60 + n * 2 ^ 14 + i * 2 ^ 8 + j * 4

/-! Sums of the matrix pipeline (R58 to R64). -/

/-- Running state of ChunkSum: exact sum, and what it has met. -/
structure Chunk where
  k : Int
  e : Int
  posInf : Bool
  negInf : Bool
  nan : Bool
  flags : Flags
  deriving DecidableEq, Repr

def Chunk.zero : Chunk := ⟨0, 0, false, false, false, 0⟩

/-- Add one exact value to a chunk. -/
def Chunk.addVal (c : Chunk) (v : Val) : Chunk :=
  match v with
  | .nan s => { c with nan := true, flags := c.flags ||| flagIf s flagNV }
  | .inf neg => if neg then { c with negInf := true } else { c with posInf := true }
  | .fin neg m e =>
    if m = 0 then c
    else if c.k = 0 then { c with k := signedAt neg m e e, e := e }
    else
      let lo := min c.e e
      { c with k := c.k * 2 ^ (c.e - lo).toNat + signedAt neg m e lo, e := lo }

/-- Add one product to a chunk (R58). -/
def Chunk.addProd (c : Chunk) (x y : Val) : Chunk :=
  let p := exactMul x y
  let c := { c with flags := c.flags ||| snanFlag [x, y] ||| p.flags }
  c.addVal (match p.v with | .nan _ => .nan false | v => v)

/-- The result of a chunk: an exact zero sum is +0 (R58). -/
def Chunk.result (c : Chunk) : Exact :=
  if c.nan then ⟨.nan false, false, c.flags⟩
  else if c.posInf && c.negInf then ⟨.nan false, false, c.flags ||| flagNV⟩
  else if c.posInf then ⟨.inf false, false, c.flags⟩
  else if c.negInf then ⟨.inf true, false, c.flags⟩
  else ⟨ofSigned c.k c.e false, false, c.flags⟩

/-- ChunkSum of R58. -/
def chunkSum (ps : List (Val × Val)) : Exact := (ps.foldl (fun c p => c.addProd p.1 p.2) Chunk.zero).result

/-- AccAdd of R59 on FP32 patterns. A signalling operand sets NV (R39, DEDUCED, log entry 73). -/
def accAdd (acc : Nat) (c : Nat) (accsat : Bool) : Rounded :=
  let x := valOf .fp32 acc
  let y := valOf .fp32 c
  if x.isNan || y.isNan then ⟨0x7FC00000, snanFlag [x, y]⟩ else (exactAdd x y .rne).round .fp32 .rne accsat 0

/-- S × a × b exactly, with NV where a zero meets an infinity (R62, R64). -/
def scaled (s : Exact) (a b : Val) : Exact :=
  let p := exactMul s.v a
  let q := exactMul p.v b
  let vs := [s.v, a, b]
  let bad := vs.any Val.isZero && vs.any Val.isInf && !vs.any Val.isNan
  if bad then ⟨.nan false, false, s.flags ||| flagNV⟩ else ⟨q.v, false, s.flags⟩

/-- A promoted contribution: its accumulation, and its flags (R61 to R64). -/
def promote (acc : Rounded) (s : Exact) (accsat : Bool) : Rounded :=
  let c := s.round .fp32 .rne accsat 0
  let r := accAdd acc.pat c.pat accsat
  ⟨r.pat, acc.flags ||| c.flags ||| r.flags⟩

/-- The contribution of a chunk with a NaN scale: NaN with NANS, and what the chunk's own sum and its scales have raised (R62, R64)
(DEDUCED, log entry 73). -/
def promoteNan (acc : Rounded) (fl : Flags) : Rounded :=
  let r := accAdd acc.pat 0x7FC00000 false
  ⟨r.pat, acc.flags ||| fl ||| r.flags ||| flagNANS⟩

/-- An I8 chunk onto an I32 accumulator (R63). -/
def promoteInt (acc : Rounded) (s : Int) : Rounded :=
  let c := clampInt 32 (toSigned 32 acc.pat + s)
  ⟨ofSignedInt 32 c.1, acc.flags ||| c.2⟩

/-! Block formats (R40 to R42, R51). -/

/-- The value of an E8M0 scale; 0xFF is NaN (R40). -/
def e8m0Val (n : Nat) : Val := if n % 256 = 255 then .nan false else .fin false 1 ((n % 256 : Nat) - 127)

/-- The G4 grid in units of 2^-8 (R42). -/
def g4Grid : List Int := [-256, -178, -134, -101, -73, -48, -23, 0, 20, 41, 65, 91, 121, 156, 199, 256]

/-- The value of a G4 code. -/
def g4Val (code : Nat) : Val := ofSigned (g4Grid.getD (code % 16) 0) (-8) false

/-- The neighbours of a value on the grid: the greatest code whose grid value is not above it. -/
def g4Below (x : Val) : Nat → Nat
  | 0 => 0
  | k + 1 => if x.lt (g4Val (k + 1)) then g4Below x k else k + 1

/-- The exact distance x - lo as a fraction of hi - lo, times 2^16, floored (R51); `below` marks a negative value whose
remainder puts it just below `x`. -/
def g4Frac (x lo hi : Val) (below : Bool) : Nat :=
  match x, lo, hi with
  | .fin a m e, .fin b n g, .fin c o i =>
    let low := min (min e g) i
    let xs := signedAt a m e low
    let ls := signedAt b n g low
    let hs := signedAt c o i low
    let f := (((xs - ls) * 2 ^ 16) / (hs - ls)).toNat
    if below && ((xs - ls) * 2 ^ 16) % (hs - ls) == 0 then f - 1 else f
  | _, _, _ => 0

/-- Is the value nearer to hi than to lo: less, equal, greater of twice the distance? -/
def g4Near (x lo hi : Val) : Ordering :=
  match x, lo, hi with
  | .fin a m e, .fin b n g, .fin c o i =>
    let low := min (min e g) i
    compare (2 * signedAt a m e low) (signedAt b n g low + signedAt c o i low)
  | _, _, _ => .eq

/-- Conversion of a scaled value to a G4 code (R51). `sticky` marks a quotient's remainder, which keeps the value off the
grid and off every tie. -/
def toG4 (x : Exact) (mode : Rm) (hash : BitVec 16) : Rounded :=
  match x.v with
  | .nan _ => ⟨7, flagNV ||| x.flags⟩
  | .inf neg => ⟨if neg then 0 else 15, flagSAT ||| flagNX ||| x.flags⟩
  | v =>
    let one := g4Val 15
    let above := one.lt v || (v.eq one && x.sticky)
    let below := v.lt (g4Val 0) || (v.eq (g4Val 0) && x.sticky)
    if above then ⟨15, flagSAT ||| flagNX ||| x.flags⟩
    else if below then ⟨0, flagSAT ||| flagNX ||| x.flags⟩
    else
      let lo0 := g4Below v 15
      -- a negative value with a remainder lies below the grid point it seems to equal
      let lo := if x.sticky && v.neg && v.eq (g4Val lo0) then lo0 - 1 else lo0
      if !x.sticky && v.eq (g4Val lo) then ⟨lo, x.flags⟩
      else
        let hi := lo + 1
        let l := g4Val lo
        let h := g4Val hi
        let near := match g4Near v l h with
          | .lt => false
          | .gt => true
          | .eq => if x.sticky then !v.neg else decide (8 ≤ hi) == false
        let up := match mode with
          | .rne => near
          | .rtz => v.neg
          | .rpi => true
          | .rni => false
          | .sr => decide (2 ^ 16 ≤ g4Frac v l h (x.sticky && v.neg) + hash.toNat)
        ⟨if up then hi else lo, flagNX ||| x.flags⟩

end Sys2Proof.Machine
end

