-- ==== Sys2Proof/Config.lean ====
section
/-! DEFINITION. What the spec leaves open, as free values with no body: nothing in Lean can compute one, so a
statement about the machine holds whatever they are. The argument is the machine's counter `State.free`, which every use
advances, or the operands the open value depends on. -/

namespace Sys2Proof.Config

/-- A time the spec bounds from below only (a page walk, a line fill, the path to a home slice): the cycles beyond the
stated earliest time (R124, R130, R134, R291). DESIGN CHOICE, log entry 5. -/
opaque freeDelay : Nat → Nat

/-- Whether a thing the spec leaves to the outside holds: a signature that authenticates, a choice the spec does not
make. DESIGN CHOICE, log entries 8 and 12. -/
opaque freeBool : Nat → Bool

/-- A byte whose value the spec leaves undefined (a poisoned word's contents, a peer's answer, a bitstream). Log entries
11 and 14. -/
opaque freeByte : Nat → Byte

/-- A 64-bit value that the spec leaves open (a sensor reading, a serial number, a certificate word). DESIGN CHOICE, log entry 13. -/
opaque freeWord : Nat → Word

/-- Does a sensor of the part read power, and not temperature (R377)? DESIGN CHOICE, log entry 13. -/
opaque sensorPower : Nat → Bool

/-- The words of the firmware context's program, which the spec says exists and does not give. DESIGN CHOICE, log entry 10. -/
opaque firmwareWord : Word → Word

/-- The routing table of the fabric: the link by which a node's transactions go (R363). DESIGN CHOICE, log entry 25. -/
opaque freeRoute : Nat → Nat

/-- Whether an image or a record authenticates, as a function of its bytes: the keys are the vendor's. DESIGN CHOICE, log entry 12. -/
opaque authentic : List Byte → Bool

/-- The version that a firmware image carries. DESIGN CHOICE, log entry 12. -/
opaque imageVersion : List Byte → Nat

/-- The identity certificate: its length and its bytes (R379). DESIGN CHOICE, log entry 12. -/
opaque certificateLength : Nat

opaque certificateByte : Nat → Byte

/-- What an encoder keeps of the pictures so far, from what it kept before, its descriptor and the bytes of a picture (none
for a repeat); and the length and the bytes of the bitstream it then writes (R375). DESIGN CHOICE, log entry 14. -/
opaque encodeStep : Word → List Word → List Byte → Word

opaque encodeLength : Word → Nat

opaque encodeByte : Word → Nat → Byte

/-- The 96 bytes of an ECDSA signature over a message: the spec names the algorithm, the key is secret. DESIGN CHOICE, log entry 12. -/
opaque signatureByte : List Byte → Nat → Byte

/-- The page of a context's save area in its partition's HBM, by partition, launch and logical core (R319). DESIGN CHOICE, log entry 10. -/
opaque savePage : Nat → Nat → Nat → Nat

end Sys2Proof.Config
end

