-- ==== Sys2Proof/WellFormed.lean ====
section
/-! DEFINITION. The limits on the operands of an instruction that its decoder, PLOAD or the push of its record enforces
(R74, R75, R79, R80, R84, R86, R88, R191). A term that breaks one is no encoding of the machine. -/

namespace Sys2Proof

/-- A request that asks for no permission is ILLEGAL (R123, R135). -/
def Perms.some (p : Perms) : Bool := p.rd || p.wr || p.at_

/-- The command code of a record, W0 [63:56] (R87). -/
def CmdRec.code (r : CmdRec) : Nat := r.w0.toNat / 2 ^ 56

/-- The MODE bit of an RSPAN record, W1 [63] (R251). -/
def CmdRec.mode (r : CmdRec) : Bool := r.w1.toNat / 2 ^ 63 == 1

/-- A start names the queue that serves the command and carries its code; a beat of a running command is the
machine's own (R88). -/
def startOk (code : Nat) (q : Queue) (r : CmdRec) : Beat → Bool
  | .start q' => r.code == code && q' == q
  | .read _ | .write _ => r.code == code

/-- SETF and WAITF may be pushed into any queue (R151). -/
def startAnyOk (code : Nat) (r : CmdRec) : Bool := r.code == code

/-- The sizes and functions an atomic admits (R84, R132). -/
def atomOk (h : HReg) (sz : Size) (fn : AmoFn) : Bool :=
  h != 0 && (sz == .w || sz == .d) && !(fn == .fadd && sz == .d)

/-- Operand limits of every instruction. -/
def wellFormed : Instr → Bool
  | .add .. | .sub .. | .and .. | .or .. | .xor .. | .andn .. | .shl .. | .shr .. | .sar .. | .rol .. | .ror ..
  | .mul .. | .mulh .. | .mulhn .. | .div .. | .divn .. | .rem .. | .remn .. | .min .. | .max .. | .minn .. | .maxn ..
  | .clz .. | .ctz .. | .popc .. | .bswap .. | .sext .. | .zext .. => true
  | .addi .. | .andi .. | .ori .. | .xori .. | .muli .. | .li .. | .lih .. | .la .. => true
  | .shli _ _ i | .shri _ _ i | .sari _ _ i => decide (i.toNat ≤ 63)
  | .cmp .. | .cmpi .. | .pand .. | .por .. | .pxor .. | .pnot .. | .pmov .. | .sel .. | .movpsGet .. | .movpsSet .. => true
  | .fadd .. | .fsub .. | .fmul .. | .fdiv .. | .fmin .. | .fmax .. | .fsqrt .. | .fabs .. | .fneg .. | .fcmp ..
  | .fcvtF2i .. | .fcvtI2f .. | .fcvtF2b .. | .fcvtB2f .. | .scalarWriteback .. => true
  | .b .. | .bcmp .. | .call .. | .ret .. | .bi .. | .loop .. | .bzm .. => true
  | .mpush .. | .minv | .mpop => true
  | .mget a b => a != b || a == 0
  | .xlate h _ p => h != 0 && p.some
  | .xlateComplete .. => true
  | .hinv h => h != 0
  | .hinfo d _ => decide (1 ≤ d.toNat) && decide (d.toNat ≤ 62)
  | .ld d m sz sx inc => !(sx && sz == .d) && (!inc || (m.x != 0 && d != m.x))
  | .ldReturn .. => true
  | .st _ m _ inc => !inc || m.x != 0
  | .amo _ m sz sx _ c fn => atomOk m.h sz fn && !(sx && sz == .d) && (fn == .cas || c == 0)
  | .amoReturn .. => true
  | .amop m sz _ fn => atomOk m.h sz fn && fn != .cas
  | .homeSliceApply .. => true
  | .probe _ _ p => p.some
  | .probeComplete .. | .pref .. | .l2Fill .. => true
  | .region len _ => len != 0
  | .commit .. | .commitCheck | .publishApply .. | .regionLong .. | .reentry | .translationInvalidate .. => true
  | .fence _ mask => mask != 0
  | .fenceComplete .. => true
  | .arrive _ pt | .waitrv _ pt | .rvinit _ pt _ | .rvflags _ pt _ => decide (pt.toNat ≤ 23)
  | .rvArrival .. | .rvInitApply .. | .rvAnswer .. | .waitrvRelease .. | .bar .. | .barRelease .. | .rvflagsReply .. => true
  | .flagw .. | .dccr .. | .waitc .. | .waitcExpiry => true
  | .align _ t => t != 0
  | .alignComplete .. | .alignTimeout .. => true
  | .qpush _ _ a | .tmpl _ a => decide (a.toNat ≤ 56)
  | .qpusht .. | .qstat .. | .cruiserRecordCheck .. | .shape .. | .shapeGrant .. => true
  | .mburst n => n != 0
  | .mburstWindowEnd .. | .rampUpDone .. | .rampHoldExpiry .. | .rampDownEnd .. | .layer .. => true
  | .pload _ _ n => decide (1 ≤ n.toNat) && decide (n.toNat ≤ 16)
  | .ploadInstall .. | .pbind .. | .pbindUn .. | .pconst .. | .pstat .. => true
  | .pctl _ ctl => decide (ctl.toNat < 2 ^ 13) && decide (ctl.toNat / 2 ^ 9 % 8 ≤ 4)
  | .ttagRd _ t | .ttagWr t _ | .tclr t => decide (t.toNat ≤ 95)
  | .csrr .. | .csrw .. | .trap .. | .eret | .halt | .yield | .nop | .lsstep .. | .seed .. | .event ..
  | .ctxsave .. | .ctxload .. => true
  | .chiselFadd .. | .chiselFsub .. | .chiselFmul .. | .chiselFma .. | .chiselFmin .. | .chiselFmax ..
  | .chiselFabs .. | .chiselFneg .. | .chiselClamp .. | .chiselFcmp .. | .chiselSel .. | .chiselCvt .. | .chiselCvtI2f ..
  | .chiselExp2 .. | .chiselLog2 .. | .chiselRcp .. | .chiselRsqrt .. | .chiselIadd .. | .chiselIaddImm ..
  | .chiselIand .. | .chiselIandImm .. | .chiselIshl .. | .chiselIshlImm .. | .chiselMovk .. | .chiselMovkX ..
  | .chiselGetc .. | .chiselPutc .. | .chiselPrev .. | .chiselOut .. | .chiselCoordRow .. | .chiselCoordCol ..
  | .chiselDrop .. => true
  | .chiselCacc _ _ m rm => m == .add || m == .sqadd || rm == .rne
  | .chiselRaise _ _ f => f != 0
  | .mma r b => startOk 0x01 .qm r b
  | .mmaSp r b => startOk 0x02 .qm r b
  | .mmaMx r b => startOk 0x03 .qm r b
  | .accz r b => startOk 0x04 .qm r b
  | .accst r b => startOk 0x05 .qm r b
  | .fload r b => startOk 0x06 .qm r b
  | .forest r b => startOk 0x07 .qm r b
  | .leafg r b => startOk 0x08 .qm r b
  | .copy r b => startOk 0x10 .qc r b
  | .fill r b => startOk 0x11 .qc r b
  | .reduce r b => startOk 0x18 .qr r b
  | .quant r b => startOk 0x20 .qv r b
  | .deq r b => startOk 0x21 .qv r b
  | .attn r b => startOk 0x28 .qk r b
  | .kappend r b => startOk 0x29 .qk r b
  | .kchase r b => startOk 0x2A .qk r b
  | .yarderHoldExpiry .. => true
  | .rspanK r b => startOk 0x2B .qk r b && !r.mode
  | .rspanC r b => startOk 0x2B .qk r b && r.mode
  | .ktopk r b => startOk 0x2C .qk r b
  | .kcompact r b => startOk 0x2D .qk r b
  | .beamset r b => startOk 0x2E .qk r b
  | .sgath r b => startOk 0x30 .qg r b
  | .sgpat r b => startOk 0x31 .qg r b
  | .setf r _ => startAnyOk 0x3E r
  | .setfFlagWrite .. => true
  | .waitf r _ => startAnyOk 0x3F r
  | .waitfComplete .. => true
  | .boundaryReplay .. | .killComplete .. | .schedulingDecision .. | .preemptArrival | .commitGraceExpiry ..
  | .saveAreaReserve | .contextSwap | .contextUnreserve => true
  | .notifyStore .. | .scannerTick | .launchStart .. | .tstartCheck .. | .predDoneResume .. | .periodStart ..
  | .budgetExhausted .. | .deadlineMiss .. | .quantumExpiry .. | .queueDescriptorWrite .. | .residentSlotWrite ..
  | .contractWrite .. | .resumeWord .. | .fenceWordWrite .. | .rtloadWrite .. | .encoderSlotWrite ..
  | .mgmtRegisterWrite .. | .flitReceive .. | .linkRetrainDone .. | .linkDown .. | .fabricTransaction ..
  | .transactionAck .. | .frameStart .. | .frameComplete .. => true
  | .status .. | .readId .. | .readLog .. | .loadRecovery .. | .readSensors .. | .attest .. | .updateWrite ..
  | .updateActivate .. | .readConfig .. | .sensorRefresh | .thermalCoolRaise | .thermalTrip | .powerUp .. => true
  | .unassignedOpcode .. => true
  | .hciWrite .. | .cxlDeviceFailed .. | .powerLoss => true

end Sys2Proof
end

