-- ==== Sys2Proof/Decode.lean ====
section
/-! DEFINITION. The decoders of the three kinds of binary record (R72 to R89, R191) and, after them, the encoders written
from the same tables. Every decoder is total and rejects by name; a word whose opcode or function code is unassigned
decodes to the instruction that raises ILLEGAL (R81). -/

namespace Sys2Proof

/-- Why a bit pattern is no encoding; each raises ILLEGAL (R7, R77, R79, R84). -/
inductive Reject where
  /-- A field the instruction does not use is not zero. -/
  | reserved
  /-- A field holds a value outside its limits. -/
  | range
  /-- A combination that R73, R75, R84, R128 or R132 excludes. -/
  | combination
  deriving DecidableEq, Repr

/-- The sum of field widths. -/
def widthSum : List Nat → Nat
  | [] => 0
  | l :: ls => l + widthSum ls

/-- A number cut into fields of the given widths, most significant first. -/
def splitFields : List Nat → Nat → List Nat
  | [], _ => []
  | l :: ls, n => n / 2 ^ widthSum ls % 2 ^ l :: splitFields ls n

/-- Fields put together again, most significant first. -/
def joinFields : List Nat → List Nat → Nat
  | l :: ls, v :: vs => v % 2 ^ l * 2 ^ widthSum ls + joinFields ls vs
  | _, _ => 0

/-- The body formats of R78, most significant field first. -/
def layRRR : List Nat := [6, 6, 6, 6, 8, 3, 1, 16]
def layRI : List Nat := [6, 6, 4, 36]
def layLI : List Nat := [6, 46]
def layM : List Nat := [6, 4, 6, 4, 2, 1, 1, 28]
def layMA : List Nat := [6, 4, 6, 4, 2, 1, 1, 6, 6, 4, 12]
def layB : List Nat := [6, 6, 4, 4, 32]
def layQ : List Nat := [6, 6, 6, 3, 3, 4, 2, 7, 15]
def layS : List Nat := [1, 6, 8, 5, 4, 4, 24]
def layX : List Nat := [6, 6, 12, 28]
/-- The header, then the 52-bit body (R72). -/
def layHead : List Nat := [1, 3, 1, 7, 52]
/-- The chisel word of R85. -/
def layChisel : List Nat := [6, 3, 3, 3, 3, 14]

def Cond.ofCode : Nat → Option Cond
  | 0 => some .eq | 1 => some .ne | 2 => some .lt | 3 => some .ge | 4 => some .ltn | 5 => some .gen
  | 6 => some .le | 7 => some .gt | 8 => some .len | 9 => some .gtn | _ => none

def Cond.code : Cond → Nat
  | .eq => 0 | .ne => 1 | .lt => 2 | .ge => 3 | .ltn => 4 | .gen => 5 | .le => 6 | .gt => 7 | .len => 8 | .gtn => 9

def FCond.ofCode : Nat → Option FCond
  | 0 => some .eq | 1 => some .ne | 2 => some .lt | 3 => some .ge | 6 => some .le | 7 => some .gt | _ => none

def FCond.code : FCond → Nat
  | .eq => 0 | .ne => 1 | .lt => 2 | .ge => 3 | .le => 6 | .gt => 7

def Rm.ofCode : Nat → Option Rm
  | 0 => some .rne | 1 => some .rtz | 2 => some .rpi | 3 => some .rni | 4 => some .sr | _ => none

def Rm.code : Rm → Nat
  | .rne => 0 | .rtz => 1 | .rpi => 2 | .rni => 3 | .sr => 4

def Size.ofCode : Nat → Size
  | 0 => .b | 1 => .h | 2 => .w | _ => .d

def Size.code : Size → Nat
  | .b => 0 | .h => 1 | .w => 2 | .d => 3

def Queue.ofCode : Nat → Option Queue
  | 0 => some .qm | 1 => some .qc | 2 => some .qr | 3 => some .qv | 4 => some .qk | 5 => some .qg | _ => none

def Queue.code : Queue → Nat
  | .qm => 0 | .qc => 1 | .qr => 2 | .qv => 3 | .qk => 4 | .qg => 5

def Port.ofCode : Nat → Port
  | 0 => .a | 1 => .b | 2 => .d | _ => .s

def Port.code : Port → Nat
  | .a => 0 | .b => 1 | .d => 2 | .s => 3

def Scope.ofCode : Nat → Option Scope
  | 0 => some .core | 1 => some .cluster | 2 => some .part | 3 => some .die | 4 => some .device | 5 => some .group
  | 6 => some .host | 7 => some .peer | 8 => some .pod | 9 => some .tier2 | 10 => some .media | 11 => some .system
  | _ => none

def Scope.code : Scope → Nat
  | .core => 0 | .cluster => 1 | .part => 2 | .die => 3 | .device => 4 | .group => 5 | .host => 6 | .peer => 7
  | .pod => 8 | .tier2 => 9 | .media => 10 | .system => 11

def AmoFn.ofCode : Nat → Option AmoFn
  | 0 => some .add | 1 => some .fadd | 2 => some .min | 3 => some .max | 4 => some .minn | 5 => some .maxn
  | 6 => some .and | 7 => some .or | 8 => some .xor | 9 => some .swap | 10 => some .cas | _ => none

def AmoFn.code : AmoFn → Nat
  | .add => 0 | .fadd => 1 | .min => 2 | .max => 3 | .minn => 4 | .maxn => 5 | .and => 6 | .or => 7 | .xor => 8
  | .swap => 9 | .cas => 10

/-- The CSR numbers of R21. -/
def Csr.code : Csr → Nat
  | .dcc => 0x000 | .rsc => 0x001 | .lcore => 0x002 | .pid => 0x003 | .vfid => 0x004 | .gmemb => 0x005
  | .recnt => 0x010 | .relim => 0x011 | .rstat => 0x012 | .lscale => 0x020 | .lscfg => 0x021 | .lsstat => 0x022
  | .srseed => 0x028 | .steptag => 0x029 | .trapc => 0x030 | .trapv0 => 0x031 | .trapv1 => 0x032 | .trapv2 => 0x033
  | .trapv3 => 0x034 | .numf => 0x038 | .fshare => 0x040 | .errinjA => 0x048 | .errinjC => 0x049
  | .burstcfg => 0x050 | .shapeg => 0x060

def Csr.ofCode : Nat → Option Csr
  | 0x000 => some .dcc | 0x001 => some .rsc | 0x002 => some .lcore | 0x003 => some .pid | 0x004 => some .vfid
  | 0x005 => some .gmemb | 0x010 => some .recnt | 0x011 => some .relim | 0x012 => some .rstat | 0x020 => some .lscale
  | 0x021 => some .lscfg | 0x022 => some .lsstat | 0x028 => some .srseed | 0x029 => some .steptag | 0x030 => some .trapc
  | 0x031 => some .trapv0 | 0x032 => some .trapv1 | 0x033 => some .trapv2 | 0x034 => some .trapv3 | 0x038 => some .numf
  | 0x040 => some .fshare | 0x048 => some .errinjA | 0x049 => some .errinjC | 0x050 => some .burstcfg
  | 0x060 => some .shapeg | _ => none

def CaccMode.ofCode : Nat → CaccMode
  | 0 => .add | 1 => .max | 2 => .min | _ => .sqadd

def CaccMode.code : CaccMode → Nat
  | .add => 0 | .max => 1 | .min => 2 | .sqadd => 3

/-- The format tags a CVT accepts (R45, R191). -/
def CvtFmt.ofCode : Nat → Option CvtFmt
  | 1 => some .fp32 | 2 => some .bf16 | 3 => some .fp16 | 4 => some .e4m3 | 5 => some .e5m2 | 8 => some .i8
  | 9 => some .i32 | _ => none

def CvtFmt.code : CvtFmt → Nat
  | .fp32 => 1 | .bf16 => 2 | .fp16 => 3 | .e4m3 => 4 | .e5m2 => 5 | .i8 => 8 | .i32 => 9

/-- A check of the decoder. -/
def need (ok : Bool) (r : Reject) (k : Except Reject Instr) : Except Reject Instr :=
  if ok then k else .error r

/-- A field that holds a code of a closed list. -/
def want {α : Type} (x : Option α) (k : α → Except Reject Instr) : Except Reject Instr :=
  match x with
  | some v => k v
  | none => .error .range

/-- What a field becomes as an operand. -/
def r6 (n : Nat) : Reg := BitVec.ofNat 6 n
def p3 (n : Nat) : Pred := BitVec.ofNat 3 n
def h4 (n : Nat) : HReg := BitVec.ofNat 4 n

/-- ALU, op 0x00 (R82, R96). -/
def decodeAlu (w : Word) (d a b c fn rm sat z : Nat) : Except Reject Instr :=
  let three (f : Reg → Reg → Reg → Instr) : Except Reject Instr :=
    need (c == 0 && rm == 0 && sat == 0 && z == 0) .reserved (.ok (f (r6 d) (r6 a) (r6 b)))
  let two (f : Reg → Reg → Instr) : Except Reject Instr :=
    need (b == 0 && c == 0 && rm == 0 && sat == 0 && z == 0) .reserved (.ok (f (r6 d) (r6 a)))
  match fn with
  | 0 => three .add | 1 => three .sub | 2 => three .and | 3 => three .or | 4 => three .xor | 5 => three .andn
  | 6 => three .shl | 7 => three .shr | 8 => three .sar | 9 => three .rol | 10 => three .ror | 11 => three .mul
  | 12 => three .mulh | 13 => three .mulhn | 14 => three .div | 15 => three .divn | 16 => three .rem
  | 17 => three .remn | 18 => three .min | 19 => three .max | 20 => three .minn | 21 => three .maxn
  | 22 => two .clz | 23 => two .ctz | 24 => two .popc | 25 => two .bswap | 26 => three .sext | 27 => three .zext
  | _ => .ok (.unassignedOpcode w)

/-- PLOG, op 0x0E (R84, R102). -/
def decodePlog (w : Word) (d a b c fn rm sat z : Nat) : Except Reject Instr :=
  let three (f : Pred → Pred → Pred → Instr) : Except Reject Instr :=
    need (c == 0 && rm == 0 && sat == 0 && z == 0 && decide (d < 8) && decide (a < 8) && decide (b < 8)) .reserved
      (.ok (f (p3 d) (p3 a) (p3 b)))
  let two (f : Pred → Pred → Instr) : Except Reject Instr :=
    need (b == 0 && c == 0 && rm == 0 && sat == 0 && z == 0 && decide (d < 8) && decide (a < 8)) .reserved
      (.ok (f (p3 d) (p3 a)))
  match fn with
  | 0 => three .pand | 1 => three .por | 2 => three .pxor | 3 => two .pnot | 4 => two .pmov
  | _ => .ok (.unassignedOpcode w)

/-- FALU, op 0x11 (R84, R106 to R108). -/
def decodeFalu (w : Word) (d a b c fn rm sat z : Nat) : Except Reject Instr :=
  let arith (f : Reg → Reg → Reg → Rm → Bool → Instr) : Except Reject Instr :=
    need (c == 0 && z == 0) .reserved (want (Rm.ofCode rm) fun m => .ok (f (r6 d) (r6 a) (r6 b) m (sat == 1)))
  let plain (f : Reg → Reg → Reg → Instr) : Except Reject Instr :=
    need (c == 0 && rm == 0 && sat == 0 && z == 0) .reserved (.ok (f (r6 d) (r6 a) (r6 b)))
  let sign (f : Reg → Reg → Instr) : Except Reject Instr :=
    need (b == 0 && c == 0 && rm == 0 && sat == 0 && z == 0) .reserved (.ok (f (r6 d) (r6 a)))
  match fn with
  | 0 => arith .fadd | 1 => arith .fsub | 2 => arith .fmul | 3 => arith .fdiv
  | 4 => plain .fmin | 5 => plain .fmax
  | 6 => need (b == 0 && c == 0 && z == 0) .reserved (want (Rm.ofCode rm) fun m => .ok (.fsqrt (r6 d) (r6 a) m (sat == 1)))
  | 7 => sign .fabs | 8 => sign .fneg
  | 9 => need (c == 0 && sat == 0 && z == 0 && decide (d < 8)) .reserved
      (want (FCond.ofCode rm) fun k => .ok (.fcmp (p3 d) (r6 a) (r6 b) k))
  | 10 =>
    match c with
    | 0 => need (b == 0 && sat == 0 && z == 0) .reserved (want (Rm.ofCode rm) fun m => .ok (.fcvtF2i (r6 d) (r6 a) m))
    | 1 => need (b == 0 && sat == 0 && z == 0) .reserved (want (Rm.ofCode rm) fun m => .ok (.fcvtI2f (r6 d) (r6 a) m))
    | 2 => need (b == 0 && z == 0) .reserved (want (Rm.ofCode rm) fun m => .ok (.fcvtF2b (r6 d) (r6 a) m (sat == 1)))
    | 3 => need (b == 0 && rm == 0 && sat == 0 && z == 0) .reserved (.ok (.fcvtB2f (r6 d) (r6 a)))
    | _ => .error .range
  | _ => .ok (.unassignedOpcode w)

/-- Major opcodes of the RRR format (R80). -/
def decodeRRR (w : Word) (op body : Nat) : Except Reject Instr :=
  match splitFields layRRR body with
  | [d, a, b, c, fn, rm, sat, z] =>
    match op with
    | 0x00 => decodeAlu w d a b c fn rm sat z
    | 0x0C => need (c == 0 && rm == 0 && sat == 0 && z == 0 && decide (d < 8)) .reserved
        (want (Cond.ofCode fn) fun k => .ok (.cmp (p3 d) (r6 a) (r6 b) k))
    | 0x0E => decodePlog w d a b c fn rm sat z
    | 0x0F => need (fn == 0 && rm == 0 && sat == 0 && z == 0 && decide (c < 8)) .reserved
        (.ok (.sel (r6 d) (r6 a) (r6 b) (p3 c)))
    | 0x10 =>
      match fn with
      | 0 => need (a == 0 && b == 0 && c == 0 && rm == 0 && sat == 0 && z == 0) .reserved (.ok (.movpsGet (r6 d)))
      | 1 => need (d == 0 && b == 0 && c == 0 && rm == 0 && sat == 0 && z == 0) .reserved (.ok (.movpsSet (r6 a)))
      | _ => .ok (.unassignedOpcode w)
    | _ => decodeFalu w d a b c fn rm sat z
  | _ => .error .reserved

/-- Major opcodes of the RI format (R99, R101). -/
def decodeRI (op body : Nat) : Except Reject Instr :=
  match splitFields layRI body with
  | [d, a, c, imm] =>
    let i := BitVec.ofNat 36 imm
    let alu (f : Reg → Reg → BitVec 36 → Instr) : Except Reject Instr := need (c == 0) .reserved (.ok (f (r6 d) (r6 a) i))
    let shift (f : Reg → Reg → BitVec 36 → Instr) : Except Reject Instr :=
      need (c == 0) .reserved (need (decide (imm ≤ 63)) .range (.ok (f (r6 d) (r6 a) i)))
    match op with
    | 0x01 => alu .addi | 0x02 => alu .andi | 0x03 => alu .ori | 0x04 => alu .xori
    | 0x05 => shift .shli | 0x06 => shift .shri | 0x07 => shift .sari | 0x08 => alu .muli
    | _ => need (decide (d < 8)) .reserved (want (Cond.ofCode c) fun k => .ok (.cmpi (p3 d) (r6 a) k i))
  | _ => .error .reserved

/-- LI, LIH and LA (R100). -/
def decodeLI (op body : Nat) : Except Reject Instr :=
  match splitFields layLI body with
  | [d, imm] =>
    match op with
    | 0x09 => .ok (.li (r6 d) (BitVec.ofNat 46 imm))
    | 0x0A => need (decide (imm < 2 ^ 18)) .reserved (.ok (.lih (r6 d) (BitVec.ofNat 18 imm)))
    | _ => .ok (.la (r6 d) (BitVec.ofNat 46 imm))
  | _ => .error .reserved

/-- Memory instructions, access form (R123, R127, R128, R135, R136). -/
def decodeM (op body : Nat) : Except Reject Instr :=
  match splitFields layM body with
  | [d, h, x, oc, sz, ext, inc, off] =>
    let m : MemOp := { h := h4 h, x := r6 x, oc := BitVec.ofNat 4 oc, off := BitVec.ofNat 28 off }
    let p : Perms := { rd := decide (2 ≤ sz), wr := sz % 2 == 1, at_ := ext == 1 }
    match op with
    | 0x28 => need (d == 0 && oc == 0 && inc == 0 && off == 0) .reserved
        (need (h != 0 && p.some) .range (.ok (.xlate (h4 h) (r6 x) p)))
    | 0x29 => need (d == 0 && x == 0 && oc == 0 && sz == 0 && ext == 0 && inc == 0 && off == 0) .reserved
        (need (h != 0) .range (.ok (.hinv (h4 h))))
    | 0x2A => need (x == 0 && oc == 0 && sz == 0 && ext == 0 && inc == 0 && off == 0) .reserved
        (need (decide (1 ≤ d) && decide (d ≤ 62)) .range (.ok (.hinfo (r6 d) (h4 h))))
    | 0x2B => need (!(ext == 1 && sz == 3) && (inc == 0 || (x != 0 && d != x))) .combination
        (.ok (.ld (r6 d) m (Size.ofCode sz) (ext == 1) (inc == 1)))
    | 0x2C => need (ext == 0 && (inc == 0 || x != 0)) .combination (.ok (.st (r6 d) m (Size.ofCode sz) (inc == 1)))
    | 0x2F => need (h == 0 && oc == 0 && inc == 0 && off == 0) .reserved
        (need p.some .range (.ok (.probe (r6 d) (r6 x) p)))
    | _ => need (d == 0 && sz == 0 && ext == 0 && inc == 0) .reserved (.ok (.pref m))
  | _ => .error .reserved

/-- AMO and AMOP (R132). -/
def decodeMA (w : Word) (op body : Nat) : Except Reject Instr :=
  match splitFields layMA body with
  | [d, h, x, oc, sz, ext, z, b, c, fn, off] =>
    let m : AtomOp := { h := h4 h, x := r6 x, oc := BitVec.ofNat 4 oc, off := BitVec.ofNat 12 off }
    match AmoFn.ofCode fn with
    | none => .ok (.unassignedOpcode w)
    | some f =>
      match op with
      | 0x2D => need (z == 0) .reserved
          (need (h != 0 && decide (2 ≤ sz) && !(f == .fadd && sz == 3) && !(ext == 1 && sz == 3) && (f == .cas || c == 0))
            .combination (.ok (.amo (r6 d) m (Size.ofCode sz) (ext == 1) (r6 b) (r6 c) f)))
      | _ => need (z == 0 && d == 0 && ext == 0 && c == 0) .reserved
          (need (h != 0 && decide (2 ≤ sz) && !(f == .fadd && sz == 3) && f != .cas)
            .combination (.ok (.amop m (Size.ofCode sz) (r6 b) f)))
  | _ => .error .reserved

/-- Branches (R109). -/
def decodeB (op body : Nat) : Except Reject Instr :=
  match splitFields layB body with
  | [a, b, c, z, disp] =>
    let t := BitVec.ofNat 32 disp
    match op with
    | 0x18 => need (a == 0 && b == 0 && c == 0 && z == 0) .reserved (.ok (.b t))
    | 0x19 => need (z == 0) .reserved (want (Cond.ofCode c) fun k => .ok (.bcmp (r6 a) (r6 b) k t))
    | 0x1A => need (b == 0 && c == 0 && z == 0) .reserved (.ok (.call (r6 a) t))
    | 0x1B => need (b == 0 && c == 0 && z == 0 && disp == 0) .reserved (.ok (.ret (r6 a)))
    | 0x1C => need (b == 0 && c == 0 && z == 0 && disp == 0) .reserved (.ok (.bi (r6 a)))
    | 0x1D => need (b == 0 && c == 0 && z == 0) .reserved (.ok (.loop (r6 a) t))
    | _ => need (a == 0 && b == 0 && c == 0 && z == 0) .reserved (.ok (.bzm t))
  | _ => .error .reserved

/-- Queue, mask-stack and chisel-management instructions (R112, R156, R161 to R164, R182). -/
def decodeQ (op body : Nat) : Except Reject Instr :=
  match splitFields layQ body with
  | [a, b, c, qn, pd, slot, port, tile, imm] =>
    let s4 := BitVec.ofNat 4 slot
    match op with
    | 0x20 => need (c == 0 && qn == 0 && pd == 0 && slot == 0 && port == 0 && tile == 0 && imm == 0) .reserved
        (.ok (.mpush (r6 a) (r6 b)))
    | 0x21 => need (a == 0 && b == 0 && c == 0 && qn == 0 && pd == 0 && slot == 0 && port == 0 && tile == 0 && imm == 0)
        .reserved (.ok .minv)
    | 0x22 => need (a == 0 && b == 0 && c == 0 && qn == 0 && pd == 0 && slot == 0 && port == 0 && tile == 0 && imm == 0)
        .reserved (.ok .mpop)
    | 0x23 => need (c == 0 && qn == 0 && pd == 0 && slot == 0 && port == 0 && tile == 0 && imm == 0) .reserved
        (need (a != b || a == 0) .combination (.ok (.mget (r6 a) (r6 b))))
    | 0x48 => need (b == 0 && c == 0 && slot == 0 && port == 0 && tile == 0 && imm == 0) .reserved
        (need (decide (a ≤ 56)) .range (want (Queue.ofCode qn) fun q => .ok (.qpush q (p3 pd) (r6 a))))
    | 0x49 => need (a == 0 && slot == 0 && port == 0 && tile == 0 && decide (imm < 64)) .reserved
        (want (Queue.ofCode qn) fun q => .ok (.qpusht q (p3 pd) (r6 imm) (r6 b) (r6 c)))
    | 0x4A => need (b == 0 && c == 0 && pd == 0 && slot == 0 && port == 0 && tile == 0 && imm == 0) .reserved
        (want (Queue.ofCode qn) fun q => .ok (.qstat q (r6 a)))
    | 0x4B => need (b == 0 && c == 0 && qn == 0 && pd == 0 && slot == 0 && port == 0 && tile == 0 && imm == 0) .reserved
        (.ok (.shape (r6 a)))
    | 0x4C => need (a == 0 && b == 0 && c == 0 && qn == 0 && pd == 0 && slot == 0 && port == 0 && tile == 0) .reserved
        (need (imm != 0) .range (.ok (.mburst (BitVec.ofNat 15 imm))))
    | 0x4D => need (b == 0 && c == 0 && qn == 0 && pd == 0 && slot == 0 && port == 0 && tile == 0 && decide (imm < 4096))
        .reserved (.ok (.layer (BitVec.ofNat 12 imm) (r6 a)))
    | 0x4E => need (b == 0 && c == 0 && qn == 0 && pd == 0 && slot == 0 && port == 0 && tile == 0 && decide (imm < 64))
        .reserved (need (decide (a ≤ 56)) .range (.ok (.tmpl (r6 imm) (r6 a))))
    | 0x50 => need (b == 0 && c == 0 && qn == 0 && pd == 0 && port == 0 && tile == 0 && decide (imm < 32)) .reserved
        (need (decide (1 ≤ imm) && decide (imm ≤ 16)) .range (.ok (.pload s4 (r6 a) (BitVec.ofNat 5 imm))))
    | 0x51 => need (a == 0 && b == 0 && c == 0 && qn == 0 && pd == 0 && tile == 0 && decide (imm < 2)) .reserved
        (if imm = 1 then .ok (.pbind s4 (Port.ofCode port)) else need (port == 0) .reserved (.ok (.pbindUn s4)))
    | 0x52 => need (b == 0 && c == 0 && qn == 0 && pd == 0 && slot == 0 && tile == 0 && decide (imm < 8)) .reserved
        (.ok (.pconst (Port.ofCode port) (p3 imm) (r6 a)))
    | 0x53 => need (a == 0 && b == 0 && c == 0 && qn == 0 && pd == 0 && port == 0 && tile == 0) .reserved
        (need (decide (imm < 2 ^ 13) && decide (imm / 2 ^ 9 % 8 ≤ 4)) .range (.ok (.pctl s4 (BitVec.ofNat 15 imm))))
    | 0x54 => need (b == 0 && c == 0 && qn == 0 && pd == 0 && port == 0 && tile == 0 && imm == 0) .reserved
        (.ok (.pstat (r6 a) s4))
    | 0x55 => need (b == 0 && c == 0 && qn == 0 && pd == 0 && slot == 0 && port == 0 && decide (imm < 2)) .reserved
        (need (decide (tile ≤ 95)) .range
          (if imm = 0 then .ok (.ttagRd (r6 a) (BitVec.ofNat 7 tile)) else .ok (.ttagWr (BitVec.ofNat 7 tile) (r6 a))))
    | _ => need (a == 0 && b == 0 && c == 0 && qn == 0 && pd == 0 && slot == 0 && port == 0 && imm == 0) .reserved
        (need (decide (tile ≤ 95)) .range (.ok (.tclr (BitVec.ofNat 7 tile))))
  | _ => .error .reserved

/-- Region, fence, group and time instructions (R113, R118, R137, R139, R147 to R150). -/
def decodeS (op body : Nat) : Except Reject Instr :=
  match splitFields layS body with
  | [z, a, grp, pt, am, sc, imm] =>
    let g := BitVec.ofNat 8 grp
    let p := BitVec.ofNat 5 pt
    match op with
    | 0x38 => need (z == 0 && a == 0 && grp == 0 && pt == 0 && sc == 0) .reserved
        (need (imm != 0) .range (.ok (.region (BitVec.ofNat 24 imm) (BitVec.ofNat 4 am))))
    | 0x39 => need (z == 0 && a == 0 && grp == 0 && pt == 0 && am == 0 && imm == 0) .reserved
        (want (Scope.ofCode sc) fun s => .ok (.commit s))
    | 0x3A => need (z == 0 && a == 0 && grp == 0 && pt == 0 && am == 0 && decide (imm < 2 ^ 16)) .reserved
        (need (imm != 0) .range (want (Scope.ofCode sc) fun s => .ok (.fence s (BitVec.ofNat 16 imm))))
    | 0x3B => need (z == 0 && a == 0 && am == 0 && sc == 0 && imm == 0) .reserved
        (need (decide (pt ≤ 23)) .range (.ok (.arrive g p)))
    | 0x3C => need (z == 0 && a == 0 && am == 0 && sc == 0 && imm == 0) .reserved
        (need (decide (pt ≤ 23)) .range (.ok (.waitrv g p)))
    | 0x3D => need (z == 0 && a == 0 && pt == 0 && am == 0 && sc == 0 && imm == 0) .reserved (.ok (.bar g))
    | 0x3E => need (z == 0 && am == 0 && sc == 0 && imm == 0) .reserved
        (need (decide (pt ≤ 23)) .range (.ok (.rvinit g p (r6 a))))
    | 0x3F => need (z == 0 && am == 0 && sc == 0 && imm == 0) .reserved
        (need (decide (pt ≤ 23)) .range (.ok (.rvflags g p (r6 a))))
    | 0x40 => need (z == 0 && grp == 0 && pt == 0 && am == 0 && sc == 0 && decide (imm < 64)) .reserved
        (.ok (.flagw (r6 imm) (r6 a)))
    | 0x41 => need (z == 0 && grp == 0 && pt == 0 && am == 0 && sc == 0 && imm == 0) .reserved (.ok (.dccr (r6 a)))
    | 0x42 => need (z == 0 && grp == 0 && pt == 0 && am == 0 && sc == 0 && imm == 0) .reserved (.ok (.waitc (r6 a)))
    | _ => need (z == 0 && a == 0 && pt == 0 && am == 0 && sc == 0) .reserved
        (need (imm != 0) .range (.ok (.align g (BitVec.ofNat 24 imm))))
  | _ => .error .reserved

/-- System instructions (R165). -/
def decodeX (op body : Nat) : Except Reject Instr :=
  match splitFields layX body with
  | [a, b, csr, imm] =>
    match op with
    | 0x60 => need (b == 0 && imm == 0) .reserved (want (Csr.ofCode csr) fun c => .ok (.csrr (r6 a) c))
    | 0x61 => need (b == 0 && imm == 0) .reserved (want (Csr.ofCode csr) fun c => .ok (.csrw c (r6 a)))
    | 0x62 => need (a == 0 && b == 0 && csr == 0 && decide (imm < 2 ^ 16)) .reserved (.ok (.trap (BitVec.ofNat 16 imm)))
    | 0x63 => need (a == 0 && b == 0 && csr == 0 && imm == 0) .reserved (.ok .eret)
    | 0x64 => need (a == 0 && b == 0 && csr == 0 && imm == 0) .reserved (.ok .halt)
    | 0x65 => need (a == 0 && b == 0 && csr == 0 && imm == 0) .reserved (.ok .yield)
    | 0x66 => need (a == 0 && b == 0 && csr == 0 && imm == 0) .reserved (.ok .nop)
    | 0x67 => need (b == 0 && csr == 0 && imm == 0) .reserved (.ok (.lsstep (r6 a)))
    | 0x68 => need (b == 0 && csr == 0 && imm == 0) .reserved (.ok (.seed (r6 a)))
    | 0x69 => need (b == 0 && csr == 0 && decide (imm < 2 ^ 16)) .reserved (.ok (.event (BitVec.ofNat 16 imm) (r6 a)))
    | 0x6A => need (b == 0 && csr == 0 && imm == 0) .reserved (.ok (.ctxsave (r6 a)))
    | _ => need (b == 0 && csr == 0 && imm == 0) .reserved (.ok (.ctxload (r6 a)))
  | _ => .error .reserved

/-- The format that a major opcode selects (R80, R81). -/
def decodeBody (w : Word) (op body : Nat) : Except Reject Instr :=
  if op = 0x00 ∨ op = 0x0C ∨ (0x0E ≤ op ∧ op ≤ 0x11) then decodeRRR w op body
  else if (0x01 ≤ op ∧ op ≤ 0x08) ∨ op = 0x0D then decodeRI op body
  else if 0x09 ≤ op ∧ op ≤ 0x0B then decodeLI op body
  else if 0x18 ≤ op ∧ op ≤ 0x1E then decodeB op body
  else if (0x20 ≤ op ∧ op ≤ 0x23) ∨ (0x48 ≤ op ∧ op ≤ 0x4E) ∨ (0x50 ≤ op ∧ op ≤ 0x56) then decodeQ op body
  else if op = 0x2D ∨ op = 0x2E then decodeMA w op body
  else if 0x28 ≤ op ∧ op ≤ 0x30 then decodeM op body
  else if 0x38 ≤ op ∧ op ≤ 0x43 then decodeS op body
  else if 0x60 ≤ op ∧ op ≤ 0x6B then decodeX op body
  else .ok (.unassignedOpcode w)

/-- The slot classes of R80. -/
inductive SlotClass where
  | x | l | q | b | alone | none
  deriving DecidableEq, Repr

/-- The class of a major opcode (R80); an unassigned one belongs to none (R74). -/
def classOf (op : Nat) : SlotClass :=
  if op ≤ 0x11 then .x
  else if 0x18 ≤ op ∧ op ≤ 0x1E then .b
  else if 0x20 ≤ op ∧ op ≤ 0x23 then .q
  else if 0x28 ≤ op ∧ op ≤ 0x30 then .l
  else if op = 0x38 then .alone
  else if op = 0x3A then .l
  else if op = 0x41 then .x
  else if op = 0x42 then .b
  else if 0x39 ≤ op ∧ op ≤ 0x43 then .q
  else if (0x48 ≤ op ∧ op ≤ 0x4E) ∨ (0x50 ≤ op ∧ op ≤ 0x56) then .q
  else if op = 0x60 ∨ op = 0x61 ∨ op = 0x66 ∨ op = 0x67 ∨ op = 0x68 then .x
  else if 0x62 ≤ op ∧ op ≤ 0x65 then .b
  else if op = 0x69 then .q
  else if op = 0x6A ∨ op = 0x6B then .l
  else .none

/-- One word of a bundle: its end bit, its guard and its instruction (R72, R73). -/
structure Slot where
  e : Bool
  pg : Pred
  pn : Bool
  cls : SlotClass
  instr : Instr
  word : Word
  deriving DecidableEq, Repr

/-- REGION, COMMIT and ERET must be unguarded (R73). -/
def guardFree : Instr → Bool
  | .region .. | .commit .. | .eret => true
  | _ => false

/-- Decode one instruction word (R72, R73, R78 to R84). -/
def decodeSlot (w : Word) : Except Reject Slot :=
  match splitFields layHead w.toNat with
  | [e, pg, pn, op, body] =>
    match decodeBody w op body with
    | .error r => .error r
    | .ok i =>
      if guardFree i && (pg != 0 || pn != 0) then .error .combination
      else .ok { e := e == 1, pg := p3 pg, pn := pn == 1, cls := classOf op, instr := i, word := w }
  | _ => .error .reserved

/-- The instruction that a word stands for, its guard and end bit apart. -/
def decodeWord (w : Word) : Except Reject Instr :=
  match decodeSlot w with
  | .ok s => .ok s.instr
  | .error r => .error r

/-- A q or c index field must be at most 3 (R190). -/
def q2 (n : Nat) (k : QReg → Except Reject Instr) : Except Reject Instr :=
  need (decide (n ≤ 3)) .range (k (BitVec.ofNat 2 n))

/-- Decode one chisel word (R85, R86, R191). -/
def decodeChisel (w : Word32) : Except Reject Instr :=
  match splitFields layChisel w.toNat with
  | [op, d, a, b, c, imm] =>
    let rounded (f : EReg → EReg → EReg → Rm → Instr) : Except Reject Instr :=
      need (c == 0 && decide (imm < 8)) .reserved (want (Rm.ofCode imm) fun m => .ok (f (p3 d) (p3 a) (p3 b) m))
    let three (f : EReg → EReg → EReg → Instr) : Except Reject Instr :=
      need (c == 0 && imm == 0) .reserved (.ok (f (p3 d) (p3 a) (p3 b)))
    let two (f : EReg → EReg → Instr) : Except Reject Instr :=
      need (b == 0 && c == 0 && imm == 0) .reserved (.ok (f (p3 d) (p3 a)))
    let intop (f : EReg → EReg → EReg → Instr) (g : EReg → EReg → BitVec 13 → Instr) : Except Reject Instr :=
      if imm < 2 ^ 13 then need (c == 0 && imm == 0) .reserved (.ok (f (p3 d) (p3 a) (p3 b)))
      else need (b == 0 && c == 0) .reserved (.ok (g (p3 d) (p3 a) (BitVec.ofNat 13 imm)))
    match op with
    | 0x01 => rounded .chiselFadd
    | 0x02 => rounded .chiselFsub
    | 0x03 => rounded .chiselFmul
    | 0x04 => need (decide (imm < 8)) .reserved
        (want (Rm.ofCode imm) fun m => .ok (.chiselFma (p3 d) (p3 a) (p3 b) (p3 c) m))
    | 0x05 => three .chiselFmin
    | 0x06 => three .chiselFmax
    | 0x07 => two .chiselFabs
    | 0x08 => two .chiselFneg
    | 0x09 => need (imm == 0) .reserved (.ok (.chiselClamp (p3 d) (p3 a) (p3 b) (p3 c)))
    | 0x0A => need (c == 0 && decide (imm < 8)) .reserved
        (want (FCond.ofCode imm) fun k => q2 d fun q => .ok (.chiselFcmp q (p3 a) (p3 b) k))
    | 0x0B => need (imm == 0) .reserved (q2 c fun q => .ok (.chiselSel (p3 d) (p3 a) (p3 b) q))
    | 0x0C => need (b == 0 && c == 0 && decide (imm < 2 ^ 10)) .reserved
        (want (Rm.ofCode (imm % 8)) fun m =>
          if imm / 2 ^ 9 = 1 then need (imm / 8 % 64 == 0) .range (.ok (.chiselCvtI2f (p3 d) (p3 a) m))
          else want (CvtFmt.ofCode (imm / 8 % 64)) fun f => .ok (.chiselCvt (p3 d) (p3 a) f m))
    | 0x0D => two .chiselExp2
    | 0x0E => two .chiselLog2
    | 0x0F => two .chiselRcp
    | 0x10 => two .chiselRsqrt
    | 0x11 => intop .chiselIadd .chiselIaddImm
    | 0x12 => intop .chiselIand .chiselIandImm
    | 0x13 => intop .chiselIshl .chiselIshlImm
    | 0x14 => need (b == 0 && c == 0 && decide (imm < 2)) .reserved
        (if imm = 1 then .ok (.chiselMovkX (p3 d) (p3 a)) else .ok (.chiselMovk (p3 d) (p3 a)))
    | 0x15 => need (b == 0 && c == 0 && imm == 0) .reserved (q2 a fun q => .ok (.chiselGetc (p3 d) q))
    | 0x16 => need (b == 0 && c == 0 && imm == 0) .reserved (q2 d fun q => .ok (.chiselPutc q (p3 a)))
    | 0x17 => need (b == 0 && c == 0 && decide (imm < 4)) .reserved
        (.ok (.chiselPrev (p3 d) (p3 a) (BitVec.ofNat 2 imm)))
    | 0x18 => need (b == 0 && c == 0 && decide (imm < 32)) .reserved
        (want (Rm.ofCode (imm % 8)) fun m => q2 d fun q =>
          need (CaccMode.ofCode (imm / 8) == .add || CaccMode.ofCode (imm / 8) == .sqadd || m == .rne) .range
            (.ok (.chiselCacc q (p3 a) (CaccMode.ofCode (imm / 8)) m)))
    | 0x19 => need (d == 0 && c == 0 && decide (imm < 256)) .reserved
        (need (imm != 0) .range (q2 a fun q => .ok (.chiselRaise q (p3 b) (BitVec.ofNat 8 imm))))
    | 0x1A => need (d == 0 && b == 0 && c == 0 && imm == 0) .reserved (.ok (.chiselOut (p3 a)))
    | 0x1B => need (a == 0 && b == 0 && c == 0 && decide (imm < 2)) .reserved
        (if imm = 1 then .ok (.chiselCoordCol (p3 d)) else .ok (.chiselCoordRow (p3 d)))
    | 0x1C => need (d == 0 && b == 0 && c == 0 && imm == 0) .reserved (q2 a fun q => .ok (.chiselDrop q))
    | _ => .error .range
  | _ => .error .reserved

/-- The command that a record of the given queue starts (R88); none where the code is unassigned or the queue does not
serve it. The fields of the record are checked at its push (R89), not here. -/
def decodeRecord (q : Queue) (r : CmdRec) : Option Instr :=
  match q, r.code with
  | .qm, 0x01 => some (.mma r (.start q)) | .qm, 0x02 => some (.mmaSp r (.start q)) | .qm, 0x03 => some (.mmaMx r (.start q))
  | .qm, 0x04 => some (.accz r (.start q)) | .qm, 0x05 => some (.accst r (.start q)) | .qm, 0x06 => some (.fload r (.start q))
  | .qm, 0x07 => some (.forest r (.start q)) | .qm, 0x08 => some (.leafg r (.start q))
  | .qc, 0x10 => some (.copy r (.start q)) | .qc, 0x11 => some (.fill r (.start q))
  | .qr, 0x18 => some (.reduce r (.start q)) | .qv, 0x20 => some (.quant r (.start q)) | .qv, 0x21 => some (.deq r (.start q))
  | .qk, 0x28 => some (.attn r (.start q)) | .qk, 0x29 => some (.kappend r (.start q)) | .qk, 0x2A => some (.kchase r (.start q))
  | .qk, 0x2B => some (if r.mode then .rspanC r (.start q) else .rspanK r (.start q))
  | .qk, 0x2C => some (.ktopk r (.start q)) | .qk, 0x2D => some (.kcompact r (.start q)) | .qk, 0x2E => some (.beamset r (.start q))
  | .qg, 0x30 => some (.sgath r (.start q)) | .qg, 0x31 => some (.sgpat r (.start q))
  | _, 0x3E => some (.setf r (.start q)) | _, 0x3F => some (.waitf r (.start q))
  | _, _ => none

/-- The queue that serves a command code; QM for the codes that any queue serves (R88). -/
def queueOf (code : Nat) : Queue :=
  if code = 0x10 ∨ code = 0x11 then .qc
  else if code = 0x18 then .qr
  else if code = 0x20 ∨ code = 0x21 then .qv
  else if 0x28 ≤ code ∧ code ≤ 0x2E then .qk
  else if code = 0x30 ∨ code = 0x31 then .qg
  else .qm

/-- A record from its eight words read as one number, word 0 lowest (R5, R87). -/
def recOfNat (n : Nat) : CmdRec :=
  { w0 := BitVec.ofNat 64 n, w1 := BitVec.ofNat 64 (n / 2 ^ 64), w2 := BitVec.ofNat 64 (n / 2 ^ 128),
    w3 := BitVec.ofNat 64 (n / 2 ^ 192), w4 := BitVec.ofNat 64 (n / 2 ^ 256), w5 := BitVec.ofNat 64 (n / 2 ^ 320),
    w6 := BitVec.ofNat 64 (n / 2 ^ 384), w7 := BitVec.ofNat 64 (n / 2 ^ 448) }

/-- The decoder of an accepted word, as an option. -/
def Except.toOpt {ε α : Type} : Except ε α → Option α
  | .ok a => some a
  | .error _ => none

/-- The instruction that this model's decoder reads from bits numbered as the opcode table numbers them: a chisel word of
32 bits, an instruction word of 64, a command record of 512. -/
def decodeTableWord (nbits w : Nat) : Option Instr :=
  if nbits ≤ 32 then Except.toOpt (decodeChisel (BitVec.ofNat 32 w))
  else if nbits ≤ 64 then Except.toOpt (decodeWord (BitVec.ofNat 64 w))
  else decodeRecord (queueOf (recOfNat w).code) (recOfNat w)

/-! The encoders. -/

/-- A number with the flag's bit. -/
def bit (b : Bool) : Nat := if b then 1 else 0

/-- An encoding: an instruction word's opcode and body, a chisel word, or a command record. -/
inductive Code where
  | word (op body : Nat)
  | chisel (w : Nat)
  | record (r : CmdRec)
  deriving DecidableEq, Repr

def encRRR (op : Nat) (d a b c fn rm sat : Nat) : Option Code := some (.word op (joinFields layRRR [d, a, b, c, fn, rm, sat, 0]))
def encAlu (fn : Nat) (d a b : Reg) : Option Code := encRRR 0x00 d.toNat a.toNat b.toNat 0 fn 0 0
def encRI (op : Nat) (d a c imm : Nat) : Option Code := some (.word op (joinFields layRI [d, a, c, imm]))
def encM (op : Nat) (d h x oc sz ext inc off : Nat) : Option Code :=
  some (.word op (joinFields layM [d, h, x, oc, sz, ext, inc, off]))
def encB (op : Nat) (a b c disp : Nat) : Option Code := some (.word op (joinFields layB [a, b, c, 0, disp]))
def encQ (op : Nat) (a b c qn pd slot port tile imm : Nat) : Option Code :=
  some (.word op (joinFields layQ [a, b, c, qn, pd, slot, port, tile, imm]))
def encS (op : Nat) (a grp pt am sc imm : Nat) : Option Code := some (.word op (joinFields layS [0, a, grp, pt, am, sc, imm]))
def encX (op : Nat) (a csr imm : Nat) : Option Code := some (.word op (joinFields layX [a, 0, csr, imm]))
def encC (op d a b c imm : Nat) : Option Code := some (.chisel (joinFields layChisel [op, d, a, b, c, imm]))

/-- The permission bits [31:30] and [29] as the size and extension fields hold them (R123). -/
def Perms.szField (p : Perms) : Nat := 2 * bit p.rd + bit p.wr

/-- The encoding of an instruction, none for an event. A read or write beat of a running command is an event. -/
def encode : Instr → Option Code
  | .add d a b => encAlu 0 d a b | .sub d a b => encAlu 1 d a b | .and d a b => encAlu 2 d a b
  | .or d a b => encAlu 3 d a b | .xor d a b => encAlu 4 d a b | .andn d a b => encAlu 5 d a b
  | .shl d a b => encAlu 6 d a b | .shr d a b => encAlu 7 d a b | .sar d a b => encAlu 8 d a b
  | .rol d a b => encAlu 9 d a b | .ror d a b => encAlu 10 d a b | .mul d a b => encAlu 11 d a b
  | .mulh d a b => encAlu 12 d a b | .mulhn d a b => encAlu 13 d a b | .div d a b => encAlu 14 d a b
  | .divn d a b => encAlu 15 d a b | .rem d a b => encAlu 16 d a b | .remn d a b => encAlu 17 d a b
  | .min d a b => encAlu 18 d a b | .max d a b => encAlu 19 d a b | .minn d a b => encAlu 20 d a b
  | .maxn d a b => encAlu 21 d a b | .clz d a => encAlu 22 d a 0 | .ctz d a => encAlu 23 d a 0
  | .popc d a => encAlu 24 d a 0 | .bswap d a => encAlu 25 d a 0 | .sext d a b => encAlu 26 d a b
  | .zext d a b => encAlu 27 d a b
  | .addi d a i => encRI 0x01 d.toNat a.toNat 0 i.toNat | .andi d a i => encRI 0x02 d.toNat a.toNat 0 i.toNat
  | .ori d a i => encRI 0x03 d.toNat a.toNat 0 i.toNat | .xori d a i => encRI 0x04 d.toNat a.toNat 0 i.toNat
  | .shli d a i => encRI 0x05 d.toNat a.toNat 0 i.toNat | .shri d a i => encRI 0x06 d.toNat a.toNat 0 i.toNat
  | .sari d a i => encRI 0x07 d.toNat a.toNat 0 i.toNat | .muli d a i => encRI 0x08 d.toNat a.toNat 0 i.toNat
  | .li d i => some (.word 0x09 (joinFields layLI [d.toNat, i.toNat]))
  | .lih d i => some (.word 0x0A (joinFields layLI [d.toNat, i.toNat]))
  | .la d i => some (.word 0x0B (joinFields layLI [d.toNat, i.toNat]))
  | .cmp d a b c => encRRR 0x0C d.toNat a.toNat b.toNat 0 c.code 0 0
  | .cmpi d a c i => encRI 0x0D d.toNat a.toNat c.code i.toNat
  | .pand d a b => encRRR 0x0E d.toNat a.toNat b.toNat 0 0 0 0
  | .por d a b => encRRR 0x0E d.toNat a.toNat b.toNat 0 1 0 0
  | .pxor d a b => encRRR 0x0E d.toNat a.toNat b.toNat 0 2 0 0
  | .pnot d a => encRRR 0x0E d.toNat a.toNat 0 0 3 0 0
  | .pmov d a => encRRR 0x0E d.toNat a.toNat 0 0 4 0 0
  | .sel d a b c => encRRR 0x0F d.toNat a.toNat b.toNat c.toNat 0 0 0
  | .movpsGet d => encRRR 0x10 d.toNat 0 0 0 0 0 0
  | .movpsSet a => encRRR 0x10 0 a.toNat 0 0 1 0 0
  | .fadd d a b m s => encRRR 0x11 d.toNat a.toNat b.toNat 0 0 m.code (bit s)
  | .fsub d a b m s => encRRR 0x11 d.toNat a.toNat b.toNat 0 1 m.code (bit s)
  | .fmul d a b m s => encRRR 0x11 d.toNat a.toNat b.toNat 0 2 m.code (bit s)
  | .fdiv d a b m s => encRRR 0x11 d.toNat a.toNat b.toNat 0 3 m.code (bit s)
  | .fmin d a b => encRRR 0x11 d.toNat a.toNat b.toNat 0 4 0 0
  | .fmax d a b => encRRR 0x11 d.toNat a.toNat b.toNat 0 5 0 0
  | .fsqrt d a m s => encRRR 0x11 d.toNat a.toNat 0 0 6 m.code (bit s)
  | .fabs d a => encRRR 0x11 d.toNat a.toNat 0 0 7 0 0
  | .fneg d a => encRRR 0x11 d.toNat a.toNat 0 0 8 0 0
  | .fcmp d a b c => encRRR 0x11 d.toNat a.toNat b.toNat 0 9 c.code 0
  | .fcvtF2i d a m => encRRR 0x11 d.toNat a.toNat 0 0 10 m.code 0
  | .fcvtI2f d a m => encRRR 0x11 d.toNat a.toNat 0 1 10 m.code 0
  | .fcvtF2b d a m s => encRRR 0x11 d.toNat a.toNat 0 2 10 m.code (bit s)
  | .fcvtB2f d a => encRRR 0x11 d.toNat a.toNat 0 3 10 0 0
  | .scalarWriteback .. => none
  | .b t => encB 0x18 0 0 0 t.toNat
  | .bcmp a b c t => encB 0x19 a.toNat b.toNat c.code t.toNat
  | .call a t => encB 0x1A a.toNat 0 0 t.toNat
  | .ret a => encB 0x1B a.toNat 0 0 0
  | .bi a => encB 0x1C a.toNat 0 0 0
  | .loop a t => encB 0x1D a.toNat 0 0 t.toNat
  | .bzm t => encB 0x1E 0 0 0 t.toNat
  | .mpush a b => encQ 0x20 a.toNat b.toNat 0 0 0 0 0 0 0
  | .minv => encQ 0x21 0 0 0 0 0 0 0 0 0
  | .mpop => encQ 0x22 0 0 0 0 0 0 0 0 0
  | .mget a b => encQ 0x23 a.toNat b.toNat 0 0 0 0 0 0 0
  | .xlate h x p => encM 0x28 0 h.toNat x.toNat 0 p.szField (bit p.at_) 0 0
  | .xlateComplete .. => none
  | .hinv h => encM 0x29 0 h.toNat 0 0 0 0 0 0
  | .hinfo d h => encM 0x2A d.toNat h.toNat 0 0 0 0 0 0
  | .ld d m sz sx inc => encM 0x2B d.toNat m.h.toNat m.x.toNat m.oc.toNat sz.code (bit sx) (bit inc) m.off.toNat
  | .ldReturn .. => none
  | .st d m sz inc => encM 0x2C d.toNat m.h.toNat m.x.toNat m.oc.toNat sz.code 0 (bit inc) m.off.toNat
  | .amo d m sz sx b c fn =>
    some (.word 0x2D (joinFields layMA [d.toNat, m.h.toNat, m.x.toNat, m.oc.toNat, sz.code, bit sx, 0, b.toNat, c.toNat,
      fn.code, m.off.toNat]))
  | .amoReturn .. => none
  | .amop m sz b fn =>
    some (.word 0x2E (joinFields layMA [0, m.h.toNat, m.x.toNat, m.oc.toNat, sz.code, 0, 0, b.toNat, 0, fn.code,
      m.off.toNat]))
  | .homeSliceApply .. => none
  | .probe d x p => encM 0x2F d.toNat 0 x.toNat 0 p.szField (bit p.at_) 0 0
  | .probeComplete .. => none
  | .pref m => encM 0x30 0 m.h.toNat m.x.toNat m.oc.toNat 0 0 0 m.off.toNat
  | .l2Fill .. => none
  | .region len am => encS 0x38 0 0 0 am.toNat 0 len.toNat
  | .commit sc => encS 0x39 0 0 0 0 sc.code 0
  | .commitCheck | .publishApply .. | .regionLong .. | .reentry | .translationInvalidate .. => none
  | .fence sc m => encS 0x3A 0 0 0 0 sc.code m.toNat
  | .fenceComplete .. => none
  | .arrive g p => encS 0x3B 0 g.toNat p.toNat 0 0 0
  | .rvArrival .. | .rvInitApply .. | .rvAnswer .. => none
  | .waitrv g p => encS 0x3C 0 g.toNat p.toNat 0 0 0
  | .waitrvRelease .. => none
  | .bar g => encS 0x3D 0 g.toNat 0 0 0 0
  | .barRelease .. => none
  | .rvinit g p a => encS 0x3E a.toNat g.toNat p.toNat 0 0 0
  | .rvflags g p a => encS 0x3F a.toNat g.toNat p.toNat 0 0 0
  | .rvflagsReply .. => none
  | .flagw n a => encS 0x40 a.toNat 0 0 0 0 n.toNat
  | .dccr a => encS 0x41 a.toNat 0 0 0 0 0
  | .waitc a => encS 0x42 a.toNat 0 0 0 0 0
  | .waitcExpiry => none
  | .align g t => encS 0x43 0 g.toNat 0 0 0 t.toNat
  | .alignComplete .. | .alignTimeout .. => none
  | .qpush q pd a => encQ 0x48 a.toNat 0 0 q.code pd.toNat 0 0 0 0
  | .qpusht q pd n b c => encQ 0x49 0 b.toNat c.toNat q.code pd.toNat 0 0 0 n.toNat
  | .tmpl n a => encQ 0x4E a.toNat 0 0 0 0 0 0 0 n.toNat
  | .qstat q a => encQ 0x4A a.toNat 0 0 q.code 0 0 0 0 0
  | .cruiserRecordCheck .. => none
  | .shape a => encQ 0x4B a.toNat 0 0 0 0 0 0 0 0
  | .shapeGrant .. => none
  | .mburst n => encQ 0x4C 0 0 0 0 0 0 0 0 n.toNat
  | .mburstWindowEnd .. | .rampUpDone .. | .rampHoldExpiry .. | .rampDownEnd .. => none
  | .layer e a => encQ 0x4D a.toNat 0 0 0 0 0 0 0 e.toNat
  | .pload sl a n => encQ 0x50 a.toNat 0 0 0 0 sl.toNat 0 0 n.toNat
  | .ploadInstall .. => none
  | .pbind sl p => encQ 0x51 0 0 0 0 0 sl.toNat p.code 0 1
  | .pbindUn sl => encQ 0x51 0 0 0 0 0 sl.toNat 0 0 0
  | .pconst p k a => encQ 0x52 a.toNat 0 0 0 0 0 p.code 0 k.toNat
  | .pctl sl ctl => encQ 0x53 0 0 0 0 0 sl.toNat 0 0 ctl.toNat
  | .pstat a sl => encQ 0x54 a.toNat 0 0 0 0 sl.toNat 0 0 0
  | .ttagRd a t => encQ 0x55 a.toNat 0 0 0 0 0 0 t.toNat 0
  | .ttagWr t a => encQ 0x55 a.toNat 0 0 0 0 0 0 t.toNat 1
  | .tclr t => encQ 0x56 0 0 0 0 0 0 0 t.toNat 0
  | .csrr a c => encX 0x60 a.toNat c.code 0
  | .csrw c a => encX 0x61 a.toNat c.code 0
  | .trap k => encX 0x62 0 0 k.toNat
  | .eret => encX 0x63 0 0 0
  | .halt => encX 0x64 0 0 0
  | .yield => encX 0x65 0 0 0
  | .nop => encX 0x66 0 0 0
  | .lsstep a => encX 0x67 a.toNat 0 0
  | .seed a => encX 0x68 a.toNat 0 0
  | .event k a => encX 0x69 a.toNat 0 k.toNat
  | .ctxsave a => encX 0x6A a.toNat 0 0
  | .ctxload a => encX 0x6B a.toNat 0 0
  | .chiselFadd d a b m => encC 0x01 d.toNat a.toNat b.toNat 0 m.code
  | .chiselFsub d a b m => encC 0x02 d.toNat a.toNat b.toNat 0 m.code
  | .chiselFmul d a b m => encC 0x03 d.toNat a.toNat b.toNat 0 m.code
  | .chiselFma d a b c m => encC 0x04 d.toNat a.toNat b.toNat c.toNat m.code
  | .chiselFmin d a b => encC 0x05 d.toNat a.toNat b.toNat 0 0
  | .chiselFmax d a b => encC 0x06 d.toNat a.toNat b.toNat 0 0
  | .chiselFabs d a => encC 0x07 d.toNat a.toNat 0 0 0
  | .chiselFneg d a => encC 0x08 d.toNat a.toNat 0 0 0
  | .chiselClamp d a lo hi => encC 0x09 d.toNat a.toNat lo.toNat hi.toNat 0
  | .chiselFcmp q a b c => encC 0x0A q.toNat a.toNat b.toNat 0 c.code
  | .chiselSel d a b q => encC 0x0B d.toNat a.toNat b.toNat q.toNat 0
  | .chiselCvt d a f m => encC 0x0C d.toNat a.toNat 0 0 (f.code * 8 + m.code)
  | .chiselCvtI2f d a m => encC 0x0C d.toNat a.toNat 0 0 (512 + m.code)
  | .chiselExp2 d a => encC 0x0D d.toNat a.toNat 0 0 0
  | .chiselLog2 d a => encC 0x0E d.toNat a.toNat 0 0 0
  | .chiselRcp d a => encC 0x0F d.toNat a.toNat 0 0 0
  | .chiselRsqrt d a => encC 0x10 d.toNat a.toNat 0 0 0
  | .chiselIadd d a b => encC 0x11 d.toNat a.toNat b.toNat 0 0
  | .chiselIaddImm d a i => encC 0x11 d.toNat a.toNat 0 0 (2 ^ 13 + i.toNat)
  | .chiselIand d a b => encC 0x12 d.toNat a.toNat b.toNat 0 0
  | .chiselIandImm d a i => encC 0x12 d.toNat a.toNat 0 0 (2 ^ 13 + i.toNat)
  | .chiselIshl d a b => encC 0x13 d.toNat a.toNat b.toNat 0 0
  | .chiselIshlImm d a i => encC 0x13 d.toNat a.toNat 0 0 (2 ^ 13 + i.toNat)
  | .chiselMovk d k => encC 0x14 d.toNat k.toNat 0 0 0
  | .chiselMovkX d a => encC 0x14 d.toNat a.toNat 0 0 1
  | .chiselGetc d c => encC 0x15 d.toNat c.toNat 0 0 0
  | .chiselPutc c a => encC 0x16 c.toNat a.toNat 0 0 0
  | .chiselPrev d a n => encC 0x17 d.toNat a.toNat 0 0 n.toNat
  | .chiselCacc c a m rm => encC 0x18 c.toNat a.toNat 0 0 (m.code * 8 + rm.code)
  | .chiselRaise q a f => encC 0x19 0 q.toNat a.toNat 0 f.toNat
  | .chiselOut a => encC 0x1A 0 a.toNat 0 0 0
  | .chiselCoordRow d => encC 0x1B d.toNat 0 0 0 0
  | .chiselCoordCol d => encC 0x1B d.toNat 0 0 0 1
  | .chiselDrop q => encC 0x1C 0 q.toNat 0 0 0
  | .mma r b | .mmaSp r b | .mmaMx r b | .accz r b | .accst r b | .fload r b | .forest r b | .leafg r b | .copy r b
  | .fill r b | .reduce r b | .quant r b | .deq r b | .attn r b | .kappend r b | .kchase r b | .rspanK r b | .rspanC r b
  | .ktopk r b | .kcompact r b | .beamset r b | .sgath r b | .sgpat r b | .setf r b | .waitf r b =>
    match b with
    | .start _ => some (.record r)
    | .read _ | .write _ => none
  | .yarderHoldExpiry .. | .setfFlagWrite .. | .waitfComplete .. => none
  | .boundaryReplay .. | .killComplete .. | .schedulingDecision .. | .preemptArrival | .commitGraceExpiry ..
  | .saveAreaReserve | .contextSwap | .contextUnreserve | .notifyStore .. | .scannerTick | .launchStart ..
  | .tstartCheck .. | .predDoneResume .. | .periodStart .. | .budgetExhausted .. | .deadlineMiss .. | .quantumExpiry ..
  | .queueDescriptorWrite .. | .residentSlotWrite .. | .contractWrite .. | .resumeWord .. | .fenceWordWrite ..
  | .rtloadWrite .. | .encoderSlotWrite .. | .mgmtRegisterWrite .. | .flitReceive .. | .linkRetrainDone .. | .linkDown ..
  | .fabricTransaction .. | .transactionAck .. | .frameStart .. | .frameComplete .. | .status .. | .readId .. | .readLog ..
  | .loadRecovery .. | .readSensors .. | .attest .. | .updateWrite .. | .updateActivate .. | .readConfig ..
  | .sensorRefresh | .thermalCoolRaise | .thermalTrip | .powerUp .. | .unassignedOpcode .. | .hciWrite ..
  | .cxlDeviceFailed .. | .powerLoss => none

/-- An instruction word with its end bit and guard (R72). -/
def headWord (e : Bool) (pg : Pred) (pn : Bool) (op body : Nat) : Word :=
  BitVec.ofNat 64 (joinFields layHead [bit e, pg.toNat, bit pn, op, body])

/-- What the decoders read from an encoding; `q` is the queue a record is pushed into. -/
def decodeCode (q : Queue) : Code → Option Instr
  | .word op body => Except.toOpt (decodeWord (headWord true 0 false op body))
  | .chisel w => Except.toOpt (decodeChisel (BitVec.ofNat 32 w))
  | .record r => decodeRecord q r

end Sys2Proof
end

