-- ==== Sys2Proof/Machine/State.lean ====
section
/-! DEFINITION. Everything the spec gives the machine, as plain data, the reasons a step can stop, and the state after
reset. The rule that names each piece stands beside it. -/

namespace Sys2Proof.Machine

/-- A sparse table: keys strictly rising, no entry equal to what an unlisted key reads as. -/
abbrev SMap (α : Type) := List (Nat × α)

/-- Memory: the listed bytes (`Host.Cell`); an unlisted byte reads `Mem.unlisted`. -/
abbrev Mem := List Host.Cell

/-- A handle register (R12). -/
structure Handle where
  v : Bool
  rd : Bool
  wr : Bool
  at_ : Bool
  lgsz : BitVec 6
  pbase : BitVec 40
  vpage : BitVec 44
  deriving DecidableEq, Repr

def Handle.empty : Handle := ⟨false, false, false, false, 0, 0, 0⟩

/-- A chisel slot (R175, R186, R187). -/
structure ChiselSlot where
  prog : List Word32
  ctl : BitVec 15
  sflg : BitVec 8
  port : Option Port
  deriving DecidableEq, Repr

/-- Port constants and carried state (R18, R185, R192). -/
structure PortRegs where
  k : Vector Word32 8
  c : Vector Word32 4
  deriving DecidableEq, Repr

/-- An engine flag word (R19). -/
structure EFlag where
  set : Bool
  sseq : BitVec 16
  deriving DecidableEq, Repr

/-- A tile tag word (R17). -/
structure TileTag where
  full : Bool
  fmt : BitVec 6
  seq : BitVec 16
  deriving DecidableEq, Repr

/-- The CSRs that a discard restores (R21). -/
structure CsrR where
  relim : BitVec 8
  lscale : Word32
  lscfg : Word
  lsstat : Word
  srseed : Word
  steptag : BitVec 16
  numf : BitVec 8
  hold : BitVec 8
  shapeg : BitVec 2
  deriving DecidableEq, Repr

/-- The registers of a context that REGION snapshots and a discard restores (R20). -/
structure Arch where
  s : Vector Word 64
  p : BitVec 8
  h : Vector Handle 16
  mask : List (BitVec 128)
  slots : Vector ChiselSlot 16
  ports : Vector PortRegs 4
  flags : Vector EFlag 64
  tmpl : Vector CmdRec 64
  csr : CsrR
  deriving DecidableEq, Repr

/-- The CSRs that a discard does not restore (R21, R22, R327). -/
structure Stat where
  rsc : Word
  pcnt : BitVec 8
  cnt : BitVec 8
  lastc : BitVec 8
  relax : Bool
  trapc : BitVec 8
  trapv0 : Word
  trapv1 : Word
  trapv2 : Word
  trapv3 : Word
  deriving DecidableEq, Repr

/-- An accumulator: its tag, and its elements by row × 64 + column (R15). -/
structure Acc where
  tag : BitVec 6
  el : SMap Word32
  deriving DecidableEq, Repr

/-- The local store with its tag words, its line bits (R with the cycle of the first read) and its poisoned 8-byte words
(R13, R17, R115, R338). -/
structure LocalStore where
  mem : Mem
  tags : Vector TileTag 96
  r : SMap Nat
  w : List Nat
  poison : List Nat
  deriving DecidableEq, Repr

/-- A byte a region holds back, and the cycle in which it was written (R116, R119). -/
structure HByte where
  val : Byte
  at_ : Nat
  deriving DecidableEq, Repr

/-- What a logged entry does when it is applied (R120, R133, R142, R221). -/
inductive CombineOp where
  | atomic (fn : AmoFn) (sz : Size) (y : Word)
  /-- `int`: the stream value is an I32 -/
  | elem (k : CombKind) (fmt : BitVec 6) (rm : Rm) (sat int : Bool) (v : Word32) (seed : Word) (steptag : BitVec 16)
  | arrive (g : BitVec 8) (pt : BitVec 5)
  | rvinit (g : BitVec 8) (pt : BitVec 5) (n : BitVec 5)
  deriving DecidableEq, Repr

/-- An entry of the combine log, with its physical address (R116, R120). -/
structure Combine where
  addr : Nat
  op : CombineOp
  deriving DecidableEq, Repr

/-- What a region holds back until COMMIT (R116): the store buffer, its stores through h0, the uncommitted lines, and the
combine log in the order made. -/
structure Held where
  sb : SMap HByte
  sbLs : SMap Byte
  lines : SMap HByte
  log : List Combine
  /-- the L2 lines the entry owns: those of `lines` and of its engines' combines -/
  owned : List Nat
  /-- the lines that its STs and AMOPs name, each with its ordering class (R138, R295) -/
  classes : List (Nat × Oc)
  deriving DecidableEq, Repr

/-- The kinds of outstanding access of a context (R131, R134, R138, R321). -/
inductive AccKind where
  | ld (d : Reg) (sz : Size) (sx : Bool)
  | st
  | amo (d : Reg) (sz : Size) (sx : Bool) (fn : AmoFn)
  | amop (sz : Size) (fn : AmoFn)
  | pref
  | xlate (h : HReg)
  /-- a PROBE whose remaining pages lie from `va` to `last` -/
  | probe (p : Perms) (last : Nat)
  deriving DecidableEq, Repr

/-- An outstanding access: what was captured at issue, and how far it has come. -/
structure Access where
  id : Nat
  kind : AccKind
  oc : Oc
  pa : Nat
  data : List Byte
  y : Word
  c : Word
  /-- bytes that the entry's own earlier stores supply to an LD (R117) -/
  ovl : SMap Byte
  /-- the address and contents of the issuing word, or of the LAYER that issued it with its position (R329) -/
  pc : Word
  word : Word
  pos : Word
  issued : Nat
  /-- the entry it was issued in, 0 for boundary code, and whether that was strict -/
  entry : Nat
  strict : Bool
  /-- the cycle in which its result reaches the core, once that is known -/
  back : Nat
  va : Word
  hnd : Handle
  performed : Bool
  /-- the value supplied, or the address of the poisoned word it met, or of the bytes its target refused -/
  value : Option (List Byte)
  poison : Option Nat
  fenced : Bool
  deriving DecidableEq, Repr

/-- What waits for earlier boundary accesses to perform (R36, R138, R142, R144, R171). -/
inductive WaitKind where
  | fence (mask : BitVec 16) (sc : Scope)
  | arrive (g : BitVec 8) (pt : BitVec 5)
  | rvinit (g : BitVec 8) (pt : BitVec 5) (n : BitVec 5)
  | bar (g : BitVec 8)
  | halt
  | event (code : BitVec 16) (data : Word) (at_ : Nat)
  deriving DecidableEq, Repr

/-- A wait covers the accesses whose number is below `upto`. -/
structure Wait where
  id : Nat
  upto : Nat
  kind : WaitKind
  deriving DecidableEq, Repr

/-- What holds back a context's next bundle (R75, R119, R135, R138, R143, R144, R148, R149). -/
inductive Block where
  | none
  | bar (g : BitVec 8)
  | waitrv (g : BitVec 8) (pt : BitVec 5)
  | waitc (t : Nat)
  | align (g : BitVec 8) (serial : Nat)
  | fence (id : Nat)
  | probe (id : Nat)
  | commit
  | halt
  | reentry
  | replay (serial : Nat)
  | yield
  deriving DecidableEq, Repr

/-- Where a context stands in its life (R31, R36, R319, R331). -/
inductive Life where
  | idle | placed | running | saving | saved | parked | halted | killed
  deriving DecidableEq, Repr

/-- Which of the core's two contexts the present bundle belongs to (R10). -/
inductive Mode where
  | user | firmware
  deriving DecidableEq, Repr

/-- The phases of COMMIT (R119). -/
inductive CommitPhase where
  | none
  | draining (sc : Scope)
  | checking (sc : Scope)
  | publishing (id : Nat)
  deriving DecidableEq, Repr

/-- The state of a context inside a LAYER sequence (R344 to R346): the entry and its words as copied, the address and contents
of the LAYER, the address of its bundle and of the bundle after it, the h0 offset of the parameter block, and whether a
bundle of the sequence has issued. The PC of the context is then 8 times the word index. -/
structure Layer where
  entry : BitVec 12
  words : List Word
  pc : Word
  word : Word
  bundle : Word
  ret : Word
  base : Nat
  begun : Bool
  deriving DecidableEq, Repr

/-- The region-start state (R16, R20). -/
structure Snap where
  arch : Arch
  pc : Word
  acc : Vector Acc 4
  layer : Option Layer
  deriving DecidableEq, Repr

/-- The region of a context (R31, R114). -/
structure Region where
  isOpen : Bool
  entry : Nat
  len : Nat
  amask : BitVec 4
  snap : Snap
  /-- the REGION word, and the address, contents and LAYER position of the COMMIT -/
  word : Word
  cpc : Word
  cword : Word
  cpos : Word
  /-- the main stream's digest of the entry (R335) -/
  digest : BitVec 32
  /-- handles revoked since REGION (R20, R126), and handles of the entry that another translation has replaced (R290) -/
  revoked : BitVec 16
  had : List Handle
  /-- flags that a SETF pushed in this entry sets (R155) -/
  setfs : BitVec 64
  commit : CommitPhase
  deriving DecidableEq, Repr

/-- A trap raised in the present cycle: its cause and record (R327 to R330), and the outstanding access it is about. -/
structure TrapRec where
  cause : BitVec 8
  v0 : Word
  v1 : Word
  v2 : Word
  v3 : Word
  access : Option Nat
  stored : Bool
  deriving DecidableEq, Repr

/-- Re-entry and replay state, as the context image keeps it (R22, R174, R331, R336). -/
structure Replay where
  repend : Bool
  relax : Bool
  cause : BitVec 8
  mism : BitVec 2
  count : BitVec 8
  /-- the bundle the count belongs to, and the late access to perform again -/
  at_ : Word
  access : Option Nat
  /-- handle to translate again before a boundary replay -/
  hnd : Option HReg
  serial : Nat
  deriving DecidableEq, Repr

/-- An arrival record (R143). `stale` counts the answers still to come to arrivals that a later ARRIVE has replaced. -/
structure ArrRec where
  valid : Bool
  pending : Bool
  gen : BitVec 8
  stale : Nat
  deriving DecidableEq, Repr

/-- A pending destination (R92, R183): `due` is none while the time is not known. -/
inductive PendDest where
  | s (r : Reg)
  | p (r : Pred)
  | h (r : HReg)
  | slot (n : BitVec 4)
  deriving DecidableEq, Repr

structure Pend where
  dest : PendDest
  due : Option Nat
  deriving DecidableEq, Repr

/-- Issue state (R91, R92, R93). -/
structure Hazard where
  pend : List Pend
  divs : List Nat
  fdivs : List Nat
  issueAt : Nat
  deriving DecidableEq, Repr

/-- A pushed record with what its push captured (R52, R126, R157, R179). -/
structure QEntry where
  r : CmdRec
  pushedAt : Nat
  mask : BitVec 128
  seed : Word
  steptag : BitVec 16
  handles : Vector Handle 16
  /-- the start, once fillers have fixed it (R198) -/
  startAt : Option Nat
  /-- the cycle in which the start was last judged, plus one -/
  seen : Nat
  /-- a WAITF that has started and waits (R154) -/
  waiting : Bool
  /-- its command has started in the present cycle, in which the entry is still occupied (R157) -/
  gone : Bool
  deriving DecidableEq, Repr

/-- What has left the last port of one element, or its source where it passes none (R181). -/
structure OutEl where
  idx : Nat
  val : Word32
  drop : Bool
  deriving DecidableEq, Repr

/-- A chain record as a KV command read it (R239). -/
structure Chain where
  addr : Nat
  head : Nat
  tail : Nat
  npos : Nat
  npg : Nat
  owner : Nat
  dq : Nat
  fcnt : Nat
  live : Nat
  fs : Word
  pool : Word
  sc : Word
  bt : Word
  fcap : Nat
  fmt : Nat
  /-- the core's handles in the cycle in which the record was read -/
  hs : Vector Handle 16
  deriving DecidableEq, Repr

/-- A page header as read (R238), with its frame, and the codes or scores read with it. -/
structure Page where
  frame : Nat
  nxt : Nat
  beam : Nat
  pos0 : Nat
  cnt : Nat
  isSealed : Bool
  tag : Nat
  vsc : Word32
  ksc : Word32
  sidx : Nat
  poff : List Nat
  kv : List Byte
  scores : List Word32
  deriving DecidableEq, Repr

/-- A claimed port: the slot that was bound to it at the start, with its program and settings, and the last cycle of the
claim (R180, R188). -/
structure PortUse where
  port : Port
  slot : BitVec 4
  prog : List Word32
  ctl : BitVec 15
  until_ : Nat
  deriving DecidableEq, Repr

/-- The carried state that one element of a port's stream leaves to the next (R192). -/
structure Carried where
  port : Port
  idx : Nat
  c : Vector Word32 4
  deriving DecidableEq, Repr

/-- What a peer has answered to an engine's read of a line: its bytes, poisoned data (R340), or that it turns the read away (R370). -/
inductive PeerGot where
  | data (bs : List Byte)
  | poisoned
  | rejected
  deriving DecidableEq, Repr

/-- An engine's read of a line of a peer: the transaction, and its answer. -/
structure PeerRead where
  line : Nat
  txn : Nat
  got : Option PeerGot
  deriving DecidableEq, Repr

/-- The lines that a relaxed beat waits for, and what its wait moves: the array, and the cycle from which its engine is free (R203, R220). -/
structure Stall where
  lines : List Nat
  onArray : Bool
  frees : Bool
  deriving DecidableEq, Repr

/-- A loaded forest: cells by row and the column table (R257, R258). -/
structure Forest where
  cells : List (List Word)
  cols : List Word
  deriving DecidableEq, Repr

/-- A running command: when it started, how much of its schedule it has made, what it has read, and what it works with (R196
to R270). -/
structure Run where
  id : Nat
  q : Queue
  e : QEntry
  /-- the start S, and the cycles by which its schedule has slipped since -/
  s : Nat
  slip : Nat
  /-- read beats made, the cycle of the first, and write beats made -/
  nr : Nat
  first : Option Nat
  nw : Nat
  use : List PortUse
  lf : Nat
  sh : Nat
  /-- Dend of the MMA form before it -/
  dprev : Nat
  /-- operands as read, by row of A, by column of B, latest first; scales and side-list words by their own order -/
  capA : List (List Nat)
  capB : List (List Nat)
  capX : List (List Nat)
  acc0 : List Word32
  outs : List OutEl
  /-- groups on their way: the cycle in which each was read, and its number -/
  flight : List (Nat × Nat)
  /-- cycles in which results fall due, in the order of the results -/
  times : List Nat
  vals : List Nat
  res : List (Word32 × BitVec 8)
  carry : List Carried
  clips : Nat
  chain : Option Chain
  pages : List Page
  /-- pinned lines, each with the last cycle of its pin -/
  pins : List (Nat × Nat)
  /-- lines of peers that its present beat has asked for -/
  peers : List PeerRead
  /-- the loaded forest as it stands at its start (R265) -/
  forest : Option Forest
  deriving DecidableEq, Repr

/-- An element on its way through a port (R177, R191), from the cycle `enter` to the cycle `leave`. -/
structure Job where
  run : Nat
  port : Port
  slot : BitVec 4
  idx : Nat
  row : Nat
  col : Nat
  prog : List Word32
  pc : Nat
  e : Vector Word32 8
  q : Vector Bool 4
  c : Vector Word32 4
  k : Vector Word32 8
  out : Option Word32
  drop : Bool
  entry : Word32
  /-- the element as it came, and its format on ports A and B, 0 on S and D -/
  raw : Nat
  fmt : Nat
  ctl : BitVec 15
  flags : BitVec 8
  /-- the bits of SRHash for the element it governs -/
  hash : BitVec 16
  enter : Nat
  leave : Nat
  /-- its lane is masked off; or it was dropped before it came to this port -/
  bypass : Bool
  absent : Bool
  /-- the last element of its stream -/
  final : Bool
  trap : Option TrapRec
  deriving DecidableEq, Repr

/-- The effects that fall in a later cycle: an element leaves its port (R193), or a word that an engine read is consumed
(R210, R339). `marks` are the words that become poisoned, in memory (true) or in the local store. -/
structure Leave where
  at_ : Nat
  port : Port
  idx : Nat
  slot : BitVec 4
  flags : BitVec 8
  trap : Option TrapRec
  marks : List (Bool × Nat)
  deriving DecidableEq, Repr

/-- The use of a bank's engine port in the present cycle (R277, R278). -/
structure BankUse where
  bank : Nat
  wr : Bool
  run : Nat
  start : Nat
  q : Queue
  stamp : Nat
  deriving DecidableEq, Repr

/-- The array's ramp states (R162). -/
inductive Ramp where
  | idle | up | ramped | down
  deriving DecidableEq, Repr

/-- The array: ramp state, the cycle its present ramp ends, the MBURST window, the cycle it is free from, and the Dend of
the last MMA form (R162, R163, R205). -/
structure MxArray where
  ramp : Ramp
  rampEnd : Nat
  burstStart : Nat
  burstN : Nat
  last : Nat
  serial : Nat
  free : Nat
  dend : Nat
  deriving DecidableEq, Repr

/-- The engines of a core. -/
structure Engine where
  queues : Vector (List QEntry) 6
  runs : List Run
  free : Vector Nat 6
  /-- last write of the commands started from each queue (R153) -/
  lastW : Vector Nat 6
  setfPend : Nat
  /-- occupied entries, STAMP and code of the head of each queue at the end of the previous cycle (R157, R160) -/
  qprev : Vector (Nat × Nat × Nat) 6
  /-- flags that a SETF wrote in the present cycle (R153) -/
  setfNow : BitVec 64
  array : MxArray
  forest : Option Forest
  /-- the FLOAD whose forest becomes valid when it ends (R261) -/
  loading : Option Nat
  jobs : List Job
  waitJobs : List Job
  leaves : List Leave
  banks : List BankUse
  /-- what the beat under way waits for -/
  stall : Option Stall
  deriving DecidableEq, Repr

/-- The firmware context (R10, R33). -/
structure Firmware where
  s : Vector Word 64
  p : BitVec 8
  pc : Word
  hz : Hazard
  active : Bool
  window : Nat
  used : Nat
  /-- a cycle in which it takes no issue slot (R149) -/
  hold : Nat
  /-- an instruction of the present bundle has faulted (R333) -/
  failed : Bool
  /-- the present bundle has loaded the user context from an image (R174) -/
  loaded : Bool
  deriving DecidableEq, Repr

/-- A pre-emption or stop under way on a core (R319, R320): why, since when, and the launch and logical core that come in. -/
structure Stop where
  at_ : Nat
  kill : Bool
  park : Bool
  arrived : Bool
  incoming : Option (Nat × Nat)
  deriving DecidableEq, Repr

/-- What an agenda entry is about: the chip, a physical core, or the context of a launch's logical core. -/
inductive Target where
  | chip
  | phys (n : Nat)
  | ctx (launch lcore : Nat)
  deriving DecidableEq, Repr

/-- Work due in a cycle: `ord` orders the work of one cycle (R141, R284). -/
structure Ev where
  due : Nat
  ord : Nat
  target : Target
  act : Instr
  deriving DecidableEq, Repr

/-- The scalar registers of a stream of the Cruiser (R334), and whether it has gone another way than the main stream. -/
structure Stream where
  s : Vector Word 64
  p : BitVec 8
  h : Vector Handle 16
  mask : List (BitVec 128)
  pc : Word
  stray : Bool
  deriving DecidableEq, Repr

/-- An instruction with the address and contents of its word. -/
structure Worded where
  wpc : Word
  wword : Word
  act : Instr
  deriving DecidableEq, Repr

/-- A slot as the Cruiser executes it again (R334): how a record names it (R329), its guard, the template that a QPUSHT copies, which comes
from outside both streams, and what the main stream sent; none where a push found its queue full. -/
structure Sender where
  at_ : Worded
  named : Word × Word
  pos : Word
  pg : Pred
  pn : Bool
  tmpl : CmdRec
  sent : Option (List Byte)
  deriving DecidableEq, Repr

/-- A value that reaches the Cruiser from the main stream, or from an earlier bundle of its own (R334). -/
inductive Given where
  | s (r : Reg) (v : Word)
  | p (r : Pred) (v : Bool)
  | h (r : HReg) (v : Handle)
  deriving DecidableEq, Repr

/-- A value that the Cruiser has in the cycle `due`. -/
structure Told where
  due : Nat
  fw : Bool
  given : Given
  deriving DecidableEq, Repr

/-- A bundle that the Cruiser executes again in the cycle `due` (R334): the context and the entry it belongs to, its address, the address
after it and the one the main stream went on to, its slots, and what comes from outside: CSRs, the LAYER sequence and values. A message
is withheld with the work and the numbers (from `first` on, below `upto`) that the bundle has made (R335, R336). -/
structure Reexec where
  due : Nat
  fw : Bool
  entry : Nat
  at_ : Word
  next : Word
  leads : Word
  csr : CsrR
  layer : Option Layer
  slots : List Sender
  given : List Given
  made : List Ev
  first : Nat
  upto : Nat
  deriving DecidableEq, Repr

/-- The Cruiser: its own registers for the user and for the firmware context, its digest of the open entry, the bundles it has still to
execute, and the values that are on their way to it (R334, R335). -/
structure Cruiser where
  user : Stream
  firm : Stream
  digest : BitVec 32
  lag : List Reexec
  told : List Told
  deriving DecidableEq, Repr

/-- A Tile Core with the user context it holds. -/
structure Core where
  phys : Nat
  launch : Nat
  lcore : Nat
  part : BitVec 4
  vf : BitVec 7
  groups : List (BitVec 8)
  life : Life
  mode : Mode
  arch : Arch
  /-- the registers as they stood before the present bundle (R75) -/
  pre : Arch
  pc : Word
  /-- the address and contents of the word being executed, and the address after its bundle -/
  wpc : Word
  wword : Word
  bend : Word
  /-- the address of the latest bundle, its blocking instructions with a true guard, and whether only those issue again (R320) -/
  bpc : Word
  blocked : List Worded
  reissue : Bool
  /-- the cycle in which the walker comes to a page that fails for the PROBE of the next bundle (R125, R321) -/
  walk : Option Nat
  stat : Stat
  reg : Region
  ls : LocalStore
  acc : Vector Acc 4
  held : Held
  arr : Vector ArrRec 96
  barPending : Bool
  hz : Hazard
  io : List Access
  waits : List Wait
  blk : Block
  eng : Engine
  trap : Option TrapRec
  replay : Replay
  layer : Option Layer
  fw : Firmware
  fshare : BitVec 8
  errinjA : Word
  errinjC : Word
  retired : Bool
  stop : Option Stop
  cruiser : Cruiser
  /-- local-store bytes 0x5E000 to 0x5FFFF while they hold an image (R319) -/
  tail : Mem
  /-- numerical flags set in the present cycle (R56) -/
  numfNow : BitVec 8
  /-- the cycle of the last bundle, plus one -/
  issued : Nat
  /-- it is parked, or is to be, for want of cores (R326) -/
  short : Bool
  deriving DecidableEq, Repr

/-- A boundary store that changed a line: launch, logical core and ordering class. -/
abbrev Writer := Nat × Nat × Oc

/-- A line resident in its home slice (R282). The list of lines is in order of use, the least recently used first. -/
structure Line where
  addr : Nat
  dirty : Bool
  pins : Nat
  /-- the Yarder's holds: the entry each belongs to, 0 for one that has ended, and the cycle in which it ends (R244) -/
  yarder : List (Nat × Nat)
  header : Bool
  uncommitted : Nat
  /-- the boundary stores since it was last written back (R295) -/
  writers : List Writer
  /-- the words that the second tier's memory holds poisoned behind a line of it (R338, R371) -/
  behind : List Nat
  deriving DecidableEq, Repr

/-- A publish set from its commit point until it is visible (R119, R294). -/
structure PubSet where
  id : Nat
  launch : Nat
  lcore : Nat
  sc : Scope
  at_ : Nat
  plain : SMap Byte
  /-- those of `plain` that engines wrote, and the entry (R117, R292) -/
  lines : SMap Byte
  entry : Nat
  log : List Combine
  /-- the lines of its STs and AMOPs, with their ordering classes (R138, R295) -/
  classes : List (Nat × Oc)
  /-- the cycle in which its slice has applied each line -/
  ends : List (Nat × Nat)
  /-- the cycle in which it becomes visible at its scope -/
  vis : Nat
  flags : BitVec 8
  /-- the whole set that a line of scope CORE belongs to -/
  parent : Nat
  /-- the address, contents and LAYER position of the COMMIT (R352) -/
  pc : Word
  word : Word
  pos : Word
  /-- its writes have been applied, and acknowledgements are awaited -/
  applied : Bool
  /-- a fabric address of the set whose device is fenced -/
  fenced : Option Nat
  deriving DecidableEq, Repr

/-- A group of a launch (R27, R28, R140 to R149). -/
structure Group where
  gid : BitVec 8
  rv : Bool
  memb : BitVec 28
  bars : List Nat
  lastBar : Nat
  aligns : List (Nat × Nat)
  points : Vector Word 24
  homeDie : Nat
  /-- WAITRV messages: point, logical core, target generation if known, cycle at the point -/
  waiters : List (BitVec 5 × Nat × Option (BitVec 8) × Nat)
  deriving DecidableEq, Repr

/-- A translation that a cluster's walker keeps since a PROBE of its page (R124, R135). -/
structure Walked where
  cluster : Nat
  vf : BitVec 7
  va : Nat
  len : Nat
  deriving DecidableEq, Repr

/-- An invalidation that has not been acknowledged (R288, R290): its range, the second-tier pages it may name, and the boundary
accesses, the publish sets and the open entries (launch, logical core, entry) that it waits for. -/
structure Inval where
  vf : BitVec 7
  va : Nat
  len : Nat
  tier : List (Nat × Nat)
  accesses : List Nat
  pubs : List Nat
  entries : List (Nat × Nat × Nat)
  deriving DecidableEq, Repr

/-- Where a launch stands (R311, R312, R331). -/
inductive LState where
  | waiting | placing | ready | running | parked | killed | done
  deriving DecidableEq, Repr

/-- A KV pool range of a launch and its physical run (R237). -/
structure Pool where
  va : Nat
  len : Nat
  stride : Nat
  ps : Nat
  deriving DecidableEq, Repr

/-- A launch (R25, R305 to R313). -/
structure Launch where
  id : Nat
  part : BitVec 4
  vf : BitVec 7
  queue : BitVec 12
  seq : BitVec 32
  cid : BitVec 6
  slot : BitVec 10
  n : Nat
  codeva : Word
  entry : Word
  codelen : Nat
  /-- the parameter word comes from the invocation, not from the launch block -/
  paramv : Bool
  param : Word
  shape : BitVec 2
  bufs : List Word
  overrides : Word
  ovmask : BitVec 32
  groups : List Group
  pools : List Pool
  sections : List (Nat × Nat × Nat)
  preds : List (BitVec 12 × BitVec 32)
  tstart : Nat
  state : LState
  late : Bool
  cause : BitVec 8
  halted : List Nat
  lastHalt : Nat
  deadline : Option Nat
  released : Bool
  demoted : Bool
  /-- the physical core of each logical core that runs -/
  place : List (Nat × Nat)
  /-- the first poisoned word that the dispatcher has read for it, and whether its mark is stored (R338) -/
  bad : Option (Nat × Bool)
  deriving DecidableEq, Repr

/-- An invocation queue (R302, R303). -/
structure QDesc where
  en : Bool
  stop : Bool
  lgn : Nat
  base : Nat
  vf : BitVec 7
  expseq : BitVec 32
  ci : BitVec 32
  pi : BitVec 32
  deriving DecidableEq, Repr

/-- An invocation held for a model that is not resident (R307). -/
structure Invocation where
  queue : BitVec 12
  rec_ : CmdRec
  ext : Option CmdRec
  deriving DecidableEq, Repr

/-- A contract (R314, R316). -/
structure Contract where
  phase : Nat
  period : Nat
  budget : Nat
  deadline : Nat
  ncore : Nat
  lmax : Nat
  valid : Bool
  adm : Bool
  bovr : BitVec 32
  left : Nat
  k : Nat
  withdraw : Bool
  deriving DecidableEq, Repr

/-- Per-partition settings and tables. -/
structure Partition where
  ceilf : BitVec 16
  quantum : Nat
  belmax : Nat
  actdef : Word
  allow : BitVec 2
  hostAllow : BitVec 2
  rtbase : Nat
  /-- the rank table as the ports have cached it (R366) -/
  rtcache : SMap Word
  windows : Vector (Word × Word) 16
  skidder : Vector Word 64
  rotation : List (Nat × Nat)
  hold : List Invocation
  tierPages : Nat
  deriving DecidableEq, Repr

/-- The dispatchers (R302 to R317). -/
structure Dispatch where
  queues : SMap QDesc
  scanP : BitVec 12
  slots : SMap Word
  rbase : SMap Word
  contracts : SMap Contract
  microcode : SMap (Word × Word)
  launches : List Launch
  nextLaunch : Nat
  doneLog : List (BitVec 12 × BitVec 32)
  deriving DecidableEq, Repr

/-- An event record that waits for room in its ring, with the context whose EVENT it is (R306). -/
structure HeldRec where
  id : Nat
  launch : Nat
  lcore : Nat
  words : List Word
  deriving DecidableEq, Repr

/-- A virtual function and its host event queue (R306, R369). -/
structure Vf where
  valid : Bool
  hnode : BitVec 11
  rootpa : Nat
  lgn : Nat
  eqoff : Nat
  hci : BitVec 32
  posted : BitVec 32
  dseq : BitVec 32
  lost : Bool
  held : List HeldRec
  deriving DecidableEq, Repr

/-- The 16-byte header of a transaction or of an answer, and the number that its source has given it. -/
structure WireHead where
  dst : Nat
  src : Nat
  part : Nat
  cls : Nat
  off : Nat
  tag : Nat
  tries : Nat
  ch : Channel
  deriving DecidableEq, Repr

/-- A transaction, an answer or a record on its way to a node: its channel, its bytes, its number where it is a transaction, and how many
of its bytes have gone. -/
structure Parcel where
  node : Nat
  ch : Channel
  bytes : List Byte
  txn : Nat
  gone : Nat
  deriving DecidableEq, Repr

/-- A flit that has been sent, with what it carried. -/
structure Sent where
  flit : Flit
  parcel : Option Parcel
  deriving DecidableEq, Repr

/-- A link (R359 to R361). -/
structure Link where
  /-- lanes in use, 0 when the link is down -/
  width : Nat
  rxNext : BitVec 12
  /-- a NAK has been sent and the flit resent for it has not come; or the next flit that is sent carries a NAK -/
  nakWait : Bool
  nakHeld : Bool
  /-- the cycles of the NAKs sent and received -/
  naks : List Nat
  naksTx : List Nat
  lastRx : Nat
  txNext : BitVec 12
  retrain : Option Nat
  /-- the flits that no ACK covers yet, and those of them that are to be sent again -/
  replay : List Sent
  resend : List Sent
  /-- what waits to be sent -/
  queue : List Parcel
  /-- the flit that goes out in the present cycle, without its check -/
  tx : Option Flit
  /-- what has come of an unfinished parcel, by channel -/
  rx : SMap (List Byte)
  deriving DecidableEq, Repr

/-- An outbound transaction not acknowledged yet (R363): the access of a context, a part of a publish set, an engine's read, or an
event record, which counts for the context that issued its EVENT. -/
structure OutTxn where
  id : Nat
  part : BitVec 4
  /-- it was resolved through the rank table -/
  rank : Bool
  node : Nat
  ch : Channel
  off : Nat
  cls : Nat
  launch : Nat
  lcore : Nat
  access : Nat
  isRecord : Bool
  kind : TxnKind
  /-- an injected error spoils the check of its next send (R341) -/
  bad : Bool
  /-- how often it has been sent (R340) -/
  tries : Nat
  deriving DecidableEq, Repr

/-- An answer that brought data, kept for the case that its node asks for it again (R340). -/
structure Kept where
  head : WireHead
  code : Nat
  bytes : List Byte
  deriving DecidableEq, Repr

/-- The fabric (R359 to R370). -/
structure Fabric where
  /-- the device's own node number, which the fabric gives it -/
  own : Nat
  vfs : SMap Vf
  links : Vector Link 24
  fenced : List Nat
  out : List OutTxn
  /-- records and answers sent to hosts and peers, newest last: destination node and words -/
  sent : List (Nat × List Word)
  /-- the RTLOADs that wait: the partition, the node that wrote, and the transactions already resolved (R366) -/
  rtwait : List (Nat × BitVec 11 × List Nat)
  /-- the link by which transactions for a node go, once one has (R363) -/
  paths : SMap Nat
  kept : List Kept
  /-- transactions that wait, for a line or to be sent again, one of each source, channel and class; and those that came behind them
  (R363) -/
  heads : List Txn
  behind : List Txn
  deriving DecidableEq, Repr

/-- A line of a picture that an encode engine has fetched, and the boundary stores made to it since (R374, R295). -/
structure EncLine where
  bytes : List Byte
  writers : List Writer
  deriving DecidableEq, Repr

/-- A frame from its start until its header is written (R374, R375). -/
structure EncFrame where
  k : Nat
  start : Nat
  /-- the cycle in which its read starts, and the one in which its header is written -/
  rk : Option Nat
  due : Option Nat
  skip : Bool
  /-- the lines fetched for it, by address, and the bytes read so far -/
  copies : SMap EncLine
  pic : List Byte
  deriving DecidableEq, Repr

/-- A stream slot of an encode engine (R372 to R375). -/
structure Enc where
  w0 : Word
  w1 : Word
  w2 : Word
  w3 : Word
  w4 : Word
  frame : Nat
  frames : List EncFrame
  /-- what the encoder keeps of earlier pictures -/
  st : Word
  deriving DecidableEq, Repr

/-- A record of the event log (R377). -/
structure LogRec where
  seq : Nat
  power : Nat
  dcc : Nat
  code : Nat
  data : Nat
  deriving DecidableEq, Repr

/-- A firmware slot (R379). -/
structure FwSlot where
  image : Mem
  len : Nat
  version : Nat
  good : Bool
  deriving DecidableEq, Repr

/-- The configuration record (R378). -/
structure ConfigRec where
  cores : BitVec 448
  slices : BitVec 224
  links : BitVec 24
  hbmStacks : BitVec 8
  encoders : BitVec 16
  managers : List Nat
  serial : Word
  version : Nat
  deriving DecidableEq, Repr

/-- The Himos controller (R342, R376 to R382). -/
structure Himos where
  request : Mem
  response : List Byte
  door : Word
  log : List LogRec
  logSeq : Nat
  sensors : List Word32
  config : ConfigRec
  slots : Vector FwSlot 2
  minVersion : Nat
  preferred : Nat
  booted : Nat
  /-- a recovery image runs (R342) -/
  recovery : Bool
  configGood : Bool
  /-- both slots, or the configuration record, failed at power-up (R342, R378) -/
  held : Bool
  reasons : Vector Nat 3
  rollback : Nat
  power : Nat
  railsUp : Bool
  /-- cycles until the cores leave reset, during bring-up (R380) -/
  bring : Nat
  /-- the cycle in which the host and peer channels open (R380) -/
  opens : Nat
  hotPower : Nat
  cxlFailed : List Nat
  cxlCaps : List Nat
  deriving DecidableEq, Repr

/-- The phases of a cycle, in their order (DESIGN CHOICE, log entry 1): what the agenda and the inputs bring; writes of engines to memory
and accumulators; starts of commands; reads of engines; chisel words; bundles; writes of engines to the local store; results
of the same cycle; traps and waits, and what stops a core; decisions of the dispatchers. -/
inductive Phase where
  | events | mwrites | starts | reads | lanes | issue | lwrites | close | stops | settle
  deriving DecidableEq, Repr

/-- An instruction to execute next, on a core. -/
structure Task where
  phys : Nat
  act : Instr
  deriving DecidableEq, Repr

/-- An error that strikes the part (R329, R334 to R338): a correctable one in a word, an uncorrectable one in a word of memory or of a
core's local store, one that the command running in a queue meets in a unit of its core (5 the accumulators and shadows, 6 the
datapath, 7 queues and templates), or a bit of a scalar register of the main stream or of the Cruiser's that turns over. -/
inductive Upset where
  | corrected (a : Nat)
  | memory (a : Nat)
  | local_ (phys o : Nat)
  | command (phys : Nat) (q : Queue) (unit : Nat)
  | register (phys : Nat) (cruiser : Bool) (r : Reg) (b : Nat)
  deriving DecidableEq, Repr

/-- The machine. -/
structure State where
  dcc : Nat
  phase : Phase
  /-- the work of the phase that is already known, and whether it has been listed -/
  todo : List Task
  listed : Bool
  agenda : List Ev
  inputs : List Ev
  /-- errors still to come, with their cycles (R337) -/
  upsets : List (Nat × Upset)
  free : Nat
  serial : Nat
  core : Core
  others : List Core
  saved : List Core
  mem : Mem
  cxl : Mem
  lines : List Line
  poison : List Nat
  pubs : List PubSet
  sliceFree : SMap Nat
  walked : List Walked
  invals : List Inval
  disp : Dispatch
  parts : Vector Partition 16
  fabric : Fabric
  encs : SMap Enc
  himos : Himos
  deriving DecidableEq, Repr

/-- Why the machine stops. Each is raised where the spec gives the machine no effect at all. -/
inductive Fault where
  /-- Code fetch inside the code range that the function's tables do not map: the spec requires the host to have mapped
  it (R309) and says nothing of what else happens. Raised by the fetch of a bundle. Safe. -/
  | codeUnmapped
  /-- An address outside the 52-bit physical space or in a reserved range (R279), which no leaf can map. Raised by the
  memory operations. Safe. -/
  | noSuchAddress
  deriving DecidableEq, Repr

/-- Why an instruction has no meaning. -/
inductive Refusal where
  /-- The instruction has no meaning in this model yet. Raised by no meaning. Safe. -/
  | notModelled (mnemonic : String)
  deriving DecidableEq, Repr

abbrev Out := Host.Outcome State Fault Refusal

/-! The state after reset. -/

def CmdRec.zero : CmdRec := ⟨0, 0, 0, 0, 0, 0, 0, 0⟩

/-- The tag EMPTY (R45). -/
def Acc.empty : Acc := ⟨0, []⟩

def ChiselSlot.empty : ChiselSlot := ⟨[], 0, 0, none⟩

def PortRegs.zero : PortRegs := ⟨Vector.replicate 8 0, Vector.replicate 4 0⟩

/-- The CSRs at launch (R26, R161, R347, R348). -/
def CsrR.launch : CsrR :=
  { relim := 3, lscale := 0x3F800000, lscfg := 0x000003E800008F7F, lsstat := 0, srseed := 0, steptag := 0, numf := 0,
    hold := 0, shapeg := 3 }

/-- The window h0 (R13). -/
def Handle.local : Handle := ⟨true, true, true, true, 0, 0, 0⟩

/-- The registers at launch (R26), before s1 to s8 are set. -/
def Arch.launch : Arch :=
  { s := Vector.replicate 64 0, p := 1, h := (Vector.replicate 16 Handle.empty).set 0 Handle.local, mask := [],
    slots := Vector.replicate 16 ChiselSlot.empty, ports := Vector.replicate 4 PortRegs.zero,
    flags := Vector.replicate 64 ⟨false, 0⟩, tmpl := Vector.replicate 64 CmdRec.zero, csr := CsrR.launch }

def Stat.launch : Stat := ⟨0, 0, 0, 0, false, 0, 0, 0, 0, 0⟩

def LocalStore.clear : LocalStore := ⟨[], Vector.replicate 96 ⟨false, 0, 0⟩, [], [], []⟩

def Held.empty : Held := ⟨[], [], [], [], [], []⟩

def Snap.launch : Snap := ⟨Arch.launch, 0, Vector.replicate 4 Acc.empty, none⟩

def Region.closed : Region :=
  { isOpen := false, entry := 0, len := 0, amask := 0, snap := Snap.launch, word := 0, cpc := 0, cword := 0, cpos := 0, digest := 0, revoked := 0, had := [], setfs := 0, commit := .none }

def MxArray.idle : MxArray := ⟨.idle, 0, 0, 0, 0, 0, 0, 0⟩

def Engine.idle : Engine :=
  { queues := Vector.replicate 6 [], runs := [], free := Vector.replicate 6 0, lastW := Vector.replicate 6 0, setfPend := 0, qprev := Vector.replicate 6 (0, 0, 0),
    setfNow := 0, array := MxArray.idle, forest := none, loading := none, jobs := [], waitJobs := [], leaves := [], banks := [], stall := none }

def Firmware.idle : Firmware := ⟨Vector.replicate 64 0, 1, 0, ⟨[], [], [], 0⟩, false, 0, 0, 0, false, false⟩

def Replay.none : Replay := ⟨false, false, 0, 0, 0, 0, Option.none, Option.none, 0⟩

def Stream.idle : Stream := ⟨Vector.replicate 64 0, 1, (Vector.replicate 16 Handle.empty).set 0 Handle.local, [], 0, false⟩

def Cruiser.idle : Cruiser := ⟨Stream.idle, Stream.idle, 0, [], []⟩

/-- A core that holds no context. FSHARE is 8 at power-up (R33) (DESIGN CHOICE, log entry 2). -/
def Core.idle (phys : Nat) (part : BitVec 4) : Core :=
  { phys := phys, launch := 0, lcore := 0, part := part, vf := 0, groups := [], life := .idle, mode := .user,
    arch := Arch.launch, pre := Arch.launch, pc := 0, wpc := 0, wword := 0, bend := 0, bpc := 0, blocked := [], reissue := false, walk := none, stat := Stat.launch,
    reg := Region.closed, ls := LocalStore.clear, acc := Vector.replicate 4 Acc.empty, held := Held.empty,
    arr := Vector.replicate 96 ⟨false, false, 0, 0⟩, barPending := false, hz := ⟨[], [], [], 0⟩, io := [], waits := [],
    blk := .none, eng := Engine.idle, trap := none, replay := Replay.none, layer := none, fw := Firmware.idle,
    fshare := 8, errinjA := 0, errinjC := 0, retired := false, stop := none, cruiser := Cruiser.idle, tail := [], numfNow := 0, issued := 0,
    short := false }

/-- The default actions of R328 in the layout of launch-block offset 0x020: 0 KILL, 1 REPLAY, 2 PARK, 3 FORWARD. -/
def actdefReset : Word :=
  let replay := [0x03, 0x08, 0x09, 0x0F, 0x11, 0x14, 0x1E]
  let forward := [0x04, 0x05, 0x06, 0x07, 0x16, 0x19, 0x1A, 0x1B, 0x1C]
  BitVec.ofNat 64 ((replay.map fun c => 2 ^ (2 * c)).sum + 2 * 2 ^ (2 * 0x17) + (forward.map fun c => 3 * 2 ^ (2 * c)).sum)

def Partition.reset : Partition :=
  { ceilf := 62259, quantum := 2 ^ 20, belmax := 2 ^ 20, actdef := actdefReset, allow := 3, hostAllow := 3, rtbase := 0,
    rtcache := [], windows := Vector.replicate 16 (0, 0), skidder := Vector.replicate 64 0, rotation := [], hold := [],
    tierPages := 0 }

def Dispatch.reset : Dispatch :=
  { queues := [], scanP := 0, slots := [], rbase := [], contracts := [], microcode := [], launches := [], nextLaunch := 1,
    doneLog := [] }

def Link.trained : Link := ⟨8, 0, false, false, [], [], 0, 0, none, [], [], [], none, []⟩

def Fabric.reset : Fabric :=
  { own := 0, vfs := [], links := Vector.replicate 24 Link.trained, fenced := [], out := [], sent := [], rtwait := [], paths := [],
    kept := [], heads := [], behind := [] }

def ConfigRec.full : ConfigRec :=
  { cores := BitVec.allOnes 448, slices := BitVec.allOnes 224, links := BitVec.allOnes 24, hbmStacks := BitVec.allOnes 8,
    encoders := BitVec.allOnes 16, managers := [1024], serial := 0, version := 0 }

def Himos.reset : Himos :=
  { request := [], response := [], door := 0, log := [], logSeq := 0, sensors := List.replicate 320 0,
    config := ConfigRec.full, slots := Vector.replicate 2 ⟨[], 0, 0, true⟩, minVersion := 0, preferred := 0, booted := 0, recovery := false, configGood := true,
    held := false, reasons := Vector.replicate 3 0, rollback := 0, power := 0, railsUp := true, bring := 0, opens := 0, hotPower := 0,
    cxlFailed := [], cxlCaps := [] }

/-- The work that runs by itself from the cycle in which the cores leave reset: the scanner every 4 cycles (R304), the
sensors every 2^20 (R377) and the cool raise every 2^24 (R382). -/
def State.firstScan : Ev := ⟨4, 0, .chip, .scannerTick⟩

def State.clockwork : List Ev := [firstScan, ⟨2 ^ 20, 0, .chip, .sensorRefresh⟩, ⟨2 ^ 24, 0, .chip, .thermalCoolRaise⟩]

/-- The machine in the cycle in which the cores leave reset (R380) (DESIGN CHOICE, log entry 3). -/
def State.reset : State :=
  { dcc := 0, phase := .events, todo := [], listed := false, agenda := State.clockwork, inputs := [], upsets := [], free := 0, serial := 1, core := Core.idle 0 0,
    others := [], saved := [], mem := [], cxl := [], lines := [], poison := [], pubs := [], sliceFree := [], walked := [], invals := [],
    disp := Dispatch.reset, parts := Vector.replicate 16 Partition.reset, fabric := Fabric.reset, encs := [],
    himos := Himos.reset }

end Sys2Proof.Machine
end

