-- ==== Sys2Proof/Machine/Ops.lean ====
section
/-! DEFINITION. The named operations every meaning is built from: sparse tables and memory, registers, results in
flight, the agenda, free values, and taking a trap with its record. -/

namespace Sys2Proof.Machine

/-! Sparse tables. A table lists no key whose value is the one an unlisted key reads as (`dflt`), keys strictly rising. -/

/-- The value at a key. -/
def SMap.get {α : Type} (dflt : α) (k : Nat) : SMap α → α
  | [] => dflt
  | (j, v) :: m => if j = k then v else if k < j then dflt else SMap.get dflt k m

/-- The entry at a key, if it is listed. -/
def SMap.find {α : Type} (k : Nat) : SMap α → Option α
  | [] => none
  | (j, v) :: m => if j = k then some v else if k < j then none else SMap.find k m

/-- List a key with a value. -/
def SMap.put {α : Type} (k : Nat) (v : α) : SMap α → SMap α
  | [] => [(k, v)]
  | (j, w) :: m => if j = k then (k, v) :: m else if k < j then (k, v) :: (j, w) :: m else (j, w) :: SMap.put k v m

/-- Unlist a key. -/
def SMap.del {α : Type} (k : Nat) : SMap α → SMap α
  | [] => []
  | (j, w) :: m => if j = k then m else if k < j then (j, w) :: m else (j, w) :: SMap.del k m

/-- Write a value: the value an unlisted key reads as removes the entry. -/
def SMap.set {α : Type} [DecidableEq α] (dflt : α) (k : Nat) (v : α) (m : SMap α) : SMap α :=
  if v = dflt then SMap.del k m else SMap.put k v m

/-! Bytes of memory. -/

/-- What a byte that nothing has written reads as (DESIGN CHOICE, log entry 4). -/
def Mem.unlisted : Byte := 0

/-- The canonical form: addresses strictly rising, no entry equal to `Mem.unlisted`. -/
def Mem.wf : Mem → Bool
  | [] => true
  | [(_, v)] => v != Mem.unlisted
  | (a, v) :: (b, w) :: m => v != Mem.unlisted && decide (a < b) && Mem.wf ((b, w) :: m)

def Mem.read (m : Mem) (a : Nat) : Byte := SMap.get Mem.unlisted a m

def Mem.write (m : Mem) (a : Nat) (v : Byte) : Mem := SMap.set Mem.unlisted a v m

/-- The bytes at `a`, `a + 1`, … -/
def Mem.readBytes (m : Mem) (a : Nat) (n : Nat) : List Byte := (List.range n).map fun i => m.read (a + i)

/-- Write bytes at `a`, `a + 1`, … -/
def Mem.writeBytes (m : Mem) (a : Nat) : List Byte → Mem
  | [] => m
  | b :: bs => (m.write a b).writeBytes (a + 1) bs

/-- A little-endian number (R5). -/
def leNat : List Byte → Nat
  | [] => 0
  | b :: bs => b.toNat + 256 * leNat bs

/-- The `n` bytes of a number, the least significant first (R5). -/
def leBytes : Nat → Nat → List Byte
  | 0, _ => []
  | n + 1, v => BitVec.ofNat 8 v :: leBytes n (v / 256)

def leWord (bs : List Byte) : Word := BitVec.ofNat 64 (leNat bs)

/-- A big word as little-endian numbers of `w` bytes. -/
def splitEvery {α : Type} (w : Nat) : Nat → List α → List (List α)
  | 0, _ => []
  | n + 1, l => l.take w :: splitEvery w n (l.drop w)

/-! CRC-32C (R340): polynomial 0x1EDC6F41, reflected input and output, initial value and final XOR all ones. -/

def crcBits (v : BitVec 32) : Nat → BitVec 32
  | 0 => v
  | k + 1 => crcBits (if v.getLsbD 0 then v >>> 1 ^^^ 0x82F63B78 else v >>> 1) k

/-- Go on with a CRC over more bytes. -/
def crcAdd (c : BitVec 32) (bs : List Byte) : BitVec 32 :=
  ~~~(bs.foldl (fun v b => crcBits (v ^^^ b.setWidth 32) 8) (~~~c))

def crc32c (bs : List Byte) : BitVec 32 := crcAdd 0 bs

/-! Bits. -/

/-- A bit of a vector, by number. -/
def setBit {n : Nat} (v : BitVec n) (i : Nat) (b : Bool) : BitVec n :=
  if b then v ||| BitVec.ofNat n (2 ^ i) else v &&& ~~~(BitVec.ofNat n (2 ^ i))

/-- Field [hi:lo] of a number. -/
def field (n hi lo : Nat) : Nat := n / 2 ^ lo % 2 ^ (hi - lo + 1)

/-- Field [hi:lo] of a word. -/
def wfield (w : Word) (hi lo : Nat) : Nat := field w.toNat hi lo

/-! Parts of the state. -/

def State.onCore (s : State) (f : Core → Core) : State := { s with core := f s.core }

def State.onArch (s : State) (f : Arch → Arch) : State := s.onCore fun c => { c with arch := f c.arch }

def State.onCsr (s : State) (f : CsrR → CsrR) : State := s.onArch fun a => { a with csr := f a.csr }

def State.onStat (s : State) (f : Stat → Stat) : State := s.onCore fun c => { c with stat := f c.stat }

def State.onEng (s : State) (f : Engine → Engine) : State := s.onCore fun c => { c with eng := f c.eng }

def State.onHz (s : State) (f : Hazard → Hazard) : State := s.onCore fun c => { c with hz := f c.hz }

def State.onReg (s : State) (f : Region → Region) : State := s.onCore fun c => { c with reg := f c.reg }

def State.onLs (s : State) (f : LocalStore → LocalStore) : State := s.onCore fun c => { c with ls := f c.ls }

def State.onHeld (s : State) (f : Held → Held) : State := s.onCore fun c => { c with held := f c.held }

def State.onDisp (s : State) (f : Dispatch → Dispatch) : State := { s with disp := f s.disp }

def State.onFabric (s : State) (f : Fabric → Fabric) : State := { s with fabric := f s.fabric }

def State.onHimos (s : State) (f : Himos → Himos) : State := { s with himos := f s.himos }

def State.onPart (s : State) (p : BitVec 4) (f : Partition → Partition) : State :=
  { s with parts := s.parts.set p.toNat (f (s.parts.get p.toFin)) p.isLt }

def State.part (s : State) (p : BitVec 4) : Partition := s.parts.get p.toFin

/-- Every core of the chip, the focused one first. -/
def State.cores (s : State) : List Core := s.core :: s.others

/-- Apply a function to every core. -/
def State.onCores (s : State) (f : Core → Core) : State := { s with core := f s.core, others := s.others.map f }

/-- A value from outside the core that the main stream has in the cycle `t` reaches the Cruiser 6 cycles later (R334). -/
def State.relayAt (s : State) (t : Nat) (fw : Bool) (g : Given) : State :=
  s.onCore fun c => { c with cruiser := { c.cruiser with told := c.cruiser.told ++ [⟨t + 6, fw, g⟩] } }

def State.relay (s : State) (g : Given) : State := s.relayAt s.dcc false g

/-- The registers of a context as a stream. -/
def Arch.stream (a : Arch) (pc : Word) : Stream := ⟨a.s, a.p, a.h, a.mask, pc, false⟩

/-- The Cruiser goes on with other registers of the user context: a discard has restored them, or a context has come to the core. What it
had still to do for the user context is dropped. -/
def Cruiser.restart (x : Cruiser) (a : Arch) (pc : Word) : Cruiser :=
  { x with user := a.stream pc, lag := x.lag.filter Reexec.fw, told := x.told.filter Told.fw }

/-! Registers (R11, R12). Operands come from the state before the bundle (R75). -/

/-- s(r): s0 reads as zero. -/
def Arch.sreg (a : Arch) (r : Reg) : Word := if r = 0 then 0 else a.s.get r.toFin

/-- p(r): p0 reads as true. -/
def Arch.preg (a : Arch) (r : Pred) : Bool := if r = 0 then true else a.p.getLsbD r.toNat

def Arch.hreg (a : Arch) (h : HReg) : Handle := a.h.get h.toFin

/-- A write to s0 is discarded. -/
def Arch.setS (a : Arch) (r : Reg) (v : Word) : Arch := if r = 0 then a else { a with s := a.s.set r.toNat v r.isLt }

/-- A write to p0 is discarded. -/
def Arch.setP (a : Arch) (r : Pred) (v : Bool) : Arch := if r = 0 then a else { a with p := setBit a.p r.toNat v }

def Arch.setH (a : Arch) (h : HReg) (v : Handle) : Arch := { a with h := a.h.set h.toNat v h.isLt }

/-- Operand s(r) of the present bundle. -/
def State.src (s : State) (r : Reg) : Word := s.core.pre.sreg r

/-- Operand p(r) of the present bundle. -/
def State.srcP (s : State) (r : Pred) : Bool := s.core.pre.preg r

/-- Operand h(h) of the present bundle. -/
def State.srcH (s : State) (h : HReg) : Handle := s.core.pre.hreg h

def State.putS (s : State) (r : Reg) (v : Word) : State := s.onArch fun a => a.setS r v

def State.putP (s : State) (r : Pred) (v : Bool) : State := s.onArch fun a => a.setP r v

def State.putH (s : State) (h : HReg) (v : Handle) : State := s.onArch fun a => a.setH h v

/-- mtop (R14): all ones when the stack is empty. -/
def Arch.mtop (a : Arch) : BitVec 128 := a.mask.headD (BitVec.allOnes 128)

/-- Is a region open (R31)? -/
def State.inRegion (s : State) : Bool := s.core.reg.isOpen

/-- Is the present bundle the firmware context's? -/
def State.firmware (s : State) : Bool := s.core.mode == .firmware

/-- Cycles since the region opened. -/
def State.cyc (s : State) : Nat := (s.dcc + 2 ^ 64 - s.core.stat.rsc.toNat) % 2 ^ 24

/-! The agenda, serial numbers and free values. -/

/-- The context on the focused core. -/
def State.me (s : State) : Target := .ctx s.core.launch s.core.lcore

/-- The focused core itself. -/
def State.here (s : State) : Target := .phys s.core.phys

/-- Insert an entry after those that are due before it or with it in the same order. -/
def Ev.insert (e : Ev) : List Ev → List Ev
  | [] => [e]
  | f :: l => if e.due < f.due ∨ (e.due = f.due ∧ e.ord < f.ord) then e :: f :: l else f :: Ev.insert e l

/-- Insert an entry before the first of its own cycle and order that a condition names. -/
def Ev.insertBy (before : Ev → Bool) (e : Ev) : List Ev → List Ev
  | [] => [e]
  | f :: l =>
    if e.due < f.due ∨ (e.due = f.due ∧ (e.ord < f.ord ∨ (e.ord = f.ord ∧ before f = true))) then e :: f :: l
    else f :: Ev.insertBy before e l

def State.at_ (s : State) (due ord : Nat) (t : Target) (i : Instr) : State :=
  { s with agenda := Ev.insert ⟨due, ord, t, i⟩ s.agenda }

/-- Order of the work of one cycle: results first, then sets becoming visible, then what reaches home slices, by physical
core (R284), then everything else (DESIGN CHOICE, log entry 1). -/
def ordResult : Nat := 0
def ordPublish : Nat := 1000
def ordCommit : Nat := 3999

/-- Accesses that waited for the fill of their line arrive before those of the present cycle, in the order in which they came to
wait (R284). -/
def ordFilled : Nat := 1900
def ordSlice (phys : Nat) : Nat := 2000 + phys
def ordHost : Nat := 2600
def ordFabric (link : Nat) : Nat := 2700 + link
def ordLate (phys : Nat) : Nat := 3000 + phys
def ordStop (phys : Nat) : Nat := 4000 + phys

/-- Scheduling decisions are taken at the end of the cycle of their points (R317). -/
def ordDecide : Nat := 5000

/-- A point at which a partition's dispatcher takes a decision; points of one cycle are decided together. -/
def State.decision (s : State) (part : BitVec 4) : State :=
  if s.agenda.any fun e => e.due == s.dcc && e.act == .schedulingDecision part then s
  else s.at_ s.dcc ordDecide .chip (.schedulingDecision part)

/-- Drop the entries a condition names. -/
def State.cancel (s : State) (p : Ev → Bool) : State := { s with agenda := s.agenda.filter fun e => !p e }

/-- A fresh number. -/
def State.fresh (s : State) : Nat × State := (s.serial, { s with serial := s.serial + 1 })

/-- The counter that the next free value is applied to, and the state that has used it. -/
def State.useFree (s : State) : Nat × State := (s.free, { s with free := s.free + 1 })

/-- A delay the spec leaves open. -/
def State.delay (s : State) : Nat × State := (Config.freeDelay s.free, { s with free := s.free + 1 })

/-- Are the host and peer channels closed (R342, R380)? -/
def State.shut (s : State) : Bool := s.himos.held || decide (s.dcc < s.himos.opens)

/-- A choice the spec leaves open. -/
def State.choice (s : State) : Bool × State := (Config.freeBool s.free, { s with free := s.free + 1 })

/-- `n` bytes the spec leaves open (DESIGN CHOICE, log entry 9). -/
def State.freeBytes (s : State) (n : Nat) : List Byte × State :=
  ((List.range n).map fun i => Config.freeByte (s.free + i), { s with free := s.free + n })

/-! Flags (R55, R56). -/

/-- Numerical flags reach NUMF; the firmware context sets none (R105). -/
def State.raise (s : State) (f : Flags) : State :=
  if s.firmware then s
  else
    (s.onCsr fun c => { c with numf := c.numf ||| f }).onCore fun c => { c with numfNow := c.numfNow ||| f }

/-! Results in flight (R91, R92). -/

def destPend : Dest → PendDest
  | .s r => .s r
  | .p r => .p r

/-- Nothing waits for s0 or p0 (R11). -/
def PendDest.real : PendDest → Bool
  | .s r => r != 0
  | .p r => r != 0
  | .h _ | .slot _ => true

/-- Mark a destination pending. -/
def State.pending (s : State) (d : PendDest) (due : Option Nat) : State :=
  if d.real then s.onHz fun z => { z with pend := ⟨d, due⟩ :: z.pend } else s

/-- The destination's write is complete. -/
def State.settled (s : State) (d : PendDest) : State :=
  s.onHz fun z => { z with pend := z.pend.filter fun p => p.dest != d }

/-- A result that becomes visible `lat` cycles after issue. -/
def State.later (s : State) (d : Dest) (lat : Nat) (v : Word) (fl : Flags) : State :=
  (s.pending (destPend d) (some (s.dcc + lat))).at_ (s.dcc + lat) ordResult (if s.firmware then s.here else s.me)
    (.scalarWriteback d v fl)

/-! Trap records (R329, R330) and taking a trap (R327). -/

def ofFields (l : List (Nat × Nat)) : Word := BitVec.ofNat 64 ((l.map fun p => p.1 * 2 ^ p.2).sum)

/-- Causes of R328. -/
def cILLEGAL : BitVec 8 := 0x01
def cPRIV : BitVec 8 := 0x02
def cHANDLE_INVALID : BitVec 8 := 0x03
def cXLATE_FAULT : BitVec 8 := 0x04
def cXLATE_PERM : BitVec 8 := 0x05
def cMIGRATE : BitVec 8 := 0x06
def cSCHED_MISS : BitVec 8 := 0x08
def cSEQ_TAG : BitVec 8 := 0x09
def cBANK_CONFLICT : BitVec 8 := 0x0A
def cPORT_BUSY : BitVec 8 := 0x0B
def cFORMAT : BitVec 8 := 0x0C
def cCHISEL_NUM : BitVec 8 := 0x0D
def cREGION_IDEM : BitVec 8 := 0x0E
def cREGION_OVERFLOW : BitVec 8 := 0x0F
def cREGION_LIVELOCK : BitVec 8 := 0x10
def cREGION_LONG : BitVec 8 := 0x11
def cFWD_WAIT : BitVec 8 := 0x12
def cCHECK_MISMATCH : BitVec 8 := 0x13
def cPOISON : BitVec 8 := 0x14
def cPREEMPT : BitVec 8 := 0x15
def cSWTRAP : BitVec 8 := 0x16
def cPRED_NOT_DONE : BitVec 8 := 0x17
def cSGATH_FAULT : BitVec 8 := 0x18
def cKV_FREE_EMPTY : BitVec 8 := 0x19
def cALIGN_TIMEOUT : BitVec 8 := 0x1A
def cSCALE_POISON : BitVec 8 := 0x1B
def cFENCED_PEER : BitVec 8 := 0x1C
def cBOUNDARY : BitVec 8 := 0x1D
def cXLATE_LATE : BitVec 8 := 0x1E

/-- The LAYER sequence that the latest bundle is of: the bundle of the LAYER itself is none of it. -/
def Core.sequence (c : Core) : Option Layer := c.layer.filter Layer.begun

/-- The position of the word being executed in a LAYER sequence: UENT, UPOS and INL of TRAPV3, 0 outside one (R329). -/
def Core.position (c : Core) : Word :=
  match c.sequence with
  | some l => ofFields [(l.entry.toNat, 52), (c.wpc.toNat / 8 % 2 ^ 12, 40), (1, 39)]
  | none => 0

/-- The address and contents by which a record names the word being executed: those of the LAYER that issued it (R329). -/
def Core.named (c : Core) : Word × Word :=
  match c.sequence with
  | some l => (l.pc, l.word)
  | none => (c.wpc, c.wword)

/-- REG and CYC of TRAPV3. -/
def State.regCyc (s : State) : Word := if s.core.reg.isOpen then ofFields [(1, 24), (s.cyc, 0)] else 0

/-- A record of the instruction family: the word named, its LAYER position, and DATA, whose bit 59 is STORED for a POISON. -/
def State.recOf (s : State) (pw : Word × Word) (pos : Word) (cause : BitVec 8) (data : Word) : TrapRec :=
  { cause := cause, v0 := pw.1, v1 := pw.2, v2 := data, v3 := pos ||| s.regCyc, access := none
    stored := cause == cPOISON && data.getLsbD 59 }

/-- The record of a cause attributed to the word being executed. -/
def State.instrRec (s : State) (cause : BitVec 8) (data : Word) : TrapRec :=
  s.recOf s.core.named s.core.position cause data

/-- STAMP of a record, W0 [47:24] (R87). -/
def stampOf (r : CmdRec) : Nat := wfield r.w0 47 24

/-- The record of a cause that arises in a command after its push. -/
def State.cmdRec (s : State) (cause : BitVec 8) (q : Queue) (r : CmdRec) (unit : Nat) (addr detail : Word) : TrapRec :=
  { cause := cause, v0 := ofFields [(r.code, 56), (q.code, 24), (stampOf r, 0)], v1 := ofFields [(unit, 28), (s.cyc, 0)],
    v2 := addr, v3 := detail, access := none, stored := false }

/-- TAKING A TRAP, the one shared operation. TRAPC and TRAPV0 to TRAPV3 are written in the cycle the trap is raised; of
several in one cycle only the lowest code is written (R32, R327). What follows at the end of the cycle is the discard of an
open entry or the action of R331 (`State.closeTrap`). -/
def State.takeTrap (s : State) (t : TrapRec) : State :=
  if s.core.trap.any (fun u => decide (u.cause.toNat ≤ t.cause.toNat)) then s
  else
    (s.onStat fun x => { x with trapc := t.cause, trapv0 := t.v0, trapv1 := t.v1, trapv2 := t.v2, trapv3 := t.v3 }).onCore
      fun c => { c with trap := some t }

/-- Code of the firmware event that abandons a service routine, in the event log (R333, R377). -/
def logFwFault : Nat := 0x0101

/-- The event log after one more record: its ring of 4 MiB holds the latest 131,072 (R377). -/
def ringKeep (l : List LogRec) : List LogRec := if l.length ≤ 131072 then l else l.tail

/-- An entry of the event log (R377). -/
def State.log (s : State) (code data : Nat) : State :=
  s.onHimos fun h =>
    { h with
      log := ringKeep (h.log ++ [LogRec.mk h.logSeq h.power s.dcc code data])
      logSeq := h.logSeq + 1 }

/-- The firmware context takes the core or gives it back: its s and p registers, its PC and its results in flight
change places with those of the user context (R10). Its own results in flight keep its own dividers busy: each context has two of
each unit to itself (DESIGN CHOICE, log entry 83). -/
def Core.swapFirmware (c : Core) (m : Mode) : Core :=
  if c.mode = m then c
  else
    { c with
      mode := m
      arch := { c.arch with s := c.fw.s, p := c.fw.p }
      pc := c.fw.pc
      hz := c.fw.hz
      fw := { c.fw with s := c.arch.s, p := c.arch.p, pc := c.pc, hz := c.hz } }

/-- A fault of the firmware context abandons its service routine and is logged; it raises nothing in the user context
(R333). -/
def State.abandon (s : State) (cause : BitVec 8) : State :=
  (s.log logFwFault (cause.toNat + 256 * s.core.phys)).onCore fun c =>
    { c with fw := { c.fw with active := false, failed := true } }

/-- A cause attributed to the instruction being executed. -/
def State.fault (s : State) (cause : BitVec 8) (data : Word) : State :=
  if s.firmware then s.abandon cause else s.takeTrap (s.instrRec cause data)

/-- A cause that arises in a command after its push. -/
def State.cmdFault (s : State) (cause : BitVec 8) (q : Queue) (r : CmdRec) (unit : Nat) (addr detail : Word) : State :=
  s.takeTrap (s.cmdRec cause q r unit addr detail)

/-- ILLEGAL with no more to say. -/
def State.illegal (s : State) : State := s.fault cILLEGAL 0

/-- What only the user context may run (R10). -/
def State.userOnly (s : State) (k : State) : State := if s.firmware then s.illegal else k

/-- What may stand in boundary code only (R30) (DEDUCED, log entry 55). -/
def State.boundaryOnly (s : State) (k : State) : State := if s.inRegion then s.fault cBOUNDARY 0 else k

/-- A KCHASE: it has made its last write at its start, and runs on past the end of its entry (R244). -/
def Run.chasing (r : Run) : Bool := wfield r.e.r.w0 63 56 == 0x2A

/-! Finding cores, contexts and launches. -/

/-- Bring the core a condition names into focus. -/
def State.focusOn (s : State) (p : Core → Bool) : State :=
  if p s.core then s
  else
    match s.others.find? p with
    | some c => { s with core := c, others := s.core :: s.others.filter fun d => d.phys != c.phys }
    | none => s

/-- Is this the context of a launch's logical core? -/
def Core.isCtx (launch lcore : Nat) (c : Core) : Bool := c.launch == launch && c.lcore == lcore

/-- Bring a context into focus, with the way back. A saved context stands in for a core while it is in focus. -/
def State.withCtx (s : State) (launch lcore : Nat) (f : State → State) : State :=
  if s.core.isCtx launch lcore then f s
  else if s.others.any (Core.isCtx launch lcore) then f (s.focusOn (Core.isCtx launch lcore))
  else
    match s.saved.find? (Core.isCtx launch lcore) with
    | some c =>
      let t := f { s with
        core := c, others := s.core :: s.others, saved := s.saved.filter fun d => !d.isCtx launch lcore }
      match t.others.find? fun d => d.phys == s.core.phys with
      | some d => { t with
          core := d, others := t.others.filter fun e => e.phys != d.phys, saved := t.saved ++ [t.core] }
      | none => t
    | none => s

def State.launchOf (s : State) (id : Nat) : Option Launch := s.disp.launches.find? fun l => l.id == id

def State.onLaunch (s : State) (id : Nat) (f : Launch → Launch) : State :=
  s.onDisp fun d => { d with launches := d.launches.map fun l => if l.id = id then f l else l }

/-- The launch of the focused context. -/
def State.launch (s : State) : Option Launch := s.launchOf s.core.launch

end Sys2Proof.Machine
end

