-- ==== Sys2Proof/Machine/Flags.lean ====
section
/-! DEFINITION. Every flag computation that an instruction makes for itself: the integer conditions (R83), the floating
compares (R108) and the results of FALU with the flags they raise (R57, R106, R107). -/

namespace Sys2Proof.Machine

/-- The conditions of R83; the last letter N reads the operands as unsigned. -/
def condHolds (c : Cond) (x y : Word) : Bool :=
  match c with
  | .eq => x == y
  | .ne => x != y
  | .lt => decide (x.toInt < y.toInt)
  | .ge => decide (y.toInt ≤ x.toInt)
  | .ltn => decide (x.toNat < y.toNat)
  | .gen => decide (y.toNat ≤ x.toNat)
  | .le => decide (x.toInt ≤ y.toInt)
  | .gt => decide (y.toInt < x.toInt)
  | .len => decide (x.toNat ≤ y.toNat)
  | .gtn => decide (y.toNat < x.toNat)

/-- FCMP on FP32 patterns: the condition, and NV for a signalling operand. -/
def fcmpOf (c : FCond) (a b : Nat) : Bool × Flags :=
  let x := f32Val a
  let y := f32Val b
  (FCond.holds c x y, snanFlag [x, y])
where
  f32Val (n : Nat) : Val := valOf .fp32 n

/-- FCVT.F2I: the I32 of R50, sign-extended. -/
def cvtF2i (a : Nat) (m : Rm) (hash : BitVec 16) : Rounded :=
  let r := toInt 32 (Exact.of (valOf .fp32 a)) m hash
  ⟨ofSignedInt 64 (toSigned 32 r.pat), r.flags⟩

/-- FCVT.I2F. -/
def cvtI2f (a : Nat) (m : Rm) (hash : BitVec 16) : Rounded := roundTo .fp32 (valOfInt (toSigned 32 a)) m false hash

/-- FCVT.F2B; a signalling NaN sets NV (R39). -/
def cvtF2b (a : Nat) (m : Rm) (sat : Bool) (hash : BitVec 16) : Rounded :=
  let v := valOf .fp32 a
  let r := roundTo .bf16 v m sat hash
  ⟨r.pat, r.flags ||| snanFlag [v]⟩

/-- FCVT.B2F. -/
def cvtB2f (a : Nat) : Rounded :=
  let v := valOf .bf16 a
  let r := roundTo .fp32 v .rne false 0
  ⟨r.pat, r.flags ||| snanFlag [v]⟩

end Sys2Proof.Machine
end

