-- ==== Sys2Proof/Machine/Operands.lean ====
section
/-! DEFINITION. The operand forms: immediates (R99, R100), branch targets (R109), floating operands (R105), and memory
operands with the checks every access through a handle makes (R129, R133). -/

namespace Sys2Proof.Machine

/-- A sign-extended immediate or displacement. -/
def simm {n : Nat} (i : BitVec n) : Word := i.signExtend 64

/-- The target of a displacement in the word being executed (R109). -/
def State.target (s : State) (d : BitVec 32) : Word := s.core.wpc + 8 * simm d

/-- The low 32 bits of s(r), an FP32 pattern (R105). -/
def State.srcF (s : State) (r : Reg) : Nat := (s.src r).toNat % 2 ^ 32

/-- The random bits for a scalar destination (R52, R53). -/
def State.hashFor (s : State) (d : Reg) : BitVec 16 :=
  srHash (paScalar d) s.core.pre.csr.steptag s.core.pre.csr.srseed

/-- Bytes of an access (R79). -/
def sizeBytes : Size → Nat
  | .b => 1
  | .h => 2
  | .w => 4
  | .d => 8

/-- PageBytes of R129: 0x60000 for the local-store window. -/
def Handle.bytes (h : Handle) (n : HReg) : Nat := if n = 0 then 0x60000 else 2 ^ h.lgsz.toNat

/-- The offset of a memory operand. -/
def State.memOff (s : State) (m : MemOp) : Nat := (s.src m.x + m.off.setWidth 64).toNat

/-- The offset of an atomic's operand. -/
def State.atomOff (s : State) (m : AtomOp) : Nat := (s.src m.x + m.off.setWidth 64).toNat

/-- The physical address of an offset: PBASE × 2^12 + o, and the local-store offset for h0. -/
def Handle.addr (h : Handle) (o : Nat) : Nat := h.pbase.toNat * 2 ^ 12 + o

/-- Does an access of `n` bytes at offset `o` keep to its alignment and its page (R129)? -/
def Handle.fits (h : Handle) (r : HReg) (o n : Nat) : Bool := o % n == 0 && decide (o + n ≤ h.bytes r)

/-- Extend of R129. -/
def extend (sx : Bool) (sz : Size) (v : Nat) : Word :=
  let w := 8 * sizeBytes sz
  if sx then BitVec.ofInt 64 (toSigned w v) else BitVec.ofNat 64 (v % 2 ^ w)

/-- The post-increment of R129: after the offset is formed. -/
def State.postInc (s : State) (inc : Bool) (x : Reg) (n : Nat) : State :=
  if inc then s.putS x (s.src x + BitVec.ofNat 64 n) else s

end Sys2Proof.Machine
end

