-- ==== Sys2Proof/Machine/Alu.lean ====
section
/-! DEFINITION. Integer ALU, immediates, constants, compares, predicates and selection (R96 to R104). Latencies are those of
R91: a result of latency 1 is written at once, a later one is in flight. -/

namespace Sys2Proof.Machine

/-- Leading zeros; 64 for zero. -/
def clzOf (a : Word) : Word := if a = 0 then 64 else BitVec.ofNat 64 (63 - Nat.log2 a.toNat)

/-- Trailing zeros among `fuel` bits. -/
def ctzCount : Nat → Nat → Nat
  | 0, _ => 0
  | k + 1, n => if n % 2 = 1 then 0 else 1 + ctzCount k (n / 2)

def ctzOf (w n : Nat) : Word := BitVec.ofNat 64 (ctzCount w n)

/-- One bits among `fuel` bits. -/
def popCount : Nat → Nat → Nat
  | 0, _ => 0
  | k + 1, n => n % 2 + popCount k (n / 2)

def popcOf (w n : Nat) : Word := BitVec.ofNat 64 (popCount w n)

/-! The functions of R97 and R98. -/

def aluAdd (a b : Word) : Word := a + b
def aluSub (a b : Word) : Word := a - b
def aluAnd (a b : Word) : Word := a &&& b
def aluOr (a b : Word) : Word := a ||| b
def aluXor (a b : Word) : Word := a ^^^ b
def aluAndn (a b : Word) : Word := a &&& ~~~b
def aluShl (a b : Word) : Word := a <<< (b.toNat % 64)
def aluShr (a b : Word) : Word := a >>> (b.toNat % 64)
def aluSar (a b : Word) : Word := a.sshiftRight (b.toNat % 64)
def aluRol (a b : Word) : Word := (a <<< (b.toNat % 64)) ||| (a >>> (64 - b.toNat % 64))
def aluRor (a b : Word) : Word := (a >>> (b.toNat % 64)) ||| (a <<< (64 - b.toNat % 64))
def aluMul (a b : Word) : Word := a * b
def aluMulh (a b : Word) : Word := BitVec.ofInt 64 (a.toInt * b.toInt / 2 ^ 64)
def aluMulhn (a b : Word) : Word := BitVec.ofNat 64 (a.toNat * b.toNat / 2 ^ 64)
def aluDiv (a b : Word) : Word := if b = 0 then BitVec.allOnes 64 else BitVec.ofInt 64 (a.toInt.tdiv b.toInt)
def aluDivn (a b : Word) : Word := if b = 0 then BitVec.allOnes 64 else BitVec.ofNat 64 (a.toNat / b.toNat)
def aluRem (a b : Word) : Word := if b = 0 then a else BitVec.ofInt 64 (a.toInt.tmod b.toInt)
def aluRemn (a b : Word) : Word := if b = 0 then a else BitVec.ofNat 64 (a.toNat % b.toNat)
def aluMin (a b : Word) : Word := if a.toInt ≤ b.toInt then a else b
def aluMax (a b : Word) : Word := if a.toInt ≤ b.toInt then b else a
def aluMinn (a b : Word) : Word := if a.toNat ≤ b.toNat then a else b
def aluMaxn (a b : Word) : Word := if a.toNat ≤ b.toNat then b else a
def aluSext (a b : Word) : Word := BitVec.ofInt 64 (toSigned (b.toNat % 64 + 1) a.toNat)
def aluZext (a b : Word) : Word := BitVec.ofNat 64 (a.toNat % 2 ^ (b.toNat % 64 + 1))
def aluClz (a : Word) : Word := clzOf a
def aluCtz (a : Word) : Word := ctzOf 64 a.toNat
def aluPopc (a : Word) : Word := popcOf 64 a.toNat
def aluBswap (a : Word) : Word := BitVec.ofNat 64 (leNat (leBytes 8 a.toNat).reverse)

/-- A divider is busy until its result is visible (R92). -/
def State.useDivider (s : State) : State := s.onHz fun z => { z with divs := (s.dcc + 20) :: z.divs }

/-! Meanings of ALU. -/

def execAdd (d a b : Reg) (s : State) : Out := .next (s.putS d (aluAdd (s.src a) (s.src b)))

def execSub (d a b : Reg) (s : State) : Out := .next (s.putS d (aluSub (s.src a) (s.src b)))

def execAnd (d a b : Reg) (s : State) : Out := .next (s.putS d (aluAnd (s.src a) (s.src b)))

def execOr (d a b : Reg) (s : State) : Out := .next (s.putS d (aluOr (s.src a) (s.src b)))

def execXor (d a b : Reg) (s : State) : Out := .next (s.putS d (aluXor (s.src a) (s.src b)))

def execAndn (d a b : Reg) (s : State) : Out := .next (s.putS d (aluAndn (s.src a) (s.src b)))

def execShl (d a b : Reg) (s : State) : Out := .next (s.putS d (aluShl (s.src a) (s.src b)))

def execShr (d a b : Reg) (s : State) : Out := .next (s.putS d (aluShr (s.src a) (s.src b)))

def execSar (d a b : Reg) (s : State) : Out := .next (s.putS d (aluSar (s.src a) (s.src b)))

def execRol (d a b : Reg) (s : State) : Out := .next (s.putS d (aluRol (s.src a) (s.src b)))

def execRor (d a b : Reg) (s : State) : Out := .next (s.putS d (aluRor (s.src a) (s.src b)))

def execMul (d a b : Reg) (s : State) : Out := .next (s.later (.s d) 3 (aluMul (s.src a) (s.src b)) 0)

def execMulh (d a b : Reg) (s : State) : Out := .next (s.later (.s d) 3 (aluMulh (s.src a) (s.src b)) 0)

def execMulhn (d a b : Reg) (s : State) : Out := .next (s.later (.s d) 3 (aluMulhn (s.src a) (s.src b)) 0)

def execDiv (d a b : Reg) (s : State) : Out := .next (s.useDivider.later (.s d) 20 (aluDiv (s.src a) (s.src b)) 0)

def execDivn (d a b : Reg) (s : State) : Out := .next (s.useDivider.later (.s d) 20 (aluDivn (s.src a) (s.src b)) 0)

def execRem (d a b : Reg) (s : State) : Out := .next (s.useDivider.later (.s d) 20 (aluRem (s.src a) (s.src b)) 0)

def execRemn (d a b : Reg) (s : State) : Out := .next (s.useDivider.later (.s d) 20 (aluRemn (s.src a) (s.src b)) 0)

def execMin (d a b : Reg) (s : State) : Out := .next (s.putS d (aluMin (s.src a) (s.src b)))

def execMax (d a b : Reg) (s : State) : Out := .next (s.putS d (aluMax (s.src a) (s.src b)))

def execMinn (d a b : Reg) (s : State) : Out := .next (s.putS d (aluMinn (s.src a) (s.src b)))

def execMaxn (d a b : Reg) (s : State) : Out := .next (s.putS d (aluMaxn (s.src a) (s.src b)))

def execSext (d a b : Reg) (s : State) : Out := .next (s.putS d (aluSext (s.src a) (s.src b)))

def execZext (d a b : Reg) (s : State) : Out := .next (s.putS d (aluZext (s.src a) (s.src b)))

def execClz (d a : Reg) (s : State) : Out := .next (s.putS d (aluClz (s.src a)))

def execCtz (d a : Reg) (s : State) : Out := .next (s.putS d (aluCtz (s.src a)))

def execPopc (d a : Reg) (s : State) : Out := .next (s.putS d (aluPopc (s.src a)))

def execBswap (d a : Reg) (s : State) : Out := .next (s.putS d (aluBswap (s.src a)))

/-! Immediate forms (R99): the ALU function of the same name on the sign-extended immediate. -/

def execAddi (d a : Reg) (imm : BitVec 36) (s : State) : Out := .next (s.putS d (aluAdd (s.src a) (simm imm)))

def execAndi (d a : Reg) (imm : BitVec 36) (s : State) : Out := .next (s.putS d (aluAnd (s.src a) (simm imm)))

def execOri (d a : Reg) (imm : BitVec 36) (s : State) : Out := .next (s.putS d (aluOr (s.src a) (simm imm)))

def execXori (d a : Reg) (imm : BitVec 36) (s : State) : Out := .next (s.putS d (aluXor (s.src a) (simm imm)))

def execShli (d a : Reg) (imm : BitVec 36) (s : State) : Out := .next (s.putS d (aluShl (s.src a) (simm imm)))

def execShri (d a : Reg) (imm : BitVec 36) (s : State) : Out := .next (s.putS d (aluShr (s.src a) (simm imm)))

def execSari (d a : Reg) (imm : BitVec 36) (s : State) : Out := .next (s.putS d (aluSar (s.src a) (simm imm)))

def execMuli (d a : Reg) (imm : BitVec 36) (s : State) : Out :=
  .next (s.later (.s d) 3 (aluMul (s.src a) (simm imm)) 0)

/-! Constants (R100). -/

def execLi (d : Reg) (imm : BitVec 46) (s : State) : Out := .next (s.putS d (simm imm))

/-- LIH replaces bits [63:46] and keeps the rest. -/
def execLih (d : Reg) (imm : BitVec 18) (s : State) : Out :=
  .next (s.putS d ((imm.setWidth 64 <<< 46) ||| BitVec.ofNat 64 ((s.src d).toNat % 2 ^ 46)))

/-- LA adds to the address of its own word. A LAYER sequence may not hold it (R345). -/
def execLa (d : Reg) (imm : BitVec 46) (s : State) : Out :=
  .next (if s.core.sequence.isSome && !s.firmware then s.illegal else s.putS d (s.core.wpc + simm imm))

/-! Compares, predicates and selection (R101 to R104). -/

def execCmp (d : Pred) (a b : Reg) (c : Cond) (s : State) : Out :=
  .next (s.putP d (condHolds c (s.src a) (s.src b)))

def execCmpi (d : Pred) (a : Reg) (c : Cond) (imm : BitVec 36) (s : State) : Out :=
  .next (s.putP d (condHolds c (s.src a) (simm imm)))

def execPand (d a b : Pred) (s : State) : Out := .next (s.putP d (s.srcP a && s.srcP b))

def execPor (d a b : Pred) (s : State) : Out := .next (s.putP d (s.srcP a || s.srcP b))

def execPxor (d a b : Pred) (s : State) : Out := .next (s.putP d (s.srcP a != s.srcP b))

def execPnot (d a : Pred) (s : State) : Out := .next (s.putP d (!s.srcP a))

def execPmov (d a : Pred) (s : State) : Out := .next (s.putP d (s.srcP a))

def execSel (d a b : Reg) (c : Pred) (s : State) : Out :=
  .next (s.putS d (if s.srcP c then s.src a else s.src b))

/-- p7 to p0; bit 0 is always 1. -/
def predBits (s : State) : Word := ofFields ((List.range 8).map fun i => (bit (s.srcP (BitVec.ofNat 3 i)), i))

def execMovpsGet (d : Reg) (s : State) : Out := .next (s.putS d (predBits s))

/-- Write p1 to p7 from bits 1 to 7. -/
def setPreds (s : State) (v : Word) : State :=
  ([1, 2, 3, 4, 5, 6, 7] : List Nat).foldl (fun t i => t.putP (BitVec.ofNat 3 i) (v.getLsbD i)) s

def execMovpsSet (a : Reg) (s : State) : Out := .next (setPreds s (s.src a))

end Sys2Proof.Machine
end

