-- ==== Sys2Proof/Machine/Falu.lean ====
section
/-! DEFINITION. Scalar floating point (R105 to R108) and the write-back of results in flight (R91, R56). -/

namespace Sys2Proof.Machine

/-- A float result of latency `lat`: bits [63:32] are zero. -/
def State.fresult (s : State) (d : Reg) (lat : Nat) (r : Rounded) : State :=
  s.later (.s d) lat (BitVec.ofNat 64 r.pat) r.flags

/-- An FP divide unit is busy until its result is visible (R92). -/
def State.useFdivider (s : State) : State := s.onHz fun z => { z with fdivs := (s.dcc + 14) :: z.fdivs }

def execFadd (d a b : Reg) (rm : Rm) (sat : Bool) (s : State) : Out :=
  .next (s.fresult d 4 (fpAdd (s.srcF a) (s.srcF b) rm sat (s.hashFor d)))

def execFsub (d a b : Reg) (rm : Rm) (sat : Bool) (s : State) : Out :=
  .next (s.fresult d 4 (fpSub (s.srcF a) (s.srcF b) rm sat (s.hashFor d)))

def execFmul (d a b : Reg) (rm : Rm) (sat : Bool) (s : State) : Out :=
  .next (s.fresult d 4 (fpMul (s.srcF a) (s.srcF b) rm sat (s.hashFor d)))

def execFdiv (d a b : Reg) (rm : Rm) (sat : Bool) (s : State) : Out :=
  .next (s.useFdivider.fresult d 14 (fpDiv (s.srcF a) (s.srcF b) rm sat (s.hashFor d)))

def execFmin (d a b : Reg) (s : State) : Out := .next (s.fresult d 4 (fminmax false (s.srcF a) (s.srcF b)))

def execFmax (d a b : Reg) (s : State) : Out := .next (s.fresult d 4 (fminmax true (s.srcF a) (s.srcF b)))

def execFsqrt (d a : Reg) (rm : Rm) (sat : Bool) (s : State) : Out :=
  .next (s.useFdivider.fresult d 14 (fpSqrt (s.srcF a) rm sat (s.hashFor d)))

/-- Only the sign bit changes, and no flag is raised (R57). -/
def execFabs (d a : Reg) (s : State) : Out := .next (s.putS d (BitVec.ofNat 64 (s.srcF a % 2 ^ 31)))

def execFneg (d a : Reg) (s : State) : Out := .next (s.putS d (BitVec.ofNat 64 ((s.srcF a + 2 ^ 31) % 2 ^ 32)))

def execFcmp (d : Pred) (a b : Reg) (c : FCond) (s : State) : Out :=
  let r := fcmpOf c (s.srcF a) (s.srcF b)
  .next (s.later (.p d) 4 (BitVec.ofNat 64 (bit r.1)) r.2)

def execFcvtF2i (d a : Reg) (rm : Rm) (s : State) : Out := .next (s.fresult d 4 (cvtF2i (s.srcF a) rm (s.hashFor d)))

def execFcvtI2f (d a : Reg) (rm : Rm) (s : State) : Out := .next (s.fresult d 4 (cvtI2f (s.srcF a) rm (s.hashFor d)))

def execFcvtF2b (d a : Reg) (rm : Rm) (sat : Bool) (s : State) : Out :=
  .next (s.fresult d 4 (cvtF2b (s.srcF a) rm sat (s.hashFor d)))

def execFcvtB2f (d a : Reg) (s : State) : Out := .next (s.fresult d 4 (cvtB2f (s.srcF a)))

/-- A result in flight is written in the cycle its latency sets, and its flags reach NUMF then. -/
def execScalarWriteback (d : Dest) (v : Word) (fl : BitVec 8) (s : State) : Out :=
  .next (((match d with
    | .s r => s.putS r v
    | .p r => s.putP r (v.getLsbD 0)).settled (destPend d)).raise fl)

end Sys2Proof.Machine
end

