-- ==== Sys2Proof/Machine/Mask.lean ====
section
/-! DEFINITION. The mask stack (R14, R112). The firmware context has none. -/

namespace Sys2Proof.Machine

def State.setMask (s : State) (m : List (BitVec 128)) : State := s.onArch fun a => { a with mask := m }

/-- The stack as it stood before the bundle. -/
def State.maskStack (s : State) : List (BitVec 128) := s.core.pre.mask

/-- Lanes 127 to 64 from the second word, lanes 63 to 0 from the first. -/
def lanes (lo hi : Word) : BitVec 128 := hi ++ lo

def execMpush (a b : Reg) (s : State) : Out :=
  .next (s.userOnly
    (if s.maskStack.length < 8 then
      s.setMask ((lanes (s.src a) (s.src b) &&& s.core.pre.mtop) :: s.maskStack)
    else s.illegal))

/-- The parent of the only entry is all ones. -/
def execMinv (s : State) : Out :=
  .next (s.userOnly
    (match s.maskStack with
    | [] => s.illegal
    | t :: rest => s.setMask ((~~~t &&& rest.headD (BitVec.allOnes 128)) :: rest)))

def execMpop (s : State) : Out :=
  .next (s.userOnly
    (match s.maskStack with
    | [] => s.illegal
    | _ :: rest => s.setMask rest))

def execMget (a b : Reg) (s : State) : Out :=
  .next (s.userOnly
    ((s.putS a (s.core.pre.mtop.extractLsb' 0 64)).putS b (s.core.pre.mtop.extractLsb' 64 64)))

end Sys2Proof.Machine
end

