-- ==== Sys2Proof/Machine/Branch.lean ====
section
/-! DEFINITION. Branches (R93, R109, R110). A branch that is not taken leaves the PC at the word after its bundle and the
next issue one cycle later, as the issue of the bundle has set them. -/

namespace Sys2Proof.Machine

/-- Is the bundle one of a LAYER sequence? The firmware context runs none (DEDUCED, log entry 17). -/
def State.inLayer (s : State) : Bool := s.core.sequence.isSome && !s.firmware

/-- Is a target outside the LAYER sequence that runs (R345)? -/
def State.outside (s : State) (t : Word) : Bool :=
  match s.core.sequence with
  | some l => s.inLayer && decide (8 * l.words.length ≤ t.toNat)
  | none => false

/-- Transfer control: the target bundle follows three cycles after (R93). A target outside a LAYER sequence raises
ILLEGAL. -/
def State.jump (s : State) (t : Word) : State :=
  if s.outside t then s.illegal
  else (s.onCore fun c => { c with pc := t }).onHz fun z => { z with issueAt := s.dcc + 3 }

/-- Transfer control to a computed target; one that is not a multiple of 8 raises ILLEGAL (R72, R110). -/
def State.jumpTo (s : State) (t : Word) : State := if t.toNat % 8 = 0 then s.jump t else s.illegal

/-- What a LAYER sequence may not hold (R345) (DEDUCED, log entry 42). -/
def State.notInLayer (s : State) (k : State) : State := if s.inLayer then s.illegal else k

def execB (disp : BitVec 32) (s : State) : Out := .next (s.jump (s.target disp))

def execBcmp (a b : Reg) (c : Cond) (disp : BitVec 32) (s : State) : Out :=
  .next (if condHolds c (s.src a) (s.src b) then s.jump (s.target disp) else s)

/-- The link is the address of the word after the bundle; a = 0 keeps no link. -/
def execCall (a : Reg) (disp : BitVec 32) (s : State) : Out := .next (s.notInLayer ((s.putS a s.core.bend).jump (s.target disp)))

def execRet (a : Reg) (s : State) : Out := .next (s.notInLayer (s.jumpTo (s.src a)))

def execBi (a : Reg) (s : State) : Out := .next (s.notInLayer (s.jumpTo (s.src a)))

def execLoop (a : Reg) (disp : BitVec 32) (s : State) : Out :=
  .next (if decide (1 < (s.src a).toNat) then (s.putS a (s.src a - 1)).jump (s.target disp) else s.putS a 0)

/-- BZM reads mtop as it stood before the bundle; the firmware context has no mask stack (R112). -/
def execBzm (disp : BitVec 32) (s : State) : Out :=
  .next (s.userOnly (if s.core.pre.mtop = 0 then s.jump (s.target disp) else s))

end Sys2Proof.Machine
end

