-- ==== Sys2Proof/Machine/Slices.lean ====
section
/-! DEFINITION. Physical memory and its home slices: the map of R279, homes (R281, R237), residency and eviction (R282),
the second tier (R288), poison (R338) and injected errors (R341). -/

namespace Sys2Proof.Machine

/-! The physical map (R279). -/

def isHbm (a : Nat) : Bool := decide (a < 0x6000000000)

def isTier2 (a : Nat) : Bool := decide (0x1000000000000 ≤ a) && decide (a < 0x1080000000000)

def isFabric (a : Nat) : Bool := decide (0x8000000000000 ≤ a) && decide (a < 0x10000000000000)

/-- The partition that owns an HBM or second-tier address. -/
def partOfAddr (a : Nat) : BitVec 4 :=
  BitVec.ofNat 4 (if isHbm a then a / 0x600000000 else (a - 0x1000000000000) / 0x8000000000)

/-- May a leaf of partition `p` map the `n` bytes at `a`? A rank-addressed page has PA[49] = 0 (R364). -/
def State.mappable (s : State) (p : BitVec 4) (a n : Nat) : Bool :=
  if isHbm a then
    decide (p.toNat * 0x600000000 ≤ a) && decide (a + n ≤ (p.toNat + 1) * 0x600000000)
  else if isTier2 a then
    let lo := 0x1000000000000 + p.toNat * 0x8000000000
    decide (lo ≤ a) && decide (a + n ≤ lo + (s.part p).tierPages * 4096)
  else isFabric a && decide (a + n ≤ 0x10000000000000) && !(a / 2 ^ 50 % 2 == 1 && a / 2 ^ 49 % 2 == 1)

/-- The 128-byte line of an address. -/
def lineOf (a : Nat) : Nat := a / 128 * 128

/-- The launches whose pool runs are in a partition's pool map: placed and not complete (R237). -/
def Launch.mapped (l : Launch) : Bool :=
  match l.state with
  | .placing | .ready | .running | .parked | .killed => true
  | .waiting | .done => false

/-- The pool map of a partition. -/
def State.poolMap (s : State) (p : BitVec 4) : List Pool :=
  (s.disp.launches.filter fun l => l.part == p && l.mapped).flatMap (·.pools)

/-- The home slice of a line: by frame within a declared pool run, by the address bits elsewhere (R237, R281). -/
def State.homeSlice (s : State) (a : Nat) : Nat :=
  let p := partOfAddr a
  let k :=
    match (s.poolMap p).find? fun q => decide (q.ps ≤ a) && decide (a < q.ps + q.len) with
    | some q =>
      let f := (a - q.ps) / q.stride
      Nat.xor f (f / 16) % 14
    | none => Nat.xor (Nat.xor (field a 20 7) (field a 34 21)) (field a 48 35) % 14
  14 * p.toNat + k

/-- The set of a line in its slice (R282). -/
def setOf (a : Nat) : Nat := field a 16 7

/-! Residency. -/

def State.resident (s : State) (a : Nat) : Bool := s.lines.any fun l => l.addr == lineOf a

/-- Can a line be evicted (R282)? Lines of publish sets that are not visible yet are held too. -/
def State.evictable (s : State) (l : Line) : Bool :=
  l.pins == 0 && l.yarder.isEmpty && !l.header && l.uncommitted == 0 &&
    !(s.pubs.any fun p => p.plain.any (fun e => lineOf e.1 == l.addr) || p.log.any fun c => lineOf c.addr == l.addr)

/-- The poisoned words of a line. -/
def State.badIn (s : State) (a : Nat) : List Nat := s.poison.filter fun w => lineOf w == lineOf a

/-- Write a resident second-tier line back to the CXL memory, with its poison (R288, R338). -/
def State.writeBack (s : State) (a : Nat) : State :=
  if isTier2 a then
    { s with
      cxl := s.cxl.writeBytes (lineOf a) (s.mem.readBytes (lineOf a) 128)
      lines := s.lines.map fun l => if l.addr = lineOf a then { l with behind := s.badIn a } else l }
  else s

/-! The second tier's devices (R371). -/

/-- The CXL port whose device holds a second-tier address: pages go round the populated ports when their capacities are
equal, and the ports follow one another otherwise. -/
def State.cxlPort (s : State) (a : Nat) : Option Nat :=
  let caps := s.himos.cxlCaps
  let p := partOfAddr a
  let x := p.toNat * (s.part p).tierPages * 4096 + (a - 0x1000000000000) % 0x8000000000
  let there := (List.range caps.length).filter fun i => decide (0 < caps.getD i 0)
  let same := there.all fun i => caps.getD i 0 == caps.getD (there.headD 0) 0
  if same then there[x / 4096 % max 1 there.length]?
  else there.find? fun i => decide (x < (caps.take (i + 1)).sum)

/-- Has the device that holds the address failed? -/
def State.tierFailed (s : State) (a : Nat) : Bool :=
  isTier2 a && (s.cxlPort a).any fun i => s.himos.cxlFailed.contains i

/-- Drop a line from its slice; a dirty one is written back first. -/
def State.dropLine (s : State) (l : Line) : State :=
  let s := if l.dirty then s.writeBack l.addr else s
  let s := { s with lines := s.lines.filter fun m => m.addr != l.addr }
  if isTier2 l.addr then { s with mem := s.mem.writeBytes l.addr (List.replicate 128 0) } else s

/-- Room for a line in its set: the least recently used evictable line goes. `none` if no way can be freed. -/
def State.makeRoom (s : State) (a : Nat) : Option State :=
  let home := s.homeSlice a
  let set := s.lines.filter fun l => setOf l.addr == setOf a && s.homeSlice l.addr == home
  if set.length < 16 then some s
  else (set.find? s.evictable).map fun l => s.dropLine l

/-- Bring a line into its home slice; `none` if no way can be freed. -/
def State.fillLine (s : State) (a : Nat) : Option State :=
  if s.resident a then some s
  else
    (s.makeRoom a).map fun t =>
      let t := if isTier2 a then { t with mem := t.mem.writeBytes (lineOf a) (t.cxl.readBytes (lineOf a) 128) } else t
      let bad := if t.tierFailed a then (List.range 16).map fun i => lineOf a + 8 * i else []
      { t with
        lines := t.lines ++ [⟨lineOf a, false, 0, [], false, 0, [], if isTier2 a then t.badIn a else []⟩]
        poison := t.poison ++ bad.filter fun w => !t.poison.contains w }

/-- Use of a resident line makes it the most recently used; `f` changes what its slice keeps of it. -/
def State.useLine (s : State) (a : Nat) (f : Line → Line) : State :=
  match s.lines.find? fun l => l.addr == lineOf a with
  | some l => { s with lines := (s.lines.filter fun m => m.addr != lineOf a) ++ [f l] }
  | none => s

def ordFill : Nat := 1500

/-- The cycle in which a fill of the line is due, if one is under way. -/
def State.fillDue (s : State) (line : Nat) : Option Nat :=
  (s.agenda.find? fun e => e.act == .l2Fill line).map (·.due)

/-- Start a fill of a line, if none is under way; its time is open. -/
def State.startFill (s : State) (a : Nat) : State :=
  match s.fillDue (lineOf a) with
  | some _ => s
  | none =>
    let r := s.delay
    r.2.at_ (s.dcc + 1 + r.1) ordFill .chip (.l2Fill (lineOf a))

/-- A read of HBM or of the second tier is a read of its line in L2, which is filled first and is then the most recently used (R280,
R282). Where no way can be freed, the fill waits; the walk, the fetch or the dispatcher's read takes the bytes as they stand
(DESIGN CHOICE, log entry 95). -/
def State.touch (s : State) (a : Nat) : State :=
  match s.fillLine a with
  | some t => t.useLine a id
  | none => s.startFill a

/-! The value visible at the home slice. A second-tier line that is not resident shows what the CXL memory holds. -/

def State.peek (s : State) (a : Nat) : Byte :=
  if isTier2 a && !s.resident a then s.cxl.read a else s.mem.read a

def State.peekBytes (s : State) (a n : Nat) : List Byte := (List.range n).map fun i => s.peek (a + i)

/-- The 64-bit word at an address. -/
def State.peekWord (s : State) (a : Nat) : Word := leWord (s.peekBytes a 8)

/-- The words of 8 bytes that a range covers whole, and all it touches. -/
def wordsIn (a n : Nat) : List Nat :=
  if n = 0 then [] else (List.range ((a + n - 1) / 8 - a / 8 + 1)).map fun i => (a / 8 + i) * 8

def coversWord (a n w : Nat) : Bool := decide (a ≤ w) && decide (w + 8 ≤ a + n)

/-- Is this the first line of a frame of a declared pool (R237)? It is never evicted once written. -/
def State.headerLine (s : State) (a : Nat) : Bool :=
  (s.poolMap (partOfAddr a)).any fun q =>
    decide (q.ps ≤ a) && decide (a < q.ps + q.len) && (lineOf a - q.ps) % q.stride == 0

/-- A write applied at the home slice. Its line is filled first; where no way can be freed, a write that has to be applied now reaches
the memory behind the slice (DESIGN CHOICE, log entry 95). A write of a whole word clears its poison; one of a part leaves it (R338). -/
def State.poke (s : State) (a : Nat) (bs : List Byte) : State :=
  let s := (s.fillLine a).getD s
  let past := isTier2 a && !s.resident a
  let s := { s with
    mem := if past then s.mem else s.mem.writeBytes a bs
    cxl := if past then s.cxl.writeBytes a bs else s.cxl
    poison := s.poison.filter fun w => !coversWord a bs.length w }
  s.useLine a fun l => { l with dirty := true, header := l.header || s.headerLine a }

def State.onFrames (s : State) (f : EncFrame → EncFrame) : State :=
  { s with encs := s.encs.map fun e => (e.1, { e.2 with frames := e.2.frames.map f }) }

/-- A boundary store to a line, noted with the line and with the copies that encode engines hold of it (R295). -/
def State.noteWriter (s : State) (a : Nat) (w : Writer) : State :=
  let s := s.useLine a fun l => { l with writers := if l.writers.contains w then l.writers else l.writers ++ [w] }
  s.onFrames fun f =>
    match SMap.find (lineOf a) f.copies with
    | some c => { f with copies := SMap.put (lineOf a) { c with writers := c.writers ++ [w] } f.copies }
    | none => f

/-- The encode engines drop their copies that a condition names (R294, R295). -/
def State.dropCopies (s : State) (p : Nat → EncLine → Bool) : State :=
  s.onFrames fun f => { f with copies := f.copies.filter fun c => !p c.1 c.2 }

/-! Poison and injected errors. -/

/-- Which of some words is marked poisoned? -/
def State.poisonedOf (s : State) (ws : List Nat) : Option Nat :=
  ws.find? fun w => s.poison.contains w || !s.resident w && s.tierFailed w

/-- Is one of the words of a range marked poisoned? -/
def State.poisonedWord (s : State) (a n : Nat) : Option Nat := s.poisonedOf (wordsIn a n)

/-- The words of a range that a reader takes from where they are stored: those with a byte that `own` does not give (R117, R338). -/
def readWords (own : Nat → Bool) (a n : Nat) : List Nat :=
  (wordsIn a n).filter fun w => (List.range n).any fun i => (a + i) / 8 * 8 == w && !own (a + i)

/-- ERRINJ_C of a core, when armed with a kind: its target word. -/
def Core.armed (c : Core) (k : Nat) : Option Nat :=
  if c.errinjC.getLsbD 11 && wfield c.errinjC 10 8 == k then some (c.errinjA.toNat) else none

/-- The injection fires: ARM is cleared and FIRED set (R341). -/
def Core.fire (c : Core) : Core := { c with errinjC := setBit (setBit c.errinjC 11 false) 12 true }

/-- Code of the event that counts a corrected error in the log (R337, R377). -/
def logCorrected : Nat := 0x0201

/-- What a read that delivers words to a requester meets: the first poisoned word, and whether the mark is stored.
Injections for the words fire. `scale` says that the words are read as block scales (R338, R341). -/
def State.consumeWords (s : State) (ws : List Nat) (scale : Bool) : Option (Nat × Bool) × State :=
  let hit (c : Core) (k : Nat) : Option Nat := (c.armed k).bind fun w => if ws.contains w then some w else none
  let kinds := if scale then [1, 2] else [1]
  let bad := s.cores.findSome? fun c => kinds.findSome? fun k => hit c k
  let corrected := s.cores.any fun c => (hit c 0).isSome
  let fires (c : Core) : Bool := (hit c 0).isSome || kinds.any fun k => (hit c k).isSome
  let any := s.cores.any fires
  let s' := if any then s.onCores fun c => if fires c then c.fire else c else s
  let s' := if corrected then s'.log logCorrected (ws.headD 0) else s'
  match s.poisonedOf ws with
  | some w => (some (w, true), s')
  | none => (bad.map fun w => (w, false), s')

/-- What a read of a whole range meets. -/
def State.consume (s : State) (a n : Nat) (scale : Bool) : Option (Nat × Bool) × State := s.consumeWords (wordsIn a n) scale

/-- The dispatcher's read of `n` bytes: their lines are filled, injections fire, and poisoned words are consumed (R280, R338, R341).
Answers each byte, and whether its word was good. -/
def State.dispRead (s : State) (a n : Nat) : List (Byte × Bool) × State :=
  let t := (wordsIn a n).foldl (fun (t : State) w => t.touch w) s
  let c := t.consume a n false
  let bad (w : Nat) : Bool := (c.1.any fun x => x.1 == w) || (t.poisonedWord w 1).isSome
  ((List.range n).map fun i => (c.2.peek (a + i), !bad ((a + i) / 8 * 8)), c.2)

/-- The first poisoned word that a read of the dispatcher from `a` on has met, and whether its mark is stored. -/
def State.dispBad (s : State) (a : Nat) (l : List (Byte × Bool)) : Option (Nat × Bool) :=
  (l.findIdx? fun b => !b.2).map fun i => ((a + i) / 8 * 8, (s.poisonedWord (a + i) 1).isSome)

/-- The unit in which a word's error is found (R329); a failed device's is the second tier (R371)
(DEDUCED, log entry 37). -/
def State.unitOf (s : State) (a : Nat) : Nat :=
  if isFabric a then 4 else if s.tierFailed a then 3 else if s.resident a then 1 else if isTier2 a then 3 else 2

/-- DATA of an instruction-attributed POISON (R329). -/
def State.poisonData (s : State) (w : Nat) (stored : Bool) : Word :=
  ofFields [(s.unitOf w, 60), (bit stored, 59), (w, 0)]

end Sys2Proof.Machine
end

