-- ==== Sys2Proof/Machine/Xlate.lean ====
section
/-! DEFINITION. Translation: the walk of the page tables (R285 to R287), the checks of XLATE and PROBE (R124), and
fetching code through the tables (R309). -/

namespace Sys2Proof.Machine

/-- What a walk finds: a leaf with its page and rights, nothing valid, or a poisoned table word. -/
inductive Walk where
  | leaf (lg base : Nat) (rd wr at_ host : Bool)
  | invalid
  | poison (w : Nat) (stored : Bool)
  deriving DecidableEq, Repr

/-- Number of consecutive one bits from bit 12 up (R287). -/
def onesFrom (addr : Nat) : Nat → Nat → Nat
  | 0, _ => 0
  | k + 1, i => if addr / 2 ^ i % 2 = 1 then 1 + onesFrom addr k (i + 1) else 0

/-- A leaf at a level (R286, R287). -/
def leafAt (level e : Nat) : Walk :=
  let addr := e / 2 ^ 12 % 2 ^ 40 * 2 ^ 12
  let s := e / 2 ^ 7 % 2 = 1
  let lg := if s then 13 + onesFrom addr 40 12 else 12 + 9 * level
  let base := addr / 2 ^ lg * 2 ^ lg
  if level ≥ 3 ∨ ¬ s ∧ base ≠ addr ∨ lg < 12 + 9 * level ∨ 21 + 9 * level ≤ lg ∨ 32 < lg then .invalid
  else .leaf lg base (e / 2 ^ 3 % 2 == 1) (e / 2 ^ 4 % 2 == 1) (e / 2 ^ 5 % 2 == 1) (e / 2 ^ 6 % 2 == 1)

/-- What one table entry says: the end of the walk, or the next table. -/
inductive TableEntry where
  | stop (w : Walk)
  | next (table : Nat)
  deriving DecidableEq, Repr

/-- The entry that `v` indexes at a level. The read is made at the home slice, which fills the line; a poisoned word is consumed
(R280, R338). -/
def State.tableEntry (s : State) (v level table : Nat) : TableEntry × State :=
  let a := table + 8 * (v / 2 ^ (12 + 9 * level) % (if level = 4 then 256 else 512))
  match (s.touch a).consume a 8 false with
  | (some (w, st), s') => (.stop (.poison w st), s')
  | (none, s') =>
    let e := (s'.peekWord a).toNat
    if e % 2 = 0 ∨ e / 2 ^ 2 % 2 = 1 ∨ e / 2 ^ 8 % 16 ≠ 0 ∨ e / 2 ^ 52 ≠ 0 then (.stop .invalid, s')
    else if e / 2 % 2 = 1 then (.stop (leafAt level e), s')
    else if e / 2 ^ 3 % 32 ≠ 0 then (.stop .invalid, s')
    else (.next (e / 2 ^ 12 % 2 ^ 40 * 2 ^ 12), s')

/-- Walk from a table at `level` down; a pointer at level 0 is invalid (R286). -/
def State.walkFrom (s : State) (v : Nat) : Nat → Nat → Walk × State
  | 0, table =>
    match s.tableEntry v 0 table with
    | (.stop w, s') => (w, s')
    | (.next _, s') => (.invalid, s')
  | level + 1, table =>
    match s.tableEntry v (level + 1) table with
    | (.stop w, s') => (w, s')
    | (.next t, s') => State.walkFrom s' v level t

/-- Walk the tables of a virtual function for a 56-bit address. -/
def State.walk (s : State) (vf : BitVec 7) (v : Nat) : Walk × State :=
  match SMap.find vf.toNat s.fabric.vfs with
  | some d => if d.valid then s.walkFrom v 4 d.rootpa else (.invalid, s)
  | none => (.invalid, s)

/-- The outcome of the checks of R124: a handle, or a cause with its DATA. -/
inductive Xlated where
  | handle (h : Handle)
  | cause (c : BitVec 8) (data : Word)
  deriving DecidableEq, Repr

/-- Translate `v` for a context of partition `part` and function `vf`, asking for the rights `p` (R124). -/
def State.xlated (s : State) (part : BitVec 4) (vf : BitVec 7) (v : Word) (p : Perms) : Xlated × State :=
  if v.toNat / 2 ^ 56 ≠ 0 then (.cause cXLATE_FAULT v, s)
  else
    match s.walk vf v.toNat with
    | (.poison w st, s') => (.cause cPOISON (s'.poisonData w st), s')
    | (.invalid, s') => (.cause cXLATE_FAULT v, s')
    | (.leaf lg base rd wr at_ host, s') =>
      if !s'.mappable part base (2 ^ lg) then (.cause cXLATE_FAULT v, s')
      else if host then (.cause cMIGRATE v, s')
      else if (p.rd && !rd) || (p.wr && !wr) || (p.at_ && !at_) then (.cause cXLATE_PERM v, s')
      else
        (.handle ⟨true, p.rd, p.wr, p.at_, BitVec.ofNat 6 lg, BitVec.ofNat 40 (base / 2 ^ 12),
          BitVec.ofNat 44 (v.toNat / 2 ^ lg * 2 ^ lg / 2 ^ 12)⟩, s')

/-- The physical address of a virtual one, with no check of rights, as the dispatcher's walk gives it. -/
def State.physical (s : State) (vf : BitVec 7) (v : Nat) : Option Nat × State :=
  match s.walk vf v with
  | (.leaf lg base _ _ _ _, t) => (some (base + v % 2 ^ lg), t)
  | (.invalid, t) | (.poison .., t) => (none, t)

/-! The walker's cache of a cluster (R124, R135). -/

/-- Does a cluster's walker keep the translation of `v`? -/
def State.keepsWalk (s : State) (cluster : Nat) (vf : BitVec 7) (v : Nat) : Bool :=
  s.walked.any fun w => w.cluster == cluster && w.vf == vf && decide (w.va ≤ v) && decide (v < w.va + w.len)

/-- A PROBE has passed a page: the cluster's walker keeps it. -/
def State.keepWalk (s : State) (cluster : Nat) (vf : BitVec 7) (h : Handle) : State :=
  let w : Walked := ⟨cluster, vf, h.vpage.toNat * 2 ^ 12, 2 ^ h.lgsz.toNat⟩
  if s.walked.contains w then s else { s with walked := s.walked ++ [w] }

/-- An invalidation clears the walkers of what overlaps its range (R289). -/
def State.dropWalks (s : State) (vf : BitVec 7) (va len : Nat) : State :=
  { s with walked := s.walked.filter fun w => !(w.vf == vf && decide (w.va < va + len) && decide (va < w.va + w.len)) }

/-- The permissions of a handle, for a re-translation (R20, R126). -/
def Handle.perms (h : Handle) : Perms := ⟨h.rd, h.wr, h.at_⟩

/-- The virtual range of a handle's page (R126). -/
def Handle.overlaps (h : Handle) (va len : Nat) : Bool :=
  let lo := h.vpage.toNat * 2 ^ 12
  decide (lo < va + len) && decide (va < lo + 2 ^ h.lgsz.toNat)

end Sys2Proof.Machine
end

