-- ==== Sys2Proof/Machine/Outbound.lean ====
section
/-! DEFINITION. What leaves the device: records posted to host event queues (R306, R313) and transactions to fabric
addresses, with the rank table (R363 to R367). -/

namespace Sys2Proof.Machine

def State.onVf (s : State) (v : BitVec 7) (f : Vf → Vf) : State :=
  s.onFabric fun b =>
    match SMap.find v.toNat b.vfs with
    | some d => { b with vfs := SMap.put v.toNat (f d) b.vfs }
    | none => b

/-- Is the ring of a function full (R369)? -/
def Vf.full (d : Vf) : Bool := (d.posted - d.hci).toNat == 2 ^ d.lgn

/-! Transactions on the wire (R340, R359, R362, R363). The layout of a transaction header is the model's (DESIGN CHOICE, log
entry 25). -/

def channelCode : Channel → Nat
  | .host => 0
  | .peer => 1
  | .mgmt => 2
  | .idle => 3

def combCode : CombKind → Nat
  | .add => 0
  | .max => 1
  | .min => 2
  | .sradd => 3

/-- The operation of a transaction with its length or its function, below 2^40, and its data. -/
def txnParts : TxnKind → Nat × Nat × List Byte
  | .read n => (0, n, [])
  | .write bs => (1, bs.length, bs)
  | .atomic fn sz y c => (2, fn.code * 2 ^ 8 + sz.code, leBytes 8 y.toNat ++ leBytes 8 c.toNat)
  | .combine k fmt rm sat int v seed steptag =>
    (3, steptag.toNat * 2 ^ 24 + bit int * 2 ^ 21 + bit sat * 2 ^ 20 + rm.code * 2 ^ 16 + fmt.toNat * 2 ^ 8 + combCode k,
      leBytes 4 v.toNat ++ leBytes 8 seed.toNat)
  | .again => (5, 0, [])

/-- The operation of an answer, its code with the length of its data, and the data. -/
def answerParts (code : Nat) (bs : List Byte) : Nat × Nat × List Byte := (4, bs.length * 2 ^ 8 + code, bs)

/-- The 16-byte header and the payload, which begins with the number. -/
def wireBytes (h : WireHead) (p : Nat × Nat × List Byte) : List Byte :=
  leBytes 8 (ofFields [(h.dst, 53), (p.1, 49), (channelCode h.ch, 47), (h.part, 43), (h.cls, 39), (h.off, 0)]).toNat ++
    leBytes 8 (ofFields [(h.src, 53), (h.tries, 49), (p.2.1, 0)]).toNat ++ leBytes 8 h.tag ++ p.2.2

/-- The check that a transaction, or its answer, carries from its source to its destination (R340). -/
def wireCrc (h : WireHead) (p : Nat × Nat × List Byte) : BitVec 32 := crc32c (wireBytes h p)

/-- A transaction or an answer on its way, with its check; an injected error flips a bit of that (R341). -/
def wireParcel (h : WireHead) (p : Nat × Nat × List Byte) (txn : Nat) (bad : Bool) : Parcel :=
  ⟨h.dst, h.ch, wireBytes h p ++ leBytes 4 (wireCrc h p ^^^ if bad then 1 else 0).toNat, txn, 0⟩

/-- The header of a transaction of the device `own`, and of one that comes to it. -/
def OutTxn.head (o : OutTxn) (own : Nat) : WireHead := ⟨o.node, own, o.part.toNat, o.cls, o.off, o.id, o.tries, o.ch⟩
def txnHead (t : Txn) (own : Nat) : WireHead :=
  ⟨own, t.snode.toNat, t.spart.toNat, t.cls.toNat, t.off.toNat, t.tag.toNat, t.tries, t.ch⟩

/-- A transaction of the device as it goes out. -/
def OutTxn.parcel (o : OutTxn) (own : Nat) : Parcel := wireParcel (o.head own) (txnParts o.kind) o.id o.bad

def State.link (s : State) (n : BitVec 5) : Link := s.fabric.links.toList.getD n.toNat Link.trained

/-- Does a link carry flits: enabled, up and not retraining? -/
def State.linkUp (s : State) (n : BitVec 5) : Bool :=
  match s.fabric.links.toList[n.toNat]? with
  | some l => s.himos.config.links.getLsbD n.toNat && decide (0 < l.width) && l.retrain.isNone
  | none => false

def State.onLink (s : State) (n : BitVec 5) (f : Link → Link) : State :=
  s.onFabric fun b =>
    { b with links := if h : n.toNat < 24 then b.links.set n.toNat (f b.links[n.toNat]) h else b.links }

/-- The link that the routing table gives for a node: the first from the table's own on that is up (R363). -/
def State.route (s : State) (node : Nat) : BitVec 5 :=
  let first := Config.freeRoute node % 24
  let order := (List.range 24).map fun i => BitVec.ofNat 5 ((first + i) % 24)
  (order.find? fun n => s.linkUp n).getD (BitVec.ofNat 5 first)

/-- The link of a parcel's destination, which stays the same until it goes down. -/
def State.pathOf (s : State) (node : Nat) : BitVec 5 :=
  match SMap.find node s.fabric.paths with
  | some l => BitVec.ofNat 5 l
  | none => s.route node

/-- Put a parcel into the queue of its link. -/
def State.handBy (s : State) (p : Parcel) (put : List Parcel → List Parcel) : State :=
  let n := s.pathOf p.node
  (s.onFabric fun b => { b with paths := SMap.put p.node n.toNat b.paths }).onLink n fun l => { l with queue := put l.queue }

/-- Hand a parcel to the link of its destination. -/
def State.hand (s : State) (p : Parcel) : State := s.handBy p fun q => q ++ [p]

/-- What is sent again goes before all of its channel that has not begun to go (R363). -/
def State.handFirst (s : State) (p : Parcel) : State :=
  let ahead (x : Parcel) : Bool := x.ch != p.ch || x.gone != 0
  s.handBy p fun q => q.takeWhile ahead ++ p :: q.dropWhile ahead

/-- A transaction is sent, and stays outstanding until it is acknowledged. -/
def State.sendOutTxn (s : State) (o : OutTxn) : State :=
  (s.onFabric fun b => { b with out := b.out ++ [o] }).hand (o.parcel s.fabric.own)

/-- Write a record into the host's ring, as a transaction to the host. -/
def State.writeRing (s : State) (v : BitVec 7) (d : Vf) (r : HeldRec) : State :=
  let off := d.eqoff + d.posted.toNat % 2 ^ d.lgn * 64
  let o : OutTxn :=
    { id := r.id, part := BitVec.ofNat 4 (v.toNat / 6), rank := false, node := d.hnode.toNat, ch := .host, off := off, cls := 0,
      launch := r.launch, lcore := r.lcore, access := 0, isRecord := true,
      kind := .write (r.words.flatMap fun w => leBytes 8 w.toNat), bad := false, tries := 1 }
  ((s.onFabric fun b =>
    { b with sent := b.sent ++ [(d.hnode.toNat, BitVec.ofNat 64 off :: r.words)] }).onVf v
    fun d => { d with posted := d.posted + 1 }).sendOutTxn o

/-- Post a record, numbered `n`, to a function's host event queue: type, LATE, and words 1 on, for the context whose EVENT it is, if any. DSEQ
counts every record; a full ring holds up to 256 and drops the rest, which the next record tells with LOST (R306, R313). A function
without a descriptor has no queue. -/
def State.postFor (s : State) (n launch lcore : Nat) (v : BitVec 7) (type : Nat) (late : Bool) (ws : List Word) : State :=
  match SMap.find v.toNat s.fabric.vfs with
  | none => s
  | some d =>
    let w0 := ofFields [(d.dseq.toNat, 32), (type, 24), (bit d.lost, 23), (bit late, 22)]
    let r : HeldRec := ⟨n, launch, lcore, (w0 :: ws ++ List.replicate 7 0).take 8⟩
    if !d.full && d.held.isEmpty then
      (s.writeRing v d r).onVf v fun d => { d with dseq := d.dseq + 1, lost := false }
    else if d.held.length < 256 then
      s.onVf v fun d => { d with dseq := d.dseq + 1, lost := false, held := d.held ++ [r] }
    else s.onVf v fun d => { d with dseq := d.dseq + 1, lost := true }

/-- A record that no EVENT of a context asked for. -/
def State.post (s : State) (v : BitVec 7) (type : Nat) (late : Bool) (ws : List Word) : State :=
  { s with serial := s.serial + 1 }.postFor s.serial 0 0 v type late ws

/-- Is a record of the context's EVENTs, numbered below `upto`, still to be acknowledged (R291)? -/
def State.recordsOut (s : State) (launch lcore upto : Nat) : Bool :=
  (s.fabric.out.any fun o => o.isRecord && o.launch == launch && o.lcore == lcore && decide (o.id < upto)) ||
    s.fabric.vfs.any fun v => v.2.held.any fun r => r.launch == launch && r.lcore == lcore && decide (r.id < upto)

/-- Held records go out while the ring has room. -/
def State.drainHeld (s : State) (v : BitVec 7) : Nat → State
  | 0 => s
  | k + 1 =>
    match SMap.find v.toNat s.fabric.vfs with
    | none => s
    | some d =>
      match d.held with
      | [] => s
      | r :: rest =>
        if d.full then s
        else State.drainHeld ((s.writeRing v d r).onVf v fun d => { d with held := rest }) v k

/-! Answers to transactions of others and to management writes. -/

def ansDone : Nat := 1
def ansRejected : Nat := 2
def ansResend : Nat := 3
def ansPoisoned : Nat := 4

/-- Bytes as words, the last padded with zeros. -/
def wordsOfBytes (bs : List Byte) : List Word := (splitEvery 8 ((bs.length + 7) / 8) bs).map leWord

/-- An answer is listed, and goes on the wire with a header and a check; one that brings data is kept. -/
def State.sendAnswer (s : State) (h : WireHead) (code : Nat) (bs : List Byte) : State :=
  (s.onFabric fun b =>
    { b with
      sent := b.sent ++ [(h.dst, BitVec.ofNat 64 code :: wordsOfBytes bs)]
      kept := if bs.isEmpty then b.kept else b.kept ++ [⟨h, code, bs⟩] }).hand (wireParcel h (answerParts code bs) 0 false)

/-- Answer a transaction, in its own channel (R340, R362). -/
def State.answer (s : State) (t : Txn) (code : Nat) (bs : List Byte) : State :=
  s.sendAnswer ⟨t.snode.toNat, s.fabric.own, t.spart.toNat, t.cls.toNat, t.off.toNat, t.tag.toNat, 1, t.ch⟩ code bs

/-- Acknowledge a write of a register to the node that wrote it (R362). -/
def State.acknowledge (s : State) (node : BitVec 11) (ch : Channel) : State :=
  s.sendAnswer ⟨node.toNat, s.fabric.own, 0, 0, 0, 0, 1, ch⟩ ansDone []

/-! The managing hosts (R362). -/

def State.manages (s : State) (node : BitVec 11) : Bool := s.himos.config.managers.contains node.toNat

/-- Codes of the event log for what is turned away (R362, R369, R377). -/
def logNotifyDropped : Nat := 0x0301
def logMgmtDropped : Nat := 0x0302

/-- A management write takes effect where its sender is a managing host; one of any other node is dropped and logged. What such a write
holds in reserved bits is ignored (DESIGN CHOICE, log entry 91). -/
def State.managed (s : State) (node : BitVec 11) (t : State) : State :=
  if s.manages node then t else s.log logMgmtDropped node.toNat

/-- Record types of R313. -/
def recCOMPLETE : Nat := 1
def recEVENT : Nat := 2
def recFORWARD : Nat := 3
def recSEQ_GAP : Nat := 4
def recREC_ERR : Nat := 5
def recBUDGET : Nat := 6
def recADMIT : Nat := 7
def recDEADLINE : Nat := 8
def recMEDIA : Nat := 9

/-- A rank through the partition's table, which the ports cache (R366). -/
def State.rankWord (s : State) (p : BitVec 4) (rank : Nat) : Word × State :=
  match SMap.find rank (s.part p).rtcache with
  | some w => (w, s)
  | none =>
    let a := (s.part p).rtbase + 8 * (1 + rank)
    let t := s.touch a
    let w := t.peekWord a
    (w, t.onPart p fun q => { q with rtcache := SMap.put rank w q.rtcache })

/-- The node and offset a fabric address names (R364); none where its rank is not mapped. -/
def State.resolve (s : State) (p : BitVec 4) (a : Nat) : Option (Nat × Nat) × State :=
  if a / 2 ^ 50 % 2 = 0 then (some (a / 2 ^ 39 % 2 ^ 11, a % 2 ^ 39), s)
  else
    match s.rankWord p (a / 2 ^ 39 % 2 ^ 10) with
    | (w, t) => (if w.getLsbD 63 then some (w.toNat % 2 ^ 10, a % 2 ^ 39) else none, t)

/-- Is the target of a fabric address fenced, or its rank not mapped (R352, R366, R367)? -/
def State.fencedAt (s : State) (p : BitVec 4) (a : Nat) : Bool :=
  isFabric a &&
    match (s.resolve p a).1 with
    | some (node, _) => s.fabric.fenced.contains node
    | none => true

/-- The look-up of a fabric address's rank, which the ports keep (R366), with the fill of its line (R280). -/
def State.lookUp (s : State) (p : BitVec 4) (a : Nat) : State := if isFabric a then (s.resolve p a).2 else s

/-- DETAIL of FENCED_PEER: the peer device (R330). -/
def State.peerOf (s : State) (p : BitVec 4) (a : Nat) : Nat := ((s.resolve p a).1.map fun r => r.1 % 2 ^ 10).getD 0

/-- Does an injection of KIND 3 hit a transaction that carries one of the words of a range (R341)? It fires. -/
def State.spoiled (s : State) (a n : Nat) : Bool × State :=
  let hit (c : Core) : Bool := (c.armed 3).any fun w => (wordsIn a n).contains w
  (s.cores.any hit, if s.cores.any hit then s.onCores fun c => if hit c then c.fire else c else s)

/-- Bytes of memory that a transaction names. -/
def txnBytes : TxnKind → Nat
  | .read n => n
  | .write bs => bs.length
  | .atomic _ sz _ _ => sizeBytes sz
  | .again => 0
  | .combine _ fmt .. => match fmt.toNat with
    | 1 | 9 => 4
    | 2 | 3 => 2
    | _ => 1

/-- Send a transaction to a fabric address. -/
def State.sendTxn (s : State) (part : BitVec 4) (a cls launch lcore access : Nat) (k : TxnKind) : State :=
  match s.resolve part a with
  | (some (node, off), t) =>
    let x := t.spoiled a (txnBytes k)
    { x.2 with serial := x.2.serial + 1 }.sendOutTxn
      { id := x.2.serial, part := part, rank := a / 2 ^ 50 % 2 == 1, node := node, ch := if 1024 ≤ node then .host else .peer
        off := off, cls := cls, launch := launch, lcore := lcore, access := access, isRecord := false, kind := k, bad := x.1, tries := 1 }
  | (none, t) => t

end Sys2Proof.Machine
end

