-- ==== Sys2Proof/Machine/Groups.lean ====
section
/-! DEFINITION. Groups of a launch: membership (R24, R27, R29), message times (R28, R141) and rendezvous points (R140 to
R145). -/

namespace Sys2Proof.Machine

/-- The die and the cluster of a physical core (R1, R368). -/
def dieOf (phys : Nat) : Nat := phys / 112
def clusterOf (phys : Nat) : Nat := phys / 4

def Launch.group (l : Launch) (g : BitVec 8) : Option Group := l.groups.find? fun x => x.gid == g

def State.onGroup (s : State) (g : BitVec 8) (f : Group → Group) : State :=
  s.onLaunch s.core.launch fun l => { l with groups := l.groups.map fun x => if x.gid = g then f x else x }

/-- The group of the focused context. -/
def State.group (s : State) (g : BitVec 8) : Option Group := s.launch.bind fun l => l.group g

def Group.has (x : Group) (lcore : Nat) : Bool := x.memb.getLsbD lcore

def Group.members (x : Group) : List Nat := (List.range 28).filter x.has

/-- A use of group `g` that the core may make: a member of a valid entry of the wanted mode (R29). -/
def State.groupOk (s : State) (g : BitVec 8) (rv : Bool) : Bool :=
  (s.group g).any fun x => x.rv == rv && x.has s.core.lcore

/-- Membership in a group of either mode (R149). -/
def State.memberOf (s : State) (g : BitVec 8) : Bool := (s.group g).any fun x => x.has s.core.lcore

/-- The physical cores on which the members run. -/
def State.memberPhys (s : State) (x : Group) : List Nat :=
  ((s.cores.filter fun c => c.launch == s.core.launch && x.has c.lcore).map (·.phys)) ++
    ((s.saved.filter fun c => c.launch == s.core.launch && x.has c.lcore).map (·.phys))

/-- Do all members run in one cluster (R28)? -/
def State.oneCluster (s : State) (x : Group) : Bool :=
  (s.memberPhys x).all fun p => clusterOf p == clusterOf s.core.phys

/-- From the last arrival to the release (R28), and from the last ALIGN to the common cycle (R149). -/
def State.groupDelay (s : State) (x : Group) : Nat := if s.oneCluster x then 8 else 40

/-- Message time between the focused core and the point's home die (R141). -/
def State.msgTime (s : State) (x : Group) : Nat := if dieOf s.core.phys = x.homeDie then 20 else 60

/-! A rendezvous point word (R140). -/

structure RvPoint where
  lflg : BitVec 8
  flg : BitVec 8
  gen : BitVec 8
  mis : Bool
  exp : Nat
  cnt : Nat
  ini : Bool
  deriving DecidableEq, Repr

def rvOfWord (w : Word) : RvPoint :=
  ⟨BitVec.ofNat 8 (wfield w 47 40), BitVec.ofNat 8 (wfield w 39 32), BitVec.ofNat 8 (wfield w 31 24), w.getLsbD 21,
    wfield w 20 16, wfield w 12 8, w.getLsbD 0⟩

def RvPoint.word (p : RvPoint) : Word :=
  ofFields [(p.lflg.toNat, 40), (p.flg.toNat, 32), (p.gen.toNat, 24), (bit p.mis, 21), (p.exp % 32, 16), (p.cnt % 32, 8),
    (bit p.ini, 0)]

/-- Complete of R141. -/
def RvPoint.complete (p : RvPoint) : RvPoint := { p with lflg := p.flg, flg := 0, cnt := 0, gen := p.gen + 1 }

/-- Arrive of R141, and whether the generation completes. -/
def RvPoint.arrive (p : RvPoint) (fl : BitVec 8) : RvPoint × Bool :=
  let q := { p with cnt := p.cnt + 1, flg := p.flg ||| fl }
  if q.ini && decide (q.exp ≤ q.cnt) then (q.complete, true) else (q, false)

/-- Init of R141. -/
def RvPoint.init (p : RvPoint) (n : Nat) : RvPoint × Bool :=
  if !p.ini then
    let q := { p with exp := n, ini := true }
    if q.exp ≤ q.cnt then (q.complete, true) else (q, false)
  else if n = p.exp then (p, false)
  else ({ p with mis := true }, false)

def Group.point (x : Group) (pt : Nat) : RvPoint := rvOfWord (x.points.toList.getD pt 0)

def Group.setPoint (x : Group) (pt : Nat) (p : RvPoint) : Group :=
  { x with points := if h : pt < 24 then x.points.set pt p.word h else x.points }

/-- The entry of GMEMB, 0 to 3, that holds a group (R24, R143). -/
def Core.groupIndex (c : Core) (g : BitVec 8) : Nat := c.groups.findIdx fun x => x == g

/-- Arrival records are kept by group entry and point (R143, R174). -/
def Core.arrIndex (c : Core) (g : BitVec 8) (pt : BitVec 5) : Nat := c.groupIndex g * 24 + pt.toNat

def Core.arrRec (c : Core) (g : BitVec 8) (pt : BitVec 5) : ArrRec :=
  c.arr.toList.getD (c.arrIndex g pt) ⟨false, false, 0, 0⟩

def State.setArr (s : State) (g : BitVec 8) (pt : BitVec 5) (f : ArrRec → ArrRec) : State :=
  s.onCore fun c =>
    let i := c.arrIndex g pt
    if h : i < 96 then { c with arr := c.arr.set i (f (c.arr[i])) h } else c

/-- The record of an ARRIVE: valid and pending; the answer to an arrival it replaces no longer counts (R143). -/
def ArrRec.mark (r : ArrRec) : ArrRec :=
  { r with valid := true, pending := true, stale := if r.valid && r.pending then r.stale + 1 else r.stale }

/-- An answer from the point (R143) (DEDUCED, log entry 40). -/
def ArrRec.answer (r : ArrRec) (gen : BitVec 8) : ArrRec :=
  if 0 < r.stale then { r with stale := r.stale - 1 } else { r with pending := false, gen := gen }

end Sys2Proof.Machine
end

