-- ==== Sys2Proof/Machine/Access.lean ====
section
/-! DEFINITION. Outstanding accesses of a context: how one starts, what its home slice supplies or applies, and how its
result reaches the core (R116, R117, R129 to R136, R291, R394). -/

namespace Sys2Proof.Machine

/-- Is the open entry strict (R114)? -/
def State.strict (s : State) : Bool := s.inRegion && !s.core.stat.relax

/-- Does the address exist (R279)? (DESIGN CHOICE, log entry 7). -/
def exists_ (a n : Nat) : Bool :=
  (isHbm a && isHbm (a + n - 1)) || (isTier2 a && isTier2 (a + n - 1)) || (isFabric a && isFabric (a + n - 1))

/-! The atomic functions (R133). -/

def atomicResult (fn : AmoFn) (sz : Size) (old y c : Nat) : Nat :=
  let w := 8 * sizeBytes sz
  match fn with
  | .add => (old + y) % 2 ^ w
  | .fadd => (fpAdd old y .rne false 0).pat
  | .min => if toSigned w old ≤ toSigned w y then old else y
  | .max => if toSigned w old ≤ toSigned w y then y else old
  | .minn => if old ≤ y then old else y
  | .maxn => if old ≤ y then y else old
  | .and => Nat.land old y
  | .or => Nat.lor old y
  | .xor => Nat.xor old y
  | .swap => y
  | .cas => if old = c then y else old

/-- Hold back later bundles; another wait of the same bundle stays what the context is blocked on. -/
def Core.hold (c : Core) (b : Block) : Core := if c.blk = .none then { c with blk := b } else c

/-- A blocking instruction of the latest bundle is over: it does not issue again (R146, R149). -/
def Core.doneWith (c : Core) (i : Instr → Bool) : Core := { c with blocked := c.blocked.filter fun b => !i b.act }

/-- The cycle until which a WAITC of the latest bundle still holds the next one (R148). -/
def Core.waitcLeft (c : Core) (dcc : Nat) : Option Nat :=
  c.blocked.findSome? fun b => match b.act with
    | .waitc a => if dcc < (c.pre.sreg a).toNat then some (c.pre.sreg a).toNat else none
    | _ => none

/-- A wait of the latest bundle is over; a WAITC beside it may still hold the next bundle (R148). -/
def State.unblock (s : State) : State :=
  if s.core.blk ≠ .none then s
  else
    match s.core.waitcLeft s.dcc with
    | some t => (s.onCore fun c => { c with blk := .waitc t }).at_ t (ordLate s.core.phys) s.me .waitcExpiry
    | none => s

/-! Starting an access. -/

def AccKind.mem : AccKind → Bool
  | .ld .. | .st | .amo .. | .amop .. | .pref => true
  | .xlate _ | .probe .. => false

/-- The number of the open entry, 0 in boundary code. -/
def State.entryNow (s : State) : Nat := if s.inRegion then s.core.reg.entry else 0

/-- A blank access of the focused context, numbered, at the word being executed. -/
def State.newAccess (s : State) (k : AccKind) (oc : Oc) (pa n : Nat) (hnd : Handle) : Access :=
  { id := s.serial, kind := k, oc := oc, pa := pa, data := List.replicate n 0, y := 0, c := 0, ovl := [],
    pc := s.core.named.1, word := s.core.named.2, pos := s.core.position, issued := s.dcc, entry := s.entryNow,
    strict := s.strict, back := 0, va := 0, hnd := hnd, performed := false, value := none, poison := none, fenced := false }

/-- Does an access belong to the entry that is open? One of an entry that has committed is as one of boundary code. -/
def State.ofEntry (s : State) (a : Access) : Bool := s.inRegion && a.entry == s.core.reg.entry

/-- Was an access issued in the open entry, which is strict? Its result is then late after its latency (R124, R130). -/
def State.mayBeLate (s : State) (a : Access) : Bool := a.strict && s.ofEntry a

/-- Record an access as outstanding. -/
def State.addAccess (s : State) (a : Access) : State :=
  { s.onCore fun c => { c with io := c.io ++ [a] } with serial := s.serial + 1 }

def State.findAccess (s : State) (id : Nat) : Option Access := s.core.io.find? fun a => a.id == id

def State.setAccess (s : State) (a : Access) : State :=
  s.onCore fun c => { c with io := c.io.map fun b => if b.id = a.id then a else b }

def State.dropAccess (s : State) (id : Nat) : State := s.onCore fun c => { c with io := c.io.filter fun b => b.id != id }

/-- The earliest an access can reach a home slice, and return from it (R130, R134, R291). -/
def sliceTime : Nat := 24
def returnTime : Nat := 96

/-- Schedule the next stage of an access at a home slice, `t` cycles on and a delay the spec leaves open
(DESIGN CHOICE, log entry 52). -/
def State.toSlice (s : State) (t : Nat) (i : Instr) : State :=
  let r := s.delay
  r.2.at_ (s.dcc + t + r.1) (ordSlice s.core.phys) s.me i

/-- Is an earlier access of the same class still to perform, or an earlier ST or AMOP that a commit has published and its slice has
still to apply (R131, R294)? (DEDUCED, log entry 57). -/
def State.blocked (s : State) (a : Access) : Bool :=
  (s.core.io.any fun b => decide (b.id < a.id) && b.oc == a.oc && !b.performed && b.kind.mem) ||
    s.pubs.any fun p => p.launch == s.core.launch && p.lcore == s.core.lcore && decide (p.id < a.id) && p.classes.any fun c => c.2 == a.oc

/-- Try the stage again in the next cycle. -/
def State.retry (s : State) (i : Instr) : State := s.at_ (s.dcc + 1) (ordSlice s.core.phys) s.me i

/-! Fills (R130, R282). -/

/-- Does an operation that arrives now wait: is its line absent, or do earlier ones wait for its fill (R284)? -/
def State.lineWaits (s : State) (a : Nat) : Bool := !s.resident a || (s.fillDue (lineOf a)).isSome

/-- Try the stage again when the line has been filled, in the order in which the accesses came to wait (R284). -/
def State.afterFill (s : State) (a : Nat) (g : Target) (i : Instr) : State :=
  let s := s.startFill a
  s.at_ ((s.fillDue (lineOf a)).getD (s.dcc + 1)) ordFilled g i

/-! What a read returns (R117). -/

/-- The latest earlier boundary ST of the context to a byte that has not performed yet: its number and the byte (R131). -/
def Core.ownStore (c : Core) (id a : Nat) : Option (Nat × Byte) :=
  (c.io.reverse.find? fun b => decide (b.id < id) && b.kind == .st && !b.performed && decide (b.pa ≤ a) &&
    decide (a < b.pa + b.data.length)).map fun b => (b.id, b.data.getD (a - b.pa) 0)

/-- The byte of the context's latest committed plain write that its home slice has still to apply. An LD of the entry itself, which
the commit has overtaken, goes on seeing what the engines of the entry wrote (R117, R131, R292, R294) (DEDUCED, log entry 56). -/
def State.committedByte (s : State) (x : Access) (a : Nat) : Option (Nat × Byte) :=
  s.pubs.reverse.findSome? fun p =>
    if p.launch ≠ s.core.launch ∨ p.lcore ≠ s.core.lcore then none
    else if p.id < x.id then (SMap.find a p.plain).map fun b => (p.id, b)
    else if p.entry = x.entry then (SMap.find a p.lines).map fun b => (p.id, b)
    else none

/-- The byte of the context's latest earlier write that has not performed yet. -/
def State.pendingByte (s : State) (x : Access) (a : Nat) : Option Byte :=
  match s.core.ownStore x.id a, s.committedByte x a with
  | some x, some y => some (if x.1 < y.1 then y.2 else x.2)
  | some x, none => some x.2
  | none, some y => some y.2
  | none, none => none

/-- A byte as an engine of the entry reads it: the uncommitted line, else what the home slice shows (R117, R296). -/
def State.engineByte (s : State) (a : Nat) : Byte :=
  match SMap.find a s.core.held.lines with
  | some b => b.val
  | none => s.peek a

/-- A byte as an LD reads it when its home slice supplies it: an earlier ST of the entry, an engine write of the entry, the
context's own latest ST, or what the slice shows (R117, R131) (DEDUCED, log entry 41). -/
def State.loadByte (s : State) (x : Access) (a : Nat) : Byte :=
  match SMap.find a x.ovl with
  | some b => b
  | none =>
    match if s.ofEntry x then SMap.find a s.core.held.lines else none with
    | some b => b.val
    | none => (s.pendingByte x a).getD (s.peek a)

/-- Does an LD take a byte from its context's own writes (R117)? -/
def State.ownByte (s : State) (x : Access) (a : Nat) : Bool :=
  (SMap.find a x.ovl).isSome || s.ofEntry x && (SMap.find a s.core.held.lines).isSome || (s.pendingByte x a).isSome

/-! Traps about an access that the core has left behind (R329, R394). -/

/-- The record names the access's own word. -/
def State.accessRec (s : State) (a : Access) (cause : BitVec 8) (data : Word) : TrapRec :=
  { s.recOf (a.pc, a.word) a.pos cause data with access := some a.id }

def State.accessFault (s : State) (a : Access) (cause : BitVec 8) (data : Word) : State := s.takeTrap (s.accessRec a cause data)

/-- Is an access other than `id` still to be performed again? -/
def Core.replayingOther (c : Core) (id : Nat) : Bool :=
  c.replay.access.any fun n => n != id && c.io.any fun a => a.id == n

/-- Does the action of an earlier trap still run on the core? A fault of the access `id`, which that action performs again, is a
new one. -/
def Core.inAction (c : Core) (id : Nat) : Bool :=
  c.trap.isSome || c.replayingOther id || (match c.blk with
    | .replay _ | .reentry => true
    | _ => false)

/-- The stage at which an access meets its fault. -/
def Access.faultStage (a : Access) : Instr :=
  match a.kind with
  | .amo .. => .amoReturn a.id
  | .st | .amop .. => .homeSliceApply a.id
  | .probe .. => .probeComplete a.id
  | .ld .. | .pref | .xlate _ => .ldReturn a.id

/-- The target of an access is fenced, or refused it. The fault is taken as a poisoned value is (R352, R370, R394); an access
of an entry faults at once. -/
def State.refuse (s : State) (a : Access) : State :=
  let b := { a with performed := true, value := none, poison := some a.pa, fenced := true }
  (s.setAccess b).at_ s.dcc ordResult s.me a.faultStage

/-- The record of the fault of an access that has met poison, or whose target has refused it. -/
def State.lateRec (s : State) (a : Access) (w : Nat) : TrapRec :=
  if a.fenced then s.accessRec a cFENCED_PEER (BitVec.ofNat 64 w)
  else
    let stored := s.poison.contains w || (s.core.ls.poison.contains w && a.hnd.lgsz == 0)
    s.accessRec a cPOISON (if a.hnd.lgsz == 0 then ofFields [(bit stored, 59), (w, 0)] else s.poisonData w stored)

/-- The access with a late fault in the present cycle that the access `a` comes before: of two in one cycle the one that issued
first is recorded (R394). -/
def State.laterFault (s : State) (a : Access) (cause : BitVec 8) : Option Access :=
  (s.core.trap.bind fun t => if t.cause = cause then t.access else none).bind fun n =>
    if a.id < n then s.findAccess n else none

/-- The core's trap of the present cycle gives way to another. -/
def State.retrap (s : State) (t : TrapRec) : State := (s.onCore fun c => { c with trap := none }).takeTrap t

/-- POISON met by an LD or AMO: s(d) keeps its value. A context that has stopped to be saved takes the fault when it is
restored; one whose core is still about another trap takes it after that (R394). -/
def State.latePoison (s : State) (a : Access) (w : Nat) (again : Instr) : State :=
  match s.core.life with
  | .running =>
    let t := s.lateRec a w
    match s.laterFault a t.cause with
    | some b => (s.at_ (s.dcc + 1) ordResult s.me b.faultStage).retrap t
    | none =>
      if !s.ofEntry a && s.core.inAction a.id then s.at_ (s.dcc + 1) ordResult s.me again else s.takeTrap t
  | _ => s

/-- A result of boundary code that arrives while a region is open belongs to the region-start state too (DEDUCED, log entry 16). -/
def State.landBoth (s : State) (a : Access) (f : Arch → Arch) : State :=
  let t := s.onArch f
  if !s.ofEntry a && s.inRegion then t.onReg fun r => { r with snap := { r.snap with arch := f r.snap.arch } } else t

/-- The result of an access is written, and the access is over. -/
def State.finishLoad (s : State) (a : Access) (d : Reg) (v : Word) : State :=
  (((s.landBoth a fun r => r.setS d v).settled (.s d)).dropAccess a.id).relay (.s d v)

end Sys2Proof.Machine
end

