-- ==== Sys2Proof/Machine/Memory.lean ====
section
/-! DEFINITION. Handles and memory access: XLATE, HINV, HINFO, LD, ST, AMO, AMOP, PROBE, PREF, what happens later on their
behalf, and line fills (R123 to R136, R282, R291, R394). Faults of a walk are taken at issue (DEDUCED, log entry 6). -/

namespace Sys2Proof.Machine

/-! Checks shared by every access through a handle. The firmware context has no handle but h0 (R10). -/

/-- HANDLE_INVALID, ILLEGAL and FENCED_PEER, in the order of R129; then the access itself. -/
def State.throughHandle (s : State) (r : HReg) (o n : Nat) (allowed : Bool) (k : State) : State :=
  let h := s.srcH r
  if s.firmware && r != 0 then s.illegal
  else if !h.v then s.fault cHANDLE_INVALID (r.setWidth 64)
  else if !h.fits r o n || !allowed then s.illegal
  else if r != 0 && s.fencedAt s.core.part (h.addr o) then
    (s.lookUp s.core.part (h.addr o)).fault cFENCED_PEER (BitVec.ofNat 64 (h.addr o))
  else k

/-- An address that no leaf can map stops the machine; nothing else does. -/
def State.reach (s : State) (r : HReg) (o n : Nat) (k : State) : Out :=
  let h := s.srcH r
  if r != 0 && h.v && h.fits r o n && !exists_ (h.addr o) n then .fault .noSuchAddress else .next k

/-! XLATE (R123 to R125). -/

/-- A walk's time is open; below 64 cycles it makes no difference, beyond them it makes a strict entry late. A translation that the
cluster's walker keeps since a PROBE takes no longer than 64. -/
def State.startXlate (s : State) (r : HReg) (h : Handle) (va : Word) : State :=
  let kept := s.keepsWalk (clusterOf s.core.phys) s.core.vf va.toNat
  let d := if kept then (64, s) else s.delay
  let a := { d.2.newAccess (.xlate r) 0 0 0 h with va := va, back := s.dcc + max 64 d.1 }
  let t := ((d.2.addAccess a).pending (.h r) none).at_ a.back ordResult s.me (.xlateComplete a.id)
  if s.strict && decide (s.dcc + 64 < a.back) then t.at_ (s.dcc + 64) (ordLate s.core.phys) s.me (.xlateComplete a.id) else t

def execXlate (h : HReg) (x : Reg) (p : Perms) (s : State) : Out :=
  .next (s.userOnly
    (match s.xlated s.core.part s.core.vf (s.src x) p with
    | (.cause c data, t) => t.fault c data
    | (.handle n, t) => t.startXlate h n (s.src x)))

/-- A translation that the open entry's handle gives way to stays noted with it: what the entry has done through it counts as captured
(R290). -/
def State.noteHandle (s : State) (h : HReg) : State :=
  let old := s.core.arch.hreg h
  if s.inRegion && h != 0 && old.v then s.onReg fun r => { r with had := r.had ++ [old] } else s

/-- The handle is written, or a strict entry that waited 64 cycles for the walk is late (R124); an entry that has committed
meanwhile is not (R125). -/
def execXlateComplete (id : Nat) (s : State) : Out :=
  .next (match s.findAccess id with
    | none => s
    | some a =>
      match a.kind with
      | .xlate h =>
        if a.back ≤ s.dcc then
          ((((s.noteHandle h).landBoth a fun r => r.setH h a.hnd).settled (.h h)).dropAccess id).relay (.h h a.hnd)
        else if s.mayBeLate a then s.accessFault a cXLATE_LATE a.va else s
      | _ => s)

/-- HINV clears V; it is no revocation (R127). -/
def execHinv (h : HReg) (s : State) : Out :=
  .next (s.userOnly ((s.noteHandle h).putH h { s.core.arch.hreg h with v := false }))

/-- The two words of a handle (R12). -/
def handleWord0 (h : Handle) : Word :=
  ofFields [(bit h.v, 63), (bit h.rd, 62), (bit h.wr, 61), (bit h.at_, 60), (h.lgsz.toNat, 52), (h.pbase.toNat, 12)]

def handleWord1 (h : Handle) : Word := ofFields [(h.vpage.toNat, 12)]

def execHinfo (d : Reg) (h : HReg) (s : State) : Out :=
  let n := s.srcH h
  .next (if s.firmware && h != 0 then s.illegal else (s.putS d (handleWord0 n)).putS (d + 1) (handleWord1 n))

/-! LD (R128 to R130). -/

/-- A byte of the local store as an LD reads it: the store buffer first (R117). -/
def State.localByte (s : State) (a : Nat) : Byte := (SMap.find a s.core.held.sbLs).getD (s.core.ls.mem.read a)

/-- The lines that a range of the local store touches. -/
def linesIn (a n : Nat) : List Nat :=
  if n = 0 then [] else (List.range ((a + n - 1) / 256 - a / 256 + 1)).map fun i => a / 256 + i

/-- A read of the local store by the entry sets R on its lines, with the cycle of the first (R115). -/
def State.markRead (s : State) (a n : Nat) : State :=
  if s.inRegion then
    s.onLs fun l =>
      { l with r := (linesIn a n).foldl (fun m i => if (SMap.find i m).isSome then m else SMap.put i s.cyc m) l.r }
  else s

/-- LD through h0: a fixed latency of 4. The user context's is an outstanding access (R138, R321); a poisoned word is met when
the value reaches the core (R394), and ends a routine of the firmware context at once (R333). -/
def State.localLoad (s : State) (d : Reg) (o : Nat) (oc : Oc) (sz : Size) (sx : Bool) : State :=
  let n := sizeBytes sz
  let bytes := (List.range n).map fun i => s.localByte (o + i)
  let bad := (readWords (fun i => (SMap.find i s.core.held.sbLs).isSome) o n).find? fun w => s.core.ls.poison.contains w
  let t := s.markRead o n
  if s.firmware && bad.isSome then s.abandon cPOISON
  else if s.firmware then
    let v := extend sx sz (leNat bytes)
    (t.later (.s d) 4 v 0).relayAt (s.dcc + 4) true (.s d v)
  else
    let a := { t.newAccess (.ld d sz sx) oc o n Handle.local with
      performed := true, value := if bad.isSome then none else some bytes, poison := bad, back := s.dcc + 4 }
    ((t.addAccess a).pending (.s d) (some (s.dcc + 4))).at_ (s.dcc + 4) ordResult s.me (.ldReturn a.id)

/-- The store-buffer bytes of the entry under a range, as they stand at issue. -/
def State.ownBytes (s : State) (pa n : Nat) : SMap Byte :=
  (s.core.held.sb.filter fun e => decide (pa ≤ e.1) && decide (e.1 < pa + n)).map fun e => (e.1, e.2.val)

/-- LD through h1 to h15: the value is supplied by the home slice and returns no earlier than 96 cycles after issue. -/
def State.farLoad (s : State) (d : Reg) (h : Handle) (o : Nat) (oc : Oc) (sz : Size) (sx : Bool) : State :=
  let n := sizeBytes sz
  let pa := h.addr o
  let a := { s.newAccess (.ld d sz sx) oc pa n h with ovl := if s.inRegion then s.ownBytes pa n else [] }
  let t := (s.addAccess a).pending (.s d) none
  let t := t.toSlice sliceTime (.ldReturn a.id)
  if s.strict then t.at_ (s.dcc + returnTime) (ordLate s.core.phys) s.me (.ldReturn a.id) else t

def execLd (d : Reg) (m : MemOp) (sz : Size) (sx : Bool) (inc : Bool) (s : State) : Out :=
  let o := s.memOff m
  let n := sizeBytes sz
  let h := s.srcH m.h
  s.reach m.h o n
    (s.throughHandle m.h o n h.rd
      ((if m.h = 0 then s.localLoad d o m.oc sz sx else s.farLoad d h o m.oc sz sx).postInc inc m.x n))

/-- The home slice supplies the bytes of an LD, or performs a PREF. Bytes of the context's own writes are not read where they are stored
(R117). The value returns no earlier than 96 cycles after issue. -/
def State.supply (s : State) (a : Access) : State :=
  let n := a.data.length
  if s.blocked a then s.retry (.ldReturn a.id)
  else if s.fencedAt s.core.part a.pa then (s.lookUp s.core.part a.pa).refuse a
  else if isFabric a.pa then
    s.sendTxn s.core.part a.pa a.oc.toNat s.core.launch s.core.lcore a.id (.read n) |>.setAccess { a with y := 1 }
  else if s.lineWaits a.pa then s.afterFill a.pa s.me (.ldReturn a.id)
  else if a.kind == .pref then (s.useLine a.pa id).dropAccess a.id
  else
    let c := s.consumeWords (readWords (s.ownByte a) a.pa n) false
    let t := c.2.useLine a.pa id
    let v := (List.range n).map fun i => s.loadByte a (a.pa + i)
    let r := t.delay
    let back := max (a.issued + returnTime) (s.dcc + r.1)
    let b := { a with
      performed := true, value := if c.1.isSome then none else some v, poison := c.1.map (·.1), back := back }
    (r.2.setAccess b).at_ back ordResult s.me (.ldReturn a.id)

/-- A stage of an LD: its home slice supplies the value, or the value reaches the core. In the strict entry that issued it, a value
that is not back in 96 cycles raises SCHED_MISS (R130). -/
def execLdReturn (id : Nat) (s : State) : Out :=
  .next (match s.findAccess id with
    | none => s
    | some a =>
      match a.kind, a.value, a.poison with
      | .ld d sz sx, v, w =>
        let late := s.mayBeLate a && a.hnd.lgsz != 0 && decide (a.issued + returnTime ≤ s.dcc)
        if a.performed && decide (a.back ≤ s.dcc) then
          match v, w with
          | some v, _ => s.finishLoad a d (extend sx sz (leNat v))
          | none, some w => s.latePoison a w (.ldReturn id)
          | none, none => s
        else if late then s.accessFault a cSCHED_MISS 0
        else if a.performed || a.y != 0 then s
        else s.supply a
      | .pref, _, _ => s.supply a
      | _, _, _ => s)

/-! ST (R128, R129). -/

/-- Distinct 8-byte granules of a table's keys. -/
def granules {α : Type} : SMap α → Nat
  | [] => 0
  | [_] => 1
  | (a, _) :: (b, w) :: m => (if a / 8 = b / 8 then 0 else 1) + granules ((b, w) :: m)

/-- Put bytes into a table. -/
def putBytes {α : Type} (f : Byte → α) (a : Nat) : List Byte → SMap α → SMap α
  | [], m => m
  | b :: bs, m => putBytes f (a + 1) bs (SMap.put a (f b) m)

/-- ST inside a region: into the store buffer, 1,024 granules at most (R116). -/
def State.holdStore (s : State) (r : HReg) (a : Nat) (oc : Oc) (bs : List Byte) : State :=
  let t := s.onHeld fun h =>
    if r = 0 then { h with sbLs := putBytes id a bs h.sbLs }
    else { h with sb := putBytes (fun b => ⟨b, s.dcc⟩) a bs h.sb, classes := h.classes ++ [(lineOf a, oc)] }
  if 1024 < granules t.core.held.sb + granules t.core.held.sbLs then s.fault cREGION_OVERFLOW (BitVec.ofNat 64 a) else t

/-- A write of the local store at once. A whole word clears its poison (R338). -/
def State.localWrite (s : State) (a : Nat) (bs : List Byte) : State :=
  s.onLs fun l =>
    { l with mem := l.mem.writeBytes a bs, poison := l.poison.filter fun w => !coversWord a bs.length w }

/-- ST in boundary code, in its ordering class. -/
def State.farStore (s : State) (h : Handle) (o : Nat) (oc : Oc) (bs : List Byte) : State :=
  let a := { s.newAccess .st oc (h.addr o) 0 h with data := bs }
  (s.addAccess a).toSlice sliceTime (.homeSliceApply a.id)

def execSt (d : Reg) (m : MemOp) (sz : Size) (inc : Bool) (s : State) : Out :=
  let o := s.memOff m
  let n := sizeBytes sz
  let h := s.srcH m.h
  let bs := leBytes n (s.src d).toNat
  s.reach m.h o n
    (s.throughHandle m.h o n h.wr
      ((if s.inRegion then s.holdStore m.h (h.addr o) m.oc bs
        else if m.h = 0 then s.localWrite o bs
        else s.farStore h o m.oc bs).postInc inc m.x n))

/-! Atomics (R132 to R134). -/

/-- AMO performs in its ordering class; s(d) is pending until the old value returns. -/
def State.startAmo (s : State) (d : Reg) (h : Handle) (o : Nat) (oc : Oc) (sz : Size) (sx : Bool) (fn : AmoFn)
    (y c : Word) : State :=
  let a := { s.newAccess (.amo d sz sx fn) oc (h.addr o) (sizeBytes sz) h with y := y, c := c }
  ((s.addAccess a).pending (.s d) none).toSlice sliceTime (.homeSliceApply a.id)

def execAmo (d : Reg) (m : AtomOp) (sz : Size) (sx : Bool) (b c : Reg) (fn : AmoFn) (s : State) : Out :=
  let o := s.atomOff m
  let n := sizeBytes sz
  let h := s.srcH m.h
  s.reach m.h o n
    (s.boundaryOnly
      (s.throughHandle m.h o n h.at_ (s.startAmo d h o m.oc sz sx fn (s.src b) (s.src c))))

/-- AMOP in a region takes one of 2,048 combine-log entries; its value is captured at issue (R116, R134). -/
def State.logEntries (s : State) : Nat :=
  (s.core.held.log.filter fun e => match e.op with
    | .atomic .. | .arrive .. | .rvinit .. => true
    | .elem .. => false).length

def State.logCombine (s : State) (c : Combine) : State :=
  if 2048 ≤ s.logEntries then s.fault cREGION_OVERFLOW (BitVec.ofNat 64 c.addr)
  else s.onHeld fun h => { h with log := h.log ++ [c] }

/-- A logged AMOP, with its ordering class. -/
def State.logAtomic (s : State) (c : Combine) (oc : Oc) : State :=
  let t := s.logCombine c
  if t.core.held.log.length = s.core.held.log.length then t
  else t.onHeld fun h => { h with classes := h.classes ++ [(lineOf c.addr, oc)] }

def State.startAmop (s : State) (h : Handle) (o : Nat) (oc : Oc) (sz : Size) (fn : AmoFn) (y : Word) : State :=
  let a := { s.newAccess (.amop sz fn) oc (h.addr o) (sizeBytes sz) h with y := y }
  (s.addAccess a).toSlice sliceTime (.homeSliceApply a.id)

def execAmop (m : AtomOp) (sz : Size) (b : Reg) (fn : AmoFn) (s : State) : Out :=
  let o := s.atomOff m
  let n := sizeBytes sz
  let h := s.srcH m.h
  s.reach m.h o n
    (s.throughHandle m.h o n h.at_
      (if s.inRegion then s.logAtomic ⟨h.addr o, .atomic fn sz (s.src b)⟩ m.oc
       else s.startAmop h o m.oc sz fn (s.src b)))

/-- The read-modify-write at the near-bank ALU. A posted one at a poisoned word has no requester: the word stays poisoned
unless it is written whole, from contents that are open (R338). -/
def State.applyAtomic (s : State) (fn : AmoFn) (sz : Size) (pa : Nat) (y c : Word) : List Byte × State :=
  let n := sizeBytes sz
  let r := match s.poisonedWord pa n with
    | some _ => s.freeBytes n
    | none => (s.peekBytes pa n, s)
  let w := 2 ^ (8 * n)
  (r.1, r.2.poke pa (leBytes n (atomicResult fn sz (leNat r.1) (y.toNat % w) (c.toNat % w))))

/-- The home slice applies a boundary ST, AMO or AMOP. An AMO that meets a poisoned word does not write it (R134). -/
def State.sliceApply (s : State) (a : Access) : State :=
  let again : Instr := .homeSliceApply a.id
  if s.blocked a then s.retry again
  else if s.fencedAt s.core.part a.pa then (s.lookUp s.core.part a.pa).refuse a
  else if isFabric a.pa then
    let k : TxnKind := match a.kind with
      | .amo _ sz _ fn | .amop sz fn => .atomic fn sz a.y a.c
      | _ => .write a.data
    s.sendTxn s.core.part a.pa a.oc.toNat s.core.launch s.core.lcore a.id k
  else if s.lineWaits a.pa then s.afterFill a.pa s.me again
  else
    let w : Writer := (s.core.launch, s.core.lcore, a.oc)
    match a.kind with
    | .st => ((s.poke a.pa a.data).noteWriter a.pa w).dropAccess a.id
    | .amop sz fn => ((s.applyAtomic fn sz a.pa a.y 0).2.noteWriter a.pa w).dropAccess a.id
    | .amo _ sz _ fn =>
      let q := s.consume a.pa a.data.length false
      let r := match q.1 with
        | some (w, _) => q.2.setAccess { a with performed := true, poison := some w }
        | none =>
          let v := q.2.applyAtomic fn sz a.pa a.y a.c
          (v.2.noteWriter a.pa w).setAccess { a with performed := true, value := some v.1 }
      let e := r.delay
      e.2.at_ (max (a.issued + returnTime) (s.dcc + e.1)) ordResult s.me (.amoReturn a.id)
    | _ => s

def execHomeSliceApply (id : Nat) (s : State) : Out :=
  .next (match s.findAccess id with
    | none => s
    | some a =>
      if a.fenced then s.latePoison a a.pa (.homeSliceApply id) else if a.performed then s else s.sliceApply a)

/-- The old value of an AMO returns. -/
def execAmoReturn (id : Nat) (s : State) : Out :=
  .next (match s.findAccess id with
    | none => s
    | some a =>
      match a.kind, a.value, a.poison with
      | .amo d sz sx _, some v, _ => s.finishLoad a d (extend sx sz (leNat v))
      | .amo .., none, some w => s.latePoison a w (.amoReturn id)
      | _, _, _ => s)

/-! PROBE and PREF (R135, R136). -/

/-- A page of a PROBE that fails: its cause, what its record says, and its address in the range. -/
structure BadPage where
  cause : BitVec 8
  data : Word
  va : Nat
  deriving DecidableEq, Repr

/-- The pages that a range may have. -/
def maxPages : Nat := 2 ^ 24 + 2

/-- Check the pages from `v` to `last`, in ascending address; each step passes one page, which the cluster's walker keeps. The record
of a failing page has `v` where that is the first page, and the page's first address after it (DESIGN CHOICE, log entry 84). -/
def State.probePages (s : State) (p : Perms) (v last : Nat) : Nat → Option BadPage × State
  | 0 => (none, s)
  | k + 1 =>
    if last < v then (none, s)
    else
      match s.xlated s.core.part s.core.vf (BitVec.ofNat 64 v) p with
      | (.cause c data, t) => (some ⟨c, data, v⟩, t)
      | (.handle h, t) =>
        let lg := h.lgsz.toNat
        let t := t.keepWalk (clusterOf s.core.phys) s.core.vf h
        State.probePages t p ((v / 2 ^ lg + 1) * 2 ^ lg) last k

/-- A PROBE that holds later bundles until `t`, with the pages from `v` on still to check. -/
def State.holdProbe (s : State) (p : Perms) (v last t : Nat) : State :=
  if s.firmware then s.onHz fun z => { z with issueAt := max z.issueAt t }
  else
    let a := { s.newAccess (.probe p last) 0 0 0 Handle.empty with va := BitVec.ofNat 64 v, back := t }
    ((s.addAccess a).onCore fun c => c.hold (.probe a.id)).at_ t ordResult s.me (.probeComplete a.id)

/-- The walker comes to a page that fails after `t` cycles (R321): the bundle of its PROBE has not taken effect till then. -/
def State.walkTo (s : State) : State :=
  let e := s.delay
  e.2.onCore fun c => { c with walk := some (s.dcc + 1 + e.1) }

/-- PROBE holds later bundles until the last page is checked; that time is open. A page that fails is met at issue, as the walk of an
XLATE is (DEDUCED, log entry 6). Boundary code meets one beyond the first when the walker comes to it, and its bundle waits till then;
where the core is asked to stop before, the bundle takes effect and the page is one of those that remain (R125, R321) (DESIGN CHOICE,
log entry 84). -/
def execProbe (d x : Reg) (p : Perms) (s : State) : Out :=
  let len := (s.src d).toNat
  let v := (s.src x).toNat
  .next (if 2 ^ 36 < len then s.illegal
    else if len = 0 then s
    else
      match s.probePages p v (v + len - 1) maxPages with
      | (some b, t) =>
        if s.inRegion || s.firmware || b.va == v then t.fault b.cause b.data
        else
          match s.core.walk with
          | none => s.walkTo
          | some u =>
            if u ≤ s.dcc then t.fault b.cause b.data
            else (s.probePages p v (b.va - 1) maxPages).2.holdProbe p b.va (v + len - 1) u
      | (none, t) =>
        let e := t.delay
        e.2.holdProbe p (v + len) (v + len - 1) (s.dcc + 1 + e.1))

/-- The walker has checked the pages that remained: the PROBE is over, or its fault is kept until the core can take it. -/
def State.walkOn (s : State) (a : Access) (p : Perms) (last : Nat) : State :=
  match s.probePages p a.va.toNat last maxPages with
  | (none, t) => (t.dropAccess a.id).onCore fun c => if c.blk = .probe a.id then { c with blk := .none } else c
  | (some b, t) => t.setAccess { a with performed := true, poison := some b.cause.toNat, va := b.data, back := s.dcc }

/-- The last page is checked. A fault among the pages that remained at a stop is raised when the context is restored, at the bundle
after the PROBE (R321). -/
def execProbeComplete (id : Nat) (s : State) : Out :=
  .next (match s.findAccess id with
    | none => s
    | some a =>
      match a.kind with
      | .probe p last =>
        let t := if a.performed then s else s.walkOn a p last
        match (t.findAccess id).bind fun b => b.poison.map fun c => (b, c) with
        | none => t.unblock
        | some (b, c) =>
          if t.core.life ≠ .running then t
          else if t.core.inAction id then t.at_ (t.dcc + 1) ordResult t.me (.probeComplete id)
          else
            ((t.accessFault b (BitVec.ofNat 8 c) b.va).dropAccess id).onCore fun c =>
              { c with trap := c.trap.map fun x => { x with access := none }, blk := if c.blk = .probe id then .none else c.blk }
      | _ => s)

/-- The page that a handle's address lies in now belongs to the host (R136, R289), as a walk of the tables finds. -/
def State.hostOwned (s : State) (h : Handle) (o : Nat) : Bool × State :=
  match s.walk s.core.vf (h.vpage.toNat * 2 ^ 12 + o) with
  | (.leaf _ _ _ _ _ host, t) => (host, t)
  | (.invalid, t) | (.poison .., t) => (false, t)

/-- The cases in which PREF does nothing (R136), the page of the host apart. -/
def State.prefIgnored (s : State) (m : MemOp) : Bool :=
  let h := s.srcH m.h
  m.h == 0 || s.firmware || !h.v || !h.rd || decide (h.bytes m.h ≤ s.memOff m)

def execPref (m : MemOp) (s : State) : Out :=
  let h := s.srcH m.h
  .next (if s.prefIgnored m || isFabric (h.addr (s.memOff m)) then s
    else
      match s.hostOwned h (s.memOff m) with
      | (true, t) => t
      | (false, t) =>
        let a := t.newAccess .pref m.oc (lineOf (h.addr (s.memOff m))) 0 h
        (t.addAccess a).toSlice sliceTime (.ldReturn a.id))

/-- The line is back, for the SGATHs that wait for it (R233). -/
def Run.cameBack (r : Run) (line : Nat) : Run :=
  if r.e.r.code = 0x30 then { r with capX := r.capX.map fun l => l.filter fun a => a != line } else r

/-- A fill ends: the line is resident. With every way of its set held, the fill goes on waiting (R282). -/
def execL2Fill (line : Nat) (s : State) : Out :=
  .next (match s.fillLine line with
    | some t => t.onCores fun c => { c with eng := { c.eng with runs := c.eng.runs.map fun r => r.cameBack line } }
    | none =>
      let r := s.delay
      r.2.at_ (s.dcc + 1 + r.1) ordFill .chip (.l2Fill line))

end Sys2Proof.Machine
end

