-- ==== Sys2Proof/Machine/Publish.lean ====
section
/-! DEFINITION. Publish sets: what a commit makes visible, in which order and when (R119, R120, R221, R294), and the
arrivals that follow it (R142). -/

namespace Sys2Proof.Machine

/-! Elements in memory (R43, R45). -/

/-- The float format of a tag. -/
def ffmtOf (tag : Nat) : Option FFmt :=
  match tag with
  | 1 => some .fp32
  | 2 => some .bf16
  | 3 => some .fp16
  | 4 => some .e4m3
  | 5 => some .e5m2
  | 6 => some .e2m1
  | _ => none

/-- Bytes of an element of a format of whole bytes. -/
def elemBytes (tag : Nat) : Nat :=
  match tag with
  | 1 | 9 => 4
  | 2 | 3 => 2
  | _ => 1

/-- The larger or the smaller of two exact values; a NaN gives way to the other, and +0 is above −0 (R57). -/
def extremeOf (isMax : Bool) (x y : Val) : Val :=
  if x.isNan then y
  else if y.isNan then x
  else
    let below := x.lt y || x.isZero && y.isZero && x.neg && !y.neg
    if below == isMax then y else x

/-- The exact result of a combine of an element and a stream value (R221). -/
def combineExact (k : CombKind) (rm : Rm) (x y : Val) : Exact :=
  match k with
  | .add => exactAdd x y rm
  | .sradd => exactAdd x y .sr
  | .max => ⟨extremeOf true x y, false, snanFlag [x, y]⟩
  | .min => ⟨extremeOf false x y, false, snanFlag [x, y]⟩

/-- The new pattern of a combined element (R221). `old` is in the destination's format; `v` is the unconverted stream value, an I32
where `int` says so and an FP32 otherwise. -/
def combined (k : CombKind) (tag : Nat) (rm : Rm) (sat int : Bool) (old v : Nat) (hash : BitVec 16) : Rounded :=
  let y := if int then valOfInt (toSigned 32 v) else valOf .fp32 v
  let mode := if k == .sradd then .sr else rm
  match ffmtOf tag with
  | some f => (combineExact k rm (valOf f old) y).round f mode sat hash
  | none =>
    let w := 8 * elemBytes tag
    toInt w (combineExact k rm (valOfInt (toSigned w old)) y) mode hash

/-- Apply one logged entry at its home slice; the flags it raises. -/
def State.applyCombine (s : State) (c : Combine) : State × Flags :=
  match c.op with
  | .atomic fn sz y => ((s.applyAtomic fn sz c.addr y 0).2, 0)
  | .elem k fmt rm sat int v seed steptag =>
    let n := elemBytes fmt.toNat
    let r := match s.poisonedWord c.addr n with
      | some _ => s.freeBytes n
      | none => (s.peekBytes c.addr n, s)
    let hash := srHash (BitVec.ofNat 64 c.addr) steptag seed
    let o := combined k fmt.toNat rm sat int (leNat r.1) v.toNat hash
    (r.2.poke c.addr (leBytes n o.pat), o.flags)
  | .arrive .. | .rvinit .. => (s, 0)

/-! The order of the log (R120). -/

/-- Insert after the entries of its own and lower lines. -/
def Combine.insert (c : Combine) : List Combine → List Combine
  | [] => [c]
  | d :: l => if lineOf c.addr < lineOf d.addr then c :: d :: l else d :: Combine.insert c l

def sortLog (l : List Combine) : List Combine := l.foldl (fun acc c => c.insert acc) []

/-! The plain writes of an entry: of one byte the later write wins, and on a tie the ST (R119). -/

def mergePlain (h : Held) : SMap Byte :=
  let lines := h.lines.map fun e => (e.1, e.2.val)
  h.sb.foldl (fun m e =>
    match SMap.find e.1 h.lines with
    | some w => if w.at_ ≤ e.2.at_ then SMap.put e.1 e.2.val m else m
    | none => SMap.put e.1 e.2.val m) lines

def Combine.memory (c : Combine) : Bool :=
  match c.op with
  | .atomic .. | .elem .. => true
  | .arrive .. | .rvinit .. => false

/-- Distinct lines of a sorted list of addresses. -/
def distinctLines : List Nat → List Nat
  | [] => []
  | [a] => [lineOf a]
  | a :: b :: l => if lineOf a = lineOf b then distinctLines (b :: l) else lineOf a :: distinctLines (b :: l)

/-- An entry of the combine log of R116; the combines of a COPY are held in combine lines instead. -/
def Combine.logged (c : Combine) : Bool :=
  match c.op with
  | .atomic .. => true
  | .elem .. | .arrive .. | .rvinit .. => false

/-- The lines of a set that home on the device, and the work each gives its slice: one cycle for a line with plain writes or a
COPY's combines (R116), and one for each entry of the combine log (R294) (DEDUCED, log entry 59). -/
def setWork (plain : SMap Byte) (log : List Combine) : List (Nat × Nat) :=
  let pl := distinctLines (plain.map (·.1))
  let all := log.foldl (fun acc c => if acc.contains (lineOf c.addr) then acc else acc ++ [lineOf c.addr]) pl
  (all.filter fun a => !isFabric a).map fun a =>
    let mine := log.filter fun c => lineOf c.addr == a
    (a, (if pl.contains a || mine.any fun c => !c.logged then 1 else 0) + (mine.filter Combine.logged).length)

/-- Where a line's work ends, given the slices' next free cycles; slices work in ascending order of lines. `after` is the
cycle in which earlier sets have been applied to the line. -/
def slotWork (homes : Nat → Nat) (after : Nat → Nat) (c : Nat) :
    List (Nat × Nat) → SMap Nat → List (Nat × Nat) × SMap Nat
  | [], free => ([], free)
  | (a, n) :: rest, free =>
    let start := max (max (c + 8) (SMap.get 0 (homes a) free)) (after a)
    let r := slotWork homes after c rest (SMap.put (homes a) (start + n) free)
    ((a, start + n) :: r.1, r.2)

/-- Lines in ascending order. -/
def insertLine (x : Nat × Nat) : List (Nat × Nat) → List (Nat × Nat)
  | [] => [x]
  | y :: l => if x.1 < y.1 then x :: y :: l else y :: insertLine x l

def sortLines (l : List (Nat × Nat)) : List (Nat × Nat) := l.foldl (fun acc x => insertLine x acc) []

def PubSet.touches (p : PubSet) (a : Nat) : Bool :=
  p.plain.any (fun e => lineOf e.1 == a) || p.log.any fun c => c.memory && lineOf c.addr == a

/-- The cycle in which every earlier set that holds the line has been applied to it. -/
def State.lineApplied (s : State) (a : Nat) : Nat :=
  s.pubs.foldl (fun m p => p.ends.foldl (fun m e => if e.1 = a then max m e.2 else m) m) 0

/-- The cycle in which every earlier set that holds the line is visible on it. -/
def State.lineVisible (s : State) (a : Nat) : Nat :=
  (s.pubs.filter fun p => p.touches a).foldl (fun m p => max m p.vis) 0

/-- The part of a set that lies in one line. -/
def PubSet.ofLine (p : PubSet) (a : Nat) (vis : Nat) : PubSet :=
  { p with
    plain := p.plain.filter fun e => lineOf e.1 == a
    lines := p.lines.filter fun e => lineOf e.1 == a
    log := p.log.filter fun c => c.memory && lineOf c.addr == a
    classes := p.classes.filter fun c => c.1 == a
    ends := p.ends.filter fun e => e.1 == a
    vis := vis }

/-- Does a set combine elements into a line? -/
def PubSet.combinesAt (p : PubSet) (a : Nat) : Bool :=
  p.log.any fun c => lineOf c.addr == a && (match c.op with
    | .elem .. => true
    | .atomic .. | .arrive .. | .rvinit .. => false)

/-- A set takes its place behind those of earlier commit points (R120). It falls due when it becomes visible, and when a slice has made
its combines on a line (R56). -/
def State.queueSet (s : State) (p : PubSet) : State :=
  let early := (p.ends.filter fun e => p.combinesAt e.1 && decide (e.2 < p.vis)).map (·.2)
  (early ++ [p.vis]).foldl (fun (t : State) c => t.at_ c ordPublish .chip (.publishApply p.id)) { s with pubs := s.pubs ++ [p] }

/-- The commit point: the entry's publish set goes to the slices and becomes visible at V, whole, or line by line at scope
CORE (R294). Answers the last cycle in which a part becomes visible. -/
def State.startPublish (s : State) (p : PubSet) : Nat × State :=
  let work := sortLines (setWork p.plain (p.log.filter Combine.memory))
  let slots := slotWork s.homeSlice s.lineApplied s.dcc work s.sliceFree
  let ends := slots.1
  let p := { p with ends := ends }
  let v := ends.foldl (fun m e => max m (max e.2 (s.lineVisible e.1))) (if p.sc = .core ∧ work.isEmpty = true then s.dcc else s.dcc + 8)
  let s := { s with sliceFree := slots.2.filter fun e => decide (s.dcc < e.2) }
  match p.sc with
  | .core =>
    let parts := ends.map fun e => p.ofLine e.1 (max e.2 (s.lineVisible e.1))
    let rest : PubSet := { p with
      plain := p.plain.filter fun e => isFabric e.1
      lines := p.lines.filter fun e => isFabric e.1
      log := p.log.filter fun c => !c.memory || isFabric c.addr
      classes := p.classes.filter fun c => isFabric c.1
      ends := []
      vis := v }
    (v, (parts.foldl (fun (t : State) q => { t with serial := t.serial + 1 }.queueSet { q with id := t.serial }) s).queueSet rest)
  | _ => (v, s.queueSet { p with vis := v })

/-- Consecutive bytes as runs within their lines, for the transactions that carry them. -/
def runsOf : SMap Byte → List (Nat × List Byte)
  | [] => []
  | (a, b) :: m =>
    match runsOf m with
    | (c, bs) :: r => if c = a + 1 ∧ lineOf a = lineOf c then (a, b :: bs) :: r else (a, [b]) :: (c, bs) :: r
    | [] => [(a, [b])]

/-- The first fabric address of a set whose device is fenced, or whose rank is not mapped (R352, R366). -/
def State.fencedIn (s : State) (p : PubSet) (part : BitVec 4) : Option Nat :=
  ((p.plain.map (·.1)) ++ (p.log.filter Combine.memory).map (·.addr)).find? fun a => s.fencedAt part a

/-- The ordering class in which a set's write to a fabric address travels: that of the ST or AMOP, 0 for an engine's (R363). -/
def PubSet.classAt (p : PubSet) (a : Nat) : Nat :=
  ((p.classes.reverse.find? fun c => c.1 == lineOf a).map fun c => c.2.toNat).getD 0

/-- Apply the plain writes and then the log of a set; the flags of its combines. Nothing goes to a fenced device. -/
def State.applySet (s : State) (p : PubSet) (part : BitVec 4) : State × Flags :=
  let runs := runsOf (p.plain.filter fun e => !s.fencedAt part e.1)
  let p := { p with log := p.log.filter fun c => !(c.memory && s.fencedAt part c.addr) }
  let s := runs.foldl (fun (t : State) r =>
    if isFabric r.1 then t.sendTxn part r.1 (p.classAt r.1) p.launch p.lcore p.id (.write r.2) else t.poke r.1 r.2) s
  (sortLog (p.log.filter Combine.memory)).foldl (fun (x : State × Flags) c =>
    if isFabric c.addr then
      match c.op with
      | .atomic fn sz y => (x.1.sendTxn part c.addr (p.classAt c.addr) p.launch p.lcore p.id (.atomic fn sz y 0), x.2)
      | .elem k f rm sat int v seed steptag =>
        (x.1.sendTxn part c.addr 0 p.launch p.lcore p.id (.combine k f rm sat int v seed steptag), x.2)
      | .arrive .. | .rvinit .. => x
    else
      let r := x.1.applyCombine c
      (r.1, x.2 ||| r.2)) (s, 0)

/-- The messages of logged ARRIVEs and RVINITs leave in cycle `c`, in which the set has performed (R142). -/
def State.sendLogged (s : State) (log : List Combine) (fl : BitVec 8) (c : Nat) : State :=
  log.foldl (fun (t : State) e =>
    match e.op with
    | .arrive g pt =>
      match t.group g with
      | some x => t.at_ (c + t.msgTime x) (ordLate t.core.lcore) t.me (.rvArrival g pt t.core.lcore fl)
      | none => t
    | .rvinit g pt n =>
      match t.group g with
      | some x => t.at_ (c + t.msgTime x) (ordLate t.core.lcore) t.me (.rvInitApply g pt n)
      | none => t
    | .atomic .. | .elem .. => t) s

/-- Must a COMMIT of this scope wait for acknowledgements from the fabric (R294)? -/
def scopeFabric : Scope → Bool
  | .host | .peer | .pod | .tier2 | .system => true
  | _ => false

/-- Must it wait for the write-back of second-tier lines? -/
def scopeTier : Scope → Bool
  | .tier2 | .system => true
  | _ => false

/-- Must it wait for the encoders' copies to be dropped? -/
def scopeMedia : Scope → Bool
  | .media | .system => true
  | _ => false

/-- Transactions of a set or an access that are not acknowledged yet. -/
def State.unacked (s : State) (id : Nat) : Bool := s.fabric.out.any fun o => o.access == id

/-- The COMMIT's next bundle may issue from cycle `t` on. -/
def State.endCommit (s : State) (id t : Nat) : State :=
  if s.core.reg.commit = .publishing id then
    (((s.onReg fun r => { r with commit := .none }).onCore fun c => { c with blk := .none }).onHz
      fun z => { z with issueAt := max z.issueAt t }).unblock
  else s

/-- Second-tier lines of a set are written back (R288). -/
def State.writeBackSet (s : State) (p : PubSet) : State :=
  ((setWork p.plain (p.log.filter Combine.memory)).map (·.1)).foldl (fun (t : State) a =>
    (t.writeBack a).useLine a fun l => if isTier2 a then { l with dirty := false, writers := [] } else l) s

/-- A set whose writes are applied waits for its acknowledgements. When they are in, and what else its scope asks for is done by
cycle `vis`, its arrivals leave and the COMMIT ends; it raises FENCED_PEER in boundary code where a part of the set was for a fenced
device (R119, R142, R294, R352). -/
def State.settlePub (s : State) (p : PubSet) : State :=
  if s.unacked p.id then s
  else
    let drop (t : State) : State := { t with pubs := t.pubs.filter fun q => q.id != p.id }
    match p.fenced with
    | none =>
      (drop s).withCtx p.launch p.lcore fun u =>
        (u.sendLogged p.log p.flags (max s.dcc p.vis)).endCommit p.id (max s.dcc p.vis + 1)
    | some a =>
      s.withCtx p.launch p.lcore fun u =>
        match u.core.life with
        | .halted | .killed | .idle => drop u
        | .running =>
          if u.core.inAction 0 || u.core.reg.isOpen then u.at_ (u.dcc + 1) ordPublish .chip (.publishApply p.id)
          else
            (((drop u).sendLogged p.log p.flags (max u.dcc p.vis)).endCommit p.id (max u.dcc p.vis + 1)).takeTrap
              (u.recOf (p.pc, p.word) p.pos cFENCED_PEER (BitVec.ofNat 64 a))
        | .placed | .saving | .saved | .parked => u.at_ (u.dcc + 1) ordPublish .chip (.publishApply p.id)

/-- Flags of a combine are never discarded: a region that has opened meanwhile has them in its start state too (R221)
(DEDUCED, log entry 60). -/
def State.keepFlags (s : State) (f : Flags) : State :=
  if s.inRegion then
    s.onReg fun r =>
      let a := r.snap.arch
      { r with snap := { r.snap with arch := { a with csr := { a.csr with numf := a.csr.numf ||| f } } } }
  else s

/-- The lines of a set are noted as written by its context, in the classes of its STs and AMOPs (R295). -/
def State.noteSet (s : State) (p : PubSet) : State :=
  p.classes.foldl (fun (t : State) c => if isFabric c.1 then t else t.noteWriter c.1 (p.launch, p.lcore, c.2)) s

/-- Flags of a set's combines reach its owner, and the arrivals of the whole set. Those of a halted context are dropped (R56, R221). -/
def State.setFlags (s : State) (p : PubSet) (f : Flags) : State :=
  let t : State := { s with pubs := s.pubs.map fun (q : PubSet) => if q.id = p.id ∨ q.id = p.parent then { q with flags := q.flags ||| f } else q }
  t.withCtx p.launch p.lcore fun u => if u.core.life = Life.halted then u else (u.raise f).keepFlags f

/-- The flags of a set's combines on a line, which its slice has now made: upon what the sets of earlier commit points leave there.
Those of an element in a poisoned word are the flags of contents that are open. -/
def State.lineFlags (s : State) (p : PubSet) (a : Nat) : Flags × Nat :=
  let before := (s.pubs.takeWhile fun q => q.id != p.id).filter fun q => !q.applied
  let u := before.foldl (fun (t : State) q => (t.applySet (q.ofLine a 0) 0).1) s
  let r := u.applySet (p.ofLine a 0) 0
  (r.2, r.1.free)

/-- The slices that have applied a line of the set by now have made its combines, whose flags are raised in that cycle (R56). -/
def State.combineFlags (s : State) (p : PubSet) : State :=
  let now := p.ends.filter fun e => decide (e.2 ≤ s.dcc)
  let t : State := { s with pubs := s.pubs.map fun (q : PubSet) =>
    if q.id = p.id then { q with ends := q.ends.filter fun e => decide (s.dcc < e.2) } else q }
  (now.filter fun e => p.combinesAt e.1).foldl (fun (t : State) e =>
    let f := t.lineFlags p e.1
    { t with free := f.2 }.setFlags p f.1) t

/-- A set becomes visible: its writes are applied. When it has performed at its scope the COMMIT ends; its arrivals leave then, and after
the last of its combines at fabric addresses (R119, R142). -/
def State.publish (s : State) (p : PubSet) : State :=
  let owner : BitVec 4 := ((s.launchOf p.launch).map (·.part)).getD s.core.part
  let r := State.applySet { s with pubs := s.pubs.filter fun (q : PubSet) => q.id != p.id } p owner
  let t : State := r.1.noteSet p
  let t : State := if scopeTier p.sc then t.writeBackSet p else t
  let fenced := p.fenced.orElse fun _ => s.fencedIn p owner
  let t : State := (fenced.map (t.lookUp owner)).getD t
  let wait := t.unacked p.id || fenced.isSome
  let ends := scopeFabric p.sc || fenced.isSome
  let late := ends || p.log.any fun c => isFabric c.addr && p.combinesAt (lineOf c.addr)
  let media := if scopeMedia p.sc then 17 else 1
  let t := if scopeMedia p.sc then t.dropCopies fun a _ => p.touches a else t
  let d := if scopeTier p.sc && p.plain.any (fun e => isTier2 e.1) || scopeTier p.sc && p.log.any (fun c => isTier2 c.addr)
    then t.delay else (0, t)
  let done := s.dcc + max media d.1 - 1
  let t := if wait then
      { d.2 with pubs := d.2.pubs ++ [{ p with
        plain := [], lines := [], log := if late then p.log.filter fun c => !c.memory else []
        classes := p.classes.filter fun c => isFabric c.1
        ends := [], applied := true, fenced := fenced, vis := done }] }
    else d.2
  let t := if wait && !t.unacked p.id then t.at_ s.dcc ordPublish .chip (.publishApply p.id) else t
  t.withCtx p.launch p.lcore fun u =>
    if wait && ends then u
    else if wait && late then u.endCommit p.id (done + 1)
    else (u.sendLogged p.log p.flags done).endCommit p.id (done + 1)

/-- A set that is due: its slices have made combines, it becomes visible, or it goes on once it is acknowledged. -/
def State.duePub (s : State) (p : PubSet) : State :=
  if p.applied then s.settlePub p
  else
    let t := s.combineFlags p
    match t.pubs.find? fun q => q.id == p.id with
    | some q => if q.vis ≤ s.dcc then t.publish q else t
    | none => t

end Sys2Proof.Machine
end

