-- ==== Sys2Proof/Machine/Power.lean ====
section
/-! DEFINITION. Array power: shape requests, the array's ramps and the MBURST window (R161 to R163). -/

namespace Sys2Proof.Machine

def State.onArray (s : State) (f : MxArray → MxArray) : State := s.onEng fun e => { e with array := f e.array }

/-- The first cycle after the MBURST window, 0 with none open (R163). -/
def MxArray.windowEnd (a : MxArray) : Nat := if a.burstN = 0 then 0 else a.burstStart + 32 + 64 * a.burstN

/-- The cycle D in which an array that is ramped begins to ramp down (R162, R163). -/
def MxArray.holdEnd (a : MxArray) (hold : Nat) : Nat := max (a.last + 1 + 16 * hold) a.windowEnd

/-- BLEFT in cycle `t` (R163). -/
def MxArray.bleft (a : MxArray) (t : Nat) : Nat :=
  if t < a.windowEnd then min a.burstN ((a.windowEnd - t + 63) / 64) else 0

/-- Watch for the end of the ramped hold, anew. -/
def State.rampWatch (s : State) : State :=
  let a := s.core.eng.array
  match a.ramp with
  | .ramped =>
    (s.onArray fun a => { a with serial := a.serial + 1 }).at_
      (max (s.dcc + 1) (a.holdEnd s.core.arch.csr.hold.toNat)) (ordLate s.core.phys) s.here (.rampHoldExpiry (a.serial + 1))
  | .idle | .up | .down => s

/-- Ramp-up begins in the present cycle. -/
def State.rampUp (s : State) : State :=
  let n := s.core.eng.array.serial + 1
  (s.onArray fun a => { a with ramp := .up, rampEnd := s.dcc + 32, serial := n }).at_ (s.dcc + 32) (ordLate s.core.phys)
    s.here (.rampUpDone n)

/-- The start of a matrix command that is due in the present cycle (R162, R163). -/
def State.arrayStart (s : State) : Nat × State :=
  let a := s.core.eng.array
  match a.ramp with
  | .ramped => (s.dcc, s)
  | .up => (a.rampEnd, s)
  | .idle => (s.dcc + 32, s.rampUp)
  | .down => (a.rampEnd + 32, s)

/-- At a discard the array's commands end in the present cycle, and the hold runs from there. -/
def State.rampDiscard (s : State) : State :=
  (s.onArray fun a => { a with last := min a.last s.dcc, free := 0, dend := 0 }).rampWatch

def execRampUpDone (serial : Nat) (s : State) : Out :=
  let a := s.core.eng.array
  .next (if a.serial = serial ∧ a.ramp = .up then (s.onArray fun a => { a with ramp := .ramped }).rampWatch else s)

def execRampHoldExpiry (serial : Nat) (s : State) : Out :=
  let a := s.core.eng.array
  .next (if a.serial = serial ∧ a.ramp = .ramped then
      (if s.dcc < a.holdEnd s.core.arch.csr.hold.toNat then s.rampWatch
       else
        (s.onArray fun a => { a with ramp := .down, rampEnd := s.dcc + 16, serial := serial + 1 }).at_ (s.dcc + 16)
          (ordLate s.core.phys) s.here (.rampDownEnd (serial + 1)))
    else s)

/-- The array is idle; a command that fell due during the ramp-down ramps it up again. -/
def execRampDownEnd (serial : Nat) (s : State) : Out :=
  let e := s.core.eng
  let waits := (e.queues.toArray.getD 0 []).head?.any fun h => h.startAt == some (s.dcc + 32)
  .next (if e.array.serial = serial ∧ e.array.ramp = .down then
      (if waits then s.rampUp else s.onArray fun a => { a with ramp := .idle })
    else s)

/-- SHAPE grants min(v, allowance) in 32 cycles; v above 3 raises ILLEGAL (DEDUCED, log entry 31). -/
def execShape (a : Reg) (s : State) : Out :=
  let v := s.src a
  .next (s.userOnly
    (if 3 < v.toNat then s.illegal
     else
      let al := (s.part s.core.part).allow
      s.at_ (s.dcc + 32) (ordLate s.core.phys) s.me (.shapeGrant (if v.toNat ≤ al.toNat then v.setWidth 2 else al))))

/-- A grant asked for in boundary code that lands in a region belongs to the region-start state too (DEDUCED, log entry 16). -/
def execShapeGrant (sh : BitVec 2) (s : State) : Out :=
  let f : Arch → Arch := fun r => { r with csr := { r.csr with shapeg := sh } }
  .next ((s.onArch f).onReg fun r =>
    if r.isOpen ∧ s.dcc ≤ s.core.stat.rsc.toNat + 32 then { r with snap := { r.snap with arch := f r.snap.arch } } else r)

/-- A command whose start was fixed in the present cycle starts at I + 32 at the latest. -/
def QEntry.hasten (dcc : Nat) (e : QEntry) : QEntry :=
  if e.seen = dcc + 1 then { e with startAt := e.startAt.map fun t => min t (dcc + 32) } else e

/-- The array begins ramping unless it is ramped, and the window replaces what is left of an earlier one. -/
def State.burst (s : State) (n : Nat) : State :=
  let s := (s.onArray fun a => { a with burstStart := s.dcc, burstN := n }).at_ (s.dcc + 32 + 64 * n) (ordLate s.core.phys)
    s.here (.mburstWindowEnd s.dcc)
  match s.core.eng.array.ramp with
  | .ramped => s.rampWatch
  | .up => s
  | .idle | .down => s.rampUp.onEng fun e => { e with queues := e.queues.map fun q => q.map (QEntry.hasten s.dcc) }

/-- n is from 1 to 32,767 (R163). -/
def execMburst (n : BitVec 15) (s : State) : Out :=
  .next (s.userOnly (if n = 0 then s.illegal else s.burst n.toNat))

/-- The window that opened with the MBURST of cycle `serial` ends. -/
def execMburstWindowEnd (serial : Nat) (s : State) : Out :=
  .next (if s.core.eng.array.burstStart = serial ∧ s.core.eng.array.windowEnd ≤ s.dcc then
      s.onArray fun a => { a with burstN := 0 }
    else s)

end Sys2Proof.Machine
end

