-- ==== Sys2Proof/Machine/Region.lean ====
section
/-! DEFINITION. Regions: opening one, committing it, discarding it and entering it again (R20, R31, R113 to R122). -/

namespace Sys2Proof.Machine

/-! Opening (R113, R114). -/

def contractKey (part : BitVec 4) (cid : BitVec 6) : Nat := part.toNat * 64 + cid.toNat

/-- The maximum region length of the launch: its contract's, and its partition's where it runs best-effort, as one of a withdrawn
contract does (R314, R318). -/
def State.maxLen (s : State) : Nat :=
  match s.launch with
  | some l =>
    match SMap.find (contractKey l.part l.cid) s.disp.contracts with
    | some c => if l.cid = 63 || l.demoted then (s.part l.part).belmax else c.lmax
    | none => (s.part l.part).belmax
  | none => (s.part s.core.part).belmax

/-- A program is in place: its words, with the slot flags cleared (R183). -/
def installSlot (a : Arch) (slot : BitVec 4) (prog : List Word32) : Arch :=
  let c := a.slots.get slot.toFin
  { a with slots := a.slots.set slot.toNat { c with prog := prog, sflg := 0 } slot.isLt }

/-- The registers in program order at a REGION: results of earlier bundles that are still in flight count as written (log
entry 16). -/
def State.landed (s : State) : Arch :=
  s.agenda.foldl (fun a e =>
    if e.target = s.me then
      match e.act with
      | .scalarWriteback d v fl =>
        let a := match d with
          | .s r => a.setS r v
          | .p r => a.setP r (v.getLsbD 0)
        { a with csr := { a.csr with numf := a.csr.numf ||| fl } }
      | .ploadInstall slot prog => installSlot a slot prog
      | _ => a
    else a) s.core.arch

/-- What REGION does in its cycle (R114). The watchdog of R121 runs from RSC (DEDUCED, log entry 35). -/
def State.openRegion (s : State) (len : Nat) (amask : BitVec 4) : State :=
  let c := s.core
  let again := c.replay.repend
  let relax := again && c.replay.relax
  let entry := s.serial
  let snap : Snap := ⟨s.landed, c.wpc, c.acc, c.layer⟩
  let t := { s with serial := s.serial + 1 }.onCore fun c =>
    { c with
      stat := { c.stat with
        rsc := BitVec.ofNat 64 s.dcc
        pcnt := if again then c.stat.pcnt else 0
        cnt := if again then c.stat.cnt else 0
        lastc := if again then c.stat.lastc else 0
        relax := relax }
      reg := { isOpen := true, entry := entry, len := len, amask := amask, snap := snap, word := c.wword, cpc := 0,
               cword := 0, cpos := 0, digest := 0, revoked := 0, had := [], setfs := 0, commit := .none }
      ls := { c.ls with r := [], w := [] }
      held := Held.empty
      eng := { c.eng with lastW := Vector.replicate 6 0, forest := none, loading := none }
      cruiser := { c.cruiser with digest := 0 }
      replay := { c.replay with repend := false, relax := false, mism := if again then c.replay.mism else 0 } }
  t.at_ (s.dcc + (if relax then 2 * len else len) + 1) (ordLate c.phys) s.me (.regionLong entry)

def execRegion (len : BitVec 24) (amask : BitVec 4) (s : State) : Out :=
  .next (if s.firmware || s.inRegion then s.illegal
    else if s.maxLen < len.toNat then s.fault cREGION_LONG (len.setWidth 64)
    else s.openRegion len.toNat amask)

/-! Committing (R118 to R120). -/

/-- COMMIT holds later bundles until its last phase ends. -/
def execCommit (sc : Scope) (s : State) : Out :=
  .next (if s.firmware || !s.inRegion then s.illegal
    else
      (s.onReg fun r => { r with
        commit := .draining sc, cpc := s.core.named.1, cword := s.core.named.2, cpos := s.core.position }).onCore
        fun c => { c with blk := .commit })

/-- Has every command of the entry started and made its last write, with every queue empty (R119)? -/
def Core.drained (c : Core) : Bool :=
  c.eng.queues.toList.all (·.isEmpty) && c.eng.runs.all Run.chasing && c.eng.jobs.isEmpty && c.eng.waitJobs.isEmpty &&
    c.eng.leaves.isEmpty && c.eng.setfPend == 0

/-- Does one list of numbers come before another, from its first on? -/
def listLt : List Nat → List Nat → Bool
  | [], [] => false
  | [], _ :: _ => true
  | _ :: _, [] => false
  | a :: l, b :: m => decide (a < b) || (a == b && listLt l m)

/-- What orders equal commit points: partition, invocation queue, SEQ, logical core (R120). -/
def State.commitKey (s : State) (launch lcore : Nat) : List Nat :=
  match s.launchOf launch with
  | some l => [l.part.toNat, l.queue.toNat, l.seq.toNat, lcore]
  | none => [16, 0, 0, lcore]

/-- Does the check of a context come before another entry of the agenda of its cycle? -/
def State.commitsBefore (s : State) (launch lcore : Nat) (e : Ev) : Bool :=
  match e.act, e.target with
  | .commitCheck, .ctx m k => listLt (s.commitKey launch lcore) (s.commitKey m k)
  | _, _ => false

/-- At the end of a cycle, a drained COMMIT has its check six cycles on. -/
def State.checkDrain (s : State) : State :=
  match s.core.reg.commit with
  | .draining sc =>
    if s.core.drained then
      let t := s.onReg fun r => { r with commit := .checking sc }
      { t with agenda := Ev.insertBy (s.commitsBefore s.core.launch s.core.lcore) ⟨s.dcc + 6, ordCommit, s.me, .commitCheck⟩ t.agenda }
    else s
  | _ => s

/-- The entry no longer holds its lines as uncommitted. -/
def State.releaseLines (s : State) : State :=
  s.core.held.owned.foldl (fun (t : State) a => t.useLine a fun l => { l with uncommitted := l.uncommitted - 1 }) s

/-- The commit point: stores through h0 reach the local store, logged arrivals mark their records, and the publish set goes
to the slices. The region is committed from here on. -/
def State.commitPoint (s : State) (sc : Scope) : State :=
  let c := s.core
  let h := c.held
  let pub : PubSet :=
    { id := s.serial, launch := c.launch, lcore := c.lcore, sc := sc, at_ := s.dcc, plain := mergePlain h,
      lines := h.lines.map fun e => (e.1, e.2.val), entry := c.reg.entry, log := h.log, classes := h.classes, ends := [], vis := 0,
      flags := c.arch.csr.numf, parent := s.serial, pc := c.reg.cpc, word := c.reg.cword, pos := c.reg.cpos, applied := false, fenced := none }
  let t := { s.releaseLines with serial := s.serial + 1 }
  let t := (runsOf h.sbLs).foldl (fun (t : State) r => t.localWrite r.1 r.2) t
  let t := h.log.foldl (fun (t : State) e =>
    match e.op with
    | .arrive g pt => t.setArr g pt ArrRec.mark
    | _ => t) t
  let t := (t.onReg fun r => { r with isOpen := false, commit := .publishing pub.id }).onCore fun c =>
    { c with held := Held.empty, replay := { c.replay with mism := 0 } }
  let t := (t.startPublish pub).2
  match sc with
  | .core => t.endCommit pub.id (s.dcc + 1)
  | _ => t

/-- CHECK_MISMATCH of the commit digest: the main stream's value and the checker's (R329). -/
def State.digestRec (s : State) (checker : BitVec 32) : TrapRec :=
  { cause := cCHECK_MISMATCH, v0 := 0, v1 := ofFields [(1, 35), (7, 28), (s.cyc, 0)], v2 := s.core.reg.digest.setWidth 64
    v3 := checker.setWidth 64, access := none, stored := false }

/-- The digests of both streams are compared. The commit point is reached where they match and nothing has discarded the entry in this
cycle (R31, R119, R121, R335). -/
def execCommitCheck (s : State) : Out :=
  .next (match s.core.reg.commit with
    | .checking sc =>
      if !s.inRegion || s.core.trap.isSome then s
      else if s.core.reg.digest = s.core.cruiser.digest then s.commitPoint sc
      else s.takeTrap (s.digestRec s.core.cruiser.digest)
    | _ => s)

def execPublishApply (id : Nat) (s : State) : Out :=
  .next (match s.pubs.find? fun p => p.id == id with
    | some p => s.duePub p
    | none => s)

/-! Traps about the region itself name its REGION (R329). -/

def State.regionRec (s : State) (cause : BitVec 8) (data : Word) : TrapRec :=
  let c := { s.core with layer := s.core.reg.snap.layer, wpc := s.core.reg.snap.pc, wword := s.core.reg.word }
  let t := s.recOf c.named c.position cause data
  { t with v3 := c.position ||| ofFields [(1, 24), (s.cyc, 0)] }

/-- The watchdog: the commit point has not been reached in time (R121). -/
def execRegionLong (entry : Nat) (s : State) : Out :=
  .next (if s.inRegion && s.core.reg.entry == entry then
      s.takeTrap (s.regionRec cREGION_LONG (BitVec.ofNat 64 (s.core.reg.len % 2 ^ 24)))
    else s)

/-! Discard (R20, R122). -/

/-- Work of an entry that waits in the agenda; `rsc` bounds what was issued before it. -/
def entryWork (rsc : Nat) (home : Nat) (e : Ev) : Bool :=
  match e.act with
  | .scalarWriteback .. | .ploadInstall .. | .commitCheck | .setfFlagWrite .. | .waitfComplete .. | .regionLong ..
  | .alignTimeout .. | .cruiserRecordCheck .. => true
  | .rvflagsReply _ _ _ none => decide (rsc + home < e.due)
  | .rvflagsReply _ _ _ (some _) => decide (rsc + 2 * home < e.due)
  | .shapeGrant _ => decide (rsc + 32 < e.due)
  | _ => false

/-- The registers a discard restores: V only where it was set at REGION and not revoked since (R20). -/
def Region.restored (r : Region) : Arch :=
  { r.snap.arch with
    h := Vector.ofFn fun i =>
      let h := r.snap.arch.h.get i
      { h with v := h.v && !r.revoked.getLsbD i.val } }

/-- FULL is cleared for every slot that an engine wrote in the entry: one of its lines has W set. -/
def LocalStore.clearWritten (l : LocalStore) : LocalStore :=
  { l with tags := Vector.ofFn fun i =>
      let t := l.tags.get i
      if l.w.any fun n => n / 16 == i.val then { t with full := false } else t }

/-- Pins of lines are released (R203). -/
def State.unpin (s : State) (ls : List (Nat × Nat)) : State :=
  ls.foldl (fun (t : State) a =>
    { t with lines := t.lines.map fun l => if l.addr = lineOf a.1 then { l with pins := l.pins - 1 } else l }) s

/-- A discard lets go of the lines that the Yarder holds for the entry (R244). -/
def State.releaseYarder (s : State) : State :=
  { s with lines := s.lines.map fun l => { l with yarder := l.yarder.filter fun h => h.1 != s.core.reg.entry } }

/-- The context's arrival at an ALIGN is withdrawn (R149) (DEDUCED, log entry 85). -/
def State.leaveAlign (s : State) : State :=
  match s.core.blk with
  | .align g n => s.onGroup g fun x => { x with aligns := x.aligns.filter fun e => e.2 != n }
  | _ => s

/-- Every held write and every queued or running command of the open entry is dropped, but for chases of entries before (R244), and results
in flight are cancelled. What was issued before the entry stays outstanding (DEDUCED, log entry 16). -/
def State.dropEntry (s : State) : State :=
  let s := s.leaveAlign
  let c := s.core
  let r := c.reg
  let home := match s.launch.bind fun l => l.groups.head? with
    | some x => s.msgTime x
    | none => 20
  let stays (x : Run) : Bool := x.chasing && decide (x.id < r.entry)
  let t := s.releaseLines.releaseYarder.unpin (c.eng.runs.flatMap (·.pins))
  let t := t.cancel fun e => e.target == s.me && entryWork c.stat.rsc.toNat home e
  t.onCore fun c =>
    { c with
      ls := c.ls.clearWritten
      held := Held.empty
      eng := { c.eng with
        queues := Vector.replicate 6 [], runs := c.eng.runs.filter stays, free := Vector.replicate 6 0, lastW := Vector.replicate 6 0,
        setfPend := 0, forest := none, loading := none, jobs := [], waitJobs := [], leaves := [], banks := [], stall := none }
      hz := { c.hz with
        pend := c.hz.pend.filter fun p => c.io.any fun a => a.entry != r.entry &&
          (match a.kind with
          | .ld d .. | .amo d .. => p.dest == .s d
          | .xlate h => p.dest == .h h
          | _ => false)
        divs := [], fdivs := [] }
      io := c.io.filter fun a => a.entry != r.entry
      waits := c.waits.filter fun w => match w.kind with
        | .fence .. => false
        | _ => true
      blocked := []
      reissue := false
      reg := { c.reg with isOpen := false, commit := .none } }

/-- DISCARD: the entry is dropped, and the state of R20 returns, in the Cruiser too (R334). The context then waits for its re-entry. -/
def State.discard (s : State) : State :=
  State.rampDiscard <| s.dropEntry.onCore fun c =>
    let r := c.reg
    { c with
      arch := r.restored
      pc := r.snap.pc
      wpc := r.snap.pc
      wword := r.word
      layer := r.snap.layer
      acc := Vector.ofFn fun i => if r.amask.getLsbD i.val then r.snap.acc.get i else c.acc.get i
      blk := .reentry
      cruiser := c.cruiser.restart r.restored r.snap.pc }

/-- Which causes re-enter relaxed (R114). -/
def relaxes (cause : BitVec 8) : Bool := cause == cSCHED_MISS || cause == cSEQ_TAG || cause == cXLATE_LATE

/-- Handles that a re-entry translates again: valid at REGION, V clear now (R20). -/
def State.toRetranslate (s : State) : List (Fin 16) :=
  (List.finRange 16).filter fun i =>
    i.val != 0 && (s.core.reg.snap.arch.h.get i).v && !(s.core.arch.h.get i).v

/-- Is a request to stop pending on the core? -/
def Core.stopping (c : Core) : Bool := c.stop.any fun x => x.arrived

/-- A core stops (R319, R320): from cycle `t0` on its context is saved, or ends where its launch is killed. -/
def State.beginSave (s : State) (t0 : Nat) : State :=
  let kill := s.core.stop.any fun x => x.kill
  let t := s.cancel fun e => e.target == s.me && (match e.act with | .quantumExpiry _ => true | _ => false)
  let t := t.onCore fun c =>
    { c with
      life := if kill then .killed else .saving
      walk := none
      blk := match c.blk with
        | .fence _ | .probe _ | .commit | .halt => c.blk
        | _ => .none
      stop := c.stop.map fun x => { x with at_ := t0, arrived := true } }
  if kill then t else t.at_ (t0 + 16) (ordStop s.core.phys) s.here .saveAreaReserve

/-- Step 1 of R122: the restore takes 64 cycles, and a walk may take longer. A pending stop waits for no walk
(DEDUCED, log entry 34). -/
def State.reenter (s : State) (cause : BitVec 8) : State :=
  let d := if s.toRetranslate.isEmpty || s.core.stopping then (0, s) else s.delay
  let t := d.2.onCore fun c =>
    { c with blk := .reentry, replay := { c.replay with repend := true, relax := relaxes cause, cause := cause } }
  t.at_ (s.dcc + max 64 d.1) (ordLate s.core.phys) s.me .reentry

/-- Translate the handles again; the first fault, if any, with the state. -/
def State.retranslate (s : State) : List (Fin 16) → Option (BitVec 8 × Word) × State
  | [] => (none, s)
  | i :: rest =>
    let h := s.core.reg.snap.arch.h.get i
    match s.xlated s.core.part s.core.vf (BitVec.ofNat 64 (h.vpage.toNat * 2 ^ 12)) h.perms with
    | (.cause c data, t) => (some (c, data), t)
    | (.handle n, t) => State.retranslate ((t.onArch fun a => { a with h := a.h.set i.val n i.isLt }).relay (.h (BitVec.ofFin i) n)) rest

/-- A count that saturates at 255. -/
def sat255 (n : BitVec 8) : BitVec 8 := if n = 255 then 255 else n + 1

def minCnt (a b : BitVec 8) : BitVec 8 := if a.toNat ≤ b.toNat then a else b

/-- Step 2 of R122: the counts of R22, or REGION_LIVELOCK (R23). A replayed REGION_LIVELOCK re-enters with CNT at LIM
(R331). With LIM and CNT both 255 one discard more exceeds LIM, although CNT saturates (DESIGN CHOICE, log entry 86). -/
def State.countReentry (s : State) : State :=
  let cause := s.core.replay.cause
  let x := s.core.stat
  let lim := s.core.arch.csr.relim
  let go (x : Stat) : State :=
    (s.onStat fun _ => { x with lastc := cause }).onCore fun c => { c with blk := .none }
  if cause = cPREEMPT then go { x with pcnt := sat255 x.pcnt }
  else if cause = cREGION_LIVELOCK then go { x with cnt := minCnt x.cnt lim }
  else if lim.toNat < x.cnt.toNat + 1 then
    (s.onStat fun x => { x with cnt := minCnt x.cnt lim }).takeTrap (s.regionRec cREGION_LIVELOCK (cause.setWidth 64))
  else go { x with cnt := sat255 x.cnt }

/-- Is a result of an instruction before the entry still on its way? A re-entry issues with no writes pending (R95)
(DEDUCED, log entry 16). -/
def State.resultsPending (s : State) : Bool :=
  let again := s.agenda.any fun e => e.target == s.me && (match e.act with
    | .boundaryReplay _ => true
    | _ => false)
  (s.core.io.any fun a => match a.kind with
    | .ld .. | .amo .. | .xlate _ => !(a.performed && a.poison.isSome) || s.core.replay.access == some a.id && again
    | .st | .amop .. | .pref | .probe .. => false) ||
    s.agenda.any fun e => e.target == s.me && (match e.act with
      | .rvflagsReply .. => true
      | _ => false)

/-- The restore and the re-translations have ended, and the results of before the entry are there: the counts are made and the REGION
issues again. A pending stop saves the region-start state first (R32). -/
def execReentry (s : State) : Out :=
  .next (if s.core.blk = .reentry then
      if s.core.stopping then s.beginSave s.dcc
      else if s.resultsPending then s.at_ (s.dcc + 1) (ordLate s.core.phys) s.me .reentry
      else
      match s.retranslate s.toRetranslate with
      | (some (c, data), t) => t.takeTrap (t.regionRec c data)
      | (none, t) => t.countReentry.onHz fun z => { z with issueAt := max z.issueAt s.dcc }
    else s)

end Sys2Proof.Machine
end

