-- ==== Sys2Proof/Machine/Sync.lean ====
section
/-! DEFINITION. Fences, groups and time (R137 to R150), and the waits that end when a context's earlier boundary accesses
have performed (R36, R138, R142, R144, R171). -/

namespace Sys2Proof.Machine

/-! Waits. -/

/-- Earlier boundary accesses that have not performed. -/
def Core.unperformed (c : Core) (upto : Nat) : Bool :=
  c.io.any fun a => a.kind.mem && a.entry == 0 && decide (a.id < upto) && !a.performed

def WaitKind.isEvent : WaitKind → Bool
  | .event .. => true
  | .fence .. | .arrive .. | .rvinit .. | .bar _ | .halt => false

/-- Has some access or EVENT record of the context that was issued before still to perform at HOST (R36, R171, R291)? -/
def State.hostWaits (s : State) (c : Core) (upto : Nat) : Bool :=
  c.unperformed upto || s.recordsOut c.launch c.lcore upto || c.waits.any fun w => w.kind.isEvent && decide (w.id < upto)

/-- What a FENCE still waits for among the accesses of a context: in boundary code what has not performed, in a region the entry's
LD and PREF that have not returned (R138). -/
def Core.fenceWaits (c : Core) (mask : BitVec 16) (upto : Nat) : Bool :=
  c.io.any fun a =>
    decide (a.id < upto) && mask.getLsbD a.oc.toNat &&
      (if c.reg.isOpen then a.entry == c.reg.entry && (match a.kind with
         | .ld .. | .pref => true
         | _ => false)
       else a.kind.mem && !a.performed)

/-- Does a FENCE in boundary code wait for a publish set of the context: one of the named classes that its slices have still to apply
(R138, R294)? -/
def State.fencePubs (s : State) (c : Core) (mask : BitVec 16) (upto : Nat) : Bool :=
  !c.reg.isOpen && s.pubs.any fun p =>
    p.launch == c.launch && p.lcore == c.lcore && decide (p.id < upto) && p.classes.any fun x => mask.getLsbD x.2.toNat

def State.waitOver (s : State) (c : Core) (w : Wait) : Bool :=
  match w.kind with
  | .fence mask _ => !c.fenceWaits mask w.upto && !s.fencePubs c mask w.upto
  | .arrive .. | .rvinit .. | .bar _ => !c.unperformed w.upto
  | .halt => !s.hostWaits c w.upto
  | .event _ _ t => decide (t + 6 ≤ s.dcc) && !s.hostWaits c w.upto

/-- Add a wait for everything issued so far. -/
def State.addWait (s : State) (k : WaitKind) : State :=
  { s.onCore fun c => { c with waits := c.waits ++ [⟨s.serial, s.serial, k⟩] } with serial := s.serial + 1 }

/-- Is the context among the writers of the named classes? -/
def State.wrote (s : State) (mask : BitVec 16) (l : List Writer) : Bool :=
  l.any fun w => w.1 == s.core.launch && w.2.1 == s.core.lcore && mask.getLsbD w.2.2.toNat

/-- Does the scope ask a FENCE for more than performing at the home slice: are there second-tier lines to write back, or copies of
encoders to drop (R295)? -/
def State.fenceWork (s : State) (sc : Scope) (mask : BitVec 16) : Bool :=
  scopeTier sc && (s.lines.any fun l => l.dirty && isTier2 l.addr && s.wrote mask l.writers) ||
    scopeMedia sc && s.encs.any fun e => e.2.frames.any fun f => f.copies.any fun c => s.wrote mask c.2.writers

/-- The second-tier lines are written back, and the copies dropped. How long that takes is open (DESIGN CHOICE, log entry 39). -/
def State.fenceScope (s : State) (sc : Scope) (mask : BitVec 16) : Nat × State :=
  let mine := s.wrote mask
  let t := if scopeTier sc then
      s.lines.foldl (fun (t : State) l =>
        if l.dirty && isTier2 l.addr && mine l.writers then
          (t.writeBack l.addr).useLine l.addr fun m => { m with dirty := false, writers := [] }
        else t) s
    else s
  let t := if scopeMedia sc then t.dropCopies fun _ c => mine c.writers else t
  if s.fenceWork sc mask then t.delay else (0, t)

/-- An ARRIVE's message leaves, with the flags of that moment (R142). -/
def State.sendArrival (s : State) (g : BitVec 8) (pt : BitVec 5) (fl : BitVec 8) : State :=
  match s.group g with
  | some x => s.at_ (s.dcc + s.msgTime x) (ordLate s.core.lcore) s.me (.rvArrival g pt s.core.lcore fl)
  | none => s

def State.sendInit (s : State) (g : BitVec 8) (pt : BitVec 5) (n : BitVec 5) : State :=
  match s.group g with
  | some x => s.at_ (s.dcc + s.msgTime x) (ordLate s.core.lcore) s.me (.rvInitApply g pt n)
  | none => s

/-- Schedule an event for every member of a group. -/
def State.toMembers (s : State) (x : Group) (due : Nat) (i : Instr) : State :=
  x.members.foldl (fun (t : State) m => t.at_ due (ordLate m) (.ctx s.core.launch m) i) s

/-- A BAR's arrival is sent; the last member's fixes the release (R28, R144). -/
def State.barArrive (s : State) (g : BitVec 8) : State :=
  match s.group g with
  | none => s
  | some x =>
    let y := { x with bars := if x.bars.contains s.core.lcore then x.bars else x.bars ++ [s.core.lcore], lastBar := s.dcc }
    let t := s.onCore fun c => { c with barPending := true }
    if x.members.all y.bars.contains then
      (t.onGroup g fun x => { x with bars := [], lastBar := s.dcc }).toMembers x (s.dcc + s.groupDelay x) (.barRelease g)
    else t.onGroup g fun _ => y

/-- The record of the EVENT numbered `n` is posted (R171, R313). -/
def State.postEvent (s : State) (n : Nat) (code : BitVec 16) (data : Word) (at_ : Nat) : State :=
  s.postFor n s.core.launch s.core.lcore s.core.vf recEVENT false
    [ofFields [(s.core.vf.toNat, 24), (s.core.lcore % 256, 16), (code.toNat, 0)], data, BitVec.ofNat 64 at_]

/-- A wait is over. -/
def State.endWait (s : State) (w : Wait) : State :=
  match w.kind with
  | .fence mask sc =>
    let r := s.fenceScope (if s.inRegion then .core else sc) mask
    r.2.at_ (s.dcc + r.1) (ordLate s.core.phys) s.me (.fenceComplete w.id)
  | .arrive g pt => s.sendArrival g pt s.core.arch.csr.numf
  | .rvinit g pt n => s.sendInit g pt n
  | .bar g => s.barArrive g
  | .halt => s.at_ s.dcc (ordLate s.core.phys) s.me .halt
  | .event code data at_ => s.postEvent w.id code data at_

/-- The waits of the focused context that are over end, in their order. -/
def State.settleWaits (s : State) : State :=
  let ready := s.core.waits.filter (s.waitOver s.core)
  let t := s.onCore fun c => { c with waits := c.waits.filter fun w => !s.waitOver c w }
  ready.foldl (fun (t : State) w => t.endWait w) t

/-- Has some context a wait that is over? -/
def State.waitsOver (s : State) : Option Core :=
  (s.cores ++ s.saved).find? fun c => c.waits.any (s.waitOver c)

/-! FENCE. The firmware context has no access that a FENCE could wait for (R10, DEDUCED, log entry 17). -/

def execFence (sc : Scope) (mask : BitVec 16) (s : State) : Out :=
  let waits := s.core.fenceWaits mask s.serial || s.fencePubs s.core mask s.serial || !s.inRegion && s.fenceWork sc mask
  .next (if !s.firmware && waits then
      (s.addWait (.fence mask sc)).onCore fun c => c.hold (.fence s.serial)
    else s)

def execFenceComplete (id : Nat) (s : State) : Out :=
  .next (s.onCore fun c => if c.blk = .fence id then { c with blk := .none } else c).unblock

/-! Rendezvous points (R139 to R145). -/

def execArrive (g : BitVec 8) (pt : BitVec 5) (s : State) : Out :=
  .next (s.userOnly
    (if !s.groupOk g true then s.illegal
     else if s.inRegion then s.logCombine ⟨0, .arrive g pt⟩
     else
      let t := s.setArr g pt ArrRec.mark
      if s.core.unperformed s.serial then t.addWait (.arrive g pt) else t.sendArrival g pt s.core.pre.csr.numf))

/-- The message time of a member, by the core it runs on. -/
def State.memberTime (s : State) (x : Group) (lcore : Nat) : Nat :=
  match (s.cores ++ s.saved).find? (Core.isCtx s.core.launch lcore) with
  | some c => if dieOf c.phys = x.homeDie then 20 else 60
  | none => 60

/-- Key of a stream slot of the encode engine of a partition (R372). -/
def encKey (p : BitVec 4) (slot : Nat) : Nat := p.toNat * 32 + slot

/-- Is this an enabled stream whose frames start at completions of a point of a launch (R372, R374)? -/
def Enc.follows (e : Enc) (l : Launch) (g : BitVec 8) (pt : BitVec 5) : Bool :=
  e.w0.getLsbD 63 && e.w0.getLsbD 60 && wfield e.w2 63 52 == l.queue.toNat && wfield e.w2 47 40 == g.toNat &&
    wfield e.w2 36 32 == pt.toNat && wfield e.w2 31 0 == l.seq.toNat

/-- A completion of a point starts a frame of each stream that follows it, 20 cycles on; `frameStart` comes 16 cycles before
the start, with the fetch of the first line (R374, DESIGN CHOICE, log entry 26). -/
def State.startFrames (s : State) (g : BitVec 8) (pt : BitVec 5) : State :=
  match s.launch with
  | none => s
  | some l =>
    s.encs.foldl (fun (t : State) e =>
      if e.1 / 32 == l.part.toNat && e.2.follows l g pt then
        t.at_ (s.dcc + 20 - 16) (ordHost + e.1 % 32) .chip (.frameStart l.part (BitVec.ofNat 5 e.1))
      else t) s

/-- The point has changed; on completion every core waiting on the generation just completed is released (R141). -/
def State.pointStep (s : State) (g : BitVec 8) (pt : BitVec 5) (x : Group) (p : RvPoint) (done : Bool) (old : BitVec 8) :
    State :=
  let waits (w : BitVec 5 × Nat × Option (BitVec 8) × Nat) : Bool := w.1 == pt && w.2.2.1 == some old
  let t := s.onGroup g fun y =>
    let z := y.setPoint pt.toNat p
    if done then { z with waiters := z.waiters.filter fun w => !waits w } else z
  if done then
    let t := t.startFrames g pt
    (x.waiters.filter waits).foldl (fun (u : State) w =>
      u.at_ (s.dcc + s.memberTime x w.2.1) (ordLate w.2.1) (.ctx s.core.launch w.2.1) (.waitrvRelease g pt (some old))) t
  else t

/-- An arrival reaches its point, and is answered with the generation it joined (R141, R143). -/
def execRvArrival (g : BitVec 8) (pt : BitVec 5) (lcore : Nat) (fl : BitVec 8) (s : State) : Out :=
  .next (match s.group g with
    | none => s
    | some x =>
      let p := x.point pt.toNat
      let r := p.arrive fl
      (s.pointStep g pt x r.1 r.2 p.gen).at_ (s.dcc + s.memberTime x lcore) (ordLate lcore) (.ctx s.core.launch lcore)
        (.rvAnswer g pt p.gen))

def execRvInitApply (g : BitVec 8) (pt : BitVec 5) (n : BitVec 5) (s : State) : Out :=
  .next (match s.group g with
    | none => s
    | some x =>
      let p := x.point pt.toNat
      let r := p.init n.toNat
      s.pointStep g pt x r.1 r.2 p.gen)

/-- Is a message of the context to the point, its place among the waiters, or its release still under way? A WAITRV that is issued
again after a restore sends no second message then (R146). -/
def State.waitSent (s : State) (g : BitVec 8) (pt : BitVec 5) : Bool :=
  ((s.group g).any fun x => x.waiters.any fun w => w.1 == pt && w.2.1 == s.core.lcore) ||
    s.agenda.any fun e => e.target == s.me && (match e.act with
      | .waitrvRelease h q _ => h == g && q == pt
      | _ => false)

/-- A WAITRV's message sets out for the point. -/
def State.sendWait (s : State) (g : BitVec 8) (pt : BitVec 5) : State :=
  match if s.waitSent g pt then none else s.group g with
  | some x => s.at_ (s.dcc + s.msgTime x) (ordLate s.core.phys) s.me (.waitrvRelease g pt none)
  | none => s

/-- The answer to an arrival; a WAITRV that waited for it goes on. -/
def execRvAnswer (g : BitVec 8) (pt : BitVec 5) (gen : BitVec 8) (s : State) : Out :=
  let t := s.setArr g pt fun r => r.answer gen
  .next (if s.core.blk = .waitrv g pt && (s.core.arrRec g pt).pending && !(t.core.arrRec g pt).pending then t.sendWait g pt
    else t)

def execWaitrv (g : BitVec 8) (pt : BitVec 5) (s : State) : Out :=
  .next (s.userOnly
    (if !s.groupOk g true then s.illegal
     else s.boundaryOnly
      (let t := s.onCore fun c => { c with blk := .waitrv g pt }
       let r := s.core.arrRec g pt
       if r.valid && r.pending then t else t.sendWait g pt)))

/-- With no generation: the WAITRV reaches the point, which fixes its target and answers at once if that has completed. With
one: the release reaches the core, and the record is invalid from then on (R143). -/
def execWaitrvRelease (g : BitVec 8) (pt : BitVec 5) (gen : Option (BitVec 8)) (s : State) : Out :=
  .next (match gen, s.group g with
    | none, some x =>
      let r := s.core.arrRec g pt
      let now := (x.point pt.toNat).gen
      let target := if r.valid then r.gen else now
      let t := s.setArr g pt fun r => { r with valid := true, pending := false, gen := target }
      if target = now then
        t.onGroup g fun y => { y with waiters := y.waiters ++ [(pt, s.core.lcore, some target, s.dcc)] }
      else t.at_ (s.dcc + s.msgTime x) (ordLate s.core.phys) s.me (.waitrvRelease g pt (some target))
    | some t, _ =>
      let r := s.core.arrRec g pt
      if s.core.blk = .waitrv g pt ∧ r.valid = true ∧ r.pending = false ∧ r.gen = t then
        ((s.setArr g pt fun r => { r with valid := false, pending := false }).onCore fun c =>
          { c.doneWith (· == .waitrv g pt) with blk := .none }).unblock
      else s
    | none, none => s)

/-- RVINIT names a count from 1 to 28 (R141). -/
def execRvinit (g : BitVec 8) (pt : BitVec 5) (a : Reg) (s : State) : Out :=
  let n := s.src a
  .next (s.userOnly
    (if !s.groupOk g true || n == 0 || decide (28 < n.toNat) then s.illegal
     else if s.inRegion then s.logCombine ⟨0, .rvinit g pt (n.setWidth 5)⟩
     else s.sendInit g pt (n.setWidth 5)))

/-- Reads of a point come after the arrivals of their cycle (R145). -/
def ordRead : Nat := 3900

def execRvflags (g : BitVec 8) (pt : BitVec 5) (a : Reg) (s : State) : Out :=
  .next (s.userOnly
    (match s.groupOk g true, s.group g with
    | true, some x =>
      (s.pending (.s a) (some (s.dcc + 2 * s.msgTime x))).at_ (s.dcc + s.msgTime x) ordRead s.me (.rvflagsReply g pt a none)
    | _, _ => s.illegal))

/-- With no word: the message is at the point, and the word is read. With one: it reaches the core. -/
def execRvflagsReply (g : BitVec 8) (pt : BitVec 5) (a : Reg) (v : Option Word) (s : State) : Out :=
  .next (match v, s.group g with
    | none, some x =>
      s.at_ (s.dcc + s.msgTime x) ordResult s.me (.rvflagsReply g pt a (some (x.point pt.toNat).word))
    | none, none => s
    | some w, x =>
      let early := match x with
        | some x => decide (s.dcc ≤ s.core.stat.rsc.toNat + 2 * s.msgTime x)
        | none => false
      let f : Arch → Arch := fun r => r.setS a w
      let t := ((s.onArch f).settled (.s a)).relay (.s a w)
      if early && s.inRegion then t.onReg fun r => { r with snap := { r.snap with arch := f r.snap.arch } } else t)

/-! BAR (R28, R144, R146). -/

/-- A BAR issued again after a restore does not arrive again; it completes at once if its release has come. -/
def execBar (g : BitVec 8) (s : State) : Out :=
  .next (s.userOnly
    (if !s.groupOk g false then s.illegal
     else s.boundaryOnly
      (if s.core.reissue then
        (if s.core.barPending then s.onCore fun c => { c with blk := .bar g } else s)
       else
        let t := s.onCore fun c => { c with blk := .bar g, barPending := true }
        if s.core.unperformed s.serial then t.addWait (.bar g) else t.barArrive g)))

def execBarRelease (g : BitVec 8) (s : State) : Out :=
  .next (s.onCore fun c =>
    if c.blk = .bar g then { c.doneWith (· == .bar g) with barPending := false, blk := .none } else { c with barPending := false }).unblock

/-! FLAGW, DCCR, WAITC (R147, R148, R150). -/

def setFlag (a : Arch) (n : BitVec 6) (f : EFlag → EFlag) : Arch := { a with flags := a.flags.set n.toNat (f (a.flags.get n.toFin)) n.isLt }

/-- A SETF of the same cycle applies after the FLAGW (R153). -/
def execFlagw (n : BitVec 6) (a : Reg) (s : State) : Out :=
  .next (s.userOnly
    (if s.core.eng.setfNow.getLsbD n.toNat then s
     else s.onArch fun x => setFlag x n fun f => { f with set := s.src a != 0 }))

def execDccr (a : Reg) (s : State) : Out := .next (s.putS a (BitVec.ofNat 64 s.dcc))

/-- The next bundle issues no sooner than the cycle s(a). Beside another wait of its bundle the context comes to wait here when that is
over (`State.unblock`); in the firmware context it is no more than that. -/
def execWaitc (a : Reg) (s : State) : Out :=
  let t := (s.src a).toNat
  .next (if t ≤ s.dcc + 1 then s
    else if s.firmware then s.onHz fun z => { z with issueAt := max z.issueAt t }
    else if s.core.blk != .none then s
    else (s.onCore fun c => { c with blk := .waitc t }).at_ t (ordLate s.core.phys) s.me .waitcExpiry)

def execWaitcExpiry (s : State) : Out :=
  .next (s.onCore fun c =>
    match c.blk with
    | .waitc t => if t ≤ s.dcc then { c with blk := .none } else c
    | .none | .bar _ | .waitrv .. | .align .. | .fence _ | .probe _ | .commit | .halt | .reentry | .replay _ | .yield => c)

/-! ALIGN (R149). -/

/-- Every member has issued its ALIGN: all of them go on in one cycle. -/
def State.alignAll (s : State) (g : BitVec 8) (x : Group) : State :=
  (s.onGroup g fun y => { y with aligns := [] }).toMembers x (s.dcc + s.groupDelay x) (.alignComplete g)

def execAlign (g : BitVec 8) (timeout : BitVec 24) (s : State) : Out :=
  .next (s.userOnly
    (if !s.memberOf g then s.illegal
     else
      match s.group g with
      | none => s.illegal
      | some x =>
        let al := (x.aligns.filter fun e => e.1 != s.core.lcore) ++ [(s.core.lcore, s.serial)]
        let t := { s.onCore fun c => { c with blk := .align g s.serial } with serial := s.serial + 1 }
        let t := t.onGroup g fun y => { y with aligns := al }
        if x.members.all fun m => al.any fun e => e.1 == m then t.alignAll g x
        else t.at_ (s.dcc + timeout.toNat + 1) (ordLate s.core.phys) s.me (.alignTimeout s.serial)))

def isAlign : Instr → Bool
  | .align .. => true
  | _ => false

/-- The common cycle; the firmware context takes no slot in it. -/
def execAlignComplete (g : BitVec 8) (s : State) : Out :=
  .next (s.onCore fun c =>
    match c.blk with
    | .align h _ => if h = g then { c.doneWith isAlign with blk := .none, fw := { c.fw with hold := s.dcc } } else c
    | _ => c).unblock

/-- The word of the context's ALIGN is the one being executed. -/
def Core.atAlign (c : Core) : Core :=
  match c.blocked.find? fun b => isAlign b.act with
  | some b => { c with wpc := b.wpc, wword := b.wword }
  | none => c

/-- An ALIGN that has not completed in time withdraws its arrival and traps at its own bundle, of which only the blocking instruction
issues again. -/
def execAlignTimeout (serial : Nat) (s : State) : Out :=
  .next (match s.core.blk with
    | .align g n =>
      let waiting := (s.group g).any fun x => x.aligns.contains (s.core.lcore, serial)
      if n = serial ∧ waiting = true then
        ((s.onGroup g fun x => { x with aligns := x.aligns.filter fun e => e.2 != serial }).onCore fun c =>
          { c.atAlign with blk := .none, reissue := true }).fault cALIGN_TIMEOUT (g.setWidth 64)
      else s
    | _ => s)

end Sys2Proof.Machine
end

