-- ==== Sys2Proof/Machine/System.lean ====
section
/-! DEFINITION. CSRs and system instructions (R21, R165 to R174), the context image (R174) and LAYER (R164, R343 to
R346). -/

namespace Sys2Proof.Machine

/-! Reading a CSR (R21 to R24). -/

/-- GMEMB: the valid entries hold their group ids in ascending order. -/
def Core.gmemb (c : Core) : Word :=
  ofFields ((List.range 4).flatMap fun i =>
    match c.groups[i]? with
    | some g => [(1, 36 + i), (g.toNat, 8 * i)]
    | none => [])

def Core.recnt (c : Core) : Word := ofFields [(c.stat.pcnt.toNat, 8), (c.stat.cnt.toNat, 0)]

def Core.rstat (c : Core) : Word := ofFields [(c.stat.lastc.toNat, 8), (bit c.stat.relax, 0)]

/-- The CSRs a discard restores, as their words. BLEFT is computed from the open window. -/
def CsrR.burstcfg (c : CsrR) (bleft : Nat) : Word := ofFields [(bleft, 16), (c.hold.toNat, 0)]

/-- The value of a CSR; those that an instruction of the bundle may write are read from before the bundle (R75). -/
def State.csr (s : State) (n : Csr) : Word :=
  let c := s.core
  let r := c.pre.csr
  match n with
  | .dcc => BitVec.ofNat 64 s.dcc
  | .rsc => c.stat.rsc
  | .lcore => BitVec.ofNat 64 c.lcore
  | .pid => c.part.setWidth 64
  | .vfid => c.vf.setWidth 64
  | .gmemb => c.gmemb
  | .recnt => c.recnt
  | .relim => r.relim.setWidth 64
  | .rstat => c.rstat
  | .lscale => r.lscale.setWidth 64
  | .lscfg => r.lscfg
  | .lsstat => r.lsstat
  | .srseed => r.srseed
  | .steptag => r.steptag.setWidth 64
  | .trapc => c.stat.trapc.setWidth 64
  | .trapv0 => c.stat.trapv0
  | .trapv1 => c.stat.trapv1
  | .trapv2 => c.stat.trapv2
  | .trapv3 => c.stat.trapv3
  | .numf => r.numf.setWidth 64
  | .fshare => c.fshare.setWidth 64
  | .errinjA => c.errinjA
  | .errinjC => c.errinjC
  | .burstcfg => r.burstcfg (c.eng.array.bleft s.dcc)
  | .shapeg => r.shapeg.setWidth 64

/-- The CSRs that only the firmware context may read and write (R34). -/
def csrPrivileged : Csr → Bool
  | .fshare | .errinjA | .errinjC => true
  | _ => false

/-- The firmware context reads every CSR: R10 keeps the user's state from it, not the reading of user CSRs (DESIGN CHOICE, log
entry 87). -/
def execCsrr (a : Reg) (c : Csr) (s : State) : Out :=
  .next (if csrPrivileged c && !s.firmware then s.fault cPRIV 0 else s.putS a (s.csr c))

/-! Writing a CSR (R166, R347 to R349). -/

/-- The bits of a CSR that a write may set without ILLEGAL; none where every field is read only. -/
def csrWritable : Csr → Option Nat
  | .relim | .numf | .fshare | .burstcfg => some 0xFF
  | .lscale => some 0xFFFFFFFF
  | .lscfg => some 0x0000FFFF0000FFFF
  | .lsstat => some 0x0000000EFFFFFFFF
  | .srseed => some (2 ^ 64 - 1)
  | .steptag => some 0xFFFF
  | .errinjA => some 0x000FFFFFFFFFFFF8
  | .errinjC => some 0x1F3F
  | _ => none

/-- CLEAN := min(CLEAN, INTV) (R349). -/
def capClean (lsstat : Word) (intv : Nat) : Word :=
  if intv < wfield lsstat 15 0 then ofFields [(wfield lsstat 63 16, 16), (intv, 0)] else lsstat

/-- Values that a CSR refuses although their bits may be written. -/
def csrRefuses (c : Csr) (v : Word) : Bool :=
  match c with
  | .lscale => v == 0 || decide (0x7F800000 ≤ v.toNat)
  | .lscfg =>
    let f := wfield v 7 0
    let e := wfield v 15 8
    wfield v 47 32 == 0 || f == 0 || f == 255 || e == 0 || e == 255 || decide (e < f)
  | .errinjC => decide (4 < wfield v 10 8)
  | _ => false

/-- ERRINJ_C: FIRED is set by the device only and cleared by a write of 0 (R341). -/
def errinjWrite (old v : Word) : Word := if old.getLsbD 12 then v else setBit v 12 false

/-- The write itself. A flag set in the present cycle stays set in NUMF (R56). -/
def State.writeCsr (s : State) (c : Csr) (v : Word) : State :=
  match c with
  | .relim => s.onCsr fun r => { r with relim := v.setWidth 8 }
  | .lscale => s.onCsr fun r => { r with lscale := v.setWidth 32 }
  | .lscfg => s.onCsr fun r => { r with lscfg := v, lsstat := capClean r.lsstat (wfield v 47 32) }
  | .lsstat => s.onCsr fun r => { r with lsstat := r.lsstat &&& ~~~v }
  | .srseed => s.onCsr fun r => { r with srseed := v }
  | .steptag => s.onCsr fun r => { r with steptag := v.setWidth 16 }
  | .numf => s.onCsr fun r => { r with numf := (r.numf &&& ~~~(v.setWidth 8)) ||| (r.numf &&& s.core.numfNow) }
  | .burstcfg => (s.onCsr fun r => { r with hold := v.setWidth 8 }).rampWatch
  | .fshare => s.onCore fun k => { k with fshare := v.setWidth 8 }
  | .errinjA => s.onCore fun k => { k with errinjA := v }
  | .errinjC => s.onCore fun k => { k with errinjC := errinjWrite k.errinjC v }
  | _ => s

/-- The firmware context writes the privileged CSRs only (DEDUCED, log entry 17). -/
def execCsrw (c : Csr) (a : Reg) (s : State) : Out :=
  let v := s.src a
  .next (if csrPrivileged c && !s.firmware then s.fault cPRIV 0
    else if s.firmware && !csrPrivileged c then s.illegal
    else
      match csrWritable c with
      | none => s.illegal
      | some m =>
        if v &&& ~~~(BitVec.ofNat 64 m) ≠ 0 || csrRefuses c v then s.illegal else s.writeCsr c v)

/-! LSSTEP and SEED (R172, R173). -/

/-- A power of two in FP32, by its biased exponent (R347). -/
def pow2Pat (e : Nat) : Nat := e * 2 ^ 23

/-- The scale, and CLEAN, FLOVF, FLR, CEILS, SKIP, after a step. LSCALE is positive and finite (R349), so its patterns
compare as numbers. -/
def lsStep (bad : Bool) (scale : Word32) (cfg st : Word) : Word32 × Word :=
  let floor := pow2Pat (wfield cfg 7 0)
  let ceil := pow2Pat (wfield cfg 15 8)
  let intv := wfield cfg 47 32
  let flovf := wfield st 31 16
  let x := scale.toNat
  let pack (skip ceils flr : Bool) (flovf clean : Nat) : Word :=
    ofFields [(bit skip, 35), (bit ceils, 34), (bit flr, 33), (flovf, 16), (clean, 0)]
  if bad then
    if floor < x then
      (BitVec.ofNat 32 (max (fpMul x 0x3F000000 .rne false 0).pat floor), pack true (st.getLsbD 34) (st.getLsbD 33) flovf 0)
    else (scale, pack true (st.getLsbD 34) true (min (flovf + 1) 65535) 0)
  else
    let clean := if wfield st 15 0 < intv then wfield st 15 0 + 1 else wfield st 15 0
    if clean = intv then
      if x < ceil then
        (BitVec.ofNat 32 (min (fpMul x 0x40000000 .rne false 0).pat ceil),
          pack false (st.getLsbD 34) (st.getLsbD 33) flovf 0)
      else (scale, pack false true (st.getLsbD 33) flovf clean)
    else (scale, pack false (st.getLsbD 34) (st.getLsbD 33) flovf clean)

def execLsstep (a : Reg) (s : State) : Out :=
  let r := s.core.pre.csr
  let n := lsStep (s.src a != 0) r.lscale r.lscfg r.lsstat
  .next (s.userOnly (s.onCsr fun c => { c with lscale := n.1, lsstat := n.2 }))

/-- The mixing steps of R52. -/
def mixSeed (x : Word) : Word :=
  let y := (x ^^^ x >>> 33) * 0x8F3A5C6127E9B4D5
  y ^^^ y >>> 29

def execSeed (a : Reg) (s : State) : Out := .next (s.userOnly (s.onCsr fun c => { c with srseed := mixSeed (s.src a) }))

/-! TRAP, NOP, EVENT. -/

def execTrap (code : BitVec 16) (s : State) : Out := .next (s.fault cSWTRAP (code.setWidth 64))

def execNop (s : State) : Out := .next s

/-- EVENT is posted once every earlier boundary access has performed at scope HOST, and the Cruiser's copy has been compared, 6 cycles
on (R335). -/
def execEvent (code : BitVec 16) (a : Reg) (s : State) : Out :=
  .next (s.userOnly (s.boundaryOnly (s.addWait (.event code (s.src a) s.dcc))))

/-! HALT and the end of a launch (R36, R37, R313). -/

/-- The completion record of a launch: `cause` 0, or the cause that killed it. -/
def State.complete (s : State) (l : Launch) (cause : BitVec 8) : State :=
  let t := s.post l.vf recCOMPLETE l.late
    [ofFields [(l.queue.toNat, 32), (l.seq.toNat, 0)], BitVec.ofNat 64 l.lastHalt, cause.setWidth 64]
  t.onDisp fun d => { d with doneLog := d.doneLog ++ [(l.queue, l.seq)] }

/-- The context ends: the core reports to the dispatcher, and a HALT is a scheduling point. The last of a launch completes
it (DEDUCED, log entry 47). -/
def State.halt (s : State) : State :=
  let c := s.core
  let t := s.onCore fun c => { c with life := .halted, blk := .none }
  let t := t.onLaunch c.launch fun l => { l with halted := l.halted ++ [c.lcore], lastHalt := s.dcc }
  let t := t.decision c.part
  match t.launch with
  | some l =>
    if l.halted.length = l.n then (t.onLaunch l.id fun l => { l with state := .done }).complete { l with lastHalt := s.dcc } 0
    else t
  | none => t

/-- Does a HALT of the context still wait? -/
def Core.halting (c : Core) : Bool := c.waits.any fun w => w.kind == .halt

/-- HALT waits for every earlier boundary access to perform at scope HOST; a second entry, when they have, ends the
context. -/
def execHalt (s : State) : Out :=
  .next (s.userOnly
    (if s.core.blk = .halt then (if s.core.halting then s else s.halt)
     else
      s.notInLayer (s.boundaryOnly
        (if s.hostWaits s.core s.serial then (s.addWait .halt).onCore fun c => { c with blk := .halt } else s.halt))))

/-- YIELD is a scheduling point: the decision takes the core or lets the context go on, four cycles later (R169)
(DESIGN CHOICE, log entry 33). -/
def execYield (s : State) : Out :=
  .next (s.userOnly (s.boundaryOnly
    (((s.onCore fun c => c.hold .yield).onHz fun z => { z with issueAt := max z.issueAt (s.dcc + 4) }).decision
      s.core.part)))

/-- ERET ends the firmware context's service routine (R174). -/
def execEret (s : State) : Out :=
  .next (if s.firmware then s.onCore fun c => { c with fw := { c.fw with active := false } } else s.fault cPRIV 0)

/-! The context image (R174). -/

/-- Words of a mask-stack entry, lanes 63 to 0 first. -/
def maskBytes (m : BitVec 128) : List Byte := leBytes 16 m.toNat

def padTo (n : Nat) (bs : List Byte) : List Byte := (bs ++ List.replicate (n - bs.length) 0).take n

/-- PSTAT of a slot (R187). -/
def ChiselSlot.pstat (c : ChiselSlot) : Word :=
  ofFields ([(c.ctl.toNat, 32), (c.sflg.toNat, 24), (c.prog.length, 0)] ++
    match c.port with
    | some p => [(1, 15), (p.code, 13)]
    | none => [])

/-- An engine flag word (R19) and a tile tag word (R17). -/
def EFlag.word (f : EFlag) : Nat := bit f.set * 2 ^ 31 + f.sseq.toNat

def TileTag.word (t : TileTag) : Nat := bit t.full * 2 ^ 31 + t.fmt.toNat * 2 ^ 16 + t.seq.toNat

/-- The user CSRs in the order of R21, the privileged ones omitted. -/
def Core.imageCsrs (c : Core) (dcc : Nat) : List Word :=
  let r := c.arch.csr
  let x := c.stat
  [BitVec.ofNat 64 dcc, x.rsc, BitVec.ofNat 64 c.lcore, c.part.setWidth 64, c.vf.setWidth 64, c.gmemb, c.recnt,
   r.relim.setWidth 64, c.rstat, r.lscale.setWidth 64, r.lscfg, r.lsstat, r.srseed, r.steptag.setWidth 64,
   x.trapc.setWidth 64, x.trapv0, x.trapv1, x.trapv2, x.trapv3, r.numf.setWidth 64,
   r.burstcfg (c.eng.array.bleft dcc), r.shapeg.setWidth 64]

/-- The address of the bundle that issues next, or of which the blocking instruction does (R320). -/
def Core.nextPc (c : Core) : Word := if c.reissue then c.bpc else c.pc

/-- The saved PC: inside a LAYER sequence that of the LAYER bundle (R346). -/
def Core.savedPc (c : Core) : Word :=
  match c.layer with
  | some l => l.bundle
  | none => c.nextPc

/-- Control has passed beyond the last word of a LAYER sequence and no region is open: the context goes on after the LAYER (R345). One
that is blocked at an instruction that would issue again has not passed it yet (R320). -/
def State.endLayer (s : State) : State :=
  let blocked := s.core.reissue || (match s.core.blk with
    | .bar _ | .waitrv .. | .waitc _ | .align .. => true
    | _ => false)
  match s.core.layer with
  | some l =>
    if l.words.length ≤ s.core.pc.toNat / 8 ∧ blocked = false ∧ s.inRegion = false then
      s.onCore fun c => { c with layer := none, pc := l.ret }
    else s
  | none => s

def recWords (r : CmdRec) : List Word := [r.w0, r.w1, r.w2, r.w3, r.w4, r.w5, r.w6, r.w7]

/-- Bytes from offset `o` of an image to offset `e`: the rest of a field that the context does not fill, and the gaps, are open
(DESIGN CHOICE, log entry 29). `k` numbers the free values. -/
def fillTo (k o e : Nat) (bs : List Byte) : List Byte :=
  (bs ++ (List.range (e - o - bs.length)).map fun i => Config.freeByte (k + o + bs.length + i)).take (e - o)

/-- The image of the user context. -/
def Core.image (c : Core) (dcc k : Nat) : List Byte :=
  let a := c.arch
  let r := c.replay
  let w8 (ws : List Word) : List Byte := ws.flatMap fun w => leBytes 8 w.toNat
  let w4 (ws : List Nat) : List Byte := ws.flatMap (leBytes 4)
  w8 ((List.range 64).map fun i => a.sreg (BitVec.ofNat 6 i)) ++
  leBytes 8 c.savedPc.toNat ++
  leBytes 8 (a.p.toNat + a.mask.length * 2 ^ 8) ++
  fillTo k 0x210 0x300 (a.mask.reverse.flatMap maskBytes) ++
  a.h.toList.flatMap (fun h => w8 [handleWord0 h, handleWord1 h]) ++
  fillTo k 0x400 0x500 (w8 (c.imageCsrs dcc)) ++
  w4 (a.flags.toList.map EFlag.word) ++
  w4 (a.ports.toList.flatMap fun p => (p.k.toList ++ p.c.toList).map BitVec.toNat) ++
  w4 (a.slots.toList.flatMap fun t => [t.ctl.toNat + t.sflg.toNat * 2 ^ 24, t.pstat.toNat % 2 ^ 16]) ++
  c.arr.toList.flatMap (fun r => leBytes 2 (bit r.pending * 2 ^ 9 + bit r.valid * 2 ^ 8 + r.gen.toNat)) ++
  (List.range 16).flatMap (fun i => fillTo k (0x800 + 64 * i) (0x840 + 64 * i)
    (w4 (((a.slots.toList.getD i ChiselSlot.empty).prog).map BitVec.toNat))) ++
  leBytes 4 ((List.range 4).foldl (fun n i => n + (c.acc.toList.getD i Acc.empty).tag.toNat * 2 ^ (6 * i))
    (bit c.barPending * 2 ^ 31)) ++
  leBytes 4 (bit r.repend + bit r.relax * 2 + r.cause.toNat * 2 ^ 8 + r.mism.toNat * 2 ^ 16 + r.count.toNat * 2 ^ 24) ++
  List.replicate 1016 0 ++
  a.tmpl.toList.flatMap fun t => w8 (recWords t)

/-- A number of `n` bytes at offset `o` of an image. -/
def imageAt (bs : List Byte) (o n : Nat) : Nat := leNat ((bs.drop o).take n)

def handleOf (w0 w1 : Nat) : Handle :=
  { v := w0 / 2 ^ 63 % 2 == 1, rd := w0 / 2 ^ 62 % 2 == 1, wr := w0 / 2 ^ 61 % 2 == 1, at_ := w0 / 2 ^ 60 % 2 == 1,
    lgsz := BitVec.ofNat 6 (field w0 57 52), pbase := BitVec.ofNat 40 (field w0 51 12),
    vpage := BitVec.ofNat 44 (field w1 55 12) }

/-- The registers an image holds. Reserved bits read as zero (R7). -/
def archOf (bs : List Byte) : Arch :=
  let w (o : Nat) : Nat := imageAt bs o 8
  let csr (i : Nat) : Word := BitVec.ofNat 64 (w (0x400 + 8 * i))
  let word4 (o : Nat) : Nat := imageAt bs o 4
  { s := Vector.ofFn fun i => BitVec.ofNat 64 (w (8 * i.val))
    p := BitVec.ofNat 8 (imageAt bs 0x208 1)
    h := (Vector.ofFn fun (i : Fin 16) => handleOf (w (0x300 + 16 * i.val)) (w (0x308 + 16 * i.val))).set 0 Handle.local
    mask := ((List.range (min 8 (field (w 0x208) 11 8))).map fun i => BitVec.ofNat 128 (imageAt bs (0x210 + 16 * i) 16)).reverse
    slots := Vector.ofFn fun i =>
      let st := word4 (0x6C0 + 8 * i.val)
      let b := word4 (0x6C4 + 8 * i.val)
      { prog := (List.range (min 16 (b % 32))).map fun j => BitVec.ofNat 32 (word4 (0x800 + 64 * i.val + 4 * j))
        ctl := BitVec.ofNat 15 (st % 2 ^ 13)
        sflg := BitVec.ofNat 8 (st / 2 ^ 24)
        port := if b / 2 ^ 15 % 2 = 1 then Port.ofCode (b / 2 ^ 13 % 4) else none }
    ports := Vector.ofFn fun i =>
      { k := Vector.ofFn fun j => BitVec.ofNat 32 (word4 (0x600 + 48 * i.val + 4 * j.val))
        c := Vector.ofFn fun j => BitVec.ofNat 32 (word4 (0x620 + 48 * i.val + 4 * j.val)) }
    flags := Vector.ofFn fun i =>
      let f := word4 (0x500 + 4 * i.val)
      { set := f / 2 ^ 31 % 2 == 1, sseq := BitVec.ofNat 16 f }
    tmpl := Vector.ofFn fun i =>
      let o := 0x1000 + 64 * i.val
      let x (j : Nat) : Word := BitVec.ofNat 64 (w (o + 8 * j))
      { w0 := x 0, w1 := x 1, w2 := x 2, w3 := x 3, w4 := x 4, w5 := x 5, w6 := x 6, w7 := x 7 }
    csr :=
      { relim := (csr 7).setWidth 8, lscale := (csr 9).setWidth 32, lscfg := csr 10 &&& 0x0000FFFF0000FFFF, lsstat := csr 11 &&& 0x0000000EFFFFFFFF, srseed := csr 12,
        steptag := (csr 13).setWidth 16, numf := (csr 19).setWidth 8, hold := (csr 20).setWidth 8,
        shapeg := (csr 21).setWidth 2 } }

/-- The user context takes what an image holds. LCORE, PID, VFID and GMEMB stay as the dispatcher has set them, although the image holds
them (DESIGN CHOICE, log entry 98); a position inside a LAYER sequence is the dispatcher's too (R346). -/
def Core.loadImage (c : Core) (bs : List Byte) : Core :=
  let csr (i : Nat) : Word := BitVec.ofNat 64 (imageAt bs (0x400 + 8 * i) 8)
  let re := imageAt bs 0xC04 4
  let tags := imageAt bs 0xC00 4
  { c with
    arch := archOf bs
    pc := if c.layer.isSome || c.reissue then c.pc else BitVec.ofNat 64 (imageAt bs 0x200 8)
    stat :=
      { rsc := csr 1, pcnt := BitVec.ofNat 8 (wfield (csr 6) 15 8), cnt := BitVec.ofNat 8 (wfield (csr 6) 7 0),
        lastc := BitVec.ofNat 8 (wfield (csr 8) 15 8), relax := (csr 8).getLsbD 0, trapc := (csr 14).setWidth 8,
        trapv0 := csr 15, trapv1 := csr 16, trapv2 := csr 17, trapv3 := csr 18 }
    arr := Vector.ofFn fun i =>
      let r := imageAt bs (0x740 + 2 * i.val) 2
      { c.arr.get i with valid := r / 2 ^ 8 % 2 == 1, pending := r / 2 ^ 9 % 2 == 1, gen := BitVec.ofNat 8 r }
    acc := Vector.ofFn fun i => { c.acc.get i with tag := BitVec.ofNat 6 (tags / 2 ^ (6 * i.val)) }
    barPending := tags / 2 ^ 31 % 2 == 1
    replay := { c.replay with
      repend := re % 2 == 1, relax := re / 2 % 2 == 1, cause := BitVec.ofNat 8 (re / 2 ^ 8),
      mism := BitVec.ofNat 2 (re / 2 ^ 16), count := BitVec.ofNat 8 (re / 2 ^ 24) } }

/-- The operand of CTXSAVE and CTXLOAD. -/
def imageOffset (v : Word) : Bool := v.toNat % 0x2000 == 0 && decide (v.toNat + 0x2000 ≤ 0x60000)

/-- Latency 256 (R165). -/
def State.imageBusy (s : State) : State := s.onHz fun z => { z with issueAt := s.dcc + 256 }

/-- The user context on the core, whatever context is issuing. -/
def Core.asUser (c : Core) (f : Core → Core) : Core := (f (c.swapFirmware .user)).swapFirmware c.mode

def State.saveImage (s : State) (o : Nat) : State :=
  { s.localWrite o ((s.core.swapFirmware .user).image s.dcc s.free) with free := s.free + 8192 }

/-- An image with REPEND = 1 enters its region again from step 2 of R122; `t` is the cycle in which the context may issue. -/
def State.resumeReentry (s : State) (t : Nat) : State :=
  if s.core.replay.repend then
    let d := if s.toRetranslate.isEmpty then (0, s) else s.delay
    (d.2.onCore fun c => { c with blk := .reentry }).at_ (t + d.1) (ordLate s.core.phys) s.me .reentry
  else s

/-- A context that comes to a core has no wider grant than its partition's allowance (R381). -/
def Core.capShape (c : Core) (al : BitVec 2) : Core :=
  let g := c.arch.csr.shapeg
  { c with arch := { c.arch with csr := { c.arch.csr with shapeg := if g.toNat ≤ al.toNat then g else al } } }

/-- CTXSAVE: the context must be halted, parked or stopped for pre-emption (DEDUCED, log entry 32). -/
def execCtxsave (a : Reg) (s : State) : Out :=
  let v := s.src a
  let stopped := match s.core.life with
    | .halted | .parked | .saving => true
    | .idle | .placed | .running | .saved | .killed => false
  .next (if !s.firmware then s.fault cPRIV 0
    else if !imageOffset v || !stopped then s.illegal
    else (s.saveImage v.toNat).imageBusy)

/-- CTXLOAD. A context that runs and whose image is to re-enter its region does so at once (R122, R174). -/
def execCtxload (a : Reg) (s : State) : Out :=
  let v := s.src a
  .next (if !s.firmware then s.fault cPRIV 0
    else if !imageOffset v then s.illegal
    else
      let bs := s.core.ls.mem.readBytes v.toNat 8192
      let t := s.onCore fun c =>
        let d := c.asUser fun u => (u.loadImage bs).capShape (s.part c.part).allow
        { d with fw := { d.fw with loaded := true } }
      (if t.core.life = .running then t.resumeReentry s.dcc else t).imageBusy)

/-! LAYER (R164, R343 to R346). -/

/-- The fields of a microcode descriptor, if it and the parameter block hold up. -/
structure Micro where
  code : Nat
  nw : Nat
  npatch : Nat
  nparam : Nat
  deriving DecidableEq, Repr

def microOf (d : Word × Word) : Option Micro :=
  let nw := wfield d.2 41 32 + 1
  let np := wfield d.2 22 16
  let nq := wfield d.2 6 0
  if !d.1.getLsbD 63 || wfield d.1 59 52 != 0 || wfield d.1 2 0 != 0 || wfield d.2 63 42 != 0 || wfield d.2 31 23 != 0 ||
      wfield d.2 15 7 != 0 || decide (64 < np) || decide (64 < nq) then none
  else some ⟨wfield d.1 51 3 * 8, nw, np, nq⟩

/-- Apply one patch entry to the sequence; none where it raises ILLEGAL. -/
def patchSeq (nparam : Nat) (params : List Word) (seq : List Word) (e : Word) : Option (List Word) :=
  let widx := wfield e 41 32
  let lo := wfield e 29 24
  let wd := wfield e 21 16 + 1
  let pidx := wfield e 5 0
  if wfield e 63 42 != 0 || wfield e 31 30 != 0 || wfield e 23 22 != 0 || wfield e 15 6 != 0 ||
      decide (seq.length ≤ widx) || decide (nparam ≤ pidx) || decide (53 ≤ lo + wd) then none
  else
    let m : Word := BitVec.ofNat 64 ((2 ^ wd - 1) * 2 ^ lo)
    let v : Word := (params.getD pidx 0) <<< lo
    some (seq.set widx ((seq.getD widx 0 &&& ~~~m) ||| (v &&& m)))

/-- Read so many words in turn, at their home slices; one that is poisoned has contents that are open, as a word of a program has
(R280) (DEDUCED, log entry 21). -/
def State.storeWords (s : State) (a : Nat) : Nat → List Word × State
  | 0 => ([], s)
  | n + 1 =>
    let x := s.storeWords a n
    let b := a + 8 * n
    let t := x.2.touch b
    if (t.poisonedWord b 8).isSome then (x.1 ++ [Config.freeWord t.free], t.useFree.2) else (x.1 ++ [t.peekWord b], t)

/-- A sequence as LAYER copies it: its entry's descriptor, and its words, patched. -/
structure Copied where
  d : Word × Word
  m : Micro
  words : List Word
  deriving DecidableEq, Repr

/-- The descriptor of entry `e`, if a sequence may run from it with the parameter block at h0 offset `o`. -/
def State.entryOf (s : State) (e : BitVec 12) (o : Nat) : Option ((Word × Word) × Micro) := do
  let d ← SMap.find (s.core.part.toNat * 4096 + e.toNat) s.disp.microcode
  let m ← microOf d
  if o % 8 ≠ 0 ∨ 0x60000 < o + 8 * m.nparam then none else some (d, m)

/-- The parameter words at h0 offset `o`; one that is poisoned has contents that are open (R338) (DEDUCED, log entry 21). -/
def State.paramWords (s : State) (o : Nat) : Nat → List Word × State
  | 0 => ([], s)
  | n + 1 =>
    let x := s.paramWords o n
    if s.core.ls.poison.contains (o + 8 * n) then (x.1 ++ [Config.freeWord x.2.free], x.2.useFree.2)
    else (x.1 ++ [leWord (s.core.ls.mem.readBytes (o + 8 * n) 8)], x.2)

/-- Copy the sequence of entry `e` and patch it from the parameter block at h0 offset `o` (R344). -/
def State.sequence (s : State) (e : BitVec 12) (o : Nat) : Option Copied × State :=
  match s.entryOf e o with
  | none => (none, s)
  | some (d, m) =>
    let x := s.storeWords m.code (m.nw + m.npatch)
    let y := x.2.paramWords o m.nparam
    (((x.1.drop m.nw).foldlM (patchSeq m.nparam y.1) (x.1.take m.nw)).map fun ws => ⟨d, m, ws⟩, y.2)

/-- Code of the event log for the KIND of a sequence that a LAYER runs, with its entry and core (R343)
(DESIGN CHOICE, log entry 94). -/
def logLayer : Nat := 0x0701

/-- LAYER runs the sequence in its place: the context then continues at the bundle that would have followed. LAYER itself
may not stand in a sequence (DEDUCED, log entry 61). -/
def execLayer (e : BitVec 12) (a : Reg) (s : State) : Out :=
  let o := (s.src a).toNat
  .next (s.userOnly (s.notInLayer (s.boundaryOnly
    (match s.sequence e o with
    | (none, t) => t.illegal
    | (some x, t) =>
      ((t.log logLayer (wfield x.d.1 62 60 + 2 ^ 3 * e.toNat + 2 ^ 15 * t.core.phys)).onCore fun c =>
        { c with
          layer := some ⟨e, x.words, c.wpc, c.wword, c.bpc, c.pc, o, false⟩
          pc := 0 }).onHz fun z => { z with issueAt := s.dcc + 16 + (x.m.nw + x.m.npatch + 7) / 8 }))))

/-- A blocking instruction of a sequence whose words have been copied again: what now stands at its index (R346). -/
def Worded.reread (b : Worded) (ws : List Word) : Worded :=
  let w := ws.getD (b.wpc.toNat / 8) 0
  match decodeSlot w with
  | .ok y => ⟨b.wpc, w, y.instr⟩
  | .error _ => ⟨b.wpc, w, .unassignedOpcode w⟩

/-- At a restore the entry is copied and patched again; the position stays, and what issues there is of the new words (R346). -/
def State.relayer (s : State) : State :=
  match s.core.layer with
  | none => s
  | some l =>
    match s.sequence l.entry l.base with
    | (some x, t) => t.onCore fun c =>
      { c with
        layer := some { l with words := x.words }
        blocked := if l.begun then c.blocked.map fun b => b.reread x.words else c.blocked }
    | (none, t) => t.illegal

/-! Unassigned opcodes (R81). -/

/-- A word whose opcode or function code is not assigned (DEDUCED, log entry 62). -/
def execUnassignedOpcode (_w : Word) (s : State) : Out := .next s.illegal

end Sys2Proof.Machine
end

