-- ==== Sys2Proof/Machine/Engine.lean ====
section
/-! DEFINITION. What the engines share: descriptors and their checks (R200, R217), elements and their conversions (R177,
R218), the start of a command (R197, R198, R204, R215), its reads of the local store and of memory with their faults (R203,
R210, R276, R277, R338), and its writes (R115, R116, R216, R283). -/

namespace Sys2Proof.Machine

/-! Descriptors (R200). -/

structure Desc where
  loc : Bool
  h : BitVec 4
  en : Bool
  pitch : Nat
  off : Nat
  deriving DecidableEq, Repr

def descOf (w : Word) : Desc :=
  ⟨w.getLsbD 63, BitVec.ofNat 4 (wfield w 62 59), w.getLsbD 58, wfield w 47 32, wfield w 31 0⟩

/-- The handle that a command captured for a descriptor. -/
def QEntry.hnd (e : QEntry) (d : Desc) : Handle := if d.loc then e.handles.get d.h.toFin else Handle.local

/-- The address of byte `o` of an array: physical, or an h0 offset. -/
def QEntry.addr (e : QEntry) (d : Desc) (o : Nat) : Nat := if d.loc then (e.hnd d).addr (d.off + o) else d.off + o

/-- A fault of a push: its cause and its DATA. -/
structure PushFault where
  cause : BitVec 8
  data : Word
  deriving DecidableEq, Repr

/-- A push fault that names a word of the record (R330). -/
def pushFault (q : Queue) (cause : BitVec 8) (word : Nat) : PushFault := ⟨cause, ofFields [(q.code, 8), (word, 0)]⟩

def faultIf (c : Bool) (f : PushFault) : List PushFault := if c then [f] else []

/-- Non-zero reserved fields: the masks of the reserved bits of words 0 to 7. -/
def reservedFaults (q : Queue) (r : CmdRec) (masks : List Nat) : List PushFault :=
  let ws := recWords r
  (List.range 8).flatMap fun i =>
    faultIf (ws.getD i 0 &&& BitVec.ofNat 64 (masks.getD i 0) != 0) (pushFault q cILLEGAL i)

/-- Bits [hi:lo] set. -/
def maskOf (hi lo : Nat) : Nat := (2 ^ (hi - lo + 1) - 1) * 2 ^ lo

def allBits : Nat := 2 ^ 64 - 1

/-- OC and SCOPE of word 0 (R196, R215). -/
def maskOcScope : Nat := maskOf 55 48

/-- Is a format tag reserved (R45)? -/
def tagReserved (t : Nat) : Bool := decide (0x0C < t)

/-- Is a rounding mode reserved (R46)? -/
def rmReserved (m : Nat) : Bool := decide (4 < m)

def rmOf (n : Nat) : Rm :=
  match n with
  | 1 => .rtz
  | 2 => .rpi
  | 3 => .rni
  | 4 => .sr
  | _ => .rne

/-- The checks of one present array: `rows` rows of `rowBytes`, aligned to `align` bytes. What depends on the handle is not
checked where V is clear. -/
def arrayFaults (q : Queue) (hs : Vector Handle 16) (w : Word) (i rows rowBytes align : Nat) (p : Perms) :
    List PushFault :=
  let d := descOf w
  let h := if d.loc then hs.get d.h.toFin else Handle.local
  let ill := pushFault q cILLEGAL i
  let shape := wfield w 57 48 != 0 || d.loc != (d.h != 0) || d.off % align != 0 ||
    decide (1 < rows) && (d.pitch % align != 0 || decide (d.pitch < rowBytes))
  let perm := d.loc && (p.rd && !h.rd || p.wr && !h.wr || p.at_ && !h.at_)
  let extent := decide (h.bytes d.h < d.off + (rows - 1) * d.pitch + rowBytes)
  if shape then [ill]
  else if !h.v then [pushFault q cHANDLE_INVALID i]
  else faultIf (perm || extent) ill

/-- An absent optional descriptor is all zero; a present one is checked. -/
def optionalFaults (q : Queue) (hs : Vector Handle 16) (w : Word) (i rows rowBytes align : Nat) (p : Perms) :
    List PushFault :=
  if w.getLsbD 58 then arrayFaults q hs w i rows rowBytes align p else faultIf (w != 0) (pushFault q cILLEGAL i)

def permR : Perms := ⟨true, false, false⟩
def permW : Perms := ⟨false, true, false⟩
def permWA : Perms := ⟨false, true, true⟩
def permRW : Perms := ⟨true, true, false⟩

/-- A view (R217): the checks run over the extent that holds the window. -/
structure View where
  row0 : Nat
  col0 : Nat
  deriving DecidableEq, Repr

def viewOf (w : Word) : View := ⟨wfield w 31 16, wfield w 15 0⟩

/-- DEDUCED, log entry 70. -/
def viewFaults (q : Queue) (hs : Vector Handle 16) (r : CmdRec) (di vi m n esize : Nat) (p : Perms) : List PushFault :=
  let ws := recWords r
  let v := viewOf (ws.getD vi 0)
  faultIf (wfield (ws.getD vi 0) 63 32 != 0) (pushFault q cILLEGAL vi) ++
    arrayFaults q hs (ws.getD di 0) di (v.row0 + m) ((v.col0 + n) * esize) esize p

/-- Offset of element (r, c) of a view's window. -/
def viewOff (d : Desc) (v : View) (esize r c : Nat) : Nat := (v.row0 + r) * d.pitch + (v.col0 + c) * esize

/-! Elements (R43, R45, R177, R218). -/

def tagFP32 : Nat := 1
def tagBF16 : Nat := 2
def tagFP16 : Nat := 3
def tagE4M3 : Nat := 4
def tagE5M2 : Nat := 5
def tagE2M1 : Nat := 6
def tagG4 : Nat := 7
def tagI8 : Nat := 8
def tagI32 : Nat := 9
def tagFOREST : Nat := 0x0B

/-- Bits of an element. -/
def elemBits (tag : Nat) : Nat :=
  match tag with
  | 1 | 9 => 32
  | 2 | 3 => 16
  | 6 | 7 => 4
  | _ => 8

def isIntTag (tag : Nat) : Bool := tag == tagI8 || tag == tagI32

/-- The exact value of a code. -/
def codeVal (tag code : Nat) : Val :=
  match ffmtOf tag with
  | some f => valOf f code
  | none =>
    if tag = tagG4 then g4Val code
    else if tag = tagI8 then valOfInt (toSigned 8 code)
    else valOfInt (toSigned 32 code)

/-- A NaN as it is widened: an FP32 pattern (R177). -/
def widenNan (tag code : Nat) : Nat :=
  match tag with
  | 2 => code * 2 ^ 16
  | 3 => code / 2 ^ 15 * 2 ^ 31 + 0x7F800000 + code % 2 ^ 10 * 2 ^ 13
  | 4 | 5 => if code / 2 ^ 7 % 2 = 1 then 0xFFC00000 else 0x7FC00000
  | _ => code

/-- The stream value of a code: FP32, or I32 for I8 and I32 (R177). -/
def widen (tag code : Nat) : Nat :=
  match ffmtOf tag with
  | some f =>
    let v := valOf f code
    if v.isNan then widenNan tag code else (roundTo .fp32 v .rne false 0).pat
  | none => ofSignedInt 32 (toSigned (elemBits tag) code)

/-- The value of a stream value or of an accumulator element. -/
def streamVal (int : Bool) (v : Nat) : Val := if int then valOfInt (toSigned 32 v) else valOf .fp32 v

/-- Conversion to a destination format (R47, R50). A signalling operand sets NV (R39). -/
def convertVal (tag : Nat) (x : Exact) (rm : Rm) (sat : Bool) (hash : BitVec 16) : Rounded :=
  match ffmtOf tag with
  | some f => x.round f rm sat hash
  | none => toInt (elemBits tag) x rm hash

def convertTo (tag : Nat) (int : Bool) (v : Nat) (rm : Rm) (sat : Bool) (hash : BitVec 16) : Rounded :=
  let x := streamVal int v
  convertVal tag ⟨x, false, snanFlag [x]⟩ rm sat hash

/-- The random bits of an element at an address, with STEPTAG and SRSEED as at the push (R52). -/
def QEntry.hash (e : QEntry) (pa : Nat) : BitVec 16 := srHash (BitVec.ofNat 64 pa) e.steptag e.seed

/-- The codes of consecutive elements from their bytes: `skip` is 1 where the first lies in the upper half of its byte. -/
def codesOf (bits skip n : Nat) (bs : List Byte) : List Nat :=
  if bits = 4 then (List.range n).map fun i => ((bs.getD ((i + skip) / 2) 0).toNat / (if (i + skip) % 2 = 1 then 16 else 1)) % 16
  else (splitEvery (bits / 8) n bs).map leNat

/-! Finding things. -/

def State.runOf (s : State) (id : Nat) : Option Run := s.core.eng.runs.find? fun r => r.id == id

def State.setRun (s : State) (r : Run) : State :=
  s.onEng fun e => { e with runs := e.runs.map fun x => if x.id = r.id then r else x }

/-- The head of a queue. -/
def State.headOf (s : State) (q : Queue) : Option QEntry := ((s.core.eng.queues.toList.getD q.code []).find? fun e => !e.gone)

/-- Change the head of a queue. -/
def State.onHead (s : State) (q : Queue) (f : QEntry → QEntry) : State :=
  s.onEng fun e =>
    { e with queues := Vector.ofFn fun i =>
        let l := e.queues.get i
        if i.val = q.code then
          (match l with
          | x :: rest => f x :: rest
          | [] => [])
        else l }

/-- S0, or the cycle in which a relaxed command may start at the earliest (R197). -/
def State.nominal (s : State) (r : CmdRec) : Nat := s.core.stat.rsc.toNat + stampOf r

/-- Cycles since RSC, of another cycle. -/
def State.cycAt (s : State) (t : Nat) : Nat := (t + 2 ^ 64 - s.core.stat.rsc.toNat) % 2 ^ 24

/-- The record of a cause in the command family, raised in cycle `t`. -/
def State.cmdRecAt (s : State) (t : Nat) (cause : BitVec 8) (q : Queue) (r : CmdRec) (unit : Nat) (stored : Bool)
    (addr detail : Word) : TrapRec :=
  { cause := cause, v0 := ofFields [(r.code, 56), (q.code, 24), (stampOf r, 0)],
    v1 := ofFields [(unit, 28), (bit stored, 24), (s.cycAt t, 0)], v2 := addr, v3 := detail, access := none,
    stored := stored }

/-- A cause in a running command, in the present cycle. -/
def State.runFault (s : State) (r : Run) (cause : BitVec 8) (addr detail : Nat) : State :=
  s.takeTrap (s.cmdRecAt s.dcc cause r.q r.e.r 0 false (BitVec.ofNat 64 addr) (BitVec.ofNat 64 detail))

/-! Ports and lanes (R175 to R180). -/

def lanesOf : Port → Nat
  | .d => 64
  | .a | .b | .s => 32

def laneBase : Port → Nat
  | .b => 32
  | .d => 64
  | .a | .s => 0

/-- Ports A and S share one lane group. -/
def laneGroup : Port → Nat
  | .a | .s => 0
  | .b => 1
  | .d => 2

/-- PL(n) and g(n) of R178. -/
def passLatency (n : Nat) : Nat := 4 * ((n + 3) / 4) + 2
def passRate (n : Nat) : Nat := (n + 3) / 4

/-- The slot bound to a port. -/
def Arch.boundSlot (a : Arch) (p : Port) : Option (Fin 16) :=
  (List.finRange 16).find? fun i => (a.slots.get i).port == some p

/-- Program length of the slot bound to a port. -/
def Arch.progLen (a : Arch) (p : Port) : Nat := ((a.boundSlot p).map fun i => (a.slots.get i).prog.length).getD 0

/-- Is one of the lanes of a port held in the present cycle? -/
def State.lanesHeld (s : State) (p : Port) : Bool :=
  s.core.eng.runs.any fun r => r.use.any fun u => laneGroup u.port == laneGroup p && decide (s.dcc ≤ u.until_)

/-- Is a port itself claimed? -/
def State.portClaimed (s : State) (p : Port) : Bool :=
  s.core.eng.runs.any fun r => r.use.any fun u => u.port == p && decide (s.dcc ≤ u.until_)

/-- Is the program of a PLOAD still on its way to the slot bound to a port (R188)? -/
def State.slotPending (s : State) (p : Port) : Bool :=
  match s.core.arch.boundSlot p with
  | some i => s.agenda.any fun e => e.target == s.me && (match e.act with
    | .ploadInstall n _ => n.toNat == i.val
    | _ => false)
  | none => false

def Run.useOf (r : Run) (p : Port) : Option PortUse := r.use.find? fun u => u.port == p

def Run.claims (r : Run) (p : Port) : Bool := (r.useOf p).isSome

/-- Program length on a claimed port. -/
def Run.len (r : Run) (p : Port) : Nat := ((r.useOf p).map fun u => u.prog.length).getD 0

/-- PL of a port for this command, 0 when it is unclaimed. -/
def Run.pl (r : Run) (p : Port) : Nat := if r.claims p then passLatency (r.len p) else 0

/-- Rate of a port for this command, 0 when it is unclaimed. -/
def Run.rate (r : Run) (p : Port) : Nat := passRate (r.len p)

/-- The ports that a command uses from its start on, each held until a given cycle. -/
def Arch.takePorts (a : Arch) (ps : List Port) : List PortUse :=
  ps.filterMap fun p => (a.boundSlot p).map fun i =>
    let c := a.slots.get i
    ⟨p, BitVec.ofNat 4 i.val, c.prog, c.ctl, 0⟩

/-- Set the last cycle of a claim. -/
def Run.hold (r : Run) (p : Port) (t : Nat) : Run :=
  { r with use := r.use.map fun u => if u.port = p then { u with until_ := t } else u }

/-! Tile tags (R204, R216). -/

/-- The local-store slots that rows of an array touch. -/
def slotsOf (d : Desc) (first rows rowBytes : Nat) : List Nat :=
  if d.loc || rowBytes == 0 then []
  else
    ((List.range rows).foldl (fun (acc : List Nat) r =>
      let lo := (d.off + first + r * d.pitch) / 4096
      let hi := (d.off + first + r * d.pitch + rowBytes - 1) / 4096
      (List.range (hi - lo + 1)).foldl (fun acc i => if acc.contains (lo + i) then acc else acc ++ [lo + i]) acc) []).filter
      fun i => decide (i < 96)

/-- Slots to check against one format. -/
structure TagCheck where
  slots : List Nat
  fmt : Nat
  deriving DecidableEq, Repr

def LocalStore.tag (l : LocalStore) (i : Nat) : TileTag := l.tags.toList.getD i ⟨false, 0, 0⟩

/-- Slots whose format differs while they are full. -/
def State.tagFormat (s : State) (cs : List TagCheck) : Bool :=
  cs.any fun c => c.slots.any fun i => (s.core.ls.tag i).full && (s.core.ls.tag i).fmt.toNat != c.fmt

/-- The first slot that is not full or has another sequence tag. -/
def State.tagMiss (s : State) (cs : List TagCheck) (seq : Nat) : Option Nat :=
  (cs.flatMap (·.slots)).find? fun i => !(s.core.ls.tag i).full || (s.core.ls.tag i).seq.toNat != seq

/-- The tag write of TAGW. -/
def State.tagWrite (s : State) (slots : List Nat) (fmt seq : Nat) : State :=
  s.onLs fun l =>
    { l with tags := Vector.ofFn fun i =>
        if slots.contains i.val then ⟨true, BitVec.ofNat 6 fmt, BitVec.ofNat 16 seq⟩ else l.tags.get i }

def seqOf (r : CmdRec) : Nat := wfield r.w0 15 0

/-! Starting (R197, R198, R215). -/

/-- What a command asks for at its start: the cycles to its first array cycle where it takes ramp fillers, whether it needs
the array without them, whether an FLOAD that is not complete keeps the array busy for it (R266), its engine, the ports it claims, the
slots it checks, and the faults its start raises. -/
structure StartSpec where
  ramp : Option Nat
  array : Bool
  load : Bool
  engine : Bool
  ports : List Port
  tags : List TagCheck
  faults : List TrapRec
  deriving DecidableEq, Repr

def StartSpec.plain : StartSpec := ⟨none, false, false, false, [], [], []⟩

/-- A run as it starts. -/
def State.newRun (s : State) (q : Queue) (e : QEntry) (ports : List Port) : Run :=
  { id := s.serial, q := q, e := e, s := s.dcc, slip := 0, nr := 0, first := none, nw := 0,
    use := s.core.arch.takePorts ports, lf := 0, sh := s.core.arch.csr.shapeg.toNat, dprev := s.core.eng.array.dend,
    capA := [], capB := [], capX := [], acc0 := [], outs := [], flight := [], times := [], vals := [], res := [],
    carry := [], clips := 0, chain := none, pages := [], pins := [], peers := [], forest := s.core.eng.forest }

/-- The command starts: its entry frees at the end of the cycle, and its engine is taken. -/
def State.go (s : State) (q : Queue) (e : QEntry) (sp : StartSpec) (f : Run → State → State) : State :=
  let r := s.newRun q e sp.ports
  f r ({ s.onHead q (fun e => { e with gone := true }) with serial := s.serial + 1 }.onEng fun x =>
    { x with runs := x.runs ++ [r] })

/-- Every condition of the start but the array holds: what is left is to judge tags and lanes. A relaxed command waits for
them, and its claims are judged when it starts (R176); a strict one raises. A slot of another format is a fault in any entry (R204). -/
def State.startNow (s : State) (q : Queue) (e : QEntry) (sp : StartSpec) (f : Run → State → State) : State :=
  let unbound := sp.ports.any fun p => (s.core.arch.boundSlot p).isNone
  let busy := sp.ports.any fun p => s.lanesHeld p || s.slotPending p
  let miss := s.tagMiss sp.tags (seqOf e.r)
  let mk (c : BitVec 8) (a d : Nat) : TrapRec :=
    s.cmdRecAt s.dcc c q e.r 0 false (BitVec.ofNat 64 a) (BitVec.ofNat 64 d)
  let format := if s.tagFormat sp.tags then [mk cFORMAT 0 0] else []
  let always := sp.faults ++ (if unbound then [mk cILLEGAL 0 0] else []) ++ format
  let strictly := (match miss with
    | some i => [mk cSEQ_TAG (i * 4096) ((s.core.ls.tag i).word)]
    | none => []) ++ (if busy then [mk cPORT_BUSY 0 0] else [])
  if s.core.stat.relax then
    if busy || miss.isSome then format.foldl State.takeTrap s
    else if !always.isEmpty then always.foldl State.takeTrap s
    else s.go q e sp f
  else if !always.isEmpty || !strictly.isEmpty then (always ++ strictly).foldl State.takeTrap s
  else s.go q e sp f

/-- SCHED_MISS of a command that does not start (R197). -/
def State.missStart (s : State) (q : Queue) (e : QEntry) : State :=
  if s.core.stat.relax then s else s.cmdFault cSCHED_MISS q e.r 0 0 0

/-- An effect of the present cycle or of a later one. -/
def State.addLeave (s : State) (l : Leave) : State := s.onEng fun e => { e with leaves := e.leaves ++ [l] }

def State.trapAt (s : State) (t : Nat) (x : TrapRec) (marks : List (Bool × Nat)) : State :=
  s.addLeave ⟨t, .a, 0, 0, 0, some x, marks⟩

/-- A command that finds the array busy at its first array cycle: a strict one raises SCHED_MISS, an MMA form in its start cycle (R197), a
FOREST in that array cycle (R270) (DEDUCED, log entry 69). -/
def State.missArray (s : State) (q : Queue) (e : QEntry) (sp : StartSpec) (e0 : Nat) : State :=
  if s.core.stat.relax then s
  else if sp.load then s.trapAt e0 (s.cmdRecAt e0 cSCHED_MISS q e.r 0 false 0 0) []
  else s.missStart q e

/-- Judge the head of a queue in the present cycle (DEDUCED, log entry 69). -/
def State.startCommand (s : State) (q : Queue) (spec : QEntry → StartSpec) (f : Run → State → State) : State :=
  match s.headOf q with
  | none => s
  | some e =>
    let sp := spec e
    let s := s.onHead q fun e => { e with seen := s.dcc + 1 }
    match e.startAt with
    | some t =>
      if t ≤ s.dcc ∧ ¬(sp.load = true ∧ s.core.eng.loading.isSome = true ∧ s.core.stat.relax = true) then s.startNow q e sp f else s
    | none =>
      if sp.engine && decide (s.dcc < s.core.eng.free.toList.getD q.code 0) then s.missStart q e
      else if sp.array && decide (s.dcc < s.core.eng.array.free) then s.missStart q e
      else
        match sp.ramp with
        | none => s.startNow q e sp f
        | some lead =>
          let others := (s.tagMiss sp.tags (seqOf e.r)).isNone &&
            !(sp.ports.any fun p => s.lanesHeld p || s.slotPending p)
          let r := s.arrayStart
          let under := sp.load && s.core.eng.loading.isSome && decide (r.1 < s.core.eng.array.free)
          if r.1 + lead < s.core.eng.array.free ∨ under = true then s.missArray q e sp (r.1 + lead)
          else if s.core.stat.relax && !others && !s.tagFormat sp.tags then s
          else if r.1 ≤ s.dcc then s.startNow q e sp f
          else r.2.onHead q fun e => { e with startAt := some r.1 }

/-- The engine of a queue is free from cycle `t` on. -/
def State.engineFree (s : State) (q : Queue) (t : Nat) : State :=
  s.onEng fun e => { e with free := Vector.ofFn fun i => if i.val = q.code then t else e.free.get i }

/-- The array's cycles of a command: from `first` to `last` (DEDUCED, log entry 66). -/
def State.arrayUse (s : State) (last : Nat) : State :=
  (s.onArray fun a => { a with last := max a.last last, free := max a.free (last + 1) }).rampWatch

/-- The command has made its last write (R119, R153), and what it still pins is let go (R203). -/
def State.finish (s : State) (r : Run) : State :=
  (s.unpin (((s.runOf r.id).map (·.pins)).getD [])).onEng fun e =>
    { e with
      runs := e.runs.filter fun x => x.id != r.id
      lastW := Vector.ofFn fun i => if i.val = r.q.code then max s.dcc (e.lastW.get i) else e.lastW.get i }

/-! Reads. -/

/-- Bytes that a beat reads: of memory (true) or of the local store. -/
structure Span where
  loc : Bool
  a : Nat
  n : Nat
  deriving DecidableEq, Repr

def QEntry.span (e : QEntry) (d : Desc) (o n : Nat) : Span := ⟨d.loc, e.addr d o, n⟩

/-- The 128-byte lines of a span. -/
def Span.lines (sp : Span) : List Nat :=
  if sp.n = 0 then [] else (List.range ((sp.a + sp.n - 1) / 128 - sp.a / 128 + 1)).map fun i => (sp.a / 128 + i) * 128

/-- The lines of memory that a beat's reads need. -/
def spanLines (sps : List Span) : List Nat :=
  sps.foldl (fun acc sp =>
    if sp.loc then sp.lines.foldl (fun acc a => if acc.contains a then acc else acc ++ [a]) acc else acc) []

/-- Use of engine ports of banks in the present cycle (R277). -/
def State.bankUse (s : State) (r : Run) (wr : Bool) (a n : Nat) : State :=
  s.onEng fun e =>
    { e with banks := (linesIn a n).foldl (fun bs l =>
        let u : BankUse := ⟨l % 16, wr, r.id, r.s, r.q, stampOf r.e.r⟩
        if bs.contains u then bs else bs ++ [u]) e.banks }

/-- One cycle's wait of a relaxed command: its later beats, claims and engine move with it, and the pins of what they consume (R203,
R220). An engine that it has left is not held longer. -/
def State.slipRun (s : State) (r : Run) (onArray : Bool) (frees : Bool) : State :=
  let r := (s.runOf r.id).getD r
  let next := s.dcc + r.lf + max (r.pl .a) (r.pl .b)
  let s := s.setRun { r with
    slip := r.slip + 1
    use := r.use.map fun u => { u with until_ := u.until_ + 1 }
    pins := r.pins.map fun p => if next ≤ p.2 then (p.1, p.2 + 1) else p }
  let left := s.core.eng.runs.any fun x => x.q == r.q && decide (r.id < x.id)
  let free := s.core.eng.free.toList.getD r.q.code 0
  let s := if frees && !left && decide (s.dcc < free) then s.engineFree r.q (free + 1) else s
  if onArray then (s.onArray fun a => { a with last := a.last + 1, free := a.free + 1 }).rampWatch else s

/-- The answer that a command has to its read of a peer's line. -/
def Run.peer (r : Run) (a : Nat) : Option PeerGot := (r.peers.find? fun p => p.line == a).bind (·.got)

/-- Ask for a line: of a peer by a read transaction in class 0, once for a beat; of this device in its home slice. -/
def State.askLine (s : State) (r : Run) (a : Nat) : State :=
  if !isFabric a then s.startFill a
  else
    match s.runOf r.id with
    | none => s
    | some x =>
      if x.peers.any fun p => p.line == a then s
      else (s.sendTxn s.core.part a 0 s.core.launch s.core.lcore r.id (.read 128)).setRun
        { x with peers := x.peers ++ [⟨a, s.serial, none⟩] }

/-- What a beat finds of a line. -/
inductive Found where
  | here
  | absent
  | rejected
  deriving DecidableEq, Repr

/-- Is a line there for the read? A relaxed command waits for a peer's answer; whether the answer comes in time for a strict one, and
which it is, is open (DESIGN CHOICE, log entry 11). -/
def State.findLine (s : State) (r : Run) (a : Nat) : Found × State :=
  if !isFabric a then (if s.resident a then .here else .absent, s)
  else if s.core.stat.relax then
    (match r.peer a with
      | some .rejected => .rejected
      | some _ => .here
      | none => .absent, s)
  else
    let x := (s.askLine r a).choice
    let y := x.2.choice
    if x.1 then (if y.1 then .here else .rejected, y.2) else (.absent, x.2)

/-- The lines that are not there, and those that their peer turns away. -/
def State.absent (s : State) (r : Run) : List Nat → List Nat × List Nat × State
  | [] => ([], [], s)
  | a :: rest =>
    let p := s.findLine r a
    let x := State.absent p.2 r rest
    match p.1 with
    | .here => x
    | .absent => (a :: x.1, x.2)
    | .rejected => (x.1, a :: x.2.1, x.2.2)

/-- Mark a read of the local store, and its banks; make lines of memory most recently used (DEDUCED, log entry 72). -/
def State.touchSpan (s : State) (r : Run) (sp : Span) : State :=
  if sp.loc then sp.lines.foldl (fun t a => t.useLine a id) s
  else (s.bankUse r false sp.a sp.n).markRead sp.a sp.n

/-- Reads of one beat: a strict command raises SCHED_MISS where a line is not resident, with a given ADDR and DETAIL; a relaxed one
waits, and `State.attempt` asks for the line. A peer that is fenced, or turns the read away, raises FENCED_PEER (R352, R370). -/
def State.readLines (s : State) (r : Run) (miss : Nat × Nat) (sps : List Span) (onArray frees : Bool) (k : State → State) : State :=
  let lines := spanLines sps
  let fenced (t : State) (a : Nat) : State := (t.lookUp t.core.part a).runFault r cFENCED_PEER a (t.peerOf t.core.part a)
  match lines.find? fun a => s.fencedAt s.core.part a with
  | some a => fenced s a
  | none =>
    let m := s.absent r lines
    match m.2.1 with
    | a :: _ => fenced m.2.2 a
    | [] =>
      if m.1.isEmpty then k (sps.foldl (fun t sp => t.touchSpan r sp) m.2.2)
      else if m.2.2.core.stat.relax then m.2.2.onEng fun e => { e with stall := some ⟨m.1, onArray, frees⟩ }
      else m.2.2.runFault r cSCHED_MISS miss.1 miss.2

def State.readBeat (s : State) (r : Run) (sps : List Span) (onArray frees : Bool) (k : State → State) : State :=
  s.readLines r (0, 0) sps onArray frees k

/-- A beat, as a whole: where it has to wait for a line, nothing of it happens but that the line is asked for, and it comes a cycle later. -/
def State.attempt (s : State) (r : Run) (f : State → State) : State :=
  let t := f (s.onEng fun e => { e with stall := none })
  match t.core.eng.stall with
  | some w => (w.lines.foldl (fun (u : State) a => u.askLine r a) { s with free := t.free }).slipRun r w.onArray w.frees
  | none =>
    match t.runOf r.id with
    | some x => if x.peers.isEmpty then t else t.setRun { x with peers := [] }
    | none => t

/-- Words of a span that the entry's own uncommitted writes do not cover whole. -/
def State.unheld (s : State) (a n : Nat) : List Nat :=
  (wordsIn a n).filter fun w => (List.range 8).any fun i => (SMap.find (w + i) s.core.held.lines).isNone

/-- What a block scale governs: the DETAIL of SCALE_POISON, and the words that hold the block's elements. -/
structure ScaleOf where
  detail : Nat
  marks : List (Bool × Nat)
  deriving DecidableEq, Repr

/-- Raise the fault of an uncorrectable word in the cycle in which it would be consumed; a scale word marks its blocks, unless the error was
injected (R210, R339). -/
def State.poisonAt (s : State) (r : Run) (sp : Span) (w : Nat) (stored : Bool) (t : Nat) (sc : Option ScaleOf) : State :=
  let unit := if sp.loc then s.unitOf w else 0
  match sc with
  | none => s.trapAt t (s.cmdRecAt t cPOISON r.q r.e.r unit stored (BitVec.ofNat 64 w) 0) []
  | some x =>
    s.trapAt t (s.cmdRecAt t cSCALE_POISON r.q r.e.r unit stored (BitVec.ofNat 64 sp.a) (BitVec.ofNat 64 x.detail))
      (if stored || isFabric sp.a then x.marks else [])

/-- The bytes of a span with the entry's own writes over them (R117). -/
def State.overOwn (s : State) (a : Nat) (bs : List Byte) : List Byte :=
  bs.zipIdx.map fun b => ((SMap.find (a + b.2) s.core.held.lines).map (·.val)).getD b.1

/-- The bytes of a peer: what it has answered a relaxed command, else free values; a third failed check has them poisoned, in UNIT 4 with
STORED 0 (R340) (DESIGN CHOICE, log entry 11). -/
def State.fetchPeer (s : State) (r : Run) (sp : Span) (t : Nat) (sc : Option ScaleOf) : List Byte × State :=
  let got (i : Nat) : Option PeerGot := r.peer (lineOf (sp.a + i))
  let x := s.freeBytes sp.n
  let c := x.2.choice
  let bad := if s.core.stat.relax then (List.range sp.n).any fun i => got i == some .poisoned else c.1
  let bs := x.1.zipIdx.map fun b =>
    match got b.2 with
    | some (.data l) => l.getD ((sp.a + b.2) % 128) 0
    | _ => b.1
  (s.overOwn sp.a bs,
    match if bad then (s.unheld sp.a sp.n).head? else none with
    | some w => c.2.poisonAt r sp w false t sc
    | none => c.2)

/-- The first word of a span that is read uncorrectable and that the entry's own writes do not cover, and whether its mark is stored. -/
def State.consumeSpan (s : State) (sp : Span) (scale : Bool) : Option (Nat × Bool) × State :=
  (wordsIn sp.a sp.n).foldl (fun (x : Option (Nat × Bool) × State) w =>
    let q := x.2.consume w 8 scale
    (x.1.orElse fun _ => if (s.unheld w 8).isEmpty then none else q.1, q.2)) (none, s)

/-- The bytes of a span as the command reads them in the present cycle (R117, R296), consumed in cycle `t`. -/
def State.fetch (s : State) (r : Run) (sp : Span) (t : Nat) (sc : Option ScaleOf) : List Byte × State :=
  if sp.loc then
    if isFabric sp.a then s.fetchPeer r sp t sc
    else
      let q := s.consumeSpan sp sc.isSome
      let v := (List.range sp.n).map fun i => q.2.engineByte (sp.a + i)
      match q.1 with
      | some (w, st) => (v, q.2.poisonAt r sp w st t sc)
      | none => (v, q.2)
  else
    let v := s.core.ls.mem.readBytes sp.a sp.n
    match (wordsIn sp.a sp.n).find? fun w => s.core.ls.poison.contains w with
    | some w => (v, s.poisonAt r sp w true t sc)
    | none => (v, s)

/-- Several spans, each with its bytes. -/
def State.fetchAll (s : State) (r : Run) (t : Nat) : List Span → List (List Byte) × State
  | [] => ([], s)
  | sp :: rest =>
    let x := s.fetch r sp t none
    let y := State.fetchAll x.2 r t rest
    (x.1 :: y.1, y.2)

/-- Pin the lines of spans of memory until cycle `t` (R203). -/
def State.pinSpans (s : State) (r : Run) (sps : List Span) (t : Nat) : State :=
  let ls := (spanLines sps).filter fun a => !isFabric a
  let s := ls.foldl (fun (u : State) a => u.useLine a fun l => { l with pins := l.pins + 1 }) s
  match s.runOf r.id with
  | some x => s.setRun { x with pins := x.pins ++ ls.map fun a => (a, t) }
  | none => s

/-! Writes. -/

/-- Bytes that a beat writes, by address. -/
abbrev Bytes := SMap Byte

def putAll (l : List (Nat × List Byte)) : Bytes := l.foldl (fun m e => putBytes id e.1 e.2 m) []

/-- A write of the local store lands at once, but on a line whose R bit is set (R115). A partial write of a poisoned word
raises POISON (R338). -/
def State.writeLocal (s : State) (r : Run) (m : Bytes) : State :=
  (runsOf m).foldl (fun (t : State) x =>
    (linesIn x.1 x.2.length).foldl (fun (t : State) i =>
      let lo := max x.1 (i * 256)
      let hi := min (x.1 + x.2.length) (i * 256 + 256)
      let bs := (x.2.drop (lo - x.1)).take (hi - lo)
      let t := t.bankUse r true lo (hi - lo)
      match SMap.find i t.core.ls.r with
      | some c => t.runFault r cREGION_IDEM lo (i * 2 ^ 32 + c)
      | none =>
        let part := (wordsIn lo (hi - lo)).find? fun w => t.core.ls.poison.contains w && !coversWord lo (hi - lo) w
        let t := (t.localWrite lo bs).onLs fun l => { l with w := if l.w.contains i then l.w else l.w ++ [i] }
        match part with
        | some w => t.takeTrap (t.cmdRecAt t.dcc cPOISON r.q r.e.r 0 true (BitVec.ofNat 64 w) 0)
        | none => t) t) s

/-- Uncommitted lines of a slice, over all entries (R283). -/
def State.sliceHeld (s : State) (home : Nat) : Nat :=
  ((s.lines.filter fun l => l.uncommitted != 0 && s.homeSlice l.addr == home).map (·.uncommitted)).sum

/-- The entry owns a line from its first write on. -/
def State.ownLine (s : State) (a : Nat) : Option State :=
  if s.core.held.owned.contains (lineOf a) then some s
  else if 8192 ≤ s.core.held.owned.length then none
  else if isFabric a then some (s.onHeld fun h => { h with owned := h.owned ++ [lineOf a] })
  else if 12288 ≤ s.sliceHeld (s.homeSlice a) then none
  else
    (s.fillLine a).map fun t =>
      (t.useLine a fun l => { l with uncommitted := l.uncommitted + 1 }).onHeld fun h =>
        { h with owned := h.owned ++ [lineOf a] }

/-- A write through a handle is held in uncommitted lines (R116). -/
def State.writeMem (s : State) (r : Run) (m : Bytes) : State :=
  let all := runsOf m
  (runsOf m).foldl (fun (t : State) x =>
    if t.fencedAt t.core.part x.1 then (t.lookUp t.core.part x.1).runFault r cFENCED_PEER x.1 (t.peerOf t.core.part x.1)
    else
      match t.ownLine x.1 with
      | none => t.runFault r cREGION_OVERFLOW x.1 0
      | some t =>
        let part := (wordsIn x.1 x.2.length).find? fun w =>
          t.poison.contains w && !(all.any fun y => coversWord y.1 y.2.length w) && (t.unheld w 8).contains w
        let t := t.onHeld fun h => { h with lines := putBytes (fun b => ⟨b, s.dcc⟩) x.1 x.2 h.lines }
        match part with
        | some w => t.takeTrap (t.cmdRecAt t.dcc cPOISON r.q r.e.r (t.unitOf w) true (BitVec.ofNat 64 w) 0)
        | none => t) s

/-- A write to where a descriptor lies. -/
def State.writeTo (s : State) (r : Run) (loc : Bool) (m : Bytes) : State := if loc then s.writeMem r m else s.writeLocal r m

/-- A combine into memory is held until COMMIT; one into the local store raises REGION_IDEM (R115, R221). -/
def State.combine (s : State) (r : Run) (loc : Bool) (a n : Nat) (op : CombineOp) : State :=
  if loc then
    if s.fencedAt s.core.part a then (s.lookUp s.core.part a).runFault r cFENCED_PEER a (s.peerOf s.core.part a)
    else
      match s.ownLine a with
      | none => s.runFault r cREGION_OVERFLOW a 0
      | some t => t.onHeld fun h => { h with log := h.log ++ [⟨a, op⟩] }
  else
    let t := (s.bankUse r true a n).markRead a n
    let c := (SMap.find (a / 256) t.core.ls.r).getD 0
    t.runFault r cREGION_IDEM a (a / 256 * 2 ^ 32 + c)

/-! The phases in which a run's effects fall. Memory and accumulators take them before the reads of the cycle, the local store
after (R117, R213, R276). -/

def State.early (s : State) : Bool := s.phase == .mwrites


/-- A 1 for a claim bit of word 0. -/
def claimBit (r : CmdRec) (b : Nat) : Bool := r.w0.getLsbD b

end Sys2Proof.Machine
end

