-- ==== Sys2Proof/Machine/Trans.lean ====
section
/-! DEFINITION. The four transcendental functions by their tables and polynomials (R65 to R71). -/

namespace Sys2Proof.Machine

/-- 2^(j/32), rounded to FP32 (R66). -/
def tableTE : List Nat :=
  [0x3F800000, 0x3F82CD87, 0x3F85AAC3, 0x3F88980F, 0x3F8B95C2, 0x3F8EA43A, 0x3F91C3D3, 0x3F94F4F0,
   0x3F9837F0, 0x3F9B8D3A, 0x3F9EF532, 0x3FA27043, 0x3FA5FED7, 0x3FA9A15B, 0x3FAD583F, 0x3FB123F6,
   0x3FB504F3, 0x3FB8FBAF, 0x3FBD08A4, 0x3FC12C4D, 0x3FC5672A, 0x3FC9B9BE, 0x3FCE248C, 0x3FD2A81E,
   0x3FD744FD, 0x3FDBFBB8, 0x3FE0CCDF, 0x3FE5B907, 0x3FEAC0C7, 0x3FEFE4BA, 0x3FF5257D, 0x3FFA83B3]

/-- 1 / (1 + j/32), rounded to FP32 (R66). -/
def tableTR : List Nat :=
  [0x3F800000, 0x3F783E10, 0x3F70F0F1, 0x3F6A0EA1, 0x3F638E39, 0x3F5D67C9, 0x3F579436, 0x3F520D21,
   0x3F4CCCCD, 0x3F47CE0C, 0x3F430C31, 0x3F3E82FA, 0x3F3A2E8C, 0x3F360B61, 0x3F321643, 0x3F2E4C41,
   0x3F2AAAAB, 0x3F272F05, 0x3F23D70A, 0x3F20A0A1, 0x3F1D89D9, 0x3F1A90E8, 0x3F17B426, 0x3F14F209,
   0x3F124925, 0x3F0FB824, 0x3F0D3DCB, 0x3F0AD8F3, 0x3F088889, 0x3F064B8A, 0x3F042108, 0x3F020821]

/-- -log2 of the rounded TR[j], rounded to FP32 (R66). -/
def tableTL : List Nat :=
  [0x00000000, 0x3D35D690, 0x3DB31FB7, 0x3E0462C4, 0x3E2E00D1, 0x3E567AEF, 0x3E7DE0B5, 0x3E92203D,
   0x3EA4D3C2, 0x3EB71110, 0x3EC8DDD3, 0x3EDA3F60, 0x3EEB3A9E, 0x3EFBD42A, 0x3F060828, 0x3F0DF98A,
   0x3F15C01A, 0x3F1D5DA0, 0x3F24D3C3, 0x3F2C2410, 0x3F335004, 0x3F3A58FE, 0x3F41404E, 0x3F480731,
   0x3F4EAECF, 0x3F553847, 0x3F5BA4A5, 0x3F61F4E5, 0x3F6829FA, 0x3F6E44CF, 0x3F744636, 0x3F7A2F03]

/-- 1 / sqrt(b_j), with b_j = 1 + j/16 below 16 and 2 + (j - 16)/8 from 16 on, rounded to FP32 (R66). -/
def tableTQ : List Nat :=
  [0x3F800000, 0x3F785B42, 0x3F715BEF, 0x3F6AEBF5, 0x3F64F92E, 0x3F5F7483, 0x3F5A514A, 0x3F5584CD,
   0x3F5105EC, 0x3F4CCCCD, 0x3F48D2AB, 0x3F4511A3, 0x3F41848F, 0x3F3E26EB, 0x3F3AF4BA, 0x3F37EA74,
   0x3F3504F3, 0x3F2F9D53, 0x3F2AAAAB, 0x3F261D5F, 0x3F21E89B, 0x3F1E01B3, 0x3F1A5FB2, 0x3F16FB06,
   0x3F13CD3A, 0x3F10D0C3, 0x3F0E00D5, 0x3F0B5948, 0x3F08D677, 0x3F067532, 0x3F0432A5, 0x3F020C52]

/-- The value of an FP32 pattern. -/
def f32 (p : Nat) : Val := valOf .fp32 p

/-- Mul32 of R65: flags are not kept. -/
def mul32 (a b : Val) : Val := f32 ((exactMul a b).round .fp32 .rne false 0).pat

/-- FMA32 of R65. -/
def fma32 (a b c : Val) : Val := f32 ((exactFma a b c .rne).round .fp32 .rne false 0).pat

/-- A value times 2^k. -/
def Val.scale (v : Val) (k : Int) : Val :=
  match v with
  | .fin n m e => .fin n m (e + k)
  | v => v

/-- The final rounding of R65, always RNE. -/
def finalRound (v : Val) (sat : Bool) : Rounded := roundTo .fp32 v .rne sat 0

/-- Exp2Def of R68. The power n is cut at 400 on either side, far beyond where every result overflows or vanishes. -/
def exp2Def (x : Nat) (sat : Bool) : Rounded :=
  match f32 x with
  | .nan s => ⟨0x7FC00000, flagIf s flagNV⟩
  | .inf neg => ⟨if neg then 0 else 0x7F800000, 0⟩
  | .fin neg m e =>
    let t := (-e).toNat
    let k : Int := signedAt neg m e (min e 0)
    let n : Int := k / (2 ^ t : Nat)
    let fnum : Nat := (k % (2 ^ t : Nat)).toNat
    let j := fnum * 32 / 2 ^ t
    let f : Val := .fin false (fnum * 32 - j * 2 ^ t) (-(t : Int) - 5)
    let te := f32 (tableTE.getD j 0)
    let p := fma32 (f32 0x3D635847) f (f32 0x3E75FDF0)
    let p := fma32 p f (f32 0x3F317218)
    let q := mul32 p f
    let y := fma32 te q te
    let r := finalRound (y.scale (max (-400) (min 400 n))) sat
    ⟨r.pat, r.flags ||| flagIf (fnum != 0) flagNX⟩

/-- The significand of a finite value with 1 ≤ m < 2, and its exponent. -/
def normal (m : Nat) (e : Int) : Val × Int :=
  let l := Nat.log2 m
  (.fin false m (-(l : Int)), e + l)

/-- floor((m - 1) × 32) for 1 ≤ m < 2 with significand `m`. -/
def tableIndex (m : Nat) : Nat := m * 32 / 2 ^ Nat.log2 m - 32

/-- Is a significand a power of two? -/
def isPow2 (m : Nat) : Bool := m == 2 ^ Nat.log2 m

/-- Log2Def of R69. -/
def log2Def (x : Nat) (sat : Bool) : Rounded :=
  match f32 x with
  | .nan s => ⟨0x7FC00000, flagIf s flagNV⟩
  | .inf neg => if neg then ⟨0x7FC00000, flagNV⟩ else ⟨0x7F800000, 0⟩
  | .fin neg m e =>
    if m = 0 then ⟨0xFF800000, flagDZ⟩
    else if neg then ⟨0x7FC00000, flagNV⟩
    else
      let v := normal m e
      let j := tableIndex m
      let one := Val.fin false 1 0
      let u := fma32 v.1 (f32 (tableTR.getD j 0)) one.flip
      let p := fma32 (f32 0xBEB8AA3B) u (f32 0x3EF6384F)
      let p := fma32 p u (f32 0xBF38AA3B)
      let p := fma32 p u (f32 0x3FB8AA3B)
      let p := mul32 p u
      let t := f32 ((exactAdd (f32 (tableTL.getD j 0)) p .rne).round .fp32 .rne false 0).pat
      let r := (exactAdd (valOfInt v.2) t .rne).round .fp32 .rne sat 0
      ⟨r.pat, r.flags ||| flagIf (!isPow2 m) flagNX⟩

/-- One Newton step of R70. -/
def rcpStep (m y : Val) : Val :=
  let h := fma32 m.flip y (.fin false 1 0)
  fma32 y h y

/-- RcpDef of R70. A reciprocal is exact only for a power of two. -/
def rcpDef (x : Nat) (sat : Bool) : Rounded :=
  match f32 x with
  | .nan s => ⟨0x7FC00000, flagIf s flagNV⟩
  | .inf neg => ⟨withSign .fp32 neg 0, 0⟩
  | .fin neg m e =>
    if m = 0 then ⟨withSign .fp32 neg 0x7F800000, flagDZ⟩
    else
      let v := normal m e
      let y := rcpStep v.1 (rcpStep v.1 (f32 (tableTR.getD (tableIndex m) 0)))
      let y := if neg then y.flip else y
      let r := finalRound (y.scale (-v.2)) sat
      ⟨r.pat, r.flags ||| flagIf (!isPow2 m) flagNX⟩

/-- One Newton step of R71. -/
def rsqrtStep (m y : Val) : Val :=
  let t := mul32 m (mul32 y y)
  let h := fma32 (.fin true 1 (-1)) t (.fin false 3 (-1))
  mul32 y h

/-- RsqrtDef of R71. The result is exact only where m = 1. -/
def rsqrtDef (x : Nat) (sat : Bool) : Rounded :=
  match f32 x with
  | .nan s => ⟨0x7FC00000, flagIf s flagNV⟩
  | .inf neg => if neg then ⟨0x7FC00000, flagNV⟩ else ⟨0, 0⟩
  | .fin neg m e =>
    if m = 0 then ⟨withSign .fp32 neg 0x7F800000, flagDZ⟩
    else if neg then ⟨0x7FC00000, flagNV⟩
    else
      let v := normal m e
      let odd := v.2 % 2 != 0
      let k := if odd then (v.2 - 1) / 2 else v.2 / 2
      let w := if odd then v.1.scale 1 else v.1
      -- with m in 2 to 4 the index is 16 + floor((m - 2) * 8), below 2 it is floor((m - 1) * 16)
      let j := (if odd then 16 else 0) + (m * 16 / 2 ^ Nat.log2 m - 16)
      let y := rsqrtStep w (rsqrtStep w (f32 (tableTQ.getD j 0)))
      let r := finalRound (y.scale (-k)) sat
      ⟨r.pat, r.flags ||| flagIf (odd || !isPow2 m) flagNX⟩

end Sys2Proof.Machine
end

