-- ==== Sys2Proof/Machine/Chisel.lean ====
section
/-! DEFINITION. Chisels: managing slots, constants and tile tags (R182 to R189), the passage of elements through ports (R177
to R181, R192 to R194), and the chisel words (R190, R191). -/

namespace Sys2Proof.Machine

/-! Management. These instructions raise ILLEGAL in the firmware context. -/

def Arch.slot (a : Arch) (n : BitVec 4) : ChiselSlot := a.slots.get n.toFin

def Arch.onSlot (a : Arch) (n : BitVec 4) (f : ChiselSlot → ChiselSlot) : Arch :=
  { a with slots := a.slots.set n.toNat (f (a.slot n)) n.isLt }

def Port.fin : Port → Fin 4
  | .a => 0
  | .b => 1
  | .d => 2
  | .s => 3

def Arch.onPort (a : Arch) (p : Port) (f : PortRegs → PortRegs) : Arch :=
  { a with ports := Vector.ofFn fun i => if i = Port.fin p then f (a.ports.get i) else a.ports.get i }

/-- Is the slot bound to a port that a command holds (R188)? -/
def State.slotBusy (s : State) (n : BitVec 4) : Bool :=
  match (s.core.arch.slot n).port with
  | some p => s.portClaimed p
  | none => false

/-- Fault or effect, the lowest code first: ILLEGAL, then PORT_BUSY (R32, R188). -/
def State.unlessBusy (s : State) (busy : Bool) (k : State) : State := if busy then s.fault cPORT_BUSY 0 else k

/-- The chisel words at an h0 offset; poisoned words have contents that are open (R338) (DEDUCED, log entry 68). -/
def State.chiselWords (s : State) (o n : Nat) : List Word32 × State :=
  let bad := (wordsIn o (4 * n)).any fun w => s.core.ls.poison.contains w
  let r := if bad then s.freeBytes (4 * n) else (s.core.ls.mem.readBytes o (4 * n), s)
  ((splitEvery 4 n r.1).map fun bs => BitVec.ofNat 32 (leNat bs), r.2)

/-- The first word that PLOAD rejects. -/
def badChisel (ws : List Word32) : Option Nat :=
  ws.findIdx? fun w =>
    match decodeChisel w with
    | .ok _ => false
    | .error _ => true

def execPload (slot : BitVec 4) (a : Reg) (n : BitVec 5) (s : State) : Out :=
  let o := (s.src a).toNat
  let k := n.toNat
  .next (s.userOnly
    (if o % 4 != 0 || decide (0x60000 < o + 4 * k) then s.illegal
     else
      let r := s.chiselWords o k
      let t := r.2.markRead o (4 * k)
      match badChisel r.1 with
      | some i => t.fault cILLEGAL (ofFields [(slot.toNat, 8), (i, 0)])
      | none =>
        t.unlessBusy (t.slotBusy slot)
          ((t.pending (.slot slot) (some (s.dcc + 4))).at_ (s.dcc + 4) ordResult s.me (.ploadInstall slot r.1))))

/-- Four cycles after the PLOAD its program is in place. -/
def execPloadInstall (slot : BitVec 4) (prog : List Word32) (s : State) : Out :=
  .next ((s.onArch fun a => installSlot a slot prog).settled (.slot slot))

def clearCarried (p : PortRegs) : PortRegs := { p with c := Vector.replicate 4 0 }

/-- Bind: any other slot leaves the port, and the slot leaves any other port. -/
def bindSlot (a : Arch) (slot : BitVec 4) (p : Port) : Arch :=
  ({ a with slots := Vector.ofFn fun i =>
      let c := a.slots.get i
      if i = slot.toFin then { c with port := some p } else if c.port = some p then { c with port := none } else c }).onPort p
    clearCarried

def execPbind (slot : BitVec 4) (p : Port) (s : State) : Out :=
  .next (s.userOnly
    (if (s.core.arch.slot slot).prog.isEmpty then s.illegal
     else s.unlessBusy (s.portClaimed p || s.slotBusy slot) (s.onArch fun a => bindSlot a slot p)))

def execPbindUn (slot : BitVec 4) (s : State) : Out :=
  .next (s.userOnly
    (match (s.core.arch.slot slot).port with
    | none => s
    | some p =>
      s.unlessBusy (s.portClaimed p)
        (s.onArch fun a => (a.onSlot slot fun c => { c with port := none }).onPort p clearCarried)))

def execPconst (p : Port) (k : EReg) (a : Reg) (s : State) : Out :=
  .next (s.userOnly (s.onArch fun x => x.onPort p fun r => { r with k := r.k.set k.toNat ((s.src a).setWidth 32) k.isLt }))

def execPctl (slot : BitVec 4) (ctl : BitVec 15) (s : State) : Out :=
  .next (s.userOnly (s.unlessBusy (s.slotBusy slot) (s.onArch fun a => a.onSlot slot fun c => { c with ctl := ctl })))

def execPstat (a : Reg) (slot : BitVec 4) (s : State) : Out := .next (s.userOnly (s.putS a (s.core.arch.slot slot).pstat))

/-! Tile tags (R189). -/

def execTtagRd (a : Reg) (tile : BitVec 7) (s : State) : Out :=
  .next (s.userOnly (s.putS a (BitVec.ofNat 64 (s.core.ls.tag tile.toNat).word)))

def State.setTag (s : State) (tile : BitVec 7) (t : TileTag) : State :=
  s.onLs fun l => { l with tags := Vector.ofFn fun i => if i.val = tile.toNat then t else l.tags.get i }

def execTtagWr (tile : BitVec 7) (a : Reg) (s : State) : Out :=
  let v := s.src a
  .next (s.userOnly
    (if wfield v 30 22 != 0 || tagReserved (wfield v 21 16) then s.illegal
     else s.setTag tile ⟨v.getLsbD 31, BitVec.ofNat 6 (wfield v 21 16), v.setWidth 16⟩))

def execTclr (tile : BitVec 7) (s : State) : Out := .next (s.userOnly (s.setTag tile ⟨false, 0, 0⟩))

/-! The passage of elements. -/

/-- Does a program read or change carried state: GETC, PUTC, PREV, CACC? -/
def carries (prog : List Word32) : Bool :=
  prog.any fun w => decide (0x15 ≤ w.toNat / 2 ^ 26) && decide (w.toNat / 2 ^ 26 ≤ 0x18)

def Job.rrow (j : Job) : Bool := j.ctl.getLsbD 12
def Job.sat (j : Job) : Bool := j.ctl.getLsbD 8
def Job.ten (j : Job) : BitVec 8 := j.ctl.setWidth 8
def Job.orm (j : Job) : Rm := rmOf (j.ctl.toNat / 2 ^ 9 % 8)

/-- Does the element run the program? -/
def Job.runs (j : Job) : Bool := !j.bypass && !j.absent

/-- Is the carried state cleared before the element (R186)? -/
def Job.clears (j : Job) : Bool := j.rrow && j.col == 0 && j.runs

/-- An element that enters a claimed port in cycle `enter`. `raw` is its code on ports A and B, `v` what e0 holds. -/
def mkJob (r : Run) (u : PortUse) (idx row col raw v fmt : Nat) (hash : BitVec 16) (enter : Nat) (final absent : Bool) : Job :=
  { run := r.id, port := u.port, slot := u.slot, idx := idx, row := row, col := col, prog := u.prog, pc := 0,
    e := (Vector.replicate 8 0).set 0 (BitVec.ofNat 32 v), q := Vector.replicate 4 false, c := Vector.replicate 4 0,
    k := Vector.replicate 8 0, out := none, drop := false, entry := BitVec.ofNat 32 v, raw := raw, fmt := fmt,
    ctl := u.ctl, flags := 0, hash := hash, enter := enter, leave := enter + passLatency u.prog.length,
    bypass := !r.e.mask.getLsbD (laneBase u.port + idx % lanesOf u.port), absent := absent, final := final, trap := none }

/-- DEDUCED, log entry 64. -/
def State.addJobs (s : State) (js : List Job) : State := s.onEng fun e => { e with waitJobs := e.waitJobs ++ js }

/-- Elements take the port constants of the cycle in which they enter (R185). -/
def State.enterJobs (s : State) : State :=
  s.onEng fun e =>
    { e with waitJobs := e.waitJobs.map fun j =>
        if j.enter = s.dcc then { j with k := (s.core.arch.ports.get (Port.fin j.port)).k } else j }

/-- The state that the element before left, if it has passed. -/
def Run.carriedAt (r : Run) (p : Port) (idx : Nat) : Option (Vector Word32 4) :=
  (r.carry.find? fun x => x.port == p && x.idx == idx).map (·.c)

/-- The carried state in which an element starts; none while an element before it has not passed (R192)
(DEDUCED, log entry 65). -/
def State.carriedIn (s : State) (j : Job) : Option (Vector Word32 4) :=
  let c := (s.core.arch.ports.get (Port.fin j.port)).c
  if !carries j.prog then some (if j.clears then Vector.replicate 4 0 else c)
  else if j.clears then some (Vector.replicate 4 0)
  else if j.idx = 0 then some c
  else (s.runOf j.run).bind fun r => r.carriedAt j.port (j.idx - 1)

/-- The element that runs next: it has entered, and the element before it has passed where that matters. -/
def State.readyJob (s : State) : Option Job :=
  s.core.eng.waitJobs.find? fun j => decide (j.enter ≤ s.dcc) && (s.carriedIn j).isSome

def State.setCarried (s : State) (p : Port) (c : Vector Word32 4) : State := s.onArch fun a => a.onPort p fun r => { r with c := c }

/-- The state an element leaves: for the next element, and in the port after the last. -/
def State.carryOut (s : State) (j : Job) : State :=
  if carries j.prog then
    let s := match s.runOf j.run with
      | some r => s.setRun { r with
          carry := (r.carry.filter fun x => x.port != j.port || x.idx + 1 != j.idx) ++ [⟨j.port, j.idx, j.c⟩] }
      | none => s
    if j.final then s.setCarried j.port j.c else s
  else if j.clears then s.setCarried j.port (Vector.replicate 4 0)
  else s

/-- The value that leaves the port before any output conversion (R181). -/
def Job.value (j : Job) : Word32 := if j.runs then j.out.getD (j.e.get 0) else j.entry

/-- The TRAP record of R194. -/
def State.chiselTrap (s : State) (j : Job) (f : Flags) (cpc src res : Nat) : TrapRec :=
  let qs := match s.runOf j.run with
    | some r => (r.q.code, stampOf r.e.r)
    | none => (0, 0)
  { cause := cCHISEL_NUM,
    v0 := ofFields [((f &&& j.ten).toNat, 40), (j.slot.toNat, 36), (cpc, 31), (j.port.code, 29), (qs.1, 24), (qs.2, 0)],
    v1 := ofFields [(j.row, 32), (j.col, 0)], v2 := ofFields [(src % 2 ^ 32, 32), (j.entry.toNat, 0)],
    v3 := ofFields [(res % 2 ^ 32, 0)], access := none, stored := false }

/-- The output conversion of ports A and B (R181): the code, with the element's flags or its trap. -/
def State.outConv (s : State) (j : Job) : Nat × Job :=
  if !j.runs || j.trap.isSome then (j.raw, j)
  else if j.drop then (0, j)
  else
    let v := j.value.toNat
    let r := if j.fmt = tagI8 then convertTo j.fmt true v .rne false 0 else convertTo j.fmt false v j.orm j.sat j.hash
    if r.flags &&& j.ten ≠ 0 then (j.raw, { j with trap := some (s.chiselTrap j r.flags 16 v r.pat) })
    else (r.pat, { j with flags := j.flags ||| r.flags })

/-- Put a code behind the latest of a row or column. -/
def pushCode (l : List (List Nat)) (i code : Nat) : List (List Nat) := l.modify i fun r => code :: r

/-- Hand the element to its command: operands to the array, a COPY's source element to port D, anything else to the
destination. -/
def State.deliver (s : State) (j : Job) (code : Nat) : State :=
  match s.runOf j.run with
  | none => s
  | some r =>
    match j.port with
    | .a => s.setRun { r with capA := pushCode r.capA j.row code }
    | .b => s.setRun { r with capB := pushCode r.capB j.col code }
    | .d => s.setRun { r with outs := r.outs ++ [⟨j.idx, j.value, j.drop || j.absent⟩] }
    | .s =>
      match r.useOf .d with
      | some u =>
        if r.e.r.code = 0x10 then
          s.addJobs [mkJob r u j.idx j.row j.col 0 j.value.toNat 0 j.hash j.leave j.final j.drop]
        else s.setRun { r with outs := r.outs ++ [⟨j.idx, j.value, j.drop⟩] }
      | none => s.setRun { r with outs := r.outs ++ [⟨j.idx, j.value, j.drop⟩] }

/-- The element has run its program: its output is converted on ports A and B, its flags or its trap fall in the cycle in
which it leaves, and it goes where the port leads (R181, R193). -/
def State.finishJob (s : State) (j : Job) : State :=
  let r := match j.port with
    | .a | .b => s.outConv j
    | .d | .s => (0, j)
  let j := r.2
  let s := if j.flags ≠ 0 || j.trap.isSome then s.addLeave ⟨j.leave, j.port, j.idx, j.slot, j.flags, j.trap, []⟩ else s
  (s.carryOut j).deliver j r.1

/-- The element leaves the list of those that wait, and starts; a bypassed or absent one passes at once. -/
def State.startJob (s : State) (j : Job) : State :=
  let t := s.onEng fun e =>
    { e with waitJobs := e.waitJobs.filter fun x => x.run != j.run || x.port != j.port || x.idx != j.idx }
  let j := { j with c := (s.carriedIn j).getD j.c }
  if j.runs && !j.prog.isEmpty then t.onEng fun e => { e with jobs := e.jobs ++ [j] } else t.finishJob j

/-! Executing a word on the lane of the element that runs (R190). -/

/-- The element moves on: to its next word, or out of the port after its last or after a trap. -/
def State.nextWord (s : State) (j : Job) : State :=
  let j := { j with pc := j.pc + 1 }
  let t := s.onEng fun e => { e with jobs := e.jobs.drop 1 }
  if j.prog.length ≤ j.pc || j.trap.isSome then t.finishJob j else t.onEng fun e => { e with jobs := j :: e.jobs }

/-- What a word computes: its result with its flags, and the value a trap record names as its source. -/
structure WordResult where
  res : Nat
  flags : Flags
  src : Nat
  deriving DecidableEq, Repr

/-- Run a word. A flag whose trap is enabled raises CHISEL_NUM; otherwise the result is written. -/
def State.chisel (s : State) (g : Job → WordResult) (put : Job → Word32 → Job) : State :=
  match s.core.eng.jobs.head? with
  | none => s
  | some j =>
    let x := g j
    if x.flags &&& j.ten ≠ 0 then s.nextWord { j with trap := some (s.chiselTrap j x.flags j.pc x.src x.res) }
    else s.nextWord { put j (BitVec.ofNat 32 x.res) with flags := j.flags ||| x.flags }

def Job.x (j : Job) (a : EReg) : Nat := (j.e.get a.toFin).toNat
def Job.xk (j : Job) (a : EReg) : Nat := (j.k.get a.toFin).toNat
def Job.xc (j : Job) (a : QReg) : Nat := (j.c.get a.toFin).toNat
def Job.xq (j : Job) (a : QReg) : Bool := j.q.get a.toFin

def Job.setE (d : EReg) (j : Job) (v : Word32) : Job := { j with e := j.e.set d.toNat v d.isLt }
def Job.setC (d : QReg) (j : Job) (v : Word32) : Job := { j with c := j.c.set d.toNat v d.isLt }
def Job.setQ (d : QReg) (j : Job) (v : Word32) : Job := { j with q := j.q.set d.toNat (v != 0) d.isLt }
def Job.keep (j : Job) (_ : Word32) : Job := j

/-- A rounded result, whose source is the value of src1. -/
def Job.rounded (j : Job) (a : EReg) (r : Rounded) : WordResult := ⟨r.pat, r.flags, j.x a⟩

/-- A result that raises nothing. -/
def Job.plain (j : Job) (a : EReg) (v : Nat) : WordResult := ⟨v % 2 ^ 32, 0, j.x a⟩

def execChiselFadd (d a b : EReg) (rm : Rm) (s : State) : Out :=
  .next (s.chisel (fun j => j.rounded a (fpAdd (j.x a) (j.x b) rm j.sat j.hash)) (Job.setE d))

def execChiselFsub (d a b : EReg) (rm : Rm) (s : State) : Out :=
  .next (s.chisel (fun j => j.rounded a (fpSub (j.x a) (j.x b) rm j.sat j.hash)) (Job.setE d))

def execChiselFmul (d a b : EReg) (rm : Rm) (s : State) : Out :=
  .next (s.chisel (fun j => j.rounded a (fpMul (j.x a) (j.x b) rm j.sat j.hash)) (Job.setE d))

def execChiselFma (d a b c : EReg) (rm : Rm) (s : State) : Out :=
  .next (s.chisel (fun j => j.rounded a (fpFma (j.x a) (j.x b) (j.x c) rm j.sat j.hash)) (Job.setE d))

def execChiselFmin (d a b : EReg) (s : State) : Out :=
  .next (s.chisel (fun j => j.rounded a (fminmax false (j.x a) (j.x b))) (Job.setE d))

def execChiselFmax (d a b : EReg) (s : State) : Out :=
  .next (s.chisel (fun j => j.rounded a (fminmax true (j.x a) (j.x b))) (Job.setE d))

def execChiselFabs (d a : EReg) (s : State) : Out := .next (s.chisel (fun j => j.plain a (j.x a % 2 ^ 31)) (Job.setE d))

def execChiselFneg (d a : EReg) (s : State) : Out :=
  .next (s.chisel (fun j => j.plain a (Nat.xor (j.x a) (2 ^ 31))) (Job.setE d))

/-- CLAMP: NaN gives the canonical NaN; a NaN bound is ignored. -/
def clampOf (x lo hi : Nat) : Rounded :=
  let v := valOf .fp32 x
  if v.isNan then ⟨0x7FC00000, snanFlag [v]⟩
  else
    let a := fminmax true x lo
    let b := fminmax false a.pat hi
    ⟨b.pat, a.flags ||| b.flags⟩

def execChiselClamp (d a lo hi : EReg) (s : State) : Out :=
  .next (s.chisel (fun j => j.rounded a (clampOf (j.x a) (j.xk lo) (j.xk hi))) (Job.setE d))

def execChiselFcmp (d : QReg) (a b : EReg) (c : FCond) (s : State) : Out :=
  .next (s.chisel (fun j => let r := fcmpOf c (j.x a) (j.x b); ⟨bit r.1, r.2, j.x a⟩) (Job.setQ d))

def execChiselSel (d a b : EReg) (q : QReg) (s : State) : Out :=
  .next (s.chisel (fun j => j.plain a (if j.xq q then j.x a else j.x b)) (Job.setE d))

def CvtFmt.tag : CvtFmt → Nat
  | .fp32 => 1
  | .bf16 => 2
  | .fp16 => 3
  | .e4m3 => 4
  | .e5m2 => 5
  | .i8 => 8
  | .i32 => 9

/-- CVT: the converted value, held as FP32 or as I32. -/
def cvtOf (tag x : Nat) (rm : Rm) (sat : Bool) (hash : BitVec 16) : Rounded :=
  let r := convertTo tag false x rm sat hash
  ⟨widen tag r.pat, r.flags⟩

def execChiselCvt (d a : EReg) (f : CvtFmt) (rm : Rm) (s : State) : Out :=
  .next (s.chisel (fun j => j.rounded a (cvtOf (CvtFmt.tag f) (j.x a) rm j.sat j.hash)) (Job.setE d))

def execChiselCvtI2f (d a : EReg) (rm : Rm) (s : State) : Out :=
  .next (s.chisel (fun j => j.rounded a (cvtI2f (j.x a) rm j.hash)) (Job.setE d))

def execChiselExp2 (d a : EReg) (s : State) : Out :=
  .next (s.chisel (fun j => j.rounded a (exp2Def (j.x a) j.sat)) (Job.setE d))

def execChiselLog2 (d a : EReg) (s : State) : Out :=
  .next (s.chisel (fun j => j.rounded a (log2Def (j.x a) j.sat)) (Job.setE d))

def execChiselRcp (d a : EReg) (s : State) : Out :=
  .next (s.chisel (fun j => j.rounded a (rcpDef (j.x a) j.sat)) (Job.setE d))

def execChiselRsqrt (d a : EReg) (s : State) : Out :=
  .next (s.chisel (fun j => j.rounded a (rsqrtDef (j.x a) j.sat)) (Job.setE d))

/-- An immediate, sign-extended to 32 bits. -/
def immOf (i : BitVec 13) : Nat := (i.signExtend 32).toNat

def execChiselIadd (d a b : EReg) (s : State) : Out :=
  .next (s.chisel (fun j => j.plain a (j.x a + j.x b)) (Job.setE d))

def execChiselIaddImm (d a : EReg) (i : BitVec 13) (s : State) : Out :=
  .next (s.chisel (fun j => j.plain a (j.x a + immOf i)) (Job.setE d))

def execChiselIand (d a b : EReg) (s : State) : Out :=
  .next (s.chisel (fun j => j.plain a (Nat.land (j.x a) (j.x b))) (Job.setE d))

def execChiselIandImm (d a : EReg) (i : BitVec 13) (s : State) : Out :=
  .next (s.chisel (fun j => j.plain a (Nat.land (j.x a) (immOf i))) (Job.setE d))

/-- A shift left by a signed count; a negative count shifts right, and a count of 32 or more either way gives 0. -/
def shiftOf (x y : Nat) : Nat :=
  let n := toSigned 32 y
  if 0 ≤ n ∧ n ≤ 31 then x * 2 ^ n.toNat % 2 ^ 32 else if -31 ≤ n ∧ n < 0 then x / 2 ^ (-n).toNat else 0

def execChiselIshl (d a b : EReg) (s : State) : Out :=
  .next (s.chisel (fun j => j.plain a (shiftOf (j.x a) (j.x b))) (Job.setE d))

def execChiselIshlImm (d a : EReg) (i : BitVec 13) (s : State) : Out :=
  .next (s.chisel (fun j => j.plain a (shiftOf (j.x a) (immOf i))) (Job.setE d))

def execChiselMovk (d k : EReg) (s : State) : Out := .next (s.chisel (fun j => ⟨j.xk k, 0, 0⟩) (Job.setE d))

def execChiselMovkX (d a : EReg) (s : State) : Out :=
  .next (s.chisel (fun j => j.plain a (j.xk (BitVec.ofNat 3 (j.x a)))) (Job.setE d))

def execChiselGetc (d : EReg) (c : QReg) (s : State) : Out := .next (s.chisel (fun j => ⟨j.xc c, 0, 0⟩) (Job.setE d))

def execChiselPutc (c : QReg) (a : EReg) (s : State) : Out := .next (s.chisel (fun j => j.plain a (j.x a)) (Job.setC c))

/-- The delay line: c(i) takes c(i − 1) for i from d − 1 down to 1, and c0 takes x. -/
def Job.shiftIn (j : Job) (n : BitVec 2) (v : Word32) : Job :=
  { j with c := Vector.ofFn fun i => if i.val = 0 then v else if i.val ≤ n.toNat then j.c.get (i - 1) else j.c.get i }

def execChiselPrev (d a : EReg) (n : BitVec 2) (s : State) : Out :=
  .next (s.chisel (fun j => j.plain a (j.xc n)) fun j v => Job.setE d (j.shiftIn n (BitVec.ofNat 32 (j.x a))) v)

def caccOf (m : CaccMode) (c x : Nat) (rm : Rm) (sat : Bool) (hash : BitVec 16) : Rounded :=
  match m with
  | .add => fpAdd c x rm sat hash
  | .max => fminmax true c x
  | .min => fminmax false c x
  | .sqadd => fpFma x x c rm sat hash

def execChiselCacc (c : QReg) (a : EReg) (m : CaccMode) (rm : Rm) (s : State) : Out :=
  .next (s.chisel (fun j => j.rounded a (caccOf m (j.xc c) (j.x a) rm j.sat j.hash)) (Job.setC c))

def execChiselRaise (q : QReg) (a : EReg) (f : BitVec 8) (s : State) : Out :=
  .next (s.chisel (fun j => if j.xq q then ⟨0, f, j.x a⟩ else ⟨0, 0, 0⟩) Job.keep)

def execChiselOut (a : EReg) (s : State) : Out :=
  .next (s.chisel (fun j => j.plain a (j.x a)) fun j v => { j with out := some v })

def execChiselCoordRow (d : EReg) (s : State) : Out := .next (s.chisel (fun j => ⟨j.row, 0, 0⟩) (Job.setE d))

def execChiselCoordCol (d : EReg) (s : State) : Out := .next (s.chisel (fun j => ⟨j.col, 0, 0⟩) (Job.setE d))

def execChiselDrop (q : QReg) (s : State) : Out :=
  .next (s.chisel (fun _ => ⟨0, 0, 0⟩) fun j _ => { j with drop := j.drop || j.xq q })

/-! The end of a cycle. -/

/-- Insert by port, then by stream position: the order in which several traps of one cycle are judged (R193). -/
def Leave.insert (l : Leave) : List Leave → List Leave
  | [] => [l]
  | x :: rest =>
    if l.port.code < x.port.code || l.port.code == x.port.code && decide (l.idx < x.idx) then l :: x :: rest
    else x :: Leave.insert l rest

/-- Words become poisoned. -/
def State.markPoison (s : State) (ws : List (Bool × Nat)) : State :=
  ws.foldl (fun (t : State) w =>
    if w.1 then { t with poison := if t.poison.contains w.2 then t.poison else t.poison ++ [w.2] }
    else t.onLs fun l => { l with poison := if l.poison.contains w.2 then l.poison else l.poison ++ [w.2] }) s

/-- One effect that falls due. -/
def State.applyLeave (s : State) (l : Leave) : State :=
  let s := s.markPoison l.marks
  let s := if l.flags = 0 then s
    else (s.raise l.flags).onArch fun a => a.onSlot l.slot fun c => { c with sflg := c.sflg ||| l.flags }
  match l.trap with
  | some t => s.takeTrap t
  | none => s

/-- The effects of elements that leave their ports, and of words consumed, in the present cycle. -/
def State.takeLeaves (s : State) : State :=
  let due := s.core.eng.leaves.filter fun l => decide (l.at_ ≤ s.dcc)
  let s := s.onEng fun e => { e with leaves := e.leaves.filter fun l => decide (s.dcc < l.at_) }
  (due.foldl (fun acc l => l.insert acc) []).foldl State.applyLeave s

end Sys2Proof.Machine
end

