-- ==== Sys2Proof/Machine/Matrix.lean ====
section
/-! DEFINITION. The matrix commands MMA, MMA.SP and MMA.MX (R196 to R210), ACCZ (R211) and ACCST (R212, R213). -/

namespace Sys2Proof.Machine

def ceilDiv (a b : Nat) : Nat := (a + b - 1) / b

/-- Run the beat of a command: its start at the head of a queue, or the reads or writes of a running one, each of which happens as a
whole or waits. -/
def State.onBeat (s : State) (b : Beat) (start : Queue → State) (read write : State → Run → State) : State :=
  match b with
  | .start q => start q
  | .read id =>
    match s.runOf id with
    | some r => s.attempt r fun t => read t r
    | none => s
  | .write id =>
    match s.runOf id with
    | some r => s.attempt r fun t => write t r
    | none => s

/-! Accumulators (R15). -/

def State.accOf (s : State) (n : Nat) : Acc := s.core.acc.toList.getD n Acc.empty

def Acc.at (a : Acc) (i j : Nat) : Word32 := if a.tag = 0 then 0 else SMap.get 0 (i * 64 + j) a.el

/-- Elements of row `i` from column `c` on are written, and the tag is set; an EMPTY accumulator held zeros. -/
def Acc.putRow (a : Acc) (tag i c : Nat) (vs : List (Option Word32)) : Acc :=
  let el := if a.tag = 0 then [] else a.el
  { tag := BitVec.ofNat 6 tag
    el := (vs.foldl (fun (x : SMap Word32 × Nat) v =>
      (match v with
      | some w => SMap.set 0 (i * 64 + x.2) w x.1
      | none => x.1, x.2 + 1)) (el, c)).1 }

def State.onAcc (s : State) (n : Nat) (f : Acc → Acc) : State :=
  s.onCore fun c => { c with acc := Vector.ofFn fun i => if i.val = n then f (c.acc.get i) else c.acc.get i }

/-! The MMA record (R199). -/

structure Mma where
  k : Nat
  n : Nat
  m : Nat
  ad : Nat
  bf : Nat
  af : Nat
  mx : Bool
  sp : Bool
  acc : Bool
  accsat : Bool
  outl : Bool
  deriving DecidableEq, Repr

def mmaOf (r : CmdRec) : Mma :=
  { k := wfield r.w1 41 26 + 1, n := wfield r.w1 25 20 + 1, m := wfield r.w1 19 14 + 1, ad := wfield r.w1 13 12,
    bf := wfield r.w1 11 6, af := wfield r.w1 5 0, mx := r.code == 0x03, sp := r.code == 0x02, acc := r.w0.getLsbD 20,
    accsat := r.w0.getLsbD 19, outl := r.w0.getLsbD 21 && r.w6.getLsbD 58 }

/-- k per array cycle (R205). -/
def kpcOf (tag : Nat) : Nat :=
  match tag with
  | 2 | 3 => 1
  | 6 | 7 => 4
  | _ => 2

def Mma.kpc (m : Mma) : Nat := kpcOf m.af

/-- Length of a chunk or block (R61 to R64). -/
def Mma.chunk (m : Mma) : Nat := if m.kpc = 2 then 128 else 32

def Mma.int (m : Mma) : Bool := m.af == tagI8

/-- The accumulator tag of the form (R201). -/
def Mma.tag (m : Mma) : Nat := if m.int then tagI32 else tagFP32

/-- Bytes of a scale (R202). -/
def Mma.scaleBytes (m : Mma) : Nat := if m.mx then (if m.af = tagG4 then 2 else 1) else 4

/-- Are scales carried? -/
def mmaScaled (r : CmdRec) : Bool := r.w4.getLsbD 58

/-! The checks of a push (R200, R201, R208). The formats come last: FORMAT has the higher code. -/

def mmaFormats (m : Mma) (r : CmdRec) : Bool :=
  let a := m.af
  let b := m.bf
  let s4 := r.w4.getLsbD 58
  let s5 := r.w5.getLsbD 58
  let outl := r.w0.getLsbD 21
  let f8 (t : Nat) : Bool := t == tagE4M3 || t == tagE5M2
  if m.mx then a == b && (a == tagE2M1 || a == tagG4) && s4 && s5 && !outl
  else if a == b && (a == tagBF16 || a == tagFP16 || a == tagI8) then !s4 && !s5 && !outl
  else f8 a && f8 b && s4 == s5 && (!outl || !m.sp)

/-- What a push of an MMA record raises (R200 to R207). The side list's OFF and PITCH are held to its 32-byte record
(DESIGN CHOICE, log entry 100). -/
def mmaFaults (q : Queue) (hs : Vector Handle 16) (amask : BitVec 4) (r : CmdRec) : List PushFault :=
  let m := mmaOf r
  let eA := elemBits m.af
  let eB := elemBits m.bf
  let nch := ceilDiv m.k m.chunk
  let alA := if eA = 4 then 16 else eA / 8
  let alB := if eB = 4 then 16 else eB / 8
  let sb := m.scaleBytes
  reservedFaults q r [maskOcScope, maskOf 63 42, 0, 0, 0, 0, if m.mx || m.sp then allBits else 0, if m.sp then 0 else allBits] ++
    faultIf (tagReserved m.af || tagReserved m.bf) (pushFault q cILLEGAL 1) ++
    faultIf (m.mx && m.k % 32 != 0) (pushFault q cILLEGAL 1) ++
    arrayFaults q hs r.w2 2 m.m (ceilDiv (m.k * eA) 8) alA permR ++
    (if m.mx then arrayFaults q hs r.w3 3 m.n (ceilDiv m.k 2) 16 permR
     else if m.sp then arrayFaults q hs r.w3 3 1 0 alB permR
     else arrayFaults q hs r.w3 3 m.k (ceilDiv (m.n * eB) 8) alB permR) ++
    optionalFaults q hs r.w4 4 m.m (nch * sb) sb permR ++
    optionalFaults q hs r.w5 5 (if m.mx then m.n else 1) (nch * sb) sb permR ++
    (if m.mx || m.sp then [] else optionalFaults q hs r.w6 6 m.m (32 * nch) 32 permR) ++
    (if m.sp then
      faultIf (!r.w7.getLsbD 58 || wfield r.w7 47 32 != 0) (pushFault q cILLEGAL 7) ++
        arrayFaults q hs r.w7 7 1 (4 * (m.k + 1)) 4 permR
     else []) ++
    faultIf (!mmaFormats m r) (pushFault q cFORMAT 1) ++
    faultIf (!amask.getLsbD m.ad) ⟨cREGION_IDEM, BitVec.ofNat 64 (2 ^ m.ad)⟩

/-! The schedule (R203, R205). -/

def Run.mma (r : Run) : Mma := mmaOf r.e.r

def Run.cw (r : Run) : Nat := (r.sh + 1) * 16
def Run.passes (r : Run) : Nat := ceilDiv r.mma.n r.cw
def Run.kc (r : Run) : Nat := ceilDiv r.mma.k r.mma.kpc
def Run.la (r : Run) : Nat := max (r.pl .a) (r.pl .b)

def Run.stepCycles (r : Run) : Nat :=
  let m := r.mma
  max 1 (max (ceilDiv (m.m * m.kpc * r.rate .a) 32) (ceilDiv (m.n * m.kpc * r.rate .b) 32))

def Run.steps (r : Run) : Nat := r.passes * r.kc

/-- E0, as far as the schedule has slipped. -/
def Run.e0 (r : Run) : Nat := (r.first.getD (r.s + r.slip)) + r.lf + r.la

/-- The cycle after the last array cycle. -/
def Run.arrayEnd (r : Run) : Nat := r.s + r.slip + r.lf + r.la + r.steps * r.stepCycles

def Run.mmaDst (r : Run) : Nat := max (r.arrayEnd + 6) r.dprev
def Run.fd (r : Run) : Nat := if r.claims .d then ceilDiv (r.mma.n * r.rate .d) 64 else 1
def Run.mmaDend (r : Run) : Nat := r.mmaDst + r.mma.m * r.fd

/-- The lanes of the claimed ports are held until their last elements leave (R180). -/
def Run.mmaHold (r : Run) : Run :=
  let last := r.s + r.slip + r.lf + (r.kc - 1) * r.stepCycles
  ((r.hold .a (last + r.pl .a)).hold .b (last + r.pl .b)).hold .d (r.mmaDst + (r.mma.m - 1) * r.fd + r.pl .d)

/-- Is the command an MMA form? -/
def Run.isMma (r : Run) : Bool := decide (1 ≤ r.e.r.code) && decide (r.e.r.code ≤ 3)

/-- Dend passes from one MMA form to the next, and their claims on port D with it. -/
def State.mmaChain (s : State) : State :=
  s.onEng fun e =>
    let x := e.runs.foldl (fun (x : List Run × Option Nat) r =>
      if r.isMma then
        let r := ({ r with dprev := (match x.2 with | some d => max d r.dprev | none => r.dprev) } : Run).mmaHold
        (x.1 ++ [r], some r.mmaDend)
      else (x.1 ++ [r], x.2)) ([], none)
    { e with runs := x.1, array := { e.array with dend := max e.array.dend (x.2.getD 0) } }

/-! The start (R197 to R204). -/

def mmaLf (r : CmdRec) : Nat :=
  let m := mmaOf r
  let far := (descOf r.w2).loc || (descOf r.w3).loc || r.w4.getLsbD 58 && (descOf r.w4).loc ||
    r.w5.getLsbD 58 && (descOf r.w5).loc || m.outl && (descOf r.w6).loc || m.sp && (descOf r.w7).loc
  (if far then 40 else 8) + (if m.sp then 24 else 0)

def mmaPorts (r : CmdRec) : List Port :=
  (if r.w0.getLsbD 16 then [Port.a] else []) ++ (if r.w0.getLsbD 17 then [Port.b] else []) ++
    (if r.w0.getLsbD 18 then [Port.d] else [])

/-- A 32-bit number of an array as it stands; a peer's bytes are open (log entry 11). -/
def State.peekDesc (s : State) (e : QEntry) (d : Desc) (o n : Nat) : Nat :=
  leNat ((List.range n).map fun i =>
    let a := e.addr d (o + i)
    if !d.loc then s.core.ls.mem.read a
    else if isFabric a && (SMap.find a s.core.held.lines).isNone then Config.freeByte (s.free + i)
    else s.engineByte a)

/-- The slots that SQA and SQB check. -/
def State.mmaTags (s : State) (e : QEntry) : List TagCheck :=
  let r := e.r
  let m := mmaOf r
  let a := descOf r.w2
  let b := descOf r.w3
  let bytes (t k : Nat) : Nat := ceilDiv (k * elemBits t) 8
  (if r.w0.getLsbD 22 then [⟨slotsOf a 0 m.m (bytes m.af m.k), m.af⟩] else []) ++
    (if r.w0.getLsbD 23 then
      (if m.mx then [⟨slotsOf b 0 m.n (bytes m.bf m.k), m.bf⟩]
       else if m.sp then
        let d := descOf r.w7
        let nnz := s.peekDesc e d (4 * m.k) 4 % 2 ^ 23
        [⟨slotsOf b 0 1 (bytes m.bf nnz) ++ slotsOf d 0 1 (4 * (m.k + 1) + nnz), m.bf⟩]
       else [⟨slotsOf b 0 m.k (bytes m.bf m.n), m.bf⟩])
     else [])

def State.mmaSpec (s : State) (q : Queue) (e : QEntry) : StartSpec :=
  let r := e.r
  let m := mmaOf r
  let ports := mmaPorts r
  let len (p : Port) : Nat := if ports.contains p then passLatency (s.core.arch.progLen p) else 0
  let mk (c : BitVec 8) : TrapRec := s.cmdRecAt s.dcc c q r 0 false 0 0
  let ab := r.w0.getLsbD 16 || r.w0.getLsbD 17
  let passes := ceilDiv m.n ((s.core.arch.csr.shapeg.toNat + 1) * 16)
  let tag := (s.accOf m.ad).tag.toNat
  { ramp := some (mmaLf r + max (len .a) (len .b)), array := false, load := false, engine := false, ports := ports, tags := s.mmaTags e,
    faults := (if ab && decide (1 < passes) then [mk cILLEGAL] else []) ++ (if ab && m.mx then [mk cFORMAT] else []) ++
      (if m.acc && tag != 0 && tag != m.tag then [mk cFORMAT] else []) }

def State.mmaGo (r : Run) (s : State) : State :=
  let m := r.mma
  let r := { r with
    lf := mmaLf r.e.r, capA := List.replicate m.m [], capB := List.replicate m.n [],
    capX := List.replicate (m.m + m.n + m.m) [] ++ (if m.sp then List.replicate m.k [] else []) }
  ((s.setRun r).mmaChain).arrayUse (r.arrayEnd - 1)

def State.startMma (s : State) (q : Queue) : State := s.startCommand q (s.mmaSpec q) State.mmaGo

/-! Reading operands (R203, R207, R208). -/

/-- One k-step: its pass, first k, number of k, and the columns of its pass. -/
structure KStep where
  p : Nat
  k0 : Nat
  nk : Nat
  j0 : Nat
  j1 : Nat
  deriving DecidableEq, Repr

def Run.kstep (r : Run) (g : Nat) : KStep :=
  let m := r.mma
  let p := g / r.kc
  let k0 := g % r.kc * m.kpc
  ⟨p, k0, min m.kpc (m.k - k0), p * r.cw, min m.n ((p + 1) * r.cw)⟩

def rangeFrom (a b : Nat) : List Nat := (List.range (b - a)).map fun i => a + i

/-- What a k-step reads: rows of A, pieces of B, A's scales, B's scales, side-list records. Each piece has its row or
column. -/
structure KReads where
  a : List (Nat × Span)
  b : List (Nat × Span)
  sa : List (Nat × Span)
  sb : List (Nat × Span)
  o : List (Nat × Span)
  deriving DecidableEq, Repr

def KReads.all (x : KReads) : List Span := (x.a ++ x.b ++ x.sa ++ x.sb ++ x.o).map (·.2)

def Run.kreads (r : Run) (g : Nat) : KReads :=
  let m := r.mma
  let e := r.e
  let c := e.r
  let st := r.kstep g
  let eA := elemBits m.af
  let eB := elemBits m.bf
  let dA := descOf c.w2
  let dB := descOf c.w3
  let first := st.k0 % m.chunk = 0
  let ch := st.k0 / m.chunk
  let sb := m.scaleBytes
  let js := rangeFrom st.j0 st.j1
  let is := List.range m.m
  { a := if st.p = 0 then is.map fun i => (i, e.span dA (i * dA.pitch + st.k0 * eA / 8) (ceilDiv (st.nk * eA) 8)) else []
    b := if m.sp then []
      else if m.mx then js.map fun j => (j, e.span dB (j * dB.pitch + st.k0 / 2) (ceilDiv st.nk 2))
      else (rangeFrom st.k0 (st.k0 + st.nk)).map fun k =>
        (k, e.span dB (k * dB.pitch + st.j0 * eB / 8) ((st.j1 - st.j0) * eB / 8))
    sa := if mmaScaled c && first && st.p = 0 then
        let d := descOf c.w4
        is.map fun i => (i, e.span d (i * d.pitch + ch * sb) sb)
      else []
    sb := if mmaScaled c && first then
        let d := descOf c.w5
        if m.mx then js.map fun j => (j, e.span d (j * d.pitch + ch * sb) sb)
        else if st.p = 0 then [(0, e.span d (ch * sb) sb)] else []
      else []
    o := if m.outl && first && st.p = 0 then
        let d := descOf c.w6
        is.map fun i => (i, e.span d (i * d.pitch + 32 * ch) 32)
      else [] }

/-- Enter a code of A, through port A where it is claimed. -/
def State.takeA (s : State) (r : Run) (i k code : Nat) : State :=
  let m := r.mma
  match r.useOf .a with
  | some u =>
    let d := descOf r.e.r.w2
    let pa := r.e.addr d (i * d.pitch + k * elemBits m.af / 8)
    s.addJobs [mkJob r u (i * m.k + k) i k code (widen m.af code) m.af (r.e.hash pa) (s.dcc + r.lf)
      (i * m.k + k + 1 == m.m * m.k) false]
  | none =>
    match s.runOf r.id with
    | some x => s.setRun { x with capA := pushCode x.capA i code }
    | none => s

/-- Enter a code of B, fetched from `pa`. -/
def State.takeB (s : State) (r : Run) (k j code pa : Nat) : State :=
  let m := r.mma
  match r.useOf .b with
  | some u =>
    s.addJobs [mkJob r u (k * m.n + j) k j code (widen m.bf code) m.bf (r.e.hash pa) (s.dcc + r.lf)
      (k * m.n + j + 1 == m.k * m.n) false]
  | none =>
    match s.runOf r.id with
    | some x => s.setRun { x with capB := pushCode x.capB j code }
    | none => s

/-- Put a scale or a record behind the others of its row. -/
def State.takeX (s : State) (r : Run) (i v : Nat) : State :=
  match s.runOf r.id with
  | some x => s.setRun { x with capX := pushCode x.capX i v }
  | none => s

/-- The words of the blocks that a scale word governs (R339). -/
def mmaMarks (r : Run) (ofB : Bool) (w : Nat) : List (Bool × Nat) :=
  let m := r.mma
  let c := r.e.r
  let ds := descOf (if ofB then c.w5 else c.w4)
  let de := descOf (if ofB then c.w3 else c.w2)
  let sb := m.scaleBytes
  (List.range (if ofB then m.n else m.m)).flatMap fun i =>
    (List.range (ceilDiv m.k 32)).flatMap fun b =>
      let a := r.e.addr ds (i * ds.pitch + b * sb)
      if w ≤ a + sb - 1 ∧ a ≤ w + 7 then
        (wordsIn (r.e.addr de (i * de.pitch + 16 * b)) 16).map fun x => (de.loc, x)
      else []

/-- Fetch a span, and give its bytes to a continuation. -/
def State.fetchThen (s : State) (r : Run) (sp : Span) (t : Nat) (k : State → List Byte → State) : State :=
  let x := s.fetch r sp t none
  k x.2 x.1

/-- Fetch a scale; one of a block format that is uncorrectable raises SCALE_POISON (R209). -/
def State.fetchScale (s : State) (r : Run) (ofB : Bool) (i b t : Nat) (sp : Span) : Nat × State :=
  let m := r.mma
  if m.mx then
    let x := s.fetch r sp t (some ⟨bit ofB * 2 ^ 48 + i % 2 ^ 16 * 2 ^ 32 + b, []⟩)
    -- the marks are listed only where the error was not injected
    let y := x.2.onEng fun e => { e with leaves := e.leaves.map fun l =>
      match l.trap with
      | some u => if u.cause = cSCALE_POISON ∧ (u.stored ∨ isFabric sp.a) ∧ l.marks.isEmpty ∧ u.v2 = BitVec.ofNat 64 sp.a then
          { l with marks := (wordsIn sp.a sp.n).flatMap (mmaMarks r ofB) } else l
      | none => l }
    (leNat x.1, y)
  else
    let x := s.fetch r sp t none
    (leNat x.1, x.2)

/-- Entries of a side-list record (R207): value, valid, reserved bits, channel. -/
def sideEntries (rec : Nat) : List (Nat × Bool × Bool × Nat) :=
  (List.range 8).map fun i =>
    let e := rec / 2 ^ (32 * i) % 2 ^ 32
    (field e 31 16, field e 15 15 == 1, field e 14 7 != 0, field e 6 0)

/-- ILLEGAL in a read, naming an address (R330). -/
def State.readIllegal (s : State) (r : Run) (a : Nat) : State := s.runFault r cILLEGAL a 0

/-- A compressed row (R208): its pointers, and its column indices. -/
structure SpRow where
  k : Nat
  lo : Nat
  hi : Nat
  cols : List Nat
  deriving DecidableEq, Repr

def Run.strd (r : Run) : Desc := descOf r.e.r.w7

/-- The pointers of row `k`. -/
def Run.spPtr (r : Run) (k : Nat) : Span := r.e.span r.strd (4 * k) 8

/-- The column indices of a row. -/
def SpRow.indices (x : SpRow) (r : Run) : Span := r.e.span r.strd (4 * (r.mma.k + 1) + x.lo) (x.hi - x.lo)

/-- Pointers that are malformed; a row beyond the end of its array is malformed too. -/
def SpRow.badPtr (x : SpRow) (r : Run) : Bool :=
  let m := r.mma
  let dv := descOf r.e.r.w3
  let room (d : Desc) (n : Nat) : Bool := decide (d.off + n ≤ (r.e.hnd d).bytes d.h)
  x.k == 0 && x.lo != 0 || decide (x.hi < x.lo) || decide (m.n < x.hi - x.lo) ||
    !room r.strd (4 * (m.k + 1) + x.hi) || !room dv (x.hi * elemBits m.bf / 8)

/-- The first index that is out of range or not above the one before it. -/
def SpRow.badIndex (x : SpRow) (r : Run) : Option Nat :=
  (List.range x.cols.length).find? fun i =>
    decide (r.mma.n ≤ x.cols.getD i 0) || decide (0 < i) && decide (x.cols.getD i 0 ≤ x.cols.getD (i - 1) 0)

/-- Where a run keeps the rows of the structure that it has read: behind the scales and the side list. -/
def Run.spBase (r : Run) : Nat := r.mma.m + r.mma.n + r.mma.m

/-- A row that an earlier pass has read. -/
def Run.spKept (r : Run) (k : Nat) : SpRow :=
  let l := (r.capX.getD (r.spBase + k) []).reverse
  ⟨k, l.headD 0, l.headD 0 + (l.length - 1), l.drop 1⟩

/-- The values of a row in the columns of a pass. -/
def SpRow.values (x : SpRow) (r : Run) (st : KStep) : List Span :=
  let eb := elemBits r.mma.bf / 8
  ((List.range x.cols.length).filter fun i => decide (st.j0 ≤ x.cols.getD i 0) && decide (x.cols.getD i 0 < st.j1)).map
    fun i => r.e.span (descOf r.e.r.w3) ((x.lo + i) * eb) eb

/-- Take the pointers of rows as they are read. -/
def State.takePtrs (s : State) (r : Run) (t : Nat) : List Nat → List SpRow × State
  | [] => ([], s)
  | k :: rest =>
    let x := s.fetch r (r.spPtr k) t none
    let y := State.takePtrs x.2 r t rest
    (⟨k, leNat (x.1.take 4), leNat (x.1.drop 4), []⟩ :: y.1, y.2)

/-- Take the column indices of rows as they are read. -/
def State.takeIndices (s : State) (r : Run) (t : Nat) : List SpRow → List SpRow × State
  | [] => ([], s)
  | x :: rest =>
    let v := s.fetch r (x.indices r) t none
    let y := State.takeIndices v.2 r t rest
    ({ x with cols := v.1.map BitVec.toNat } :: y.1, y.2)

/-- Take the values of one compressed row in the columns of the pass; the others are zero, and the address that picks the
SR bits of such a zero is that of the row's first value (DESIGN CHOICE, log entry 99). -/
def State.takeSpRow (s : State) (r : Run) (x : SpRow) (st : KStep) (t : Nat) : State :=
  let m := r.mma
  let dv := descOf r.e.r.w3
  let eb := elemBits m.bf / 8
  (rangeFrom st.j0 st.j1).foldl (fun (s : State) j =>
    match x.cols.findIdx? fun c => c == j with
    | some i =>
      let sp := r.e.span dv ((x.lo + i) * eb) eb
      s.fetchThen r sp t fun s bs => s.takeB r x.k j (leNat bs) sp.a
    | none => s.takeB r x.k j 0 (r.e.addr dv ((x.lo) * eb))) s

/-- The run keeps a row of the structure. -/
def State.keepRow (s : State) (r : Run) (x : SpRow) : State :=
  (x.lo :: x.cols).foldl (fun (t : State) v => t.takeX r (r.spBase + x.k) v) s

/-- Take what a k-step has read. -/
def State.takeStep (s : State) (r : Run) (g : Nat) (x : KReads) (rows : List SpRow) : State :=
  let m := r.mma
  let st := r.kstep g
  let t := s.dcc + r.lf + r.la
  let ch := st.k0 / m.chunk
  let eA := elemBits m.af
  let eB := elemBits m.bf
  let s := x.a.foldl (fun (s : State) p => s.fetchThen r p.2 t fun s bs =>
    ((codesOf eA 0 st.nk bs).zipIdx st.k0).foldl (fun (s : State) e => s.takeA r p.1 e.2 e.1) s) s
  let s := x.b.foldl (fun (s : State) p => s.fetchThen r p.2 t fun s bs =>
    if m.mx then ((codesOf 4 0 st.nk bs).zipIdx st.k0).foldl (fun (s : State) e => s.takeB r e.2 p.1 e.1 0) s
    else ((codesOf eB 0 (st.j1 - st.j0) bs).zipIdx st.j0).foldl (fun (s : State) e =>
      s.takeB r p.1 e.2 e.1 (p.2.a + (e.2 - st.j0) * eB / 8)) s) s
  let s := rows.foldl (fun (s : State) y => s.takeSpRow r y st t) s
  let s := x.sa.foldl (fun (s : State) p =>
    let v := s.fetchScale r false p.1 ch t p.2
    v.2.takeX r p.1 v.1) s
  let s := x.sb.foldl (fun (s : State) p =>
    let v := s.fetchScale r true p.1 ch t p.2
    v.2.takeX r (m.m + p.1) v.1) s
  x.o.foldl (fun (s : State) p => s.fetchThen r p.2 t fun s bs =>
    let rec_ := leNat bs
    let bad := (sideEntries rec_).any fun e => e.2.2.1 || e.2.1 && decide (m.k ≤ ch * 128 + e.2.2.2)
    let s := s.takeX r (m.m + m.n + p.1) rec_
    if bad then s.readIllegal r p.2.a else s) s

/-- Spans pinned until the last k-step that consumes them (R203): what every pass consumes until that of the last pass, and scales and
records until the last of their chunk. -/
def State.pinStep (s : State) (r : Run) (g : Nat) (x : KReads) (rows : List SpRow) : State :=
  let f := r.stepCycles
  let t := s.dcc + r.lf + r.la
  let st := r.kstep g
  let tree := if st.p = 0 then rows.flatMap fun y => [r.spPtr y.k, y.indices r] else []
  let later := (r.passes - 1) * r.kc * f
  let left := (min (r.kc - g % r.kc) (r.mma.chunk / r.mma.kpc) - 1) * f
  let s := s.pinSpans r (x.a.map (·.2) ++ tree) (t + later)
  let s := s.pinSpans r ((rows.flatMap fun y => y.values r st) ++ x.b.map (·.2)) t
  let s := s.pinSpans r ((x.sa ++ x.o).map (·.2)) (t + later + left)
  s.pinSpans r (x.sb.map (·.2)) (t + left + if r.mma.mx then 0 else later)

/-- The structure of the rows of a k-step of MMA.SP: read and checked in the first pass, and kept for the later ones (R208). -/
def State.readRows (s : State) (r : Run) (st : KStep) (k : State → List SpRow → State) : State :=
  let t := s.dcc + r.lf + r.la
  let ks := if r.mma.sp then rangeFrom st.k0 (st.k0 + st.nk) else []
  if st.p ≠ 0 ∨ ks = [] then k s (ks.map r.spKept)
  else
    s.readBeat r (ks.map r.spPtr) true false fun s =>
      let p := s.takePtrs r t ks
      match p.1.find? fun y => y.badPtr r with
      | some y => p.2.readIllegal r (r.spPtr y.k).a
      | none =>
        p.2.readBeat r (p.1.map fun y => y.indices r) true false fun s =>
          let q := s.takeIndices r t p.1
          match q.1.findSome? fun y => (y.badIndex r).map fun i => (y, i) with
          | some (y, i) => q.2.readIllegal r ((y.indices r).a + i)
          | none => k (q.1.foldl (fun (u : State) y => u.keepRow r y) q.2) q.1

/-- One k-step's reads. -/
def State.mmaStep (s : State) (r : Run) : State :=
  let g := r.nr
  let x := r.kreads g
  let st := r.kstep g
  let t := s.attempt r fun s => s.readRows r st fun s rows =>
    s.readBeat r (x.all ++ rows.flatMap fun y => y.values r st) true false fun s =>
      let s := (s.takeStep r g x rows).pinStep r g x rows
      match s.runOf r.id with
      | some y => s.setRun { y with nr := g + 1, first := some (y.first.getD s.dcc) }
      | none => s
  t.mmaChain

/-! Results (R206). -/

def chunksOf {α : Type} (w : Nat) (l : List α) : List (List α) := splitEvery w (ceilDiv l.length w) l

/-- The companion's term of one chunk (R207): products of the valid outliers with B and the weight scale, summed exactly. -/
def outlierTerm (acc : Rounded) (rec : Nat) (b : List Val) (sw : Val) (accsat : Bool) : Rounded :=
  let es := (sideEntries rec).filter fun e => e.2.1
  if es.isEmpty then acc
  else
    let c := es.foldl (fun (c : Chunk) e =>
      let v := valOf .bf16 e.1
      let x := b.getD e.2.2.2 (.fin false 0 0)
      let p := exactMul v x
      { c with flags := c.flags ||| snanFlag [v, x] ||| p.flags }.addProd p.v sw) Chunk.zero
    if sw.isNan then promoteNan acc c.result.flags else promote acc c.result accsat

/-- One element's summation over the chunks of its row and column (R61 to R64). -/
def mmaSum (m : Mma) (scaled_ : Bool) : Rounded → List (List Val) → List (List Val) → List Val → List Val → List Nat → Rounded
  | acc, a :: as, b :: bs, sa, sb, os =>
    let s := chunkSum (a.zip b)
    let x := sa.headD (.fin false 1 0)
    let y := sb.headD (.fin false 1 0)
    let acc :=
      if m.int then promoteInt acc (match s.v with | .fin neg n e => signedAt neg n e 0 | _ => 0)
      else if scaled_ then
        (if x.isNan || y.isNan then promoteNan acc (s.flags ||| snanFlag [x, y]) else promote acc (scaled s x y) m.accsat)
      else promote acc s m.accsat
    let acc := match os with
      | o :: _ => outlierTerm acc o b y m.accsat
      | [] => acc
    mmaSum m scaled_ acc as bs (sa.drop 1) (sb.drop 1) (os.drop 1)
  | acc, _, _, _, _, _ => acc

/-- A scale's value (R202). -/
def Mma.scaleVal (m : Mma) (v : Nat) : Val :=
  if m.mx then (if m.af = tagG4 then valOf .bf16 v else e8m0Val v) else valOf .fp32 v

/-- The window's results in stream order, each with its flags. -/
def Run.mmaResults (r : Run) : List (Word32 × BitVec 8) :=
  let m := r.mma
  let sc := mmaScaled r.e.r
  let as := r.capA.map fun l => chunksOf m.chunk (l.reverse.map (codeVal m.af))
  let bs := r.capB.map fun l => chunksOf m.chunk (l.reverse.map (codeVal m.bf))
  let xs := r.capX.map List.reverse
  (List.range m.m).flatMap fun i =>
    (List.range m.n).map fun j =>
      let sb := xs.getD (m.m + if m.mx then j else 0) []
      let init : Rounded := ⟨(r.acc0.getD (i * m.n + j) 0).toNat, 0⟩
      let v := mmaSum m sc init (as.getD i []) (bs.getD j []) ((xs.getD i []).map m.scaleVal) (sb.map m.scaleVal)
        (if m.outl then xs.getD (m.m + m.n + i) [] else [])
      (BitVec.ofNat 32 v.pat, v.flags)

/-! The beats. -/

def Run.mmaAllRead (r : Run) : Bool := decide (r.steps ≤ r.nr)

def Run.mmaInitDue (r : Run) (t : Nat) : Bool := r.mma.acc && r.first.isSome && t + 1 == r.e0

def Run.mmaEnterDue (r : Run) (t : Nat) : Bool :=
  r.mmaAllRead && r.claims .d && decide (r.mmaDst ≤ t) && (t - r.mmaDst) % r.fd == 0 &&
    decide ((t - r.mmaDst) / r.fd < r.mma.m)

def Run.mmaStepDue (r : Run) (t : Nat) : Bool := !r.mmaAllRead && t == r.s + r.slip + r.nr * r.stepCycles

def mmaReadDue (r : Run) (t : Nat) : Bool :=
  r.mmaStepDue t || r.mmaInitDue t || r.mmaAllRead && t == r.mmaDst || r.mmaEnterDue t

def Run.mmaRowDue (r : Run) (t : Nat) : Bool :=
  r.mmaAllRead && decide (r.nw < r.mma.m) && t == r.mmaDst + r.nw * r.fd + r.pl .d + 1

def mmaEarlyDue (r : Run) (t : Nat) : Bool := r.first.isSome && t == r.e0 || r.mmaRowDue t

/-- The accumulator's window as ACC = 1 starts from it, read in E0 − 1. -/
def State.mmaInit (s : State) (r : Run) : State :=
  let m := r.mma
  let a := s.accOf m.ad
  s.setRun { r with acc0 := (List.range (m.m * m.n)).map fun x => a.at (x / m.n) (x % m.n) }

/-- Row `i` of the result enters port D. -/
def State.mmaEnter (s : State) (r : Run) (i : Nat) : State :=
  let m := r.mma
  match r.useOf .d with
  | none => s
  | some u =>
    s.addJobs ((List.range m.n).map fun j =>
      let v := (r.res.getD ((i - r.nw) * m.n + j) (0, 0)).1
      mkJob r u (i * m.n + j) i j 0 v.toNat 0 (r.e.hash (paAcc m.ad i j)) s.dcc (i * m.n + j + 1 == m.m * m.n) false)

def State.mmaRead (s : State) (r : Run) : State :=
  let t := s.dcc
  let s := if r.mmaStepDue t then s.mmaStep r else s
  let s := match s.runOf r.id with
    | some r => if r.mmaInitDue t then s.mmaInit r else s
    | none => s
  let s := match s.runOf r.id with
    | some r => if r.mmaAllRead && t == r.mmaDst then
        s.setRun { r with res := r.mmaResults, capA := [], capB := [], capX := [], acc0 := [] } else s
    | none => s
  match s.runOf r.id with
  | some r => if r.mmaEnterDue t then s.mmaEnter r ((t - r.mmaDst) / r.fd) else s
  | none => s

/-- A row is written to the accumulator, but for its dropped elements. -/
def State.mmaRow (s : State) (r : Run) : State :=
  let m := r.mma
  let i := r.nw
  let row := r.res.take m.n
  let vs : List (Option Word32) :=
    if r.claims .d then
      (List.range m.n).map fun j =>
        match r.outs.find? fun o => o.idx == i * m.n + j with
        | some o => if o.drop then none else some o.val
        | none => none
    else row.map fun v => some v.1
  let s := (s.onAcc m.ad fun a => a.putRow m.tag i 0 vs).raise (row.foldl (fun f v => f ||| v.2) 0)
  let r := { r with nw := i + 1, res := r.res.drop m.n, outs := r.outs.filter fun o => decide ((i + 1) * m.n ≤ o.idx) }
  if i + 1 = m.m then s.finish r else s.setRun r

/-- The first array cycle makes a loaded forest invalid (R261). -/
def State.dropForest (s : State) : State := s.onEng fun e => { e with forest := none, loading := none }

def State.mmaEarly (s : State) (r : Run) : State :=
  let s := if r.first.isSome && s.dcc == r.e0 then s.dropForest else s
  if r.mmaRowDue s.dcc then s.mmaRow r else s

def execMma (_ : CmdRec) (b : Beat) (s : State) : Out := .next (s.onBeat b s.startMma State.mmaRead State.mmaEarly)

def execMmaSp (_ : CmdRec) (b : Beat) (s : State) : Out := .next (s.onBeat b s.startMma State.mmaRead State.mmaEarly)

def execMmaMx (_ : CmdRec) (b : Beat) (s : State) : Out := .next (s.onBeat b s.startMma State.mmaRead State.mmaEarly)

/-! ACCZ (R211). -/

def acczFaults (q : Queue) (amask : BitVec 4) (r : CmdRec) : List PushFault :=
  let tag := wfield r.w1 9 4
  let names := BitVec.ofNat 4 (wfield r.w1 3 0)
  reservedFaults q r [maskOcScope + maskOf 23 0, maskOf 63 10, allBits, allBits, allBits, allBits, allBits, allBits] ++
    faultIf (names == 0 || tagReserved tag) (pushFault q cILLEGAL 1) ++
    faultIf (tag != 0 && tag != tagFP32 && tag != tagI32) (pushFault q cFORMAT 1) ++
    faultIf (names &&& ~~~amask != 0) ⟨cREGION_IDEM, (names &&& ~~~amask).setWidth 64⟩

def acczEarlyDue (r : Run) (t : Nat) : Bool := t == r.s + 2

def State.acczEarly (s : State) (r : Run) : State :=
  let names := wfield r.e.r.w1 3 0
  let tag := BitVec.ofNat 6 (wfield r.e.r.w1 9 4)
  ((List.range 4).foldl (fun (s : State) i => if names / 2 ^ i % 2 = 1 then s.onAcc i fun _ => ⟨tag, []⟩ else s) s).finish r

def execAccz (_ : CmdRec) (b : Beat) (s : State) : Out :=
  .next (s.onBeat b (fun q => s.startCommand q (fun _ => StartSpec.plain) fun _ s => s) (fun s _ => s) State.acczEarly)

/-! ACCST (R212, R213). -/

structure Accst where
  rm : Rm
  df : Nat
  n : Nat
  m : Nat
  c0 : Nat
  r0 : Nat
  src : Nat
  sat : Bool
  tagw : Bool
  d : Desc
  deriving DecidableEq, Repr

def accstOf (r : CmdRec) : Accst :=
  { rm := rmOf (wfield r.w1 34 32), df := wfield r.w1 31 26, n := wfield r.w1 25 20 + 1, m := wfield r.w1 19 14 + 1,
    c0 := wfield r.w1 13 8, r0 := wfield r.w1 7 2, src := wfield r.w1 1 0, sat := r.w0.getLsbD 19, tagw := r.w0.getLsbD 20,
    d := descOf r.w2 }

/-- The formats that a move may write: FP32, BF16, FP16, E4M3, E5M2, I8, I32. -/
def moveTag (t : Nat) : Bool := [tagFP32, tagBF16, tagFP16, tagE4M3, tagE5M2, tagI8, tagI32].contains t

def accstFaults (q : Queue) (hs : Vector Handle 16) (r : CmdRec) : List PushFault :=
  let a := accstOf r
  let es := elemBytes a.df
  reservedFaults q r [maskOcScope + maskOf 23 21 + maskOf 18 16, maskOf 63 35, 0, allBits, allBits, allBits, allBits,
    allBits] ++
    faultIf (rmReserved (wfield r.w1 34 32) || tagReserved a.df || decide (64 < a.r0 + a.m) || decide (64 < a.c0 + a.n))
      (pushFault q cILLEGAL 1) ++
    faultIf (a.tagw && a.d.loc) (pushFault q cILLEGAL 2) ++
    arrayFaults q hs r.w2 2 a.m (a.n * es) es permW ++
    faultIf (!moveTag a.df) (pushFault q cFORMAT 1)

def Run.accst (r : Run) : Accst := accstOf r.e.r

def accstReadDue (r : Run) (t : Nat) : Bool := decide (r.nr < r.accst.m) && t == r.s + 1 + r.nr
def accstEarlyDue (r : Run) (t : Nat) : Bool := r.accst.d.loc && t == r.s + 24 + r.nw
def accstLateDue (r : Run) (t : Nat) : Bool := !r.accst.d.loc && t == r.s + 4 + r.nw

/-- A row is read and converted; pa is the destination element's address. -/
def State.accstRead (s : State) (r : Run) : State :=
  let a := r.accst
  let x := s.accOf a.src
  let es := elemBytes a.df
  let row := (List.range a.n).map fun j =>
    let v := (x.at (a.r0 + r.nr) (a.c0 + j)).toNat
    let y := convertTo a.df (x.tag == BitVec.ofNat 6 tagI32) v a.rm a.sat (r.e.hash (r.e.addr a.d (r.nr * a.d.pitch + j * es)))
    (BitVec.ofNat 32 y.pat, y.flags)
  s.setRun { r with nr := r.nr + 1, res := r.res ++ row }

def State.accstWrite (s : State) (r : Run) : State :=
  let a := r.accst
  let es := elemBytes a.df
  let row := r.res.take a.n
  let bs := row.flatMap fun v => leBytes es v.1.toNat
  let s := (s.writeTo r a.d.loc (putAll [(r.e.addr a.d (r.nw * a.d.pitch), bs)])).raise (row.foldl (fun f v => f ||| v.2) 0)
  if r.nw + 1 = a.m then
    (if a.tagw then s.tagWrite (slotsOf a.d 0 a.m (a.n * es)) a.df (seqOf r.e.r) else s).finish r
  else s.setRun { r with nw := r.nw + 1, res := r.res.drop a.n }

def execAccst (_ : CmdRec) (b : Beat) (s : State) : Out :=
  .next (s.onBeat b (fun q => s.startCommand q (fun _ => StartSpec.plain) fun _ s => s) State.accstRead State.accstWrite)

end Sys2Proof.Machine
end

