-- ==== Sys2Proof/Machine/Data.lean ====
section
/-! DEFINITION. COPY and FILL (R219 to R222), REDUCE (R223 to R225), QUANT (R226 to R229), DEQ (R230), and the Skidder's SGATH
and SGPAT (R231 to R234). -/

namespace Sys2Proof.Machine

/-! Streams of elements in row-major order (R177), 64 to a group (R220). -/

/-- Consecutive elements from `a` to `b - 1` as pieces of rows: row, first column, count. -/
def rowPieces (n : Nat) : Nat → Nat → Nat → List (Nat × Nat × Nat)
  | 0, _, _ => []
  | k + 1, a, b =>
    if b ≤ a then []
    else
      let c := min (n - a % n) (b - a)
      (a / n, a % n, c) :: rowPieces n k (a + c) b

/-- The pieces of group `g` of an M × N window. -/
def groupPieces (m n g : Nat) : List (Nat × Nat × Nat) := rowPieces n 64 (64 * g) (min (m * n) (64 * g + 64))

def groupCount (m n : Nat) : Nat := ceilDiv (m * n) 64

/-- Is the group that is read next due? -/
def Run.groupDue (r : Run) (groups rate t : Nat) : Bool := decide (r.nr < groups) && t == r.s + r.slip + r.nr * rate

/-- A group has been read: it is on its way. -/
def State.groupRead (s : State) (id : Nat) : State :=
  match s.runOf id with
  | some r => s.setRun { r with nr := r.nr + 1, flight := r.flight ++ [(s.dcc, r.nr)] }
  | none => s

/-- The group that left its source `w` cycles ago, if there is one. -/
def Run.landing (r : Run) (w t : Nat) : Option Nat :=
  match r.flight with
  | (t0, g) :: _ => if t0 + w = t then some g else none
  | [] => none

def State.addOuts (s : State) (id : Nat) (os : List OutEl) : State :=
  match s.runOf id with
  | some r => s.setRun { r with outs := r.outs ++ os }
  | none => s

/-! COPY (R219 to R221). -/

structure Move where
  m : Nat
  n : Nat
  sf : Nat
  df : Nat
  rm : Rm
  comb : Nat
  sat : Bool
  sqs : Bool
  tagw : Bool
  sd : Desc
  dd : Desc
  sv : View
  dv : View
  deriving DecidableEq, Repr

def copyOf (r : CmdRec) : Move :=
  { m := wfield r.w1 11 0 + 1, n := wfield r.w1 23 12 + 1, sf := wfield r.w1 35 30, df := wfield r.w1 41 36,
    rm := rmOf (wfield r.w1 44 42), comb := wfield r.w1 47 45, sat := r.w0.getLsbD 21, sqs := r.w0.getLsbD 23,
    tagw := r.w0.getLsbD 22, sd := descOf r.w2, dd := descOf r.w3, sv := viewOf r.w4, dv := viewOf r.w5 }

def copyFaults (q : Queue) (hs : Vector Handle 16) (r : CmdRec) : List PushFault :=
  let c := copyOf r
  let sr := wfield r.w1 44 42 == 4
  reservedFaults q r [maskOcScope + maskOf 20 19 + maskOf 17 17, maskOf 63 48 + maskOf 29 24, 0, 0, 0, 0, allBits, allBits] ++
    faultIf (decide (4 < c.comb) || rmReserved (wfield r.w1 44 42) || tagReserved c.sf || tagReserved c.df ||
      c.comb == 4 && wfield r.w1 44 42 != 0 || c.comb != 0 && sr) (pushFault q cILLEGAL 1) ++
    faultIf (c.tagw && c.dd.loc) (pushFault q cILLEGAL 3) ++
    viewFaults q hs r 2 4 c.m c.n (elemBytes c.sf) permR ++
    viewFaults q hs r 3 5 c.m c.n (elemBytes c.df) (if c.comb = 0 then permW else permWA) ++
    faultIf (!moveTag c.sf || !moveTag c.df || c.comb == 4 && isIntTag c.df ||
      c.comb != 0 && (c.df == tagE4M3 || c.df == tagE5M2)) (pushFault q cFORMAT 1)

def Run.copy (r : Run) : Move := copyOf r.e.r

/-- Latency of a fetch: 8 from the local store, 40 from memory (R203, R220). -/
def fetchLatency (d : Desc) : Nat := if d.loc then 40 else 8

def Run.copyRate (r : Run) : Nat := max 1 (max (2 * r.rate .s) (r.rate .d))
def Run.copyWl (r : Run) : Nat := if r.copy.dd.loc then 22 else 2
def Run.copyDelay (r : Run) : Nat := r.lf + r.pl .s + r.pl .d + r.copyWl
def Run.copyGroups (r : Run) : Nat := groupCount r.copy.m r.copy.n

def Move.srcOff (c : Move) (i j : Nat) : Nat := viewOff c.sd c.sv (elemBytes c.sf) i j
def Move.dstOff (c : Move) (i j : Nat) : Nat := viewOff c.dd c.dv (elemBytes c.df) i j

/-- Slots of a window's rows. -/
def windowSlots (d : Desc) (first m rowBytes : Nat) : List Nat := slotsOf d first m rowBytes

def copyPorts (r : CmdRec) : List Port :=
  (if r.w0.getLsbD 16 then [Port.s] else []) ++ (if r.w0.getLsbD 18 then [Port.d] else [])

def copySpec (e : QEntry) : StartSpec :=
  let c := copyOf e.r
  { StartSpec.plain with
    engine := true, ports := copyPorts e.r,
    tags := if c.sqs then [⟨windowSlots c.sd (c.srcOff 0 0) c.m (c.n * elemBytes c.sf), c.sf⟩] else [] }

def copyGo (r : Run) (s : State) : State :=
  let r := { r with lf := fetchLatency r.copy.sd }
  let last := r.s + (r.copyGroups - 1) * r.copyRate + r.lf + r.pl .s
  (s.setRun ((r.hold .s last).hold .d (last + r.pl .d))).engineFree r.q (r.s + r.copyGroups * r.copyRate)

def copyReadDue (r : Run) (t : Nat) : Bool := r.groupDue r.copyGroups r.copyRate t

/-- Elements of a piece enter the command's first port, or wait for their write. -/
def State.takePiece (s : State) (r : Run) (n total sf : Nat) (hash : Nat → Nat → BitVec 16) (ds : Bool) (p : Nat × Nat × Nat)
    (bs : List Byte) : State :=
  let vs := (codesOf (elemBits sf) 0 p.2.2 bs).zipIdx
  let idx (k : Nat) : Nat := p.1 * n + p.2.1 + k
  match r.useOf .s, r.useOf .d with
  | some u, _ =>
    s.addJobs (vs.map fun v => mkJob r u (idx v.2) p.1 (p.2.1 + v.2) 0 (widen sf v.1) 0 (hash p.1 (p.2.1 + v.2)) (s.dcc + r.lf)
      (idx v.2 + 1 == total) false)
  | none, some u =>
    if ds then
      s.addJobs (vs.map fun v => mkJob r u (idx v.2) p.1 (p.2.1 + v.2) 0 (widen sf v.1) 0 (hash p.1 (p.2.1 + v.2))
        (s.dcc + r.lf) (idx v.2 + 1 == total) false)
    else s.addOuts r.id (vs.map fun v => ⟨idx v.2, BitVec.ofNat 32 (widen sf v.1), false⟩)
  | none, none => s.addOuts r.id (vs.map fun v => ⟨idx v.2, BitVec.ofNat 32 (widen sf v.1), false⟩)

def State.copyRead (s : State) (r : Run) : State :=
  let c := r.copy
  let es := elemBytes c.sf
  let ps := (groupPieces c.m c.n r.nr).map fun p => (p, r.e.span c.sd (c.srcOff p.1 p.2.1) (p.2.2 * es))
  s.readBeat r (ps.map (·.2)) false true fun s =>
    (ps.foldl (fun (s : State) p => s.fetchThen r p.2 (s.dcc + r.lf) fun s bs =>
      s.takePiece r c.n (c.m * c.n) c.sf (fun i j => r.e.hash (r.e.addr c.dd (c.dstOff i j))) true p.1 bs) s).groupRead r.id

def copyWriteDue (r : Run) (loc : Bool) (t : Nat) : Bool := r.copy.dd.loc == loc && (r.landing r.copyDelay t).isSome

def combKind (comb : Nat) : CombKind :=
  match comb with
  | 2 => .max
  | 3 => .min
  | 4 => .sradd
  | _ => .add

/-- The last write: tags, and the end of the command. -/
def State.lastWrite (s : State) (r : Run) (tagw : Bool) (slots : List Nat) (fmt : Nat) : State :=
  (if tagw then s.tagWrite slots fmt (seqOf r.e.r) else s).finish r

/-- A write of COPY or REDUCE at its cycle. TAGW tags every slot of the window, those too whose elements were all dropped
(DESIGN CHOICE, log entry 102). -/
def State.copyWrite (s : State) (r : Run) : State :=
  let c := r.copy
  let es := elemBytes c.df
  match r.landing r.copyDelay s.dcc with
  | none => s
  | some g =>
    let mine := r.outs.filter fun o => decide (o.idx / 64 = g)
    let live := mine.filter fun o => !o.drop
    let addr (o : OutEl) : Nat := r.e.addr c.dd (c.dstOff (o.idx / c.n) (o.idx % c.n))
    let s :=
      if c.comb = 0 then
        let vs := live.map fun o => (addr o, convertTo c.df (isIntTag c.sf) o.val.toNat c.rm c.sat (r.e.hash (addr o)))
        (s.writeTo r c.dd.loc (putAll (vs.map fun v => (v.1, leBytes es v.2.pat)))).raise
          (vs.foldl (fun f v => f ||| v.2.flags) 0)
      else
        live.foldl (fun (s : State) o =>
          s.combine r c.dd.loc (addr o) es
            (.elem (combKind c.comb) (BitVec.ofNat 6 c.df) c.rm c.sat (isIntTag c.sf) o.val r.e.seed r.e.steptag)) s
    let r := { r with flight := r.flight.drop 1, outs := r.outs.filter fun o => decide (o.idx / 64 ≠ g) }
    if g + 1 = r.copyGroups then
      s.lastWrite r c.tagw (windowSlots c.dd (c.dstOff 0 0) c.m (c.n * es)) c.df
    else s.setRun r

def execCopy (_ : CmdRec) (b : Beat) (s : State) : Out :=
  .next (s.onBeat b (fun q => s.startCommand q copySpec copyGo) State.copyRead State.copyWrite)

/-! FILL (R222). -/

def fillFaults (q : Queue) (hs : Vector Handle 16) (r : CmdRec) : List PushFault :=
  let c := copyOf r
  reservedFaults q r [maskOcScope + maskOf 23 23 + maskOf 20 16, maskOf 63 45 + maskOf 35 24, allBits, 0, allBits, 0,
    maskOf 63 32, allBits] ++
    faultIf (rmReserved (wfield r.w1 44 42) || tagReserved c.df) (pushFault q cILLEGAL 1) ++
    faultIf (c.tagw && c.dd.loc) (pushFault q cILLEGAL 3) ++
    viewFaults q hs r 3 5 c.m c.n (elemBytes c.df) permW ++
    faultIf (!moveTag c.df) (pushFault q cFORMAT 1)

def fillWriteDue (r : Run) (loc : Bool) (t : Nat) : Bool := r.copy.dd.loc == loc && t == r.s + r.nw + 1 + r.copyWl

def fillGo (r : Run) (s : State) : State := s.engineFree r.q (r.s + r.copyGroups)

def State.fillWrite (s : State) (r : Run) : State :=
  let c := r.copy
  let es := elemBytes c.df
  let v := wfield r.e.r.w6 31 0
  let idx := rangeFrom (64 * r.nw) (min (c.m * c.n) (64 * r.nw + 64))
  let vs := idx.map fun i =>
    let a := r.e.addr c.dd (c.dstOff (i / c.n) (i % c.n))
    (a, convertTo c.df (isIntTag c.df) v c.rm c.sat (r.e.hash a))
  let s := (s.writeTo r c.dd.loc (putAll (vs.map fun v => (v.1, leBytes es v.2.pat)))).raise
    (vs.foldl (fun f v => f ||| v.2.flags) 0)
  if r.nw + 1 = r.copyGroups then
    s.lastWrite r c.tagw (windowSlots c.dd (c.dstOff 0 0) c.m (c.n * es)) c.df
  else s.setRun { r with nw := r.nw + 1 }

def execFill (_ : CmdRec) (b : Beat) (s : State) : Out :=
  .next (s.onBeat b (fun q => s.startCommand q (fun _ => { StartSpec.plain with engine := true }) fillGo) (fun s _ => s)
    State.fillWrite)

/-! REDUCE (R223 to R225). -/

structure Reduce where
  ken : Bool
  kport : Port
  kbase : Nat
  kn : Nat
  rop : Nat
  axis : Bool
  rm : Rm
  df : Nat
  sf : Nat
  n : Nat
  m : Nat
  sat : Bool
  sqs : Bool
  tagw : Bool
  sd : Desc
  sv : View
  dd : Desc
  deriving DecidableEq, Repr

def reduceOf (r : CmdRec) : Reduce :=
  { ken := r.w1.getLsbD 56, kport := Port.ofCode (wfield r.w1 55 54), kbase := wfield r.w1 53 51, kn := wfield r.w1 50 48 + 1,
    rop := wfield r.w1 47 46, axis := r.w1.getLsbD 45, rm := rmOf (wfield r.w1 44 42), df := wfield r.w1 41 36,
    sf := wfield r.w1 35 30, n := wfield r.w1 23 12 + 1, m := wfield r.w1 11 0 + 1, sat := r.w0.getLsbD 21,
    sqs := r.w0.getLsbD 23, tagw := r.w0.getLsbD 22, sd := descOf r.w2, sv := viewOf r.w3, dd := descOf r.w4 }

/-- Number of results. -/
def Reduce.lines (x : Reduce) : Nat := if x.axis then x.n else x.m

def reduceTag (t : Nat) : Bool := [tagFP32, tagBF16, tagFP16, tagI32].contains t

def reduceFaults (q : Queue) (hs : Vector Handle 16) (r : CmdRec) : List PushFault :=
  let x := reduceOf r
  let es := elemBytes x.df
  reservedFaults q r [maskOcScope + maskOf 20 19 + maskOf 17 17, maskOf 63 57 + maskOf 29 24, 0, 0, 0, allBits, allBits,
    allBits] ++
    faultIf (rmReserved (wfield r.w1 44 42) || tagReserved x.sf || tagReserved x.df ||
      decide (8 < x.kbase + x.kn)) (pushFault q cILLEGAL 1) ++
    faultIf (!x.ken && !x.dd.en || x.tagw && x.dd.loc || x.dd.en && x.dd.pitch != 0) (pushFault q cILLEGAL 4) ++
    viewFaults q hs r 2 3 x.m x.n (elemBytes x.sf) permR ++
    optionalFaults q hs r.w4 4 1 (x.lines * es) es permW ++
    faultIf (!moveTag x.sf || !reduceTag x.df || isIntTag x.sf != isIntTag x.df) (pushFault q cFORMAT 1)

def Run.reduce (r : Run) : Reduce := reduceOf r.e.r

def Reduce.srcOff (x : Reduce) (i j : Nat) : Nat := viewOff x.sd x.sv (elemBytes x.sf) i j
def Reduce.last (x : Reduce) (l : Nat) : Nat := if x.axis then (x.m - 1) * x.n + l else l * x.n + x.n - 1

def reduceSpec (e : QEntry) : StartSpec :=
  let x := reduceOf e.r
  { StartSpec.plain with
    engine := true, ports := copyPorts e.r,
    tags := if x.sqs then [⟨slotsOf x.sd (x.srcOff 0 0) x.m (x.n * elemBytes x.sf), x.sf⟩] else [] }

def Run.reduceRate (r : Run) : Nat := max 1 (2 * r.rate .s)
def Run.reduceWl (r : Run) : Nat := if r.reduce.dd.loc then 22 else 2
def Run.reduceGroups (r : Run) : Nat := groupCount r.reduce.m r.reduce.n

/-- D(l) of the lines whose last element lies in group `g`, read in cycle `t`. -/
def Run.reduceTimes (r : Run) (g t : Nat) : List Nat :=
  let x := r.reduce
  let ls := (rangeFrom r.times.length (min x.lines (r.times.length + 64))).filter fun l => x.last l / 64 == g
  let gD := if r.claims .d then r.rate .d else 1
  ls.foldl (fun ts l =>
    let tl := t + r.lf + r.pl .s + 4
    ts ++ [if l < 64 then tl else max tl (ts.getD (l - 64) 0 + gD)]) r.times

/-- The end on port D: the last D(l), where the reads still to come wait no more. -/
def Run.reduceEnd (r : Run) : Nat :=
  ((rangeFrom r.nr r.reduceGroups).foldl (fun (x : Run) g =>
    { x with times := x.reduceTimes g (r.s + r.slip + g * r.reduceRate) }) r).times.foldl max 0

/-- The lanes of port D are held until the last result leaves them (R180). -/
def State.holdResults (s : State) (id : Nat) : State :=
  match s.runOf id with
  | some r => s.setRun (r.hold .d (r.reduceEnd + r.pl .d))
  | none => s

def reduceGo (r : Run) (s : State) : State :=
  let r := { r with lf := fetchLatency r.reduce.sd }
  let last := r.s + (r.reduceGroups - 1) * r.reduceRate + r.lf + r.pl .s
  ((s.setRun (r.hold .s last)).holdResults r.id).engineFree r.q (r.s + r.reduceGroups * r.reduceRate)

/-- Results are numbered in their order; those of cycle `t`, `w` cycles after D. -/
def Run.resultsDue (r : Run) (w t : Nat) : List Nat := (List.range r.times.length).filter fun l => r.times.getD l 0 + w == t

def reduceReadDue (r : Run) (t : Nat) : Bool :=
  r.groupDue r.reduceGroups r.reduceRate t || !(r.resultsDue 0 t).isEmpty

/-- The members of a line that were not dropped, in stream order. -/
def Run.members (r : Run) (l : Nat) : List Nat :=
  let x := r.reduce
  (r.outs.filter fun o => !o.drop && (if x.axis then o.idx % x.n == l else o.idx / x.n == l)).map fun o => o.val.toNat

/-- R of a line, exactly (R224). -/
def reduceLine (rop : Nat) (int : Bool) (ms : List Nat) : Exact :=
  let val := streamVal int
  match rop with
  | 0 =>
    if int then Exact.of (valOfInt ((ms.map (toSigned 32)).sum)) else chunkSum (ms.map fun v => (val v, .fin false 1 0))
  | 3 =>
    if int then Exact.of (valOfInt ((ms.map fun v => toSigned 32 v * toSigned 32 v).sum))
    else chunkSum (ms.map fun v => (val v, val v))
  | k =>
    let isMax := k == 1
    match ms with
    | [] =>
      if int then Exact.of (valOfInt (if isMax then -(2 ^ 31) else 2 ^ 31 - 1)) else Exact.of (.inf isMax)
    | v :: vs =>
      if int then
        Exact.of (valOfInt (vs.foldl (fun a v => if isMax then max a (toSigned 32 v) else min a (toSigned 32 v)) (toSigned 32 v)))
      else
        let r := vs.foldl (fun (a : Rounded) v => let b := fminmax isMax a.pat v; ⟨b.pat, a.flags ||| b.flags⟩) ⟨v, 0⟩
        let x := val r.pat
        ⟨x, false, r.flags ||| snanFlag [x]⟩

/-- The pa bits of a result; with no result vector they are open (DESIGN CHOICE, log entry 92). -/
def State.resultHash (s : State) (r : Run) (l : Nat) : BitVec 16 × State :=
  let x := r.reduce
  if x.dd.en then (r.e.hash (r.e.addr x.dd (l * elemBytes x.df)), s)
  else ((Config.freeWord s.free).setWidth 16, { s with free := s.free + 1 })

/-- A result is computed: it enters port D, or waits for its write. `res` keeps its flags. -/
def State.reduceResult (s : State) (r : Run) (l : Nat) : State :=
  let x := r.reduce
  let h := s.resultHash r l
  let v := convertVal x.df (reduceLine x.rop (isIntTag x.sf) (r.members l)) x.rm x.sat h.1
  let w := widen x.df v.pat
  let keep := if x.axis then r.outs.filter fun o => o.idx % x.n != l else r.outs.filter fun o => o.idx / x.n != l
  let s := h.2.setRun { r with outs := keep, res := r.res ++ [(BitVec.ofNat 32 w, v.flags)] }
  match r.useOf .d with
  | some u => s.addJobs [mkJob r u l l 0 0 w 0 h.1 s.dcc (l + 1 == x.lines) false]
  | none => s

/-- Source elements of a REDUCE pass port S only. With no result vector the bits of an element's address are open (DESIGN CHOICE, log
entry 92). -/
def State.reduceRead (s : State) (r : Run) : State :=
  let x := r.reduce
  let es := elemBytes x.sf
  let s :=
    if r.groupDue r.reduceGroups r.reduceRate s.dcc then
      let ps := (groupPieces x.m x.n r.nr).map fun p => (p, r.e.span x.sd (x.srcOff p.1 p.2.1) (p.2.2 * es))
      let open_ := s.free
      let hash (i j : Nat) : BitVec 16 :=
        if x.dd.en then r.e.hash (r.e.addr x.dd ((if x.axis then j else i) * elemBytes x.df))
        else (Config.freeWord (open_ + (i * x.n + j) % 64)).setWidth 16
      let s := if x.dd.en then s else { s with free := s.free + 64 }
      (s.attempt r fun s => s.readBeat r (ps.map (·.2)) false true fun s =>
        let s := ps.foldl (fun (s : State) p => s.fetchThen r p.2 (s.dcc + r.lf) fun s bs =>
          s.takePiece r x.n (x.m * x.n) x.sf hash false p.1 bs) s
        match s.runOf r.id with
        | some y => s.setRun { y with nr := y.nr + 1, times := y.reduceTimes y.nr s.dcc }
        | none => s).holdResults r.id
    else s
  (r.resultsDue 0 s.dcc).foldl (fun (s : State) l =>
    match s.runOf r.id with
    | some y => s.reduceResult y l
    | none => s) s

/-- The value of result `l`: what left port D, or the result itself, in the destination's format. -/
def Run.reduceOut (r : Run) (l : Nat) (hash : BitVec 16) : Option Rounded :=
  let x := r.reduce
  let own := r.res.getD l (0, 0)
  if r.claims .d then
    match r.outs.find? fun o => o.idx == l with
    | some o => if o.drop then none else
        let y := convertTo x.df (isIntTag x.df) o.val.toNat x.rm x.sat hash
        some ⟨y.pat, own.2 ||| y.flags⟩
    | none => none
  else
    let y := convertTo x.df (isIntTag x.df) own.1.toNat x.rm x.sat hash
    some ⟨y.pat, own.2 ||| y.flags⟩

def reduceEarlyDue (r : Run) (t : Nat) : Bool :=
  r.reduce.dd.en && r.reduce.dd.loc && !(r.resultsDue (r.pl .d + 22) t).isEmpty

def reduceLateDue (r : Run) (t : Nat) : Bool :=
  r.reduce.dd.en && !r.reduce.dd.loc && !(r.resultsDue (r.pl .d + 2) t).isEmpty ||
    !(r.resultsDue (r.pl .d + 1) t).isEmpty

/-- Results that fall due in the present cycle are written to the result vector. -/
def State.reduceVector (s : State) (r : Run) : State :=
  let x := r.reduce
  let es := elemBytes x.df
  let ls := r.resultsDue (r.pl .d + r.reduceWl) s.dcc
  let vs := ls.filterMap fun l =>
    let a := r.e.addr x.dd (l * es)
    (r.reduceOut l (r.e.hash a)).map fun v => (a, v)
  let s := (s.writeTo r x.dd.loc (putAll (vs.map fun v => (v.1, leBytes es v.2.pat)))).raise
    (vs.foldl (fun f v => f ||| v.2.flags) 0)
  if ls.contains (x.lines - 1) then s.lastWrite r x.tagw (slotsOf x.dd 0 1 (x.lines * es)) x.df else s

/-- Results that reach port constants. With no result vector their flags fall here, and the last of them ends the command. -/
def State.reduceConst (s : State) (r : Run) : State :=
  let x := r.reduce
  let ls := r.resultsDue (r.pl .d + 1) s.dcc
  let s := ls.foldl (fun (s : State) l =>
    let h := s.resultHash r l
    match r.reduceOut l h.1 with
    | none => h.2
    | some v =>
      let s := if x.ken && decide (l < x.kn) then
          h.2.onArch fun a => a.onPort x.kport fun p =>
            { p with k := Vector.ofFn fun i => if i.val = x.kbase + l then BitVec.ofNat 32 (widen x.df v.pat) else p.k.get i }
        else h.2
      if x.dd.en then s else s.raise v.flags) s
  if !x.dd.en && ls.contains (x.lines - 1) then s.finish r else s

def State.reduceWrite (s : State) (r : Run) : State :=
  let x := r.reduce
  if s.early then s.reduceVector r
  else
    let s := s.reduceConst r
    if x.dd.en && !x.dd.loc && !(r.resultsDue (r.pl .d + 2) s.dcc).isEmpty then s.reduceVector r else s

def execReduce (_ : CmdRec) (b : Beat) (s : State) : Out :=
  .next (s.onBeat b (fun q => s.startCommand q reduceSpec reduceGo) State.reduceRead State.reduceWrite)

/-! QUANT (R226 to R229). -/

structure Quant where
  rm : Rm
  df : Nat
  sf : Nat
  outk : Nat
  n : Nat
  m : Nat
  static_ : Bool
  sqs : Bool
  tagw : Bool
  sd : Desc
  dd : Desc
  cd : Desc
  od : Desc
  thr : Nat
  ssc : Nat
  deriving DecidableEq, Repr

def quantOf (r : CmdRec) : Quant :=
  { rm := rmOf (wfield r.w1 45 43), df := wfield r.w1 42 37, sf := wfield r.w1 36 31, outk := wfield r.w1 30 27,
    n := wfield r.w1 23 12 + 1, m := wfield r.w1 11 0 + 1, static_ := r.w0.getLsbD 21, sqs := r.w0.getLsbD 23,
    tagw := r.w0.getLsbD 22, sd := descOf r.w2, dd := descOf r.w3, cd := descOf r.w4, od := descOf r.w5,
    thr := wfield r.w6 63 32, ssc := wfield r.w6 31 0 }

/-- A format with one scale per block of 32, and its chunk length (R227). -/
def isBlock (t : Nat) : Bool := t == tagE2M1 || t == tagG4
def chunkLen (t : Nat) : Nat := if isBlock t then 32 else 128

/-- Bytes of a scale. -/
def scaleWidth (t : Nat) : Nat := if t = tagE2M1 then 1 else if t = tagG4 then 2 else 4

/-- The value of a scale pattern. -/
def scaleValue (t v : Nat) : Val := if t = tagE2M1 then e8m0Val v else if t = tagG4 then valOf .bf16 v else valOf .fp32 v

def isF8 (t : Nat) : Bool := t == tagE4M3 || t == tagE5M2

def quantTag (t : Nat) : Bool := isF8 t || t == tagI8 || isBlock t
def wideTag (t : Nat) : Bool := t == tagFP32 || t == tagBF16 || t == tagFP16

/-- Alignment of elements in an array (R200). -/
def alignOf (t : Nat) : Nat := if elemBits t = 4 then 16 else elemBits t / 8

/-- What a push of a QUANT record raises (R226). The side list's OFF and PITCH are held to its 32-byte record (DESIGN
CHOICE, log entry 100). -/
def quantFaults (q : Queue) (hs : Vector Handle 16) (r : CmdRec) : List PushFault :=
  let x := quantOf r
  let nch := ceilDiv x.n (chunkLen x.df)
  let sw := scaleWidth x.df
  reservedFaults q r [maskOcScope + maskOf 20 16, maskOf 63 46 + maskOf 26 24, 0, 0, 0, 0, 0, allBits] ++
    faultIf (rmReserved (wfield r.w1 45 43) || tagReserved x.df || tagReserved x.sf || decide (8 < x.outk) ||
      decide (0 < x.outk) && !isF8 x.df || isBlock x.df && x.n % 32 != 0) (pushFault q cILLEGAL 1) ++
    faultIf (x.tagw && x.dd.loc) (pushFault q cILLEGAL 3) ++
    faultIf (x.od.en != decide (0 < x.outk)) (pushFault q cILLEGAL 5) ++
    faultIf (x.df == tagE2M1 && (x.ssc == 0xFF || decide (0xFF < x.ssc)) || x.df == tagG4 && decide (0xFFFF < x.ssc))
      (pushFault q cILLEGAL 6) ++
    arrayFaults q hs r.w2 2 x.m (x.n * elemBytes x.sf) (elemBytes x.sf) permR ++
    arrayFaults q hs r.w3 3 x.m (ceilDiv (x.n * elemBits x.df) 8) (alignOf x.df) permW ++
    arrayFaults q hs r.w4 4 x.m (nch * sw) sw permW ++
    optionalFaults q hs r.w5 5 x.m (32 * nch) 32 permW ++
    faultIf (!quantTag x.df || !wideTag x.sf) (pushFault q cFORMAT 1)

def Run.quant (r : Run) : Quant := quantOf r.e.r

def Quant.chunksPerRow (x : Quant) : Nat := ceilDiv x.n (chunkLen x.df)

/-- Last element of chunk `c`, in stream order. -/
def Quant.lastOf (x : Quant) (c : Nat) : Nat :=
  c / x.chunksPerRow * x.n + min x.n ((c % x.chunksPerRow + 1) * chunkLen x.df) - 1

def quantSpec (e : QEntry) : StartSpec :=
  let x := quantOf e.r
  { StartSpec.plain with
    engine := true, tags := if x.sqs then [⟨slotsOf x.sd 0 x.m (x.n * elemBytes x.sf), x.sf⟩] else [] }

def quantGo (r : Run) (s : State) : State :=
  let x := r.quant
  (s.setRun { r with lf := fetchLatency x.sd }).engineFree r.q (r.s + groupCount x.m x.n)

def quantReadDue (r : Run) (t : Nat) : Bool := r.groupDue (groupCount r.quant.m r.quant.n) 1 t

def State.quantRead (s : State) (r : Run) : State :=
  let x := r.quant
  let es := elemBytes x.sf
  let ps := (groupPieces x.m x.n r.nr).map fun p => (p, r.e.span x.sd (p.1 * x.sd.pitch + p.2.1 * es) (p.2.2 * es))
  s.readBeat r (ps.map (·.2)) false true fun s =>
    let s := ps.foldl (fun (s : State) p => s.fetchThen r p.2 (s.dcc + r.lf) fun s bs =>
      s.addOuts r.id (((codesOf (8 * es) 0 p.1.2.2 bs).zipIdx).map fun v =>
        ⟨p.1.1 * x.n + p.1.2.1 + v.2, BitVec.ofNat 32 (widen x.sf v.1), false⟩)) s
    match s.runOf r.id with
    | some y =>
      let cs := (rangeFrom y.times.length (min (x.m * x.chunksPerRow) (y.times.length + 64))).filter fun c =>
        x.lastOf c / 64 == y.nr
      s.setRun { y with nr := y.nr + 1, times := y.times ++ cs.map fun _ => s.dcc + y.lf }
    | none => s

/-- The largest magnitudes among finite members, ties to the lower channel: channels taken, latest first. -/
def largest (vs : List Val) : Nat → List Nat → List Nat
  | 0, acc => acc
  | k + 1, acc =>
    let best := vs.zipIdx.foldl (fun (b : Option (Nat × Val)) v =>
      match v.1 with
      | .fin .. =>
        if acc.contains v.2 then b
        else
          (match b with
          | some (i, w) => if w.abs.lt v.1.abs then some (v.2, v.1) else some (i, w)
          | none => some (v.2, v.1))
      | _ => b) none
    match best with
    | some (i, _) => largest vs k (i :: acc)
    | none => acc

/-- The least e with a ≤ 6 × 2^e, for a = m × 2^x above 0. -/
def leastExp (m : Nat) (x : Int) : Int :=
  let l := (Nat.log2 m : Int) + x
  -- a ≤ 1.5 × 2^l exactly when 2 m ≤ 3 × 2^log2 m
  if 2 * m ≤ 3 * 2 ^ Nat.log2 m then l - 2 else l - 1

/-- The scale of a chunk (R227) as its pattern; its rounding raises only SAT (DEDUCED, log entry 71). -/
def quantScale (x : Quant) (amax : Val) : Rounded :=
  if x.static_ then ⟨x.ssc, 0⟩
  else if amax.isZero then ⟨if x.df = tagE2M1 then 0x7F else if x.df = tagG4 then 0x3F80 else 0x3F800000, 0⟩
  else if x.df = tagE2M1 then
    match amax with
    | .fin _ m e => ⟨(max 0 (min 254 (leastExp m e + 127))).toNat, 0⟩
    | _ => ⟨0x7F, 0⟩
  else if x.df = tagG4 then
    let r := roundTo .bf16 amax .rpi true 0
    ⟨r.pat, r.flags &&& flagSAT⟩
  else
    let qmax : Int := if x.df = tagE4M3 then 448 else if x.df = tagE5M2 then 57344 else 127
    let r := (exactDiv amax (valOfInt qmax)).round .fp32 .rpi true 0
    ⟨r.pat, r.flags &&& flagSAT⟩

/-- An element's code (R227): an infinite element takes the bound of the format, E5M2's too, which has infinities. -/
def quantCode (x : Quant) (v scale : Val) (hash : BitVec 16) : Rounded :=
  let d := exactDiv v scale
  if x.df = tagE5M2 ∧ v.isInf = true ∧ d.v.isInf = true then ⟨if d.v.neg then 0xFB else 0x7B, flagSAT⟩
  else if x.df = tagG4 then toG4 d x.rm hash else convertVal x.df d x.rm true hash

/-- The bytes of codes, two to a byte where they have 4 bits (R43). -/
def packCodes (bits : Nat) (cs : List Nat) : List Byte :=
  if bits = 4 then
    (List.range (ceilDiv cs.length 2)).map fun i => BitVec.ofNat 8 (cs.getD (2 * i) 0 % 16 + 16 * (cs.getD (2 * i + 1) 0 % 16))
  else cs.flatMap (leBytes (bits / 8))

/-- pa of an element of a quantised array (R53, R218). -/
def elemPa (base bits c : Nat) : Nat := if bits = 4 then base + c / 2 + (if c % 2 = 1 then 2 ^ 63 else 0) else base + c * (bits / 8)

/-- What a chunk writes: bytes of its elements, its scale and its side-list record, with its flags and clipped elements. -/
structure ChunkOut where
  elems : Nat × List Byte
  scale : Nat × List Byte
  side : Nat × List Byte
  flags : Flags
  clips : Nat
  deriving DecidableEq, Repr

def Run.quantChunk (r : Run) (c : Nat) : ChunkOut :=
  let x := r.quant
  let nch := x.chunksPerRow
  let i := c / nch
  let b := c % nch
  let cl := chunkLen x.df
  let bits := elemBits x.df
  let n := min x.n ((b + 1) * cl) - b * cl
  let vs := (List.range n).map fun k =>
    valOf .fp32 (((r.outs.find? fun o => o.idx == i * x.n + b * cl + k).map fun o => o.val.toNat).getD 0)
  let o := largest vs x.outk []
  let amax := vs.zipIdx.foldl (fun (a : Val) v =>
    match v.1 with
    | .fin .. => if o.contains v.2 then a else if a.lt v.1.abs then v.1.abs else a
    | _ => a) (.fin false 0 0)
  let sc := quantScale x amax
  let sv := scaleValue x.df sc.pat
  let base := r.e.addr x.dd (i * x.dd.pitch)
  let codes := vs.zipIdx.map fun v =>
    if o.contains v.2 then (⟨0, 0⟩ : Rounded) else quantCode x v.1 sv (r.e.hash (elemPa base bits (b * cl + v.2)))
  let picked := (List.range n).filter o.contains
  let side := picked.map fun k => roundTo .bf16 (vs.getD k (.fin false 0 0)) .rne false 0
  let entries := (side.zip picked).map fun e => e.1.pat * 2 ^ 16 + 2 ^ 15 + e.2
  { elems := (r.e.addr x.dd (i * x.dd.pitch + b * cl * bits / 8), packCodes bits (codes.map (·.pat)))
    scale := (r.e.addr x.cd (i * x.cd.pitch + b * scaleWidth x.df), leBytes (scaleWidth x.df) sc.pat)
    side := (r.e.addr x.od (i * x.od.pitch + 32 * b), padTo 32 (entries.flatMap (leBytes 4)))
    flags := (codes ++ side).foldl (fun f v => f ||| v.flags) sc.flags
    clips := (codes.filter fun v => v.flags &&& flagSAT ≠ 0).length }

/-- WQ: 6 where the elements go to the local store, 26 where they go to memory. -/
def Run.quantWq (r : Run) : Nat := if r.quant.dd.loc then 26 else 6

/-- Chunks that are written in the present cycle. -/
def Run.chunksDue (r : Run) (t : Nat) : List Nat :=
  (rangeFrom r.nw r.times.length).filter fun c => r.times.getD c 0 + r.quantWq == t

def Quant.places (x : Quant) : List Bool := [x.dd.loc, x.cd.loc] ++ (if x.od.en then [x.od.loc] else [])

def quantWriteDue (r : Run) (loc : Bool) (t : Nat) : Bool := r.quant.places.contains loc && !(r.chunksDue t).isEmpty

/-- Chunks are written: to memory in the early part of the cycle, to the local store in the late part. What is counted is
counted in the last part that has a write. -/
def State.quantWrite (s : State) (r : Run) : State :=
  let x := r.quant
  let cs := r.chunksDue s.dcc
  let outs := cs.map r.quantChunk
  let w (loc : Bool) : List (Nat × List Byte) := outs.flatMap fun o =>
    (if x.dd.loc == loc then [o.elems] else []) ++ (if x.cd.loc == loc then [o.scale] else []) ++
      (if x.od.en && x.od.loc == loc then [o.side] else [])
  let s := s.writeTo r s.early (putAll (w s.early))
  if s.early && x.places.contains false then s
  else
    let clips := r.clips + (outs.map (·.clips)).sum
    let s := s.raise (outs.foldl (fun f o => f ||| o.flags) 0)
    let n := r.nw + cs.length
    let first := if n = x.m * x.chunksPerRow then 0 else x.lastOf (n - 1) + 1
    if n = x.m * x.chunksPerRow then
      (s.raise (flagIf (decide (x.thr < clips)) flagOVR)).lastWrite r x.tagw
        (slotsOf x.dd 0 x.m (ceilDiv (x.n * elemBits x.df) 8)) x.df
    else s.setRun { r with nw := n, clips := clips, outs := r.outs.filter fun o => decide (first ≤ o.idx) }

def execQuant (_ : CmdRec) (b : Beat) (s : State) : Out :=
  .next (s.onBeat b (fun q => s.startCommand q quantSpec quantGo) State.quantRead State.quantWrite)

/-! DEQ (R230). Its words are laid out as QUANT's. -/

def deqFaults (q : Queue) (hs : Vector Handle 16) (r : CmdRec) : List PushFault :=
  let x := quantOf r
  let outa := r.w0.getLsbD 21
  let nch := ceilDiv x.n (chunkLen x.sf)
  let sw := scaleWidth x.sf
  reservedFaults q r [maskOcScope + maskOf 23 23 + maskOf 20 20 + maskOf 18 16, maskOf 63 46 + maskOf 30 24, 0, 0, 0, 0,
    allBits, allBits] ++
    faultIf (rmReserved (wfield r.w1 45 43) || tagReserved x.df || tagReserved x.sf || outa && !isF8 x.sf)
      (pushFault q cILLEGAL 1) ++
    faultIf (x.tagw && x.dd.loc) (pushFault q cILLEGAL 3) ++
    faultIf (x.od.en != outa) (pushFault q cILLEGAL 5) ++
    arrayFaults q hs r.w2 2 x.m (ceilDiv (x.n * elemBits x.sf) 8) (alignOf x.sf) permR ++
    arrayFaults q hs r.w3 3 x.m (x.n * elemBytes x.df) (elemBytes x.df) permW ++
    arrayFaults q hs r.w4 4 x.m (nch * sw) sw permR ++
    optionalFaults q hs r.w5 5 x.m (32 * nch) 32 permR ++
    faultIf (!quantTag x.sf || !wideTag x.df) (pushFault q cFORMAT 1)

def deqSat (r : CmdRec) : Bool := r.w0.getLsbD 19

def deqGo (r : Run) (s : State) : State :=
  let x := r.quant
  (s.setRun { r with lf := fetchLatency x.sd }).engineFree r.q (r.s + groupCount x.m x.n)

def deqReadDue (r : Run) (t : Nat) : Bool := r.groupDue (groupCount r.quant.m r.quant.n) 1 t

/-- The words of the blocks that a scale word governs. -/
def deqMarks (r : Run) (w : Nat) : List (Bool × Nat) :=
  let x := r.quant
  let sb := scaleWidth x.sf
  (List.range x.m).flatMap fun i =>
    (List.range (ceilDiv x.n 32)).flatMap fun b =>
      let a := r.e.addr x.cd (i * x.cd.pitch + b * sb)
      if w ≤ a + sb - 1 ∧ a ≤ w + 7 then
        (wordsIn (r.e.addr x.sd (i * x.sd.pitch + 16 * b)) 16).map fun y => (x.sd.loc, y)
      else []

/-- Scales and side-list records are read with the first element of their chunk. -/
structure ChunkRead where
  row : Nat
  chunk : Nat
  scale : Span
  side : Option Span
  deriving DecidableEq, Repr

def Run.deqChunks (r : Run) (ps : List (Nat × Nat × Nat)) : List ChunkRead :=
  let x := r.quant
  let cl := chunkLen x.sf
  ps.flatMap fun p =>
    ((rangeFrom p.2.1 (p.2.1 + p.2.2)).filter fun c => c % cl == 0).map fun c =>
      ⟨p.1, c / cl, r.e.span x.cd (p.1 * x.cd.pitch + c / cl * scaleWidth x.sf) (scaleWidth x.sf),
        if x.od.en then some (r.e.span x.od (p.1 * x.od.pitch + 32 * (c / cl)) 32) else none⟩

/-- Take a chunk's scale and record. -/
def State.takeChunk (s : State) (r : Run) (c : ChunkRead) : State :=
  let x := r.quant
  let t := s.dcc + r.lf
  let sc := if isBlock x.sf then
      some ⟨c.row % 2 ^ 16 * 2 ^ 32 + c.chunk % 2 ^ 16, (wordsIn c.scale.a c.scale.n).flatMap fun w =>
        if (if c.scale.loc then s.poison else s.core.ls.poison).contains w then deqMarks r w else []⟩
    else none
  let a := s.fetch r c.scale t sc
  let b := match c.side with
    | some sp => a.2.fetch r sp t none
    | none => ([], a.2)
  match b.2.runOf r.id with
  | some y => b.2.setRun { y with capX := y.capX ++ [[c.row, c.chunk, leNat a.1, leNat b.1]] }
  | none => b.2

def State.deqRead (s : State) (r : Run) : State :=
  let x := r.quant
  let bits := elemBits x.sf
  let ps := groupPieces x.m x.n r.nr
  let es := ps.map fun p => (p, r.e.span x.sd (p.1 * x.sd.pitch + p.2.1 * bits / 8) (ceilDiv ((p.2.1 * bits % 8 + p.2.2 * bits)) 8))
  let cs := r.deqChunks ps
  s.readBeat r (es.map (·.2) ++ cs.map (·.scale) ++ cs.filterMap (·.side)) false true fun s =>
    let s := es.foldl (fun (s : State) p => s.fetchThen r p.2 (s.dcc + r.lf) fun s bs =>
      s.addOuts r.id (((codesOf bits (p.1.2.1 * bits % 8 / 4) p.1.2.2 bs).zipIdx).map fun v =>
        ⟨p.1.1 * x.n + p.1.2.1 + v.2, BitVec.ofNat 32 v.1, false⟩)) s
    (cs.foldl (fun (s : State) c => s.takeChunk r c) s).groupRead r.id

/-- The value of an element, and what both steps that give it raise (R230, R8) (R39, DEDUCED, log entry 73). Of two
valid side-list entries that name one channel the first applies, and an entry's reserved bits are not looked at (DESIGN
CHOICE, log entry 101). -/
def Run.deqValue (r : Run) (i c code : Nat) (hash : BitVec 16) : Rounded :=
  let x := r.quant
  let cl := chunkLen x.sf
  let ch := ((r.capX.find? fun l => l.getD 0 0 == i && l.getD 1 0 == c / cl).getD [])
  let sv := scaleValue x.sf (ch.getD 2 0)
  let sat := deqSat r.e.r
  let y : Rounded :=
    if sv.isNan then ⟨(convertVal x.df (Exact.of (.nan false)) x.rm sat hash).pat, flagNANS ||| snanFlag [sv]⟩
    else convertVal x.df (exactMul (codeVal x.sf code) sv) x.rm sat hash
  match (sideEntries (ch.getD 3 0)).find? fun e => x.od.en && e.2.1 && e.2.2.2 == c % cl with
  | some e =>
    let v := valOf .bf16 e.1
    let z := convertVal x.df ⟨v, false, snanFlag [v]⟩ x.rm sat hash
    ⟨z.pat, y.flags ||| z.flags⟩
  | none => y

def Run.deqDelay (r : Run) : Nat := r.lf + if r.quant.dd.loc then 24 else 4

def deqWriteDue (r : Run) (loc : Bool) (t : Nat) : Bool := r.quant.dd.loc == loc && (r.landing r.deqDelay t).isSome

def State.deqWrite (s : State) (r : Run) : State :=
  let x := r.quant
  let es := elemBytes x.df
  match r.landing r.deqDelay s.dcc with
  | none => s
  | some g =>
    let vs := (r.outs.filter fun o => decide (o.idx / 64 = g)).map fun o =>
      let a := r.e.addr x.dd (o.idx / x.n * x.dd.pitch + o.idx % x.n * es)
      (a, r.deqValue (o.idx / x.n) (o.idx % x.n) o.val.toNat (r.e.hash a))
    let s := (s.writeTo r x.dd.loc (putAll (vs.map fun v => (v.1, leBytes es v.2.pat)))).raise
      (vs.foldl (fun f v => f ||| v.2.flags) 0)
    let r := { r with flight := r.flight.drop 1, outs := r.outs.filter fun o => decide (o.idx / 64 ≠ g) }
    if g + 1 = groupCount x.m x.n then s.lastWrite r x.tagw (slotsOf x.dd 0 x.m (x.n * es)) x.df
    else s.setRun r

def execDeq (_ : CmdRec) (b : Beat) (s : State) : Out :=
  .next (s.onBeat b (fun q => s.startCommand q (fun _ => { StartSpec.plain with engine := true }) deqGo) State.deqRead
    State.deqWrite)

/-! The Skidder (R231 to R234). -/

structure Pattern where
  valid : Bool
  esize : Nat
  rows : Nat
  cols : Nat
  pitch : Nat
  deriving DecidableEq, Repr

def patternOf (w : Word) : Pattern :=
  ⟨w.getLsbD 63, 2 ^ wfield w 57 56, wfield w 55 44 + 1, wfield w 43 38 + 1, wfield w 31 0⟩

def sgpatFaults (q : Queue) (r : CmdRec) : List PushFault :=
  let w := r.w1
  reservedFaults q r [maskOcScope + maskOf 23 6, maskOf 62 58 + maskOf 37 32, allBits, allBits, allBits, allBits, allBits,
    allBits] ++
    faultIf (wfield w 57 56 == 3 || wfield w 31 0 % 2 ^ wfield w 57 56 != 0) (pushFault q cILLEGAL 1)

def sgpatGo (r : Run) (s : State) : State := s.engineFree r.q (r.s + 1)

def sgpatEarlyDue (r : Run) (t : Nat) : Bool := t == r.s + 4

def State.sgpatWrite (s : State) (r : Run) : State :=
  (s.onPart s.core.part fun p =>
    { p with skidder := Vector.ofFn fun i => if i.val = wfield r.e.r.w0 5 0 then r.e.r.w1 else p.skidder.get i }).finish r

def execSgpat (_ : CmdRec) (b : Beat) (s : State) : Out :=
  .next (s.onBeat b (fun q => s.startCommand q (fun _ => { StartSpec.plain with engine := true }) sgpatGo) (fun s _ => s)
    State.sgpatWrite)

/-- The source of a SGATH as a descriptor. -/
def sgathSrc (r : CmdRec) : Desc := ⟨true, BitVec.ofNat 4 (wfield r.w1 63 60), true, 0, wfield r.w1 31 0⟩

def sgathFaults (q : Queue) (hs : Vector Handle 16) (r : CmdRec) : List PushFault :=
  let d := descOf r.w2
  let h := hs.get (sgathSrc r).h.toFin
  reservedFaults q r [maskOcScope + maskOf 23 23 + maskOf 21 6, maskOf 59 32, 0, maskOf 63 32, allBits, allBits, allBits,
    allBits] ++
    faultIf ((sgathSrc r).h == 0 || h.v && !h.rd) (pushFault q cILLEGAL 1) ++
    faultIf (wfield r.w2 57 48 != 0 || d.loc || d.h != 0) (pushFault q cILLEGAL 2) ++
    faultIf ((sgathSrc r).h != 0 && !h.v) (pushFault q cHANDLE_INVALID 1)

/-- Byte offset of source element (row, column). -/
def sgathOff (p : Pattern) (v : View) (i j : Nat) : Nat := (v.row0 + i) * p.pitch + (v.col0 + j) * p.esize

/-- The stack of an HBM address (R280). -/
def stackOf (a : Nat) : Nat := Nat.xor (field a 10 8) (field a 21 19)

/-- The pattern that a SGATH gathers through. -/
def State.pattern (s : State) (r : CmdRec) : Pattern := patternOf ((s.part s.core.part).skidder.toList.getD (wfield r.w0 5 0) 0)

/-- The first offending address of a gather (R234), if its entry or extent is bad. -/
def State.sgathBad (s : State) (e : QEntry) : Option Nat :=
  let p := s.pattern e.r
  let d := sgathSrc e.r
  let v := viewOf e.r.w3
  let h := e.hnd d
  let last (i : Nat) : Nat := d.off + sgathOff p v i (p.cols - 1) + p.esize
  if !p.valid then some (h.addr d.off)
  else if !isHbm (h.addr 0) then some (e.addr d (sgathOff p v 0 0))
  else if last (p.rows - 1) ≤ h.bytes d.h then none
  else
    let i := ((List.range p.rows).find? fun i => decide (h.bytes d.h < last i)).getD 0
    let j := ((List.range p.cols).find? fun j => decide (h.bytes d.h < d.off + sgathOff p v i j + p.esize)).getD 0
    some (e.addr d (sgathOff p v i j))

def State.sgathSpec (s : State) (q : Queue) (e : QEntry) : StartSpec :=
  let p := s.pattern e.r
  let d := descOf e.r.w2
  let row := p.rows * p.esize
  let ill := p.valid && (decide (0x60000 < d.off + (p.cols - 1) * d.pitch + row) || d.off % p.esize != 0 ||
    decide (1 < p.cols) && (d.pitch % p.esize != 0 || decide (d.pitch < row)))
  { StartSpec.plain with
    engine := true,
    faults := (if ill then [s.cmdRecAt s.dcc cILLEGAL q e.r 0 false (BitVec.ofNat 64 d.off) 0] else []) ++
      (match s.sgathBad e with
      | some a => [s.cmdRecAt s.dcc cSGATH_FAULT q e.r 0 false (BitVec.ofNat 64 a)
          (BitVec.ofNat 64 (stackOf a * 2 ^ 8 + wfield e.r.w0 5 0))]
      | none => []) }

/-- The run keeps the pattern as it stands at S: rows, columns, element size, pitch. -/
def State.sgathGo (r : Run) (s : State) : State :=
  let p := s.pattern r.e.r
  let gr := ceilDiv (p.rows * p.esize) 64
  (s.setRun { r with vals := [p.rows, p.cols, p.esize, p.pitch] }).engineFree r.q (r.s + 120 + p.cols * gr)

def Run.pattern (r : Run) : Pattern := ⟨true, r.vals.getD 2 1, r.vals.getD 0 1, r.vals.getD 1 1, r.vals.getD 3 0⟩

def sgathReadDue (r : Run) (t : Nat) : Bool := r.nr == 0 && t == r.s + 40

/-- All source elements are read in S + 40; lines that are not resident are asked for, and must be there by the writes. -/
def State.sgathRead (s : State) (r : Run) : State :=
  let p := r.pattern
  let d := sgathSrc r.e.r
  let v := viewOf r.e.r.w3
  let col (j : Nat) : List Span := (List.range p.rows).map fun i => r.e.span d (sgathOff p v i j) p.esize
  (List.range p.cols).foldl (fun (s : State) j =>
    let sps := col j
    let all := spanLines sps
    let lines := all.filter fun a => !s.resident a
    let s := all.foldl (fun (s : State) a => if s.resident a then s.useLine a id else s.startFill a) s
    let x := s.fetchAll r s.dcc sps
    match x.2.runOf r.id with
    | some y => x.2.setRun { y with nr := 1, capA := y.capA ++ [x.1.map leNat], capX := y.capX ++ [lines] }
    | none => x.2) s

def Run.gatherRate (r : Run) : Nat := ceilDiv (r.pattern.rows * r.pattern.esize) 64

def sgathLateDue (r : Run) (t : Nat) : Bool := r.nr == 1 && t == r.s + r.slip + 120 + (r.nw + 1) * r.gatherRate

/-- An output row is written, once its lines have come back. The format and the sequence number of its tags are not given, since the record
has neither (DESIGN CHOICE, log entry 71). -/
def State.sgathWrite (s : State) (r : Run) : State :=
  let p := r.pattern
  let d := descOf r.e.r.w2
  if (r.capX.headD []).any fun a => !s.resident a then
    if s.core.stat.relax then s.slipRun r false true else s.runFault r cSCHED_MISS 0 0
  else
    let bs := (r.capA.headD []).flatMap (leBytes p.esize)
    let s := s.writeLocal r (putAll [(d.off + r.nw * d.pitch, bs)])
    if r.nw + 1 = p.cols then
      let f := Config.freeWord s.free
      if r.e.r.w0.getLsbD 22 then
        { s with free := s.free + 1 }.lastWrite r true (slotsOf d 0 p.cols (p.rows * p.esize)) (f.toNat % 2 ^ 6)
      else s.finish r
    else s.setRun { r with nw := r.nw + 1, capA := r.capA.drop 1, capX := r.capX.drop 1 }

def execSgath (_ : CmdRec) (b : Beat) (s : State) : Out :=
  .next (s.onBeat b (fun q => s.startCommand q (s.sgathSpec q) State.sgathGo) State.sgathRead State.sgathWrite)

end Sys2Proof.Machine
end

