-- ==== Sys2Proof/Machine/Kv.lean ====
section
/-! DEFINITION. The commands of queue QK: KAPPEND (R241 to R243), KCHASE (R244), ATTN (R245 to R250), RSPAN (R251), KTOPK
(R252), KCOMPACT (R253) and BEAMSET (R255), over pools, pages and chains (R236 to R240). -/

namespace Sys2Proof.Machine

/-! Pages and chains (R236 to R239). -/

def frameNone : Nat := 0xFFFFFFFF

def Chain.dim (c : Chain) : Nat := 16 * (c.dq + 1)

/-- PSTR of R236. -/
def Chain.pstr (c : Chain) : Nat := ceilDiv (64 + 32 * c.dim) 128 * 128

/-- The handle through which a descriptor of a chain record reaches memory. -/
def Chain.hnd (c : Chain) (w : Word) : Handle := c.hs.get (descOf w).h.toFin

/-- The address of byte `o` of an array of a chain record. -/
def Chain.at_ (c : Chain) (w : Word) (o : Nat) : Nat := (c.hnd w).addr ((descOf w).off + o)

/-- Do `n` bytes at `o` lie in the page? -/
def Chain.fits (c : Chain) (w : Word) (o n : Nat) : Bool :=
  decide ((descOf w).off + o + n ≤ (c.hnd w).bytes (descOf w).h)

def Chain.span (c : Chain) (w : Word) (o n : Nat) : Span := ⟨true, c.at_ w o, n⟩

/-- Offset of a frame in its pool. -/
def Chain.frameOff (c : Chain) (p : Nat) : Nat := p * c.pstr

/-- Does a frame lie in the pool handle's page (R242)? -/
def Chain.inPool (c : Chain) (p : Nat) : Bool := c.fits c.pool (c.frameOff p) c.pstr

/-- The K and V codes of a frame. -/
def Chain.codes (c : Chain) (p : Nat) : Span := c.span c.pool (c.frameOff p + 64) (32 * c.dim)

/-- The descriptor that a chain word stands for (R239). -/
def chainDesc (w : Word) : Desc := ⟨true, BitVec.ofNat 4 (wfield w 63 60), true, 0, wfield w 31 0⟩

/-- The checks of a chain word at the push. -/
def chainWordFaults (q : Queue) (hs : Vector Handle 16) (w : Word) (p : Perms) : List PushFault :=
  let d := chainDesc w
  let h := hs.get d.h.toFin
  let ill := pushFault q cILLEGAL 2
  if wfield w 59 32 != 0 || d.off % 64 != 0 || d.h == 0 then [ill]
  else if !h.v then [pushFault q cHANDLE_INVALID 2]
  else faultIf (p.rd && !h.rd || p.wr && !h.wr || decide (h.bytes d.h < d.off + 64)) ill

/-- A page header from its 64 bytes (R238). -/
def pageOf (frame : Nat) (bs : List Byte) : Page :=
  let w := (splitEvery 8 8 bs).map leNat
  let f (i hi lo : Nat) : Nat := field (w.getD i 0) hi lo
  { frame := frame, nxt := f 0 31 0, beam := f 0 39 32, pos0 := f 1 63 32, cnt := f 1 26 22, isSealed := f 1 21 21 == 1,
    tag := f 1 19 16, vsc := BitVec.ofNat 32 (f 2 63 32), ksc := BitVec.ofNat 32 (f 2 31 0), sidx := f 3 31 0,
    poff := (List.range 16).map fun t => f (4 + t / 4) (16 * (t % 4) + 15) (16 * (t % 4)), kv := [], scores := [] }

/-- The 64 bytes of a header. -/
def Page.bytes (g : Page) : List Byte :=
  leBytes 8 (g.beam % 2 ^ 8 * 2 ^ 32 + g.nxt % 2 ^ 32) ++
    leBytes 8 (g.pos0 % 2 ^ 32 * 2 ^ 32 + g.cnt % 2 ^ 5 * 2 ^ 22 + bit g.isSealed * 2 ^ 21 + g.tag % 2 ^ 4 * 2 ^ 16) ++
    leBytes 8 (g.vsc.toNat * 2 ^ 32 + g.ksc.toNat) ++ leBytes 8 (g.sidx % 2 ^ 32) ++
    (List.range 16).flatMap fun t => leBytes 2 (g.poff.getD t 0 % 2 ^ 16)

/-- Slots that hold tokens: those at or above CNT are masked. -/
def Page.live (g : Page) : List Nat := List.range (min g.cnt 16)

/-- The position of a token. -/
def Page.pos (g : Page) (t : Nat) : Nat := g.pos0 + g.poff.getD t 0

/-- A chain record from its words. -/
def chainOf (addr : Nat) (ws : List Word) (hs : Vector Handle 16) : Chain :=
  let w (i : Nat) : Word := ws.getD i 0
  { addr := addr, head := wfield (w 0) 31 0, tail := wfield (w 0) 63 32, npos := wfield (w 1) 63 32,
    npg := wfield (w 1) 31 16, owner := wfield (w 1) 15 8, dq := wfield (w 1) 3 0, fcnt := wfield (w 2) 63 32,
    live := wfield (w 2) 31 0, fs := w 3, pool := w 4, sc := w 5, bt := w 6, fcap := wfield (w 7) 37 6,
    fmt := wfield (w 7) 5 0, hs := hs }

/-- The words of a chain record that commands change. -/
def Chain.bytes (c : Chain) : List Byte :=
  leBytes 8 (c.tail % 2 ^ 32 * 2 ^ 32 + c.head % 2 ^ 32) ++
    leBytes 8 (c.npos % 2 ^ 32 * 2 ^ 32 + c.npg % 2 ^ 16 * 2 ^ 16 + c.owner % 2 ^ 8 * 2 ^ 8 + c.dq % 2 ^ 4) ++
    leBytes 8 (c.fcnt % 2 ^ 32 * 2 ^ 32 + c.live % 2 ^ 32)

/-! Faults (R256): the record names the chain record and the frame (R330). -/

/-- The address of a command's chain record. -/
def Run.chainAddr (r : Run) : Nat := r.e.addr (chainDesc r.e.r.w2) 0

def State.kvFault (s : State) (r : Run) (cause : BitVec 8) (frame : Nat) : State := s.runFault r cause r.chainAddr frame

/-- What a command needs of its chain record. -/
structure ChainUse where
  owned : Bool
  fs : Perms
  pool : Perms
  sc : Perms
  beam : Bool
  npg : Option Nat
  deriving DecidableEq, Repr

/-- The faults of a descriptor of a chain record: its cause, ADDR and DETAIL (DEDUCED, log entry 75). -/
def descFaults (r : Run) (hs : Vector Handle 16) (w : Word) (pitched : Bool) (bytes align : Nat) (p : Perms) :
    List (BitVec 8 × Nat × Nat) :=
  let d := descOf w
  let ill := (cILLEGAL, r.chainAddr, frameNone)
  (if !d.loc || !pitched && d.pitch != 0 then [ill] else []) ++
    (arrayFaults .qk hs w 0 1 bytes align p).map fun f =>
      if f.cause = cHANDLE_INVALID then
        (cHANDLE_INVALID, (hs.get d.h.toFin).vpage.toNat * 2 ^ 12, d.h.toNat)
      else ill

/-- The outcomes of the check of a chain record (R237, R239) (DEDUCED, log entry 74). -/
def State.chainFaults (s : State) (r : Run) (c : Chain) (ws : List Word) (u : ChainUse) : List (BitVec 8 × Nat × Nat) :=
  let ill := (cILLEGAL, r.chainAddr, frameNone)
  let when_ (b : Bool) (f : BitVec 8 × Nat × Nat) : List (BitVec 8 × Nat × Nat) := if b then [f] else []
  let base := c.at_ c.pool 0
  when_ (wfield (ws.getD 1 0) 7 4 != 0 || wfield (ws.getD 7 0) 63 38 != 0) ill ++
    descFaults r c.hs c.fs false (4 * c.fcap) 4 u.fs ++
    descFaults r c.hs c.pool true 0 1 u.pool ++
    descFaults r c.hs c.sc false 0 4 u.sc ++
    (if (descOf c.bt).en then descFaults r c.hs c.bt false 512 8 permR else when_ (c.bt != 0 || u.beam) ill) ++
    when_ ((descOf c.pool).pitch != c.pstr) ill ++
    when_ (!(s.poolMap s.core.part).any fun q => q.ps == base && q.stride == (descOf c.pool).pitch) ill ++
    when_ (u.owned && c.owner != s.core.lcore) ill ++
    when_ (match u.npg with | some n => n != c.npg | none => false) ill ++
    when_ (c.fmt != 0x0C) (cFORMAT, r.chainAddr, frameNone)

/-! Reads (R240). -/

/-- The reads of a cycle: headers are always resident, and other lines as for any command. A fault names the chain record and the frame. -/
def State.kvBeat (s : State) (r : Run) (frame : Nat) (sps : List Span) (k : State → State) : State :=
  s.readLines r (r.chainAddr, frame) (sps.flatMap fun sp =>
    if sp.loc then ((spanLines [sp]).filter fun a => !s.headerLine a).map fun a => ⟨true, a, 128⟩ else [sp]) false true k

/-- Read the chain record and check it. -/
def State.openChain (s : State) (r : Run) (u : ChainUse) (k : State → Chain → State) : State :=
  let sp : Span := ⟨true, r.chainAddr, 64⟩
  s.kvBeat r frameNone [sp] fun s =>
    let x := s.fetch r sp s.dcc none
    let ws := (splitEvery 8 8 x.1).map leWord
    let c := chainOf r.chainAddr ws s.core.arch.h
    match s.chainFaults r c ws u with
    | [] => k x.2 c
    | fs => fs.foldl (fun (t : State) f => t.runFault r f.1 f.2.1 f.2.2) x.2

/-- Read a page's header. -/
def State.header (s : State) (r : Run) (c : Chain) (p : Nat) (k : State → Page → State) : State :=
  if c.inPool p then
    let sp := c.span c.pool (c.frameOff p) 64
    s.kvBeat r p [sp] fun s =>
      let x := s.fetch r sp s.dcc none
      k x.2 (pageOf p x.1)
  else s.kvFault r cILLEGAL p

/-- Read the header of the next page of a walk (R240). -/
def State.nextPage (s : State) (r : Run) (c : Chain) (k : State → Page → State) : State :=
  let p := match r.pages.getLast? with
    | some g => g.nxt
    | none => c.head
  if p = frameNone then s.kvFault r cILLEGAL frameNone else s.header r c p k

/-- Read a page's score block. -/
def State.scoreBlock (s : State) (r : Run) (c : Chain) (g : Page) (k : State → List Word32 → State) : State :=
  if c.fits c.sc (g.sidx * 64) 64 then
    let sp := c.span c.sc (g.sidx * 64) 64
    s.kvBeat r g.frame [sp] fun s =>
      let x := s.fetch r sp s.dcc none
      k x.2 ((splitEvery 4 16 x.1).map fun b => BitVec.ofNat 32 (leNat b))
  else s.kvFault r cILLEGAL g.frame

/-- Read a page's codes; the Yarder need hold its lines no longer (R244). -/
def State.pageCodes (s : State) (r : Run) (c : Chain) (p : Nat) (k : State → List Byte → State) : State :=
  let sp := c.codes p
  s.kvBeat r p [sp] fun s =>
    let x := s.fetch r sp s.dcc none
    k (sp.lines.foldl (fun (t : State) a => t.useLine a fun l => { l with yarder := [] }) x.2) x.1

/-- Pop a frame from the free stack (R242) (DEDUCED, log entry 78). -/
def State.popFrame (s : State) (r : Run) (c : Chain) (k : State → Chain → Nat → State) : State :=
  if c.fcnt = 0 then s.kvFault r cKV_FREE_EMPTY frameNone
  else if c.fits c.fs (4 * (c.fcnt - 1)) 4 then
    let sp := c.span c.fs (4 * (c.fcnt - 1)) 4
    s.kvBeat r frameNone [sp] fun s =>
      let x := s.fetch r sp s.dcc none
      let p := leNat x.1
      if c.inPool p && c.fits c.sc (64 * p) 64 then k x.2 { c with fcnt := c.fcnt - 1 } p else x.2.kvFault r cILLEGAL p
  else s.kvFault r cILLEGAL frameNone

/-- The free-stack count in the record in memory. -/
def Chain.fcntBytes (c : Chain) : Nat × List Byte := (c.addr + 20, leBytes 4 c.fcnt)

/-- Cycles since the start, less the cycles waited. -/
def Run.offset (r : Run) (t : Nat) : Nat := t - (r.s + r.slip)

/-- D of a command's chain record as it stands now. -/
def State.dimNow (s : State) (e : QEntry) : Nat := 16 * (s.peekDesc e (chainDesc e.r.w2) 8 1 % 16 + 1)

def permNone : Perms := ⟨false, false, false⟩

/-! KAPPEND (R241 to R243). -/

structure Append where
  rm : Rm
  beam : Nat
  tag : Nat
  hr : Nat
  sf : Nat
  nt : Nat
  kd : Desc
  vd : Desc
  sqs : Bool
  deriving DecidableEq, Repr

def appendOf (r : CmdRec) : Append :=
  { rm := rmOf (wfield r.w1 58 56), beam := wfield r.w1 55 48, tag := wfield r.w1 47 44, hr := wfield r.w1 43 40,
    sf := wfield r.w1 39 34, nt := wfield r.w1 5 0 + 1, kd := descOf r.w3, vd := descOf r.w4, sqs := r.w0.getLsbD 23 }

/-- The checks of a local-store array whose row length the push does not know. -/
def shapeFaults (q : Queue) (w : Word) (i rows align : Nat) : List PushFault :=
  let d := descOf w
  faultIf (wfield w 57 48 != 0 || d.loc || d.h != 0 || d.off % align != 0 || decide (1 < rows) && d.pitch % align != 0)
    (pushFault q cILLEGAL i)

def kappendFaults (q : Queue) (hs : Vector Handle 16) (r : CmdRec) : List PushFault :=
  let a := appendOf r
  reservedFaults q r [maskOcScope + maskOf 22 16, maskOf 63 59 + maskOf 33 6, 0, 0, 0, allBits, allBits, allBits] ++
    faultIf (rmReserved (wfield r.w1 58 56) || tagReserved a.sf) (pushFault q cILLEGAL 1) ++
    chainWordFaults q hs r.w2 permRW ++ shapeFaults q r.w3 3 a.nt (elemBytes a.sf) ++
    shapeFaults q r.w4 4 a.nt (elemBytes a.sf) ++
    faultIf (a.sf != tagFP32 && a.sf != tagBF16 && a.sf != tagFP16) (pushFault q cFORMAT 1)

def State.kappendSpec (s : State) (e : QEntry) : StartSpec :=
  let a := appendOf e.r
  let row := s.dimNow e * elemBytes a.sf
  { StartSpec.plain with
    engine := true
    tags := if a.sqs then [⟨slotsOf a.kd 0 a.nt row ++ slotsOf a.vd 0 a.nt row, a.sf⟩] else [] }

def kappendGo (r : Run) (s : State) : State := (s.setRun r).engineFree r.q (r.s + 8 * (appendOf r.e.r).nt)

def kappendReadDue (r : Run) (t : Nat) : Bool :=
  decide (r.nr < (appendOf r.e.r).nt) && decide (r.s + r.slip ≤ t) && r.offset t == 8 * r.nr

/-- Read the rows of the next token. -/
def State.readToken (s : State) (r : Run) (c : Chain) : State :=
  let a := appendOf r.e.r
  let es := elemBytes a.sf
  let sk := r.e.span a.kd (r.nr * a.kd.pitch) (c.dim * es)
  let sv := r.e.span a.vd (r.nr * a.vd.pitch) (c.dim * es)
  s.readBeat r [sk, sv] false true fun s =>
    let x := s.fetch r sk s.dcc none
    let y := x.2.fetch r sv s.dcc none
    let vals (bs : List Byte) : List Nat := (codesOf (8 * es) 0 c.dim bs).map (widen a.sf)
    y.2.setRun { r with nr := r.nr + 1, capA := r.capA ++ [vals x.1], capB := r.capB ++ [vals y.1] }

def State.kappendRead (s : State) (r : Run) : State :=
  let a := appendOf r.e.r
  match r.chain with
  | some c => s.readToken r c
  | none =>
    s.openChain r ⟨true, permR, permRW, permRW, false, none⟩ fun s c =>
      let row := c.dim * elemBytes a.sf
      let bad := [r.e.r.w3, r.e.r.w4].any fun w =>
        !(arrayFaults .qk r.e.handles w 0 a.nt row (elemBytes a.sf) permR).isEmpty
      if bad then s.kvFault r cILLEGAL frameNone
      else if c.tail = frameNone then s.readToken { r with chain := some c } c
      else s.header r c c.tail fun s g => s.readToken { r with chain := some c, pages := [g] } c

/-- The largest finite magnitude of a row, 0 if there is none. -/
def maxFinite (xs : List Nat) : Val :=
  xs.foldl (fun m x =>
    let v := (f32 x).abs
    if v.isNan || v.isInf then m else if m.lt v then v else m) (.fin false 0 0)

/-- Pow2Scale of R242, as an FP32 pattern. -/
def pow2Scale (a : Val) (hr : Nat) : Word32 :=
  match a with
  | .fin _ m ex =>
    if m = 0 then 0x3F800000
    else
      let l := Nat.log2 (8 * m)
      let k := if 8 * m ≤ 7 * 2 ^ (l - 2) then l - 2 else l - 1
      let e : Int := k + ex + hr - 9
      BitVec.ofNat 32 ((max (-126) (min 127 e) + 127).toNat * 2 ^ 23)
  | _ => 0x3F800000

/-- Does a magnitude exceed 448 times a scale? -/
def exceeds (a : Val) (sc : Word32) : Bool := (exactMul (.fin false 448 0) (f32 sc.toNat)).v.lt a

/-- A fresh page (R242). -/
def Page.fresh (p pos0 : Nat) (ksc vsc : Word32) (tag beam : Nat) : Page :=
  { frame := p, nxt := frameNone, beam := beam, pos0 := pos0, cnt := 0, isSealed := false, tag := tag, vsc := vsc, ksc := ksc,
    sidx := p, poff := List.replicate 16 0, kv := [], scores := [] }

/-- The codes of a row. -/
def Run.appendCodes (r : Run) (xs : List Nat) (sc : Word32) (addr : Nat) : List Rounded :=
  let a := appendOf r.e.r
  xs.zipIdx.map fun x => (exactDiv (f32 x.1) (f32 sc.toNat)).round .e4m3 a.rm true (r.e.hash (addr + x.2))

/-- Write a token into the page `g`, with what its cycle has written so far. -/
def State.putToken (s : State) (r : Run) (c : Chain) (g : Page) (w : List (Nat × List Byte)) : State :=
  let t := g.cnt
  let d := c.dim
  let base := c.frameOff g.frame + 64
  let ka := c.at_ c.pool (base + t * d)
  let va := c.at_ c.pool (base + 16 * d + t * d)
  let ks := r.appendCodes (r.capA.getD r.nw []) g.ksc ka
  let vs := r.appendCodes (r.capB.getD r.nw []) g.vsc va
  let g := { g with poff := g.poff.set t ((c.npos + 2 ^ 32 - g.pos0) % 2 ^ 16), cnt := t + 1 }
  let c := { c with npos := (c.npos + 1) % 2 ^ 32, live := (c.live + 1) % 2 ^ 32 }
  let m := putAll (w ++ [(ka, ks.map fun x => BitVec.ofNat 8 x.pat), (va, vs.map fun x => BitVec.ofNat 8 x.pat),
    (c.at_ c.pool (c.frameOff g.frame), g.bytes)])
  ((s.writeMem r m).raise ((ks ++ vs).foldl (fun f x => f ||| x.flags) 0)).setRun
    { r with nw := r.nw + 1, chain := some c, pages := [g] }

def State.appendToken (s : State) (r : Run) (c : Chain) : State :=
  let a := appendOf r.e.r
  let ak := maxFinite (r.capA.getD r.nw [])
  let av := maxFinite (r.capB.getD r.nw [])
  let open_ := r.pages.head?.filter fun g =>
    !g.isSealed && decide (g.cnt < 16) && g.tag == a.tag && !exceeds ak g.ksc && !exceeds av g.vsc &&
      decide (c.npos ≤ g.pos0 + 65535)
  match open_ with
  | some g => s.putToken r c g []
  | none =>
    s.popFrame r c fun s c p =>
      let old := r.pages.head?.map fun g => { g with isSealed := true, nxt := p }
      let w := (old.map fun g => (c.at_ c.pool (c.frameOff g.frame), g.bytes)).toList ++
        [(c.at_ c.sc (64 * p), List.replicate 64 0), c.fcntBytes]
      let c := { c with head := if old.isSome then c.head else p, tail := p, npg := (c.npg + 1) % 2 ^ 16 }
      s.putToken r c (Page.fresh p c.npos (pow2Scale ak a.hr) (pow2Scale av a.hr) a.tag a.beam) w

def kappendEarlyDue (r : Run) (t : Nat) : Bool :=
  decide (r.s + r.slip ≤ t) && r.offset t == 48 + 8 * r.nw

def State.kappendWrite (s : State) (r : Run) : State :=
  match r.chain with
  | none => s
  | some c =>
    if r.nw < (appendOf r.e.r).nt then s.appendToken r c
    else (s.writeMem r (putAll [(c.addr, c.bytes)])).finish r

def execKappend (_ : CmdRec) (b : Beat) (s : State) : Out :=
  .next (s.onBeat b (fun q => s.startCommand q s.kappendSpec kappendGo) State.kappendRead State.kappendWrite)

/-! The Yarder (R244). -/

def kchaseFaults (q : Queue) (hs : Vector Handle 16) (r : CmdRec) : List PushFault :=
  let n := wfield r.w1 2 0
  reservedFaults q r [maskOcScope + maskOf 23 16, maskOf 63 3, 0, allBits, allBits, allBits, allBits, allBits] ++
    faultIf (n == 0 || decide (4 < n)) (pushFault q cILLEGAL 1) ++ chainWordFaults q hs r.w2 permR

/-- The Yarder asks for a page's K and V lines: they arrive within 160 cycles of `t`. -/
def State.askPage (s : State) (id : Nat) (c : Chain) (p t : Nat) : State :=
  (c.codes p).lines.foldl (fun (s : State) a =>
    let d := s.delay
    match d.2.runOf id with
    | some r => d.2.setRun { r with flight := r.flight ++ [(t + min 160 (1 + d.1), a)] }
    | none => d.2) s

/-- Lines that the Yarder asked for have come: each is held until a walk reads it, its entry is discarded, or 4,096 cycles pass (R244). A
line whose set has no free way comes in a later cycle. -/
def State.landLines (s : State) (r : Run) : State :=
  let entry := if s.inRegion && decide (s.core.reg.entry < r.id) then s.core.reg.entry else 0
  let due := r.flight.filter fun x => decide (x.1 ≤ s.dcc)
  due.foldl (fun (t : State) x =>
    match t.fillLine x.2, t.runOf r.id with
    | some u, some y =>
      ((u.useLine x.2 fun l => { l with yarder := l.yarder ++ [(entry, s.dcc + 4096)] }).at_ (s.dcc + 4096) (ordLate s.core.phys) s.here
        (.yarderHoldExpiry x.2)).setRun { y with flight := y.flight.filter fun z => z != x }
    | none, some y => t.setRun { y with flight := y.flight.map fun z => if z = x then (s.dcc + 1, x.2) else z }
    | _, none => t) s

/-- DESIGN CHOICE, log entry 77. -/
def landDue (r : Run) (t : Nat) : Bool := r.flight.any fun x => decide (x.1 ≤ t)

/-- The holds of a line that began 4,096 cycles ago end. -/
def execYarderHoldExpiry (line : Nat) (s : State) : Out :=
  .next { s with lines := s.lines.map fun l =>
    if l.addr = lineOf line then { l with yarder := l.yarder.filter fun h => decide (s.dcc < h.2) } else l }

/-- KCHASE frees its engine in the cycle after its start, and for the drain it has then made its last write. -/
def kchaseGo (r : Run) (s : State) : State :=
  ((s.setRun r).engineFree r.q (r.s + 1)).onEng fun e =>
    { e with lastW := Vector.ofFn fun i => if i.val = r.q.code then max s.dcc (e.lastW.get i) else e.lastW.get i }

/-- The chase is over when it has read its last header. -/
def Run.chased (r : Run) : Bool := decide (wfield r.e.r.w1 2 0 ≤ r.nr) || !r.vals.isEmpty

def kchaseReadDue (r : Run) (t : Nat) : Bool :=
  !r.chased && decide (r.s + r.slip ≤ t) && r.offset t == 40 * r.nr

/-- The chase ends without a write. -/
def State.endChase (s : State) (id : Nat) : State :=
  match s.runOf id with
  | some r => if r.chased && r.flight.isEmpty then s.onEng fun e => { e with runs := e.runs.filter fun x => x.id != id } else s
  | none => s

/-- Read the next header, and ask for its page 40 cycles on. A header that cannot be read, or a frame beyond the pool, ends the chase, with
POISON or ILLEGAL while its entry runs. -/
def State.chasePage (s : State) (r : Run) (c : Chain) : State :=
  let p := match r.pages.getLast? with
    | some g => g.nxt
    | none => c.head
  let runs := s.inRegion && decide (s.core.reg.entry < r.id)
  if p = frameNone || !c.inPool p then
    let t := s.setRun { r with chain := some c, vals := [1] }
    if p ≠ frameNone ∧ runs = true then t.kvFault r cILLEGAL p else t.endChase r.id
  else
    let a := c.at_ c.pool (c.frameOff p)
    let x := s.consume a 64 false
    match x.1 with
    | some (w, st) =>
      let t := x.2.setRun { r with chain := some c, vals := [1] }
      if (s.unheld a 64).contains w && runs then
        t.takeTrap (s.cmdRecAt s.dcc cPOISON r.q r.e.r (s.unitOf w) st (BitVec.ofNat 64 w) 0)
      else t.endChase r.id
    | none =>
      let g := pageOf p ((List.range 64).map fun i => if runs then s.engineByte (a + i) else s.peek (a + i))
      (x.2.setRun { r with chain := some c, nr := r.nr + 1, pages := r.pages ++ [g] }).askPage r.id c p (s.dcc + 40)

def State.kchaseRead (s : State) (r : Run) : State :=
  match r.chain with
  | some c => s.chasePage r c
  | none => s.openChain r ⟨false, permR, permR, permR, false, none⟩ fun s c => s.chasePage r c

def kchaseEarlyDue (r : Run) (t : Nat) : Bool := landDue r t

def State.kchaseWrite (s : State) (r : Run) : State := (s.landLines r).endChase r.id

def execKchase (_ : CmdRec) (b : Beat) (s : State) : Out :=
  .next (s.onBeat b (fun q => s.startCommand q (fun _ => { StartSpec.plain with engine := true }) kchaseGo)
    State.kchaseRead State.kchaseWrite)

/-! ATTN (R245 to R250, R254). -/

structure Attn where
  sqs : Bool
  tagw : Bool
  score : Bool
  chase : Bool
  beamf : Bool
  tagmask : Nat
  win : Nat
  np : Nat
  qr : Nat
  ofmt : Nat
  qfmt : Nat
  qd : Desc
  od : Desc
  ld : Desc
  ssc : Nat
  xd : Desc
  deriving DecidableEq, Repr

def attnOf (r : CmdRec) : Attn :=
  { sqs := r.w0.getLsbD 23, tagw := r.w0.getLsbD 22, score := r.w0.getLsbD 21, chase := r.w0.getLsbD 20,
    beamf := r.w0.getLsbD 19, tagmask := wfield r.w1 63 48, win := wfield r.w1 47 32, np := wfield r.w1 31 16,
    qr := wfield r.w1 15 12 + 1, ofmt := wfield r.w1 11 6, qfmt := wfield r.w1 5 0, qd := descOf r.w3, od := descOf r.w4,
    ld := descOf r.w5, ssc := wfield r.w6 31 0, xd := descOf r.w7 }

def attnFaults (q : Queue) (hs : Vector Handle 16) (r : CmdRec) : List PushFault :=
  let a := attnOf r
  let listed (t : Nat) : Bool := t == tagFP32 || t == tagBF16
  let ssc := f32 a.ssc
  reservedFaults q r [maskOcScope + maskOf 18 16, 0, 0, 0, 0, 0, maskOf 63 32, 0] ++
    faultIf (tagReserved a.ofmt || tagReserved a.qfmt) (pushFault q cILLEGAL 1) ++
    chainWordFaults q hs r.w2 permR ++
    shapeFaults q r.w3 3 a.qr (elemBytes a.qfmt) ++
    arrayFaults q hs r.w4 4 1 0 (elemBytes a.ofmt) permW ++
    faultIf (decide (1 < a.qr) && a.od.pitch % elemBytes a.ofmt != 0 || a.tagw && a.od.loc) (pushFault q cILLEGAL 4) ++
    arrayFaults q hs r.w5 5 a.qr 8 8 permW ++ faultIf (a.ld.pitch != 8) (pushFault q cILLEGAL 5) ++
    faultIf (ssc.isNan || ssc.isInf) (pushFault q cILLEGAL 6) ++
    arrayFaults q hs r.w7 7 a.qr 8 8 permR ++ faultIf (a.xd.pitch != 8 || a.xd.loc) (pushFault q cILLEGAL 7) ++
    faultIf (!listed a.ofmt || !listed a.qfmt) (pushFault q cFORMAT 1)

def Run.attn (r : Run) : Attn := attnOf r.e.r

/-- D as the command took it at its start. -/
def Run.dim (r : Run) : Nat := r.vals.headD 16

def attnTi (qr d : Nat) : Nat := 40 * ceilDiv (qr * d) 2048

def Run.ti (r : Run) : Nat := attnTi r.attn.qr r.dim

/-- Cycles from the start to Mdone. -/
def Run.mdone (r : Run) : Nat := 120 + r.ti * (r.attn.np - 1)

/-- Rows of D elements that fail R200, which only the start can tell. -/
def rowsBad (e : QEntry) (w : Word) (rows row : Nat) : Bool :=
  let d := descOf w
  decide (1 < rows) && decide (d.pitch < row) || decide ((e.hnd d).bytes d.h < d.off + (rows - 1) * d.pitch + row)

/-- DEDUCED, log entry 76. -/
def State.attnSpec (s : State) (q : Queue) (e : QEntry) : StartSpec :=
  let a := attnOf e.r
  let d := s.dimNow e
  let bad := rowsBad e e.r.w3 a.qr (d * elemBytes a.qfmt) || rowsBad e e.r.w4 a.qr (d * elemBytes a.ofmt)
  { StartSpec.plain with
    engine := true
    tags := if a.sqs then [⟨slotsOf a.qd 0 a.qr (d * elemBytes a.qfmt), a.qfmt⟩] else []
    faults := if bad then [s.cmdRecAt s.dcc cILLEGAL q e.r 0 false
      (BitVec.ofNat 64 (e.addr (chainDesc e.r.w2) 0)) (BitVec.ofNat 64 frameNone)] else [] }

def State.attnGo (r : Run) (s : State) : State :=
  let r := { r with vals := [s.dimNow r.e] }
  (s.setRun r).engineFree r.q (r.s + r.mdone + r.attn.qr + if r.attn.score then 40 + 4 * r.attn.np else 0)

/-- The page whose header is due at offset `o`, and the page that is issued. -/
def Run.headerAt (r : Run) (o : Nat) : Bool := decide (8 ≤ o) && (o - 8) % r.ti == 0 && decide ((o - 8) / r.ti < r.attn.np)
def Run.issueAt (r : Run) (o : Nat) : Bool := decide (24 ≤ o) && (o - 24) % r.ti == 0 && decide ((o - 24) / r.ti < r.attn.np)

def attnReadDue (r : Run) (t : Nat) : Bool :=
  decide (r.s + r.slip ≤ t) &&
    (let o := r.offset t
     decide (o < r.attn.qr) || o == 8 || r.headerAt o || r.issueAt o)

/-- Read a query row and its AUXDESC entry. -/
def State.readQuery (s : State) (r : Run) (i : Nat) (k : State → Run → State) : State :=
  let a := r.attn
  let es := elemBytes a.qfmt
  let sq := r.e.span a.qd (i * a.qd.pitch) (r.dim * es)
  let sx := r.e.span a.xd (8 * i) 8
  s.readBeat r [sq, sx] false true fun s =>
    let x := s.fetch r sq s.dcc none
    let y := x.2.fetch r sx s.dcc none
    k y.2 { r with capA := r.capA ++ [codesOf (8 * es) 0 r.dim x.1],
                   capX := r.capX ++ [[field (leNat y.1) 31 0, field (leNat y.1) 39 32]] }

/-- The line of a beam back to its root: each beam with the position below which it counts; none if the walk is invalid
(R254). -/
def beamWalk (tab : List Nat) : Nat → Nat → Nat → Option (List (Nat × Nat))
  | 0, _, _ => none
  | n + 1, b, l =>
    let e := tab.getD b 0
    if b < 64 ∧ field e 40 40 = 1 then
      if field e 39 32 = 0xFF then some [(b, l)]
      else (beamWalk tab n (field e 39 32) (min l (field e 31 0))).map fun x => (b, l) :: x
    else none

/-- The ancestry of a row: empty for QBEAM 0xFF. -/
def Run.ancestry (r : Run) (i : Nat) : Option (List (Nat × Nat)) :=
  let b := (r.capX.getD i []).getD 1 0
  if b = 0xFF then some [] else beamWalk (r.vals.drop 1) 64 b (2 ^ 32)

/-- The chain record is read at S + 8, and with it the beam table. Query rows that were read with another D are open. -/
def State.attnOpen (s : State) (r : Run) (k : State → Run → Chain → State) : State :=
  let a := r.attn
  s.openChain r ⟨false, permR, permR, if a.score then ⟨true, true, true⟩ else permR, a.beamf, none⟩ fun s c =>
    let es := elemBytes a.qfmt
    let x := if c.dim = r.dim then (r.capA, s)
      else
        let b := s.freeBytes (r.capA.length * c.dim * es)
        ((splitEvery (c.dim * es) r.capA.length b.1).map fun l => codesOf (8 * es) 0 c.dim l, b.2)
    let r := { r with chain := some c, capA := x.1 }
    if a.beamf then
      let sp := c.span c.bt 0 512
      x.2.kvBeat r frameNone [sp] fun s =>
        let y := s.fetch r sp s.dcc none
        k y.2 { r with vals := r.vals ++ (splitEvery 8 64 y.1).map leNat } c
    else k x.2 r c

/-- Frames of a chain from a given one, as the links stand. -/
def State.chainFrames (s : State) (c : Chain) : Nat → Nat → List Nat
  | 0, _ => []
  | n + 1, p =>
    if p = frameNone || !c.inPool p then []
    else p :: State.chainFrames s c n (leNat ((List.range 4).map fun i => s.engineByte (c.at_ c.pool (c.frameOff p) + i)))

/-- A page is issued to its ADU: its codes are read, and with CHASE the Yarder asks for the page four further on. -/
def State.issuePage (s : State) (r : Run) (c : Chain) (k : Nat) : State :=
  let g := r.pages.getD k (Page.fresh 0 0 0 0 0 0)
  s.pageCodes r c g.frame fun s bs =>
    let s := s.setRun { r with pages := r.pages.set k { g with kv := bs } }
    if r.attn.chase && decide (k + 4 < r.attn.np) then
      match (s.chainFrames c 4 g.nxt)[3]? with
      | some p => s.askPage r.id c p s.dcc
      | none => s
    else s

def State.attnRead (s : State) (r : Run) : State :=
  let o := r.offset s.dcc
  let a := r.attn
  let rest (s : State) (r : Run) (c : Chain) : State :=
    if a.beamf && (List.range r.capX.length).any fun i => (r.ancestry i).isNone then s.kvFault r cILLEGAL frameNone
    else if r.headerAt o then s.nextPage r c fun s g => s.setRun { r with pages := r.pages ++ [g] }
    else if r.issueAt o then s.issuePage r c ((o - 24) / r.ti)
    else s.setRun r
  let more (s : State) (r : Run) : State :=
    match r.chain with
    | some c => rest s r c
    | none => if o = 8 then s.attnOpen r rest else s.setRun r
  if o < a.qr then s.readQuery r o more else more s r

/-! What the ADUs and the return network compute (R247 to R249), on FP32 patterns. -/

structure Tri where
  m : Nat
  l : Nat
  acc : List Nat
  deriving DecidableEq, Repr

def negInf32 : Nat := 0xFF800000

def Tri.zero (d : Nat) : Tri := ⟨negInf32, 0, List.replicate d 0⟩

def sub32 (a b : Nat) : Nat := (fpSub a b .rne false 0).pat
def mulP (a b : Nat) : Nat := (fpMul a b .rne false 0).pat
def fmaP (a b c : Nat) : Nat := (fpFma a b c .rne false 0).pat
def exp2P (x : Nat) : Nat := (exp2Def x false).pat
def maxP (a b : Nat) : Nat := (fminmax true a b).pat

/-- Is a token visible to a row (R246)? -/
def Run.visible (r : Run) (g : Page) (t i : Nat) : Bool :=
  let a := r.attn
  let p := g.pos t
  let qpos := (r.capX.getD i []).getD 0 0
  decide (a.tagmask / 2 ^ g.tag % 2 = 1) && decide (p ≤ qpos) && (a.win == 0 || decide (qpos < p + a.win)) &&
    (!a.beamf || g.beam == 0xFF || ((r.ancestry i).getD []).any fun x => x.1 == g.beam && decide (p < x.2))

/-- The score of a token. -/
def Run.score (r : Run) (d : Nat) (g : Page) (t i : Nat) : Rounded :=
  let q := (r.capA.getD i []).map (codeVal r.attn.qfmt)
  let k := ((g.kv.drop (t * d)).take d).map fun b => valOf .e4m3 b.toNat
  (scaled (chunkSum (q.zip k)) (f32 g.ksc.toNat) (f32 r.attn.ssc)).round .fp32 .rne false 0

/-- One token into a triple. -/
def Tri.step (x : Tri) (s : Nat) (vs : List Nat) : Tri :=
  let mn := maxP x.m s
  let a := exp2P (sub32 x.m mn)
  let b := exp2P (sub32 s mn)
  ⟨mn, fmaP x.l a b, (x.acc.zip vs).map fun v => fmaP v.1 a (mulP b v.2)⟩

/-- What a row has gathered: a triple for each slice, the flags, and whether it is invalid. -/
structure RowAcc where
  tris : List (Nat × Tri)
  flags : Flags
  bad : Bool
  deriving DecidableEq, Repr

def RowAcc.token (x : RowAcc) (r : Run) (d home : Nat) (g : Page) (t i : Nat) : RowAcc :=
  if r.visible g t i then
    let s := r.score d g t i
    let v := f32 s.pat
    if v.isNan || v.isInf then { x with flags := x.flags ||| s.flags ||| flagNV, bad := true }
    else
      let vs := ((g.kv.drop ((16 + t) * d)).take d).map fun b =>
        ((exactMul (valOf .e4m3 b.toNat) (f32 g.vsc.toNat)).round .fp32 .rne false 0).pat
      let old := ((x.tris.find? fun e => e.1 == home).map (·.2)).getD (Tri.zero d)
      { x with flags := x.flags ||| s.flags, tris := SMap.put home (old.step s.pat vs) x.tris }
  else x

/-- A finished row: its output codes, LSE, FMASK, its flags, and whether it is invalid. -/
structure RowOut where
  out : List Nat
  lse : Nat
  fmask : Bool
  flags : Flags
  bad : Bool
  deriving DecidableEq, Repr

/-- The return network merges the triples in ascending slice number (R248). -/
def mergeTris (d : Nat) (ts : List Tri) : Tri :=
  ts.foldl (fun (x : Tri) z =>
    if z.m = negInf32 then x
    else
      let mn := maxP x.m z.m
      let a := exp2P (sub32 x.m mn)
      let b := exp2P (sub32 z.m mn)
      ⟨mn, fmaP x.l a (mulP z.l b), (x.acc.zip z.acc).map fun v => fmaP v.1 a (mulP v.2 b)⟩) (Tri.zero d)

def Run.rowOut (r : Run) (c : Chain) (home : Page → Nat) (i : Nat) : RowOut :=
  let d := c.dim
  let x := r.pages.foldl (fun x g => g.live.foldl (fun (x : RowAcc) t => x.token r d (home g) g t i) x) ⟨[], 0, false⟩
  let y := mergeTris d (x.tris.map (·.2))
  let f := (ffmtOf r.attn.ofmt).getD .fp32
  if x.bad then ⟨List.replicate d (f.nanPat.getD 0), 0x7FC00000, false, x.flags, true⟩
  else if y.m = negInf32 then ⟨List.replicate d 0, negInf32, true, x.flags, false⟩
  else
    let os := y.acc.map fun o => (exactDiv (f32 o) (f32 y.l)).round f .rne false 0
    let e := fpAdd y.m (log2Def y.l false).pat .rne false 0
    ⟨os.map (·.pat), e.pat, false, os.foldl (fun f o => f ||| o.flags) (x.flags ||| e.flags), false⟩

def State.homeOf (s : State) (c : Chain) (g : Page) : Nat := s.homeSlice (c.at_ c.pool (c.frameOff g.frame))

def landOffset (d : Desc) : Nat := if d.loc then 24 else 4

/-- The row whose results an array takes at offset `o`. -/
def Run.rowAt (r : Run) (d : Desc) (o : Nat) : Option Nat :=
  let lo := r.mdone + landOffset d
  if lo ≤ o ∧ o < lo + r.attn.qr then some (o - lo) else none

/-- The page whose score combines are held at offset `o`. -/
def Run.scoreAt (r : Run) (o : Nat) : Option Nat :=
  let lo := r.mdone + 40
  if r.attn.score ∧ lo ≤ o ∧ (o - lo) % 4 = 0 ∧ (o - lo) / 4 < r.attn.np then some ((o - lo) / 4) else none

def Run.rowDue (r : Run) (loc : Bool) (o : Nat) : Bool :=
  r.attn.od.loc == loc && (r.rowAt r.attn.od o).isSome || r.attn.ld.loc == loc && (r.rowAt r.attn.ld o).isSome

def attnEarlyDue (r : Run) (t : Nat) : Bool :=
  landDue r t || decide (r.s + r.slip ≤ t) && (r.rowDue true (r.offset t) || (r.scoreAt (r.offset t)).isSome)

def attnLateDue (r : Run) (t : Nat) : Bool := decide (r.s + r.slip ≤ t) && r.rowDue false (r.offset t)

/-- The offset of the last write. -/
def Run.attnLast (r : Run) : Nat :=
  let a := r.attn
  let rows := r.mdone + max (landOffset a.od) (landOffset a.ld) + a.qr - 1
  if a.score && decide (0 < a.np) then max rows (r.mdone + 36 + 4 * a.np) else rows

/-- Write an output row. -/
def State.writeOut (s : State) (r : Run) (c : Chain) (i : Nat) : State :=
  let a := r.attn
  let x := r.rowOut c (s.homeOf c) i
  let es := elemBytes a.ofmt
  (s.writeTo r a.od.loc (putAll [(r.e.addr a.od (i * a.od.pitch), x.out.flatMap (leBytes es))])).raise x.flags

/-- Write an LDESC entry, and keep LSE for the weights. -/
def State.writeLse (s : State) (r : Run) (c : Chain) (i : Nat) : State :=
  let a := r.attn
  let x := r.rowOut c (s.homeOf c) i
  let t := s.writeTo r a.ld.loc (putAll [(r.e.addr a.ld (8 * i), leBytes 8 (x.lse + bit x.fmask * 2 ^ 32))])
  match t.runOf r.id with
  | some y => t.setRun { y with res := y.res ++ [(BitVec.ofNat 32 x.lse, if x.bad || x.fmask then 1 else 0)] }
  | none => t

/-- The weight of a token over the rows that see it; none if no row does (R249). -/
def Run.weight (r : Run) (d : Nat) (g : Page) (t : Nat) : Option Nat :=
  let rows := (List.range r.attn.qr).filter fun i => r.visible g t i && (r.res.getD i (0, 1)).2 == 0
  if rows.isEmpty then none
  else
    let ps := rows.map fun i => exp2P (sub32 (r.score d g t i).pat (r.res.getD i (0, 1)).1.toNat)
    some ((ps.foldl (fun c p => c.addVal (f32 p)) Chunk.zero).result.round .fp32 .rne false 0).pat

/-- The score additions of a page are held as combines. -/
def State.holdScores (s : State) (r : Run) (c : Chain) (k : Nat) : State :=
  let g := r.pages.getD k (Page.fresh 0 0 0 0 0 0)
  g.live.foldl (fun (s : State) t =>
    match r.weight c.dim g t with
    | none => s
    | some v =>
      let o := g.sidx * 64 + 4 * t
      if c.fits c.sc o 4 then
        s.combine r true (c.at_ c.sc o) 4
          (.elem .add (BitVec.ofNat 6 tagFP32) .rne false false (BitVec.ofNat 32 v) r.e.seed r.e.steptag)
      else s.kvFault r cILLEGAL g.frame) s

def State.attnWrite (s : State) (r : Run) : State :=
  let a := r.attn
  let o := r.offset s.dcc
  let mem := s.early
  let onTime := decide (r.s + r.slip ≤ s.dcc)
  let s := if mem then s.landLines r else s
  match r.chain, s.runOf r.id with
  | some c, some r =>
    if onTime then
      let row (s : State) (d : Desc) (f : State → Nat → State) : State :=
        if d.loc = mem then
          match r.rowAt d o with
          | some i => f s i
          | none => s
        else s
      let s := row s a.od fun s i => s.writeOut r c i
      let s := row s a.ld fun s i => s.writeLse r c i
      let s := match if mem then r.scoreAt o else none with
        | some k => s.holdScores r c k
        | none => s
      let lastMem := a.od.loc || a.ld.loc || a.score && decide (0 < a.np)
      if o = r.attnLast ∧ lastMem = mem then
        s.lastWrite r a.tagw (slotsOf a.od 0 a.qr (c.dim * elemBytes a.ofmt)) a.ofmt
      else s
    else s
  | _, _ => s

def execAttn (_ : CmdRec) (b : Beat) (s : State) : Out :=
  .next (s.onBeat b (fun q => s.startCommand q (s.attnSpec q) State.attnGo) State.attnRead State.attnWrite)

/-! RSPAN (R251). -/

def rspanFaults (q : Queue) (hs : Vector Handle 16) (r : CmdRec) : List PushFault :=
  reservedFaults q r [maskOcScope + maskOf 23 0, maskOf 62 52 + maskOf 47 16, 0, allBits, allBits, allBits, allBits,
    allBits] ++ chainWordFaults q hs r.w2 permRW

/-- NP of RSPAN, KTOPK and KCOMPACT. -/
def Run.np (r : Run) : Nat := wfield r.e.r.w1 15 0

/-- RSPAN and KTOPK read header k in S + 24 + 8k, after the chain record in S. -/
def walkReadDue (r : Run) (t : Nat) : Bool :=
  decide (r.s + r.slip ≤ t) &&
    (if r.chain.isNone then r.offset t == 0 else decide (r.nr < r.np) && r.offset t == 24 + 8 * r.nr)

def rspanGo (r : Run) (s : State) : State := (s.setRun r).engineFree r.q (r.s + 32 + 8 * r.np)

def State.rspanRead (s : State) (r : Run) : State :=
  match r.chain with
  | none => s.openChain r ⟨true, permRW, permRW, permR, false, some r.np⟩ fun s c => s.setRun { r with chain := some c }
  | some c =>
    s.nextPage r c fun s g =>
      if r.nr + 1 = r.np ∧ (g.frame ≠ c.tail ∨ g.nxt ≠ frameNone) then s.kvFault r cILLEGAL g.frame
      else s.setRun { r with nr := r.nr + 1, pages := r.pages ++ [g] }

def rspanEarlyDue (r : Run) (t : Nat) : Bool := decide (r.s + r.slip ≤ t) && r.offset t == 32 + 8 * r.np

/-- The chain while pages are unlinked: the pages kept, the last one latest first, those among them that changed, and the
frame that would not fit on the free stack. -/
structure Unlink where
  c : Chain
  kept : List Page
  changed : List Nat
  pushed : List (Nat × List Byte)
  full : Option Nat
  deriving DecidableEq, Repr

/-- Push a frame onto the free stack. -/
def Unlink.push (u : Unlink) (p : Nat) : Unlink :=
  if u.c.fcnt = u.c.fcap || !u.c.fits u.c.fs (4 * u.c.fcnt) 4 then { u with full := u.full.or (some p) }
  else { u with pushed := u.pushed ++ [(u.c.at_ u.c.fs (4 * u.c.fcnt), leBytes 4 p)], c := { u.c with fcnt := u.c.fcnt + 1 } }

/-- One page of R251's procedure. -/
def Unlink.page (tag : Nat) (u : Unlink) (g : Page) : Unlink :=
  if g.tag = tag then
    let last := g.frame == u.c.tail
    let u := match u.kept with
      | [] => { u with c := { u.c with head := g.nxt, tail := if last then frameNone else u.c.tail } }
      | k :: rest =>
        { u with kept := { k with nxt := g.nxt } :: rest, changed := k.frame :: u.changed,
                 c := { u.c with tail := if last then k.frame else u.c.tail } }
    { (u.push g.frame) with
      c := { (u.push g.frame).c with npg := (u.c.npg + 2 ^ 16 - 1) % 2 ^ 16, live := (u.c.live + 2 ^ 32 - g.cnt) % 2 ^ 32 } }
  else { u with kept := g :: u.kept }

/-- RSPAN.C numbers on from the last live token. -/
def Unlink.renumber (u : Unlink) : Chain :=
  let ps := u.kept.flatMap fun g => g.live.map g.pos
  { u.c with npos := if 0 < u.c.live then (ps.foldl (fun m p => max m (p + 1)) 0) % 2 ^ 32 else 0 }

def State.rspanWrite (compact : Bool) (s : State) (r : Run) : State :=
  match r.chain with
  | none => s
  | some c =>
    let u := r.pages.foldl (Unlink.page (wfield r.e.r.w1 51 48)) ⟨c, [], [], [], none⟩
    match u.full with
    | some p => s.kvFault r cILLEGAL p
    | none =>
      let c := if compact then u.renumber else u.c
      let hs := (u.kept.filter fun g => u.changed.contains g.frame).map fun g =>
        (c.at_ c.pool (c.frameOff g.frame), g.bytes)
      (s.writeMem r (putAll (hs ++ u.pushed ++ [(c.addr, c.bytes)]))).finish r

def execRspanK (_ : CmdRec) (b : Beat) (s : State) : Out :=
  .next (s.onBeat b (fun q => s.startCommand q (fun _ => { StartSpec.plain with engine := true }) rspanGo) State.rspanRead
    (State.rspanWrite false))

def execRspanC (_ : CmdRec) (b : Beat) (s : State) : Out :=
  .next (s.onBeat b (fun q => s.startCommand q (fun _ => { StartSpec.plain with engine := true }) rspanGo) State.rspanRead
    (State.rspanWrite true))

/-! KTOPK (R252). -/

/-- Words 4 to 7 are taken as reserved (DEDUCED, log entry 93). -/
def ktopkFaults (q : Queue) (hs : Vector Handle 16) (r : CmdRec) : List PushFault :=
  let d := descOf r.w3
  reservedFaults q r [maskOcScope + maskOf 23 23 + maskOf 21 16, maskOf 23 16, 0, 0, allBits, allBits, allBits, allBits] ++
    chainWordFaults q hs r.w2 permR ++ arrayFaults q hs r.w3 3 1 (2 * wfield r.w1 15 0) 1 permW ++
    faultIf (d.pitch != 0 || r.w0.getLsbD 22 && d.loc) (pushFault q cILLEGAL 3)

def ktopkGo (r : Run) (s : State) : State := (s.setRun r).engineFree r.q (r.s + 48 + 10 * r.np)

def State.ktopkRead (s : State) (r : Run) : State :=
  match r.chain with
  | none => s.openChain r ⟨false, permR, permR, permR, false, none⟩ fun s c => s.setRun { r with chain := some c }
  | some c =>
    s.nextPage r c fun s g =>
      s.scoreBlock r c g fun s sc => s.setRun { r with nr := r.nr + 1, pages := r.pages ++ [{ g with scores := sc }] }

/-- A live token: its mask bit, which gives the chain order, its position and its score. -/
structure Token where
  bit : Nat
  pos : Nat
  sc : Val
  deriving DecidableEq, Repr

def liveTokens (gs : List Page) : List Token :=
  gs.zipIdx.flatMap fun g => g.1.live.map fun t => ⟨16 * g.2 + t, g.1.pos t, f32 (g.1.scores.getD t 0).toNat⟩

def Token.earlier (a b : Token) : Bool := decide (a.pos < b.pos) || a.pos == b.pos && decide (a.bit < b.bit)
def Token.later (a b : Token) : Bool := decide (b.pos < a.pos) || a.pos == b.pos && decide (a.bit < b.bit)

/-- By score, the highest first, NaN last; ties by position. -/
def Token.better (a b : Token) : Bool :=
  if a.sc.isNan != b.sc.isNan then b.sc.isNan
  else if !a.sc.isNan && b.sc.lt a.sc then true
  else if !a.sc.isNan && a.sc.lt b.sc then false
  else a.earlier b

def insertToken (le : Token → Token → Bool) (x : Token) : List Token → List Token
  | [] => [x]
  | y :: l => if le x y then x :: y :: l else y :: insertToken le x l

def sortTokens (le : Token → Token → Bool) (l : List Token) : List Token := l.foldl (fun acc x => insertToken le x acc) []

/-- The first `n` of an order over the tokens not kept yet. -/
def keepMore (all : List Token) (keep : List Nat) (n : Nat) (le : Token → Token → Bool) : List Nat :=
  keep ++ ((sortTokens le (all.filter fun t => !keep.contains t.bit)).take n).map (·.bit)

/-- The keep mask as a number. -/
def Run.keepMask (r : Run) : Nat :=
  let all := liveTokens r.pages
  let keep := keepMore all [] (wfield r.e.r.w1 47 40) Token.earlier
  let keep := keepMore all keep (wfield r.e.r.w1 39 24) Token.later
  let keep := keepMore all keep (wfield r.e.r.w1 63 48) Token.better
  (keep.map (2 ^ ·)).sum

def ktopkWriteDue (r : Run) (loc : Bool) (t : Nat) : Bool :=
  (descOf r.e.r.w3).loc == loc && decide (r.s + r.slip ≤ t) && r.offset t == 48 + 10 * r.np

def State.ktopkWrite (s : State) (r : Run) : State :=
  let d := descOf r.e.r.w3
  (s.writeTo r d.loc (putAll [(r.e.addr d 0, leBytes (2 * r.np) r.keepMask)])).lastWrite r (r.e.r.w0.getLsbD 22)
    (slotsOf d 0 1 (2 * r.np)) 0x0A

def execKtopk (_ : CmdRec) (b : Beat) (s : State) : Out :=
  .next (s.onBeat b (fun q => s.startCommand q (fun _ => { StartSpec.plain with engine := true }) ktopkGo) State.ktopkRead
    State.ktopkWrite)

/-! KCOMPACT (R253). -/

def kcompactFaults (q : Queue) (hs : Vector Handle 16) (r : CmdRec) : List PushFault :=
  reservedFaults q r [maskOcScope + maskOf 23 0, maskOf 63 16, 0, 0, allBits, allBits, allBits, allBits] ++
    chainWordFaults q hs r.w2 permRW ++ arrayFaults q hs r.w3 3 1 (2 * wfield r.w1 15 0) 1 permR ++
    faultIf ((descOf r.w3).pitch != 0) (pushFault q cILLEGAL 3)

/-- F of R253, from the start. -/
def Run.compactF (r : Run) : Nat := 64 + 40 * r.np

def kcompactGo (r : Run) (s : State) : State := (s.setRun r).engineFree r.q (r.s + r.compactF + 8 * r.np)

/-- The chain record in S, the mask in S + 8, page k in S + 24 + 40k. -/
def kcompactReadDue (r : Run) (t : Nat) : Bool :=
  decide (r.s + r.slip ≤ t) &&
    (if r.chain.isNone then r.offset t == 0
     else if r.capX.isEmpty then r.offset t == 8
     else decide (r.nr < r.np) && r.offset t == 24 + 40 * r.nr)

def State.kcompactRead (s : State) (r : Run) : State :=
  match r.chain with
  | none => s.openChain r ⟨true, permRW, permRW, permRW, false, some r.np⟩ fun s c => s.setRun { r with chain := some c }
  | some c =>
    if r.capX.isEmpty then
      let sp := r.e.span (descOf r.e.r.w3) 0 (2 * r.np)
      s.kvBeat r frameNone [sp] fun s =>
        let x := s.fetch r sp s.dcc none
        x.2.setRun { r with capX := [[leNat x.1]] }
    else
      s.nextPage r c fun s g =>
        s.pageCodes r c g.frame fun s bs =>
          s.scoreBlock r c g fun s sc =>
            s.setRun { r with nr := r.nr + 1, pages := r.pages ++ [{ g with kv := bs, scores := sc }] }

/-- A page being rebuilt: its header, the codes of K and of V, its scores, and its last position. -/
structure Fresh where
  g : Page
  ks : List Byte
  vs : List Byte
  sc : List Word32
  last : Nat
  deriving DecidableEq, Repr

/-- Add a kept token to the pages rebuilt so far, the open one first (R253). -/
def addKept (d : Nat) (g : Page) (t : Nat) (l : List Fresh) : List Fresh :=
  let pos := g.pos t
  let start (l : List Fresh) : List Fresh := ⟨Page.fresh 0 pos g.ksc g.vsc g.tag g.beam, [], [], [], pos⟩ :: l
  let l := match l with
    | [] => start []
    | x :: rest =>
      if x.g.cnt = 16 || g.ksc != x.g.ksc || g.vsc != x.g.vsc || g.tag != x.g.tag || g.beam != x.g.beam ||
          decide (x.g.pos0 + 65535 < pos) || decide (pos ≤ x.last) then
        start ({ x with g := { x.g with isSealed := true } } :: rest)
      else x :: rest
  match l with
  | [] => []
  | x :: rest =>
    { g := { x.g with cnt := x.g.cnt + 1, poff := x.g.poff.set x.g.cnt (pos - x.g.pos0) }
      ks := x.ks ++ (g.kv.drop (t * d)).take d
      vs := x.vs ++ (g.kv.drop ((16 + t) * d)).take d
      sc := x.sc ++ [g.scores.getD t 0]
      last := pos } :: rest

/-- The fresh pages, in order. -/
def Run.freshPages (r : Run) (c : Chain) : List Fresh :=
  let mask := (r.capX.headD []).headD 0
  (r.pages.zipIdx.foldl (fun l g =>
    (g.1.live.filter fun t => mask / 2 ^ (16 * g.2 + t) % 2 == 1).foldl (fun l t => addKept c.dim g.1 t l) l) []).reverse

def kcompactEarlyDue (r : Run) (t : Nat) : Bool :=
  decide (r.s + r.slip ≤ t) && decide (r.np ≤ r.nr) && !r.capX.isEmpty && r.offset t == r.compactF + 8 * r.nw

/-- Write fresh page j into a popped frame, and link its predecessor to it. -/
def State.writeFresh (s : State) (r : Run) (c : Chain) (x : Fresh) (prev : Option Fresh) : State :=
  s.popFrame r c fun s c p =>
    let d := c.dim
    let base := c.frameOff p
    let link := match prev, r.vals.getLast? with
      | some y, some q => [(c.at_ c.pool (c.frameOff q), { y.g with nxt := p, frame := q, sidx := q }.bytes)]
      | _, _ => []
    let w := [(c.at_ c.pool base, { x.g with frame := p, sidx := p }.bytes), (c.at_ c.pool (base + 64), x.ks),
      (c.at_ c.pool (base + 64 + 16 * d), x.vs), (c.at_ c.sc (64 * p), x.sc.flatMap fun v => leBytes 4 v.toNat), c.fcntBytes]
    (s.writeMem r (putAll (link ++ w))).setRun { r with nw := r.nw + 1, vals := r.vals ++ [p], chain := some c }

def State.kcompactWrite (s : State) (r : Run) : State :=
  match r.chain with
  | none => s
  | some c =>
    let fs := r.freshPages c
    match fs[r.nw]? with
    | some x => s.writeFresh r c x (if r.nw = 0 then none else fs[r.nw - 1]?)
    | none =>
      let u := r.pages.foldl (fun (u : Unlink) g => u.push g.frame) ⟨c, [], [], [], none⟩
      match u.full with
      | some p => s.kvFault r cILLEGAL p
      | none =>
        let c := { u.c with
          head := r.vals.headD frameNone, tail := r.vals.getLast?.getD frameNone, npg := fs.length,
          live := (fs.map fun (x : Fresh) => x.g.cnt).sum }
        (s.writeMem r (putAll (u.pushed ++ [(c.addr, c.bytes)]))).finish r

def execKcompact (_ : CmdRec) (b : Beat) (s : State) : Out :=
  .next (s.onBeat b (fun q => s.startCommand q (fun _ => { StartSpec.plain with engine := true }) kcompactGo)
    State.kcompactRead State.kcompactWrite)

/-! BEAMSET (R255). -/

def beamCount (r : CmdRec) : Nat := wfield r.w1 5 0 + 1

/-- A list entry that names no beam, or has a reserved bit set. -/
def beamBad (e : Nat) : Bool := decide (63 < field e 47 40) || field e 63 48 != 0

/-- The push reads the list to check it. -/
def beamsetFaults (q : Queue) (hs : Vector Handle 16) (ls : Mem) (r : CmdRec) : List PushFault :=
  let n := beamCount r
  let d := descOf r.w2
  let l := descOf r.w3
  let shape := arrayFaults q hs r.w3 3 1 (8 * n) 8 permR
  reservedFaults q r [maskOcScope + maskOf 23 0, maskOf 63 6, 0, 0, allBits, allBits, allBits, allBits] ++
    arrayFaults q hs r.w2 2 1 512 8 permW ++ faultIf (!d.loc || d.pitch != 0) (pushFault q cILLEGAL 2) ++ shape ++
    faultIf (l.loc || shape.isEmpty && (List.range n).any fun i => beamBad (leNat (ls.readBytes (l.off + 8 * i) 8)))
      (pushFault q cILLEGAL 3)

def beamsetGo (r : Run) (s : State) : State := (s.setRun r).engineFree r.q (r.s + beamCount r.e.r)

def beamsetReadDue (r : Run) (t : Nat) : Bool :=
  decide (r.nr < beamCount r.e.r) && decide (r.s + r.slip ≤ t) && r.offset t == r.nr

def State.beamsetRead (s : State) (r : Run) : State :=
  let sp := r.e.span (descOf r.e.r.w3) (8 * r.nr) 8
  s.readBeat r [sp] false true fun s =>
    let x := s.fetch r sp s.dcc none
    x.2.setRun { r with nr := r.nr + 1, vals := r.vals ++ [leNat x.1] }

def beamsetEarlyDue (r : Run) (t : Nat) : Bool := decide (r.s + r.slip ≤ t) && r.offset t == 24 + r.nw

def State.beamsetWrite (s : State) (r : Run) : State :=
  let e := r.vals.getD r.nw 0
  let d := descOf r.e.r.w2
  let a := r.e.addr d (8 * field e 47 40)
  if beamBad e then s.runFault r cILLEGAL ((descOf r.e.r.w3).off + 8 * r.nw) frameNone
  else
    let t := s.writeMem r (putAll [(a, leBytes 8 (field e 40 0))])
    if r.nw + 1 = beamCount r.e.r then t.finish r else t.setRun { r with nw := r.nw + 1 }

def execBeamset (_ : CmdRec) (b : Beat) (s : State) : Out :=
  .next (s.onBeat b (fun q => s.startCommand q (fun _ => { StartSpec.plain with engine := true }) beamsetGo)
    State.beamsetRead State.beamsetWrite)

end Sys2Proof.Machine
end

