-- ==== Sys2Proof/Machine/Grove.lean ====
section
/-! DEFINITION. The Grove: FLOAD (R257, R258, R262, R263), FOREST (R259, R264 to R266) and LEAFG (R267 to R269), and when a
forest is valid (R261). -/

namespace Sys2Proof.Machine

/-! FLOAD. -/

def tileDesc (r : CmdRec) : Desc := descOf r.w2
def colDesc (r : CmdRec) : Desc := descOf r.w3

def floadFaults (q : Queue) (hs : Vector Handle 16) (r : CmdRec) : List PushFault :=
  reservedFaults q r [maskOcScope + maskOf 22 16, allBits, 0, 0, allBits, allBits, allBits, allBits] ++
    arrayFaults q hs r.w2 2 64 1536 8 permR ++ arrayFaults q hs r.w3 3 1 512 8 permR

def floadLf (r : CmdRec) : Nat := if (tileDesc r).loc || (colDesc r).loc then 40 else 8

def floadSpec (e : QEntry) : StartSpec :=
  { StartSpec.plain with
    array := true
    tags := if e.r.w0.getLsbD 23 then [⟨slotsOf (tileDesc e.r) 0 64 1536 ++ slotsOf (colDesc e.r) 0 1 512, tagFOREST⟩] else [] }

/-- The forest of before is gone; the array is busy without being ramped (R261, R263). -/
def floadGo (r : Run) (s : State) : State :=
  let lf := floadLf r.e.r
  ((s.setRun { r with lf := lf }).onArray fun a => { a with free := max a.free (r.s + lf + 256) }).onEng fun e =>
    { e with forest := none, loading := some r.id }

/-- Cell row r in S + 4r, the column table in S + 256. -/
def floadReadDue (r : Run) (t : Nat) : Bool := decide (r.nr ≤ 64) && t == r.s + r.slip + 4 * r.nr

/-- The reads of a cycle; where they wait the array is free one cycle later. -/
def State.loadBeat (s : State) (r : Run) (sp : Span) (k : State → State) : State :=
  let t := s.attempt r fun u => u.readBeat r [sp] false false k
  match t.runOf r.id with
  | some y => if y.slip = r.slip then t else t.onArray fun a => { a with free := a.free + 1 }
  | none => t

def State.floadRead (s : State) (r : Run) : State :=
  let sp := if r.nr < 64 then r.e.span (tileDesc r.e.r) (r.nr * (tileDesc r.e.r).pitch) 1536
    else r.e.span (colDesc r.e.r) 0 512
  s.loadBeat r sp fun s =>
    let t := s.dcc + r.lf + if r.nr < 64 then 3 else 0
    let x := s.fetch r sp t none
    (x.2.setRun { r with
      nr := r.nr + 1, capA := r.capA ++ [(splitEvery 8 (sp.n / 8) x.1).map leNat], times := r.times ++ [t] }).pinSpans r [sp] t

/-- Row r is latched in S + LF + 4r + 3, and the forest is valid in S + LF + 256; a row that has been read is not held back by the wait
for a later one (R203). -/
def floadEarlyDue (r : Run) (t : Nat) : Bool := r.times.head? == some t

/-- A reserved bit or a NaN threshold in word 0 of a cell. -/
def cellBad (w : Nat) : Bool := decide (2 ^ 29 ≤ w) || (valOf .bf16 (w % 2 ^ 16)).isNan

/-- A reserved bit in a column entry. -/
def colBad (w : Nat) : Bool := field w 63 32 != 0 || field w 30 22 != 0

def Forest.ofRows (rows : List (List Nat)) : Forest :=
  ⟨(rows.take 64).map fun l => l.map (BitVec.ofNat 64), (rows.getD 64 []).map (BitVec.ofNat 64)⟩

def State.floadWrite (s : State) (r : Run) : State :=
  let ws := r.capA.getD r.nw []
  if r.nw < 64 then
    match (List.range 64).find? fun j => cellBad (ws.getD (3 * j) 0) with
    | some j => s.readIllegal r (r.e.addr (tileDesc r.e.r) (r.nw * (tileDesc r.e.r).pitch + 24 * j))
    | none => s.setRun { r with nw := r.nw + 1, times := r.times.drop 1 }
  else
    match (List.range 64).find? fun j => colBad (ws.getD j 0) with
    | some j => s.readIllegal r (r.e.addr (colDesc r.e.r) (8 * j))
    | none =>
      (s.onEng fun e =>
        if e.loading = some r.id then { e with forest := some (Forest.ofRows r.capA), loading := none } else e).finish r

def execFload (_ : CmdRec) (b : Beat) (s : State) : Out :=
  .next (s.onBeat b (fun q => s.startCommand q floadSpec floadGo) State.floadRead State.floadWrite)

/-! FOREST. -/

structure Score where
  nf : Nat
  ns : Nat
  ad : Nat
  fmt : Nat
  d : Desc
  deriving DecidableEq, Repr

def scoreOf (r : CmdRec) : Score :=
  { nf := wfield r.w1 29 18 + 1, ns := wfield r.w1 17 12 + 1, ad := wfield r.w1 7 6, fmt := wfield r.w1 5 0,
    d := descOf r.w2 }

def Score.row (x : Score) : Nat := x.nf * elemBytes x.fmt

/-- An accumulator that the REGION does not name (R16). -/
def accFault (amask : BitVec 4) (ad : Nat) : List PushFault :=
  faultIf (!amask.getLsbD ad) ⟨cREGION_IDEM, BitVec.ofNat 64 (2 ^ ad)⟩

/-- OC and SCOPE are taken as reserved (DEDUCED, log entry 93). -/
def forestFaults (q : Queue) (hs : Vector Handle 16) (amask : BitVec 4) (r : CmdRec) : List PushFault :=
  let x := scoreOf r
  reservedFaults q r [maskOcScope + maskOf 22 16, maskOf 63 30 + maskOf 11 8, 0, allBits, allBits, allBits, allBits,
    allBits] ++
    faultIf (tagReserved x.fmt) (pushFault q cILLEGAL 1) ++
    arrayFaults q hs r.w2 2 x.ns x.row (elemBytes x.fmt) permR ++
    faultIf (x.fmt != tagFP32 && x.fmt != tagBF16) (pushFault q cFORMAT 1) ++ accFault amask x.ad

/-- The fields of a column entry. -/
def colValid (w : Word) : Bool := w.getLsbD 31
def colTree (w : Word) : Nat := wfield w 15 0
def colBase (w : Word) : Nat := wfield w 21 16

/-- Cell (r, j) of a forest: its three words. -/
def Forest.cell (f : Forest) (r j : Nat) : Word × Word × Word :=
  let l := f.cells.getD r []
  (l.getD (3 * j) 0, l.getD (3 * j + 1) 0, l.getD (3 * j + 2) 0)

/-- A cell of a VALID column that tests a feature the samples do not have (R264). -/
def Forest.beyond (f : Forest) (nf : Nat) : Bool :=
  (List.range 64).any fun j => colValid (f.cols.getD j 0) &&
    (List.range 64).any fun r => decide (nf ≤ wfield (f.cell r j).1 27 16)

def scoreLf (r : CmdRec) : Nat := if (descOf r.w2).loc then 40 else 8

def State.forestSpec (s : State) (q : Queue) (e : QEntry) : StartSpec :=
  let x := scoreOf e.r
  let mk (c : BitVec 8) : TrapRec := s.cmdRecAt s.dcc c q e.r 0 false 0 0
  let tag := (s.accOf x.ad).tag.toNat
  { StartSpec.plain with
    ramp := some (scoreLf e.r)
    load := true
    tags := if e.r.w0.getLsbD 23 then [⟨slotsOf x.d 0 x.ns x.row, x.fmt⟩] else []
    faults := (match s.core.eng.forest with
      | none => [mk cFORMAT]
      | some f => if f.beyond x.nf then [mk cILLEGAL] else []) ++ if tag != 0 && tag != tagI32 then [mk cFORMAT] else [] }

/-- Cycles per sample. -/
def Score.rate (x : Score) : Nat := max 1 (ceilDiv x.row 512)

def Run.scored (r : Run) : Score := scoreOf r.e.r

def forestGo (r : Run) (s : State) : State :=
  let x := r.scored
  let r := { r with lf := scoreLf r.e.r }
  (s.setRun r).arrayUse (r.s + r.lf + x.ns * x.rate - 1)

def forestReadDue (r : Run) (t : Nat) : Bool :=
  decide (r.nr < r.scored.ns) && t == r.s + r.slip + r.nr * r.scored.rate

/-- Does a cell send a sample right (R259)? -/
def goesRight (fmt : Nat) (sample : List Nat) (w0 : Word) : Bool :=
  let v := codeVal fmt (sample.getD (wfield w0 27 16) 0)
  if v.isNan then w0.getLsbD 28 else (valOf .bf16 (wfield w0 15 0)).lt v

def lowestBit (m : Word) : Option Nat := (List.range 64).find? fun l => m.getLsbD l

/-- The leaf that column j reaches, as an I32 (R259). -/
def Forest.leaf (f : Forest) (fmt : Nat) (sample : List Nat) (j : Nat) : Nat :=
  let c := f.cols.getD j 0
  let m := (List.range 64).foldl (fun (m : Word) r =>
    let x := f.cell r j
    m &&& if goesRight fmt sample x.1 then x.2.2 else x.2.1) (BitVec.allOnes 64)
  match if colValid c then lowestBit m else none with
  | some l => colBase c * 64 + l
  | none => 2 ^ 32 - 1

/-- A sample is read, to be evaluated LF cycles on with the forest of the command's start (R265). -/
def State.forestRead (s : State) (r : Run) : State :=
  let x := r.scored
  let sp := r.e.span x.d (r.nr * x.d.pitch) x.row
  s.readBeat r [sp] true false fun s =>
    let t := s.dcc + r.lf
    let v := s.fetch r sp t none
    let sample := codesOf (8 * elemBytes x.fmt) 0 x.nf v.1
    let leaves := match r.forest with
      | some f => (List.range 64).map (f.leaf x.fmt sample)
      | none => []
    (v.2.setRun { r with nr := r.nr + 1, capA := r.capA ++ [leaves], times := r.times ++ [t + 8] }).pinSpans r [sp] t

/-- A sample that has been read is not held back by the wait for a later one (R203). -/
def forestEarlyDue (r : Run) (t : Nat) : Bool := r.times.head? == some t

def State.forestWrite (s : State) (r : Run) : State :=
  let x := r.scored
  let s := s.onAcc x.ad fun a => a.putRow tagI32 r.nw 0 ((r.capA.getD r.nw []).map fun v => some (BitVec.ofNat 32 v))
  if r.nw + 1 = x.ns then s.finish r else s.setRun { r with nw := r.nw + 1, times := r.times.drop 1 }

def execForest (_ : CmdRec) (b : Beat) (s : State) : Out :=
  .next (s.onBeat b (fun q => s.startCommand q (s.forestSpec q) forestGo) State.forestRead State.forestWrite)

/-! LEAFG. -/

structure Gather where
  acc : Bool
  accsat : Bool
  dcol : Nat
  ns : Nat
  ad : Nat
  ai : Nat
  nl : Nat
  nt : Nat
  d : Desc
  deriving DecidableEq, Repr

def gatherOf (r : CmdRec) : Gather :=
  { acc := r.w0.getLsbD 20, accsat := r.w0.getLsbD 19, dcol := wfield r.w1 25 20, ns := wfield r.w1 19 14 + 1,
    ad := wfield r.w1 13 12, ai := wfield r.w1 11 10, nl := wfield r.w3 28 16, nt := wfield r.w3 15 0 + 1,
    d := descOf r.w2 }

/-- OC and SCOPE are taken as reserved (DEDUCED, log entry 93). -/
def leafgFaults (q : Queue) (hs : Vector Handle 16) (amask : BitVec 4) (r : CmdRec) : List PushFault :=
  let x := gatherOf r
  reservedFaults q r [maskOcScope + maskOf 23 21 + maskOf 18 0, maskOf 63 26 + maskOf 9 0, 0, maskOf 63 29, allBits,
    allBits, allBits, allBits] ++
    faultIf (x.ad == x.ai) (pushFault q cILLEGAL 1) ++ faultIf (x.nl == 0 || decide (4096 < x.nl)) (pushFault q cILLEGAL 3) ++
    arrayFaults q hs r.w2 2 x.nt (4 * x.nl) 4 permR ++ accFault amask x.ad

def State.leafgSpec (s : State) (q : Queue) (e : QEntry) : StartSpec :=
  let x := gatherOf e.r
  let tagI := (s.accOf x.ai).tag.toNat
  let tagD := (s.accOf x.ad).tag.toNat
  let bad := s.core.eng.forest.isNone || tagI != tagI32 || tagD != 0 && tagD != tagFP32
  { StartSpec.plain with faults := if bad then [s.cmdRecAt s.dcc cFORMAT q e.r 0 false 0 0] else [] }

/-- The command works with the column table as it stands at its start (DEDUCED, log entry 79). -/
def State.leafgGo (r : Run) (s : State) : State :=
  let cols := (s.core.eng.forest.map (·.cols)).getD []
  s.setRun { r with lf := scoreLf r.e.r, vals := cols.map (·.toNat) }

def Run.gather (r : Run) : Gather := gatherOf r.e.r

def Run.col (r : Run) (j : Nat) : Word := BitVec.ofNat 64 (r.vals.getD j 0)

/-- The VALID columns, in order. -/
def Run.cols (r : Run) : List Nat := (List.range 64).filter fun j => colValid (r.col j)

/-- Cycles per sample. -/
def Run.leafRate (r : Run) : Nat := max 1 (ceilDiv r.cols.length 16)

/-- The trees of the VALID columns in ascending order. -/
def insertTree (t : Nat) : List Nat → List Nat
  | [] => [t]
  | u :: l => if t < u then t :: u :: l else if t = u then u :: l else u :: insertTree t l

def Run.trees (r : Run) : List Nat := r.cols.foldl (fun l j => insertTree (colTree (r.col j)) l) []

/-- A sample takes g cycles. -/
def leafgReadDue (r : Run) (t : Nat) : Bool :=
  decide (r.nr < r.gather.ns * r.leafRate) && t == r.s + r.slip + r.nr

/-- A tree or leaf beyond the leaf table. -/
def Gather.outside (x : Gather) (t : Nat) (leaf : Int) : Bool :=
  decide (x.nt ≤ t) || decide (leaf < 0) || decide ((x.nl : Int) ≤ leaf)

/-- The trees that cycle `i` of a sample settles, each with its leaf: those whose lowest VALID column with a leaf is among the 16 of the
cycle (DESIGN CHOICE, log entry 79). -/
def Run.leafHits (r : Run) (ai : Acc) (i smp : Nat) : List (Nat × Int) :=
  ((r.cols.drop (16 * i)).take 16).foldl (fun (l : List (Nat × Int)) j =>
    let t := colTree (r.col j)
    let v := (ai.at smp j).toInt
    if v == -1 || (l.any fun h => h.1 == t) || r.capB.any fun h => h.getD 0 0 == t then l else l ++ [(t, v)]) []

/-- Take the leaf values of a cycle, each with its tree. -/
def State.takeLeafs (s : State) (r : Run) : List (Nat × Int) → List (List Nat) × State
  | [] => ([], s)
  | h :: rest =>
    let x := r.gather
    let v := s.fetch r (r.e.span x.d (h.1 * x.d.pitch + 4 * h.2.toNat) 4) (s.dcc + r.lf) none
    let y := State.takeLeafs v.2 r rest
    ([h.1, leNat v.1] :: y.1, y.2)

/-- Sum a sample's leaf values, in ascending order of trees; a tree that reached no leaf sets NV. -/
def leafSum (accsat : Bool) (found : List (List Nat)) : List Nat → Rounded → Rounded
  | [], acc => acc
  | t :: rest, acc =>
    leafSum accsat found rest
      (match found.find? fun h => h.getD 0 0 == t with
      | some h =>
        let a := accAdd acc.pat (h.getD 1 0) accsat
        ⟨a.pat, acc.flags ||| a.flags⟩
      | none => ⟨acc.pat, acc.flags ||| flagNV⟩)

/-- One cycle of a sample: the leaf values of 16 columns, from the first with ad's element, and after the last of them the sum. -/
def State.leafgRead (s : State) (r : Run) : State :=
  let x := r.gather
  let smp := r.nr / r.leafRate
  let i := r.nr % r.leafRate
  let r := if i = 0 then
      { r with capB := [], acc0 := [if x.acc then (s.accOf x.ad).at smp x.dcol else 0] }
    else r
  let hits := r.leafHits (s.accOf x.ai) i smp
  match hits.find? fun h => x.outside h.1 h.2 with
  | some h => s.readIllegal r (r.e.addr x.d (h.1 * x.d.pitch))
  | none =>
    s.readBeat r (hits.map fun h => r.e.span x.d (h.1 * x.d.pitch + 4 * h.2.toNat) 4) false false fun s =>
      let v := s.takeLeafs r hits
      let r := { r with nr := r.nr + 1, capB := r.capB ++ v.1 }
      let sum := leafSum x.accsat r.capB r.trees ⟨(r.acc0.headD 0).toNat, 0⟩
      v.2.setRun (if i + 1 = r.leafRate then
          { r with res := r.res ++ [(BitVec.ofNat 32 sum.pat, sum.flags)], times := r.times ++ [s.dcc + 1 + r.lf + 4] }
        else r)

def leafgEarlyDue (r : Run) (t : Nat) : Bool := r.times.head? == some t

def State.leafgWrite (s : State) (r : Run) : State :=
  let x := r.gather
  let v := r.res.getD r.nw (0, 0)
  let s := (s.onAcc x.ad fun a => a.putRow tagFP32 r.nw x.dcol [some v.1]).raise v.2
  if r.nw + 1 = x.ns then s.finish r else s.setRun { r with nw := r.nw + 1, times := r.times.drop 1 }

def execLeafg (_ : CmdRec) (b : Beat) (s : State) : Out :=
  .next (s.onBeat b (fun q => s.startCommand q (s.leafgSpec q) State.leafgGo) State.leafgRead State.leafgWrite)

end Sys2Proof.Machine
end

