-- ==== Sys2Proof/Machine/Queue.lean ====
section
/-! DEFINITION. The command queues: the check of a record at its push (R89, R126), QPUSH, TMPL, QPUSHT and QSTAT (R156 to
R160), the Cruiser's check of a pushed record (R335), and SETF and WAITF (R151 to R155). -/

namespace Sys2Proof.Machine

/-! SETF and WAITF (R151). -/

def setfFaults (q : Queue) (r : CmdRec) : List PushFault :=
  reservedFaults q r [maskOcScope + maskOf 23 17 + maskOf 15 6, allBits, allBits, allBits, allBits, allBits, allBits,
    allBits]

def waitfFaults (q : Queue) (r : CmdRec) : List PushFault :=
  reservedFaults q r [maskOcScope + maskOf 23 18 + maskOf 15 6, maskOf 63 16, allBits, allBits, allBits, allBits, allBits,
    allBits]

def flagOf (r : CmdRec) : BitVec 6 := BitVec.ofNat 6 (wfield r.w0 5 0)

/-- Does a flag satisfy a WAITF (R154)? -/
def waitMet (a : Arch) (r : CmdRec) : Bool :=
  let f := a.flags.get (flagOf r).toFin
  f.set && (!r.w0.getLsbD 17 || f.sseq.toNat == wfield r.w1 15 0)

/-- A WAITF that no earlier SETF of the entry can satisfy (R155). -/
def State.fwdWait (s : State) (q : Queue) (r : CmdRec) : List PushFault :=
  let n := flagOf r
  faultIf (r.code == 0x3F && !waitMet s.core.arch r && !s.core.reg.setfs.getLsbD n.toNat)
    ⟨cFWD_WAIT, ofFields [(n.toNat, 16), (q.code, 8)]⟩

/-! The handles that a record names (R200, R232, R239): in the descriptors with LOC set, and in bits [63:60] of the word that names a
chain or the source of a SGATH. -/

/-- The words of a record that hold descriptors, and the word whose bits [63:60] name a handle. -/
def handleWords (code : Nat) : List Nat × Option Nat :=
  match code with
  | 0x01 | 0x02 | 0x03 => ([2, 3, 4, 5, 6, 7], none)
  | 0x05 | 0x07 | 0x08 => ([2], none)
  | 0x11 => ([3], none)
  | 0x06 | 0x10 | 0x2E => ([2, 3], none)
  | 0x18 => ([2, 4], none)
  | 0x20 | 0x21 => ([2, 3, 4, 5], none)
  | 0x28 => ([3, 4, 5, 7], some 2)
  | 0x29 => ([3, 4], some 2)
  | 0x2A | 0x2B => ([], some 2)
  | 0x2C | 0x2D => ([3], some 2)
  | 0x30 => ([2], some 1)
  | _ => ([], none)

/-- The handles h1 to h15 that a push of the record captures (R126). -/
def handlesOf (r : CmdRec) : List HReg :=
  let ws := recWords r
  let x := handleWords r.code
  let named := (x.1.map fun i => ws.getD i 0).filterMap fun w => if w.getLsbD 63 then some (descOf w).h else none
  let own := match x.2 with
    | some i => [BitVec.ofNat 4 (wfield (ws.getD i 0) 63 60)]
    | none => []
  (named ++ own).filter fun h => h != 0

/-! The check of a record (R89). -/

/-- The faults of a record's fields and handles, per command. -/
def State.fieldFaults (s : State) (q : Queue) (r : CmdRec) : List PushFault :=
  let hs := s.core.pre.h
  let am := s.core.reg.amask
  match decodeRecord q r with
  | none => [pushFault q cILLEGAL 0]
  | some i =>
    match i with
    | .mma .. | .mmaSp .. | .mmaMx .. => mmaFaults q hs am r
    | .accz .. => acczFaults q am r
    | .accst .. => accstFaults q hs r
    | .fload .. => floadFaults q hs r
    | .forest .. => forestFaults q hs am r
    | .leafg .. => leafgFaults q hs am r
    | .copy .. => copyFaults q hs r
    | .fill .. => fillFaults q hs r
    | .reduce .. => reduceFaults q hs r
    | .quant .. => quantFaults q hs r
    | .deq .. => deqFaults q hs r
    | .attn .. => attnFaults q hs r
    | .kappend .. => kappendFaults q hs r
    | .kchase .. => kchaseFaults q hs r
    | .rspanK .. | .rspanC .. => rspanFaults q hs r
    | .ktopk .. => ktopkFaults q hs r
    | .kcompact .. => kcompactFaults q hs r
    | .beamset .. => beamsetFaults q hs s.core.ls.mem r
    | .sgath .. => sgathFaults q hs r
    | .sgpat .. => sgpatFaults q r
    | .setf .. => setfFaults q r
    | .waitf .. => waitfFaults q r
    | _ => [pushFault q cILLEGAL 0]

/-- All faults of a push: those of the record, a late stamp in a strict entry (R197), and FWD_WAIT. -/
def State.recordFaults (s : State) (q : Queue) (r : CmdRec) : List PushFault :=
  s.fieldFaults q r ++ faultIf (!s.core.stat.relax && decide (s.nominal r ≤ s.dcc)) ⟨cSCHED_MISS, 0⟩ ++ s.fwdWait q r

/-- The fault that a push raises: the lowest cause (R32). Which word is named where several fail with one cause is open: the first that
the checks of the command come to (DESIGN CHOICE, log entry 88). -/
def firstFault : List PushFault → Option PushFault
  | [] => none
  | f :: l =>
    match firstFault l with
    | some g => if g.cause.toNat < f.cause.toNat then some g else some f
    | none => some f

/-! Pushing (R157). -/

/-- Entries occupied at the start of the cycle. -/
def State.occupied (s : State) (q : Queue) : Nat := (s.core.eng.qprev.toList.getD q.code (0, 0, 0)).1

/-- Does a push wait for an entry? Then its bundle does not issue. -/
def State.pushWaits (s : State) (q : Queue) (pd : Pred) (r : CmdRec) : Bool :=
  pd == 0 && decide (32 ≤ s.occupied q) && (s.recordFaults q r).isEmpty

/-- Append a record with what its push captures (R52, R126, R179). -/
def State.append (s : State) (q : Queue) (r : CmdRec) : State :=
  let a := s.core.pre
  let e : QEntry :=
    { r := r, pushedAt := s.dcc, mask := a.mtop, seed := a.csr.srseed, steptag := a.csr.steptag, handles := a.h,
      startAt := none, seen := 0, waiting := false, gone := false }
  let s := s.onEng fun g =>
    { g with queues := Vector.ofFn fun i => if i.val = q.code then g.queues.get i ++ [e] else g.queues.get i }
  if r.code = 0x3E ∧ !r.w0.getLsbD 16 then s.onReg fun x => { x with setfs := setBit x.setfs (flagOf r).toNat true } else s

/-- An injection of KIND 4 hits the next pushed record: the check of the push cycle + 6 finds a difference (R335, R341). -/
def State.awaitCruiser (s : State) (q : Queue) (r : CmdRec) : State :=
  if (s.core.armed 4).isSome then s.at_ (s.dcc + 6) (ordLate s.core.phys) s.me (.cruiserRecordCheck q r) else s

def State.push (s : State) (q : Queue) (pd : Pred) (r : CmdRec) : State :=
  s.userOnly
    (if !s.inRegion then s.fault cBOUNDARY 0
     else
      match firstFault (s.recordFaults q r) with
      | some f => s.fault f.cause f.data
      | none =>
        if s.occupied q < 32 then ((s.append q r).awaitCruiser q r).putP pd false
        else s.putP pd true)

/-- The record in s(a) to s(a + 7) (R87). -/
def Arch.recordAt (s : Arch) (a : Reg) : CmdRec :=
  let w (i : Nat) : Word := s.sreg (a + BitVec.ofNat 6 i)
  ⟨w 0, w 1, w 2, w 3, w 4, w 5, w 6, w 7⟩

def execQpush (q : Queue) (pd : Pred) (a : Reg) (s : State) : Out := .next (s.push q pd (s.core.pre.recordAt a))

/-- A template with its STAMP and its low field patched (R159). -/
def patchRecord (r : CmdRec) (stamp seq : Option Word) : CmdRec :=
  let w := r.w0
  let w := match stamp with
    | some v => (w &&& ~~~(0xFFFFFF000000 : Word)) ||| ((v &&& 0xFFFFFF) <<< 24)
    | none => w
  let w := match seq with
    | some v => (w &&& ~~~(0xFFFF : Word)) ||| (v &&& 0xFFFF)
    | none => w
  { r with w0 := w }

/-- The record that QPUSHT builds. -/
def Arch.templateRecord (x : Arch) (n : BitVec 6) (b c : Reg) : CmdRec :=
  patchRecord (x.tmpl.get n.toFin) (if b = 0 then none else some (x.sreg b)) (if c = 0 then none else some (x.sreg c))

def execQpusht (q : Queue) (pd : Pred) (n : BitVec 6) (b c : Reg) (s : State) : Out :=
  .next (s.push q pd (s.core.pre.templateRecord n b c))

def execTmpl (n : BitVec 6) (a : Reg) (s : State) : Out :=
  .next (s.userOnly (s.onArch fun x => { x with tmpl := x.tmpl.set n.toNat (s.core.pre.recordAt a) n.isLt }))

def execQstat (q : Queue) (a : Reg) (s : State) : Out :=
  let x := s.core.eng.qprev.toList.getD q.code (0, 0, 0)
  .next (s.userOnly (s.putS a (ofFields [(x.2.1, 24), (x.2.2, 16), (x.1, 0)])))

/-- A mismatch names the first word that differs; which one, and the checker's value, are open. -/
def execCruiserRecordCheck (q : Queue) (r : CmdRec) (s : State) : Out :=
  .next (if (s.core.armed 4).isSome then
      let f := s.useFree
      let k := (Config.freeWord f.1).toNat % 8
      let g := f.2.useFree
      let v := (recWords r).getD k 0
      let t := g.2.onCore Core.fire
      t.takeTrap { (t.cmdRec cCHECK_MISMATCH q r 7 v (Config.freeWord g.1)) with
        v1 := ofFields [(k, 32), (7, 28), (t.cyc, 0)] }
    else s)

/-! SETF (R152, R153). -/

/-- A SETF waits, started, for the last writes of the commands ahead of it. -/
def setfGo (_ : Run) (s : State) : State := s

def execSetf (_ : CmdRec) (b : Beat) (s : State) : Out :=
  .next (s.onBeat b (fun q => s.startCommand q (fun _ => StartSpec.plain) setfGo) (fun s _ => s) (fun s _ => s))

def Run.isSetf (r : Run) : Bool := r.e.r.code == 0x3E

/-- Is an earlier command of its queue still to make its last write? (DEDUCED, log entry 67). -/
def State.setfBlocked (s : State) (r : Run) : Bool :=
  s.core.eng.runs.any fun x => x.q == r.q && decide (x.id < r.id) && !x.chasing

/-- At the end of a cycle a SETF whose queue has written all places its flag write: in max(S, L) + 1. Its write is a last
write for a SETF behind it. -/
def State.placeSetf (s : State) (r : Run) : State :=
  if s.setfBlocked r then s
  else
    let w := max r.s (s.core.eng.lastW.toList.getD r.q.code 0) + 1
    (s.onEng fun e =>
      { e with
        runs := e.runs.filter fun x => x.id != r.id
        lastW := Vector.ofFn fun i => if i.val = r.q.code then w else e.lastW.get i
        setfPend := e.setfPend + 1 }).at_ w r.q.code s.me (.setfFlagWrite (flagOf r.e.r) (r.e.r.w0.getLsbD 16))

def State.placeSetfs (s : State) : State := (s.core.eng.runs.filter Run.isSetf).foldl State.placeSetf s

def execSetfFlagWrite (n : BitVec 6) (clr : Bool) (s : State) : Out :=
  .next ((s.onArch fun a => setFlag a n fun f => if clr then { f with set := false } else ⟨true, f.sseq + 1⟩).onEng fun e =>
    { e with setfPend := e.setfPend - 1, setfNow := setBit e.setfNow n.toNat true })

/-! WAITF (R154). -/

/-- The wait ends: the flag is cleared if CLR is set, and the entry frees at the end of the cycle. -/
def State.endFlagWait (s : State) (q : Queue) (e : QEntry) : State :=
  let s := if e.r.w0.getLsbD 16 then s.onArch fun a => setFlag a (flagOf e.r) fun f => { f with set := false } else s
  s.onHead q fun e => { e with waiting := false, gone := true }

def State.startWait (s : State) (q : Queue) : State :=
  match s.headOf q with
  | none => s
  | some e =>
    let s := s.onHead q fun e => { e with seen := s.dcc + 1 }
    if waitMet s.core.arch e.r then s.endFlagWait q e
    else if s.core.stat.relax then s.onHead q fun e => { e with waiting := true }
    else s.cmdFault cSCHED_MISS q e.r 0 0 0

def execWaitf (_ : CmdRec) (b : Beat) (s : State) : Out :=
  .next (s.onBeat b s.startWait (fun s _ => s) (fun s _ => s))

/-- Is the head of a queue a WAITF whose flag has come? -/
def State.waitReady (s : State) (q : Queue) : Bool :=
  (s.headOf q).any fun e => e.waiting && waitMet s.core.arch e.r

def execWaitfComplete (q : Queue) (s : State) : Out :=
  .next (match s.headOf q with
    | some e => if e.waiting && waitMet s.core.arch e.r then s.endFlagWait q e else s
    | none => s)

end Sys2Proof.Machine
end

