-- ==== Sys2Proof/Machine/Cruiser.lean ====
section
/-! DEFINITION. What a bundle sends out of the core or puts into the commit digest, and what the Cruiser needs to execute it again
(R334, R335). Its execution stands in Checker.lean. -/

namespace Sys2Proof.Machine

def bytesOf (ws : List Word) : List Byte := ws.flatMap fun w => leBytes 8 w.toNat

/-- The rights that a request asks for. -/
def permsCode (p : Perms) : Nat := bit p.rd + 2 * bit p.wr + 4 * bit p.at_

/-- What an instruction sends: the record of a push, a message of boundary code, or what the digest covers (R334, R335). The order of
the bytes within is the model's (DESIGN CHOICE, log entry 80). -/
def State.outputOf (s : State) (t : CmdRec) : Instr → List Byte
  | .st d m sz _ =>
    bytesOf [BitVec.ofNat 64 ((s.srcH m.h).addr (s.memOff m)), BitVec.ofNat 64 (sizeBytes sz)] ++ leBytes (sizeBytes sz) (s.src d).toNat
  | .amo _ m sz _ b c _ => bytesOf [BitVec.ofNat 64 ((s.srcH m.h).addr (s.atomOff m)), BitVec.ofNat 64 (sizeBytes sz), s.src b, s.src c]
  | .amop m sz b _ => bytesOf [BitVec.ofNat 64 ((s.srcH m.h).addr (s.atomOff m)), BitVec.ofNat 64 (sizeBytes sz), s.src b]
  | .arrive g pt | .waitrv g pt => bytesOf [g.setWidth 64, pt.setWidth 64]
  | .rvinit g pt a => bytesOf [g.setWidth 64, pt.setWidth 64, s.src a]
  | .bar g => bytesOf [g.setWidth 64]
  | .event code a => bytesOf [code.setWidth 64, s.src a]
  | .xlate h x p => bytesOf [h.setWidth 64, s.src x, BitVec.ofNat 64 (permsCode p)]
  | .probe d x p => bytesOf [s.src d, s.src x, BitVec.ofNat 64 (permsCode p)]
  | .qpush q _ a => bytesOf (BitVec.ofNat 64 q.code :: recWords (s.core.pre.recordAt a))
  | .qpusht q _ _ b c =>
    bytesOf (BitVec.ofNat 64 q.code ::
      recWords (patchRecord t (if b = 0 then none else some (s.src b)) (if c = 0 then none else some (s.src c))))
  | _ => []

/-- The record that an instruction pushes, as the queue and the record. -/
def State.recordIn (s : State) (t : CmdRec) : Instr → Option (Queue × CmdRec)
  | .qpush q _ a => some (q, s.core.pre.recordAt a)
  | .qpusht q _ _ b c =>
    some (q, patchRecord t (if b = 0 then none else some (s.src b)) (if c = 0 then none else some (s.src c)))
  | _ => none

/-- What the digest of an entry covers. -/
def digested : Instr → Bool
  | .st .. | .amop .. | .arrive .. | .rvinit .. | .qpush .. | .qpusht .. => true
  | _ => false

/-- The template that a QPUSHT copies. -/
def Arch.templateOf (a : Arch) : Instr → CmdRec
  | .qpusht _ _ n _ _ => a.tmpl.get n.toFin
  | _ => CmdRec.zero

/-- A push that found its queue full has pushed nothing (R157); its predicate says so. -/
def State.pushedBy (s : State) : Instr → Bool
  | .qpush _ pd _ | .qpusht _ pd _ _ _ => pd == 0 || !s.core.arch.preg pd
  | _ => true

/-- A slot of a bundle with its guard. -/
structure Guarded where
  at_ : Worded
  pg : Pred
  pn : Bool
  deriving DecidableEq, Repr

/-- A slot for the Cruiser. `b` is the state in which the bundle began, `t` the one after it. -/
def State.sender (b t : State) (x : Guarded) : Sender :=
  let c := { b.core with wpc := x.at_.wpc, wword := x.at_.wword }
  let m := b.core.pre.templateOf x.at_.act
  { at_ := x.at_, named := c.named, pos := c.position, pg := x.pg, pn := x.pn, tmpl := m
    sent :=
      if b.core.pre.preg x.pg == x.pn then some []
      else if t.pushedBy x.at_.act then some (b.outputOf m x.at_.act)
      else none }

/-- The registers that an instruction writes at once from outside the core, with their values (R334). -/
def State.fromOutside (t : State) : Instr → List Given
  | .csrr a _ | .dccr a | .qstat _ a | .pstat a _ | .ttagRd a _ => [.s a (t.core.arch.sreg a)]
  | .qpush _ pd _ | .qpusht _ pd _ _ _ => [.p pd (t.core.arch.preg pd)]
  | _ => []

/-- What of the slots of a bundle the digest covers, in program order. -/
def digestOf (xs : List (Instr × Option (List Byte))) : List Byte :=
  ((xs.filter fun x => digested x.1).map fun x => x.2.getD []).flatten

/-- A bundle of the main stream has issued: the Cruiser executes it again in the cycle + 6, and the main stream's digest covers what it
holds back in its entry. -/
def State.follow (b t : State) (l : List Guarded) : State :=
  let xs := l.map fun x => State.sender b t x
  let e : Reexec :=
    { due := b.dcc + 6, fw := b.firmware, entry := b.entryNow, at_ := b.core.bpc, next := b.core.bend, leads := t.core.pc
      csr := b.core.pre.csr, layer := b.core.sequence, slots := xs
      given := (l.filter fun x => b.core.pre.preg x.pg != x.pn).flatMap fun x => t.fromOutside x.at_.act
      made := t.agenda.filter fun v => !b.agenda.contains v, first := b.serial, upto := t.serial }
  t.onCore fun c =>
    { c with
      cruiser := { c.cruiser with lag := c.cruiser.lag ++ [e] }
      reg := if b.inRegion then { c.reg with digest := crcAdd c.reg.digest (digestOf (xs.map fun x => (x.at_.act, x.sent))) } else c.reg }

end Sys2Proof.Machine
end

