-- ==== Sys2Proof/Machine/Stop.lean ====
section
/-! DEFINITION. What follows a trap (R331, R336), stopping a core and saving and restoring its context (R319 to R322, R324,
R394), and the revocation of translations (R126, R288). -/

namespace Sys2Proof.Machine

/-! Cores. A physical core that the state does not list is idle. -/

/-- Bring a physical core into focus. -/
def State.focusPhys (s : State) (n : Nat) : State :=
  if s.cores.any fun c => c.phys == n then s.focusOn fun c => c.phys == n
  else { s with core := Core.idle n (BitVec.ofNat 4 (n / 28)), others := s.core :: s.others }

/-- What stays of the engines when their context goes: the array, and the chases of entries that have committed (R244). -/
def Engine.left (e : Engine) : Engine := { Engine.idle with array := e.array, runs := e.runs.filter Run.chasing }

/-- The core without its context: the firmware context, its CSRs and the array stay. -/
def Core.vacate (c : Core) : Core :=
  { Core.idle c.phys c.part with
    fw := c.fw, fshare := c.fshare, errinjA := c.errinjA, errinjC := c.errinjC, retired := c.retired, stop := c.stop,
    eng := c.eng.left, cruiser := c.cruiser.restart Arch.launch 0 }

/-- The core with another context on it. The Cruiser takes the context's registers. The array stays, and with it an MBURST window that is
open, which the context then finds there (DESIGN CHOICE, log entry 97); one that has never issued a bundle finds none (R26). -/
def Core.host (old new : Core) : Core :=
  { new with
    phys := old.phys, part := old.part, fw := old.fw, fshare := old.fshare, errinjA := old.errinjA, errinjC := old.errinjC,
    retired := old.retired, stop := none
    eng :=
      let e := old.eng.left
      if new.issued = 0 then { e with array := { e.array with burstN := 0 } } else e
    cruiser := old.cruiser.restart new.arch new.pc }

/-- Every context, on a core or saved. -/
def State.onContexts (s : State) (f : Core → Core) : State := { s.onCores f with saved := s.saved.map f }

/-- Work that a context still has under way outside its core (R321). -/
def outstandingAct : Instr → Bool
  | .scalarWriteback .. | .ploadInstall .. | .rvflagsReply .. | .shapeGrant _ | .fenceComplete _ | .probeComplete _
  | .xlateComplete _ | .rvArrival .. | .rvInitApply .. | .rvAnswer .. | .boundaryReplay _ | .halt => true
  | _ => false

/-- Has every outstanding operation of a context completed (R321)? A poisoned value that has come back waits for the
restore. -/
def State.quiet (s : State) (c : Core) : Bool :=
  (c.io.all fun a => a.performed && a.poison.isSome) && c.waits.isEmpty &&
    !(s.pubs.any fun p =>
      p.launch == c.launch && p.lcore == c.lcore && !(p.applied && p.fenced.isSome && !s.unacked p.id)) &&
    !(s.agenda.any fun e => e.target == .ctx c.launch c.lcore && outstandingAct e.act)

/-! Actions (R331). -/

inductive Action where
  | kill | replay | park | forward
  deriving DecidableEq, Repr

def actionOfCode (n : Nat) : Action :=
  match n % 4 with
  | 0 => .kill
  | 1 => .replay
  | 2 => .park
  | _ => .forward

/-- Codes that no override and no ACTDEF entry decides (DEDUCED, log entry 38). -/
def fixedCause (c : BitVec 8) : Bool := c == 0 || c == cCHECK_MISMATCH || c == cPREEMPT || decide (31 ≤ c.toNat)

/-- The action of a trap: by the launch's override, else by the partition's ACTDEF. -/
def State.actionFor (s : State) (t : TrapRec) : Action :=
  let i := t.cause.toNat
  let own := (s.part s.core.part).actdef
  let w := match s.launch with
    | some l => if l.ovmask.getLsbD i && !fixedCause t.cause then l.overrides else own
    | none => own
  let a := actionOfCode (wfield w (2 * i + 1) (2 * i))
  if a = .replay ∧ t.cause = cPOISON ∧ t.stored = true then .forward else a

/-- The FORWARD record of a trap (R313). -/
def State.postForward (s : State) (l : Launch) (lcore : Nat) (t : TrapRec) (pc : Word) : State :=
  s.post l.vf recFORWARD false
    [ofFields [(l.seq.toNat, 16), (lcore, 8), (t.cause.toNat, 0)], t.v0, t.v1, t.v2, t.v3, pc]

def State.forwardOwn (s : State) (t : TrapRec) : State :=
  match s.launch with
  | some l => s.postForward l s.core.lcore t s.core.savedPc
  | none => s

/-! Stopping (R320). -/

/-- When the scalar results in flight of the context have been written (R95). -/
def State.lastResult (s : State) : Nat :=
  s.agenda.foldl (fun t e =>
    if e.target = s.me then
      match e.act with
      | .scalarWriteback .. | .ploadInstall .. => max t e.due
      | _ => t
    else t) s.dcc

/-- An ALIGN that every member has issued has completed, though the cycle in which they go on is to come: it is over (R149). -/
def State.passAlign (s : State) : State :=
  match s.core.blk with
  | .align g n =>
    if (s.group g).any fun x => x.aligns.any fun e => e.2 == n then s.leaveAlign else s.onCore fun c => c.doneWith isAlign
  | _ => s

/-- A context blocked at BAR, WAITRV, WAITC or ALIGN stands at that bundle, and issues again only what blocks it still, with the operands
and the guard it had; then it goes on where the bundle leads. An ALIGN withdraws its arrival (R146, R149). -/
def State.stopBlocked (s : State) : State :=
  match s.core.blk with
  | .bar _ | .waitrv .. | .waitc _ | .align .. => s.passAlign.onCore fun c => { c with blk := .none, reissue := !c.blocked.isEmpty }
  | _ => s

/-- A pending stop takes effect at the end of a cycle in which nothing keeps it: no entry is open, and no restore or replay
runs. The bundle of a PROBE whose walk is under way takes effect in the cycle after the request (R321). -/
def State.stopNow (s : State) : State :=
  let wait := match s.core.blk with
    | .reentry | .replay _ => true
    | _ => false
  if s.core.stopping && s.core.life == .running && !s.core.reg.isOpen && !wait &&
      (s.core.walk.isNone || s.core.stop.any fun x => decide (x.at_ < s.dcc)) then s.stopBlocked.beginSave s.lastResult
  else s

/-- The stop record of a core, with what it holds already. -/
def Core.withStop (c : Core) (dcc : Nat) (f : Stop → Stop) : Core :=
  { c with stop := some (f (c.stop.getD ⟨dcc, false, false, false, none⟩)) }

/-- PARK: the context is saved, leaves the ranking, and waits for a resume. `t0` is when it has stopped
(DEDUCED, log entry 45). -/
def State.parkAt (s : State) (cause : BitVec 8) (entry : Bool) (hnd : Option HReg) (t0 : Nat) : State :=
  let s := s.onCore fun c => c.withStop s.dcc fun x => { x with park := true, arrived := true }
  let s := s.onCore fun c =>
    { c with
      replay :=
        if entry then { c.replay with repend := true, relax := relaxes cause, cause := cause }
        else { c.replay with cause := cause, hnd := hnd }
      short := false }
  (s.stopBlocked.beginSave t0).decision s.core.part

/-! KILL. -/

/-- A core that runs a context of a launch being killed: it stops as for a pre-emption, 40 cycles on where it is not the one
that trapped. -/
def State.killCore (s : State) (id phys : Nat) : State :=
  let s := s.focusPhys phys
  let s := if s.core.stop.any fun x => x.incoming.any fun i => i.1 == id then
      s.onCore fun c => { c with stop := c.stop.map fun x => { x with incoming := none } }
    else s
  if s.core.launch != id then s
  else
    match s.core.life with
    | .placed => s.onCore fun c => { c with life := .killed }
    | .saving => s.onCore fun c => { c with stop := c.stop.map fun x => { x with kill := true } }
    | .running =>
      let asked := s.core.stop.isSome
      let t := s.onCore fun c => c.withStop s.dcc fun x => { x with kill := true }
      if asked then t else t.at_ (s.dcc + 40) (ordStop phys) t.here .preemptArrival
    | _ => s

/-- The launch is killed: what is saved of it ends at once, and every core of it stops. -/
def State.killLaunch (s : State) (id : Nat) (cause : BitVec 8) : State :=
  let here := s.core.phys
  let s := s.onLaunch id fun l => { l with state := .killed, cause := cause }
  let s : State := { s with saved := s.saved.map fun (c : Core) =>
    if c.launch == id && (c.life == .saved || c.life == .parked) then { c with life := .killed } else c }
  ((s.cores.map (·.phys)).foldl (fun (t : State) p => t.killCore id p) s).focusPhys here

/-- KILL of the launch by a trap of the focused context, which has stopped. -/
def State.kill (s : State) (cause : BitVec 8) (opened : Bool) : State :=
  let t0 := if opened then s.dcc + 64 else s.lastResult
  let s := (s.onCore fun c => c.withStop s.dcc fun x => { x with kill := true }).beginSave t0
  match s.launch with
  | some l => if l.state = .killed then s else s.killLaunch l.id cause
  | none => s

/-- Is everything of a killed launch quiet? -/
def State.killQuiet (s : State) (id : Nat) : Bool :=
  ((s.cores ++ s.saved).filter fun c => c.launch == id).all fun c =>
    match c.life with
    | .killed => s.quiet c && (c.stop.all fun x => decide (x.at_ ≤ s.dcc))
    | .halted => true
    | _ => false

/-- A core that is free now takes the context that waits for it. -/
def State.freeFor (s : State) (t : Nat) : State :=
  match s.core.stop.bind fun x => x.incoming with
  | some i => (s.onCore fun c => { c with stop := some ⟨s.dcc, false, false, true, some i⟩ }).at_ t (ordStop s.core.phys) s.here
      .saveAreaReserve
  | none => s.onCore fun c => { c with stop := none }

/-- COMPLETE with the cause; the cores are free (DESIGN CHOICE, log entry 18). -/
def execKillComplete (launch : Nat) (cause : BitVec 8) (s : State) : Out :=
  .next (match s.launchOf launch with
    | none => s
    | some l =>
      if l.state = .killed ∧ s.killQuiet launch then
        let here := s.core.phys
        let t := (s.complete l cause).onLaunch launch fun l => { l with state := .done }
        let t := { t with saved := t.saved.filter fun c => c.launch != launch }
        let ps := (t.cores.filter fun c => c.launch == launch).map (·.phys)
        let t := ps.foldl (fun (u : State) p =>
          let u := u.focusPhys p
          (u.onCore Core.vacate).freeFor (s.dcc + 16)) t
        (t.focusPhys here).decision l.part
      else s)

/-! Replay in boundary code. -/

/-- The bundle, or the access, is tried again after `wait` cycles (DEDUCED, log entry 48). -/
def State.startReplay (s : State) (t : TrapRec) (hnd : Option HReg) (wait : Nat) : State :=
  let n := s.serial
  let s := { s with serial := n + 1 }.onCore fun c =>
    { c with
      blk := if t.access.isSome then c.blk else .replay n
      replay := { c.replay with access := t.access, hnd := hnd, serial := n } }
  s.at_ (s.dcc + wait) (ordLate s.core.phys) s.me (.boundaryReplay n)

/-- The handle that a HANDLE_INVALID names. -/
def trapHandle (t : TrapRec) : Option HReg := if t.cause = cHANDLE_INVALID then some (t.v2.setWidth 4) else none

/-- One more replay of the bundle that issues next, unless that passes RELIM.LIM. -/
def State.countReplay (s : State) : Bool × State :=
  let c := s.core
  let n := if c.replay.at_ = c.nextPc then c.replay.count else 0
  if c.arch.csr.relim.toNat < n.toNat + 1 then (false, s)
  else (true, s.onCore fun c => { c with replay := { c.replay with at_ := c.nextPc, count := n + 1 } })

/-- REGION_LIVELOCK of a bundle: DATA holds the bundle's cause. -/
def livelockOf (t : TrapRec) : TrapRec := { t with cause := cREGION_LIVELOCK, v2 := t.cause.setWidth 64, access := none, stored := false }

def State.writeTrap (s : State) (t : TrapRec) : State :=
  s.onStat fun x => { x with trapc := t.cause, trapv0 := t.v0, trapv1 := t.v1, trapv2 := t.v2, trapv3 := t.v3 }

/-- The action of a trap, with what REPLAY does. `entry` says that a region is to be entered again, `opened` that its discard
is of the present cycle. -/
def State.actWith (s : State) (t : TrapRec) (entry opened : Bool) (replay : State → State) : State :=
  let t0 := if opened then s.dcc + 64 else s.lastResult
  let s := s.onCore fun c =>
    if t.access.any fun id => c.io.any fun a => a.id == id then { c with replay := { c.replay with access := t.access } } else c
  match s.actionFor t with
  | .replay => replay s
  | .park => s.parkAt t.cause entry (trapHandle t) t0
  | .forward => (s.forwardOwn t).parkAt t.cause entry (trapHandle t) t0
  | .kill => (s.forwardOwn t).kill t.cause opened

/-- REPLAY in boundary code: 72 cycles on, 64 more where a handle is translated again. -/
def State.replayBoundary (s : State) (t : TrapRec) : State :=
  let h := trapHandle t
  let wait := if h.isSome then 136 else 72
  if t.access.isSome || t.cause == cREGION_LIVELOCK then s.startReplay t h 72
  else
    match s.countReplay with
    | (true, u) => u.startReplay t h wait
    | (false, u) =>
      let x := livelockOf t
      (u.writeTrap x).actWith x false false fun v => v.startReplay x h wait

/-! CHECK_MISMATCH (R336), and a partition that loses a core (R326). -/

/-- Codes of the event log for a retired core, and for notify stores and management writes turned away (R336, R362, R369,
R377). -/
def logRetired : Nat := 0x0102

/-- Is a physical core enabled: in the configuration record, and not retired? -/
def State.coreEnabled (s : State) (n : Nat) : Bool :=
  s.himos.config.cores.getLsbD n && !(s.cores.any fun c => c.phys == n && c.retired)

/-- The enabled cores of a partition, in ascending order. -/
def State.enabled (s : State) (p : BitVec 4) : List Nat :=
  ((List.range 28).map fun k => 28 * p.toNat + k).filter s.coreEnabled

/-- A launch that has not started gives its cores back, and waits again. -/
def State.unplace (s : State) (id : Nat) : State :=
  let s := s.cancel fun e => e.act == .launchStart id || e.act == .tstartCheck id
  (s.onCores fun c =>
    let c := if c.stop.any fun x => x.incoming.any fun i => i.1 == id then
        { c with stop := c.stop.map fun x => { x with incoming := none } }
      else c
    if c.launch == id then c.vacate else c).onLaunch id fun l => { l with state := .waiting, place := [], bad := none }

/-- The initial registers of a context (R26); SHAPEG no more than the allowance (R381). -/
def State.launchArch (s : State) (l : Launch) : Arch :=
  let a := Arch.launch
  let al := (s.part l.part).allow
  let regs := l.bufs ++ [BitVec.ofNat 64 l.n, l.param]
  { a with
    s := Vector.ofFn fun i => if i.val = 0 then 0 else regs.getD (i.val - 1) 0
    csr := { a.csr with shapeg := if l.shape.toNat ≤ al.toNat then l.shape else al } }

/-- What the dispatcher has copied of a launch's section: the bytes with their marks, and the first poisoned word that it met. -/
structure SectionBytes where
  bytes : List (Byte × Bool)
  bad : Option (Nat × Bool)
  deriving DecidableEq, Repr

/-- Read `n` bytes of a function's virtual memory, a page at a time, with what the dispatcher's reads do; none where a page is not
mapped. -/
def State.readVirtual (s : State) (vf : BitVec 7) (v n : Nat) : Nat → Option SectionBytes × State
  | 0 => (none, s)
  | k + 1 =>
    if n = 0 then (some ⟨[], none⟩, s)
    else
      let m := min n (4096 - v % 4096)
      match s.physical vf v with
      | (none, t) => (none, t)
      | (some a, t) =>
        let x := t.dispRead a m
        let rest := State.readVirtual x.2 vf (v + m) (n - m) k
        (rest.1.map fun l => ⟨x.1 ++ l.bytes, (x.2.dispBad a x.1).orElse fun _ => l.bad⟩, rest.2)

/-- Is a range of a function's virtual memory mapped? -/
def State.mappedRange (s : State) (vf : BitVec 7) (v n : Nat) : Nat → Bool × State
  | 0 => (false, s)
  | k + 1 =>
    if n = 0 then (true, s)
    else
      let m := min n (4096 - v % 4096)
      match s.physical vf v with
      | (none, t) => (false, t)
      | (some _, t) => State.mappedRange t vf (v + m) (n - m) k

/-- The local-store sections of a launch (R308, R309). -/
def State.sectionBytes (s : State) (l : Launch) (sec : Nat × Nat × Nat) : Option SectionBytes × State :=
  s.readVirtual l.vf (l.codeva.toNat + sec.2.2) sec.2.1 (sec.2.1 / 4096 + 2)

/-- The local store of a new context with its sections. The launch has POISON for a poisoned word that is copied, and the copy keeps the mark
(R338) (DEDUCED, log entry 21). -/
def State.launchStore (s : State) (l : Launch) : LocalStore × State :=
  l.sections.foldl (fun (x : LocalStore × State) sec =>
    let r := x.2.sectionBytes l sec
    let bs := (r.1.map SectionBytes.bytes).getD []
    let bad := (List.range bs.length).filter fun i => (bs.getD i (0, true)).2 == false
    let words := (bad.map fun i => (sec.1 + i) / 8 * 8).foldl (fun acc w => if acc.contains w then acc else acc ++ [w]) x.1.poison
    ({ x.1 with mem := x.1.mem.writeBytes sec.1 (bs.map Prod.fst), poison := words },
      r.2.onLaunch l.id fun m => { m with bad := m.bad.orElse fun _ => r.1.bind SectionBytes.bad })) (LocalStore.clear, s)

/-- A context of a launch that has never run, on a core. -/
def State.freshCtx (s : State) (old : Core) (l : Launch) (lcore : Nat) : Core × State :=
  let a := s.launchArch l
  let x := s.launchStore l
  let c := old.host (Core.idle old.phys old.part)
  ({ c with
    launch := l.id, lcore := lcore, vf := l.vf
    groups := (l.groups.filter fun g => g.has lcore).map (·.gid)
    life := .placed, arch := a, pre := a, pc := l.entry, ls := x.1
    cruiser := c.cruiser.restart a l.entry }, x.2)

/-- Where the image lies, and the bytes that go to the save area for it. -/
def imageBase : Nat := 0x5E000

/-- A launch that lost its cores before its start is parked: its contexts are saved as they would have started (R326). -/
def State.parkFresh (s : State) (l : Launch) : State :=
  (List.range l.n).foldl (fun (t : State) k =>
    let f := t.freshCtx (Core.idle 0 l.part) l k
    let c := { f.1 with
      life := .parked, replay := { f.1.replay with cause := cPREEMPT }, short := true
      tail := f.1.ls.mem.filter fun e => decide (imageBase ≤ e.1) }
    { f.2 with saved := f.2.saved ++ [c] }) (s.onLaunch l.id fun l => { l with state := .parked })

/-- A context is parked, or is to be, because its partition has too few cores; what it stands at is a pre-emption (R326). -/
def Core.lack (c : Core) (life : Life) : Core :=
  { c with life := life, short := true, replay := if c.replay.repend then c.replay else { c.replay with cause := cPREEMPT } }

/-- A launch that needs more cores than are left is parked and saved, and the host is told. -/
def State.parkLaunch (s : State) (l : Launch) : State :=
  let here := s.core.phys
  let s := if l.state = .placing then (s.unplace l.id).parkFresh l else s
  let s : State := { s with saved := s.saved.map fun (c : Core) =>
    if c.launch == l.id && c.life == .saved then c.lack .parked else c }
  let s := (s.cores.map (·.phys)).foldl (fun (t : State) p =>
    let t := t.focusPhys p
    let t := if t.core.stop.any fun x => x.incoming.any fun i => i.1 == l.id then
        t.onCore fun c => { c with stop := c.stop.map fun x => { x with incoming := none } }
      else t
    if t.core.launch = l.id ∧ (t.core.life = .running ∨ t.core.life = .placed ∨ t.core.life = .saving) then
      let asked := t.core.stop.isSome
      let u := t.onCore fun c => (c.lack c.life).withStop t.dcc fun x => { x with park := true, incoming := none }
      if asked then u else u.at_ (t.dcc + 40) (ordStop p) u.here .preemptArrival
    else t) s
  (s.focusPhys here).postForward l 0xFF ⟨cPREEMPT, 0, 0, 0, 0, none, false⟩ 0

/-- The density of a contract, as a fraction over its deadline: (BUDGET + NCORE × 2,600) / DEADLINE. -/
def Contract.density (c : Contract) : Rat := ((c.budget + c.ncore * 2600 : Nat) : Rat) / (c.deadline : Rat)

/-- The admitted contracts of a partition; one that is withdrawn stays among them until its next period start (R314). -/
def State.admitted (s : State) (p : BitVec 4) : List (Nat × Contract) :=
  s.disp.contracts.filter fun e => e.1 / 64 == p.toNat && e.2.adm

/-- The admitted contracts that are not being withdrawn. -/
def State.staying (s : State) (p : BitVec 4) : List (Nat × Contract) := (s.admitted p).filter fun e => !e.2.withdraw

def densitySum (l : List (Nat × Contract)) : Rat := (l.map fun e => e.2.density).sum

/-- C × CEILF / 65,536. A CEILF above 62,259, which a host must not write, counts as that (R315) (DESIGN CHOICE, log entry 104). -/
def State.densityBound (s : State) (p : BitVec 4) : Rat :=
  (((s.enabled p).length * min (s.part p).ceilf.toNat 62259 : Nat) : Rat) / 65536

/-- The function whose host hears of a partition's contracts: its lowest-numbered valid one (DESIGN CHOICE, log entry 19). -/
def State.partVf (s : State) (p : BitVec 4) : BitVec 7 :=
  let vs := (List.range 6).map fun i => 6 * p.toNat + i
  BitVec.ofNat 7 ((vs.find? fun v => (SMap.find v s.fabric.vfs).any fun d => d.valid).getD (6 * p.toNat))

/-- The ADMIT record: the sum of the densities after the test, in units of 2^-16 cores (R313). -/
def State.postAdmit (s : State) (p : BitVec 4) (cid : Nat) (ok : Bool) (after : List (Nat × Contract)) : State :=
  s.post (s.partVf p) recADMIT false
    [ofFields [(bit ok, 32), (cid, 0)], BitVec.ofNat 64 (densitySum after * 65536).floor.toNat]

def State.withdraw (s : State) (key : Nat) : State :=
  s.onDisp fun d =>
    match SMap.find key d.contracts with
    | some c => { d with contracts := SMap.put key { c with withdraw := true } d.contracts }
    | none => d

/-- After a loss: contracts that need more cores than are left go, then the lowest CIDs until the sum passes. -/
def State.retest (s : State) (p : BitVec 4) : State :=
  let n := (s.enabled p).length
  let s := ((s.staying p).filter fun e => decide (n < e.2.ncore)).foldl (fun (t : State) e => t.withdraw e.1) s
  (s.staying p).foldl (fun (t : State) e =>
    if densitySum (t.staying p) ≤ t.densityBound p then t
    else
      let u := t.withdraw e.1
      u.postAdmit p (e.1 % 64) false (u.staying p)) s

/-- Every unfinished launch of a partition that needs more cores than it has is parked (DESIGN CHOICE, log entry 50). -/
def State.coreLost (s : State) (p : BitVec 4) : State :=
  let n := (s.enabled p).length
  let ls := s.disp.launches.filter fun l =>
    l.part == p && decide (n < l.n) && (l.state == .running || l.state == .placing || l.state == .parked)
  ((ls.foldl (fun (t : State) l => t.parkLaunch l) s).retest p).decision p

/-- The core retires, which the Himos controller logs. -/
def State.retire (s : State) : State :=
  (s.log logRetired s.core.phys).onCore fun c => { c with retired := true }

def State.mismatch (s : State) (t : TrapRec) (entry opened : Bool) : State :=
  if !entry then
    let p := s.core.part
    ((s.retire.forwardOwn t).kill cCHECK_MISMATCH false).coreLost p
  else if s.core.replay.mism = 0 then
    (s.onCore fun c => { c with replay := { c.replay with mism := 1 } }).reenter t.cause
  else
    let p := s.core.part
    let s := s.onCore fun c =>
      { c with replay := { c.replay with mism := 2, repend := true, relax := false, cause := t.cause } }
    let s := s.retire.onCore fun c => c.withStop s.dcc fun x => { x with arrived := true }
    (s.beginSave (if opened then s.dcc + 64 else s.dcc)).coreLost p

/-! The end of a cycle with a trap. -/

/-- The trap of the cycle: an open entry is discarded, and the action follows. -/
def State.closeTrap (s : State) : State :=
  match s.core.trap with
  | none => s
  | some t =>
    let s := s.onCore fun c => { c with trap := none }
    if s.core.life ≠ .running then s
    else
      let opened := s.core.reg.isOpen
      let entry := opened || s.core.blk == .reentry
      let s := if opened then s.discard else s
      if t.cause = cCHECK_MISMATCH then s.mismatch t entry opened
      else
        s.actWith t entry opened fun u =>
          if !entry then u.replayBoundary t
          else
            -- an access of before the entry is performed again too (R394)
            (match u.core.replay.access, t.access with
            | some n, some m => if n = m then u.startReplay t none 72 else u
            | _, _ => u).reenter t.cause

/-- An access is performed again with what it captured (R394). -/
def State.again (s : State) (a : Access) : State :=
  let b := { a with performed := false, value := none, poison := none, fenced := false, issued := s.dcc, back := s.dcc + 4 }
  match a.kind with
  | .ld .. =>
    if a.hnd.lgsz = 0 then
      let bytes := (List.range a.data.length).map fun i => s.localByte (a.pa + i)
      let held := fun i => (SMap.find i s.core.held.sbLs).isSome
      let bad := (readWords held a.pa a.data.length).find? fun w => s.core.ls.poison.contains w
      (s.setAccess { b with performed := true, value := if bad.isSome then none else some bytes, poison := bad }).at_
        (s.dcc + 4) ordResult s.me (.ldReturn a.id)
    else (s.setAccess { b with y := 0 }).toSlice sliceTime (.ldReturn a.id)
  | _ => (s.setAccess b).toSlice sliceTime (.homeSliceApply a.id)

/-- A handle is translated again from its page and its rights (R126); a fault is the bundle's. -/
def State.renew (s : State) (h : HReg) : State :=
  let x := s.core.arch.hreg h
  match s.xlated s.core.part s.core.vf (BitVec.ofNat 64 (x.vpage.toNat * 2 ^ 12)) x.perms with
  | (.handle n, t) => (t.onArch fun a => a.setH h n).relay (.h h n)
  | (.cause c data, t) =>
    t.takeTrap (t.recOf (t.core.stat.trapv0, t.core.stat.trapv1) t.core.stat.trapv3 c data)

/-- The bundle issues again, or the late access is made again. A pending stop is taken instead of the bundle (R32). -/
def execBoundaryReplay (serial : Nat) (s : State) : Out :=
  .next (if s.core.replay.serial ≠ serial then s
    else
      match s.core.replay.access with
      | some id =>
        match s.findAccess id with
        | some a => s.again a
        | none => s
      | none =>
        if s.core.blk ≠ .replay serial then s
        else if s.core.stopping then s.beginSave s.dcc
        else
          let t := s.onCore fun c => { c with blk := .none, replay := { c.replay with hnd := none } }
          let t := match s.core.replay.hnd with
            | some h => t.renew h
            | none => t
          t.onHz fun z => { z with issueAt := max z.issueAt s.dcc })

/-! Pre-emption (R319 to R322). -/

/-- Bring a scheduled end of the context's trap action forward to `t`. -/
def State.hurry (s : State) (t : Nat) : State :=
  let mine (e : Ev) : Bool := e.target == s.me && (match e.act with
    | .reentry | .boundaryReplay _ => true
    | _ => false)
  match s.agenda.find? mine with
  | some e => if t < e.due then (s.cancel mine).at_ t e.ord e.target e.act else s
  | none => s

/-- The request reaches the core. -/
def execPreemptArrival (s : State) : Out :=
  .next (match s.core.stop with
    | none => s
    | some x =>
      if x.arrived then s
      else
        let t := s.onCore fun c => { c with stop := some { x with arrived := true, at_ := s.dcc } }
        match s.core.life with
        | .running =>
          if s.core.reg.isOpen then
            match s.core.reg.commit with
            | .none => t.discard.reenter cPREEMPT
            | _ => t.at_ (s.dcc + 1024) (ordStop s.core.phys) s.me (.commitGraceExpiry s.dcc)
          else
            match s.core.blk with
            | .reentry => t.hurry (s.dcc + 64)
            | .replay _ => t.hurry (s.dcc + 72)
            | _ => t
        | .halted | .idle => t.freeFor (s.dcc + 16)
        | _ => t)

/-- A COMMIT whose drain has not ended 1,024 cycles after the request is discarded. -/
def execCommitGraceExpiry (serial : Nat) (s : State) : Out :=
  let due := s.core.stop.any fun x => x.arrived && x.at_ == serial
  .next (match s.core.reg.commit with
    | .draining _ => if due && s.inRegion && s.core.life == .running then s.discard.reenter cPREEMPT else s
    | _ => s)

/-! The save area of a context, in its partition's HBM (R319): its local store with the image, then what the image covers, then its
accumulators (DESIGN CHOICE, log entry 10). -/

def saveSize : Nat := 0x72000

def saveBase (p : BitVec 4) (launch lcore : Nat) : Nat :=
  p.toNat * 0x600000000 + Config.savePage p.toNat launch lcore % (0x600000 - 0x72) * 4096

/-- Bytes of the focused context go to its save area, with the poison of some of their words. -/
def State.toArea (s : State) (off : Nat) (bs : List Byte) (bad : List Nat) : State :=
  let a := saveBase s.core.part s.core.launch s.core.lcore + off
  { s with
    mem := s.mem.writeBytes a bs
    poison := (s.poison.filter fun w => !coversWord a bs.length w) ++ bad.map fun w => a + w }

def Acc.bytes (a : Acc) : List Byte := (List.range 4096).flatMap fun i => leBytes 4 (SMap.get 0 i a.el).toNat

/-- The bytes at 0x5E000 are in the save area. The context is saved in 256 cycles and the swap takes 896; a core that holds no
context goes straight to the swap. -/
def execSaveAreaReserve (s : State) : Out :=
  .next (if s.core.life = .saving then
      ((s.onCore fun c => { c with tail := (c.ls.mem.filter fun e => decide (imageBase ≤ e.1)) }).toArea 0x60000
          (s.core.ls.mem.readBytes imageBase 0x2000) []).at_
        (s.dcc + 256 + 896) (ordStop s.core.phys) s.here .contextSwap
    else s.at_ (s.dcc + 896) (ordStop s.core.phys) s.here .contextSwap)

/-- The outgoing context leaves: saved with its local store and its image, or ended. -/
def State.sendOut (s : State) : State :=
  let c := s.core
  let s := s.unpin (c.eng.runs.flatMap (·.pins))
  match c.life with
  | .saving =>
    let kill := c.stop.any fun x => x.kill
    let park := c.stop.any fun x => x.park
    let life : Life := if kill then .killed else if park then .parked else .saved
    let s := s.saveImage imageBase
    let o := { s.core with life := life, stop := none, eng := Engine.idle }
    let s := if kill then s
      else (s.toArea 0 (o.ls.mem.readBytes 0 0x60000) o.ls.poison).toArea 0x62000 (o.acc.toList.flatMap Acc.bytes) []
    { s with saved := s.saved ++ [o] }.onCore Core.vacate
  | .idle => s
  | _ => s.onCore Core.vacate

/-- The cores of a launch that stand ready to start, and when the last of them is loaded. -/
def State.tryLaunch (s : State) (id : Nat) : State :=
  match s.launchOf id with
  | none => s
  | some l =>
    let cs := s.cores.filter fun c => c.launch == id && c.life == .placed
    if l.state = .placing ∧ cs.length = l.n ∧ !(s.agenda.any fun e => e.act == .launchStart id || e.act == .tstartCheck id) then
      s.at_ (cs.foldl (fun t c => max t c.hz.issueAt) s.dcc) (ordLate 448) .chip (.launchStart id)
    else s

/-- The incoming context arrives: a saved one, or one of a launch that has not started. One that is still on another core is
waited for. -/
def State.bringIn (s : State) : State :=
  match s.core.stop.bind fun x => x.incoming with
  | none => s.onCore fun c => { c with stop := none }
  | some i =>
    match s.saved.find? (Core.isCtx i.1 i.2) with
    | some n =>
      if n.life = .saved then
        { s with
          core := { s.core.host n with life := .placed }
          saved := s.saved.filter fun d => !d.isCtx i.1 i.2 }
      else s.onCore fun c => { c with stop := none }
    | none =>
      if s.cores.any (Core.isCtx i.1 i.2) then s.at_ (s.dcc + 1) (ordStop s.core.phys) s.here .contextSwap
      else
        match s.launchOf i.1 with
        | some l =>
          if l.state = .placing then
            let f := s.freshCtx s.core l i.2
            (f.2.onCore fun _ => { f.1 with hz := { f.1.hz with issueAt := s.dcc + 272 } }).tryLaunch l.id
          else s.onCore fun c => { c with stop := none }
        | none => s.onCore fun c => { c with stop := none }

/-- DEDUCED, log entry 53. -/
def execContextSwap (s : State) : Out := .next s.sendOut.bringIn

/-- A restored context whose outstanding operations have completed is loaded (R321). -/
def State.startLoad (s : State) : State :=
  let starting := (s.launch.map fun l => l.state == .placing || l.state == .parked).getD false
  if s.core.life = .placed ∧ !starting ∧ s.quiet s.core ∧
      !(s.agenda.any fun e => e.target == s.here && e.act == .contextUnreserve) then
    s.at_ (s.dcc + 272) (ordLate s.core.phys) s.here .contextUnreserve
  else s

/-- Does a launch have no contract to wait for: none named, or one that has been withdrawn (R314)? -/
def State.noContract (s : State) (l : Launch) : Bool :=
  l.cid == 63 || l.demoted || (SMap.find (contractKey l.part l.cid) s.disp.contracts).isNone

/-- Does a launch run best-effort (R316, R317)? -/
def State.bestEffort (s : State) (l : Launch) : Bool :=
  s.noContract l || (SMap.find (contractKey l.part l.cid) s.disp.contracts).any fun c => c.left == 0

/-- A best-effort context that runs has a quantum (R317); one that began before is over. -/
def State.startQuantum (s : State) : State :=
  let s := s.cancel fun e => e.target == s.me && (match e.act with | .quantumExpiry _ => true | _ => false)
  match s.launch with
  | some l =>
    if s.bestEffort l then s.at_ (s.dcc + (s.part l.part).quantum) (ordStop s.core.phys) s.me (.quantumExpiry s.dcc) else s
  | none => s

/-- Poisoned values that came back while the context was saved are met before its first bundle (R394). -/
def State.meetPoison (s : State) : State :=
  (s.core.io.filter fun a => a.performed && a.poison.isSome).foldl (fun (t : State) a =>
    t.at_ t.dcc ordResult t.me a.faultStage) s

/-- The context's own bytes are back at 0x5E000, and its first bundle may issue in this cycle. -/
def execContextUnreserve (s : State) : Out :=
  .next (if s.core.life ≠ .placed then s
    else
      let t := s.onCore fun c =>
        { c.capShape (s.part c.part).allow with
          life := .running
          ls := { c.ls with mem := (c.ls.mem.filter fun e => decide (e.1 < imageBase)) ++ c.tail }
          tail := []
          hz := { c.hz with issueAt := s.dcc } }
      let t := (t.resumeReentry s.dcc).relayer.meetPoison.startQuantum
      match t.core.replay.access, t.core.replay.hnd with
      | none, none => t
      | some id, _ => t.startReplay ⟨cPOISON, 0, 0, 0, 0, some id, false⟩ none 0
      | none, some h => t.startReplay ⟨cHANDLE_INVALID, 0, 0, 0, 0, none, false⟩ (some h) 64)

/-! Revocation (R126, R288). -/

/-- A handle that a command captured and whose page overlaps a range. -/
def capturedIn (hs : Vector Handle 16) (names : List HReg) (va len : Nat) : Option (HReg × Handle) :=
  names.findSome? fun h =>
    let x := hs.get h.toFin
    if x.v && x.overlaps va len then some (h, x) else none

/-- The handles that the descriptors of a chain record name (R239). -/
def Chain.handles (x : Chain) : List HReg :=
  ([x.fs, x.pool, x.sc, x.bt].filter fun w => w.getLsbD 63).map fun w => (descOf w).h

/-- The first command of the entry, running or queued, that captured a revoked handle. -/
def Core.captured (c : Core) (va len : Nat) : Option (Queue × CmdRec × HReg × Handle) :=
  let runs := (c.eng.runs.filter fun r => !r.chasing || decide (c.reg.entry < r.id)).findSome? fun r =>
    let own := capturedIn r.e.handles (handlesOf r.e.r) va len
    let chain := match r.chain with
      | some x => capturedIn x.hs x.handles va len
      | none => none
    (own.orElse fun _ => chain).map fun x => (r.q, r.e.r, x.1, x.2)
  runs.orElse fun _ =>
    [(Queue.qm, 0), (.qc, 1), (.qr, 2), (.qv, 3), (.qk, 4), (.qg, 5)].findSome? fun q =>
      ((c.eng.queues.toList.getD q.2 []).filter fun e => !e.gone).findSome? fun e =>
        (capturedIn e.handles (handlesOf e.r) va len).map fun x => (q.1, e.r, x.1, x.2)

/-- V is cleared in each handle whose page overlaps the range, and the region-start state keeps in mind that it was
(DEDUCED, log entry 36). -/
def Core.revoke (va len : Nat) (c : Core) : Core :=
  let hit (h : Handle) : Bool := h.v && h.overlaps va len
  let clear (h : Handle) : Handle := if hit h then { h with v := false } else h
  let snap := c.reg.snap.arch.h
  let arch := { c.arch with h := Vector.ofFn fun i => if i.val = 0 then c.arch.h.get i else clear (c.arch.h.get i) }
  let told (x : Told) : Told := match x.given with
    | .h r n => { x with given := .h r (clear n) }
    | .s .. | .p .. => x
  { c with
    arch := arch
    pre := { c.pre with h := arch.h }
    cruiser := { c.cruiser with user := { c.cruiser.user with h := c.cruiser.user.h.map clear }, told := c.cruiser.told.map told }
    io := c.io.map fun a => match a.kind with
      | .xlate _ => { a with hnd := clear a.hnd }
      | _ => a
    reg := { c.reg with revoked := (List.finRange 16).foldl (fun m i =>
        if i.val ≠ 0 ∧ hit (snap.get i) then setBit m i.val true else m) c.reg.revoked } }

/-- The entry that captured a revoked handle is discarded with HANDLE_INVALID in this cycle. -/
def State.revokeCore (s : State) (va len phys : Nat) : State :=
  let s := s.focusPhys phys
  let x := s.core.captured va len
  let s := s.onCore (Core.revoke va len)
  match x with
  | some (q, r, h, n) =>
    if s.inRegion then
      s.cmdFault cHANDLE_INVALID q r 0 (BitVec.ofNat 64 (n.vpage.toNat * 2 ^ 12)) (h.setWidth 64)
    else s
  | none => s

/-- The second-tier lines of a function's partition. -/
def tierOf (vf : BitVec 7) : Nat × Nat := (0x1000000000000 + vf.toNat / 6 * 0x8000000000, 0x8000000000)

/-- The physical pages that the tables name for a range, from `v` on. A page that they do not name may lie anywhere in the partition's
second tier. -/
def State.tierPagesOf (s : State) (vf : BitVec 7) (v last : Nat) : Nat → List (Nat × Nat) × State
  | 0 => ([], s)
  | k + 1 =>
    if last < v then ([], s)
    else
      match s.walk vf v with
      | (.leaf lg base _ _ _ _, t) =>
        let x := State.tierPagesOf t vf (v / 2 ^ lg * 2 ^ lg + 2 ^ lg) last k
        ((base, 2 ^ lg) :: x.1, x.2)
      | (.invalid, t) | (.poison .., t) => ([tierOf vf], t)

/-- Second-tier lines that may belong to an invalidated range: those of the pages that the tables or a handle still name;
where a page has no table entry left, all of the partition's (DESIGN CHOICE, log entry 20). -/
def State.tierRange (s : State) (vf : BitVec 7) (va len : Nat) : List (Nat × Nat) × State :=
  let byHandle := (s.cores ++ s.saved).flatMap fun c =>
    if c.vf = vf then
      (c.arch.h.toList.drop 1).filterMap fun h => if h.overlaps va len && h.lgsz != 0 then some (h.pbase.toNat * 2 ^ 12, 2 ^ h.lgsz.toNat) else none
    else []
  if len = 0 then ([], s)
  else
    let x := s.tierPagesOf vf va (va + len - 1) (len / 4096 + 2)
    (x.1 ++ byHandle, x.2)

/-- The resident second-tier lines of ranges. -/
def State.tierLines (s : State) (rs : List (Nat × Nat)) : List Line :=
  s.lines.filter fun l => isTier2 l.addr && rs.any fun r => decide (r.1 ≤ l.addr) && decide (l.addr < r.1 + r.2)

/-- Dirty lines of the ranges are written back, clean ones dropped (R288). -/
def State.dropTier (s : State) (rs : List (Nat × Nat)) : State := (s.tierLines rs).foldl (fun (t : State) l => t.dropLine l) s

/-- The boundary accesses that contexts have made through handles to the range and that have not performed. -/
def State.throughRange (s : State) (vf : BitVec 7) (va len : Nat) : List Nat :=
  (s.cores ++ s.saved).flatMap fun c =>
    if c.vf = vf then (c.io.filter fun a => a.kind.mem && !a.performed && a.hnd.overlaps va len).map (·.id) else []

/-- The open entries that may hold something of the range: their context has a handle to it, had one at the REGION, or has replaced
one since (R290). -/
def State.entriesOn (s : State) (vf : BitVec 7) (va len : Nat) : List (Nat × Nat × Nat) :=
  (s.cores.filter fun c => c.vf == vf && c.reg.isOpen &&
    (c.arch.h.toList.drop 1 ++ c.reg.snap.arch.h.toList.drop 1 ++ c.reg.had).any fun h => h.v && h.overlaps va len).map
    fun c => (c.launch, c.lcore, c.reg.entry)

/-- A translation is invalidated: every handle to a page that overlaps the range is revoked. It is acknowledged when nothing that
went through such a handle is left, and no entry that may have captured one can still commit (R126, R290). -/
def execTranslationInvalidate (vf : BitVec 7) (va len : Nat) (s : State) : Out :=
  let here := s.core.phys
  let sets := s.pubs.filter fun p => (s.launchOf p.launch).any fun l => l.vf == vf
  let x := s.tierRange vf va len
  let i : Inval := ⟨vf, va, len, x.1, s.throughRange vf va len, sets.map (·.id), s.entriesOn vf va len⟩
  let s := x.2
  let t := ((s.cores.filter fun c => c.vf == vf).map (·.phys)).foldl (fun (t : State) p => t.revokeCore va len p) s
  let t := { t with saved := t.saved.map fun (c : Core) => if c.vf = vf then c.revoke va len else c }
  let t := (t.dropWalks vf va len).focusPhys here
  .next { t with invals := t.invals ++ [i] }

/-- May an invalidation be acknowledged: have the accesses performed, the sets been published and the entries ended that it waits
for, and does no entry hold a line of it (R290)? -/
def State.invalOver (s : State) (i : Inval) : Bool :=
  !((s.cores ++ s.saved).any fun c => c.io.any fun a => i.accesses.contains a.id && !a.performed) &&
    !(s.pubs.any fun p => i.pubs.contains p.id || i.entries.contains (p.launch, p.lcore, p.entry)) &&
    !(s.cores.any fun c => c.reg.isOpen && i.entries.contains (c.launch, c.lcore, c.reg.entry)) && (s.tierLines i.tier).all fun l => l.uncommitted == 0

/-- Invalidations that are over: the lines of their pages leave L2, and the function's host is told. -/
def State.settleInvals (s : State) : State :=
  (s.invals.filter s.invalOver).foldl (fun (t : State) i =>
    let t := { t with invals := t.invals.erase i }.dropTier i.tier
    match SMap.find i.vf.toNat t.fabric.vfs with
    | some d => t.acknowledge d.hnode .host
    | none => t) s

end Sys2Proof.Machine
end

