-- ==== Sys2Proof/Machine/Sched.lean ====
section
/-! DEFINITION. The partition dispatchers: launch blocks and placement (R308 to R312, R237), contracts (R314 to R316),
scheduling decisions (R317), and the start of a launch with its predecessors (R312). -/

namespace Sys2Proof.Machine

/-! Launch blocks (R308). -/

/-- Reasons of a REC_ERR record (R313). -/
def reasonMALFORMED : Nat := 1
def reasonNOSLOT : Nat := 2
def reasonNOTRES : Nat := 3
def reasonHOLDFULL : Nat := 4
def reasonOVERRUN : Nat := 5
def reasonNOCONTRACT : Nat := 6

def State.recErr (s : State) (vf : BitVec 7) (queue seq reason : Nat) : State :=
  s.post vf recREC_ERR false [BitVec.ofNat 64 seq, BitVec.ofNat 64 queue, BitVec.ofNat 64 reason]

/-- The slot word of a partition. -/
def slotKey (part : BitVec 4) (slot : BitVec 10) : Nat := part.toNat * 1024 + slot.toNat

def State.slotWord (s : State) (part : BitVec 4) (slot : BitVec 10) : Word := SMap.get 0 (slotKey part slot) s.disp.slots

/-- Are the named bits of a word zero? -/
def clearOf (w : Word) (masks : List (Nat × Nat)) : Bool := masks.all fun m => wfield w m.1 m.2 == 0

/-- A group of the block. -/
def groupOf (w : Word) : Group :=
  { gid := BitVec.ofNat 8 (wfield w 63 56), rv := w.getLsbD 32, memb := BitVec.ofNat 28 (wfield w 27 0), bars := [],
    lastBar := 0, aligns := [], points := Vector.replicate 24 0, homeDie := 0, waiters := [] }

/-- Insert by group id. -/
def insertGroup (g : Group) : List Group → List Group
  | [] => [g]
  | h :: l => if g.gid.toNat < h.gid.toNat then g :: h :: l else h :: insertGroup g l

/-- The group table that R27 asks for: no id twice, group 0 with every member, no member at or above n, no core in more than
four. -/
def groupsOk (gs : List Group) (n : Nat) : Bool :=
  let ids := gs.map (·.gid)
  decide ids.Nodup && (gs.any fun g => g.gid == 0 && (List.range n).all g.has) &&
    (gs.all fun g => decide (g.memb.toNat < 2 ^ n)) &&
    (List.range n).all fun i => decide ((gs.filter fun g => g.has i).length ≤ 4)

/-- A rendezvous initialisation: INI = 1 with EXP (R140). -/
def initPoint (gs : List Group) (w : Word) : List Group :=
  gs.map fun g =>
    if g.gid.toNat = wfield w 63 56 then g.setPoint (wfield w 52 48) ⟨0, 0, 0, false, wfield w 20 16, 0, true⟩ else g

def rvInitOk (gs : List Group) (w : Word) : Bool :=
  clearOf w [(55, 53), (47, 21), (15, 0)] && decide (wfield w 52 48 < 24) && decide (1 ≤ wfield w 20 16) &&
    decide (wfield w 20 16 ≤ 28) && gs.any fun g => g.gid.toNat == wfield w 63 56 && g.rv

/-- The physical run of a range of device-owned pages, from `v` on; `want` is where the next page must lie. -/
def State.physRun (s : State) (part : BitVec 4) (vf : BitVec 7) (v last : Nat) (want : Option Nat) : Nat → Bool × State
  | 0 => (false, s)
  | k + 1 =>
    if last ≤ v then (true, s)
    else
      match s.walk vf v with
      | (.leaf lg base _ _ _ host, t) =>
        let pa := base + v % 2 ^ lg
        if !host && t.mappable part base (2 ^ lg) && !isFabric base && want.all fun w => w == pa then
          State.physRun t part vf (v / 2 ^ lg * 2 ^ lg + 2 ^ lg) last (some (base + 2 ^ lg)) k
        else (false, t)
      | (.invalid, t) | (.poison .., t) => (false, t)

/-- Do two runs overlap, other than as one run with one stride (R237)? -/
def Pool.clashes (p q : Pool) : Bool :=
  decide (q.ps < p.ps + p.len) && decide (p.ps < q.ps + q.len) && (q.ps != p.ps || q.len != p.len || q.stride != p.stride)

/-- A pool range of the block, if its words hold up; where it lies is found when the launch is placed. One of length 0 is a multiple of
128 as well, and names no frame (R237, R308) (DESIGN CHOICE, log entry 103). -/
def poolOf (w0 w1 : Word) : Option Pool :=
  let va := wfield w0 55 0
  let st := wfield w0 63 56
  let len := w1.toNat
  if st = 0 ∨ 65 < st ∨ va % 128 ≠ 0 ∨ len % 128 ≠ 0 ∨ 2 ^ 56 < va + len then none else some ⟨va, len, st * 128, 0⟩

/-- Where a pool range lies: a run of device-owned pages that clashes with none of the map; none where it is not so (R237). -/
def State.placePool (s : State) (l : Launch) (p : Pool) : Option Pool × State :=
  if p.len = 0 then (some p, s)
  else
    match s.physical l.vf p.va with
    | (none, t) => (none, t)
    | (some ps, t) =>
      let q : Pool := { p with ps := ps }
      let r := t.physRun l.part l.vf p.va (p.va + p.len) none (p.len / 4096 + 2)
      (if (t.poolMap l.part).any q.clashes || !r.1 then none else some q, r.2)

/-- Two runs of one launch clash as two launches' would. -/
def poolsClash (ps : List Pool) : Bool := ps.any fun p => ps.any p.clashes

/-- The pool ranges of a launch that is first placed. -/
def State.placePools (s : State) (l : Launch) : Option (List Pool) × State :=
  let x := l.pools.foldl (fun (x : List (Option Pool) × State) p =>
    let r := x.2.placePool l p
    (x.1 ++ [r.1], r.2)) ([], s)
  let ps := x.1.filterMap id
  (if x.1.any (·.isNone) || poolsClash ps then none else some ps, x.2)

/-- Are all sections of a launch mapped? -/
def State.sectionsOk (s : State) (l : Launch) : Bool × State :=
  l.sections.foldl (fun (x : Bool × State) sec =>
    let r := x.2.mappedRange l.vf (l.codeva.toNat + sec.2.2) sec.2.1 (sec.2.1 / 4096 + 2)
    (x.1 && r.1, r.2)) (true, s)

/-- The launch with what its block gives it; none where a check fails. Where the block has a poisoned word, the launch has that alone. -/
def State.parseBlock (s : State) (l : Launch) : Option Launch × State :=
  let lb := wfield (s.slotWord l.part l.slot) 51 12 * 4096
  let head := s.dispRead lb 48
  let h3 := leWord ((head.1.drop 24).map Prod.fst |>.take 8)
  let more := 8 * (2 * wfield h3 15 12 + 2 * wfield h3 20 16 + wfield h3 28 24 + wfield h3 36 32)
  let tail := head.2.dispRead (lb + 48) more
  let s := tail.2
  let all := head.1 ++ tail.1
  let w (i : Nat) : Word := leWord (((all.drop (8 * i)).take 8).map Prod.fst)
  let h := w 3
  let n := wfield h 4 0
  let np := wfield h 15 12
  let ns := wfield h 20 16
  let ng := wfield h 28 24
  let nr := wfield h 36 32
  let poolsAt := 6
  let secsAt := poolsAt + 2 * np
  let groupsAt := secsAt + 2 * ns
  let rvAt := groupsAt + ng
  let codeva := w 0
  let entry := wfield (w 1) 63 32
  let codelen := wfield (w 1) 31 0
  let secs := (List.range ns).map fun i => (w (secsAt + 2 * i), w (secsAt + 2 * i + 1))
  let gw := (List.range ng).map fun i => w (groupsAt + i)
  let rw_ := (List.range nr).map fun i => w (rvAt + i)
  let groups := gw.foldl (fun acc g => insertGroup (groupOf g) acc) []
  let ovmask : BitVec 32 := (w 5).setWidth 32
  let headOk := clearOf h [(63, 37), (31, 29), (23, 21), (7, 5), (11, 10)] && decide (1 ≤ n) &&
    decide (n ≤ (s.enabled l.part).length) && decide (np ≤ 8) && decide (ns ≤ 16) && decide (1 ≤ ng) &&
    codeva.toNat % 4096 == 0 && decide (codeva.toNat + codelen ≤ 2 ^ 56) && entry % 8 == 0 && codelen % 8 == 0 &&
    !(ovmask.getLsbD 0 || ovmask.getLsbD 0x13 || ovmask.getLsbD 0x15 || ovmask.getLsbD 0x1F)
  let secOk := secs.all fun x =>
    clearOf x.1 [(63, 19)] && decide (wfield x.1 18 0 + wfield x.2 63 32 ≤ 0x60000)
  let groupOk := (gw.all fun g => clearOf g [(55, 33), (31, 28)]) && groupsOk groups n && rw_.all (rvInitOk groups)
  let pools := (List.range np).map fun i => poolOf (w (poolsAt + 2 * i)) (w (poolsAt + 2 * i + 1))
  if !all.all Prod.snd then (some { l with bad := s.dispBad lb all }, s)
  else if !headOk || !secOk || !groupOk || pools.any (·.isNone) then (none, s)
  else
    let l := { l with
      n := n, codeva := codeva, entry := codeva + BitVec.ofNat 64 entry, codelen := codelen,
      param := if l.paramv then l.param else w 2, shape := BitVec.ofNat 2 (wfield h 9 8), overrides := w 4,
      ovmask := ovmask, groups := rw_.foldl initPoint groups, pools := pools.filterMap id, bad := none,
      sections := secs.map fun x => (wfield x.1 18 0, wfield x.2 63 32, wfield x.2 31 0) }
    let r := s.sectionsOk l
    (if r.1 then some l else none, r.2)

/-! The pool map changes (R237). -/

/-- The resident lines of a run. -/
def State.runLines (s : State) (p : Pool) : List Line :=
  s.lines.filter fun l => decide (p.ps ≤ l.addr) && decide (l.addr < p.ps + p.len)

/-- Write back and drop the lines of runs that enter or leave the map. -/
def State.dropRuns (s : State) (ps : List Pool) : State :=
  ps.foldl (fun (t : State) p => (t.runLines p).foldl (fun (u : State) l => u.dropLine l) t) s

/-- Runs of a launch that are in no other launch's map. -/
def State.ownRuns (s : State) (l : Launch) : List Pool :=
  let others := (s.disp.launches.filter fun m => m.part == l.part && m.mapped && m.id != l.id).flatMap (·.pools)
  l.pools.filter fun p => !(others.any fun q => q.ps == p.ps && q.len == p.len)

/-! Contexts in the ranking (R317). -/

/-- Where a context stands for a decision. -/
inductive Seat where
  | on (phys : Nat)
  | waits
  | out
  deriving DecidableEq, Repr

def State.seat (s : State) (i : Nat × Nat) : Seat :=
  match s.cores.find? fun c => c.stop.any fun x => x.incoming == some i with
  | some c => .on c.phys
  | none =>
    match s.cores.find? (Core.isCtx i.1 i.2) with
    | some c =>
      match c.life, c.stop with
      | .running, none | .placed, none => .on c.phys
      | .running, some x | .placed, some x | .saving, some x => if x.park || x.kill then .out else .waits
      | .saving, none => .waits
      | .idle, _ | .saved, _ | .parked, _ | .halted, _ | .killed, _ => .out
    | none =>
      match s.saved.find? (Core.isCtx i.1 i.2) with
      | some c => if c.life = .saved then .waits else .out
      | none => .out

/-- A launch that has not been placed yet may be: its invocation is released, and its start time is near (DESIGN CHOICE, log entry 22). -/
def State.isReady (s : State) (l : Launch) : Bool :=
  l.state == .waiting && l.bad.isNone && (l.tstart == 0 || decide (l.tstart ≤ s.dcc + 2600)) && (s.noContract l || l.released)

/-- The contexts of a launch in the ranking. -/
def State.rankable (s : State) (l : Launch) : List (Nat × Nat) :=
  match l.state with
  | .placing | .running =>
    ((List.range l.n).map fun k => (l.id, k)).filter fun i => s.seat i != .out
  | .waiting => if s.isReady l then [(l.id, 0)] else []
  | _ => []

/-- What a decision ranks: one context, or the whole of a launch that has not been placed, with its key. -/
structure Item where
  ctxs : List (Nat × Nat)
  whole : Bool
  effort : Bool
  key : List Nat
  deriving DecidableEq, Repr

def Item.insert (x : Item) : List Item → List Item
  | [] => [x]
  | y :: l => if listLt x.key y.key then x :: y :: l else y :: Item.insert x l

/-- Is the context waiting at YIELD? -/
def State.yields (s : State) (i : Nat × Nat) : Bool :=
  s.cores.any fun c => Core.isCtx i.1 i.2 c && c.blk == .yield && c.life == .running

/-- Contract contexts with budget, by deadline, CID, SEQ and logical core. One that yields comes after those of its deadline. -/
def State.contractItems (s : State) (p : BitVec 4) : List Item :=
  let ls := s.disp.launches.filter fun l => l.part == p && !s.bestEffort l && l.released
  (ls.flatMap fun l =>
    let key (i : Nat × Nat) : List Nat :=
      [l.deadline.getD 0, if s.yields i then 64 else l.cid.toNat, l.seq.toNat, i.2]
    (s.rankable l).map fun i =>
      let ctxs := if l.state = .waiting then (List.range l.n).map fun k => (l.id, k) else [i]
      Item.mk ctxs (l.state == .waiting) false (key i)).foldl (fun acc x => x.insert acc) []

/-- The rotation list: entries that no longer rank leave it, new ones join at the tail. -/
def State.rotate (s : State) (p : BitVec 4) : State :=
  let all := (s.disp.launches.filter fun l => l.part == p && s.bestEffort l).flatMap s.rankable
  s.onPart p fun q =>
    let keep := q.rotation.filter all.contains
    { q with rotation := keep ++ all.filter fun i => !keep.contains i }

def State.effortItems (s : State) (p : BitVec 4) : List Item :=
  let rot := (s.part p).rotation
  ((rot.filter fun i => !s.yields i) ++ rot.filter s.yields).map fun i =>
    match s.launchOf i.1 with
    | some l =>
      let ctxs := if l.state = .waiting then (List.range l.n).map fun k => (l.id, k) else [i]
      Item.mk ctxs (l.state == .waiting) true []
    | none => Item.mk [] false true []

/-- From the top down: a launch that does not fit waits for its first placement, and holds back later best-effort ones. -/
def pick : Nat → Bool → List Item → List (Nat × Nat)
  | _, _, [] => []
  | k, held, x :: rest =>
    if x.whole then
      if x.ctxs.length ≤ k ∧ ¬ (held = true ∧ x.effort = true) then x.ctxs ++ pick (k - x.ctxs.length) held rest
      else pick k true rest
    else if 0 < k then x.ctxs ++ pick (k - 1) held rest
    else pick k held rest

/-! Cores for a decision. -/

inductive CoreUse where
  | free
  | vacating
  | held (i : Nat × Nat)
  | no
  deriving DecidableEq, Repr

def State.coreUse (s : State) (n : Nat) : CoreUse :=
  match s.cores.find? fun c => c.phys == n with
  | none => .free
  | some c =>
    match c.stop.bind fun x => x.incoming with
    | some i => .held i
    | none =>
      match c.life with
      | .idle | .halted => .free
      | .running | .placed =>
        match c.stop with
        | none => .held (c.launch, c.lcore)
        | some x => if x.kill then .no else .vacating
      | .saving => if c.stop.any fun x => x.kill then .no else .vacating
      | .killed | .saved | .parked => .no

/-- Move a best-effort context to the tail of the rotation. -/
def State.toTail (s : State) (p : BitVec 4) (i : Nat × Nat) : State :=
  s.onPart p fun q =>
    if q.rotation.contains i then { q with rotation := (q.rotation.filter fun x => x != i) ++ [i] } else q

/-- Take the core from its context: the request leaves, and reaches the core in 40 cycles. -/
def State.evict (s : State) (p : BitVec 4) (n : Nat) (i : Nat × Nat) : State :=
  let s := s.focusPhys n
  if s.core.stop.isSome then s.onCore fun c => { c with stop := c.stop.map fun x => { x with incoming := none } }
  else
    ((s.onCore fun c => { c with stop := some ⟨s.dcc, false, false, false, none⟩ }).at_ (s.dcc + 40) (ordStop n) s.here
      .preemptArrival).toTail p i

/-- Give a core to a context. On a free core a launch that has not run is set up at once, and a saved context goes through
reserve, swap, load and unreserve; elsewhere the context follows the one that leaves. `extra` lengthens the placement. -/
def State.assign (s : State) (n : Nat) (i : Nat × Nat) (extra : Nat) : State :=
  let use := s.coreUse n
  let s := s.focusPhys n
  match use, s.launchOf i.1 with
  | .free, some l =>
    if l.state = .placing then
      let f := s.freshCtx s.core l i.2
      f.2.onCore fun _ => { f.1 with hz := { f.1.hz with issueAt := s.dcc + 1200 + extra } }
    else (s.onCore fun c => { c with stop := some ⟨s.dcc, false, false, true, some i⟩ }).freeFor (s.dcc + 56)
  | _, _ => s.onCore fun c => c.withStop s.dcc fun x => { x with incoming := some i }

/-- A launch enters placement: its block is taken, its groups get their home dies, and its pool runs enter the map
(DESIGN CHOICE, log entry 49). -/
def State.enterPlacing (s : State) (l : Launch) (place : List (Nat × Nat)) : Nat × State :=
  let dieOfMember (g : Group) : Nat :=
    match place.find? fun x => g.has x.1 with
    | some x => dieOf x.2
    | none => 0
  let runs := s.ownRuns l
  let moved := (runs.map fun p => (s.runLines p).length).sum
  (moved, (s.dropRuns runs).onLaunch l.id fun _ =>
    { l with state := .placing, place := place, groups := l.groups.map fun g => { g with homeDie := dieOfMember g } })

/-- A launch that fails a check is dropped (R308). -/
def State.dropMalformed (s : State) (l : Launch) : State :=
  (s.recErr l.vf l.queue.toNat l.seq.toNat reasonMALFORMED).onDisp fun d =>
    { d with launches := d.launches.filter fun m => m.id != l.id }

/-- Cores in the order in which they are handed out, for the contexts that come in. A launch that is first placed has its pool ranges
translated; one whose runs do not hold up, or clash with those in the map, is dropped, and a further decision follows (R237). -/
def State.handOut (s : State) (cores : List Nat) (ctxs : List (Nat × Nat)) : State :=
  let pairs := ctxs.zip cores
  let ids := (ctxs.map (·.1)).foldl (fun acc i => if acc.contains i then acc else acc ++ [i]) []
  let placed := ids.foldl (fun (x : List (Nat × Nat) × State) id =>
    match x.2.launchOf id with
    | some l =>
      if l.state ≠ .waiting then x
      else
        match x.2.placePools l with
        | (none, t) => (x.1, (t.dropMalformed l).decision l.part)
        | (some ps, t) =>
          let place := (pairs.filter fun e => e.1.1 == id).map fun e => (e.1.2, e.2)
          let r := t.enterPlacing { l with pools := ps } place
          ((id, r.1) :: x.1, r.2)
    | none => x) ([], s)
  let t := (pairs.filter fun e => (placed.2.launchOf e.1.1).isSome).foldl (fun (t : State) e =>
    t.assign e.2 e.1 (((placed.1.find? fun x => x.1 == e.1.1).map (·.2)).getD 0)) placed.2
  placed.1.foldl (fun (t : State) x => t.tryLaunch x.1) t

/-! Launches that are over. -/

/-- The next job of a contract is released when the job before it has completed (R316). -/
def State.releaseNext (s : State) (l : Launch) : State :=
  match s.disp.launches.find? fun m =>
    m.part == l.part && m.cid == l.cid && m.state == .waiting && m.deadline.isSome && !m.released with
  | some m =>
    (s.onLaunch m.id fun m => { m with released := true }).at_ (max s.dcc (m.deadline.getD 0)) (ordDecide + 10) .chip
      (.deadlineMiss m.id)
  | none => s

def State.dropDone (s : State) (p : BitVec 4) : State :=
  let done := s.disp.launches.filter fun l => l.part == p && l.state == .done
  let t := done.foldl (fun (t : State) l =>
    let t := t.dropRuns (t.ownRuns l)
    if l.released then t.releaseNext l else t) s
  t.onDisp fun d => { d with launches := d.launches.filter fun l => !(l.part == p && l.state == .done) }

/-- POISON that the dispatcher meets for a launch: attributed to its start (R329, R338) (DEDUCED, log entry 21). -/
def State.startPoison (s : State) (l : Launch) (b : Nat × Bool) : TrapRec :=
  ⟨cPOISON, l.entry, 0, s.poisonData b.1 b.2, 0, none, b.2⟩

/-- The action of a launch whose block has a poisoned word. No context of it exists, and of its overrides none is known: a replay reads the
block again after 72 cycles, and what is parked waits for the resume word (R331) (DEDUCED, log entry 21). -/
def State.blockPoison (s : State) (l : Launch) (b : Nat × Bool) : State :=
  let t := s.startPoison l b
  let forward (u : State) : State := u.postForward l 0xFF t l.entry
  let park (u : State) : State := u.onLaunch l.id fun l => { l with state := .parked }
  match actionOfCode (wfield (s.part l.part).actdef (2 * cPOISON.toNat + 1) (2 * cPOISON.toNat)) with
  | .kill => (forward s).onLaunch l.id fun l => { l with state := .killed, cause := cPOISON }
  | .replay =>
    if b.2 then park (forward s)
    else (s.onLaunch l.id fun l => { l with bad := none }).at_ (s.dcc + 72) ordDecide .chip (.schedulingDecision l.part)
  | .park => park s
  | .forward => park (forward s)

/-- Launches that are ready have their blocks read; one that fails a check is dropped (R308). -/
def State.readBlocks (s : State) (p : BitVec 4) : State :=
  (s.disp.launches.filter fun l => l.part == p && s.isReady l).foldl (fun (t : State) l =>
    match t.parseBlock l with
    | (some m, u) =>
      let u := u.onLaunch l.id fun _ => m
      match m.bad with
      | some b => u.blockPoison m b
      | none => u
    | (none, u) => u.dropMalformed l) s

/-! The decision (R317). -/

/-- The decision of one cycle: ranks the contexts, takes cores and gives them. A launch that has not started keeps its cores.
A context that yielded and keeps its core goes on. -/
def State.decideCores (s : State) (p : BitVec 4) : State :=
  let here := s.core.phys
  let s := (((s.dropDone p).readBlocks p).rotate p)
  let cores := s.enabled p
  let uses := cores.map fun n => (n, s.coreUse n)
  let fixed (i : Nat × Nat) : Bool := (s.launchOf i.1).any fun l => l.state == .placing
  let kept := uses.filterMap fun u => match u.2 with
    | .held i => if fixed i then some i else none
    | _ => none
  let items := (s.contractItems p ++ s.effortItems p).filter fun x => x.whole || !(x.ctxs.any kept.contains)
  let k := (uses.filter fun u => u.2 != .no).length - kept.length
  let sel := kept ++ pick k false items
  let on := uses.filterMap fun u => match u.2 with
    | .held i => if sel.contains i then some i else none
    | _ => none
  let incoming := sel.filter fun i => !on.contains i
  let free := (uses.filter fun u => u.2 == .free).map (·.1)
  let vacating := (uses.filter fun u => u.2 == .vacating).map (·.1)
  let victims := uses.filterMap fun u => match u.2 with
    | .held i => if sel.contains i then none else some (u.1, i)
    | _ => none
  let t := victims.foldl (fun (t : State) v => t.evict p v.1 v.2) s
  let t := t.handOut (free ++ vacating ++ victims.map (·.1)) incoming
  let t := t.onCores fun c => if c.blk = .yield ∧ c.part = p ∧ c.stop.isNone then { c with blk := .none } else c
  t.focusPhys here

def execSchedulingDecision (part : BitVec 4) (s : State) : Out := .next (s.decideCores part)

/-- A quantum ends: the context goes to the tail of the rotation while another waits, and a new quantum begins. -/
def execQuantumExpiry (_ : Nat) (s : State) : Out :=
  .next (match s.launch with
    | none => s
    | some l =>
      if s.core.life ≠ .running ∨ s.bestEffort l = false then s
      else
        let i := (s.core.launch, s.core.lcore)
        let waits := s.disp.launches.any fun m => m.part == l.part && s.bestEffort m &&
          (s.rankable m).any fun j => m.state == .waiting || s.seat j == .waits
        let t := s.startQuantum
        if waits then (t.toTail l.part i).decision l.part else t)

/-! The start of a launch (R311, R312). -/

/-- Has the completion record of a predecessor been posted, or is it long past? -/
def State.predDone (s : State) (x : BitVec 12 × BitVec 32) : Bool :=
  s.disp.doneLog.contains x ||
    (match SMap.find x.1.toNat s.disp.queues with
    | some q => decide (256 < (q.expseq - x.2).toNat) && decide ((q.expseq - x.2).toNat < 2 ^ 31)
    | none => false)

/-- Apply a function to each core of a launch, brought into focus. -/
def State.onLaunchCores (s : State) (id : Nat) (f : State → State) : State :=
  let here := s.core.phys
  (((s.cores.filter fun c => c.launch == id).map (·.phys)).foldl (fun (t : State) n => f (t.focusPhys n)) s).focusPhys here

/-- Every core of the launch issues its first bundle in this cycle. -/
def State.runLaunch (s : State) (l : Launch) : State :=
  let s := s.onLaunch l.id fun l => { l with state := .running, late := l.late || (l.tstart != 0 && decide (l.tstart < s.dcc)) }
  (s.onLaunchCores l.id fun t =>
    if t.core.life = .placed then (t.onCore fun c => { c with life := .running }).startQuantum else t).decision l.part

/-- PRED_NOT_DONE (R329, R330): attributed to the image entry. -/
def State.predRec (s : State) (l : Launch) (x : BitVec 12 × BitVec 32) : TrapRec :=
  let word := match (s.physical l.vf l.entry.toNat).1 with
    | some a => s.peekWord a
    | none => 0
  ⟨cPRED_NOT_DONE, l.entry, word, ofFields [(x.1.toNat, 52), (x.2.toNat, 0)], 0, none, false⟩

/-- The launch is parked whole. -/
def State.parkStart (s : State) (l : Launch) (cause : BitVec 8) : State :=
  ((s.onLaunch l.id fun l => { l with state := .parked }).onLaunchCores l.id fun t =>
    if t.core.life = .placed then t.parkAt cause false none t.dcc else t)

/-- The action of a launch that may not start. -/
def State.startAct (s : State) (l : Launch) (t : TrapRec) (replay : State → State) : State :=
  let s := s.onLaunchCores l.id fun u => u.writeTrap t
  let forward (u : State) : State := u.postForward l 0xFF t l.entry
  match s.actionFor t with
  | .kill => (forward s).killLaunch l.id t.cause
  | .replay => replay s
  | .park => s.parkStart l t.cause
  | .forward => (forward s).parkStart l t.cause

/-- The sections of a launch that waits to start are copied again. -/
def State.recopy (s : State) (l : Launch) : State :=
  (s.onLaunch l.id fun l => { l with bad := none }).onLaunchCores l.id fun t =>
    if t.core.life = .placed then
      let x := t.launchStore l
      x.2.onCore fun c => { c with ls := x.1 }
    else t

/-- A trap at the start of a launch. A replay makes the check again after 72 cycles. -/
def State.startTrap (s : State) (l : Launch) (t : TrapRec) : State :=
  let here := s.core.phys
  let s := s.focusOn fun c => c.launch == l.id
  let later (u : State) : State := (u.recopy l).at_ (s.dcc + 72) (ordLate 448) .chip (.tstartCheck l.id)
  (s.startAct l t fun u =>
    match u.countReplay with
    | (true, v) => later v
    | (false, v) => v.startAct l (livelockOf t) later).focusPhys here

/-- At its start the launch has what its placement met, and checks every predecessor. -/
def State.startCheck (s : State) (l : Launch) : State :=
  match l.bad with
  | some b => s.startTrap l (s.startPoison l b)
  | none =>
    match l.preds.find? fun x => !s.predDone x with
    | none => s.runLaunch l
    | some x => s.startTrap l (s.predRec l x)

def execTstartCheck (launch : Nat) (s : State) : Out :=
  .next (match s.launchOf launch with
    | some l => if l.state = .placing then s.startCheck l else s
    | none => s)

/-- Every core of the launch is loaded. One with a start time waits for it; one that is late starts now. -/
def execLaunchStart (launch : Nat) (s : State) : Out :=
  .next (match s.launchOf launch with
    | some l =>
      if l.state ≠ .placing then s
      else if s.dcc < l.tstart then s.at_ l.tstart (ordLate 448) .chip (.tstartCheck launch)
      else s.startCheck l
    | none => s)

/-- May a launch that was parked before its start go on: its predecessors are done, and its partition has the cores (R326, R331)? -/
def State.resumable (s : State) (l : Launch) : Bool :=
  l.bad.isNone && l.preds.all s.predDone && decide (l.n ≤ (s.enabled l.part).length)

/-- A parked launch whose predecessors are all done goes on, and its completion carries LATE (R331). -/
def State.resumeLaunch (s : State) (l : Launch) : State :=
  let s : State := { s with saved := s.saved.map fun (c : Core) =>
    if c.launch == l.id && c.life == .parked then { c with life := .saved, short := false } else c }
  ((s.onCores fun c =>
    if c.launch == l.id && c.life == .saving then { c with stop := c.stop.map fun x => { x with park := false }, short := false } else c).onLaunch
    l.id fun l => { l with state := .running, late := l.late || !l.preds.isEmpty }).decision l.part

def execPredDoneResume (launch : Nat) (s : State) : Out :=
  .next (match s.launchOf launch with
    | some l => if l.state = .parked ∧ s.resumable l = true then s.resumeLaunch l else s
    | none => s)

/-! Contracts (R314 to R316). -/

def Contract.startOf (c : Contract) (k : Nat) : Nat := c.phase + k * c.period

/-- The first period that starts at or after a cycle. -/
def Contract.firstPeriod (c : Contract) (t : Nat) : Nat :=
  if t ≤ c.phase then 0 else (t - c.phase + c.period - 1) / c.period

def State.onContract (s : State) (key : Nat) (f : Contract → Contract) : State :=
  s.onDisp fun d =>
    match SMap.find key d.contracts with
    | some c => { d with contracts := SMap.put key (f c) d.contracts }
    | none => d

/-- A contract ends: its running launches go on best-effort, those not released yet are dropped (DESIGN CHOICE, log entry 23). -/
def State.endContract (s : State) (p : BitVec 4) (cid : BitVec 6) : State :=
  let mine (l : Launch) : Bool := l.part == p && l.cid == cid
  let drop := s.disp.launches.filter fun l => mine l && l.state == .waiting && !l.released
  let t := drop.foldl (fun (t : State) l => t.recErr l.vf l.queue.toNat l.seq.toNat reasonNOCONTRACT) s
  let t := t.onDisp fun d =>
    { d with
      launches := (d.launches.filter fun l => !(mine l && l.state == .waiting && !l.released)).map fun (l : Launch) =>
        if mine l then { l with demoted := true } else l
      contracts := d.contracts.map fun e =>
        if e.1 = contractKey p cid then (e.1, { e.2 with valid := false, adm := false, withdraw := false, left := 0 }) else e }
  t.decision p

/-- Release the oldest invocation that is not running; behind a job that still runs it waits with its new deadline. -/
def State.releaseJob (s : State) (p : BitVec 4) (cid : BitVec 6) (d : Nat) : State :=
  let mine (l : Launch) : Bool := l.part == p && l.cid == cid && !l.demoted && l.state != .done
  let busy := s.disp.launches.any fun l => mine l && l.released
  match s.disp.launches.find? fun l => mine l && !l.released with
  | none => s
  | some l =>
    let t := s.onLaunch l.id fun l => { l with deadline := some d }
    if busy then t
    else (t.onLaunch l.id fun l => { l with released := true }).at_ d (ordDecide + 10) .chip (.deadlineMiss l.id)

def execPeriodStart (part : BitVec 4) (cid : BitVec 6) (s : State) : Out :=
  .next (match SMap.find (contractKey part cid) s.disp.contracts with
    | none => s
    | some c =>
      if c.withdraw then s.endContract part cid
      else if !c.adm then s
      else
        let k := c.firstPeriod s.dcc
        let t := s.onContract (contractKey part cid) fun c => { c with left := c.budget, k := k }
        let t := t.releaseJob part cid (c.startOf k + c.deadline)
        (t.at_ (c.startOf (k + 1)) (ordLate 448) .chip (.periodStart part cid)).decision part)

/-- The launch whose budget a core uses in the present cycle (R316) (DESIGN CHOICE, log entry 46). -/
def Core.charged (c : Core) (dcc : Nat) : Option Nat :=
  let next := (c.stop.bind fun x => x.incoming).map (·.1)
  match c.life with
  | .running | .placed => some c.launch
  | .saving => if c.stop.any fun x => decide (x.at_ ≤ dcc) then next else some c.launch
  | .idle | .halted => next
  | .killed | .saved | .parked => none

/-- Cores that use a contract's budget. -/
def State.users (s : State) (key : Nat) : Nat :=
  (s.cores.filter fun c =>
    match (c.charged s.dcc).bind s.launchOf with
    | some l => contractKey l.part l.cid == key && l.cid != 63 && !l.demoted
    | none => false).length

/-- The charge of one cycle, on every contract with budget left. -/
def State.charge (s : State) : State :=
  s.disp.contracts.foldl (fun (t : State) e =>
    let n := s.users e.1
    if e.2.left = 0 ∨ n = 0 then t
    else
      let t := t.onContract e.1 fun c => { c with left := c.left - n }
      if e.2.left ≤ n then
        t.at_ s.dcc (ordDecide - 10) .chip (.budgetExhausted (BitVec.ofNat 4 (e.1 / 64)) (BitVec.ofNat 6 (e.1 % 64)))
      else t) s

/-- The budget is used up: the contract's contexts run best-effort for the rest of the period. -/
def execBudgetExhausted (part : BitVec 4) (cid : BitVec 6) (s : State) : Out :=
  .next (match SMap.find (contractKey part cid) s.disp.contracts with
    | none => s
    | some c =>
      let here := s.core.phys
      let t := s.onContract (contractKey part cid) fun c => { c with bovr := c.bovr + 1 }
      let t := t.post (t.partVf part) recBUDGET false [cid.setWidth 64, BitVec.ofNat 64 c.k]
      let ids := (t.disp.launches.filter fun l => l.part == part && l.cid == cid).map (·.id)
      let t := ids.foldl (fun (t : State) id =>
        t.onLaunchCores id fun u => if u.core.life = .running then u.startQuantum else u) t
      (t.focusPhys here).decision part)

/-- A job that is not complete by its deadline runs on, and the host is told. -/
def execDeadlineMiss (launch : Nat) (s : State) : Out :=
  .next (match s.launchOf launch with
    | none => s
    | some l =>
      match l.deadline, SMap.find (contractKey l.part l.cid) s.disp.contracts with
      | some d, some c =>
        if l.state = .done ∨ s.dcc < d then s
        else
          s.post l.vf recDEADLINE false
            [l.cid.setWidth 64, l.seq.setWidth 64, BitVec.ofNat 64 ((d - c.deadline - c.phase) / c.period)]
      | _, _ => s)

/-- The admission test (R315), in exact arithmetic. -/
def State.admits (s : State) (p : BitVec 4) (key : Nat) (c : Contract) : Bool :=
  let n := (s.enabled p).length
  let others := (s.admitted p).filter fun e => e.1 != key
  decide (1 ≤ c.ncore) && decide (c.ncore ≤ n) && decide (4096 ≤ c.period) && decide (1 ≤ c.deadline) && decide (1 ≤ c.lmax) &&
    decide (c.deadline ≤ c.period) && decide (ceilDiv c.budget c.ncore + 2600 ≤ c.deadline) &&
    decide (densitySum others + c.density ≤ s.densityBound p)

def execContractWrite (part : FromNode (BitVec 4)) (cid : BitVec 6) (w0 w1 w2 w3 w4 w5 : Word) (s : State) : Out :=
  let key := contractKey part.val cid
  let old := SMap.find key s.disp.contracts
  let c : Contract :=
    { phase := w0.toNat, period := wfield w1 39 0, budget := wfield w2 39 0, deadline := wfield w3 39 0,
      ncore := wfield w4 28 24, lmax := wfield w4 23 0, valid := w5.getLsbD 63, adm := false,
      bovr := (old.map (·.bovr)).getD 0, left := (old.map (·.left)).getD 0, k := (old.map (·.k)).getD 0, withdraw := false }
  .next (s.managed part.node (if cid = 63 then s
    else if !c.valid then
      (if old.any fun o => o.adm then s.withdraw key
       else s.onDisp fun d => { d with contracts := SMap.put key c d.contracts })
    else
      let ok := s.admits part.val key c
      let put (ok : Bool) (s : State) : State := s.onDisp fun d =>
        { d with contracts := SMap.put key { c with adm := ok } d.contracts }
      let t := s.cancel fun e => e.act == .periodStart part.val cid
      if ok then
        let u := (put true t).at_ (c.startOf (c.firstPeriod s.dcc)) (ordLate 448) .chip (.periodStart part.val cid)
        u.postAdmit part.val cid.toNat true (u.admitted part.val)
      else
        let u := (put false t).endContract part.val cid
        u.postAdmit part.val cid.toNat false (u.admitted part.val)))

end Sys2Proof.Machine
end

