-- ==== Sys2Proof/Machine/Front.lean ====
section
/-! DEFINITION. The invocation front end: queues, notify words and the scanner (R302 to R306), resident models and relocation
(R307, R310), extension records (R312), and the resume word (R332). -/

namespace Sys2Proof.Machine

/-! Queues (R302, R303). -/

def QDesc.clear : QDesc := ⟨false, false, 0, 0, 0, 0, 0, 0⟩

def State.queue (s : State) (q : Nat) : QDesc := SMap.get QDesc.clear q s.disp.queues

def State.onQueue (s : State) (q : Nat) (f : QDesc → QDesc) : State :=
  s.onDisp fun d => { d with queues := SMap.set QDesc.clear q (f (SMap.get QDesc.clear q d.queues)) d.queues }

/-- Bit q of the pending vector. -/
def QDesc.pending (d : QDesc) : Bool := d.en && !d.stop && d.pi != d.ci

/-- The partition of a queue. -/
def queuePart (q : BitVec 12) : BitVec 4 := BitVec.ofNat 4 (q.toNat / 256)

/-- More records than the ring holds stop the queue, enabled or not. One that has stopped is not judged again before the host rewrites
its descriptor. -/
def State.checkOverrun (s : State) (q : BitVec 12) : State :=
  let d := s.queue q.toNat
  if !d.stop && decide (2 ^ d.lgn < (d.pi - d.ci).toNat) then
    (s.onQueue q.toNat fun d => { d with stop := true }).recErr d.vf q.toNat 0 reasonOVERRUN
  else s

/-- Is the owning function's host the node that stores? -/
def State.ownsQueue (s : State) (q : BitVec 12) (node : BitVec 11) : Bool :=
  (SMap.find (s.queue q.toNat).vf.toNat s.fabric.vfs).any fun v => v.hnode == node

def execNotifyStore (q : BitVec 12) (v : Word) (node : BitVec 11) (s : State) : Out :=
  .next (if s.shut then s
    else if !s.ownsQueue q node then s.log logNotifyDropped (q.toNat + 2 ^ 12 * node.toNat)
    else (s.onQueue q.toNat fun d => { d with pi := v.setWidth 32 }).checkOverrun q)

/-- A host write of a descriptor clears STOP; the consumer index stays. -/
def execQueueDescriptorWrite (q : FromNode (BitVec 12)) (w0 w1 : Word) (s : State) : Out :=
  .next (s.managed q.node ((s.onQueue q.val.toNat fun d =>
    { d with
      en := w0.getLsbD 63, stop := false, lgn := wfield w0 56 52, base := wfield w0 51 12 * 4096
      vf := BitVec.ofNat 7 (wfield w0 6 0), expseq := BitVec.ofNat 32 (wfield w1 63 32) }).checkOverrun q.val))

/-! Records (R305, R312). -/

def recordOf (bs : List Byte) : CmdRec :=
  let w (i : Nat) : Word := leWord ((bs.drop (8 * i)).take 8)
  ⟨w 0, w 1, w 2, w 3, w 4, w 5, w 6, w 7⟩

def recSeq (r : CmdRec) : BitVec 32 := BitVec.ofNat 32 (wfield r.w0 63 32)
def recExt (r : CmdRec) : Bool := r.w0.getLsbD 31
def recSlot (r : CmdRec) : BitVec 10 := BitVec.ofNat 10 (wfield r.w0 25 16)
def recCid (r : CmdRec) : BitVec 6 := BitVec.ofNat 6 (wfield r.w0 15 10)
def recNbuf (r : CmdRec) : Nat := wfield r.w0 28 26
def recBufs (r : CmdRec) : List Word := [r.w2, r.w3, r.w4, r.w5, r.w6, r.w7]

/-- The checks of an invocation record. -/
def invocationOk (r : CmdRec) : Bool :=
  clearOf r.w0 [(29, 29), (9, 0)] && decide (recNbuf r ≤ 6) && ((recBufs r).drop (recNbuf r)).all (· == 0) &&
    (recBufs r).all fun b => wfield b 59 56 == 0

/-- The checks of its extension. -/
def extensionOk (q : BitVec 12) (r x : CmdRec) : Bool :=
  recSeq x == recSeq r && wfield x.w0 31 3 == 0 && decide (wfield x.w0 2 0 ≤ 6) &&
    ((recBufs x).take (wfield x.w0 2 0)).all fun p => wfield p 51 32 == 0 && wfield p 63 60 == q.toNat / 256

/-- A record of a ring as the dispatcher reads it at its home slice; none where it meets a poisoned word. -/
def State.fetchRecord (s : State) (d : QDesc) (i : BitVec 32) : Option CmdRec × State :=
  let x := s.dispRead (d.base + i.toNat % 2 ^ d.lgn * 64) 64
  (if x.1.all Prod.snd then some (recordOf (x.1.map Prod.fst)) else none, x.2)

/-! From an invocation to a launch. -/

/-- A relocated buffer address (R310). -/
def State.relocate (s : State) (vf : BitVec 7) (b : Word) : Word :=
  let rb := wfield b 63 60
  let v := wfield b 55 0
  if rb = 0 then BitVec.ofNat 64 v
  else BitVec.ofNat 64 (((SMap.get 0 (vf.toNat * 16 + rb) s.disp.rbase).toNat + v) % 2 ^ 56)

def predOf (p : Word) : BitVec 12 × BitVec 32 := (BitVec.ofNat 12 (wfield p 63 52), BitVec.ofNat 32 (wfield p 31 0))

/-- The invocation is a launch, queued under its contract or ready. -/
def State.makeLaunch (s : State) (v : Invocation) : State :=
  let r := v.rec_
  let part := queuePart v.queue
  let vf := (s.queue v.queue.toNat).vf
  let tstart := (v.ext.map fun x => x.w1.toNat).getD 0
  let l : Launch :=
    { id := s.disp.nextLaunch, part := part, vf := vf, queue := v.queue, seq := recSeq r, cid := recCid r, slot := recSlot r,
      n := 0, codeva := 0, entry := 0, codelen := 0, paramv := r.w0.getLsbD 30, param := r.w1, shape := 3,
      bufs := (List.range 6).map fun i => if i < recNbuf r then s.relocate vf ((recBufs r).getD i 0) else 0,
      overrides := 0, ovmask := 0, groups := [], pools := [], sections := [],
      preds := (v.ext.map fun x => ((recBufs x).take (wfield x.w0 2 0)).map predOf).getD [], tstart := tstart,
      state := .waiting, late := false, cause := 0, halted := [], lastHalt := 0, deadline := none, released := false,
      demoted := false, place := [], bad := none }
  let t := s.onDisp fun d => { d with launches := d.launches ++ [l], nextLaunch := d.nextLaunch + 1 }
  if tstart ≤ s.dcc + 2600 then t.decision part else t.at_ (tstart - 2600) ordDecide .chip (.schedulingDecision part)

/-- Does an invocation name a CID without an admitted contract (R313)? -/
def State.lacksContract (s : State) (v : Invocation) : Bool :=
  let cid := recCid v.rec_
  cid != 63 && !((SMap.find (contractKey (queuePart v.queue) cid) s.disp.contracts).any fun c => c.adm)

/-- An invocation is dropped, and the host is told why. -/
def State.dropInvocation (s : State) (v : Invocation) (reason : Nat) : State :=
  s.recErr (s.queue v.queue.toNat).vf v.queue.toNat (recSeq v.rec_).toNat reason

/-- The checks made at fetch: the contract, then the slot (R307, R313). -/
def State.invoke (s : State) (v : Invocation) : State :=
  let part := queuePart v.queue
  let no (reason : Nat) (t : State) : State := t.dropInvocation v reason
  let slot := s.slotWord part (recSlot v.rec_)
  if s.lacksContract v then no reasonNOCONTRACT s
  else if !slot.getLsbD 63 then no reasonNOSLOT s
  else if !slot.getLsbD 62 then
    if 64 ≤ (s.part part).hold.length then no reasonHOLDFULL s
    else no reasonNOTRES (s.onPart part fun p => { p with hold := p.hold ++ [v] })
  else s.makeLaunch v

/-- The host sets RES: the held invocations of the slot proceed in fetch order. One whose contract has gone meanwhile is dropped. -/
def execResidentSlotWrite (part : FromNode (BitVec 4)) (slot : BitVec 10) (v : Word) (s : State) : Out :=
  let t := s.onDisp fun d => { d with slots := SMap.set 0 (slotKey part.val slot) v d.slots }
  let mine (x : Invocation) : Bool := recSlot x.rec_ == slot
  .next (s.managed part.node (if v.getLsbD 63 && v.getLsbD 62 then
      let go := (s.part part.val).hold.filter mine
      go.foldl (fun (t : State) x => if t.lacksContract x then t.dropInvocation x reasonNOCONTRACT else t.makeLaunch x)
        (t.onPart part.val fun p => { p with hold := p.hold.filter fun x => !mine x })
    else t))

/-! The scanner (R304, R306). -/

/-- The lowest set pending bit at or above P; if none, the lowest. -/
def State.nextQueue (s : State) : Option Nat :=
  let set := (s.disp.queues.filter fun e => e.2.pending).map (·.1)
  (set.find? fun q => decide (s.disp.scanP.toNat ≤ q)).orElse fun _ => set.head?

/-- A record in sequence: EXPSEQ advances, and the record is checked. -/
def State.acceptRecord (s : State) (q : BitVec 12) (r : CmdRec) (x : Option CmdRec) : State :=
  let d := s.queue q.toNat
  let t := s.onQueue q.toNat fun d => { d with expseq := d.expseq + 1 }
  let ok := invocationOk r && (!recExt r || x.any (extensionOk q r))
  if ok then t.invoke ⟨q, r, if recExt r then x else none⟩ else t.recErr d.vf q.toNat (recSeq r).toNat reasonMALFORMED

/-- Fetch from one queue. A function that is not valid takes no invocation (R369). -/
def State.scan (s : State) (q : BitVec 12) : State :=
  let d := s.queue q.toNat
  let r := s.fetchRecord d d.ci
  let ext := r.1.any recExt
  let x := if ext then r.2.fetchRecord d (d.ci + 1) else (none, r.2)
  let t := (x.2.onQueue q.toNat fun d => { d with ci := d.ci + (if ext then 2 else 1) }).onDisp fun e => { e with scanP := q + 1 }
  let valid := (SMap.find d.vf.toNat s.fabric.vfs).any fun v => v.valid
  let u := if !valid then t
    else
      match r.1 with
      | none =>
        (t.onQueue q.toNat fun d => { d with expseq := d.expseq + 1 }).recErr d.vf q.toNat d.expseq.toNat reasonMALFORMED
      | some r =>
        if recSeq r = d.expseq then t.acceptRecord q r x.1
        else
          (t.onQueue q.toNat fun d => { d with stop := true }).post d.vf recSEQ_GAP false
            [ofFields [((recSeq r).toNat, 32), (d.expseq.toNat, 0)], q.setWidth 64]
  u.checkOverrun q

def execScannerTick (s : State) : Out :=
  let t := s.at_ (s.dcc + 4) 0 .chip .scannerTick
  .next (if s.himos.held then t
    else
      match s.nextQueue with
      | some q => t.scan (BitVec.ofNat 12 q)
      | none => t)

/-! The resume word (R332). -/

/-- Is the context parked, or stopping to be parked? -/
def Core.isParked (c : Core) : Bool :=
  c.life == .parked || c.life == .saving && c.stop.any fun x => x.park && !x.kill

/-- Contexts of a launch that a resume word names. -/
def State.parkedOf (s : State) (id lcore : Nat) : List Core :=
  (s.cores ++ s.saved).filter fun c => c.launch == id && c.isParked && (lcore == 0xFF || c.lcore == lcore)

/-- The context is ready again. -/
def State.unpark (s : State) (c : Core) : State :=
  s.onContexts fun d =>
    if d.isCtx c.launch c.lcore && d.isParked then
      { d with life := if d.life = .parked then .saved else d.life, stop := d.stop.map fun x => { x with park := false }, short := false }
    else d

/-- The trap a parked context stands at. -/
def Core.parkedTrap (c : Core) : TrapRec :=
  ⟨c.stat.trapc, c.stat.trapv0, c.stat.trapv1, c.stat.trapv2, c.stat.trapv3, none, false⟩

/-- REPLAY of a parked context: an entry counts when it is entered again; a bundle is counted here. -/
def State.resumeCtx (s : State) (l : Launch) (c : Core) : State :=
  let r := c.replay
  if c.short || r.repend || r.access.isSome || r.cause == cPREEMPT || r.cause == cREGION_LIVELOCK then s.unpark c
  else
    let n := if r.at_ = c.nextPc then r.count else 0
    if n.toNat + 1 ≤ c.arch.csr.relim.toNat then
      (s.unpark c).onContexts fun d =>
        if d.isCtx c.launch c.lcore then { d with replay := { d.replay with at_ := d.nextPc, count := n + 1 } } else d
    else
      let t := livelockOf c.parkedTrap
      let s := s.onContexts fun d =>
        if d.isCtx c.launch c.lcore then
          { d with
            stat := { d.stat with trapc := t.cause, trapv2 := t.v2 }
            replay := { d.replay with cause := t.cause } }
        else d
      let i := cREGION_LIVELOCK.toNat
      let w := if l.ovmask.getLsbD i then l.overrides else (s.part l.part).actdef
      match actionOfCode (wfield w (2 * i + 1) (2 * i)) with
      | .replay => s.unpark c
      | .park => s
      | .forward => s.postForward l c.lcore t c.savedPc
      | .kill => (s.postForward l c.lcore t c.savedPc).killLaunch l.id t.cause

/-- A launch parked at its start makes its check again. -/
def State.resumeStart (s : State) (l : Launch) : State :=
  let s := s.onLaunch l.id fun l => { l with bad := none }
  match l.preds.find? fun x => !s.predDone x with
  | none => if s.resumable { l with bad := none } then s.resumeLaunch { l with bad := none } else s
  | some x =>
    let i := cPRED_NOT_DONE.toNat
    let w := if l.ovmask.getLsbD i then l.overrides else (s.part l.part).actdef
    match actionOfCode (wfield w (2 * i + 1) (2 * i)) with
    | .forward => s.postForward l 0xFF (s.predRec l x) l.entry
    | .park | .replay => s
    | .kill => (s.postForward l 0xFF (s.predRec l x) l.entry).killLaunch l.id cPRED_NOT_DONE

/-- A launch that was parked before it had a context: it is killed, or its block is read again. -/
def State.resumeBlock (s : State) (l : Launch) (go : Bool) : State :=
  match l.bad with
  | none => s
  | some b =>
    if go then (s.onLaunch l.id fun l => { l with state := .waiting, bad := none }).decision l.part
    else (s.postForward l 0xFF (s.startPoison l b) l.entry).killLaunch l.id cPOISON

/-- A word that names no parked context is ignored. A launch that needs more cores than its partition has stays parked, unless it is
killed (R326). -/
def execResumeWord (part : FromNode (BitVec 4)) (v : Word) (s : State) : Out :=
  let q := BitVec.ofNat 12 (wfield v 31 20)
  let found := s.disp.launches.find? fun l =>
    l.part == part.val && l.queue == q && l.seq.toNat == wfield v 63 32 && l.state != .done && l.state != .killed
  .next (s.managed part.node (match found with
    | none => s
    | some l =>
      match s.parkedOf l.id (wfield v 15 8) with
      | [] => if l.state = .parked ∧ wfield v 15 8 = 0xFF then s.resumeBlock l (v.getLsbD 0) else s
      | c :: rest =>
        if !v.getLsbD 0 then
          let cause := if c.short || c.replay.cause == cPREEMPT then cPREEMPT else c.stat.trapc
          (s.postForward l c.lcore { c.parkedTrap with cause := cause } c.savedPc).killLaunch l.id cause
        else if (s.enabled part.val).length < l.n then s
        else if l.state = .parked then s.resumeStart l
        else ((c :: rest).foldl (fun (t : State) d => t.resumeCtx l d) s).decision part.val))

/-! A restore into another partition (R325). The spec has the host direct it and gives no register for it: the event that asks for it
names the launch, the partition and the function (DESIGN CHOICE, log entry 51). -/

/-- The context in its new partition: V is clear in h1 to h15, and a region-start state keeps its own for the re-entry (R20). -/
def Core.moveTo (c : Core) (part : BitVec 4) (vf : BitVec 7) : Core :=
  let clear (h : Vector Handle 16) : Vector Handle 16 :=
    Vector.ofFn fun i => if i.val = 0 then h.get i else { h.get i with v := false }
  { c with
    part := part, vf := vf
    arch := { c.arch with h := clear c.arch.h }, pre := { c.pre with h := clear c.pre.h }
    life := if c.life = .parked ∧ c.short = true then .saved else c.life, short := false }

/-- The pool ranges of a launch as another function maps them; none where one is not mapped. -/
def State.poolsUnder (s : State) (vf : BitVec 7) (ps : List Pool) : Option (List Pool) × State :=
  ps.foldl (fun (x : Option (List Pool) × State) p =>
    let r := x.2.physical vf p.va
    if p.len = 0 then (x.1.map fun l => l ++ [p], x.2) else (x.1.bind fun l => r.1.map fun a => l ++ [{ p with ps := a }], r.2)) (some [], s)

/-- May a launch be restored elsewhere: every context of it is saved and has nothing outstanding, and the target has the cores? -/
def State.movable (s : State) (l : Launch) (dst : BitVec 4) (vf : BitVec 7) : Bool :=
  (l.state == .running || l.state == .parked) && vf.toNat / 6 == dst.toNat && decide (l.n ≤ (s.enabled dst).length) &&
    (s.cores.all fun c => c.launch != l.id || c.life == .halted) &&
    (s.saved.filter fun c => c.launch == l.id).all fun c => s.quiet c && (c.life == .saved || c.life == .parked)

/-- The restore. The launch runs best-effort there: the contract that it named is one of the partition that it leaves. The home dies of its
groups stay (R140). -/
def State.restoreLaunch (s : State) (src : BitVec 4) (queue : BitVec 12) (seq : BitVec 32) (dst : BitVec 4) (vf : BitVec 7) : State :=
  match s.disp.launches.find? fun l => l.part == src && l.queue == queue && l.seq == seq with
  | none => s
  | some l =>
    match s.poolsUnder vf l.pools with
    | (none, t) => t
    | (some ps, t) =>
      if t.movable l dst vf then
        let m := { l with part := dst, vf := vf, pools := ps, demoted := true }
        let u := (t.dropRuns (t.ownRuns l)).onLaunch l.id fun _ => m
        let u := u.dropRuns (u.ownRuns m)
        ({ u with saved := u.saved.map fun (c : Core) => if c.launch = l.id then c.moveTo dst vf else c }.decision src).decision dst
      else t

end Sys2Proof.Machine
end

