-- ==== Sys2Proof/Machine/Fabric.lean ====
section
/-! DEFINITION. The fabric: links and flits (R359 to R361), acknowledgements and fences (R352, R363, R367), the rank table
(R366), virtual functions (R369), inbound transactions (R340, R362, R365, R370), management writes (R362) and failed
second-tier devices (R371). -/

namespace Sys2Proof.Machine

/-- Codes of the event log for the fabric (R361, R362, R370, R376, R377). -/
def logRejected : Nat := 0x0303
def logBusy : Nat := 0x0304
def logDegrade : Nat := 0x0401
def logLinkDown : Nat := 0x0402

/-! Links (R359 to R361). -/

/-- One bit of the CRC-64 register. -/
def crc64Bit (c : BitVec 64) : BitVec 64 := if c.msb then (c <<< 1) ^^^ 0x42F0E1EBA9EA3693 else c <<< 1

def crc64Byte (c : BitVec 64) (b : Byte) : BitVec 64 :=
  (List.range 8).foldl (fun r _ => crc64Bit r) (c ^^^ (b.setWidth 64 <<< 56))

def crc64 (bs : List Byte) : BitVec 64 := bs.foldl crc64Byte 0

/-- Bytes 0 to 247 of a flit. -/
def flitBytes (f : Flit) : List Byte :=
  leBytes 8 (ofFields [(f.seq.toNat, 52), (f.ack.toNat, 40), (bit f.nak, 39), (channelCode f.ch, 37)]).toNat ++
    (f.payload ++ List.replicate 240 0).take 240

def flitGood (f : Flit) : Bool := f.lcrc == crc64 (flitBytes f)

/-- A flit with its check. -/
def flitSeal (f : Flit) : Flit := { f with lcrc := crc64 (flitBytes f) }

/-! Sending (R359, R360). A lane carries 28 GB/s and a cycle is 0.4 ns, so that a link carries 7 × lanes / 160
flits of 256 bytes in a cycle. -/

/-- Does a flit time of a link of this width begin in the cycle? -/
def flitTime (width dcc : Nat) : Bool := decide (7 * width * dcc / 160 < 7 * width * (dcc + 1) / 160)

/-- What a link sends next: what waits, the management channel first (R362). While the host and peer channels are closed it sends nothing
else (R342, R380). -/
def nextParcel (shut : Bool) (l : List Parcel) : Option Parcel :=
  (l.find? fun p => p.ch == .mgmt).orElse fun _ => if shut then none else l.head?

/-- The bytes of a parcel that the next flit takes. -/
def Parcel.piece (p : Parcel) : List Byte := (p.bytes.drop p.gone).take 240

/-- The queue when the next flit has taken its piece of a parcel. -/
def tookPiece (p : Parcel) (l : List Parcel) : List Parcel :=
  if p.bytes.length ≤ p.gone + 240 then l.erase p
  else l.takeWhile (· != p) ++ { p with gone := p.gone + 240 } :: (l.dropWhile (· != p)).drop 1

/-- A flit that is sent again has its SEQ, and the ACK and NAK of now. -/
def Link.again (l : Link) (f : Flit) : Flit := { f with ack := l.rxNext - 1, nak := l.nakHeld }

/-- One flit time: flits to be sent again go first, then what waits, and else an idle flit. While 512 flits are not acknowledged,
transactions wait and idle flits go, so that an ACK or a NAK is never held back (R359, R360) (DESIGN CHOICE, log entry 25). -/
def Link.send (l : Link) (shut : Bool) : Link :=
  match l.resend with
  | x :: rest => { l with resend := rest, tx := some (l.again x.flit), nakHeld := false }
  | [] =>
    let p := if 512 ≤ l.replay.length then none else nextParcel shut l.queue
    let f := l.again ⟨l.txNext, 0, false, (p.map Parcel.ch).getD .idle, (p.map Parcel.piece).getD [], 0⟩
    { l with
      txNext := l.txNext + 1, replay := l.replay ++ [⟨f, p⟩], tx := some f, nakHeld := false
      queue := match p with
        | some q => tookPiece q l.queue
        | none => l.queue }

/-- The flit as it stands on the wire. -/
def Link.wire (l : Link) : Option Flit := l.tx.map flitSeal

/-- Every link that is up sends in its flit times; one that has heard nothing for 4,096 cycles goes down (R359, R361). -/
def State.linkTick (s : State) : State :=
  (List.range 24).foldl (fun (t : State) i =>
    let n := BitVec.ofNat 5 i
    let t := t.onLink n fun l => if t.linkUp n && flitTime l.width t.dcc then l.send t.shut else { l with tx := none }
    if t.linkUp n && decide ((t.link n).lastRx + 4096 ≤ t.dcc) then t.at_ t.dcc (ordFabric i) .chip (.linkDown n) else t) s

/-- An ACK covers the flits up to its SEQ; a NAK has every flit after it sent again, in order. -/
def Link.acked (l : Link) (ack : BitVec 12) (nak : Bool) : Link :=
  let rest := match l.replay.findIdx? fun x => x.flit.seq == ack with
    | some i => l.replay.drop (i + 1)
    | none => l.replay
  { l with replay := rest, resend := if nak then rest else l.resend.filter rest.contains }

/-- NAKs of the last 2^20 cycles. -/
def recentNaks (l : List Nat) (dcc : Nat) : List Nat := l.filter fun t => decide (dcc < t + 2 ^ 20)

/-- The parcels of which some pieces have not been acknowledged, each once and whole. -/
def wholeParcels (last : Option Parcel) : List Parcel → List Parcel
  | [] => []
  | p :: l =>
    let q := { p with gone := 0 }
    if p.gone ≠ 0 ∧ last = some q then wholeParcels last l else q :: wholeParcels (some q) l

/-- The link goes down. The transactions of its paths that are not acknowledged are sent again on new paths, before anything else for
their nodes, and what else it had not delivered follows (R361, R363). -/
def State.takeDown (s : State) (n : BitVec 5) : State :=
  let l := s.link n
  let nodes := (s.fabric.paths.filter fun e => e.2 == n.toNat).map (·.1)
  let outs := (s.fabric.out.filter fun o => nodes.contains o.node).map fun o => o.parcel s.fabric.own
  let rest := wholeParcels none (((l.replay.filterMap Sent.parcel) ++ l.queue).filter fun p => p.txn == 0)
  let t := (s.log logLinkDown n.toNat).onLink n fun l =>
    { l with width := 0, retrain := none, naks := [], naksTx := [], replay := [], resend := [], queue := [], tx := none, nakHeld := false,
             nakWait := false, rx := [] }
  (outs ++ rest).foldl (fun (u : State) p => u.hand p)
    (t.onFabric fun b => { b with paths := b.paths.filter fun e => e.2 != n.toNat })

/-- Retrain to a width, in 25,000 cycles. -/
def State.startRetrain (s : State) (n : BitVec 5) (w : Nat) : State :=
  (s.onLink n fun l => { l with width := w, retrain := some (s.dcc + 25000), naks := [], naksTx := [] }).at_ (s.dcc + 25000)
    (ordFabric n.toNat) .chip (.linkRetrainDone n)

/-- 16 NAKs of a direction within 2^20 cycles halve the width, or take down a link at 2 lanes. -/
def State.judgeLink (s : State) (n : BitVec 5) : State :=
  let l := s.link n
  if 16 ≤ (recentNaks l.naks s.dcc).length ∨ 16 ≤ (recentNaks l.naksTx s.dcc).length then
    if l.width ≤ 2 then s.takeDown n
    else (s.log logDegrade (n.toNat + 2 ^ 8 * (l.width / 2))).startRetrain n (l.width / 2)
  else s

/-! What flits bring. The pieces of a parcel follow one another in its channel. -/

/-- Bytes of data that an operation has. -/
def wireLength (op fn : Nat) : Nat :=
  match op with
  | 1 => fn % 2 ^ 16
  | 2 => 16
  | 3 => 12
  | 4 => field fn 31 8
  | _ => 0

def combOf : Nat → CombKind
  | 0 => .add
  | 1 => .max
  | 2 => .min
  | _ => .sradd

/-- The transaction of an operation; none where the function has no meaning. -/
def wireKind (op fn : Nat) (bs : List Byte) : Option TxnKind :=
  match op with
  | 0 => some (.read (fn % 2 ^ 16))
  | 1 => some (.write bs)
  | 2 => (AmoFn.ofCode (field fn 15 8)).map fun f => .atomic f (Size.ofCode (field fn 7 0)) (leWord bs) (leWord (bs.drop 8))
  | 3 => (Rm.ofCode (field fn 18 16)).map fun rm =>
      .combine (combOf (field fn 7 0)) (BitVec.ofNat 6 (field fn 13 8)) rm (fn.testBit 20) (fn.testBit 21) (BitVec.ofNat 32 (leNat (bs.take 4)))
        (leWord (bs.drop 4)) (BitVec.ofNat 16 (field fn 39 24))
  | 5 => some .again
  | _ => none

def ansOf : Nat → Option TxnAnswer
  | 1 => some .done
  | 2 => some .rejected
  | 3 => some .resend
  | 4 => some .poisoned
  | _ => none

def ackCode : TxnAnswer → Nat
  | .done => ansDone
  | .rejected => ansRejected
  | .resend => ansResend
  | .poisoned => ansPoisoned

/-- What a whole parcel is: a transaction for the device, or an answer to one of its own. -/
def wireInstr (link : BitVec 5) (bs : List Byte) : Option Instr :=
  let w0 := leWord bs
  let w1 := leWord (bs.drop 8)
  let fn := wfield w1 39 0
  let n := wireLength (wfield w0 52 49) fn
  let data := (bs.drop 24).take n
  let crc := BitVec.ofNat 32 (leNat ((bs.drop (24 + n)).take 4))
  let tag := leWord ((bs.drop 16).take 8)
  if wfield w0 52 49 = 4 then (ansOf (field fn 7 0)).map fun a => .transactionAck tag.toNat ⟨a, crc, wfield w1 52 49⟩ data
  else
    (wireKind (wfield w0 52 49) fn data).map fun k =>
      .fabricTransaction
        { snode := BitVec.ofNat 11 (wfield w1 63 53), spart := BitVec.ofNat 4 (wfield w0 46 43)
          ch := match wfield w0 48 47 with
            | 0 => .host
            | 1 => .peer
            | 2 => .mgmt
            | _ => .idle
          cls := BitVec.ofNat 4 (wfield w0 42 39), off := BitVec.ofNat 39 (wfield w0 38 0), kind := k, crc := crc, tries := wfield w1 52 49
          link := link, stale := false, tag := tag }

/-- Is a parcel whole? -/
def wireWhole (bs : List Byte) : Bool :=
  decide (28 + wireLength (wfield (leWord bs) 52 49) (wfield (leWord (bs.drop 8)) 39 0) ≤ bs.length)

/-- The payload of a good flit. With its last piece a parcel arrives, and what it brings is done in the present cycle (DESIGN CHOICE,
log entry 25). -/
def State.takePayload (s : State) (link : BitVec 5) (f : Flit) : State :=
  let c := channelCode f.ch
  let bs := SMap.get [] c (s.link link).rx ++ (f.payload ++ List.replicate 240 0).take 240
  match f.ch with
  | .idle => s
  | .host | .peer | .mgmt =>
    if wireWhole bs then
      let t := s.onLink link fun l => { l with rx := SMap.set [] c [] l.rx }
      match wireInstr link bs with
      | some i => t.at_ t.dcc (if f.ch == .host then ordHost else ordFabric link.toNat) .chip i
      | none => t
    else s.onLink link fun l => { l with rx := SMap.set [] c bs l.rx }

/-- A flit arrives. One that fails its check, or is out of sequence, is discarded, and the next flit sent carries a NAK; every flit sent
acknowledges the good ones (DESIGN CHOICE, log entry 25). -/
def execFlitReceive (link : BitVec 5) (f : Flit) (s : State) : Out :=
  .next (if !s.linkUp link then s
    else
      let s := s.onLink link fun l => { l with lastRx := s.dcc }
      if flitGood f && f.seq == (s.link link).rxNext then
        (((s.onLink link fun l =>
          let l := { l with rxNext := l.rxNext + 1, nakWait := false }
          { l.acked f.ack f.nak with
            naksTx := if f.nak then recentNaks l.naksTx s.dcc ++ [s.dcc] else l.naksTx }).takePayload link f).judgeLink link)
      else if flitGood f && (s.link link).nakWait then s
      else
        (s.onLink link fun l =>
          { l with nakHeld := true, nakWait := true, naks := recentNaks l.naks s.dcc ++ [s.dcc] }).judgeLink link)

/-- Retraining ends: unacknowledged flits are sent again, in order. -/
def execLinkRetrainDone (link : BitVec 5) (s : State) : Out :=
  .next (if (s.link link).retrain = some s.dcc then
      s.onLink link fun l => { l with retrain := none, resend := l.replay, lastRx := s.dcc }
    else s)

/-- No flit has come for 4,096 cycles. -/
def execLinkDown (link : BitVec 5) (s : State) : Out :=
  .next (if s.linkUp link && decide ((s.link link).lastRx + 4096 ≤ s.dcc) then s.takeDown link else s)

/-! Acknowledgements of the device's own transactions (R291, R363). -/

/-- The RTLOADs whose transactions have all been acknowledged or dropped are acknowledged to their writers (R366). -/
def State.settleRtload (s : State) : State :=
  let waits (x : Nat × BitVec 11 × List Nat) : Bool := s.fabric.out.any fun o => x.2.2.contains o.id
  (s.fabric.rtwait.filter fun x => !waits x).foldl (fun (t : State) x => t.acknowledge x.2.1 .mgmt)
    (s.onFabric fun b => { b with rtwait := b.rtwait.filter waits })

/-- The answer to a context's access: an LD or AMO gets its value, a store or AMOP has performed. Without its data it is a poisoned
word, which the record names (R329, R340). -/
def State.answered (s : State) (a : Access) (rejected : Bool) (data : List Byte) : State :=
  if rejected then s.refuse a
  else
    let b := { a with
      performed := true
      value := if data.length = a.data.length then some data else none
      poison := if data.length = a.data.length then none else some (a.pa / 8 * 8)
      back := max s.dcc (a.issued + returnTime) }
    let back := max s.dcc (a.issued + returnTime)
    match a.kind with
    | .ld .. => (s.setAccess b).at_ back ordResult s.me (.ldReturn a.id)
    | .amo .. => (s.setAccess b).at_ back ordResult s.me (.amoReturn a.id)
    | _ => s.dropAccess a.id

/-- The answer to an engine's read of a peer's line; without its data it is poisoned (R340). -/
def State.engineAnswer (s : State) (txn : Nat) (rejected : Bool) (data : List Byte) : State :=
  let got : PeerGot := if rejected then .rejected else if data.length = 128 then .data data else .poisoned
  s.onEng fun e =>
    { e with runs := e.runs.map fun (r : Run) =>
        { r with peers := r.peers.map fun p => if p.txn = txn then { p with got := some got } else p } }

/-- The fabric address of a transaction, as its device names it. -/
def OutTxn.addr (o : OutTxn) : Nat := 0x8000000000000 + o.node * 2 ^ 39 + o.off

/-- The flags of a combine that its destination has applied come with the answer, and are open where that is lost (R56, R221, R340)
(DESIGN CHOICE, log entry 25). -/
def State.ackFlags (s : State) (o : OutTxn) (p : PubSet) (data : List Byte) : State :=
  match o.kind with
  | .combine .. =>
    match data with
    | b :: _ => s.setFlags p (b.setWidth 8)
    | [] => let r := s.freeBytes 1; r.2.setFlags p ((r.1.headD 0).setWidth 8)
  | .read _ | .write _ | .atomic .. | .again => s

/-- A transaction is over: acknowledged, rejected, or dropped with its device. -/
def State.resolved (s : State) (o : OutTxn) (rejected : Bool) (data : List Byte) : State :=
  let s := s.onFabric fun b => { b with out := b.out.filter fun x => x.id != o.id }
  let s := match s.pubs.find? fun p => p.id == o.access with
    | some p =>
      let s := if rejected then s else s.ackFlags o p data
      let t : State := { s with pubs := s.pubs.map fun (x : PubSet) =>
        if x.id = p.id ∧ rejected = true then { x with fenced := x.fenced.orElse (fun _ => some o.addr) } else x }
      match t.pubs.find? fun (x : PubSet) => x.id == p.id with
      | some q => if q.applied then t.settlePub q else t
      | none => t
    | none =>
      s.withCtx o.launch o.lcore fun t =>
        match t.findAccess o.access with
        | some a => t.answered a rejected data
        | none => t.engineAnswer o.id rejected data
  s.settleRtload

/-- A transaction that its destination asks for again is sent again, before the later ones of its channel that have not gone (R340,
R363). -/
def State.sendAgain (s : State) (o : OutTxn) : State :=
  let p := { o with bad := false, tries := o.tries + 1 }
  (s.onFabric fun b => { b with out := b.out.map fun (x : OutTxn) => if x.id = o.id then p else x }).handFirst (p.parcel s.fabric.own)

/-- Does the check of an answer hold (R340)? -/
def State.checkAnswer (s : State) (o : OutTxn) (a : TxnReply) (data : List Byte) : Bool :=
  a.crc == wireCrc { dst := s.fabric.own, src := o.node, part := o.part.toNat, cls := o.cls, off := o.off, tag := o.id, tries := a.tries
                     ch := o.ch } (answerParts (ackCode a.verdict) data)

/-- Ask for an answer again. -/
def State.askAgain (s : State) (o : OutTxn) : State := s.hand (wireParcel { o.head s.fabric.own with tries := 1 } (txnParts .again) 0 false)

/-- An answer comes. One that fails its check is asked for again, up to three times; then its transaction is over without it, so that a
read gets poison (R340). -/
def execTransactionAck (id : Nat) (a : TxnReply) (data : List Byte) (s : State) : Out :=
  .next (match s.fabric.out.find? fun o => o.id == id with
    | some o =>
      if s.checkAnswer o a data then
        match a.verdict with
        | .done => s.resolved o false data
        | .poisoned => s.resolved o false []
        | .rejected => s.resolved o true []
        | .resend => s.sendAgain o
      else if a.tries < 3 then s.askAgain o
      else s.resolved o false []
    | none => s)

/-! Fencing (R352, R367). -/

/-- A fabric address of a held write of the open entry whose device is fenced. -/
def State.heldFenced (s : State) : Option Nat :=
  let h := s.core.held
  ((h.sb.map (·.1)) ++ (h.lines.map (·.1)) ++ (h.log.filter Combine.memory).map (·.addr)).find? fun a =>
    s.fencedAt s.core.part a

/-- FENCED_PEER for a held write, about its region (DEDUCED, log entry 81). -/
def State.fenceHeld (s : State) : State :=
  if s.inRegion && s.core.life == .running then
    match s.heldFenced with
    | some a => (s.lookUp s.core.part a).takeTrap (s.regionRec cFENCED_PEER (BitVec.ofNat 64 a))
    | none => s
  else s

/-- Is it a transaction of the node, on a channel that a fence closes? -/
def fromFenced (i : Instr) (node : Nat) : Bool :=
  match i with
  | .fabricTransaction t => t.snode.toNat == node && t.ch != .mgmt
  | _ => false

/-- The node is fenced from this cycle on. What has come of it and waits, for a line or behind another, is dropped (R352, R367). -/
def State.fence (s : State) (node : Nat) : State :=
  let keep (l : List Txn) : List Txn := l.filter fun t => !fromFenced (.fabricTransaction t) node
  let s := { s.onFabric fun b =>
      { b with
        fenced := if b.fenced.contains node then b.fenced else b.fenced ++ [node]
        heads := keep b.heads, behind := keep b.behind } with
    agenda := s.agenda.filter fun e => !fromFenced e.act node }
  let s := (s.fabric.out.filter fun o => o.node == node).foldl (fun (t : State) o => t.resolved o true []) s
  let here := s.core.phys
  ((s.cores.map (·.phys)).foldl (fun (t : State) p => (t.focusPhys p).fenceHeld) s).focusPhys here

/-- The fence word. What was sent before the acknowledgement of a removal comes marked as stale. -/
def execFenceWordWrite (v : FromNode Word) (s : State) : Out :=
  let d := wfield v.val 9 0
  let t := if v.val.getLsbD 63 then s.fence d
    else s.onFabric fun b => { b with fenced := b.fenced.filter fun n => n != d }
  .next (s.managed v.node (t.acknowledge v.node .mgmt))

/-! The rank table (R366). -/

def execRtloadWrite (part : FromNode (BitVec 4)) (s : State) : Out :=
  let t := s.onPart part.val fun p => { p with rtcache := [] }
  let ids := (s.fabric.out.filter fun o => o.rank && o.part == part.val).map (·.id)
  .next (s.managed part.node ((t.onFabric fun b => { b with rtwait := b.rtwait ++ [(part.val.toNat, part.node, ids)] }).settleRtload))

/-! Virtual functions (R369). -/

def execHciWrite (vf : BitVec 7) (node : BitVec 11) (hci : BitVec 32) (s : State) : Out :=
  .next (match SMap.find vf.toNat s.fabric.vfs with
    | some d => if d.hnode = node then (s.onVf vf fun d => { d with hci := hci }).drainHeld vf 256 else s
    | none => s)

/-- Descriptor words 0 and 1; the indices of the event queue stay. -/
def State.writeVf (s : State) (vf : BitVec 7) (w0 w1 : Word) : State :=
  if 96 ≤ vf.toNat then s
  else
    let old := (SMap.find vf.toNat s.fabric.vfs).getD ⟨false, 0, 0, 0, 0, 0, 0, 0, false, []⟩
    let d : Vf := { old with
      valid := w0.getLsbD 63, hnode := BitVec.ofNat 11 (wfield w0 62 52), rootpa := wfield w0 51 12 * 4096
      lgn := wfield w1 56 52, eqoff := wfield w1 38 12 * 4096 }
    (s.onFabric fun b => { b with vfs := SMap.put vf.toNat d b.vfs }).drainHeld vf 256

/-! The mailbox (R376). -/

/-- The command that a doorbell word rings for, with the request as its bytes; a held device answers four (R342). -/
def mailboxCommand (cmd : Nat) (held recovery : Bool) (req : List Byte) : Option Instr :=
  let up := !held || recovery
  match cmd with
  | 1 => some (.status req)
  | 2 => some (.readId req)
  | 3 => some (.readLog req)
  | 4 => some (.loadRecovery req)
  | 5 => if held then none else some (.readSensors req)
  | 6 => if held then none else some (.attest req)
  | 7 => if up then some (.updateWrite req) else none
  | 8 => if up then some (.updateActivate req) else none
  | 9 => if held then none else some (.readConfig req)
  | _ => none

/-- The response is ready: BUSY is clear, with STATUS, the response's length and the command. -/
def State.respond (s : State) (status : Nat) (bs : List Byte) : State :=
  s.onHimos fun h =>
    { h with response := bs, door := ofFields [(status, 32), (bs.length, 16), (wfield h.door 7 0, 0)] }

def stDone : Nat := 0
def stUnknown : Nat := 1
def stLength : Nat := 2
def stSignature : Nat := 3
def stVersion : Nat := 4

/-- The doorbell is rung. How long the controller takes is open. -/
def State.ring (s : State) (v : Word) : State :=
  if s.himos.door.getLsbD 63 then s.log logBusy (wfield v 7 0)
  else
    let len := wfield v 31 16
    let s := s.onHimos fun h => { h with door := ofFields [(1, 63), (len, 16), (wfield v 7 0, 0)] }
    if 4096 < len then s.respond stLength []
    else
      match mailboxCommand (wfield v 7 0) s.himos.held s.himos.recovery (s.himos.request.readBytes 0 len) with
      | none => s.respond stUnknown []
      | some i =>
        let r := s.delay
        r.2.at_ (s.dcc + 1 + r.1) ordHost .chip i

/-- Bytes of the request buffer, 4 KiB. -/
def State.writeRequest (s : State) (off : Nat) (bs : List Byte) : State :=
  s.onHimos fun h => { h with request := h.request.writeBytes off (bs.take (4096 - off)) }

/-! Management writes (R362). -/

def State.writeMgmt (s : State) (r : MgmtReg) : State :=
  match r with
  | .vfDesc vf w0 w1 => s.writeVf vf w0 w1
  | .rbase vf i v => s.onDisp fun d => { d with rbase := SMap.set 0 (vf.toNat * 16 + i.toNat) v d.rbase }
  | .actdef p v => s.onPart p fun q => { q with actdef := v }
  | .belmax p v => s.onPart p fun q => { q with belmax := v.toNat }
  | .quantum p v => s.onPart p fun q => { q with quantum := v.toNat }
  | .ceilf p v => s.onPart p fun q => { q with ceilf := v }
  | .allowance p v => s.onPart p fun q => { q with allow := v, hostAllow := v }
  | .microcode p e w0 w1 =>
    s.onDisp fun d => { d with microcode := SMap.set (0, 0) (p.toNat * 4096 + e.toNat) (w0, w1) d.microcode }
  | .window p i w0 w1 => s.onPart p fun q => { q with windows := q.windows.set i.toNat (w0, w1) i.isLt }
  | .rtbase p v => s.onPart p fun q => { q with rtbase := wfield v 51 12 * 4096 }
  | .retrain n => if n.toNat < 24 then s.startRetrain n 8 else s
  | .request off bs => s.writeRequest off.toNat bs
  | .doorbell v => s.ring v
  | .restore src q seq dst vf => s.restoreLaunch src q seq dst vf

def execMgmtRegisterWrite (node : BitVec 11) (r : MgmtReg) (s : State) : Out := .next (s.managed node (s.writeMgmt r))

/-! Inbound transactions (R340, R362, R365, R370). -/

/-- Does the check of a transaction hold? An injected error of KIND 3 spoils it (R340, R341). -/
def State.checkTxn (s : State) (t : Txn) : Bool × State :=
  let x := s.spoiled t.off.toNat (txnBytes t.kind)
  (!x.1 && t.crc == wireCrc (txnHead t s.fabric.own) (txnParts t.kind), x.2)

/-- Does a peer window entry grant an access? -/
def windowGrants (w : Word × Word) (t : Txn) : Bool :=
  let base := wfield w.2 51 12 * 4096
  w.1.getLsbD 63 && wfield w.1 59 49 == t.snode.toNat &&
    wfield w.1 48 45 == (if 1024 ≤ t.snode.toNat then 0 else t.spart.toNat) &&
    decide (base ≤ t.off.toNat) && decide (t.off.toNat + txnBytes t.kind ≤ base + wfield w.1 27 0 * 4096) &&
    (match t.kind with
    | .read _ => w.1.getLsbD 62
    | .write _ => w.1.getLsbD 61
    | .atomic .. | .combine .. => w.1.getLsbD 60
    | .again => false)

/-- Is an access to device memory accepted? A window lies within the HBM of its partition. -/
def State.accepts (s : State) (t : Txn) : Bool :=
  let n := txnBytes t.kind
  let p := partOfAddr t.off.toNat
  isHbm t.off.toNat && isHbm (t.off.toNat + n - 1) &&
    (s.manages t.snode ||
      partOfAddr (t.off.toNat + n - 1) == p && (s.part p).windows.toList.any fun w => windowGrants w t)

/-- A write over the fabric raises nothing at a poisoned word; a read or an atomic that meets one is answered with poison
(R338). The answer to a combine brings its flags (R221) (DESIGN CHOICE, log entry 25). -/
def State.applyTxn (s : State) (t : Txn) : State :=
  let a := t.off.toNat
  match t.kind with
  | .write bs => (s.poke a bs).answer t ansDone []
  | .read n =>
    let s := (wordsIn a n).foldl (fun (u : State) w => u.touch w) s
    match s.consume a n false with
    | (some _, u) => u.answer t ansPoisoned []
    | (none, u) => u.answer t ansDone (u.peekBytes a n)
  | .atomic fn sz y c =>
    match s.consume a (sizeBytes sz) false with
    | (some _, u) => u.answer t ansPoisoned []
    | (none, u) =>
      let r := u.applyAtomic fn sz a y c
      r.2.answer t ansDone r.1
  | .combine k fmt rm sat int v seed steptag =>
    let r := s.applyCombine ⟨a, .elem k fmt rm sat int v seed steptag⟩
    r.1.answer t ansDone (leBytes 1 r.2.toNat)
  | .again => s

def State.reject (s : State) (t : Txn) : State :=
  (s.log logRejected (t.snode.toNat + 2 ^ 16 * t.off.toNat)).answer t ansRejected []

/-- A transaction whose check has failed a third time: a write leaves its words poisoned, a reader gets poison (R340). -/
def State.failTxn (s : State) (t : Txn) : State :=
  match t.kind with
  | .read _ => s.answer t ansPoisoned []
  | .write _ | .atomic .. | .combine .. | .again =>
    if t.ch != .mgmt && s.accepts t then
      let ws := wordsIn t.off.toNat (txnBytes t.kind)
      { s with poison := s.poison ++ ws.filter fun w => !s.poison.contains w }.answer t ansDone []
    else s.reject t

/-! The order of a source's transactions in one channel and class (R363). -/

def txnStream (t : Txn) : BitVec 11 × Channel × BitVec 4 := (t.snode, t.ch, t.cls)

/-- Does an earlier transaction of its stream wait still? The first of a stream itself, and one that is sent again, do not. -/
def State.waitsBehind (s : State) (t : Txn) : Bool :=
  !s.fabric.heads.contains t && decide (t.tries < 2) && s.fabric.heads.any fun h => txnStream h == txnStream t

/-- A transaction waits, as the first of its stream. -/
def State.keepHead (s : State) (t : Txn) : State :=
  s.onFabric fun b => { b with heads := (b.heads.filter fun h => txnStream h != txnStream t) ++ [t] }

/-- A transaction is over, and the next of its stream that has come takes its place. -/
def State.releaseStream (s : State) (t : Txn) : State :=
  let s := s.onFabric fun b => { b with heads := b.heads.filter fun h => txnStream h != txnStream t }
  match s.fabric.behind.find? fun x => txnStream x == txnStream t with
  | none => s
  | some x =>
    (s.onFabric fun b => { b with heads := b.heads ++ [x], behind := b.behind.erase x }).at_ s.dcc
      (if x.ch == .host then ordHost else ordFabric x.link.toNat) .chip (.fabricTransaction x)

/-- An answer that its node asks for again. -/
def State.answerAgain (s : State) (t : Txn) : State :=
  match s.fabric.kept.find? fun k => k.head.dst == t.snode.toNat && k.head.tag == t.tag.toNat with
  | some k =>
    let h := { k.head with tries := k.head.tries + 1 }
    (s.onFabric fun b => { b with kept := b.kept.map fun (x : Kept) => if x = k then { x with head := h } else x }).handFirst
      (wireParcel h (answerParts k.code k.bytes) 0 false)
  | none => s.reject t

/-- The notify words, the mailbox's request and response buffers and its doorbell, within the aperture (R365, R376). -/
def notifyBase : Nat := 0x7F00000000
def mailboxBase : Nat := 0x7F80000000

/-- A notify store through the aperture, of a whole word. -/
def State.notify (s : State) (q : BitVec 12) (v : Word) (node : BitVec 11) : State :=
  match execNotifyStore q v node s with
  | .next t => t
  | .fault _ | .refused _ => s

def State.hostTxn (s : State) (t : Txn) : State :=
  let o := t.off.toNat
  match t.kind with
  | .write bs =>
    if notifyBase ≤ o ∧ o < notifyBase + 0x8000 then
      if o % 8 = 0 ∧ bs.length = 8 then
        (s.notify (BitVec.ofNat 12 ((o - notifyBase) / 8)) (leWord bs) t.snode).answer t ansDone []
      else s.reject t
    else if s.accepts t then s.applyTxn t else s.reject t
  | _ => if s.accepts t then s.applyTxn t else s.reject t

def State.peerTxn (s : State) (t : Txn) : State := if s.accepts t then s.applyTxn t else s.reject t

/-- A word of device memory that a transaction names and whose line it has to wait for, behind the accesses that wait for it already
(R284). -/
def State.txnWaits (s : State) (t : Txn) : Option Nat :=
  if t.ch != .mgmt && s.accepts t then (wordsIn t.off.toNat (txnBytes t.kind)).find? s.lineWaits else none

/-- Accesses of the mailbox. The addresses of the other management registers are not given: their writes are
`mgmtRegisterWrite`. -/
def State.mgmtTxn (s : State) (t : Txn) : State :=
  let o := t.off.toNat
  if !s.manages t.snode then s.log logMgmtDropped t.snode.toNat
  else if o < mailboxBase then s.reject t
  else
    let x := o - mailboxBase
    match t.kind with
    | .write bs =>
      if x + bs.length ≤ 0x1000 then (s.writeRequest x bs).answer t ansDone []
      else if x = 0x2000 ∧ bs.length = 8 then (s.ring (leWord bs)).answer t ansDone []
      else s.reject t
    | .read n =>
      if x + n ≤ 0x1000 then s.answer t ansDone (s.himos.request.readBytes x n)
      else if 0x1000 ≤ x ∧ x + n ≤ 0x2000 then
        s.answer t ansDone (((s.himos.response ++ List.replicate 4096 0).drop (x - 0x1000)).take n)
      else if x = 0x2000 ∧ n = 8 then s.answer t ansDone (leBytes 8 s.himos.door.toNat)
      else s.reject t
    | .atomic .. | .combine .. | .again => s.reject t

/-- What a transaction does where its check holds: a host's comes on the host channel and a device's on the peer channel. -/
def State.serveTxn (s : State) (t : Txn) : State :=
  let isHost := decide (1024 ≤ t.snode.toNat)
  if t.kind = .again then s.answerAgain t
  else
    match t.ch with
    | .idle => s
    | .mgmt => s.mgmtTxn t
    | .host => if isHost then s.hostTxn t else s.reject t
    | .peer => if isHost then s.reject t else s.peerTxn t

/-- A transaction arrives, or its turn has come. The host and peer channels are closed while the device is held (R342, R380); nothing of a fenced
device is applied, nor what one sent before the acknowledgement of its removal (R352, R367) (DEDUCED, log entry 81). -/
def execFabricTransaction (t : Txn) (s : State) : Out :=
  let c := s.checkTxn t
  .next (if t.ch == .idle || t.ch != .mgmt && (s.shut || s.fabric.fenced.contains t.snode.toNat || t.stale) then s
    else if s.waitsBehind t then s.onFabric fun b => { b with behind := b.behind ++ [t] }
    else if !c.1 && decide (t.tries < 3) then (c.2.answer t ansResend []).keepHead t
    else if !c.1 then (c.2.failTxn t).releaseStream t
    else
      match s.txnWaits t with
      | some w => (s.afterFill w .chip (.fabricTransaction t)).keepHead t
      | none => (s.serveTxn t).releaseStream t)

/-! The second tier (R371). -/

def execCxlDeviceFailed (port : BitVec 2) (s : State) : Out :=
  .next (s.onHimos fun h =>
    { h with cxlFailed := if h.cxlFailed.contains port.toNat then h.cxlFailed else h.cxlFailed ++ [port.toNat] })

end Sys2Proof.Machine
end

