-- ==== Sys2Proof/Machine/Media.lean ====
section
/-! DEFINITION. The encode engines: stream slots and their admission (R372), pictures (R373), frame starts and reads (R374),
and what is written for a frame (R375). -/

namespace Sys2Proof.Machine

/-- Codes of the event log for a descriptor turned away (R372, R377). -/
def logEncDescriptor : Nat := 0x0501
def logEncLoad : Nat := 0x0502

/-! The descriptor (R372). -/

def Enc.valid (e : Enc) : Bool := e.w0.getLsbD 63
def Enc.codec (e : Enc) : Nat := wfield e.w0 62 61
def Enc.onPoint (e : Enc) : Bool := e.w0.getLsbD 60
def Enc.width (e : Enc) : Nat := wfield e.w0 51 40 + 1
def Enc.height (e : Enc) : Nat := wfield e.w0 39 28 + 1
def Enc.npic (e : Enc) : Nat := wfield e.w0 27 24 + 1
def Enc.picpa (e : Enc) : Nat := wfield e.w1 51 12 * 4096
def Enc.nout (e : Enc) : Nat := wfield e.w1 11 0
def Enc.fperiod (e : Enc) : Nat := wfield e.w3 39 0
def Enc.slotSize (e : Enc) : Nat := (wfield e.w4 63 52 + 1) * 4096
def Enc.obase (e : Enc) : Nat := wfield e.w4 51 12 * 4096

/-- Luma pitch, the bytes of a picture, and the bytes of its buffer (R373). -/
def Enc.pitch (e : Enc) : Nat := (e.width * (if e.codec % 2 = 1 then 2 else 1) + 63) / 64 * 64
def Enc.picBytes (e : Enc) : Nat := 3 * e.pitch * e.height / 2
def Enc.bufBytes (e : Enc) : Nat := (e.picBytes + 4095) / 4096 * 4096

/-- Do `n` bytes lie in the HBM range of a partition (R279)? -/
def inPartition (p : BitVec 4) (a n : Nat) : Bool :=
  decide (p.toNat * 0x600000000 ≤ a) && decide (a + n ≤ (p.toNat + 1) * 0x600000000)

/-- Reserved bits, ranges and addresses. -/
def Enc.ok (e : Enc) (p : BitVec 4) : Bool :=
  wfield e.w0 15 0 == 0 &&
    (e.w0.getLsbD 59 || decide (wfield e.w0 58 52 ≤ if e.codec ≤ 1 then 63 else 51)) &&
    e.width % 8 == 0 && e.height % 8 == 0 && decide (e.height ≤ 2304) && wfield e.w0 23 16 != 0 && e.nout != 0 &&
    e.fperiod != 0 && (!e.onPoint || decide (wfield e.w2 36 32 < 24)) &&
    inPartition p e.picpa (e.npic * e.bufBytes) && inPartition p e.obase (e.nout * e.slotSize)

/-- Luma samples per second. -/
def Enc.load (e : Enc) : Rat := ((e.width * e.height * 2500000000 : Nat) : Rat) / (e.fperiod : Rat)

def loadLimit : Rat := 737280000

/-- The load of the other valid slots of an engine. -/
def State.encLoad (s : State) (p : BitVec 4) (slot : Nat) : Rat :=
  ((s.encs.filter fun e => e.1 / 32 == p.toNat && e.1 != encKey p slot && e.2.valid).map fun e => e.2.load).sum

/-- A descriptor as written. -/
def Enc.fresh (w0 w1 w2 w3 w4 : Word) : Enc := ⟨w0, w1, w2, w3, w4, 0, [], 0⟩

/-- The start cycle of frame `k` of a stream on stamps (R374). -/
def Enc.startOf (e : Enc) (k : Nat) : Nat := e.w2.toNat + k * e.fperiod

/-- The event of a frame start comes 16 cycles before it, with the fetch of the first line. -/
def State.armFrame (s : State) (p : BitVec 4) (slot : BitVec 5) (e : Enc) (k : Nat) : State :=
  s.at_ (max s.dcc (e.startOf k - 16)) (ordHost + slot.toNat) .chip (.frameStart p slot)

/-- The stream is enabled: on stamps, from the first frame whose start is not past. -/
def State.enableStream (s : State) (p : BitVec 4) (slot : BitVec 5) (e : Enc) : State :=
  let k := if e.onPoint ∨ s.dcc ≤ e.w2.toNat then 0 else (s.dcc - e.w2.toNat + e.fperiod - 1) / e.fperiod
  let s := { s with encs := SMap.put (encKey p slot.toNat) { e with frame := k } s.encs }
  if e.onPoint then s else s.armFrame p slot e k

/-- A managing host's write replaces the stream of the slot, with its frames under way (DESIGN CHOICE, log entry 26). A descriptor with
a reserved bit, a field out of its range or an address outside the partition is turned away whatever its VALID bit. -/
def execEncoderSlotWrite (part : FromNode (BitVec 4)) (slot : BitVec 5) (w0 w1 w2 w3 w4 : Word) (s : State) : Out :=
  let key := encKey part.val slot.toNat
  let e := Enc.fresh w0 w1 w2 w3 w4
  let t := s.cancel fun x => x.act == .frameStart part.val slot || x.act == .frameComplete part.val slot
  let off : Enc := { e with w0 := setBit w0 63 false }
  let turn (code : Nat) : State := { t.log code key with encs := SMap.put key off t.encs }
  .next (s.managed part.node
    (if !e.ok part.val then turn logEncDescriptor
    else if !e.valid then { t with encs := SMap.put key e t.encs }
    else if !s.himos.config.encoders.getLsbD part.val.toNat then turn logEncDescriptor
    else if loadLimit < s.encLoad part.val slot.toNat + e.load then turn logEncLoad
    else t.enableStream part.val slot e))

/-! Frames (R374). -/

/-- Cycles of a picture's read. -/
def Enc.chunks (e : Enc) : Nat := (e.picBytes + 63) / 64

def State.onEnc (s : State) (p : BitVec 4) (slot : BitVec 5) (f : Enc → Enc) : State :=
  let key := encKey p slot.toNat
  match SMap.find key s.encs with
  | some e => { s with encs := SMap.put key (f e) s.encs }
  | none => s

/-- A frame's start is at hand. -/
def execFrameStart (part : BitVec 4) (slot : BitVec 5) (s : State) : Out :=
  .next (match SMap.find (encKey part slot.toNat) s.encs with
    | none => s
    | some e =>
      if !e.valid then s
      else
        let k := e.frame
        let start := if e.onPoint then s.dcc + 16 else e.startOf k
        let f : EncFrame := ⟨k, start, none, none, false, [], []⟩
        let t := s.onEnc part slot fun e => { e with frame := k + 1, frames := e.frames ++ [f] }
        if e.onPoint then t else t.armFrame part slot e (k + 1))

def State.onFrame (s : State) (p : BitVec 4) (slot : BitVec 5) (k : Nat) (g : EncFrame → EncFrame) : State :=
  s.onEnc p slot fun e => { e with frames := e.frames.map fun f => if f.k = k then g f else f }

/-- Is an earlier header of the stream still unwritten when a frame starts (R375)? A header comes at least 17 cycles after its read ends or
its SKIP is known, so that this is known 16 cycles ahead (DESIGN CHOICE, log entry 26). -/
def Enc.skips (e : Enc) (f : EncFrame) : Bool :=
  e.frames.any fun g => decide (g.k < f.k) && g.due.all fun d => decide (f.start < d)

/-- The frames of a stream that turn out a SKIP in cycle `t`. -/
def Enc.late (e : Enc) (t : Nat) : List EncFrame := e.frames.filter fun f => f.start == t && e.skips f

/-- In its start cycle such a frame turns out a SKIP: it is not read, and its header is written later; when exactly is open. -/
def State.skipFrames (s : State) : State :=
  s.encs.foldl (fun (t : State) x =>
    let p := BitVec.ofNat 4 (x.1 / 32)
    let slot := BitVec.ofNat 5 x.1
    (x.2.late s.dcc).foldl (fun (u : State) f =>
      let d := u.delay
      let due := s.dcc + 17 + d.1
      (d.2.onFrame p slot f.k fun f => { f with rk := none, due := some due, skip := true, copies := [] }).at_ due
        (ordHost + slot.toNat) .chip (.frameComplete p slot)) t) s

/-- Does the engine of a partition read in cycle `t`, or is it to read then? -/
def State.encBusy (s : State) (p t : Nat) : Bool :=
  s.encs.any fun e => e.1 / 32 == p && e.2.frames.any fun f => f.rk.any fun r => decide (r ≤ t) && decide (t < r + e.2.chunks)

/-- A frame that waits begins its read in cycle `t` when the engine is free: the lowest slot first. -/
def State.beginRead (s : State) (p t : Nat) : State :=
  let waits (e : Enc) (f : EncFrame) : Bool := !f.skip && f.rk.isNone && decide (f.start ≤ t) && !e.skips f
  if s.encBusy p t then s
  else
    match s.encs.find? fun e => e.1 / 32 == p && e.2.frames.any (waits e.2) with
    | none => s
    | some e =>
      match e.2.frames.find? (waits e.2) with
      | some f => s.onFrame (BitVec.ofNat 4 p) (BitVec.ofNat 5 e.1) f.k fun f => { f with rk := some t }
      | none => s

/-- The reads of an engine are laid down 16 cycles ahead, for the fetch of their first line, and anew in each cycle before they begin; one
that could not be known of then begins as soon as it can. A frame whose read moves has its first lines fetched again. -/
def State.beginReads (s : State) (p : Nat) : State :=
  let clear : State := { s with encs := s.encs.map fun e =>
    if e.1 / 32 = p then
      (e.1, { e.2 with frames := e.2.frames.map fun f => if f.rk.any fun r => decide (s.dcc ≤ r) then { f with rk := none } else f })
    else e }
  let t := (List.range 17).foldl (fun (t : State) i => t.beginRead p (s.dcc + i)) clear
  let old (key k : Nat) : Option Nat := (SMap.find key s.encs).bind fun e => (e.frames.find? fun g => g.k == k).bind EncFrame.rk
  { t with encs := t.encs.map fun e =>
    if e.1 / 32 = p then
      (e.1, { e.2 with frames := e.2.frames.map fun f => if f.rk = old e.1 f.k then f else { f with copies := [] } })
    else e }

/-- Byte 0 of the picture of a frame. -/
def Enc.picture (e : Enc) (k : Nat) : Nat := e.picpa + k % e.npic * e.bufBytes

/-- A line of a picture as the engine fetches it from its home slice. What a poisoned word holds is open (R338): a free value. -/
def State.fetchLine (s : State) (a : Nat) : EncLine × State :=
  let r := (List.range 16).foldl (fun (r : List Byte × State) i =>
    if (r.2.poisonedWord (a + 8 * i) 1).isSome then
      let f := r.2.useFree
      (r.1 ++ leBytes 8 (Config.freeWord f.1).toNat, f.2)
    else (r.1 ++ r.2.peekBytes (a + 8 * i) 8, r.2)) ([], s.touch a)
  (⟨r.1, []⟩, r.2)

/-- The fetch of a line into the copies of a frame, where they do not hold it. -/
def State.copyLine (s : State) (p : BitVec 4) (slot : BitVec 5) (f : EncFrame) (a : Nat) : State :=
  if (SMap.find (lineOf a) f.copies).isSome then s
  else
    let c := s.fetchLine (lineOf a)
    c.2.onFrame p slot f.k fun f => { f with copies := SMap.put (lineOf a) c.1 f.copies }

/-- A frame as its stream holds it now. -/
def State.frame (s : State) (p : BitVec 4) (slot : BitVec 5) (f : EncFrame) : EncFrame :=
  (((SMap.find (encKey p slot.toNat) s.encs).bind fun e => e.frames.find? fun g => g.k == f.k)).getD f

/-- The present cycle of a frame that is read from cycle `r`: the line whose first byte is read 16 cycles on is fetched, and
64 bytes are read from their copy; a copy that has been dropped is fetched again. -/
def State.pictureBeat (s : State) (p : BitVec 4) (slot : BitVec 5) (e : Enc) (f : EncFrame) (r : Nat) : State :=
  let base := e.picture f.k
  let ahead := s.dcc + 16 - r
  let t := if r ≤ s.dcc + 16 ∧ ahead % 2 = 0 ∧ ahead < e.chunks then s.copyLine p slot f (base + 64 * ahead) else s
  if r ≤ s.dcc ∧ s.dcc < r + e.chunks then
    let a := base + 64 * (s.dcc - r)
    let u := t.copyLine p slot (t.frame p slot f) a
    u.onFrame p slot f.k fun f =>
      { f with
        pic := f.pic ++ (((SMap.find (lineOf a) f.copies).map EncLine.bytes).getD [] |>.drop (a % 128)).take 64
        copies := if a % 128 = 0 then f.copies else SMap.del (lineOf a) f.copies }
  else t

/-- When a read ends, the header is written by the cycle Rk + 2,500,000; when exactly is open. -/
def State.endRead (s : State) (p : BitVec 4) (slot : BitVec 5) (k r : Nat) : State :=
  let d := s.delay
  let due := max (s.dcc + 17) (min (r + 2500000) (s.dcc + 17 + d.1))
  (d.2.onFrame p slot k fun f => { f with due := some due }).at_ due
    (ordHost + slot.toNat) .chip (.frameComplete p slot)

/-- One cycle of every encode engine, at its end. -/
def State.mediaTick (s : State) : State :=
  if s.encs.isEmpty then s
  else
    let s := (List.range 16).foldl State.beginReads s.skipFrames
    s.encs.foldl (fun (t : State) x =>
      let p := BitVec.ofNat 4 (x.1 / 32)
      let slot := BitVec.ofNat 5 x.1
      x.2.frames.foldl (fun (u : State) f =>
        match f.rk, f.due with
        | some r, none =>
          let v := u.pictureBeat p slot x.2 f r
          if s.dcc + 1 = r + x.2.chunks then v.endRead p slot f.k r else v
        | _, _ => u) t) s

/-! What is written (R375). -/

/-- The function that hears of a stream: the launch's that its frames follow, else the partition's lowest-numbered valid one
(DESIGN CHOICE, log entry 26). -/
def State.streamVf (s : State) (p : BitVec 4) (e : Enc) : BitVec 7 :=
  if e.onPoint then (s.queue (wfield e.w2 63 52)).vf else s.partVf p

/-- The samples of a picture: the padding of the rows is left out, and of a 10-bit sample bits [9:0] count (R373). -/
def Enc.samples (e : Enc) (bs : List Byte) : List Byte :=
  let ten := e.codec % 2 == 1
  (splitEvery e.pitch (3 * e.height / 2) bs).flatMap fun row =>
    (row.take (e.width * if ten then 2 else 1)).mapIdx fun i b => if ten && i % 2 == 1 then b &&& 3 else b

def Enc.words (e : Enc) (k : Nat) : List Word := [e.w0, e.w1, e.w2, e.w3, e.w4, BitVec.ofNat 64 k]

/-- The header and the event record of a frame. -/
def State.writeHeader (s : State) (p : BitVec 4) (slot : BitVec 5) (e : Enc) (f : EncFrame) (status len : Nat) : State :=
  let at_ := e.obase + f.k % e.nout * e.slotSize
  let h := [ofFields [(status, 32), (f.k % 2 ^ 32, 0)], BitVec.ofNat 64 (len % 2 ^ 32), BitVec.ofNat 64 f.start, 0]
  (s.poke at_ (h.flatMap fun w => leBytes 8 w.toNat)).post (s.streamVf p e) recMEDIA false
    [ofFields [(slot.toNat, 32), (f.k % 2 ^ 32, 0)], BitVec.ofNat 64 f.start, ofFields [(status, 32), (len % 2 ^ 32, 0)]]

/-- The bitstream and the header of a frame. One that would not fit is encoded as a repeat of the previous picture
(DESIGN CHOICE, log entry 14). -/
def State.finishFrame (s : State) (p : BitVec 4) (slot : BitVec 5) (e : Enc) (f : EncFrame) : State :=
  if f.skip then s.writeHeader p slot e f 1 0
  else
    let cap := e.slotSize - 32
    let st := Config.encodeStep e.st (e.words f.k) (e.samples f.pic)
    let fits := decide (Config.encodeLength st ≤ cap)
    let st := if fits then st else Config.encodeStep e.st (e.words f.k) []
    let len := min cap (Config.encodeLength st)
    let bits := (List.range len).map (Config.encodeByte st)
    let s := s.poke (e.obase + f.k % e.nout * e.slotSize + 32) bits
    (s.writeHeader p slot e f (if fits then 0 else 2) len).onEnc p slot fun e => { e with st := st }

def execFrameComplete (part : BitVec 4) (slot : BitVec 5) (s : State) : Out :=
  .next (match SMap.find (encKey part slot.toNat) s.encs with
    | none => s
    | some e =>
      let due (f : EncFrame) : Bool := f.due.any fun d => decide (d ≤ s.dcc)
      let t := s.onEnc part slot fun e => { e with frames := e.frames.filter fun f => !due f }
      (e.frames.filter due).foldl (fun (u : State) f => u.finishFrame part slot e f) t)

end Sys2Proof.Machine
end

