-- ==== Sys2Proof/Machine/Mgmt.lean ====
section
/-! DEFINITION. The Himos controller: mailbox commands (R342, R376 to R379), sensors and temperature (R377, R382), power-up
and the loss of power (R342, R378 to R380, R382). -/

namespace Sys2Proof.Machine

/-! The signed records (R378, R379). The order and the widths of their fields are the model's (DESIGN CHOICE, log entry 27). -/

def configBytes (c : ConfigRec) : List Byte :=
  leBytes 56 c.cores.toNat ++ leBytes 28 c.slices.toNat ++ leBytes 4 c.links.toNat ++ leBytes 1 c.hbmStacks.toNat ++
    leBytes 2 c.encoders.toNat ++
    ((c.managers ++ List.replicate 8 0).take 8).flatMap (leBytes 2) ++ leBytes 8 c.serial.toNat ++ leBytes 4 c.version

/-- r then s, 48 bytes each (DESIGN CHOICE, log entry 12). -/
def signature (m : List Byte) : List Byte := (List.range 96).map (Config.signatureByte m)

def FwSlot.bytes (f : FwSlot) : List Byte := f.image.readBytes 0 f.len

def Himos.slot (h : Himos) (i : Nat) : FwSlot := h.slots.toList.getD i ⟨[], 0, 0, false⟩

def Himos.setSlot (h : Himos) (i : Nat) (f : FwSlot) : Himos :=
  { h with slots := if p : i < 2 then h.slots.set i f p else h.slots }

/-- The slot that is not running. -/
def Himos.other (h : Himos) : Nat := 1 - h.booted

/-! Mailbox commands (R376). A request of another length than the command's is a bad length. -/

/-- The reasons why each slot, and the configuration record, failed; 0 where none did (R342, R378). -/
def execStatus (req : List Byte) (s : State) : Out :=
  .next (if req.length ≠ 0 then s.respond stLength []
    else s.respond stDone (s.himos.reasons.toList.flatMap (leBytes 4)))

/-- The identity certificate. -/
def execReadId (req : List Byte) (s : State) : Out :=
  .next (if req.length ≠ 0 then s.respond stLength []
    else s.respond stDone ((List.range (min 4096 Config.certificateLength)).map Config.certificateByte))

def LogRec.bytes (r : LogRec) : List Byte :=
  leBytes 8 r.seq ++ leBytes 4 r.power ++ leBytes 8 r.dcc ++ leBytes 2 r.code ++ leBytes 10 r.data

/-- Records from a sequence onward, as many as the response holds. -/
def execReadLog (req : List Byte) (s : State) : Out :=
  .next (if req.length ≠ 8 then s.respond stLength []
    else s.respond stDone (((s.himos.log.filter fun r => decide (leNat req ≤ r.seq)).take 128).flatMap LogRec.bytes))

/-- A recovery image is checked and run; it is refused unless both slots failed (R342, R376). -/
def execLoadRecovery (req : List Byte) (s : State) : Out :=
  .next (if s.himos.reasons.get 0 = 0 ∨ s.himos.reasons.get 1 = 0 then s.respond stUnknown []
    else if !Config.authentic req then s.respond stSignature []
    else (s.onHimos fun h => { h with recovery := true }).respond stDone [])

def execReadSensors (req : List Byte) (s : State) : Out :=
  .next (if req.length ≠ 0 then s.respond stLength []
    else s.respond stDone (s.himos.sensors.flatMap fun w => leBytes 4 w.toNat))

/-- What ATTEST reports, before its signature. -/
def Himos.report (h : Himos) (nonce : List Byte) : List Byte :=
  nonce ++ leBytes 8 h.config.serial.toNat ++ leBytes 4 h.booted ++ leBytes 4 (h.slot 0).version ++
    leBytes 4 (h.slot 1).version ++ sha384 (h.slot h.booted).bytes ++ sha384 (configBytes h.config) ++ leBytes 4 h.power

def execAttest (req : List Byte) (s : State) : Out :=
  let r := s.himos.report req
  .next (if req.length ≠ 32 then s.respond stLength [] else s.respond stDone (r ++ signature r))

/-- Bytes into the slot that is not running; what the image authenticates as is known from its bytes. -/
def execUpdateWrite (req : List Byte) (s : State) : Out :=
  .next (if req.length < 4 ∨ 4092 < req.length then s.respond stLength []
    else
      let off := leNat (req.take 4)
      let bs := req.drop 4
      (s.onHimos fun h =>
        let f := h.slot h.other
        let g : FwSlot := { f with image := f.image.writeBytes off bs, len := max f.len (off + bs.length) }
        h.setSlot h.other { g with version := Config.imageVersion g.bytes, good := Config.authentic g.bytes }).respond stDone [])

/-- The other slot is authenticated, and preferred from the next power-up on. -/
def execUpdateActivate (req : List Byte) (s : State) : Out :=
  let f := s.himos.slot s.himos.other
  .next (if req.length = 0 then s.respond stLength []
    else if !f.good then s.respond stSignature []
    else if f.version < s.himos.minVersion then s.respond stVersion []
    else
      (s.onHimos fun h =>
        { h with
          preferred := h.other
          minVersion := if leNat req % 2 = 1 then f.version else h.minVersion }).respond stDone [])

def execReadConfig (req : List Byte) (s : State) : Out :=
  let c := configBytes s.himos.config
  .next (if req.length ≠ 0 then s.respond stLength [] else s.respond stDone (c ++ signature c))

/-! Sensors and temperature (R377, R382). -/

/-- A word of a sensor: VALID, kind and a signed reading. -/
def sensorValid (w : Word32) : Bool := w.getLsbD 31
def sensorKind (w : Word32) : Nat := field w.toNat 30 28
def sensorReading (w : Word32) : Int := toSigned 16 (field w.toNat 15 0)

/-- A reading of sensor `i` that the spec leaves to the part: VALID and the reading are open, and the kind is the sensor's own. -/
def freeSensor (i n : Nat) : Word32 :=
  let w := (Config.freeWord n).toNat
  BitVec.ofNat 32 (w % 2 ^ 16 + bit (Config.sensorPower i) * 2 ^ 28 + field w 31 31 * 2 ^ 31)

/-- DESIGN CHOICE, log entry 13. -/
def readings (l : List Word32) (kind : Nat) : List Int :=
  (l.filter fun w => sensorValid w && sensorKind w == kind).map sensorReading

/-- Does any sensor read at least so many degrees? -/
def hotterThan (l : List Word32) (deg : Int) : Bool := (readings l 0).any fun r => decide (deg * 16 ≤ r)

/-- The device's power, in units of 1/16 W. -/
def devicePower (l : List Word32) : Int := (readings l 1).sum

def State.onParts (s : State) (f : Partition → Partition) : State := { s with parts := s.parts.map f }

def execSensorRefresh (s : State) : Out :=
  let l := (List.range 320).map fun i => freeSensor i (s.free + i)
  let t := { s with free := s.free + 320 }.at_ (s.dcc + 2 ^ 20) 0 .chip .sensorRefresh
  let high := decide (2100 * 16 < devicePower l)
  let trip := hotterThan l 115 || high && decide (0 < s.himos.hotPower)
  let t := t.onHimos fun h => { h with sensors := l, hotPower := if high then h.hotPower + 1 else 0 }
  let t := if hotterThan l 105 then t.onParts fun p => { p with allow := if p.allow = 0 then 0 else p.allow - 1 } else t
  .next (if trip then t.at_ s.dcc ordHost .chip .thermalTrip else t)

/-- Every allowance rises by one, up to what the host wrote. -/
def execThermalCoolRaise (s : State) : Out :=
  let t := s.at_ (s.dcc + 2 ^ 24) 0 .chip .thermalCoolRaise
  .next (if hotterThan s.himos.sensors 95 then t
    else t.onParts fun p => { p with allow := if p.allow.toNat < p.hostAllow.toNat then p.allow + 1 else p.allow })

/-! Power (R342, R378 to R380, R382). -/

/-- Code of the event log for a trip. -/
def logTrip : Nat := 0x0601

/-- Is a write or an activation of firmware under way (R376)? -/
def Himos.updating (h : Himos) : Bool := h.door.getLsbD 63 && [7, 8].contains (wfield h.door 7 0)

/-- What outlives the loss of the main rails: what is in flash, and the second-tier devices with what was written back to
them. A write or an activation of firmware that was under way leaves the running slot preferred (R379). -/
def State.unpowered (s : State) : State :=
  { State.reset with
    dcc := s.dcc, agenda := [], inputs := s.inputs, free := s.free, serial := s.serial, cxl := s.cxl
    poison := (s.poison.filter fun w => isTier2 w && !s.resident w) ++ (s.lines.filter fun l => isTier2 l.addr).flatMap Line.behind
    himos := { s.himos with
      preferred := if s.himos.updating then s.himos.booted else s.himos.preferred
      railsUp := false, bring := 0, opens := 0, request := [], response := [], door := 0, sensors := Himos.reset.sensors, hotPower := 0,
      recovery := false } }

def execThermalTrip (s : State) : Out := .next (s.log logTrip 0).unpowered

/-- The main rails fall from outside. -/
def execPowerLoss (s : State) : Out := .next s.unpowered

/-- Why a slot is not booted: 1 its signature, 2 its version. -/
def Himos.slotReason (h : Himos) (i : Nat) : Nat :=
  if !(h.slot i).good then 1 else if (h.slot i).version < h.minVersion then 2 else 0

/-- The same for the configuration record. -/
def Himos.configReason (h : Himos) : Nat := if !h.configGood then 1 else if h.config.version < h.rollback then 2 else 0

/-- The preferred slot boots if it may, else the other one; if neither may, or the configuration record fails, the device is
held. -/
def Himos.boot (h : Himos) : Himos :=
  let r (i : Nat) : Nat := h.slotReason i
  let slot := if r h.preferred = 0 then h.preferred else 1 - h.preferred
  { h with
    booted := slot
    held := h.configReason != 0 || r slot != 0
    reasons := #v[r 0, r 1, h.configReason]
    power := h.power + 1
    railsUp := true }

/-- Pages of each partition's share of the second tier (R371). -/
def tierShare (caps : List Nat) : Nat := min caps.sum (8192 * 2 ^ 30) / 16 / 4096

/-- An open time of bring-up, below one second: two of them make the 2 s that R380 allows. -/
def bringTime (n : Nat) : Nat := n % 2500000000

/-- The main rails rise: the controller boots, checks the configuration record and authenticates firmware, its sensors are read from now
on, the links train, and bring-up begins, of an open length (R376, R380) (DESIGN CHOICE, log entry 54). -/
def execPowerUp (cxlCaps : List Nat) (s : State) : Out :=
  let r := s.delay
  let t := r.2.onHimos fun h => { h.boot with bring := 1 + bringTime r.1, cxlFailed := [], cxlCaps := cxlCaps.take 4 }
  .next (if s.himos.railsUp then s
    else
      ((t.onFabric fun b => { b with links := Vector.replicate 24 { Link.trained with lastRx := s.dcc } }).at_ s.dcc 0 .chip
        .sensorRefresh).at_ (s.dcc + 2 ^ 24) 0 .chip .thermalCoolRaise)

/-- An entry of the agenda or an input, at its time counted from now on. -/
def Ev.rebase (e : Ev) (now : Nat) : Ev := { e with due := e.due - now }

/-- A link when the DCC begins anew: its times are counted from there, and what it counted of NAKs is forgotten. -/
def Link.rebase (l : Link) (now : Nat) : Link :=
  { l with lastRx := l.lastRx - now, naks := [], naksTx := [], retrain := l.retrain.map fun t => t - now }

/-- The cores leave reset (R380): the DCC is 0, and partitions, queues, slots and the microcode store are as after reset. The links with
what they have still to send, what the controller has still to do, and what comes from outside keep their times. The host and peer
channels open later. -/
def State.coresLeave (s : State) : State :=
  let r := s.delay
  { State.reset with
    agenda := (s.agenda.map fun e => e.rebase s.dcc).foldl (fun l e => Ev.insert e l) [State.firstScan]
    fabric := { s.fabric with links := s.fabric.links.map fun l => l.rebase s.dcc }
    inputs := s.inputs.map fun e => e.rebase s.dcc
    free := r.2.free, serial := s.serial, cxl := s.cxl, poison := s.poison
    parts := Vector.replicate 16 { Partition.reset with tierPages := tierShare s.himos.cxlCaps }
    himos := { s.himos with bring := 0, opens := bringTime r.1 } }

/-- What is served before the cores leave reset: the management channel, and the loss of power (R380). -/
def servedInBringUp : Instr → Bool
  | .mgmtRegisterWrite .. | .queueDescriptorWrite .. | .residentSlotWrite .. | .contractWrite .. | .resumeWord .. | .fenceWordWrite ..
  | .rtloadWrite .. | .encoderSlotWrite .. | .hciWrite .. | .powerLoss => true
  | .flitReceive .. => true
  | .fabricTransaction t => t.ch == .mgmt
  | _ => false

end Sys2Proof.Machine
end

