-- ==== Sys2Proof/Machine/Dispatch.lean ====
section
/-! DEFINITION. One arm per instruction or event, each one direct call of its meaning. -/

namespace Sys2Proof.Machine

def exec (i : Instr) (s : State) : Host.Outcome State Fault Refusal :=
  match i with
  | .add d a b => Sys2Proof.Machine.execAdd d a b s
  | .sub d a b => Sys2Proof.Machine.execSub d a b s
  | .and d a b => Sys2Proof.Machine.execAnd d a b s
  | .or d a b => Sys2Proof.Machine.execOr d a b s
  | .xor d a b => Sys2Proof.Machine.execXor d a b s
  | .andn d a b => Sys2Proof.Machine.execAndn d a b s
  | .shl d a b => Sys2Proof.Machine.execShl d a b s
  | .shr d a b => Sys2Proof.Machine.execShr d a b s
  | .sar d a b => Sys2Proof.Machine.execSar d a b s
  | .rol d a b => Sys2Proof.Machine.execRol d a b s
  | .ror d a b => Sys2Proof.Machine.execRor d a b s
  | .mul d a b => Sys2Proof.Machine.execMul d a b s
  | .mulh d a b => Sys2Proof.Machine.execMulh d a b s
  | .mulhn d a b => Sys2Proof.Machine.execMulhn d a b s
  | .div d a b => Sys2Proof.Machine.execDiv d a b s
  | .divn d a b => Sys2Proof.Machine.execDivn d a b s
  | .rem d a b => Sys2Proof.Machine.execRem d a b s
  | .remn d a b => Sys2Proof.Machine.execRemn d a b s
  | .min d a b => Sys2Proof.Machine.execMin d a b s
  | .max d a b => Sys2Proof.Machine.execMax d a b s
  | .minn d a b => Sys2Proof.Machine.execMinn d a b s
  | .maxn d a b => Sys2Proof.Machine.execMaxn d a b s
  | .clz d a => Sys2Proof.Machine.execClz d a s
  | .ctz d a => Sys2Proof.Machine.execCtz d a s
  | .popc d a => Sys2Proof.Machine.execPopc d a s
  | .bswap d a => Sys2Proof.Machine.execBswap d a s
  | .sext d a b => Sys2Proof.Machine.execSext d a b s
  | .zext d a b => Sys2Proof.Machine.execZext d a b s
  | .addi d a imm => Sys2Proof.Machine.execAddi d a imm s
  | .andi d a imm => Sys2Proof.Machine.execAndi d a imm s
  | .ori d a imm => Sys2Proof.Machine.execOri d a imm s
  | .xori d a imm => Sys2Proof.Machine.execXori d a imm s
  | .shli d a imm => Sys2Proof.Machine.execShli d a imm s
  | .shri d a imm => Sys2Proof.Machine.execShri d a imm s
  | .sari d a imm => Sys2Proof.Machine.execSari d a imm s
  | .muli d a imm => Sys2Proof.Machine.execMuli d a imm s
  | .li d imm => Sys2Proof.Machine.execLi d imm s
  | .lih d imm => Sys2Proof.Machine.execLih d imm s
  | .la d imm => Sys2Proof.Machine.execLa d imm s
  | .cmp d a b c => Sys2Proof.Machine.execCmp d a b c s
  | .cmpi d a c imm => Sys2Proof.Machine.execCmpi d a c imm s
  | .pand d a b => Sys2Proof.Machine.execPand d a b s
  | .por d a b => Sys2Proof.Machine.execPor d a b s
  | .pxor d a b => Sys2Proof.Machine.execPxor d a b s
  | .pnot d a => Sys2Proof.Machine.execPnot d a s
  | .pmov d a => Sys2Proof.Machine.execPmov d a s
  | .sel d a b c => Sys2Proof.Machine.execSel d a b c s
  | .movpsGet d => Sys2Proof.Machine.execMovpsGet d s
  | .movpsSet a => Sys2Proof.Machine.execMovpsSet a s
  | .fadd d a b rm sat => Sys2Proof.Machine.execFadd d a b rm sat s
  | .fsub d a b rm sat => Sys2Proof.Machine.execFsub d a b rm sat s
  | .fmul d a b rm sat => Sys2Proof.Machine.execFmul d a b rm sat s
  | .fdiv d a b rm sat => Sys2Proof.Machine.execFdiv d a b rm sat s
  | .fmin d a b => Sys2Proof.Machine.execFmin d a b s
  | .fmax d a b => Sys2Proof.Machine.execFmax d a b s
  | .fsqrt d a rm sat => Sys2Proof.Machine.execFsqrt d a rm sat s
  | .fabs d a => Sys2Proof.Machine.execFabs d a s
  | .fneg d a => Sys2Proof.Machine.execFneg d a s
  | .fcmp d a b c => Sys2Proof.Machine.execFcmp d a b c s
  | .fcvtF2i d a rm => Sys2Proof.Machine.execFcvtF2i d a rm s
  | .fcvtI2f d a rm => Sys2Proof.Machine.execFcvtI2f d a rm s
  | .fcvtF2b d a rm sat => Sys2Proof.Machine.execFcvtF2b d a rm sat s
  | .fcvtB2f d a => Sys2Proof.Machine.execFcvtB2f d a s
  | .scalarWriteback d v flags => Sys2Proof.Machine.execScalarWriteback d v flags s
  | .b disp => Sys2Proof.Machine.execB disp s
  | .bcmp a b c disp => Sys2Proof.Machine.execBcmp a b c disp s
  | .call a disp => Sys2Proof.Machine.execCall a disp s
  | .ret a => Sys2Proof.Machine.execRet a s
  | .bi a => Sys2Proof.Machine.execBi a s
  | .loop a disp => Sys2Proof.Machine.execLoop a disp s
  | .bzm disp => Sys2Proof.Machine.execBzm disp s
  | .mpush a b => Sys2Proof.Machine.execMpush a b s
  | .mget a b => Sys2Proof.Machine.execMget a b s
  | .xlate h x p => Sys2Proof.Machine.execXlate h x p s
  | .xlateComplete id => Sys2Proof.Machine.execXlateComplete id s
  | .hinv h => Sys2Proof.Machine.execHinv h s
  | .hinfo d h => Sys2Proof.Machine.execHinfo d h s
  | .ld d m sz sx inc => Sys2Proof.Machine.execLd d m sz sx inc s
  | .ldReturn id => Sys2Proof.Machine.execLdReturn id s
  | .st d m sz inc => Sys2Proof.Machine.execSt d m sz inc s
  | .amo d m sz sx b c fn => Sys2Proof.Machine.execAmo d m sz sx b c fn s
  | .amoReturn id => Sys2Proof.Machine.execAmoReturn id s
  | .amop m sz b fn => Sys2Proof.Machine.execAmop m sz b fn s
  | .homeSliceApply id => Sys2Proof.Machine.execHomeSliceApply id s
  | .probe d x p => Sys2Proof.Machine.execProbe d x p s
  | .probeComplete id => Sys2Proof.Machine.execProbeComplete id s
  | .pref m => Sys2Proof.Machine.execPref m s
  | .l2Fill line => Sys2Proof.Machine.execL2Fill line s
  | .region len amask => Sys2Proof.Machine.execRegion len amask s
  | .commit sc => Sys2Proof.Machine.execCommit sc s
  | .publishApply id => Sys2Proof.Machine.execPublishApply id s
  | .regionLong entry => Sys2Proof.Machine.execRegionLong entry s
  | .translationInvalidate vf va len => Sys2Proof.Machine.execTranslationInvalidate vf va len s
  | .fence sc mask => Sys2Proof.Machine.execFence sc mask s
  | .fenceComplete id => Sys2Proof.Machine.execFenceComplete id s
  | .arrive g pt => Sys2Proof.Machine.execArrive g pt s
  | .rvArrival g pt lcore fl => Sys2Proof.Machine.execRvArrival g pt lcore fl s
  | .rvInitApply g pt n => Sys2Proof.Machine.execRvInitApply g pt n s
  | .rvAnswer g pt gen => Sys2Proof.Machine.execRvAnswer g pt gen s
  | .waitrv g pt => Sys2Proof.Machine.execWaitrv g pt s
  | .waitrvRelease g pt gen => Sys2Proof.Machine.execWaitrvRelease g pt gen s
  | .bar g => Sys2Proof.Machine.execBar g s
  | .barRelease g => Sys2Proof.Machine.execBarRelease g s
  | .rvinit g pt a => Sys2Proof.Machine.execRvinit g pt a s
  | .rvflags g pt a => Sys2Proof.Machine.execRvflags g pt a s
  | .rvflagsReply g pt a v => Sys2Proof.Machine.execRvflagsReply g pt a v s
  | .flagw n a => Sys2Proof.Machine.execFlagw n a s
  | .dccr a => Sys2Proof.Machine.execDccr a s
  | .waitc a => Sys2Proof.Machine.execWaitc a s
  | .align g timeout => Sys2Proof.Machine.execAlign g timeout s
  | .alignComplete g => Sys2Proof.Machine.execAlignComplete g s
  | .alignTimeout serial => Sys2Proof.Machine.execAlignTimeout serial s
  | .qpush q pd a => Sys2Proof.Machine.execQpush q pd a s
  | .qpusht q pd n b c => Sys2Proof.Machine.execQpusht q pd n b c s
  | .tmpl n a => Sys2Proof.Machine.execTmpl n a s
  | .qstat q a => Sys2Proof.Machine.execQstat q a s
  | .cruiserRecordCheck q r => Sys2Proof.Machine.execCruiserRecordCheck q r s
  | .shape a => Sys2Proof.Machine.execShape a s
  | .shapeGrant sh => Sys2Proof.Machine.execShapeGrant sh s
  | .mburst n => Sys2Proof.Machine.execMburst n s
  | .mburstWindowEnd serial => Sys2Proof.Machine.execMburstWindowEnd serial s
  | .rampUpDone serial => Sys2Proof.Machine.execRampUpDone serial s
  | .rampHoldExpiry serial => Sys2Proof.Machine.execRampHoldExpiry serial s
  | .rampDownEnd serial => Sys2Proof.Machine.execRampDownEnd serial s
  | .layer e a => Sys2Proof.Machine.execLayer e a s
  | .pload slot a n => Sys2Proof.Machine.execPload slot a n s
  | .ploadInstall slot prog => Sys2Proof.Machine.execPloadInstall slot prog s
  | .pbind slot port => Sys2Proof.Machine.execPbind slot port s
  | .pbindUn slot => Sys2Proof.Machine.execPbindUn slot s
  | .pconst port k a => Sys2Proof.Machine.execPconst port k a s
  | .pctl slot ctl => Sys2Proof.Machine.execPctl slot ctl s
  | .pstat a slot => Sys2Proof.Machine.execPstat a slot s
  | .ttagRd a tile => Sys2Proof.Machine.execTtagRd a tile s
  | .ttagWr tile a => Sys2Proof.Machine.execTtagWr tile a s
  | .tclr tile => Sys2Proof.Machine.execTclr tile s
  | .csrr a c => Sys2Proof.Machine.execCsrr a c s
  | .csrw c a => Sys2Proof.Machine.execCsrw c a s
  | .trap code => Sys2Proof.Machine.execTrap code s
  | .lsstep a => Sys2Proof.Machine.execLsstep a s
  | .seed a => Sys2Proof.Machine.execSeed a s
  | .event code a => Sys2Proof.Machine.execEvent code a s
  | .ctxsave a => Sys2Proof.Machine.execCtxsave a s
  | .ctxload a => Sys2Proof.Machine.execCtxload a s
  | .chiselFadd d a b rm => Sys2Proof.Machine.execChiselFadd d a b rm s
  | .chiselFsub d a b rm => Sys2Proof.Machine.execChiselFsub d a b rm s
  | .chiselFmul d a b rm => Sys2Proof.Machine.execChiselFmul d a b rm s
  | .chiselFma d a b c rm => Sys2Proof.Machine.execChiselFma d a b c rm s
  | .chiselFmin d a b => Sys2Proof.Machine.execChiselFmin d a b s
  | .chiselFmax d a b => Sys2Proof.Machine.execChiselFmax d a b s
  | .chiselFabs d a => Sys2Proof.Machine.execChiselFabs d a s
  | .chiselFneg d a => Sys2Proof.Machine.execChiselFneg d a s
  | .chiselClamp d a lo hi => Sys2Proof.Machine.execChiselClamp d a lo hi s
  | .chiselFcmp d a b c => Sys2Proof.Machine.execChiselFcmp d a b c s
  | .chiselSel d a b q => Sys2Proof.Machine.execChiselSel d a b q s
  | .chiselCvt d a fmt rm => Sys2Proof.Machine.execChiselCvt d a fmt rm s
  | .chiselCvtI2f d a rm => Sys2Proof.Machine.execChiselCvtI2f d a rm s
  | .chiselExp2 d a => Sys2Proof.Machine.execChiselExp2 d a s
  | .chiselLog2 d a => Sys2Proof.Machine.execChiselLog2 d a s
  | .chiselRcp d a => Sys2Proof.Machine.execChiselRcp d a s
  | .chiselRsqrt d a => Sys2Proof.Machine.execChiselRsqrt d a s
  | .chiselIadd d a b => Sys2Proof.Machine.execChiselIadd d a b s
  | .chiselIaddImm d a imm => Sys2Proof.Machine.execChiselIaddImm d a imm s
  | .chiselIand d a b => Sys2Proof.Machine.execChiselIand d a b s
  | .chiselIandImm d a imm => Sys2Proof.Machine.execChiselIandImm d a imm s
  | .chiselIshl d a b => Sys2Proof.Machine.execChiselIshl d a b s
  | .chiselIshlImm d a imm => Sys2Proof.Machine.execChiselIshlImm d a imm s
  | .chiselMovk d k => Sys2Proof.Machine.execChiselMovk d k s
  | .chiselMovkX d a => Sys2Proof.Machine.execChiselMovkX d a s
  | .chiselGetc d c => Sys2Proof.Machine.execChiselGetc d c s
  | .chiselPutc c a => Sys2Proof.Machine.execChiselPutc c a s
  | .chiselPrev d a n => Sys2Proof.Machine.execChiselPrev d a n s
  | .chiselCacc c a mode rm => Sys2Proof.Machine.execChiselCacc c a mode rm s
  | .chiselRaise q a flags => Sys2Proof.Machine.execChiselRaise q a flags s
  | .chiselOut a => Sys2Proof.Machine.execChiselOut a s
  | .chiselCoordRow d => Sys2Proof.Machine.execChiselCoordRow d s
  | .chiselCoordCol d => Sys2Proof.Machine.execChiselCoordCol d s
  | .chiselDrop q => Sys2Proof.Machine.execChiselDrop q s
  | .mma r b => Sys2Proof.Machine.execMma r b s
  | .mmaSp r b => Sys2Proof.Machine.execMmaSp r b s
  | .mmaMx r b => Sys2Proof.Machine.execMmaMx r b s
  | .accz r b => Sys2Proof.Machine.execAccz r b s
  | .accst r b => Sys2Proof.Machine.execAccst r b s
  | .fload r b => Sys2Proof.Machine.execFload r b s
  | .forest r b => Sys2Proof.Machine.execForest r b s
  | .leafg r b => Sys2Proof.Machine.execLeafg r b s
  | .copy r b => Sys2Proof.Machine.execCopy r b s
  | .fill r b => Sys2Proof.Machine.execFill r b s
  | .reduce r b => Sys2Proof.Machine.execReduce r b s
  | .quant r b => Sys2Proof.Machine.execQuant r b s
  | .deq r b => Sys2Proof.Machine.execDeq r b s
  | .attn r b => Sys2Proof.Machine.execAttn r b s
  | .kappend r b => Sys2Proof.Machine.execKappend r b s
  | .kchase r b => Sys2Proof.Machine.execKchase r b s
  | .yarderHoldExpiry line => Sys2Proof.Machine.execYarderHoldExpiry line s
  | .rspanK r b => Sys2Proof.Machine.execRspanK r b s
  | .rspanC r b => Sys2Proof.Machine.execRspanC r b s
  | .ktopk r b => Sys2Proof.Machine.execKtopk r b s
  | .kcompact r b => Sys2Proof.Machine.execKcompact r b s
  | .beamset r b => Sys2Proof.Machine.execBeamset r b s
  | .sgath r b => Sys2Proof.Machine.execSgath r b s
  | .sgpat r b => Sys2Proof.Machine.execSgpat r b s
  | .setf r b => Sys2Proof.Machine.execSetf r b s
  | .setfFlagWrite n clr => Sys2Proof.Machine.execSetfFlagWrite n clr s
  | .waitf r b => Sys2Proof.Machine.execWaitf r b s
  | .waitfComplete q => Sys2Proof.Machine.execWaitfComplete q s
  | .boundaryReplay serial => Sys2Proof.Machine.execBoundaryReplay serial s
  | .killComplete launch cause => Sys2Proof.Machine.execKillComplete launch cause s
  | .schedulingDecision part => Sys2Proof.Machine.execSchedulingDecision part s
  | .commitGraceExpiry serial => Sys2Proof.Machine.execCommitGraceExpiry serial s
  | .notifyStore q v node => Sys2Proof.Machine.execNotifyStore q v node s
  | .launchStart launch => Sys2Proof.Machine.execLaunchStart launch s
  | .tstartCheck launch => Sys2Proof.Machine.execTstartCheck launch s
  | .predDoneResume launch => Sys2Proof.Machine.execPredDoneResume launch s
  | .periodStart part cid => Sys2Proof.Machine.execPeriodStart part cid s
  | .budgetExhausted part cid => Sys2Proof.Machine.execBudgetExhausted part cid s
  | .deadlineMiss launch => Sys2Proof.Machine.execDeadlineMiss launch s
  | .quantumExpiry serial => Sys2Proof.Machine.execQuantumExpiry serial s
  | .queueDescriptorWrite q w0 w1 => Sys2Proof.Machine.execQueueDescriptorWrite q w0 w1 s
  | .residentSlotWrite part slot v => Sys2Proof.Machine.execResidentSlotWrite part slot v s
  | .contractWrite part cid w0 w1 w2 w3 w4 w5 => Sys2Proof.Machine.execContractWrite part cid w0 w1 w2 w3 w4 w5 s
  | .resumeWord part v => Sys2Proof.Machine.execResumeWord part v s
  | .fenceWordWrite v => Sys2Proof.Machine.execFenceWordWrite v s
  | .rtloadWrite part => Sys2Proof.Machine.execRtloadWrite part s
  | .encoderSlotWrite part slot w0 w1 w2 w3 w4 => Sys2Proof.Machine.execEncoderSlotWrite part slot w0 w1 w2 w3 w4 s
  | .mgmtRegisterWrite node r => Sys2Proof.Machine.execMgmtRegisterWrite node r s
  | .flitReceive link f => Sys2Proof.Machine.execFlitReceive link f s
  | .linkRetrainDone link => Sys2Proof.Machine.execLinkRetrainDone link s
  | .linkDown link => Sys2Proof.Machine.execLinkDown link s
  | .fabricTransaction t => Sys2Proof.Machine.execFabricTransaction t s
  | .transactionAck id a data => Sys2Proof.Machine.execTransactionAck id a data s
  | .frameStart part slot => Sys2Proof.Machine.execFrameStart part slot s
  | .frameComplete part slot => Sys2Proof.Machine.execFrameComplete part slot s
  | .status req => Sys2Proof.Machine.execStatus req s
  | .readId req => Sys2Proof.Machine.execReadId req s
  | .readLog req => Sys2Proof.Machine.execReadLog req s
  | .loadRecovery req => Sys2Proof.Machine.execLoadRecovery req s
  | .readSensors req => Sys2Proof.Machine.execReadSensors req s
  | .attest req => Sys2Proof.Machine.execAttest req s
  | .updateWrite req => Sys2Proof.Machine.execUpdateWrite req s
  | .updateActivate req => Sys2Proof.Machine.execUpdateActivate req s
  | .readConfig req => Sys2Proof.Machine.execReadConfig req s
  | .powerUp cxlCaps => Sys2Proof.Machine.execPowerUp cxlCaps s
  | .unassignedOpcode w => Sys2Proof.Machine.execUnassignedOpcode w s
  | .hciWrite vf node hci => Sys2Proof.Machine.execHciWrite vf node hci s
  | .cxlDeviceFailed port => Sys2Proof.Machine.execCxlDeviceFailed port s
  | .minv => Sys2Proof.Machine.execMinv s
  | .mpop => Sys2Proof.Machine.execMpop s
  | .commitCheck => Sys2Proof.Machine.execCommitCheck s
  | .reentry => Sys2Proof.Machine.execReentry s
  | .waitcExpiry => Sys2Proof.Machine.execWaitcExpiry s
  | .eret => Sys2Proof.Machine.execEret s
  | .halt => Sys2Proof.Machine.execHalt s
  | .yield => Sys2Proof.Machine.execYield s
  | .nop => Sys2Proof.Machine.execNop s
  | .preemptArrival => Sys2Proof.Machine.execPreemptArrival s
  | .saveAreaReserve => Sys2Proof.Machine.execSaveAreaReserve s
  | .contextSwap => Sys2Proof.Machine.execContextSwap s
  | .contextUnreserve => Sys2Proof.Machine.execContextUnreserve s
  | .scannerTick => Sys2Proof.Machine.execScannerTick s
  | .sensorRefresh => Sys2Proof.Machine.execSensorRefresh s
  | .thermalCoolRaise => Sys2Proof.Machine.execThermalCoolRaise s
  | .thermalTrip => Sys2Proof.Machine.execThermalTrip s
  | .powerLoss => Sys2Proof.Machine.execPowerLoss s

end Sys2Proof.Machine
end

