-- ==== Sys2Proof/Machine/Checker.lean ====
section
/-! DEFINITION. The Cruiser: it executes the bundles of both contexts again with registers of its own, 6 cycles after the main stream, and
its outputs are compared with those of the main stream (R334 to R336). Errors that strike the part (R337, R338). -/

namespace Sys2Proof.Machine

/-- A value reaches a stream. -/
def Stream.take (x : Stream) : Given → Stream
  | .s r v => if r = 0 then x else { x with s := x.s.set r.toNat v r.isLt }
  | .p r v => if r = 0 then x else { x with p := setBit x.p r.toNat v }
  | .h r v => { x with h := x.h.set r.toNat v r.isLt }

def Cruiser.onStream (x : Cruiser) (fw : Bool) (f : Stream → Stream) : Cruiser :=
  if fw then { x with firm := f x.firm } else { x with user := f x.user }

/-- Values that reach the Cruiser in the present cycle. -/
def Cruiser.hear (x : Cruiser) (dcc : Nat) : Cruiser :=
  let due := x.told.filter fun v => decide (v.due ≤ dcc)
  due.foldl (fun (y : Cruiser) v => y.onStream v.fw fun z => z.take v.given) { x with told := x.told.filter fun v => decide (dcc < v.due) }

/-- The machine as the Cruiser's own copy of a bundle sees it: its registers, the CSRs and the sequence of the main stream, and nothing in
flight. What is made of this state serves for the registers and the results in flight alone. -/
def State.copyOf (s : State) (e : Reexec) (x : Stream) : State :=
  { s with agenda := [] }.onCore fun c =>
    let a := { c.arch with s := x.s, p := x.p, h := x.h, mask := x.mask, csr := e.csr }
    { c with
      mode := if e.fw then .firmware else .user, arch := a, pre := a, pc := e.next, bpc := e.at_, bend := e.next
      layer := e.layer, trap := none, reg := { c.reg with isOpen := !e.fw && e.entry != 0 } }

/-- A slot executed again with the Cruiser's registers; what it takes from outside comes apart from it. -/
def State.copyStep (s : State) (i : Instr) : State :=
  match i with
  | .ld _ m sz _ inc => s.postInc inc m.x (sizeBytes sz)
  | .st _ m sz inc => s.postInc inc m.x (sizeBytes sz)
  | .csrr .. | .dccr .. | .qstat .. | .pstat .. | .ttagRd .. | .rvflags .. | .qpush .. | .qpusht .. | .xlate .. | .amo .. | .layer ..
  | .ctxsave .. | .ctxload .. => s
  | _ =>
    match exec i s with
    | .next t => t
    | .fault _ | .refused _ => s

/-- Is the guard of a slot true on the Cruiser's registers? -/
def State.ownGuard (s : State) (x : Sender) : Bool := s.core.pre.preg x.pg != x.pn

/-- Results in flight of the Cruiser's own. -/
def ownResults (fw : Bool) (l : List Ev) : List Told :=
  l.filterMap fun e => match e.act with
    | .scalarWriteback (.s r) v _ => some ⟨e.due, fw, .s r v⟩
    | .scalarWriteback (.p r) v _ => some ⟨e.due, fw, .p r (v.getLsbD 0)⟩
    | _ => none

/-- The registers of a stream after a bundle, and its results in flight. A LAYER goes where the main stream's does. -/
def State.copied (s : State) (e : Reexec) (x : Stream) : Stream × List Told :=
  let v := s.copyOf e x
  let on := e.slots.filter v.ownGuard
  let t := on.foldl (fun (t : State) y =>
    (t.onCore fun c => { c with wpc := y.at_.wpc, wword := y.at_.wword }).copyStep y.at_.act) v
  let layer := on.any fun y => match y.at_.act with
    | .layer .. => true
    | _ => false
  let pc := if layer then e.leads else t.core.pc
  (e.given.foldl Stream.take { t.core.arch.stream pc with stray := x.stray || pc != e.leads }, ownResults e.fw t.agenda)

/-- What the Cruiser's copy of each slot sends. A stream that has gone another way sends none of it. -/
def State.ownOutputs (s : State) (e : Reexec) (x : Stream) : List (Sender × List Byte) :=
  let v := s.copyOf e x
  e.slots.map fun y => (y, if x.stray || !v.ownGuard y then [] else v.outputOf y.tmpl y.at_.act)

/-- The first word that two byte strings differ in. -/
def firstDiff : List (List Byte) → List (List Byte) → Nat
  | a :: l, b :: m => if a = b then 1 + firstDiff l m else 0
  | _, _ => 0

/-- A message of boundary code whose copy differs never leaves the core: the work of its bundle is taken back (R336). -/
def State.withhold (s : State) (e : Reexec) : State :=
  let ours (n : Nat) : Bool := decide (e.first ≤ n) && decide (n < e.upto)
  (s.cancel fun v => e.made.contains v).onCore fun c =>
    { c with io := c.io.filter fun a => !ours a.id, waits := c.waits.filter fun w => !ours w.id }

/-- CHECK_MISMATCH of a record or of a message. A message's record names its instruction (DEDUCED, log entry 80). -/
def State.differs (s : State) (e : Reexec) (x : Sender) (mine : List Byte) : State :=
  let sent := x.sent.getD []
  let k := firstDiff (splitEvery 8 9 sent) (splitEvery 8 9 mine)
  let word (bs : List Byte) : Word := leWord ((bs.drop (8 * k)).take 8)
  if e.fw then (s.withhold e).abandon cCHECK_MISMATCH
  else
    match (s.copyOf e s.core.cruiser.user).recordIn x.tmpl x.at_.act with
    | some (q, r) =>
      s.takeTrap { (s.cmdRec cCHECK_MISMATCH q r 7 (word sent) (word mine)) with
        v1 := ofFields [(k - 1, 32), (7, 28), (s.cyc, 0)] }
    | none =>
      let t := if e.entry = 0 then s.withhold e else s
      t.takeTrap (s.recOf x.named x.pos cCHECK_MISMATCH 0)

/-- Is the output of a slot compared as it is made: a record, and a message of boundary code (R335)? -/
def comparedAt (e : Reexec) (here : Bool) (i : Instr) : Bool :=
  e.entry == 0 || here && (!digested i || (match i with
    | .qpush .. | .qpusht .. => true
    | _ => false))

/-- The Cruiser executes a bundle again: its registers and its digest take what the bundle makes of them, and records and the messages of
boundary code are compared. A bundle of an entry that is no longer open counts no more. -/
def State.reexecute (s : State) (e : Reexec) : State :=
  let x := if e.fw then s.core.cruiser.firm else s.core.cruiser.user
  let here := e.entry == s.entryNow
  let mine := s.ownOutputs e x
  let after := s.copied e x
  let add := digestOf (mine.map fun y => (y.1.at_.act, y.1.sent.map fun _ => y.2))
  let t := s.onCore fun c =>
    { c with cruiser :=
        let k := c.cruiser.onStream e.fw fun _ => after.1
        { k with told := k.told ++ after.2, digest := if e.entry ≠ 0 ∧ here = true then crcAdd k.digest add else k.digest } }
  match mine.find? fun y => y.1.sent.any (fun b => b != y.2) && comparedAt e here y.1.at_.act with
  | some y => t.differs e y.1 y.2
  | none => t

/-- What falls to the Cruiser in the present cycle: values first, then bundles. -/
def State.cruise (s : State) : State :=
  let due := s.core.cruiser.lag.filter fun e => decide (e.due ≤ s.dcc)
  due.foldl (fun (t : State) e => t.reexecute e)
    (s.onCore fun c =>
      let k := c.cruiser.hear s.dcc
      { c with cruiser := { k with lag := k.lag.filter fun e => decide (s.dcc < e.due) } })

/-! Errors that strike the part. An input says which strike and when (R337, R338) (DESIGN CHOICE, log entry 96). -/

/-- The scalar register of a stream with one bit turned over. -/
def flipReg (v : Vector Word 64) (r : Reg) (b : Nat) : Vector Word 64 :=
  v.set r.toNat (v.get r.toFin ^^^ BitVec.ofNat 64 (2 ^ (b % 64))) r.isLt

/-- An error strikes: one that is correctable is corrected in flight and logged; a word with an uncorrectable one is poisoned where it is
stored; one of a command's unit is its POISON, which is not stored; a register of a stream has another value. -/
def State.strike (s : State) : Upset → State
  | .corrected a => s.log logCorrected a
  | .memory a => { s with poison := if s.poison.contains (a / 8 * 8) then s.poison else s.poison ++ [a / 8 * 8] }
  | .local_ n o =>
    (s.focusPhys n).onLs fun l => { l with poison := if l.poison.contains (o / 8 * 8) then l.poison else l.poison ++ [o / 8 * 8] }
  | .command n q unit =>
    let t := s.focusPhys n
    match t.core.eng.runs.find? fun r => r.q == q && !r.chasing with
    | some r => t.cmdFault cPOISON q r.e.r unit 0 0
    | none => t
  | .register n cruiser r b =>
    let t := s.focusPhys n
    if r = 0 then t
    else if cruiser then t.onCore fun c => { c with cruiser := { c.cruiser with user := { c.cruiser.user with s := flipReg c.cruiser.user.s r b } } }
    else t.onArch fun a => { a with s := flipReg a.s r b }

/-- The errors of the present cycle. -/
def State.strikes (s : State) : State :=
  let due := s.upsets.filter fun u => decide (u.1 ≤ s.dcc)
  due.foldl (fun (t : State) u => t.strike u.2) { s with upsets := s.upsets.filter fun u => decide (s.dcc < u.1) }

end Sys2Proof.Machine
end

