-- ==== Sys2Proof/Machine/Issue.lean ====
section
/-! DEFINITION. The issue of bundles: which registers an instruction names (R75, R92), fetching and checking a bundle (R72 to
R77, R308, R345), false slots (R94), and the two contexts of a core (R10, R33). -/

namespace Sys2Proof.Machine

/-- Apply a function to the next state, if there is one. -/
def mapOut (f : State → State) : Out → Out
  | .next s => .next (f s)
  | .fault r => .fault r
  | .refused r => .refused r

/-! What an instruction names (R92). -/

def sregs (l : List Reg) : List PendDest := l.map .s

/-- The eight registers of a record (R87). -/
def recordRegs (a : Reg) : List PendDest := (List.range 8).map fun i => .s (a + BitVec.ofNat 6 i)

/-- p1 to p7. -/
def allPreds : List PendDest := (List.range 7).map fun i => .p (BitVec.ofNat 3 (i + 1))

/-- The s, p and h registers that an instruction's word names as sources, its guard apart; a chisel slot with a PLOAD in flight is
waited for too (R188). -/
def readsOf : Instr → List PendDest
  | .add _ a b | .sub _ a b | .and _ a b | .or _ a b | .xor _ a b | .andn _ a b | .shl _ a b | .shr _ a b | .sar _ a b
  | .rol _ a b | .ror _ a b | .mul _ a b | .mulh _ a b | .mulhn _ a b | .div _ a b | .divn _ a b | .rem _ a b
  | .remn _ a b | .min _ a b | .max _ a b | .minn _ a b | .maxn _ a b | .sext _ a b | .zext _ a b => sregs [a, b]
  | .clz _ a | .ctz _ a | .popc _ a | .bswap _ a => sregs [a]
  | .addi _ a _ | .andi _ a _ | .ori _ a _ | .xori _ a _ | .shli _ a _ | .shri _ a _ | .sari _ a _ | .muli _ a _ => sregs [a]
  | .lih d _ => sregs [d]
  | .cmp _ a b _ => sregs [a, b]
  | .cmpi _ a _ _ => sregs [a]
  | .pand _ a b | .por _ a b | .pxor _ a b => [.p a, .p b]
  | .pnot _ a | .pmov _ a => [.p a]
  | .sel _ a b c => [.s a, .s b, .p c]
  | .movpsGet _ => allPreds
  | .movpsSet a => sregs [a]
  | .fadd _ a b _ _ | .fsub _ a b _ _ | .fmul _ a b _ _ | .fdiv _ a b _ _ | .fmin _ a b | .fmax _ a b
  | .fcmp _ a b _ => sregs [a, b]
  | .fsqrt _ a _ _ | .fabs _ a | .fneg _ a | .fcvtF2i _ a _ | .fcvtI2f _ a _ | .fcvtF2b _ a _ _ | .fcvtB2f _ a => sregs [a]
  | .bcmp a b _ _ => sregs [a, b]
  | .ret a | .bi a | .loop a _ => sregs [a]
  | .mpush a b => sregs [a, b]
  | .xlate _ x _ => sregs [x]
  | .hinfo _ h => [.h h]
  | .ld _ m _ _ _ | .pref m => [.s m.x, .h m.h]
  | .st d m _ _ => [.s d, .s m.x, .h m.h]
  | .amo _ m _ _ b c _ => [.s m.x, .h m.h, .s b, .s c]
  | .amop m _ b _ => [.s m.x, .h m.h, .s b]
  | .probe d x _ => sregs [d, x]
  | .rvinit _ _ a | .flagw _ a | .waitc a | .shape a | .layer _ a | .pconst _ _ a | .ttagWr _ a | .csrw _ a | .lsstep a
  | .seed a | .event _ a | .ctxsave a | .ctxload a => sregs [a]
  | .qpush _ _ a | .tmpl _ a => recordRegs a
  | .qpusht _ _ _ b c => sregs [b, c]
  | .pload slot a _ => [.s a, .slot slot]
  | .pbind slot _ | .pbindUn slot | .pctl slot _ | .pstat _ slot => [.slot slot]
  | _ => []

/-- The s, p and h registers that an instruction names as a destination (R75). -/
def writesOf : Instr → List PendDest
  | .add d _ _ | .sub d _ _ | .and d _ _ | .or d _ _ | .xor d _ _ | .andn d _ _ | .shl d _ _ | .shr d _ _ | .sar d _ _
  | .rol d _ _ | .ror d _ _ | .mul d _ _ | .mulh d _ _ | .mulhn d _ _ | .div d _ _ | .divn d _ _ | .rem d _ _
  | .remn d _ _ | .min d _ _ | .max d _ _ | .minn d _ _ | .maxn d _ _ | .sext d _ _ | .zext d _ _ => sregs [d]
  | .clz d _ | .ctz d _ | .popc d _ | .bswap d _ => sregs [d]
  | .addi d _ _ | .andi d _ _ | .ori d _ _ | .xori d _ _ | .shli d _ _ | .shri d _ _ | .sari d _ _ | .muli d _ _ => sregs [d]
  | .li d _ | .lih d _ | .la d _ => sregs [d]
  | .cmp d _ _ _ | .cmpi d _ _ _ | .pand d _ _ | .por d _ _ | .pxor d _ _ | .pnot d _ | .pmov d _ | .fcmp d _ _ _ => [.p d]
  | .sel d _ _ _ | .movpsGet d => sregs [d]
  | .movpsSet _ => allPreds
  | .fadd d _ _ _ _ | .fsub d _ _ _ _ | .fmul d _ _ _ _ | .fdiv d _ _ _ _ | .fmin d _ _ | .fmax d _ _ => sregs [d]
  | .fsqrt d _ _ _ | .fabs d _ | .fneg d _ | .fcvtF2i d _ _ | .fcvtI2f d _ _ | .fcvtF2b d _ _ _ | .fcvtB2f d _ => sregs [d]
  | .call a _ | .loop a _ => sregs [a]
  | .mget a b => sregs [a, b]
  | .xlate h _ _ | .hinv h => [.h h]
  | .hinfo d _ => sregs [d, d + 1]
  | .ld d m _ _ inc => sregs (if inc then [d, m.x] else [d])
  | .st _ m _ inc => sregs (if inc then [m.x] else [])
  | .amo d _ _ _ _ _ _ => sregs [d]
  | .rvflags _ _ a | .dccr a | .qstat _ a | .pstat a _ | .ttagRd a _ | .csrr a _ => sregs [a]
  | .qpush _ pd _ | .qpusht _ pd _ _ _ => [.p pd]
  | _ => []

/-- Use of a unit that is not pipelined (R91). -/
def usesDiv : Instr → Bool
  | .div .. | .divn .. | .rem .. | .remn .. => true
  | _ => false

def usesFdiv : Instr → Bool
  | .fdiv .. | .fsqrt .. => true
  | _ => false

/-- Destinations with a latency beyond one cycle, and the earliest latency (R91, R124, R130, R134, R145, R183). -/
def State.lateDests (s : State) : Instr → List (PendDest × Nat)
  | .mul d _ _ | .mulh d _ _ | .mulhn d _ _ | .muli d _ _ => [(.s d, 3)]
  | .div d _ _ | .divn d _ _ | .rem d _ _ | .remn d _ _ => [(.s d, 20)]
  | .fadd d _ _ _ _ | .fsub d _ _ _ _ | .fmul d _ _ _ _ | .fmin d _ _ | .fmax d _ _ | .fcvtF2i d _ _ | .fcvtI2f d _ _
  | .fcvtF2b d _ _ _ | .fcvtB2f d _ => [(.s d, 4)]
  | .fdiv d _ _ _ _ | .fsqrt d _ _ _ => [(.s d, 14)]
  | .fcmp d _ _ _ => [(.p d, 4)]
  | .ld d m _ _ _ => [(.s d, if m.h = 0 then 4 else returnTime)]
  | .amo d _ _ _ _ _ _ => [(.s d, returnTime)]
  | .xlate h _ _ => [(.h h, 64)]
  | .rvflags g _ a => [(.s a, match s.group g with
    | some x => 2 * s.msgTime x
    | none => 40)]
  | .pload slot _ _ => [(.slot slot, 4)]
  | _ => []

/-- A slot whose guard is false: its destinations are pending for the true slot's latency, and its unit is occupied (R94). -/
def State.falseSlot (s : State) (i : Instr) : State :=
  let s := (s.lateDests i).foldl (fun (t : State) d => t.pending d.1 (some (s.dcc + d.2))) s
  if usesDiv i then s.useDivider else if usesFdiv i then s.useFdivider else s

/-! Fetch. -/

/-- A word of code, or why there is none. -/
inductive CodeWord where
  | word (w : Word)
  | outside
  | unmapped
  deriving DecidableEq, Repr

/-- A word of code whose contents are open. -/
def State.openWord (s : State) : CodeWord × State :=
  let r := s.useFree
  (.word (Config.freeWord r.1), r.2)

/-- The word of a program at an address in its code range. It is read at its home slice, and so is its translation (R280). A
poisoned word, or one whose walk meets poison, has contents that are open (DEDUCED, log entry 21); so has one that a leaf maps to the
fabric. -/
def State.programWord (s : State) (l : Launch) (v : Word) : CodeWord × State :=
  match s.walk l.vf v.toNat with
  | (.invalid, t) => (.unmapped, t)
  | (.poison .., t) => t.openWord
  | (.leaf lg base _ _ _ _, t) =>
    let a := base + v.toNat % 2 ^ lg
    let t := t.touch a
    if isFabric a || (t.poisonedWord a 8).isSome then t.openWord else (.word (t.peekWord a), t)

/-- The word at an address of the context that issues. Inside a LAYER sequence an address is 8 times a word index (R345). -/
def State.codeWord (s : State) (v : Word) : CodeWord × State :=
  if s.firmware then (.word (Config.firmwareWord v), s)
  else
    match s.core.layer with
    | some l => match l.words[v.toNat / 8]? with
      | some w => (.word w, s)
      | none => (.outside, s)
    | none =>
      match s.launch with
      | none => (.outside, s)
      | some l =>
        if v.toNat < l.codeva.toNat || decide (l.codeva.toNat + l.codelen ≤ v.toNat) then (.outside, s) else s.programWord l v

/-- The words of a bundle with their addresses; or the words read, with the word that
the search for an E bit names; or a page that is not
mapped. -/
inductive Fetched where
  | words (l : List (Word × Word))
  | bad (l : List (Word × Word)) (a w : Word)
  | unmapped
  deriving DecidableEq, Repr

/-- Search up to `k` words from `v` on for one with E = 1 (R74). For an address outside the code no word is read, and the record of
its fault has contents 0 (DESIGN CHOICE, log entry 89). -/
def State.fetchFrom (s : State) : Nat → Word → List (Word × Word) → Fetched × State
  | 0, v, acc => (.bad acc (v - 8) ((acc.getLast?.map (·.2)).getD 0), s)
  | k + 1, v, acc =>
    match s.codeWord v with
    | (.word w, t) => if w.getLsbD 63 then (.words (acc ++ [(v, w)]), t) else State.fetchFrom t k (v + 8) (acc ++ [(v, w)])
    | (.outside, t) =>
      (if s.core.layer.isSome then .bad acc (v - 8) ((acc.getLast?.map (·.2)).getD 0) else .bad acc v 0, t)
    | (.unmapped, t) => (.unmapped, t)

def State.fetchBundle (s : State) : Fetched × State := s.fetchFrom 4 s.core.pc []

/-! The checks of a bundle (R73 to R77). -/

/-- A slot with the address of its word. -/
abbrev Placed := Word × Slot

/-- A failed check: its cause, and the address and contents of the word it names. -/
structure Failed where
  cause : BitVec 8
  addr : Word
  word : Word
  deriving DecidableEq, Repr

/-- What only the firmware context may issue (R34) (DEDUCED, log entry 43). -/
def privileged : Instr → Bool
  | .eret | .ctxsave _ | .ctxload _ => true
  | .csrr _ c | .csrw c _ => csrPrivileged c
  | _ => false

def classLimit : SlotClass → Nat
  | .x => 2
  | .l | .q | .b | .alone => 1
  | .none => 4

/-- Words that take their class beyond its limit, and a REGION with company (R74). -/
def classFaults (n : Nat) : List SlotClass → List (Word × Word) → List Failed
  | _, [] => []
  | seen, (a, w) :: rest =>
    let c := classOf (wfield w 58 52)
    let bad := match c with
      | .alone => decide (1 < n)
      | .none => false
      | _ => decide (classLimit c ≤ (seen.filter fun k => k == c).length)
    (if bad then [⟨cILLEGAL, a, w⟩] else []) ++ classFaults n (c :: seen) rest

/-- Words that name a destination which an earlier word names (R75). s0 and p0 are exempt. -/
def destFaults : List PendDest → List Placed → List Failed
  | _, [] => []
  | seen, (a, y) :: rest =>
    let ds := (writesOf y.instr).filter PendDest.real
    (if ds.any seen.contains then [⟨cILLEGAL, a, y.word⟩] else []) ++ destFaults (ds ++ seen) rest

/-- A word that is no encoding, or whose opcode is unassigned (R81). -/
def wordFault (x : Word × Word) : List Failed :=
  match decodeSlot x.2 with
  | .error _ => [⟨cILLEGAL, x.1, x.2⟩]
  | .ok y => match y.instr with
    | .unassignedOpcode _ => [⟨cILLEGAL, x.1, x.2⟩]
    | _ => []

/-- The slots of the words that decode (DEDUCED, log entry 58). -/
def slotsIn (ws : List (Word × Word)) : List Placed :=
  ws.filterMap fun x => match decodeSlot x.2 with
    | .ok y => some (x.1, y)
    | .error _ => none

/-- The failed checks of a bundle. -/
def bundleFaults (user : Bool) (ws : List (Word × Word)) : List Failed :=
  ws.flatMap wordFault ++ classFaults ws.length [] ws ++ destFaults [] (slotsIn ws) ++
    ((slotsIn ws).filter fun x => user && privileged x.2.instr).map fun x => ⟨cPRIV, x.1, x.2.word⟩

/-- The lowest trap code; among equal codes the lowest address (R77). -/
def firstFailed : List Failed → Option Failed
  | [] => none
  | f :: l =>
    match firstFailed l with
    | some g =>
      if g.cause.toNat < f.cause.toNat ∨ (g.cause = f.cause ∧ g.addr.toNat < f.addr.toNat) then some g else some f
    | none => some f

/-! Issue conditions (R92). -/

/-- Is a write to the destination still to come? -/
def Hazard.waitsFor (z : Hazard) (dcc : Nat) (d : PendDest) : Bool :=
  z.pend.any fun p => p.dest == d && p.due.all fun t => decide (dcc < t)

def freeUnits (busy : List Nat) (dcc : Nat) : Nat := 2 - (busy.filter fun t => decide (dcc < t)).length

/-- The handles that a push reads: those that its record names (R126). -/
def Arch.pushReads (a : Arch) : Instr → List PendDest
  | .qpush _ _ r => (handlesOf (a.recordAt r)).map .h
  | .qpusht _ _ n b c => (handlesOf (a.templateRecord n b c)).map .h
  | _ => []

/-- Sources ready, no pending writes to destinations, units free. -/
def State.hazardFree (s : State) (l : List Slot) : Bool :=
  let z := s.core.hz
  (l.all fun x =>
    !((.p x.pg :: readsOf x.instr ++ s.core.arch.pushReads x.instr ++ writesOf x.instr).any (z.waitsFor s.dcc))) &&
    decide ((l.filter fun x => usesDiv x.instr).length ≤ freeUnits z.divs s.dcc) &&
    decide ((l.filter fun x => usesFdiv x.instr).length ≤ freeUnits z.fdivs s.dcc)

/-- The guard of a slot, from before the bundle (R73, R75). -/
def State.guard (s : State) (x : Slot) : Bool := s.core.arch.preg x.pg != x.pn

/-- A true push that finds its queue full and takes no answer holds its bundle (R157). -/
def State.pushHolds (s : State) (l : List Slot) : Bool :=
  let t := s.onCore fun c => { c with pre := c.arch }
  l.any fun x => s.guard x && (match x.instr with
    | .qpush q pd a => t.pushWaits q pd (t.core.pre.recordAt a)
    | .qpusht q pd n b c => t.pushWaits q pd (t.core.pre.templateRecord n b c)
    | _ => false) && s.inRegion && !s.firmware

/-! The issue of a bundle. -/

/-- What a context that was stopped at its blocking instruction issues again (R320). -/
def blocking : Instr → Bool
  | .bar _ | .waitrv .. | .waitc _ | .align .. => true
  | _ => false

/-- Two instructions of one bundle that may write one CSR: their order is open (DESIGN CHOICE, log entry 8). -/
def writesCsr : Instr → Bool
  | .csrw .. | .lsstep _ | .seed _ => true
  | _ => false

/-- The rank of a slot in the order in which the slots of a bundle take effect: reads of CSRs, class X, class Q, class B, LAYER,
class L, HALT. Operands come from before the bundle, so that the order shows nowhere else (R75). -/
def slotRank (x : Slot) : Nat :=
  match x.instr with
  | .csrr .. => 0
  | .layer .. => 4
  | .halt => 6
  | _ => match x.cls with
    | .x => 1
    | .q | .alone | .none => 2
    | .b => 3
    | .l => 5

def insertPlaced (x : Placed) : List Placed → List Placed
  | [] => [x]
  | y :: l => if slotRank x.2 < slotRank y.2 then x :: y :: l else y :: insertPlaced x l

/-- The slots in the order in which they take effect. `swap` turns two writes of CSRs round. -/
def slotOrder (swap : Bool) (l : List Placed) : List Placed :=
  (if swap then l.reverse else l).foldl (fun acc x => insertPlaced x acc) []

/-- Is the guard of a slot of the present bundle true? -/
def State.slotTrue (s : State) (x : Placed) : Bool := s.core.pre.preg x.2.pg != x.2.pn

/-- Run a slot: in full, or as a false slot. -/
def State.runSlot (s : State) (x : Placed) : Out :=
  let t := s.onCore fun c => { c with wpc := x.1, wword := x.2.word }
  if s.slotTrue x then exec x.2.instr t else .next (t.falseSlot x.2.instr)

/-- Run the slots one after the other. The firmware context stops at its first fault (R333). -/
def runSlots : List Placed → State → Out
  | [], s => .next s
  | x :: rest, s =>
    if s.firmware && s.core.fw.failed then .next s
    else
      match s.runSlot x with
      | .next t => runSlots rest t
      | o => o

/-- The instructions of the slots with a true guard, with their words. -/
def State.trueSlots (s : State) (l : List Placed) : List Worded :=
  (l.filter s.slotTrue).map fun x => ⟨x.1, x.2.word, x.2.instr⟩

/-- The core as the bundle at its PC begins: the operands are fixed, the PC stands behind the bundle, and the next bundle may
issue in the next cycle (R93). Inside a LAYER sequence it is a bundle of the sequence. -/
def State.beginBundle (s : State) (next : Word) : State :=
  s.onCore fun c =>
    { c with
      pre := c.arch, bpc := c.pc, bend := next, pc := next, issued := s.dcc + 1, trap := none, blocked := []
      layer := if c.mode = .user then c.layer.map (fun l => { l with begun := true }) else c.layer
      fw := { c.fw with failed := false }
      hz := { c.hz with
        pend := c.hz.pend.filter fun p => p.due.all fun t => decide (s.dcc < t)
        divs := c.hz.divs.filter fun t => decide (s.dcc < t)
        fdivs := c.hz.fdivs.filter fun t => decide (s.dcc < t)
        issueAt := s.dcc + 1 }
      replay := if c.mode = .firmware ∨ c.replay.at_ = c.pc then c.replay else { c.replay with count := 0 } }

/-- The trap of one slot alone. -/
def trapOf : Out → Option TrapRec
  | .next t => t.core.trap
  | _ => none

/-- Of the faults of a bundle the lowest code, and among equal codes the lowest address (R95). -/
def State.bundleTrap (s : State) (l : List Placed) (x : TrapRec) : TrapRec :=
  (l.filterMap fun y => trapOf (s.runSlot y)).foldl (fun (t : TrapRec) u =>
    if u.cause.toNat < t.cause.toNat then u else t) (((l.filterMap fun y => trapOf (s.runSlot y)).head?).getD x)

/-- The state of before the bundle, with what a fault at issue leaves behind: marks of poison, fired injections, records of the
event log, and the lines and translations that the walks before the fault have brought in (R135, R280, R341). -/
def State.undo (s t : State) : State :=
  { s with
    free := t.free, himos := t.himos, poison := t.poison, lines := t.lines, mem := t.mem, cxl := t.cxl, walked := t.walked
    agenda := t.agenda.foldl (fun l e => match e.act with
      | .l2Fill _ => if l.contains e then l else Ev.insert e l
      | _ => l) s.agenda
    others := s.others.map fun c => match t.others.find? fun d => d.phys == c.phys with
      | some d => { c with errinjC := d.errinjC }
      | none => c
    core := { s.core with issued := s.dcc + 1, errinjC := t.core.errinjC, walk := none } }

/-- The bundle of a PROBE waits for the walker to come to a page that fails (R321). -/
def State.awaitWalk (s t : State) : State :=
  { s with free := t.free }.onCore fun c =>
    { c with issued := s.dcc + 1, walk := t.core.walk, hz := { c.hz with issueAt := max c.hz.issueAt (t.core.walk.getD 0) } }

/-- A bundle that has taken effect: its blocking instructions are kept (R320), the Cruiser follows (R334), and a LAYER sequence that it
is a bundle of has begun. -/
def State.keepBundle (b t : State) (l : List Placed) : State :=
  let xs := b.trueSlots l
  (State.follow b t (l.map fun x => ⟨⟨x.1, x.2.word, x.2.instr⟩, x.2.pg, x.2.pn⟩)).onCore fun c =>
    { c with blocked := if b.firmware then [] else xs.filter (fun x => blocking x.act), walk := none }

/-- After the slots: a bundle that trapped has no effect (R77, R95), nor has one of the firmware context that faulted. `s` is the
state before, `b` the one in which the bundle began, `t` the one after its slots. -/
def State.seal (s b : State) (l : List Placed) (t : State) : State :=
  if s.firmware then
    if t.core.fw.failed then (s.undo t).onCore fun c => { c with fw := { c.fw with active := false } }
    else (State.keepBundle b t l).onCore fun c => { c with trap := s.core.trap }
  else
    match t.core.trap with
    | none =>
      if s.core.walk.isNone && t.core.walk.isSome then s.awaitWalk t
      else (State.keepBundle b t l).onCore fun c => { c with trap := s.core.trap }
    | some x => (s.undo t).takeTrap (b.bundleTrap l x)

/-- A context that was stopped in a blocking bundle issues its blocking instructions again, and nothing else of it (R320). -/
def State.reissueBundle (s : State) : Out :=
  let b := s.onCore fun c => { c with issued := s.dcc + 1, trap := none, bend := c.pc, hz := { c.hz with issueAt := s.dcc + 1 } }
  let run (o : Out) (x : Worded) : Out :=
    match o with
    | .next t => exec x.act (t.onCore fun c => { c with wpc := x.wpc, wword := x.wword })
    | .fault f => .fault f
    | .refused r => .refused r
  mapOut (fun t => match t.core.trap with
    | none => (State.follow b t (s.core.blocked.map fun x => ⟨x, 0, false⟩)).onCore fun c => { c with trap := s.core.trap, reissue := false }
    | some x => (s.undo t).takeTrap x) (s.core.blocked.foldl run (.next b))

/-- A fault of the decoding of a bundle. -/
def State.failBundle (s : State) (f : Failed) : State :=
  let t := s.onCore fun c =>
    { c with issued := s.dcc + 1, layer := if c.mode = .user then c.layer.map (fun l => { l with begun := true }) else c.layer }
  let u := (t.onCore fun c => { c with wpc := f.addr, wword := f.word }).fault f.cause 0
  if s.firmware then u else u.onCore fun c => { c with wpc := s.core.wpc, wword := s.core.wword }

/-- Do two slots write CSRs? -/
def csrPair (l : List Placed) : Bool := decide (2 ≤ (l.filter fun x => writesCsr x.2.instr).length)

/-- The bundle takes effect. -/
def State.runBundle (s : State) (ws : List (Word × Word)) : Out :=
  let l := slotsIn ws
  let last := (ws.getLast?.map (·.1)).getD s.core.pc
  let c := if csrPair l then s.choice else (false, s)
  let b := c.2.beginBundle (last + 8)
  mapOut (s.seal b l) (runSlots (slotOrder c.1 l) b)

/-- Issue from the PC of the context in control, if its hazards allow. A bundle that fails its checks waits for no hazard
(DESIGN CHOICE, log entry 90). -/
def State.issueAtPc (s : State) : Option Out :=
  match s.fetchBundle with
  | (.unmapped, _) => some (.fault .codeUnmapped)
  | (.bad ws a w, t) =>
    let f : Failed := ⟨cILLEGAL, a, w⟩
    some (.next (t.failBundle ((firstFailed (bundleFaults (!s.firmware) ws ++ [f])).getD f)))
  | (.words ws, t) =>
    match firstFailed (bundleFaults (!s.firmware) ws) with
    | some f => some (.next (t.failBundle f))
    | none =>
      let l := (slotsIn ws).map (·.2)
      if t.hazardFree l && !t.pushHolds l then some (t.runBundle ws) else none

/-! The two contexts of a core (R33). -/

/-- Control has passed beyond the last word of a LAYER sequence: the context goes on after the LAYER; with a region open it
raises ILLEGAL there (R345). -/
def State.leaveLayer (s : State) : State :=
  let s := s.endLayer
  match s.core.layer with
  | some l =>
    if l.words.length ≤ s.core.pc.toNat / 8 then
      s.failBundle ⟨cILLEGAL, BitVec.ofNat 64 (8 * (l.words.length - 1)), l.word⟩
    else s
  | none => s

/-- Is some earlier instruction of the context still holding its later bundles? -/
def State.held (s : State) : Bool :=
  let c := s.core
  c.blk != .none || (c.waits.any fun w => match w.kind with
    | .fence .. => true
    | _ => false) || (c.io.any fun a => match a.kind with
    | .probe .. => true
    | _ => false) ||
    s.agenda.any fun e => e.target == s.me && (match e.act with
      | .fenceComplete _ => true
      | _ => false)

/-- Does a late access of the context stand to be performed again? -/
def Core.replaying (c : Core) : Bool := c.replayingOther 0

/-- May the user context issue a bundle in this cycle, hazards apart? -/
def State.userMay (s : State) : Bool :=
  let c := s.core
  c.life == .running && !s.held && (decide (c.hz.issueAt ≤ s.dcc) || c.walk.isSome && c.stopping) && !(!c.reg.isOpen && c.trap.isSome) && !c.replaying

def State.issueUser (s : State) : Option Out :=
  if s.userMay then
    let t := s.onCore fun c => { c with replay := { c.replay with access := none } }
    if t.core.reissue then some t.reissueBundle
    else
      let t := t.leaveLayer
      if t.core.issued = s.dcc + 1 then some (.next t) else t.issueAtPc
  else none

/-- Firmware bundles issued in the present window. -/
def Firmware.count (f : Firmware) (dcc : Nat) : Nat := if f.window = dcc / 256 then f.used else 0

/-- With SHARE 0 the firmware context issues only beside a user context that halts, waits or is parked
(DEDUCED, log entry 30). -/
def Core.fwShare (c : Core) (dcc : Nat) : Bool :=
  if c.fshare = 0 then
    (match c.life with
    | .halted | .parked => true
    | .saving => c.stop.any fun x => x.park
    | .idle | .placed | .running | .saved | .killed => false) ||
    (match c.blk with
    | .bar _ | .waitrv .. | .waitc _ => true
    | _ => false)
  else decide (c.fw.count dcc < c.fshare.toNat)

def State.firmwareMay (s : State) : Bool :=
  let c := s.core
  !s.himos.held && s.himos.config.cores.getLsbD c.phys && c.fw.active && c.fwShare s.dcc && c.fw.hold != s.dcc && decide (c.fw.hz.issueAt ≤ s.dcc)

/-- The firmware context takes the core for a bundle. What belongs to the user context's entry and its accesses are
out of its sight (R10, R116). -/
def State.enterFirmware (s : State) : State :=
  s.onCore fun c =>
    let d := c.swapFirmware .firmware
    { d with reg := { d.reg with isOpen := false }, held := Held.empty, io := [], reissue := false, fw := { d.fw with loaded := false } }

/-- The user context has been loaded from an image: an entry that was open is no more, the Cruiser takes the registers too, and a context
that runs goes on where the image says (R174). One that was stopped at a blocking instruction issues that again, as the dispatcher has
recorded (R320). -/
def State.afterLoad (s : State) (b : Block) (pc : Word) : State :=
  let t := if s.inRegion then s.dropEntry.rampDiscard else s
  t.onCore fun c =>
    let stays := c.reissue && c.life != .running
    let d := { c with blk := b, reissue := stays, pc := if stays then pc else c.pc, walk := none }
    { d with cruiser := d.cruiser.restart d.arch d.pc }

/-- It gives the core back: what belongs to the user context is as it was, unless an image has been loaded. -/
def State.leaveFirmware (old t : State) : State :=
  let o := old.core
  let u := t.onCore fun c =>
    let d := c.swapFirmware .user
    { d with
      reg := o.reg, held := o.held, io := o.io, reissue := o.reissue, blk := o.blk, trap := o.trap, blocked := o.blocked
      pre := o.pre, wpc := o.wpc, wword := o.wword, bend := o.bend, bpc := o.bpc
      fw := { d.fw with window := old.dcc / 256, used := o.fw.count old.dcc + 1 } }
  if t.core.fw.loaded then u.afterLoad t.core.blk o.pc else u

def State.issueFirmware (s : State) : Option Out :=
  if s.firmwareMay then s.enterFirmware.issueAtPc.map fun o => mapOut s.leaveFirmware o else none

/-- The bundle that the focused core issues in this cycle, if any: the firmware context goes first. -/
def State.issue (s : State) : Option Out :=
  if s.core.issued = s.dcc + 1 then none
  else (s.issueFirmware).orElse fun _ => s.issueUser

end Sys2Proof.Machine
end

