-- ==== Sys2Proof/Machine/Cycle.lean ====
section
/-! DEFINITION. The work of a cycle in its phases (DESIGN CHOICE, log entry 1): what falls due, the beats of running commands, starts, chisel
words, bundles, and the end of the cycle. -/

namespace Sys2Proof.Machine

/-! Cores in the order of their numbers. -/

def insertNat (x : Nat) : List Nat → List Nat
  | [] => [x]
  | y :: l => if x < y then x :: y :: l else y :: insertNat x l

def State.physList (s : State) : List Nat := (s.cores.map (·.phys)).foldl (fun acc n => insertNat n acc) []

/-- Apply a function to each core in turn, brought into focus. -/
def State.eachCore (s : State) (f : State → State) : State :=
  s.physList.foldl (fun (t : State) n => f (t.focusPhys n)) s

/-! Agenda entries. -/

/-- Execute an instruction for a target. A saved context stands in for a core meanwhile; one that exists no more gets nothing.
Results for a core itself are the firmware context's (R10). -/
def State.execFor (s : State) (t : Target) (i : Instr) : Out :=
  match t with
  | .chip => exec i s
  | .phys n =>
    match i with
    | .scalarWriteback .. =>
      mapOut (fun u => u.onCore fun c => c.swapFirmware .user)
        (exec i ((s.focusPhys n).onCore fun c => c.swapFirmware .firmware))
    | _ => exec i (s.focusPhys n)
  | .ctx l k =>
    if s.cores.any (Core.isCtx l k) then exec i (s.focusOn (Core.isCtx l k))
    else
      match s.saved.find? (Core.isCtx l k) with
      | none => .next s
      | some c =>
        let n := s.core.phys
        mapOut (fun t =>
            match t.others.find? fun d => d.phys == n with
            | some d => { t with
                core := d, others := t.others.filter fun e => e.phys != n, saved := t.saved ++ [t.core] }
            | none => t)
          (exec i { s with
            core := c, others := s.core :: s.others, saved := s.saved.filter fun d => !d.isCtx l k })

/-- The next entry that is due, below an order. -/
def State.dueBelow (s : State) (ord : Nat) : Option Ev := s.agenda.find? fun e => decide (e.due ≤ s.dcc) && decide (e.ord < ord)

def State.runEv (s : State) (e : Ev) : Out := { s with agenda := s.agenda.erase e }.execFor e.target e.act

/-- What comes in over the fabric takes its place after the cores: the host, then the links in ascending order (R284). An input of
another kind has the place that it names. -/
def inputOrder (e : Ev) : Nat :=
  match e.act with
  | .fabricTransaction t =>
    match t.ch with
    | .host => ordHost
    | .peer | .mgmt | .idle => ordFabric t.link.toNat
  | .flitReceive link f => if f.ch == .host then ordHost else ordFabric link.toNat
  | .notifyStore .. => ordHost
  | _ => e.ord

/-- What comes from outside and is due joins the agenda (DESIGN CHOICE, log entry 15). -/
def State.takeInputs (s : State) : State :=
  let due := s.inputs.filter fun e => decide (e.due ≤ s.dcc)
  due.foldl (fun (t : State) e => t.at_ e.due (inputOrder e) e.target e.act)
    { s with inputs := s.inputs.filter fun e => decide (s.dcc < e.due) }

/-! Beats of running commands. -/

/-- The instruction of a beat of a command. -/
def commandOf (r : CmdRec) (b : Beat) : Instr :=
  match r.code with
  | 0x01 => .mma r b | 0x02 => .mmaSp r b | 0x03 => .mmaMx r b | 0x04 => .accz r b | 0x05 => .accst r b
  | 0x06 => .fload r b | 0x07 => .forest r b | 0x08 => .leafg r b | 0x10 => .copy r b | 0x11 => .fill r b
  | 0x18 => .reduce r b | 0x20 => .quant r b | 0x21 => .deq r b | 0x28 => .attn r b | 0x29 => .kappend r b
  | 0x2A => .kchase r b | 0x2B => if r.mode then .rspanC r b else .rspanK r b
  | 0x2C => .ktopk r b | 0x2D => .kcompact r b | 0x2E => .beamset r b | 0x30 => .sgath r b | 0x31 => .sgpat r b
  | 0x3E => .setf r b | _ => .waitf r b

/-- Does a write to memory or to accumulators fall in cycle `t`? -/
def Run.earlyDue (r : Run) (t : Nat) : Bool :=
  match r.e.r.code with
  | 0x01 | 0x02 | 0x03 => mmaEarlyDue r t
  | 0x04 => acczEarlyDue r t
  | 0x05 => accstEarlyDue r t
  | 0x06 => floadEarlyDue r t
  | 0x07 => forestEarlyDue r t
  | 0x08 => leafgEarlyDue r t
  | 0x10 => copyWriteDue r true t
  | 0x11 => fillWriteDue r true t
  | 0x18 => reduceEarlyDue r t
  | 0x20 => quantWriteDue r true t
  | 0x21 => deqWriteDue r true t
  | 0x28 => attnEarlyDue r t
  | 0x29 => kappendEarlyDue r t
  | 0x2A => kchaseEarlyDue r t
  | 0x2B => rspanEarlyDue r t
  | 0x2C => ktopkWriteDue r true t
  | 0x2D => kcompactEarlyDue r t
  | 0x2E => beamsetEarlyDue r t
  | 0x31 => sgpatEarlyDue r t
  | _ => false

/-- Does a read fall in cycle `t`? -/
def Run.readDue (r : Run) (t : Nat) : Bool :=
  match r.e.r.code with
  | 0x01 | 0x02 | 0x03 => mmaReadDue r t
  | 0x05 => accstReadDue r t
  | 0x06 => floadReadDue r t
  | 0x07 => forestReadDue r t
  | 0x08 => leafgReadDue r t
  | 0x10 => copyReadDue r t
  | 0x18 => reduceReadDue r t
  | 0x20 => quantReadDue r t
  | 0x21 => deqReadDue r t
  | 0x28 => attnReadDue r t
  | 0x29 => kappendReadDue r t
  | 0x2A => kchaseReadDue r t
  | 0x2B | 0x2C => walkReadDue r t
  | 0x2D => kcompactReadDue r t
  | 0x2E => beamsetReadDue r t
  | 0x30 => sgathReadDue r t
  | _ => false

/-- Does a write to the local store fall in cycle `t`? -/
def Run.lateDue (r : Run) (t : Nat) : Bool :=
  match r.e.r.code with
  | 0x05 => accstLateDue r t
  | 0x10 => copyWriteDue r false t
  | 0x11 => fillWriteDue r false t
  | 0x18 => reduceLateDue r t
  | 0x20 => quantWriteDue r false t
  | 0x21 => deqWriteDue r false t
  | 0x28 => attnLateDue r t
  | 0x2C => ktopkWriteDue r false t
  | 0x30 => sgathLateDue r t
  | _ => false

/-- Is the write of one core to be made before that of the other: by launch, then by logical core (R120, R232)? -/
def State.sgpatBefore (s : State) (a b : Task) : Bool :=
  let key (t : Task) : List Nat :=
    match s.cores.find? fun c => c.phys == t.phys with
    | some c => s.commitKey c.launch c.lcore
    | none => []
  listLt (key a) (key b)

def State.insertSgpat (s : State) (x : Task) : List Task → List Task
  | [] => [x]
  | y :: l => if s.sgpatBefore x y then x :: y :: l else y :: State.insertSgpat s x l

/-- The beats of a kind that fall in the present cycle, by core, then by start (DEDUCED, log entry 63); pattern writes come last, in the
order of R120. -/
def State.beats (s : State) (due : Run → Nat → Bool) (b : Nat → Beat) : List Task :=
  let of (pat : Bool) : List Task := s.physList.flatMap fun n =>
    (s.cores.filter fun c => c.phys == n).flatMap fun c =>
      (c.eng.runs.filter fun r => due r s.dcc && (r.e.r.code == 0x31) == pat).map fun r => ⟨n, commandOf r.e.r (b r.id)⟩
  of false ++ (of true).foldl (fun acc x => s.insertSgpat x acc) []

/-! Starts (R154, R157, R197, R198). -/

def allQueues : List Queue := [.qm, .qc, .qr, .qv, .qk, .qg]

/-- A start or the end of a WAITF at the head of a queue. -/
def State.headTask (s : State) (q : Queue) : Option Instr :=
  match s.core.eng.queues.toList.getD q.code [] with
  | e :: _ =>
    if e.gone then none
    else if e.waiting then if waitMet s.core.arch e.r then some (.waitfComplete q) else none
    else
      let due := match e.startAt with
        | some t => decide (t ≤ s.dcc)
        | none => if s.core.stat.relax then decide (s.nominal e.r ≤ s.dcc) else s.nominal e.r == s.dcc
      if due then decodeRecord q e.r else none
  | [] => none

/-- A strict command whose cycle has come behind the head of its queue does not start (R197). -/
def State.missHeads (s : State) : State :=
  if s.core.stat.relax then s
  else
    allQueues.foldl (fun (t : State) q =>
      ((t.core.eng.queues.toList.getD q.code []).drop 1).foldl (fun (t : State) e =>
        if t.nominal e.r = t.dcc then t.missStart q e else t) t) s

def State.startTasks (s : State) : List Task :=
  s.physList.flatMap fun n =>
    let t := s.focusPhys n
    allQueues.filterMap fun q => (t.headTask q).map fun i => ⟨n, i⟩

/-! Chisel words (R190, R192). -/

/-- Elements that are ready start, those that pass at once leave, until one stands before a word. -/
def State.readyLanes (s : State) : Nat → State
  | 0 => s
  | k + 1 =>
    match s.core.eng.jobs with
    | j :: _ =>
      match Except.toOpt (decodeChisel (j.prog.getD j.pc 0)) with
      | some _ => s
      | none => State.readyLanes ((s.onEng fun e => { e with jobs := e.jobs.drop 1 }).finishJob j) k
    | [] =>
      match s.readyJob with
      | some j => State.readyLanes (s.startJob j) k
      | none => s

/-- The word that the head of the lanes executes next. -/
def State.laneWord (s : State) : Option Instr :=
  s.core.eng.jobs.head?.bind fun j => Except.toOpt (decodeChisel (j.prog.getD j.pc 0))

/-- The lanes of a core with no more elements than wait or run. -/
def State.lanes (s : State) : State := s.readyLanes (2 * (s.core.eng.waitJobs.length + s.core.eng.jobs.length) + 1)

/-- The next chisel word, core by core. -/
def State.nextLane (s : State) : List Nat → State × Option Instr
  | [] => (s, none)
  | n :: rest =>
    let t := (s.focusPhys n).lanes
    match t.laneWord with
    | some i => (t, some i)
    | none => State.nextLane t rest

/-! The end of a cycle. -/

/-- BANK_CONFLICT: the lowest bank with two requesters on one port, and the first two of them (R277, R278). -/
def insertUse (u : BankUse) : List BankUse → List BankUse
  | [] => [u]
  | v :: l =>
    if listLt [u.start, u.q.code, bit u.wr, u.run] [v.start, v.q.code, bit v.wr, v.run] then u :: v :: l
    else v :: insertUse u l

def bankPair (us : List BankUse) (bank : Nat) : Option (BankUse × BankUse) :=
  let mine := (us.filter fun u => u.bank == bank).foldl (fun acc u => insertUse u acc) []
  mine.findSome? fun u => (mine.find? fun v => v.wr == u.wr && v.run != u.run).map fun v =>
    if listLt [u.start, u.q.code, bit u.wr, u.run] [v.start, v.q.code, bit v.wr, v.run] then (u, v) else (v, u)

def BankUse.word (u : BankUse) : Word := ofFields [(bit u.wr, 27), (u.q.code, 24), (u.stamp, 0)]

def State.bankConflict (s : State) : State :=
  match (List.range 16).findSome? fun b => (bankPair s.core.eng.banks b).map fun x => (b, x) with
  | some (b, u, v) =>
    s.takeTrap ⟨cBANK_CONFLICT, ofFields [(b, 24), (s.cyc, 0)], u.word, v.word, 0, none, false⟩
  | none => s

/-- Pins that end in the present cycle (R203). -/
def State.dropPins (s : State) : State :=
  let old := s.core.eng.runs.flatMap fun r => r.pins.filter fun p => decide (p.2 ≤ s.dcc)
  (s.unpin old).onEng fun e =>
    { e with runs := e.runs.map fun r => { r with pins := r.pins.filter fun p => decide (s.dcc < p.2) } }

/-- What QSTAT and a push see of the queues from the next cycle on (R157, R160). -/
def queueView (l : List QEntry) : Nat × Nat × Nat :=
  match l with
  | e :: _ => (l.length, stampOf e.r, e.r.code)
  | [] => (0, 0, 0)

/-- A core at the end of a cycle: effects that fall in it, then a trap, then entries that are free, flag writes, and the drain
of a COMMIT. -/
def State.closeCore (s : State) : State :=
  let s := (s.takeLeaves.bankConflict.endLayer).closeTrap
  let s := s.onEng fun e => { e with queues := e.queues.map fun l => l.filter fun x => !x.gone }
  let s := s.placeSetfs.dropPins.checkDrain
  s.onCore fun c =>
    { c with
      numfNow := 0
      eng := { c.eng with setfNow := 0, banks := [], qprev := c.eng.queues.map queueView } }

/-- Waits that are over, in every context. -/
def State.settleAll (s : State) : State :=
  ((s.cores ++ s.saved).filter fun c => c.waits.any (s.waitOver c)).foldl (fun (t : State) c =>
    t.withCtx c.launch c.lcore State.settleWaits) s

/-- The firmware context may have work at the start of a window; where it begins is open (DESIGN CHOICE, log entry 10). -/
def State.wake (s : State) : State :=
  if (s.dcc + 1) % 256 = 0 ∧ s.himos.held = false then
    s.eachCore fun t =>
      if t.core.fw.active || !t.himos.config.cores.getLsbD t.core.phys then t
      else
        let x := t.choice
        if x.1 then
          let f := x.2.useFree
          f.2.onCore fun c => { c with fw := { c.fw with active := true, pc := (Config.freeWord f.1) <<< 3 } }
        else x.2
  else s

/-- A launch that waits for what it stands for: one that is killed and quiet, or parked with its predecessors done. -/
def State.polled (s : State) : Option Instr :=
  s.disp.launches.findSome? fun l =>
    match l.state with
    | .killed => if s.killQuiet l.id then some (.killComplete l.id l.cause) else none
    | .parked => if s.resumable l then some (.predDoneResume l.id) else none
    | _ => none

/-! Phases. -/

def Phase.next : Phase → Phase
  | .events => .mwrites
  | .mwrites => .starts
  | .starts => .reads
  | .reads => .lanes
  | .lanes => .issue
  | .issue => .lwrites
  | .lwrites => .close
  | .close => .stops
  | .stops => .settle
  | .settle => .events

/-- On entering a phase: what it lists, and what happens at once. -/
def State.enter (s : State) : State :=
  match s.phase with
  | .events => s.takeInputs.strikes.eachCore State.cruise
  | .mwrites => { s with todo := s.beats Run.earlyDue .write }
  | .starts => let t := s.eachCore State.missHeads; { t with todo := t.startTasks }
  | .reads => { s with todo := s.beats Run.readDue .read }
  | .lanes => s.onCores fun c => { c with eng := ({ s with core := c }.enterJobs).core.eng }
  | .issue => s
  | .lwrites => { s with todo := s.beats Run.lateDue .write }
  | .close => s
  | .stops => (s.eachCore State.closeCore).settleAll.settleInvals.mediaTick
  | .settle => ((s.eachCore fun t => t.stopNow.startLoad).charge).wake.linkTick

/-- The next instruction of a phase beyond those it listed. -/
def State.pick (s : State) : Option Out :=
  match s.phase with
  | .events | .close => (s.dueBelow 4000).map s.runEv
  | .stops => (s.dueBelow 4990).map s.runEv
  | .settle =>
    match s.polled with
    | some i => some (exec i s)
    | none => (s.agenda.find? fun e => decide (e.due ≤ s.dcc)).map s.runEv
  | .lanes =>
    let r := s.nextLane s.physList
    r.2.map fun i => exec i r.1
  | .issue => s.physList.findSome? fun n => (s.focusPhys n).issue
  | .mwrites | .starts | .reads | .lwrites => none

/-- The phase is over. After the last one the next cycle begins. -/
def State.advance (s : State) : State :=
  match s.phase with
  | .settle => { s with phase := .events, listed := false, dcc := s.dcc + 1 }
  | .lanes => { (s.nextLane s.physList).1 with phase := .issue, listed := false }
  | p => { s with phase := p.next, listed := false }

/-- Is an input served while the cores are not out of reset: a power-up without main rails, and the management channel with them? -/
def State.serves (s : State) (i : Instr) : Bool :=
  match i with
  | .powerUp _ => true
  | _ => s.himos.railsUp && servedInBringUp i

/-- Before its cores leave reset the device serves what the management channel brings, and its links run; without its main rails it does nothing until they
return (R376, R380) (DESIGN CHOICE, log entry 54). -/
def State.dark (s : State) : Out :=
  match s.inputs.find? fun e => decide (e.due ≤ s.dcc) with
  | some e =>
    let t := { s with inputs := s.inputs.erase e }
    if s.serves e.act then exec e.act t else .next t
  | none =>
    match s.dueBelow 5000 with
    | some e => s.runEv e
    | none =>
      let t := { (if s.himos.railsUp then s.linkTick else s) with dcc := s.dcc + 1 }
      if !s.himos.railsUp then .next t
      else if 1 < s.himos.bring then .next (t.onHimos fun h => { h with bring := h.bring - 1 })
      else .next t.coresLeave

/-- The work of one step, once the phase has been entered: a listed instruction, else the next one the phase finds, else the end
of the phase (DESIGN CHOICE, log entry 82). -/
def State.work (s : State) : Out :=
  match s.todo with
  | t :: rest => exec t.act ({ s with todo := rest }.focusPhys t.phys)
  | [] => s.pick.getD (.next s.advance)

/-- One step of the machine. -/
def State.stepCycle (s : State) : Out :=
  if !s.himos.railsUp || s.himos.bring != 0 then s.dark
  else if s.listed then s.work
  else { s.enter with listed := true }.work

/-! Placing an instruction for the very next step. -/

/-- A chisel word as the program of slot 0, with an element that stands before it on a lane of port D. -/
def laneJob (w : Word32) (dcc : Nat) : Job :=
  { run := 0, port := .d, slot := 0, idx := 0, row := 0, col := 0, prog := [w], pc := 0, e := Vector.replicate 8 0,
    q := Vector.replicate 4 false, c := Vector.replicate 4 0, k := Vector.replicate 8 0, out := none, drop := false,
    entry := 0, raw := 0, fmt := 0, ctl := 0, flags := 0, hash := 0, enter := dcc, leave := dcc + passLatency 1,
    bypass := false, absent := false, final := true, trap := none }

def State.placeChisel (s : State) (w : Word32) : State :=
  let quiet (c : Core) : Core := { c with eng := { c.eng with jobs := [], waitJobs := [] } }
  { s with
    phase := .lanes, listed := true, todo := [], others := s.others.map quiet
    core := { s.core with
      arch := installSlot s.core.arch 0 [w], eng := { s.core.eng with jobs := [laneJob w s.dcc], waitJobs := [] } } }

/-- Page tables of a partition at its bytes 0x1000 to 0x3FFF: virtual 0 to 2^30 lies at its first bytes, with all rights. -/
def fetchTables (m : Mem) (base : Nat) : Mem :=
  let put (m : Mem) (a v : Nat) : Mem := m.writeBytes a (leBytes 8 v)
  put (put (put m (base + 0x1000) (base + 0x2000 + 1)) (base + 0x2000) (base + 0x3000 + 1)) (base + 0x3000) (base + 0x3B)

/-- A launch whose code is the 4,096 bytes from virtual 0 on. -/
def fetchLaunch (id : Nat) (part : BitVec 4) (vf : BitVec 7) : Launch :=
  { id := id, part := part, vf := vf, queue := 0, seq := 0, cid := 63, slot := 0, n := 1, codeva := 0, entry := 0,
    codelen := 4096, paramv := false, param := 0, shape := 3, bufs := [], overrides := 0, ovmask := 0, groups := [],
    pools := [], sections := [], preds := [], tstart := 0, state := .running, late := false, cause := 0, halted := [],
    lastHalt := 0, deadline := none, released := false, demoted := false, place := [(0, 0)], bad := none }

/-- A NOP that ends its bundle. -/
def nopWord : Word := 0x8660000000000000

/-- An instruction word at virtual 0 of a launch that runs on the focused core; a word that does not end its bundle is followed
by a NOP. -/
def State.placeCode (s : State) (w : Word) : State :=
  let c := s.core
  let vf := BitVec.ofNat 7 (6 * c.part.toNat)
  let base := c.part.toNat * 0x600000000
  let id := s.disp.nextLaunch
  let code := leBytes 8 w.toNat ++ leBytes 8 (if w.getLsbD 63 then 0 else nopWord.toNat)
  { s with
    phase := .issue, listed := true, todo := [], mem := (fetchTables s.mem base).writeBytes base code
    poison := s.poison.filter fun a => !(decide (base ≤ a) && decide (a < base + 0x4000))
    others := s.others.map fun (d : Core) => { d with issued := s.dcc + 1 }
    disp := { s.disp with launches := s.disp.launches ++ [fetchLaunch id c.part vf], nextLaunch := id + 1 }
    fabric := { s.fabric with vfs := SMap.put vf.toNat ⟨true, 1024, base + 0x1000, 0, 0, 0, 0, 0, false, []⟩ s.fabric.vfs }
    core := { c with
      launch := id, lcore := 0, vf := vf, life := .running, mode := .user, pc := 0, blk := .none, trap := none, layer := none
      io := [], waits := [], reissue := false, issued := 0, replay := Replay.none, hz := ⟨[], [], [], 0⟩
      fw := { c.fw with active := false } } }

/-- A command record at the head of its queue, in a relaxed entry in which its cycle has come. -/
def State.placeRecord (s : State) (r : CmdRec) : State :=
  let c := s.core
  let q := queueOf r.code
  let e : QEntry :=
    { r := r, pushedAt := 0, mask := BitVec.allOnes 128, seed := 0, steptag := 0, handles := c.arch.h, startAt := none, seen := 0,
      waiting := false, gone := false }
  let empty (d : Core) : Core := { d with eng := { d.eng with queues := Vector.replicate 6 [] } }
  { s with
    phase := .starts, listed := false, todo := [], dcc := max s.dcc (stampOf r), others := s.others.map empty
    core := { c with
      life := .running
      stat := { c.stat with rsc := 0, relax := true }
      reg := { c.reg with isOpen := true, commit := .none }
      eng := { c.eng with queues := (Vector.replicate 6 []).set q.code [e] (by cases q <;> decide) } } }

/-- The instruction whose bits are `w`, where the next step fetches it: a chisel word, an instruction word, or a record. -/
def State.placeWord (s : State) (nbits w : Nat) : State :=
  if nbits ≤ 32 then s.placeChisel (BitVec.ofNat 32 w)
  else if nbits ≤ 64 then s.placeCode (BitVec.ofNat 64 w)
  else s.placeRecord (recOfNat w)

end Sys2Proof.Machine
end

