-- ==== Sys2Proof/Machine/Step.lean ====
section
/-! DEFINITION. One step of the machine, and where the next step fetches a word that is placed for it. -/

namespace Sys2Proof.Machine

/-- One step: one instruction or event, or the end of a phase of the cycle. -/
def step (s : State) : Host.Outcome State Fault Refusal := s.stepCycle

/-- `s` with an instruction where its next step fetches it. A launch and its code come from outside the machine
(DEDUCED, log entry 28). -/
def State.withFetchWord (s : State) (nbits w : Nat) : State := s.placeWord nbits w

end Sys2Proof.Machine
end

