-- ==== Sys2Proof/Safety.lean ====
section
/-! DEFINITION. What counts as a safe run, and the invariants of a state that statements are about. -/

namespace Sys2Proof.Machine

/-- The machine goes on: neither a fault nor a refusal. -/
def Goes : Out → Prop
  | .next _ => True
  | .fault _ => False
  | .refused _ => False

/-- A run of `k` steps that stops nowhere. -/
def SafeRun (k : Nat) (s : State) : Prop := Goes (Sys2Proof.core.run k s)

/-- The memories of a core are in the canonical form. -/
def Core.memOk (c : Core) : Bool := Mem.wf c.ls.mem && Mem.wf c.tail

/-- Every memory of the machine is in the canonical form: HBM with what L2 shows of it, the second tier, the local stores, and the
buffers of the Himos controller. -/
def State.memOk (s : State) : Bool :=
  Mem.wf s.mem && Mem.wf s.cxl && s.cores.all Core.memOk && s.saved.all Core.memOk && Mem.wf s.himos.request &&
    s.himos.slots.toList.all fun f => Mem.wf f.image

/-- No memory lists an address twice, out of order, or with the value that an unlisted address reads as; and what a context that is
placed keeps of its core's save area lies in it (R319 to R321). -/
def State.canonical (s : State) : Prop :=
  s.memOk = true ∧ ∀ c ∈ s.cores ++ s.saved, ∀ e ∈ c.tail, 0x5E000 ≤ e.1

/-- h0 reads as the window of the local store (R13). -/
def Arch.windowOk (a : Arch) : Bool := a.hreg 0 == Handle.local

/-- The magnitude that a pattern without its sign stands for, an all-ones exponent read as one more step (R38). -/
def FFmt.magOf (f : FFmt) (p : Nat) : ℚ :=
  if p / 2 ^ f.mbits = 0 then p * 2 ^ (f.emin - f.mbits)
  else (2 ^ f.mbits + p % 2 ^ f.mbits : Nat) * 2 ^ ((p / 2 ^ f.mbits : Nat) - (f.bias : Int) - f.mbits)

/-! What an instruction changes, and that it changes nothing else. Each relation names the state before and the state after. -/

/-- Every byte of HBM, of the second tier and of the core's local store reads as before. -/
def SameBytes (s t : State) : Prop :=
  (∀ a, t.mem.read a = s.mem.read a) ∧ (∀ a, t.cxl.read a = s.cxl.read a) ∧
    ∀ a, t.core.ls.mem.read a = s.core.ls.mem.read a

/-- What reads through L2 leave (R280): lines come and go, and every byte of HBM and of the core's local store reads as before. -/
def SameHbm (s t : State) : Prop :=
  (Mem.wf s.mem = true → ∀ a, isHbm a = true → t.mem.read a = s.mem.read a) ∧ ∀ a, t.core.ls.mem.read a = s.core.ls.mem.read a

/-- A management write of a node that is no managing host is dropped and logged (R362). -/
def Drops (node : BitVec 11) (i : Instr) (s : State) : Prop :=
  s.manages node = false → ∃ t, exec i s = .next t ∧ t = { s with himos := t.himos } ∧
    ∃ r ∈ t.himos.log, r.seq = s.himos.logSeq ∧ r.code = logMgmtDropped

/-- s(d) reads as `v`, s0 as zero (R11); every other scalar register, and all else, is as before. -/
def WritesS (d : Reg) (v : Word) (s t : State) : Prop :=
  t.core.arch.sreg d = (if d = 0 then 0 else v) ∧ (∀ r, r ≠ d → t.core.arch.sreg r = s.core.arch.sreg r) ∧
    SameBytes s t ∧ (t.onArch fun a => { a with s := s.core.arch.s }) = s

/-- p(d) reads as `v`, p0 as true (R11); every other predicate, and all else, is as before. -/
def WritesP (d : Pred) (v : Bool) (s t : State) : Prop :=
  t.core.arch.preg d = (if d = 0 then true else v) ∧ (∀ r, r ≠ d → t.core.arch.preg r = s.core.arch.preg r) ∧
    SameBytes s t ∧ (t.onArch fun a => { a with p := s.core.arch.p }) = s

/-- A result that becomes visible `lat` cycles after issue (R91): the agenda gains that write, a real destination is pending
till then (R92), and all else is as before. -/
def InFlight (d : Dest) (lat : Nat) (v : Word) (fl : BitVec 8) (s t : State) : Prop :=
  (∀ e, e ∈ t.agenda ↔
    e = ⟨s.dcc + lat, ordResult, if s.firmware then s.here else s.me, .scalarWriteback d v fl⟩ ∨ e ∈ s.agenda) ∧
    t.core.hz.pend = (if (destPend d).real then [⟨destPend d, some (s.dcc + lat)⟩] else []) ++ s.core.hz.pend ∧
    SameBytes s t ∧ { t.onHz fun z => { z with pend := s.core.hz.pend } with agenda := s.agenda } = s

/-- A cause attributed to the instruction, in a cycle in which no trap has been raised (R327, R329): its code, the address and
the contents of the word, and `data` in the trap registers; the context has the trap to close, and all else is as before. -/
def Raises (cause : BitVec 8) (data : Word) (s t : State) : Prop :=
  t.core.stat.trapc = cause ∧ t.core.stat.trapv2 = data ∧
    (s.core.sequence = none → t.core.stat.trapv0 = s.core.wpc ∧ t.core.stat.trapv1 = s.core.wword) ∧
    (∀ l, s.core.sequence = some l → t.core.stat.trapv0 = l.pc ∧ t.core.stat.trapv1 = l.word) ∧
    t.core.trap.map TrapRec.cause = some cause ∧ SameBytes s t ∧
    (t.onCore fun c => { c with
      trap := s.core.trap
      stat := { c.stat with
        trapc := s.core.stat.trapc, trapv0 := s.core.stat.trapv0, trapv1 := s.core.stat.trapv1
        trapv2 := s.core.stat.trapv2, trapv3 := s.core.stat.trapv3 } }) = s

/-- The instruction raises the cause, in the user context. -/
def TrapsWith (i : Instr) (cause : BitVec 8) (data : Word) (s : State) : Prop :=
  s.firmware = false → s.core.trap = none → ∃ t, exec i s = .next t ∧ Raises cause data s t

/-- A fault of the firmware context (R333): the routine is abandoned and the event logged, and nothing is raised in the user
context; all else is as before. -/
def Abandons (cause : BitVec 8) (s t : State) : Prop :=
  t = { s with core := { s.core with fw := { s.core.fw with active := false, failed := true } }, himos := t.himos } ∧
    ∃ r ∈ t.himos.log, r.seq = s.himos.logSeq ∧ r.code = logFwFault ∧ r.data = cause.toNat + 256 * s.core.phys

/-- The instruction is not one that the firmware context may run. -/
def AbandonsWith (i : Instr) (cause : BitVec 8) (s : State) : Prop :=
  s.firmware = true → ∃ t, exec i s = .next t ∧ Abandons cause s t

/-- Nothing that a program can read has changed: registers, masks, handles, CSRs, accumulators, what the entry holds back, the
local store with its tags, and every byte of memory; the PC is as before. -/
def Quiet (s t : State) : Prop :=
  t.core.arch = s.core.arch ∧ t.core.stat = s.core.stat ∧ t.core.acc = s.core.acc ∧ t.core.held = s.core.held ∧
    t.core.ls = s.core.ls ∧ t.core.pc = s.core.pc ∧ t.core.trap = s.core.trap ∧ SameBytes s t

/-- Work of the machine is due `after` cycles on or later. -/
def Due (i : Instr) (after : Nat) (s t : State) : Prop := ∃ e ∈ t.agenda, e.act = i ∧ s.dcc + after ≤ e.due

/-- One access is outstanding more, and its next stage is due; nothing a program can read has changed yet. -/
def StartsAccess (a : Access) (i : Instr) (after : Nat) (s t : State) : Prop :=
  t.core.io = s.core.io ++ [a] ∧ Due i after s t ∧ (∀ e ∈ s.agenda, e ∈ t.agenda) ∧ Quiet s t

/-- What R129 and R133 ask of an access of `n` bytes at offset `o` through a handle: the handle is valid, the access keeps its
alignment and its page, and the handle grants it. Beyond the window, the firmware context has no handle (R10), the address exists
(R279), and its owner is not fenced (R352). -/
def State.granted (s : State) (r : HReg) (o n : Nat) (right : Bool) : Prop :=
  let h := s.srcH r
  h.v = true ∧ h.fits r o n = true ∧ right = true ∧
    (r ≠ 0 → s.firmware = false ∧ exists_ (h.addr o) n = true ∧ s.fencedAt s.core.part (h.addr o) = false)

/-- The instruction completes and writes one scalar register. -/
def PutsS (i : Instr) (d : Reg) (v : Word) (s : State) : Prop := ∃ t, exec i s = .next t ∧ WritesS d v s t

/-- The instruction completes and writes one predicate. -/
def PutsP (i : Instr) (d : Pred) (v : Bool) (s : State) : Prop := ∃ t, exec i s = .next t ∧ WritesP d v s t

/-- The instruction completes and leaves a result in flight. -/
def Sends (i : Instr) (d : Dest) (lat : Nat) (v : Word) (fl : BitVec 8) (s : State) : Prop :=
  ∃ t, exec i s = .next t ∧ InFlight d lat v fl s t

/-- The state behind a bundle that has taken effect: that after its slots, with what the Cruiser and a stop keep of the bundle (R320,
R334, R335). -/
def Follows (t z : State) : Prop :=
  z = { t with core := { t.core with
    trap := none, walk := none, blocked := z.core.blocked, cruiser := z.core.cruiser, reg := { t.core.reg with digest := z.core.reg.digest } } }

/-- A chisel word runs on the element whose turn it is (R190, R193, R194): with no enabled flag it makes of the element what `makes` says, and
nothing else, with its flags collected; with one, the element has a CHISEL_NUM trap and keeps what it held. It then goes on to its
next word, or leaves the port after its last or with a trap. -/
def WordRuns (i : Instr) (flags : Job → BitVec 8) (makes : Job → Job → Prop) (s : State) : Prop :=
  ∀ j, s.core.eng.jobs.head? = some j → j.trap = none →
    ∃ k, k.pc = j.pc + 1 ∧
      exec i s = .next (if j.pc + 1 < j.prog.length ∧ k.trap = none then
          { s with core := { s.core with eng := { s.core.eng with jobs := k :: s.core.eng.jobs.drop 1 } } }
        else State.finishJob { s with core := { s.core with eng := { s.core.eng with jobs := s.core.eng.jobs.drop 1 } } } k) ∧
      (flags j &&& j.ctl.setWidth 8 = 0 → makes { j with pc := j.pc + 1, flags := j.flags ||| flags j } k) ∧
      (flags j &&& j.ctl.setWidth 8 ≠ 0 →
        (∃ r, k = { j with pc := j.pc + 1, trap := some r } ∧ r.cause = 0x0D ∧ r.v2.extractLsb' 0 32 = j.entry))

/-- The word writes one element register. -/
def WordPuts (i : Instr) (d : EReg) (v : Job → Nat) (flags : Job → BitVec 8) (s : State) : Prop :=
  WordRuns i flags (fun j k => (k.e.get d.toFin).toNat = v j % 2 ^ 32 ∧ (∀ r : EReg, r ≠ d → k.e.get r.toFin = j.e.get r.toFin) ∧
    { k with e := j.e } = j) s

/-- What R162, R197, R203, R204 and R215 ask of the head of a queue that starts in the present cycle: the cycle that fillers have
fixed has come, or its engine and the array are free and no fillers are due; no FLOAD that is not complete keeps the array busy for it
(R266); its start raises no fault, its ports are bound and free, and the tags it checks match. -/
def State.startsNow (s : State) (q : Queue) (e : QEntry) (sp : StartSpec) : Prop :=
  ((∃ t, e.startAt = some t ∧ t ≤ s.dcc) ∨
    (e.startAt = none ∧ (sp.engine = true → s.core.eng.free.toList.getD q.code 0 ≤ s.dcc) ∧
      (sp.array = true → s.core.eng.array.free ≤ s.dcc) ∧
      ∀ lead, sp.ramp = some lead → s.core.eng.array.ramp = .ramped ∧ s.core.eng.array.free ≤ s.dcc + lead)) ∧
    (sp.load = true → s.core.eng.loading = none) ∧ sp.faults = [] ∧
    (∀ p ∈ sp.ports, s.core.arch.boundSlot p ≠ none ∧ s.lanesHeld p = false ∧ s.slotPending p = false) ∧
    ∀ c ∈ sp.tags, ∀ i ∈ c.slots, (s.core.ls.tag i).full = true ∧ (s.core.ls.tag i).fmt.toNat = c.fmt ∧
      (s.core.ls.tag i).seq.toNat = seqOf e.r

/-- A command that may start does (R157, R198): it runs from the present cycle with what its push captured, and its entry frees at
the end of the cycle; nothing that a program can read has changed. A strict one whose engine is busy raises SCHED_MISS, a relaxed
one waits (R197, R215). -/
def Starts (i : Instr) (q : Queue) (spec : QEntry → StartSpec) (s : State) : Prop :=
  ∀ e rest, s.core.eng.queues.toList.getD q.code [] = e :: rest → e.gone = false →
    (s.startsNow q e (spec e) →
      ∃ t r, exec i s = .next t ∧ r ∈ t.core.eng.runs ∧ r.id = s.serial ∧ r.s = s.dcc ∧ r.q = q ∧ r.e.r = e.r ∧
        r.e.handles = e.handles ∧ r.e.mask = e.mask ∧ t.core.eng.runs.length = s.core.eng.runs.length + 1 ∧
        t.core.eng.queues.toList.getD q.code [] = { e with seen := s.dcc + 1, gone := true } :: rest ∧
        t.core.arch = s.core.arch ∧ t.core.acc = s.core.acc ∧ t.core.held = s.core.held ∧ t.core.ls = s.core.ls ∧ SameBytes s t) ∧
    ((spec e).engine = true → e.startAt = none → s.dcc < s.core.eng.free.toList.getD q.code 0 →
      ∃ t, exec i s = .next t ∧ t.core.eng.runs = s.core.eng.runs ∧ t.core.arch = s.core.arch ∧ t.core.ls = s.core.ls ∧ SameBytes s t ∧
        (s.core.stat.relax = true → t.core.stat = s.core.stat) ∧
        (s.core.stat.relax = false → s.core.trap = none → t.core.stat.trapc = 0x08))

/-- A beat of an engine may write the bytes `m`: in the local store on lines that the entry has not read (R115), in memory on lines
that it owns, of devices that are not fenced (R116, R283, R352); no word is poisoned (R338). -/
def State.maySend (s : State) (loc : Bool) (m : Bytes) : Prop :=
  if loc then
    s.poison = [] ∧ s.core.held.lines.Pairwise (fun a b => a.1 < b.1) ∧
      ∀ e ∈ m, s.fencedAt s.core.part e.1 = false ∧ s.core.held.owned.contains (lineOf e.1) = true
  else
    Mem.wf s.core.ls.mem = true ∧ s.core.ls.poison = [] ∧ ∀ e ∈ m, SMap.find (e.1 / 256) s.core.ls.r = none

/-- A beat's writes and its flags (R56, R115, R116): bytes written through the window of the local store are there with the write, and
their lines are marked; bytes written through another handle are held in uncommitted lines, and no byte of memory has changed. -/
def Lands (loc : Bool) (m : Bytes) (fl : Flags) (s t : State) : Prop :=
  t.core.trap = s.core.trap ∧ (∀ a, t.mem.read a = s.mem.read a) ∧ (∀ a, t.cxl.read a = s.cxl.read a) ∧
    t.core.arch.s = s.core.arch.s ∧ (s.firmware = false → t.core.arch.csr.numf = s.core.arch.csr.numf ||| fl) ∧
    (loc = true → (∀ a, t.core.ls.mem.read a = s.core.ls.mem.read a) ∧
      ∀ a, SMap.find a t.core.held.lines = match SMap.find a m with
        | some b => some ⟨b, s.dcc⟩
        | none => SMap.find a s.core.held.lines) ∧
    (loc = false → t.core.held = s.core.held ∧ (∀ e ∈ m, e.1 / 256 ∈ t.core.ls.w) ∧
      ∀ a, t.core.ls.mem.read a = (SMap.find a m).getD (s.core.ls.mem.read a))

/-- The beat of a command lands its bytes. -/
def BeatLands (i : Instr) (loc : Bool) (m : Bytes) (fl : Flags) (s : State) : Prop :=
  s.maySend loc m → ∃ t, exec i s = .next t ∧ Lands loc m fl s t

end Sys2Proof.Machine
end

