-- ==== Sys2Proof/Certificates/Slice0/Obligations.lean ====
section
/-! DEFINITION. The statements for the provers, each a `Prop` by name, from the numbered rules of the spec. A statement in several
parts names each of them, `Clause.<name>`. -/

open Sys2Proof Sys2Proof.Machine

/-! Scalar arithmetic, constants, compares and selection. -/

/-- R97: the result of every ALU function of latency 1, in s(d), and nothing else. Shift and rotate counts are b[5:0]. -/
def Clause.IntegerResults : Prop :=
  ∀ (s : State) (d a b : Reg),
    let x := s.src a
    let y := s.src b
    let n := y.toNat % 64
    PutsS (.add d a b) d (x + y) s ∧ PutsS (.sub d a b) d (x - y) s ∧ PutsS (.and d a b) d (x &&& y) s ∧
    PutsS (.or d a b) d (x ||| y) s ∧ PutsS (.xor d a b) d (x ^^^ y) s ∧ PutsS (.andn d a b) d (x &&& ~~~y) s ∧
    PutsS (.shl d a b) d (x <<< n) s ∧ PutsS (.shr d a b) d (x >>> n) s ∧ PutsS (.sar d a b) d (x.sshiftRight n) s ∧
    PutsS (.rol d a b) d (if n = 0 then x else (x <<< n) ||| (x >>> (64 - n))) s ∧
    PutsS (.ror d a b) d (if n = 0 then x else (x >>> n) ||| (x <<< (64 - n))) s ∧
    PutsS (.min d a b) d (if y.toInt < x.toInt then y else x) s ∧
    PutsS (.max d a b) d (if x.toInt < y.toInt then y else x) s ∧
    PutsS (.minn d a b) d (if y.toNat < x.toNat then y else x) s ∧
    PutsS (.maxn d a b) d (if x.toNat < y.toNat then y else x) s

/-- R97: the functions that count, reverse or extend, bit by bit. -/
def Clause.BitCountResults : Prop :=
  ∀ (s : State) (d a b : Reg),
    let x := s.src a
    let n := (s.src b).toNat % 64
    (∃ v : Word, PutsS (.clz d a) d v s ∧ v.toNat ≤ 64 ∧ (∀ i, i < v.toNat → x.getMsbD i = false) ∧
      (v.toNat < 64 → x.getMsbD v.toNat = true)) ∧
    (∃ v : Word, PutsS (.ctz d a) d v s ∧ v.toNat ≤ 64 ∧ (∀ i, i < v.toNat → x.getLsbD i = false) ∧
      (v.toNat < 64 → x.getLsbD v.toNat = true)) ∧
    (∃ v : Word, PutsS (.popc d a) d v s ∧ v.toNat = (List.range 64).countP fun i => x.getLsbD i) ∧
    (∃ v : Word, PutsS (.bswap d a) d v s ∧
      ∀ k, k < 8 → v.extractLsb' (8 * k) 8 = x.extractLsb' (56 - 8 * k) 8) ∧
    (∃ v : Word, PutsS (.sext d a b) d v s ∧ ∀ i, i < 64 → v.getLsbD i = x.getLsbD (Nat.min i n)) ∧
    (∃ v : Word, PutsS (.zext d a b) d v s ∧ ∀ i, i < 64 → v.getLsbD i = (decide (i ≤ n) && x.getLsbD i))

/-- R91, R92, R97, R98: products after 3 cycles, quotients and remainders after 20, a division by zero among them; a divider is busy
until its result is visible. -/
def Clause.ProductAndQuotientInFlight : Prop :=
  ∀ (s : State) (d a b : Reg) (i : BitVec 36),
    let x := s.src a
    let y := s.src b
    let q : Word := if y = 0 then BitVec.allOnes 64 else BitVec.ofInt 64 (x.toInt.tdiv y.toInt)
    let u : Word := if y = 0 then BitVec.allOnes 64 else BitVec.ofNat 64 (x.toNat / y.toNat)
    let busy := s.onHz fun z => { z with divs := (s.dcc + 20) :: z.divs }
    Sends (.mul d a b) (.s d) 3 (x * y) 0 s ∧
    Sends (.mulh d a b) (.s d) 3 (BitVec.ofInt 64 (x.toInt * y.toInt / 2 ^ 64)) 0 s ∧
    Sends (.mulhn d a b) (.s d) 3 (BitVec.ofNat 64 (x.toNat * y.toNat / 2 ^ 64)) 0 s ∧
    Sends (.muli d a i) (.s d) 3 (x * i.signExtend 64) 0 s ∧
    (∃ t, exec (.div d a b) s = .next t ∧ InFlight (.s d) 20 q 0 busy t) ∧
    (∃ t, exec (.divn d a b) s = .next t ∧ InFlight (.s d) 20 u 0 busy t) ∧
    (∃ t, exec (.rem d a b) s = .next t ∧ InFlight (.s d) 20 (x - y * q) 0 busy t) ∧
    (∃ t, exec (.remn d a b) s = .next t ∧ InFlight (.s d) 20 (x - y * u) 0 busy t)

/-- Every function of the integer ALU gives the result of its table row, divisions by zero among them. -/
def Obligations.AluResults : Prop := Clause.IntegerResults ∧ Clause.BitCountResults ∧ Clause.ProductAndQuotientInFlight

/-- R57, R99, R100, R103, R104, R147: the immediate forms on the sign-extended immediate; LI, LIH, and LA outside a LAYER sequence,
which may not hold it (R345); selection, the predicates as a word, the two sign changes of FALU, and DCCR. -/
def Clause.ConstantsAndSelection : Prop :=
  ∀ (s : State) (d a b : Reg) (p : Pred) (i : BitVec 36) (j : BitVec 46) (k : BitVec 18),
    let x := s.src a
    let y : Word := i.signExtend 64
    PutsS (.addi d a i) d (x + y) s ∧ PutsS (.andi d a i) d (x &&& y) s ∧ PutsS (.ori d a i) d (x ||| y) s ∧
    PutsS (.xori d a i) d (x ^^^ y) s ∧ PutsS (.shli d a i) d (x <<< (y.toNat % 64)) s ∧
    PutsS (.shri d a i) d (x >>> (y.toNat % 64)) s ∧ PutsS (.sari d a i) d (x.sshiftRight (y.toNat % 64)) s ∧
    PutsS (.li d j) d (j.signExtend 64) s ∧
    PutsS (.lih d k) d (k ++ (s.src d).extractLsb' 0 46 : BitVec (18 + 46)) s ∧
    (s.inLayer = false → PutsS (.la d j) d (s.core.wpc + j.signExtend 64) s) ∧
    PutsS (.sel d a b p) d (if s.srcP p then x else s.src b) s ∧
    (∃ v : Word, PutsS (.movpsGet d) d v s ∧ v.toNat < 256 ∧ v.getLsbD 0 = true ∧
      ∀ q : Pred, v.getLsbD q.toNat = s.srcP q) ∧
    PutsS (.fabs d a) d (x &&& 0x7FFFFFFF) s ∧ PutsS (.fneg d a) d ((x &&& 0xFFFFFFFF) ^^^ 0x80000000) s ∧
    PutsS (.dccr d) d (BitVec.ofNat 64 s.dcc) s

/-- R83, R101, R102, R104: CMP and CMPI write the condition, signed by two's complement and unsigned in the forms with the last
letter N, the immediate sign-extended first; PLOG on predicates; MOVPS.SET writes p1 to p7 from bits 1 to 7 of s(a) and nothing
else. -/
def Clause.PredicateResults : Prop :=
  ∀ (s : State) (d p q : Pred) (a b : Reg) (i : BitVec 36),
    let x := s.src a
    let all := fun (f : Cond → Instr) (y : Word) =>
      PutsP (f .eq) d (x == y) s ∧ PutsP (f .ne) d (x != y) s ∧ PutsP (f .lt) d (x.slt y) s ∧ PutsP (f .ge) d (!x.slt y) s ∧
      PutsP (f .le) d (!y.slt x) s ∧ PutsP (f .gt) d (y.slt x) s ∧ PutsP (f .ltn) d (x.ult y) s ∧
      PutsP (f .gen) d (!x.ult y) s ∧ PutsP (f .len) d (!y.ult x) s ∧ PutsP (f .gtn) d (y.ult x) s
    all (fun c => .cmp d a b c) (s.src b) ∧ all (fun c => .cmpi d a c i) (i.signExtend 64) ∧
    PutsP (.pand d p q) d (s.srcP p && s.srcP q) s ∧ PutsP (.por d p q) d (s.srcP p || s.srcP q) s ∧
    PutsP (.pxor d p q) d (s.srcP p ^^ s.srcP q) s ∧ PutsP (.pnot d p) d (!s.srcP p) s ∧ PutsP (.pmov d p) d (s.srcP p) s ∧
    ∃ t, exec (.movpsSet a) s = .next t ∧ t.core.arch.preg 0 = true ∧
      (∀ r : Pred, r ≠ 0 → t.core.arch.preg r = x.getLsbD r.toNat) ∧ SameBytes s t ∧
      (t.onArch fun c => { c with p := s.core.arch.p }) = s

/-- Immediate forms, constants, compares, predicates and selection write one register and nothing else. -/
def Obligations.ImmediatesAndPredicates : Prop := Clause.ConstantsAndSelection ∧ Clause.PredicateResults

/-- R57, R91, R105 to R108: the results of FALU in flight after 4 or 14 cycles, each with the flags of its computation: the exact
result of the operands' values rounded once (R47); FCMP by the values, unordered with a NaN. -/
def Clause.FloatInFlight : Prop :=
  ∀ (s : State) (d a b : Reg) (p : Pred) (m : Rm) (sat : Bool) (c : FCond),
    let u := (s.src a).toNat % 2 ^ 32
    let w := (s.src b).toNat % 2 ^ 32
    let x := valOf .fp32 u
    let y := valOf .fp32 w
    let h := srHash (BitVec.ofNat 64 (2 ^ 61 + d.toNat * 8)) s.core.pre.csr.steptag s.core.pre.csr.srseed
    let busy := s.onHz fun z => { z with fdivs := (s.dcc + 14) :: z.fdivs }
    let out := fun (i : Instr) (r : Rounded) => Sends i (.s d) 4 (BitVec.ofNat 64 r.pat) r.flags s
    let slow := fun (i : Instr) (e : Exact) =>
      let r := e.round .fp32 m sat h
      ∃ t, exec i s = .next t ∧ InFlight (.s d) 14 (BitVec.ofNat 64 r.pat) r.flags busy t
    out (.fadd d a b m sat) ((exactAdd x y m).round .fp32 m sat h) ∧
    out (.fsub d a b m sat) ((exactAdd x y.flip m).round .fp32 m sat h) ∧
    out (.fmul d a b m sat) ((exactMul x y).round .fp32 m sat h) ∧
    slow (.fdiv d a b m sat) (exactDiv x y) ∧ slow (.fsqrt d a m sat) (exactSqrt x) ∧
    out (.fmin d a b) (fminmax false u w) ∧ out (.fmax d a b) (fminmax true u w) ∧
    out (.fcvtF2i d a m) (cvtF2i u m h) ∧
    out (.fcvtI2f d a m) (roundTo .fp32 (valOfInt ((s.src a).extractLsb' 0 32).toInt) m false h) ∧
    out (.fcvtF2b d a m sat)
      ⟨(roundTo .bf16 x m sat h).pat, (roundTo .bf16 x m sat h).flags ||| flagIf x.isSnan flagNV⟩ ∧
    out (.fcvtB2f d a)
      (let v := valOf .bf16 (u % 2 ^ 16)
       if v.isNan then ⟨0x7FC00000, flagIf v.isSnan flagNV⟩ else ⟨u % 2 ^ 16 * 2 ^ 16, 0⟩) ∧
    Sends (.fcmp p a b c) (.p p) 4 (if FCond.holds c x y then 1 else 0) (flagIf (x.isSnan || y.isSnan) flagNV) s

/-- R56, R91, R105: a result in flight is written in its cycle, its destination is no longer pending, and its flags join NUMF, but
those of the firmware context, which sets none; all else is as before. -/
def Clause.ResultBecomesVisible : Prop :=
  ∀ (s : State) (v : Word) (fl : BitVec 8),
    let rest := fun t : State => t.onCore fun c => { c with
      arch := { c.arch with
        s := s.core.arch.s, p := s.core.arch.p, csr := { c.arch.csr with numf := s.core.arch.csr.numf } }
      hz := { c.hz with pend := s.core.hz.pend }, numfNow := s.core.numfNow }
    let after := fun (d : Dest) (t : State) =>
      t.core.hz.pend = (s.core.hz.pend.filter fun p => p.dest != destPend d) ∧
      t.core.arch.csr.numf = (if s.firmware then s.core.arch.csr.numf else s.core.arch.csr.numf ||| fl) ∧
      SameBytes s t ∧ rest t = s
    (∀ r : Reg, ∃ t, exec (.scalarWriteback (.s r) v fl) s = .next t ∧ after (.s r) t ∧
      t.core.arch.sreg r = (if r = 0 then 0 else v) ∧ (∀ q, q ≠ r → t.core.arch.sreg q = s.core.arch.sreg q) ∧
      t.core.arch.p = s.core.arch.p) ∧
    ∀ r : Pred, ∃ t, exec (.scalarWriteback (.p r) v fl) s = .next t ∧ after (.p r) t ∧
      t.core.arch.preg r = (if r = 0 then true else v.getLsbD 0) ∧
      (∀ q, q ≠ r → t.core.arch.preg q = s.core.arch.preg q) ∧ t.core.arch.s = s.core.arch.s

/-- FALU results are rounded once, fly for 4 or 14 cycles, and are then written with their flags. -/
def Obligations.FloatResults : Prop := Clause.FloatInFlight ∧ Clause.ResultBecomesVisible

/-- R47: a result that neither overflows nor saturates is, under RNE, the nearest magnitude of the format, of two as near the one
with an even last bit; under a directed mode the next one in its direction; under SR one of the two neighbours. NX says that it
is not the exact value, UF that besides the exact value is below the least normal. -/
def Obligations.RoundingIsCorrect : Prop :=
  ∀ (f : FFmt) (neg : Bool) (m : Nat) (e : Int) (mode : Rm) (sat : Bool) (h : BitVec 16), m ≠ 0 →
    let r := roundMag f neg m e false mode sat h
    let x : ℚ := m * 2 ^ e
    r.flags.getLsbD 2 = false → r.flags.getLsbD 5 = false →
      ∃ p, r.pat = withSign f neg p ∧ p ≤ f.maxPat ∧ (r.flags.getLsbD 4 = true ↔ f.magOf p ≠ x) ∧
        (r.flags.getLsbD 3 = true ↔ f.magOf p ≠ x ∧ x < 2 ^ f.emin) ∧
        (mode = .rne → ∀ q, |f.magOf p - x| ≤ |f.magOf q - x| ∧ (|f.magOf p - x| = |f.magOf q - x| → q = p ∨ p % 2 = 0)) ∧
        (mode = .rtz ∨ (mode = .rpi ∧ neg = true) ∨ (mode = .rni ∧ neg = false) →
          f.magOf p ≤ x ∧ x < f.magOf (p + 1)) ∧
        ((mode = .rpi ∧ neg = false) ∨ (mode = .rni ∧ neg = true) → x ≤ f.magOf p ∧ (p = 0 ∨ f.magOf (p - 1) < x)) ∧
        (mode = .sr → x < f.magOf (p + 1) ∧ (p = 0 ∨ f.magOf (p - 1) < x))

/-- R39, R57: the special sums of FADD, FSUB and FMA: NaN operands, infinities of unlike sign, two zeros, and exact cancellation. -/
def Clause.SpecialSums : Prop :=
  ∀ (a b c : Nat) (m : Rm) (sat : Bool) (h : BitVec 16),
    let x := valOf .fp32 a
    let sum := fun (r : Rounded) (y : Val) =>
      (x.isNan = true ∨ y.isNan = true → r = ⟨0x7FC00000, flagIf (x.isSnan || y.isSnan) flagNV⟩) ∧
      (∀ n, x = .inf n → y = .inf (!n) → r = ⟨0x7FC00000, flagNV⟩) ∧
      (∀ n, (x = .inf n ∧ (y = .inf n ∨ y.isNan = false ∧ y.isInf = false)) ∨ (x.isNan = false ∧ x.isInf = false ∧ y = .inf n) →
        r = ⟨if n then 0xFF800000 else 0x7F800000, 0⟩) ∧
      (x.isZero = true → y.isZero = true → x.neg = y.neg → r = ⟨if x.neg then 0x80000000 else 0, 0⟩) ∧
      (x.isZero = true → y.isZero = true → x.neg ≠ y.neg → r = ⟨if m = .rni then 0x80000000 else 0, 0⟩) ∧
      (∀ n k e, x = .fin n (k + 1) e → y = .fin (!n) (k + 1) e → r = ⟨if m = .rni then 0x80000000 else 0, 0⟩)
    sum (fpAdd a b m sat h) (valOf .fp32 b) ∧ sum (fpSub a b m sat h) (valOf .fp32 b).flip ∧
    (let y := valOf .fp32 b
     let z := valOf .fp32 c
     let r := fpFma a b c m sat h
     let neg := x.neg != y.neg
     ((x.isInf = true ∧ y.isZero = true) ∨ (x.isZero = true ∧ y.isInf = true) → r = ⟨0x7FC00000, flagNV⟩) ∧
     (x.isNan = true ∨ y.isNan = true ∨ (z.isNan = true ∧ ¬((x.isInf = true ∧ y.isZero = true) ∨ (x.isZero = true ∧ y.isInf = true))) →
       r = ⟨0x7FC00000, flagIf (x.isSnan || y.isSnan || z.isSnan) flagNV⟩) ∧
     (x.isNan = false → y.isNan = false → x.isZero = false → y.isZero = false → x.isInf = true ∨ y.isInf = true → z = .inf (!neg) →
       r = ⟨0x7FC00000, flagNV⟩) ∧
     (x.isInf = false → y.isInf = false → x.isNan = false → y.isNan = false → x.isZero = true ∨ y.isZero = true → z.isZero = true →
       r = ⟨if z.neg = neg then (if neg then 0x80000000 else 0) else if m = .rni then 0x80000000 else 0, 0⟩))

/-- R39, R57: the special products, quotients and roots. -/
def Clause.SpecialProductsAndRoots : Prop :=
  ∀ (a b : Nat) (m : Rm) (sat : Bool) (h : BitVec 16),
    let x := valOf .fp32 a
    let y := valOf .fp32 b
    let nan : Rounded := ⟨0x7FC00000, flagNV⟩
    let signed := fun (p : Nat) => if x.neg != y.neg then 0x80000000 + p else p
    (x.isNan = true ∨ y.isNan = true →
      ∀ r ∈ [fpMul a b m sat h, fpDiv a b m sat h], r = ⟨0x7FC00000, flagIf (x.isSnan || y.isSnan) flagNV⟩) ∧
    (x.isInf = true → y.isZero = true → fpMul a b m sat h = nan ∧ fpDiv a b m sat h = ⟨signed 0x7F800000, 0⟩) ∧
    (x.isZero = true → y.isInf = true → fpMul a b m sat h = nan ∧ fpDiv a b m sat h = ⟨signed 0, 0⟩) ∧
    (x.isZero = true → y.isZero = true → fpMul a b m sat h = ⟨signed 0, 0⟩ ∧ fpDiv a b m sat h = nan) ∧
    (x.isInf = true → y.isInf = true → fpMul a b m sat h = ⟨signed 0x7F800000, 0⟩ ∧ fpDiv a b m sat h = nan) ∧
    (∀ n k e, x = .fin n (k + 1) e → y.isZero = true → fpMul a b m sat h = ⟨signed 0, 0⟩ ∧
      fpDiv a b m sat h = ⟨signed 0x7F800000, flagDZ⟩) ∧
    (x.isNan = true → fpSqrt a m sat h = ⟨0x7FC00000, flagIf x.isSnan flagNV⟩) ∧
    (x.isZero = true → fpSqrt a m sat h = ⟨if x.neg then 0x80000000 else 0, 0⟩) ∧
    (x = .inf false → fpSqrt a m sat h = ⟨0x7F800000, 0⟩) ∧
    (x = .inf true ∨ (∃ k e, x = .fin true (k + 1) e) → fpSqrt a m sat h = nan)

/-- R39, R57: FMIN and FMAX with NaN operands, with zeros of unlike sign, and by value, which keeps one of the two patterns. -/
def Clause.SmallerAndLarger : Prop :=
  ∀ (a b : Nat) (top : Bool), a < 2 ^ 32 → b < 2 ^ 32 →
    let x := valOf .fp32 a
    let y := valOf .fp32 b
    let r := fminmax top a b
    r.flags = flagIf (x.isSnan || y.isSnan) flagNV ∧
    (x.isNan = true → y.isNan = true → r.pat = 0x7FC00000) ∧
    (x.isNan = true → y.isNan = false → r.pat = b) ∧ (x.isNan = false → y.isNan = true → r.pat = a) ∧
    (x.isZero = true → y.isZero = true → x.neg ≠ y.neg → r.pat = if top then 0 else 0x80000000) ∧
    (x.isNan = false → y.isNan = false → (r.pat = a ∨ r.pat = b) ∧
      ∀ v ∈ [x, y], (if top then (valOf .fp32 r.pat).lt v else v.lt (valOf .fp32 r.pat)) = false)

/-- NaN operands, infinities, zeros and exact cancellation give the results of R57 with their flags. -/
def Obligations.FloatSpecialCases : Prop := Clause.SpecialSums ∧ Clause.SpecialProductsAndRoots ∧ Clause.SmallerAndLarger

/-! Branches and the mask stack. -/

/-- R93, R109, R110: what each branch does, with a true guard: the target is the address of the branch word and 8 times the
displacement; a transfer of control places the next issue three cycles later. A target inside a running LAYER sequence, or any
target outside one. -/
def Clause.BranchEffects : Prop :=
  ∀ (s : State) (a b : Reg) (c : Cond) (disp : BitVec 32),
    let target := s.core.wpc + 8 * disp.signExtend 64
    let go := fun t : Word => { s with core := { s.core with pc := t, hz := { s.core.hz with issueAt := s.dcc + 3 } } }
    (s.outside target = false →
      exec (.b disp) s = .next (go target) ∧
      exec (.bcmp a b c disp) s = .next (if condHolds c (s.src a) (s.src b) then go target else s) ∧
      (1 < (s.src a).toNat → ∃ t, exec (.loop a disp) s = .next t ∧ WritesS a (s.src a - 1) (go target) t) ∧
      (s.firmware = false → exec (.bzm disp) s = .next (if s.core.pre.mtop = 0 then go target else s)) ∧
      (s.inLayer = false → ∃ t, exec (.call a disp) s = .next t ∧ WritesS a s.core.bend (go target) t)) ∧
    ((s.src a).toNat ≤ 1 → ∃ t, exec (.loop a disp) s = .next t ∧ WritesS a 0 s t) ∧
    (s.inLayer = false → (s.src a).toNat % 8 = 0 →
      exec (.ret a) s = .next (go (s.src a)) ∧ exec (.bi a) s = .next (go (s.src a)))

/-- R72, R110, R112, R345: where a branch raises ILLEGAL instead: a computed target that is no multiple of 8; in a LAYER sequence a
taken branch to a target beyond it, and CALL, RET, BI and LA; BZM in the firmware context. -/
def Clause.BranchFaults : Prop :=
  ∀ (s : State) (a b : Reg) (c : Cond) (disp : BitVec 32) (j : BitVec 46),
    let target := s.core.wpc + 8 * disp.signExtend 64
    (s.inLayer = false → (s.src a).toNat % 8 ≠ 0 → TrapsWith (.ret a) 0x01 0 s ∧ TrapsWith (.bi a) 0x01 0 s) ∧
    (s.inLayer = true → TrapsWith (.call a disp) 0x01 0 s ∧ TrapsWith (.ret a) 0x01 0 s ∧ TrapsWith (.bi a) 0x01 0 s ∧
      TrapsWith (.la a j) 0x01 0 s) ∧
    (∀ l, s.core.sequence = some l → 8 * l.words.length ≤ target.toNat →
      TrapsWith (.b disp) 0x01 0 s ∧ (condHolds c (s.src a) (s.src b) = true → TrapsWith (.bcmp a b c disp) 0x01 0 s) ∧
      (s.core.pre.mtop = 0 → TrapsWith (.bzm disp) 0x01 0 s)) ∧
    AbandonsWith (.bzm disp) 0x01 s

/-- Branches go to their target three cycles later or go on, and raise ILLEGAL where the spec says. -/
def Obligations.Branches : Prop := Clause.BranchEffects ∧ Clause.BranchFaults

/-- R14, R112: the mask stack. The new top of MPUSH takes lanes 127 to 64 from s(b) and lanes 63 to 0 from s(a) within the old top;
MINV inverts the top within the entry beneath it; an empty stack reads as all ones. An MPUSH at depth 8, and an MINV or MPOP at
depth 0, raise ILLEGAL; the firmware context has no stack. -/
def Obligations.MaskStack : Prop :=
  ∀ (s : State) (a b : Reg),
    let stack := s.core.pre.mask
    let top := stack.headD (BitVec.allOnes 128)
    let keep := fun m : List (BitVec 128) => { s with core := { s.core with arch := { s.core.arch with mask := m } } }
    (s.firmware = false →
      (stack.length < 8 →
        ∃ m : BitVec 128, exec (.mpush a b) s = .next (keep (m :: stack)) ∧
          ∀ i, i < 64 → m.getLsbD i = ((s.src a).getLsbD i && top.getLsbD i) ∧
            m.getLsbD (64 + i) = ((s.src b).getLsbD i && top.getLsbD (64 + i))) ∧
      (∀ rest, stack = top :: rest →
        exec .minv s = .next (keep ((~~~top &&& rest.headD (BitVec.allOnes 128)) :: rest)) ∧
        exec .mpop s = .next (keep rest)) ∧
      ∃ t u, exec (.mget a b) s = .next u ∧ WritesS a (top.extractLsb' 0 64) s t ∧ WritesS b (top.extractLsb' 64 64) t u) ∧
    (8 ≤ stack.length → TrapsWith (.mpush a b) 0x01 0 s) ∧
    (stack = [] → TrapsWith .minv 0x01 0 s ∧ TrapsWith .mpop 0x01 0 s) ∧
    AbandonsWith (.mpush a b) 0x01 s ∧ AbandonsWith .minv 0x01 s ∧ AbandonsWith .mpop 0x01 s ∧ AbandonsWith (.mget a b) 0x01 s

/-! Handles and memory access. -/

/-- R123 to R125: where the walk finds a page that grants what is asked, XLATE leaves the handle pending and its write due no sooner
than 64 cycles on, and no register has changed (the time of a walk beyond that is open, DESIGN CHOICE, log entries 5 and 6). An
address with bits above 55, a function with no tables, and whatever else the walk ends with, raise their cause; in the firmware
context XLATE is ILLEGAL (DEDUCED, log entry 17). -/
def Clause.TranslationStarts : Prop :=
  ∀ (s : State) (h : HReg) (x : Reg) (p : Perms), h ≠ 0 →
    (∀ n s', s.xlated s.core.part s.core.vf (s.src x) p = (.handle n, s') → s.firmware = false →
      n.v = true ∧ n.rd = p.rd ∧ n.wr = p.wr ∧ n.at_ = p.at_ ∧
      ∃ t a, exec (.xlate h x p) s = .next t ∧ a.kind = .xlate h ∧ a.hnd = n ∧ a.va = s.src x ∧
        StartsAccess a (.xlateComplete a.id) 64 s' t ∧ ∃ d, (⟨.h h, d⟩ : Pend) ∈ t.core.hz.pend) ∧
    (2 ^ 56 ≤ (s.src x).toNat → TrapsWith (.xlate h x p) 0x04 (s.src x) s) ∧
    (SMap.find s.core.vf.toNat s.fabric.vfs = none → TrapsWith (.xlate h x p) 0x04 (s.src x) s) ∧
    (∀ c data s', s.xlated s.core.part s.core.vf (s.src x) p = (.cause c data, s') → s.firmware = false →
      ∃ t, exec (.xlate h x p) s = .next t ∧ (s'.core.trap = none → s'.firmware = false → Raises c data s' t)) ∧
    (∀ r s', s.xlated s.core.part s.core.vf (s.src x) p = (r, s') → s'.core.arch = s.core.arch ∧ s'.core.trap = s.core.trap ∧
      s'.dcc = s.dcc ∧ SameHbm s s') ∧
    AbandonsWith (.xlate h x p) 0x01 s

/-- R12, R124, R127, R130: the handle of an XLATE is written when the walk is over, and is no longer pending; one that a strict
entry waited 64 cycles for in vain raises XLATE_LATE. HINV clears V and nothing else; HINFO writes the two words of the handle,
whether V is set or not. An entry keeps note of the valid handle that a write replaces (R290), and the handle of an XLATE goes
to the Cruiser (R334). -/
def Clause.HandleWrites : Prop :=
  ∀ (s : State) (h : HReg) (d : Reg),
    let old := s.core.arch.hreg h
    let reg := if s.inRegion && h != 0 && old.v then { s.core.reg with had := s.core.reg.had ++ [old] } else s.core.reg
    (∀ id a, s.core.io.find? (fun b => b.id == id) = some a → a.kind = .xlate h →
      (a.back ≤ s.dcc → (s.inRegion = true → a.entry = s.core.reg.entry) →
        exec (.xlateComplete id) s = .next { s with core := { s.core with
          arch := { s.core.arch with h := s.core.arch.h.set h.toNat a.hnd h.isLt }
          hz := { s.core.hz with pend := s.core.hz.pend.filter fun q => q.dest != .h h }
          io := s.core.io.filter fun b => b.id != id
          reg := reg
          cruiser := { s.core.cruiser with told := s.core.cruiser.told ++ [⟨s.dcc + 6, false, .h h a.hnd⟩] } } }) ∧
      (s.dcc < a.back → (a.strict = false ∨ s.inRegion = false ∨ a.entry ≠ s.core.reg.entry) → exec (.xlateComplete id) s = .next s) ∧
      (s.dcc < a.back → a.strict = true → s.inRegion = true → a.entry = s.core.reg.entry → s.core.trap = none →
        ∃ t, exec (.xlateComplete id) s = .next t ∧ t.core.stat.trapc = 0x1E ∧ t.core.stat.trapv0 = a.pc ∧
          t.core.stat.trapv1 = a.word ∧ t.core.stat.trapv2 = a.va ∧ t.core.arch = s.core.arch ∧ SameBytes s t)) ∧
    (s.firmware = false → exec (.hinv h) s = .next { s with core := { s.core with
      arch := { s.core.arch with h := s.core.arch.h.set h.toNat { old with v := false } h.isLt }
      reg := reg } }) ∧
    (s.firmware = false → 1 ≤ d.toNat → d.toNat ≤ 62 →
      let n := s.core.pre.hreg h
      ∃ t u v w, exec (.hinfo d h) s = .next u ∧ WritesS d v s t ∧ WritesS (d + 1) w t u ∧
        v.getLsbD 63 = n.v ∧ v.getLsbD 62 = n.rd ∧ v.getLsbD 61 = n.wr ∧ v.getLsbD 60 = n.at_ ∧
        v.extractLsb' 58 2 = 0 ∧ v.extractLsb' 52 6 = n.lgsz ∧ v.extractLsb' 12 40 = n.pbase ∧ v.extractLsb' 0 12 = 0 ∧
        w.extractLsb' 56 8 = 0 ∧ w.extractLsb' 12 44 = n.vpage ∧ w.extractLsb' 0 12 = 0)

/-- XLATE leaves its handle pending and then writes it; HINV clears V; HINFO reads both words. -/
def Obligations.TranslationAndHandles : Prop := Clause.TranslationStarts ∧ Clause.HandleWrites

/-- R115, R117, R128 to R131: LD. An access is outstanding in its class at the physical address and s(d) is pending, no register
having changed: the next stage at its home slice is due no sooner than 24 cycles on (DESIGN CHOICE, log entry 52). Through the
window its bytes are those of the store buffer before those of the local store, where a poisoned word matters that the store
buffer does not cover (R338), due after 4 cycles, and inside a region the lines read are marked. The post-increment is written
at once. -/
def Clause.LoadIsOutstanding : Prop :=
  ∀ (s : State) (d : Reg) (m : MemOp) (sz : Size) (sx inc : Bool),
    let n := sizeBytes sz
    let o := (s.src m.x + m.off.setWidth 64).toNat
    let byte := fun i => (SMap.find (o + i) s.core.held.sbLs).getD (s.core.ls.mem.read (o + i))
    let z := if m.h = 0 then s.markRead o n else s
    s.firmware = false → s.granted m.h o n (s.srcH m.h).rd →
      ∃ t u a, exec (.ld d m sz sx inc) s = .next u ∧ a.kind = .ld d sz sx ∧ a.issued = s.dcc ∧ a.oc = m.oc ∧
        StartsAccess a (.ldReturn a.id) (if m.h = 0 then 4 else 24) z t ∧
        (m.h ≠ 0 → a.pa = (s.srcH m.h).pbase.toNat * 2 ^ 12 + o ∧ a.performed = false ∧ a.value = none) ∧
        (m.h = 0 → a.pa = o ∧ a.hnd = Handle.local ∧ a.performed = true ∧ a.back = s.dcc + 4 ∧
          ((∀ w ∈ s.core.ls.poison, ∀ i, i < n → (o + i) / 8 * 8 = w → (SMap.find (o + i) s.core.held.sbLs).isSome = true) →
            a.value = some ((List.range n).map byte))) ∧
        (m.h = 0 → s.inRegion = true → ∀ i, i ∈ linesIn o n → (SMap.find i u.core.ls.r).isSome = true) ∧
        (s.inRegion = false → z = s) ∧
        (d ≠ 0 → (⟨.s d, if m.h = 0 then some (s.dcc + 4) else none⟩ : Pend) ∈ t.core.hz.pend) ∧
        (if inc then WritesS m.x (s.src m.x + BitVec.ofNat 64 n) t u else u = t)

/-- R10, R130: LD of the firmware context (DEDUCED, log entry 17), through the window: the bytes of the local store, extended, are
in flight for 4 cycles, and go to the Cruiser (R334). -/
def Clause.FirmwareLoad : Prop :=
  ∀ (s : State) (d : Reg) (m : MemOp) (sz : Size) (sx inc : Bool),
    let n := sizeBytes sz
    let o := (s.src m.x + m.off.setWidth 64).toNat
    let byte := fun i => (SMap.find (o + i) s.core.held.sbLs).getD (s.core.ls.mem.read (o + i))
    m.h = 0 → s.firmware = true → s.inRegion = false → s.granted 0 o n (s.srcH 0).rd →
    (∀ w ∈ s.core.ls.poison, ∀ i, i < n → (o + i) / 8 * 8 ≠ w) →
      ∃ t u v, exec (.ld d m sz sx inc) s = .next u ∧
        InFlight (.s d) 4 v 0 { s with core := { s.core with cruiser := { s.core.cruiser with
          told := s.core.cruiser.told ++ [⟨s.dcc + 10, true, .s d v⟩] } } } t ∧
        (∀ i, i < 64 → v.getLsbD i =
          if i < 8 * n then (byte (i / 8)).getLsbD (i % 8) else sx && (byte (n - 1)).getLsbD 7) ∧
        (if inc then WritesS m.x (s.src m.x + BitVec.ofNat 64 n) t u else u = t)

/-- A load is outstanding in its class; through the window it sees the entry's own stores and marks its lines. -/
def Obligations.LoadsStart : Prop := Clause.LoadIsOutstanding ∧ Clause.FirmwareLoad

/-- R130, R131, R134: a load's value that has come back, and the old value of an AMO, are written to s(d), extended, which is then
no longer pending. What the home slice supplies to a load of boundary code is what it shows of the bytes, back no sooner than 96
cycles after issue, when no earlier access of the class is still to perform, the line is resident, with no earlier one waiting
for it (R284), and no store of the context is on its way. The value goes to the Cruiser (R334). In the strict entry that issued
it, a value that is not back 96 cycles after issue raises SCHED_MISS. -/
def Obligations.LoadReturns : Prop :=
  ∀ (s : State) (id : Nat) (a : Access) (d : Reg) (sz : Size) (sx : Bool),
    s.core.io.find? (fun b => b.id == id) = some a →
    let lands := fun (bs : List Byte) (t : State) =>
      WritesS d (extend sx sz (leNat bs)) { s with core := { s.core with
        hz := { s.core.hz with pend := s.core.hz.pend.filter fun q => q.dest != .s d }
        io := s.core.io.filter fun b => b.id != a.id
        cruiser := { s.core.cruiser with told := s.core.cruiser.told ++ [⟨s.dcc + 6, false, .s d (extend sx sz (leNat bs))⟩] } } } t
    ((s.inRegion = true → a.entry = s.core.reg.entry) →
      (∀ bs, a.kind = .ld d sz sx → a.performed = true → a.back ≤ s.dcc → a.value = some bs →
        ∃ t, exec (.ldReturn id) s = .next t ∧ lands bs t) ∧
      (∀ bs fn, a.kind = .amo d sz sx fn → a.value = some bs → ∃ t, exec (.amoReturn id) s = .next t ∧ lands bs t)) ∧
    (a.kind = .ld d sz sx → a.performed = false → a.y = 0 → a.ovl = [] → s.inRegion = false →
      s.blocked a = false → s.fencedAt s.core.part a.pa = false → isFabric a.pa = false → s.lineWaits a.pa = false →
      (∀ i, i < a.data.length → s.pendingByte a (a.pa + i) = none) →
      (s.consumeWords (readWords (s.ownByte a) a.pa a.data.length) false).1 = none →
      ∃ t b, exec (.ldReturn id) s = .next t ∧ b ∈ t.core.io ∧ b.id = a.id ∧ b.performed = true ∧
        b.value = some ((List.range a.data.length).map fun i => s.peek (a.pa + i)) ∧ a.issued + 96 ≤ b.back ∧
        (∃ e ∈ t.agenda, e.act = .ldReturn id ∧ e.due = b.back) ∧ t.core.arch = s.core.arch ∧ SameBytes s t) ∧
    (a.kind = .ld d sz sx → a.strict = true → s.inRegion = true → a.entry = s.core.reg.entry → a.hnd.lgsz ≠ 0 →
      a.issued + 96 ≤ s.dcc → (a.performed = false ∨ s.dcc < a.back) → s.core.trap = none →
      ∃ t, exec (.ldReturn id) s = .next t ∧ t.core.stat.trapc = 0x08 ∧ t.core.stat.trapv0 = a.pc ∧ t.core.stat.trapv1 = a.word ∧
        t.core.arch = s.core.arch ∧ SameBytes s t)

/-- R116, R128, R129, R131: ST. Inside a region it goes into the store buffer, the bytes of s(d) lowest first, while 1,024 granules
hold it, and raises REGION_OVERFLOW beyond. In boundary code it goes through the window to the local store at once, every other
byte as before; through another handle an access is outstanding in its class, and no byte of memory has changed yet. The
post-increment is written at once. The entry keeps the class of every line that it stores to. -/
def Obligations.StoreEffects : Prop :=
  ∀ (s : State) (d : Reg) (m : MemOp) (sz : Size) (inc : Bool),
    let n := sizeBytes sz
    let o := (s.src m.x + m.off.setWidth 64).toNat
    let h := s.srcH m.h
    let bs := leBytes n (s.src d).toNat
    let sb := if m.h = 0 then s.core.held.sb else putBytes (fun b => (⟨b, s.dcc⟩ : HByte)) (h.addr o) bs s.core.held.sb
    let sbLs := if m.h = 0 then putBytes id (h.addr o) bs s.core.held.sbLs else s.core.held.sbLs
    let classes := if m.h = 0 then s.core.held.classes else s.core.held.classes ++ [(lineOf (h.addr o), m.oc)]
    let bump := fun t u => if inc then WritesS m.x (s.src m.x + BitVec.ofNat 64 n) t u else u = t
    s.granted m.h o n h.wr →
    (∀ i, i < n → bs.getD i 0 = (s.src d).extractLsb' (8 * i) 8) ∧
    (s.inRegion = true →
      (granules sb + granules sbLs ≤ 1024 →
        ∃ u, exec (.st d m sz inc) s = .next u ∧
          bump { s with core := { s.core with held := { s.core.held with sb := sb, sbLs := sbLs, classes := classes } } } u) ∧
      (1024 < granules sb + granules sbLs → TrapsWith (.st d m sz false) 0x0F (BitVec.ofNat 64 (h.addr o)) s)) ∧
    (s.inRegion = false → m.h = 0 → Mem.wf s.core.ls.mem = true →
      ∃ t u, exec (.st d m sz inc) s = .next u ∧ bump t u ∧
        (∀ a, t.core.ls.mem.read a = if o ≤ a ∧ a < o + n then bs.getD (a - o) 0 else s.core.ls.mem.read a) ∧
        { t with core := { t.core with ls := { t.core.ls with mem := s.core.ls.mem, poison := s.core.ls.poison } } } = s) ∧
    (s.inRegion = false → m.h ≠ 0 →
      ∃ t u a, exec (.st d m sz inc) s = .next u ∧ bump t u ∧ a.kind = .st ∧ a.pa = h.pbase.toNat * 2 ^ 12 + o ∧ a.oc = m.oc ∧
        a.data = bs ∧ StartsAccess a (.homeSliceApply a.id) 24 s t)

/-- R84, R133, R134: AMO in boundary code, and AMOP: the access is outstanding in its class with its operands captured; s(d) of an
AMO is pending; an AMOP inside a region takes one entry of the combine log, and the entry keeps the class of its line. -/
def Obligations.AtomicStarts : Prop :=
  ∀ (s : State) (d b c : Reg) (m : AtomOp) (sz : Size) (sx : Bool) (fn : AmoFn),
    let n := sizeBytes sz
    let o := (s.src m.x + m.off.setWidth 64).toNat
    let h := s.srcH m.h
    m.h ≠ 0 → s.granted m.h o n h.at_ →
    (s.inRegion = false →
      (∃ t a, exec (.amo d m sz sx b c fn) s = .next t ∧ a.kind = .amo d sz sx fn ∧ a.pa = h.pbase.toNat * 2 ^ 12 + o ∧
        a.oc = m.oc ∧ a.y = s.src b ∧ a.c = s.src c ∧ StartsAccess a (.homeSliceApply a.id) 24 s t ∧
        (d ≠ 0 → (⟨.s d, none⟩ : Pend) ∈ t.core.hz.pend)) ∧
      ∃ t a, exec (.amop m sz b fn) s = .next t ∧ a.kind = .amop sz fn ∧ a.pa = h.pbase.toNat * 2 ^ 12 + o ∧
        a.oc = m.oc ∧ a.y = s.src b ∧ StartsAccess a (.homeSliceApply a.id) 24 s t ∧ t.core.hz = s.core.hz) ∧
    (s.inRegion = true → s.logEntries < 2048 →
      exec (.amop m sz b fn) s = .next { s with core := { s.core with held := { s.core.held with
        log := s.core.held.log ++ [⟨h.addr o, .atomic fn sz (s.src b)⟩]
        classes := s.core.held.classes ++ [(lineOf (h.addr o), m.oc)] } } })

/-- R133, R294: at the home slice of a resident line, with no earlier access of the class to perform: a boundary store writes its
bytes, an atomic the new value of its function, and every other byte of memory reads as before; the old value of an AMO is on
its way. -/
def Clause.HomeSliceApplies : Prop :=
  ∀ (s : State) (id : Nat) (a : Access),
    s.core.io.find? (fun b => b.id == id) = some a → a.fenced = false → a.performed = false → s.blocked a = false →
    s.fencedAt s.core.part a.pa = false → isFabric a.pa = false → s.lineWaits a.pa = false → Mem.wf s.mem = true →
    (s.consume a.pa a.data.length false).1 = none → s.poisonedWord a.pa a.data.length = none →
    let old := leNat (s.peekBytes a.pa a.data.length)
    let writes := fun (bs : List Byte) (t : State) =>
      (∀ x, t.mem.read x = if a.pa ≤ x ∧ x < a.pa + bs.length then bs.getD (x - a.pa) 0 else s.mem.read x) ∧
      t.cxl = s.cxl ∧ t.core.ls = s.core.ls ∧ t.core.arch = s.core.arch ∧ t.core.pc = s.core.pc
    let new := fun fn (sz : Size) c => leBytes (sizeBytes sz)
      (atomicResult fn sz old (a.y.toNat % 2 ^ (8 * sizeBytes sz)) (c % 2 ^ (8 * sizeBytes sz)))
    (a.kind = .st → ∃ t, exec (.homeSliceApply id) s = .next t ∧ writes a.data t ∧
      t.core.io = s.core.io.filter fun b => b.id != a.id) ∧
    (∀ sz fn, a.kind = .amop sz fn → a.data.length = sizeBytes sz →
      ∃ t, exec (.homeSliceApply id) s = .next t ∧ writes (new fn sz 0) t) ∧
    (∀ d sz sx fn, a.kind = .amo d sz sx fn → a.data.length = sizeBytes sz →
      ∃ t, exec (.homeSliceApply id) s = .next t ∧ writes (new fn sz a.c.toNat) t ∧
        (∃ b ∈ t.core.io, b.id = a.id ∧ b.value = some (s.peekBytes a.pa a.data.length)) ∧
        ∃ e ∈ t.agenda, e.act = .amoReturn a.id ∧ a.issued + 96 ≤ e.due)

/-- R133: the functions of the atomics on operands below 2^w; FADD by the one rounding of FP32, to nearest. -/
def Clause.AtomicFunctions : Prop :=
  ∀ (sz : Size) (x y c : Nat), let w := 8 * sizeBytes sz
    x < 2 ^ w → y < 2 ^ w →
    let f := fun fn => BitVec.ofNat w (atomicResult fn sz x y c)
    let a := BitVec.ofNat w x
    let b := BitVec.ofNat w y
    f .add = a + b ∧ f .and = a &&& b ∧ f .or = a ||| b ∧ f .xor = a ^^^ b ∧ f .swap = b ∧
    f .min = (if b.slt a then b else a) ∧ f .max = (if a.slt b then b else a) ∧
    f .minn = (if b.ult a then b else a) ∧ f .maxn = (if a.ult b then b else a) ∧
    f .cas = (if x = c then b else a) ∧
    atomicResult .fadd .w x y c = (fpAdd x y .rne false 0).pat

/-- At the home slice a store or an atomic writes its own bytes and no other, by the function of R133. -/
def Obligations.HomeSliceApplies : Prop := Clause.HomeSliceApplies ∧ Clause.AtomicFunctions

/-- R30, R129, R133: in the user context, a handle with V clear raises HANDLE_INVALID; a misaligned access, one beyond its page, and
one that the handle does not grant raise ILLEGAL; an AMO inside a region raises BOUNDARY, whatever else fails (DEDUCED, log
entry 55). An address is asked to exist only of an access that a valid handle admits, and one that no leaf can map stops the
machine (DESIGN CHOICE, log entry 7). -/
def Obligations.AccessFaults : Prop :=
  ∀ (s : State) (d b c : Reg) (m : MemOp) (q : AtomOp) (sz : Size) (sx inc : Bool) (fn : AmoFn),
    let n := sizeBytes sz
    let o := (s.src m.x + m.off.setWidth 64).toNat
    let p := (s.src q.x + q.off.setWidth 64).toNat
    let h := s.srcH m.h
    let g := s.srcH q.h
    (h.v = false → TrapsWith (.ld d m sz sx inc) 0x03 (m.h.setWidth 64) s ∧ TrapsWith (.st d m sz inc) 0x03 (m.h.setWidth 64) s) ∧
    (h.v = true → o % n ≠ 0 ∨ h.bytes m.h < o + n →
      TrapsWith (.ld d m sz sx inc) 0x01 0 s ∧ TrapsWith (.st d m sz inc) 0x01 0 s) ∧
    (h.v = true → h.fits m.h o n = true → (m.h ≠ 0 → exists_ (h.addr o) n = true) →
      (h.rd = false → TrapsWith (.ld d m sz sx inc) 0x01 0 s) ∧ (h.wr = false → TrapsWith (.st d m sz inc) 0x01 0 s)) ∧
    (g.v = false → TrapsWith (.amop q sz b fn) 0x03 (q.h.setWidth 64) s) ∧
    (g.v = true → p % n ≠ 0 ∨ g.bytes q.h < p + n → TrapsWith (.amop q sz b fn) 0x01 0 s) ∧
    (s.inRegion = true → (q.h ≠ 0 → g.v = true → exists_ (g.addr p) n = true) → TrapsWith (.amo d q sz sx b c fn) 0x1D 0 s) ∧
    (m.h ≠ 0 → h.v = true → h.fits m.h o n = true → exists_ (h.addr o) n = false →
      exec (.ld d m sz sx inc) s = .fault .noSuchAddress ∧ exec (.st d m sz inc) s = .fault .noSuchAddress)

/-- R135, R136, R282, R321: PROBE of no bytes does nothing, of more than 2^36 is ILLEGAL; where every page passes it holds later
bundles till a cycle that is open, and writes no register. A page that fails raises its cause at once where it is the first or
the code is an entry's; in boundary code the bundle waits for the walker to come to it, and then raises it, or takes effect when
the core is stopped before (DEDUCED and DESIGN CHOICE, log entries 6 and 84). PREF does nothing for a clear V, no read
permission, an offset beyond the page, a page that belongs to the host, or h0, and else is outstanding in its class. A fill
makes its line resident; its arrival is noted with the SGATHs that wait for it -/
def Obligations.ProbePrefetchFill : Prop :=
  ∀ (s : State) (d x : Reg) (p : Perms) (id : Nat) (m : MemOp),
    let len := (s.src d).toNat
    let v := (s.src x).toNat
    (len = 0 → exec (.probe d x p) s = .next s) ∧
    (2 ^ 36 < len → TrapsWith (.probe d x p) 0x01 0 s) ∧
    (∀ s', len ≠ 0 → len ≤ 2 ^ 36 → s.probePages p v (v + len - 1) maxPages = (none, s') →
      s'.firmware = false → s'.core.blk = .none → s'.dcc = s.dcc →
      ∃ t a, exec (.probe d x p) s = .next t ∧ a.kind = .probe p (v + len - 1) ∧ t.core.blk = .probe a.id ∧
        StartsAccess a (.probeComplete a.id) 1 s' t) ∧
    (∀ b s', len ≠ 0 → len ≤ 2 ^ 36 → s.probePages p v (v + len - 1) maxPages = (some b, s') →
      (s.inRegion = true ∨ b.va = v ∨ ∃ u, s.core.walk = some u ∧ u ≤ s.dcc) →
      s'.core.trap = none → s'.firmware = false → ∃ t, exec (.probe d x p) s = .next t ∧ Raises b.cause b.data s' t) ∧
    (∀ b s', len ≠ 0 → len ≤ 2 ^ 36 → s.probePages p v (v + len - 1) maxPages = (some b, s') →
      s.inRegion = false → s.firmware = false → b.va ≠ v →
      (s.core.walk = none → ∃ t u, exec (.probe d x p) s = .next t ∧ s.dcc < u ∧
        t = { s with free := t.free, core := { s.core with walk := some u } }) ∧
      ∀ u, s.core.walk = some u → s.dcc < u → s.core.blk = .none →
        ∃ t a, exec (.probe d x p) s = .next t ∧ a.kind = .probe p (v + len - 1) ∧ a.va = BitVec.ofNat 64 b.va ∧ a.back = u ∧
          t.core.blk = .probe a.id ∧ a ∈ t.core.io ∧ t.core.arch = s.core.arch ∧ t.core.trap = s.core.trap) ∧
    (∀ a last, s.core.io.find? (fun b => b.id == id) = some a → a.kind = .probe p last → a.performed = false → last < a.va.toNat →
      s.core.blk = .probe id → (∀ b ∈ s.core.blocked, ∀ r, b.act ≠ .waitc r) →
      exec (.probeComplete id) s = .next { s with core := { s.core with
        io := s.core.io.filter fun b => b.id != id, blk := .none } }) ∧
    (let h := s.srcH m.h
     let o := (s.src m.x + m.off.setWidth 64).toNat
     (m.h = 0 ∨ h.v = false ∨ h.rd = false ∨ h.bytes m.h ≤ o ∨ isFabric (h.addr o) = true → exec (.pref m) s = .next s) ∧
     ∀ b z, s.hostOwned h o = (b, z) → z.core.arch = s.core.arch ∧ z.core.trap = s.core.trap ∧ SameHbm s z ∧
      (m.h ≠ 0 → s.firmware = false → h.v = true → h.rd = true → o < h.bytes m.h → isFabric (h.addr o) = false →
        (b = true → exec (.pref m) s = .next z) ∧
        (b = false → ∃ t a, exec (.pref m) s = .next t ∧ a.kind = .pref ∧ a.pa = lineOf (h.addr o) ∧ a.oc = m.oc ∧
          StartsAccess a (.ldReturn a.id) 24 z t))) ∧
    (∀ line, isTier2 line = false → (s.lines.filter fun l => Machine.setOf l.addr == Machine.setOf line &&
        s.homeSlice l.addr == s.homeSlice line).length < 16 →
      ∃ t, exec (.l2Fill line) s = .next t ∧ t.resident line = true ∧ SameBytes s t ∧
        t.core = { s.core with eng := { s.core.eng with runs := s.core.eng.runs.map fun r => r.cameBack line } })

/-! Regions. -/

/-- R16, R20, R113, R114: REGION outside a region, with a length within the launch's maximum, opens one: RSC takes DCC, the counts
of a first entry are cleared, the region-start state is kept (results still in flight counting as written, log entry 16), the
line bits, the store buffer and the log are empty, and the watchdog is set; no register and no byte of memory changes. -/
def Clause.RegionOpens : Prop :=
  ∀ (s : State) (len : BitVec 24) (am : BitVec 4), s.firmware = false → s.inRegion = false → len.toNat ≤ s.maxLen →
    ∃ t, exec (.region len am) s = .next t ∧ t.inRegion = true ∧ t.core.stat.rsc = BitVec.ofNat 64 s.dcc ∧
      (s.core.replay.repend = false → t.core.stat.pcnt = 0 ∧ t.core.stat.cnt = 0 ∧ t.core.stat.lastc = 0 ∧
        t.core.stat.relax = false) ∧
      (s.core.replay.repend = true → t.core.stat.relax = s.core.replay.relax ∧ t.core.stat.cnt = s.core.stat.cnt) ∧
      t.core.reg.snap = ⟨s.landed, s.core.wpc, s.core.acc, s.core.layer⟩ ∧
      ((∀ e ∈ s.agenda, e.target ≠ s.me) → s.landed = s.core.arch) ∧
      t.core.reg.len = len.toNat ∧ t.core.reg.amask = am ∧ t.core.ls.r = [] ∧ t.core.ls.w = [] ∧ t.core.held = Held.empty ∧
      (∃ e ∈ t.agenda, e.act = .regionLong t.core.reg.entry ∧
        e.due = s.dcc + (if t.core.stat.relax then 2 * len.toNat else len.toNat) + 1) ∧
      t.core.arch = s.core.arch ∧ t.core.acc = s.core.acc ∧ t.core.pc = s.core.pc ∧ SameBytes s t

/-- R30, R113, R118, R119: COMMIT inside a region starts to drain and holds later bundles; nothing else changes: it keeps the word
that a record of it names (R329). REGION inside a region and COMMIT outside one are ILLEGAL, and so are both in the firmware
context; a REGION longer than the maximum raises REGION_LONG and opens nothing. -/
def Clause.RegionAndCommitIssue : Prop :=
  ∀ (s : State) (len : BitVec 24) (am : BitVec 4) (sc : Scope),
    (s.firmware = false → s.inRegion = true → exec (.commit sc) s = .next { s with core := { s.core with
      reg := { s.core.reg with
        commit := .draining sc, cpc := s.core.named.1, cword := s.core.named.2, cpos := s.core.position }, blk := .commit } }) ∧
    (s.inRegion = true → TrapsWith (.region len am) 0x01 0 s) ∧ (s.inRegion = false → TrapsWith (.commit sc) 0x01 0 s) ∧
    (s.inRegion = false → s.maxLen < len.toNat → TrapsWith (.region len am) 0x11 (len.setWidth 64) s) ∧
    AbandonsWith (.region len am) 0x01 s ∧ AbandonsWith (.commit sc) 0x01 s

/-- REGION opens an entry and keeps its start; COMMIT starts to drain; both fault where they may not stand. -/
def Obligations.RegionAndCommitIssue : Prop := Clause.RegionOpens ∧ Clause.RegionAndCommitIssue

/-- R31, R119, R121, R335: where the digests of both streams match and nothing has discarded the entry in the cycle, the commit
point closes the region and empties what the entry held; its stores through h0 are applied to the local store in that cycle, and
nothing of memory that others see has changed yet. Digests that differ raise CHECK_MISMATCH with both, and commit nothing. -/
def Clause.CommitPoint : Prop :=
  ∀ (s : State) (sc : Scope), s.inRegion = true → s.core.reg.commit = .checking sc → s.core.trap = none →
    (s.core.reg.digest ≠ s.core.cruiser.digest →
      ∃ t, exec .commitCheck s = .next t ∧ t.core.stat.trapc = 0x13 ∧ t.core.stat.trapv2 = s.core.reg.digest.setWidth 64 ∧
        t.core.stat.trapv3 = s.core.cruiser.digest.setWidth 64 ∧ t.core.reg = s.core.reg ∧ t.pubs = s.pubs ∧
        t.core.arch = s.core.arch ∧ SameBytes s t) ∧
    (s.core.reg.digest = s.core.cruiser.digest → Mem.wf s.core.ls.mem = true →
    s.core.held.sbLs.Pairwise (fun x y => x.1 < y.1) →
      ∃ t, exec .commitCheck s = .next t ∧ t.inRegion = false ∧ t.core.held = Held.empty ∧ t.core.arch = s.core.arch ∧
        (∀ a, t.core.ls.mem.read a = (SMap.find a s.core.held.sbLs).getD (s.core.ls.mem.read a)) ∧
        (∀ a, t.mem.read a = s.mem.read a) ∧ (∀ a, t.cxl.read a = s.cxl.read a) ∧
        ∃ p ∈ t.pubs, p.launch = s.core.launch ∧ p.lcore = s.core.lcore ∧ p.sc = sc ∧
          Due (.publishApply p.id) 0 s t)

/-- R119, R120, R294: when a publish set with no combines becomes visible, each byte it holds reads as the entry left it and every
other byte of memory as before, and the COMMIT that waited for it lets the next bundle issue in the cycle after. The lines are
resident and in HBM, and the scope waits for neither the second tier, the encoders nor the fabric. -/
def Clause.PublishedBytesAreVisible : Prop :=
  ∀ (s : State) (id : Nat) (p : PubSet), s.pubs.find? (fun q => q.id == id) = some p → p.applied = false → p.log = [] →
    p.fenced = none → p.vis ≤ s.dcc → Mem.wf s.mem = true → p.plain.Pairwise (fun x y => x.1 < y.1) →
    (∀ e ∈ p.plain, isHbm e.1 = true ∧ s.resident e.1 = true) →
    scopeTier p.sc = false → scopeMedia p.sc = false → s.unacked p.id = false →
    s.core.isCtx p.launch p.lcore = true → s.firmware = false → (∀ b ∈ s.core.blocked, ∀ r, b.act ≠ .waitc r) →
      ∃ t, exec (.publishApply id) s = .next t ∧
        (∀ a, t.mem.read a = (SMap.find a p.plain).getD (s.mem.read a)) ∧ t.cxl = s.cxl ∧ t.core.ls = s.core.ls ∧
        t.core.arch = s.core.arch ∧ (∀ q ∈ t.pubs, q.id ≠ id) ∧
        (s.core.reg.commit = .publishing id → t.core.reg.commit = .none ∧ t.core.blk = .none ∧
          t.core.hz.issueAt = max s.core.hz.issueAt (s.dcc + 1))

/-- The commit point applies the local stores; a publish set makes its bytes visible, and no other byte. -/
def Obligations.CommitAndPublish : Prop := Clause.CommitPoint ∧ Clause.PublishedBytesAreVisible

/-- R121: the watchdog of an entry whose commit point has not been reached raises REGION_LONG, attributed to the REGION; that of an
entry that is over does nothing. -/
def Clause.WatchdogFires : Prop :=
  ∀ (s : State) (entry : Nat),
    (s.inRegion = true → s.core.reg.entry = entry → s.core.trap = none → s.core.reg.snap.layer = none →
      ∃ t, exec (.regionLong entry) s = .next t ∧ t.core.stat.trapc = 0x11 ∧ t.core.stat.trapv0 = s.core.reg.snap.pc ∧
        t.core.stat.trapv1 = s.core.reg.word ∧ t.core.stat.trapv2 = BitVec.ofNat 64 (s.core.reg.len % 2 ^ 24) ∧
        t.core.arch = s.core.arch ∧ SameBytes s t) ∧
    (s.inRegion = false ∨ s.core.reg.entry ≠ entry → exec (.regionLong entry) s = .next s)

/-- R20, R122: a discard puts back the registers of the region-start state, a V only where it was set at REGION and not revoked
since, and the accumulators the REGION named; it drops what the entry held and every command of the core but chases pushed
before the entry (R244), and keeps the local store, the counts and trap registers, and every byte of memory. The Cruiser has the
same registers (R334). -/
def Clause.DiscardRestoresRegionStart : Prop :=
  ∀ (s : State),
    let t := s.discard
    let old := s.core.reg.snap.arch
    t.core.arch.s = old.s ∧ t.core.arch.p = old.p ∧ t.core.arch.mask = old.mask ∧ t.core.arch.slots = old.slots ∧
    t.core.arch.ports = old.ports ∧ t.core.arch.flags = old.flags ∧ t.core.arch.csr = old.csr ∧
    (∀ h : HReg, (t.core.arch.hreg h).v = ((old.hreg h).v && !s.core.reg.revoked.getLsbD h.toNat) ∧
      (t.core.arch.hreg h).pbase = (old.hreg h).pbase ∧ (t.core.arch.hreg h).vpage = (old.hreg h).vpage) ∧
    t.core.pc = s.core.reg.snap.pc ∧
    (∀ i : Fin 4, t.core.acc.get i = if s.core.reg.amask.getLsbD i.val then s.core.reg.snap.acc.get i else s.core.acc.get i) ∧
    t.core.held = Held.empty ∧ (∀ q ∈ t.core.eng.queues.toList, q = []) ∧
    (∀ x ∈ t.core.eng.runs, x.chasing = true ∧ x.id < s.core.reg.entry) ∧ t.inRegion = false ∧
    t.core.cruiser.user = ⟨t.core.arch.s, t.core.arch.p, t.core.arch.h, t.core.arch.mask, t.core.pc, false⟩ ∧
    (∀ i : Fin 96, (t.core.ls.tags.get i).full =
      ((s.core.ls.tags.get i).full && !s.core.ls.w.any fun n => n / 16 == i.val)) ∧
    t.core.stat = s.core.stat ∧ SameBytes s t

/-- R22, R23, R95, R122: at the end of the restore, with no result of before the entry on its way (DEDUCED, log entry 16), the
re-entry is counted by its cause, PCNT for a pre-emption, CNT for any other, and LASTC takes the cause; a count beyond the limit
raises REGION_LIVELOCK instead, attributed to the REGION, also where both are 255 (DESIGN CHOICE, log entry 86). -/
def Clause.ReentryIsCounted : Prop :=
  ∀ (s : State), s.core.blk = .reentry → s.core.stopping = false → s.resultsPending = false →
    s.toRetranslate = [] →
    let c := s.core.replay.cause
    let x := s.core.stat
    let lim := s.core.arch.csr.relim.toNat
    (c = 0x15 → ∃ t, exec .reentry s = .next t ∧ t.core.blk = .none ∧
      t.core.stat = { x with pcnt := if x.pcnt = 255 then 255 else x.pcnt + 1, lastc := c } ∧ t.core.arch = s.core.arch ∧
      SameBytes s t) ∧
    (c ≠ 0x15 → c ≠ 0x10 → x.cnt.toNat + 1 ≤ lim → ∃ t, exec .reentry s = .next t ∧ t.core.blk = .none ∧
      t.core.stat = { x with cnt := if x.cnt = 255 then 255 else x.cnt + 1, lastc := c } ∧ t.core.arch = s.core.arch ∧
      SameBytes s t) ∧
    (c ≠ 0x15 → c ≠ 0x10 → lim < x.cnt.toNat + 1 → s.core.trap = none → s.core.reg.snap.layer = none →
      ∃ t, exec .reentry s = .next t ∧ t.core.stat.trapc = 0x10 ∧ t.core.stat.trapv0 = s.core.reg.snap.pc ∧
        t.core.stat.trapv2 = c.setWidth 64 ∧ t.core.blk = .reentry ∧ SameBytes s t)

/-- The watchdog, what a discard restores, and the counting of the entry that follows it. -/
def Obligations.DiscardAndReentry : Prop := Clause.WatchdogFires ∧ Clause.DiscardRestoresRegionStart ∧ Clause.ReentryIsCounted

/-- R126: after an invalidation no context of the virtual function has a valid handle, other than the window, whose page overlaps
the range in any byte, of saved contexts too (DEDUCED, log entry 36); scalar and predicate registers are as before. The
invalidation waits to be acknowledged for every access through such a handle that has not performed, and for every open entry
whose context holds one (R290). -/
def Obligations.RevocationClearsHandles : Prop :=
  ∀ (s : State) (vf : BitVec 7) (va len : Nat), (s.cores.map Core.phys).Nodup →
    ∃ t, exec (.translationInvalidate vf va len) s = .next t ∧
      (∀ c ∈ t.cores ++ t.saved, c.vf = vf → ∀ h : HReg, h ≠ 0 →
        (c.arch.hreg h).v = true → (c.arch.hreg h).overlaps va len = false) ∧
      t.core.phys = s.core.phys ∧ t.core.arch.s = s.core.arch.s ∧ t.core.arch.p = s.core.arch.p ∧
      ∃ i, t.invals = s.invals ++ [i] ∧ i.vf = vf ∧ i.va = va ∧ i.len = len ∧
        (∀ c ∈ s.cores, c.vf = vf → c.reg.isOpen = true → (∃ h : HReg, h ≠ 0 ∧ (c.arch.hreg h).v = true ∧
          (c.arch.hreg h).overlaps va len = true) → (c.launch, c.lcore, c.reg.entry) ∈ i.entries) ∧
        ∀ c ∈ s.cores, c.vf = vf → ∀ a ∈ c.io, a.kind.mem = true → a.performed = false → a.hnd.overlaps va len = true →
          a.id ∈ i.accesses

/-! Fences, groups and time. -/

/-- R137, R138, R294, R295: FENCE with nothing to wait for changes nothing, and its bundle alone takes the cycle; with something
later bundles are held till the wait ends, and no register and no byte has changed. It waits, in a region, for the entry's LD
and PREF of the named classes that have not returned; in boundary code for every earlier access of the classes that has not
performed, for a publish set that holds stores of them, and for what its scope asks: second-tier lines to write back, or copies
of encoders to drop. How long these take is open (DESIGN CHOICE, log entry 39); the firmware context has nothing to wait for
(DEDUCED, log entry 17). -/
def Obligations.FenceHoldsItsClasses : Prop :=
  ∀ (s : State) (sc : Scope) (mask : BitVec 16) (id upto : Nat),
    let pubs := ∃ p ∈ s.pubs, p.launch = s.core.launch ∧ p.lcore = s.core.lcore ∧ p.id < s.serial ∧
      ∃ x ∈ p.classes, mask.getLsbD x.2.toNat = true
    let lines := scopeTier sc = true ∧ ∃ l ∈ s.lines, l.dirty = true ∧ isTier2 l.addr = true ∧ s.wrote mask l.writers = true
    let copies := scopeMedia sc = true ∧ ∃ e ∈ s.encs, ∃ f ∈ e.2.frames, ∃ c ∈ f.copies, s.wrote mask c.2.writers = true
    let waits := s.core.fenceWaits mask s.serial = true ∨ (s.inRegion = false ∧ (pubs ∨ lines ∨ copies))
    (s.core.fenceWaits mask upto = false ↔ ∀ a ∈ s.core.io, a.id < upto → mask.getLsbD a.oc.toNat = true →
      (s.inRegion = false → a.kind.mem = true → a.performed = true) ∧
      (s.inRegion = true → a.entry = s.core.reg.entry → a.kind ≠ .pref ∧ ∀ d sz sx, a.kind ≠ .ld d sz sx)) ∧
    (s.firmware = true → exec (.fence sc mask) s = .next s) ∧ (¬waits → exec (.fence sc mask) s = .next s) ∧
    (s.firmware = false → waits → s.core.blk = .none →
      exec (.fence sc mask) s = .next { s with
        core := { s.core with waits := s.core.waits ++ [⟨s.serial, s.serial, .fence mask sc⟩], blk := .fence s.serial }
        serial := s.serial + 1 }) ∧
    (s.core.blk = .fence id → (∀ b ∈ s.core.blocked, ∀ r, b.act ≠ .waitc r) →
      exec (.fenceComplete id) s = .next { s with core := { s.core with blk := .none } })

/-- R140, R141, R143: an arrival is counted at its point and adds its flags; where the expected count is set and reached, the
generation completes: LFLG takes FLG, FLG and CNT are cleared, GEN counts up modulo 256, and the release of every core that
waits on the generation sets out. The arrival is answered with the generation it joined, 20 cycles on for a core on the home
die, 60 elsewhere. -/
def Clause.ArrivalsAtPoint : Prop :=
  ∀ (s : State) (g : BitVec 8) (pt : BitVec 5) (lc : Nat) (fl : BitVec 8) (x : Group), pt.toNat < 24 → s.group g = some x →
    let p := x.point pt.toNat
    let full := p.ini = true ∧ p.exp ≤ p.cnt + 1
    let d := fun c : Core => if dieOf c.phys = x.homeDie then 20 else 60
    ∃ t z, exec (.rvArrival g pt lc fl) s = .next t ∧ t.group g = some z ∧ t.core = s.core ∧ SameBytes s t ∧
      (full → z.point pt.toNat = { p with lflg := p.flg ||| fl, flg := 0, cnt := 0, gen := p.gen + 1 }) ∧
      (¬full → z.point pt.toNat = { p with flg := p.flg ||| fl, cnt := (p.cnt + 1) % 32 }) ∧
      (∀ n, n ≠ pt.toNat → z.point n = x.point n) ∧
      (∀ c ∈ s.cores, c.isCtx s.core.launch lc = true →
        ∃ e ∈ t.agenda, e.act = .rvAnswer g pt p.gen ∧ e.target = .ctx s.core.launch lc ∧ ∃ k ∈ s.cores,
          k.isCtx s.core.launch lc = true ∧ e.due = s.dcc + d k) ∧
      (full → ∀ w ∈ x.waiters, w.1 = pt → w.2.2.1 = some p.gen →
        (∃ e ∈ t.agenda, e.act = .waitrvRelease g pt (some p.gen) ∧ e.target = .ctx s.core.launch w.2.1 ∧
          s.dcc + 20 ≤ e.due ∧ e.due ≤ s.dcc + 60) ∧ w ∉ z.waiters)

/-- R141: an RVINIT sets the expected count of a point that has none, and completes the generation if the arrivals are there
already; a later one with another count sets MIS and leaves the first count. -/
def Clause.InitsAtPoint : Prop :=
  ∀ (s : State) (g : BitVec 8) (pt : BitVec 5) (n : BitVec 5) (x : Group), pt.toNat < 24 → s.group g = some x →
    let p := x.point pt.toNat
    ∃ t z, exec (.rvInitApply g pt n) s = .next t ∧ t.group g = some z ∧ t.core = s.core ∧ SameBytes s t ∧
      (p.ini = false → p.cnt < n.toNat → z.point pt.toNat = { p with ini := true, exp := n.toNat }) ∧
      (p.ini = false → n.toNat ≤ p.cnt → z.point pt.toNat =
        { p with ini := true, exp := n.toNat, lflg := p.flg, flg := 0, cnt := 0, gen := p.gen + 1 }) ∧
      (p.ini = true → z.point pt.toNat = { p with mis := p.mis || n.toNat != p.exp }) ∧
      (∀ m, m ≠ pt.toNat → z.point m = x.point m)

/-- What an arrival and an RVINIT do at their point: counts, flags, generations, releases and answers. -/
def Obligations.RendezvousPoint : Prop := Clause.ArrivalsAtPoint ∧ Clause.InitsAtPoint

/-- R29, R30, R142, R143: ARRIVE outside a region by a member of a rendezvous group: its record is valid and pending, and the
message leaves at once with the core's flags, or once every earlier boundary access has performed; in a region it takes an entry
of the log. Its answer gives the record its generation, unless a later ARRIVE has replaced it. A use by no member, of a tree
group, is ILLEGAL, and so is one by the firmware context (DEDUCED, log entry 17). How answers to replaced arrivals are told
apart is DEDUCED, log entry 40. -/
def Clause.ArriveAndItsAnswer : Prop :=
  ∀ (s : State) (g : BitVec 8) (pt : BitVec 5) (gen : BitVec 8) (x : Group), pt.toNat < 24 → s.core.groupIndex g < 4 →
    s.group g = some x →
    (s.firmware = false → s.groupOk g true = true →
      (s.inRegion = false → ∃ t, exec (.arrive g pt) s = .next t ∧
        (t.core.arrRec g pt).valid = true ∧ (t.core.arrRec g pt).pending = true ∧
        (s.core.unperformed s.serial = false →
          ∀ e, e ∈ t.agenda ↔ e = ⟨s.dcc + (if dieOf s.core.phys = x.homeDie then 20 else 60), ordLate s.core.lcore, s.me,
            .rvArrival g pt s.core.lcore s.core.pre.csr.numf⟩ ∨ e ∈ s.agenda) ∧
        (s.core.unperformed s.serial = true →
          t.agenda = s.agenda ∧ t.core.waits = s.core.waits ++ [⟨s.serial, s.serial, .arrive g pt⟩]) ∧ Quiet s t ∧
        t.core.blk = s.core.blk) ∧
      (s.inRegion = true → s.logEntries < 2048 → exec (.arrive g pt) s = .next { s with core := { s.core with
        held := { s.core.held with log := s.core.held.log ++ [⟨0, .arrive g pt⟩] } } })) ∧
    (s.groupOk g true = false → TrapsWith (.arrive g pt) 0x01 0 s) ∧ AbandonsWith (.arrive g pt) 0x01 s ∧
    (s.core.blk ≠ .waitrv g pt → ∃ t, exec (.rvAnswer g pt gen) s = .next t ∧ t.agenda = s.agenda ∧ Quiet s t ∧
      t.core.blk = s.core.blk ∧
      ((s.core.arrRec g pt).stale = 0 → t.core.arrRec g pt = { s.core.arrRec g pt with pending := false, gen := gen }) ∧
      (0 < (s.core.arrRec g pt).stale →
        t.core.arrRec g pt = { s.core.arrRec g pt with stale := (s.core.arrRec g pt).stale - 1 }))

/-- R30, R143: WAITRV outside a region holds later bundles; with no arrival pending its message sets out at once, and else when the
answer comes; it sends no second message while one is under way (R146). At the point its target is the generation of a valid
record, or else the current one: a generation that is over is answered at once, and for the current one it waits. The release of
its target lets later bundles issue and leaves the record invalid. In the firmware context it is ILLEGAL (DEDUCED, log entry
17). -/
def Clause.WaitrvWaitsForItsGeneration : Prop :=
  ∀ (s : State) (g : BitVec 8) (pt : BitVec 5) (x : Group), pt.toNat < 24 → s.core.groupIndex g < 4 → s.group g = some x →
    let r := s.core.arrRec g pt
    let now := (x.point pt.toNat).gen
    let sent := fun (t : State) => ∃ e ∈ t.agenda, e.due = s.dcc + s.msgTime x ∧ e.target = s.me ∧ e.act = .waitrvRelease g pt none
    (s.firmware = false → s.groupOk g true = true → s.inRegion = false →
      ∃ t, exec (.waitrv g pt) s = .next t ∧ t.core.blk = .waitrv g pt ∧ Quiet s t ∧
        (r.valid = true ∧ r.pending = true ∨ s.waitSent g pt = true → t.agenda = s.agenda) ∧
        (¬(r.valid = true ∧ r.pending = true) → s.waitSent g pt = false → sent t)) ∧
    (s.firmware = false → s.groupOk g true = true → s.inRegion = true → TrapsWith (.waitrv g pt) 0x1D 0 s) ∧
    (s.groupOk g true = false → TrapsWith (.waitrv g pt) 0x01 0 s) ∧ AbandonsWith (.waitrv g pt) 0x01 s ∧
    (∀ gen, s.core.blk = .waitrv g pt → r.pending = true → r.stale = 0 → s.waitSent g pt = false →
      ∃ t, exec (.rvAnswer g pt gen) s = .next t ∧ t.core.arrRec g pt = { r with pending := false, gen := gen } ∧ sent t) ∧
    (∃ t, exec (.waitrvRelease g pt none) s = .next t ∧ t.core.blk = s.core.blk ∧ Quiet s t ∧
      (t.core.arrRec g pt).valid = true ∧ (t.core.arrRec g pt).gen = (if r.valid then r.gen else now) ∧
      (r.valid = true → r.gen ≠ now → ∃ e ∈ t.agenda, e.due = s.dcc + s.msgTime x ∧ e.target = s.me ∧
        e.act = .waitrvRelease g pt (some r.gen)) ∧
      (r.valid = false ∨ r.gen = now → ∃ z, t.group g = some z ∧ (pt, s.core.lcore, some now, s.dcc) ∈ z.waiters)) ∧
    (s.core.blk = .waitrv g pt → r.valid = true → r.pending = false → (∀ b ∈ s.core.blocked, ∀ q, b.act ≠ .waitc q) →
      ∃ t, exec (.waitrvRelease g pt (some r.gen)) s = .next t ∧ t.core.blk = .none ∧ Quiet s t ∧
      t.core.arrRec g pt = { r with valid := false, pending := false })

/-- ARRIVE and WAITRV at the context: the arrival record, its answer, and the release of its generation. -/
def Obligations.RendezvousContext : Prop := Clause.ArriveAndItsAnswer ∧ Clause.WaitrvWaitsForItsGeneration

/-- R141, R145: RVINIT with a count from 1 to 28 sends it to the point, or in a region takes an entry of the log, and with any other
is ILLEGAL. RVFLAGS leaves s(a) pending for 40 cycles on the home die and 120 elsewhere; the word read is the point's when the
message is there, after the arrivals of that cycle, and is then written to s(a), and goes to the Cruiser (R334). -/
def Obligations.RvinitAndRvflags : Prop :=
  ∀ (s : State) (g : BitVec 8) (pt : BitVec 5) (a : Reg) (w : Word) (x : Group), s.group g = some x → s.firmware = false →
    let lat := if dieOf s.core.phys = x.homeDie then 20 else 60
    let v := (s.src a).toNat
    let n : BitVec 5 := (s.src a).setWidth 5
    (s.groupOk g true = true → 1 ≤ v → v ≤ 28 →
      n.toNat = v ∧
      (s.inRegion = true → s.logEntries < 2048 → exec (.rvinit g pt a) s = .next { s with core := { s.core with
        held := { s.core.held with log := s.core.held.log ++ [⟨0, .rvinit g pt n⟩] } } }) ∧
      (s.inRegion = false → exec (.rvinit g pt a) s = .next { s with
        agenda := Ev.insert ⟨s.dcc + lat, ordLate s.core.lcore, s.me, .rvInitApply g pt n⟩ s.agenda })) ∧
    (v = 0 ∨ 28 < v ∨ s.groupOk g true = false → TrapsWith (.rvinit g pt a) 0x01 0 s) ∧
    (s.groupOk g true = true → ∃ t, exec (.rvflags g pt a) s = .next t ∧ Quiet s t ∧
      (∃ e ∈ t.agenda, e.due = s.dcc + lat ∧ e.target = s.me ∧ e.act = .rvflagsReply g pt a none ∧ ordLate 27 < e.ord) ∧
      (a ≠ 0 → (⟨.s a, some (s.dcc + 2 * lat)⟩ : Pend) ∈ t.core.hz.pend)) ∧
    (s.groupOk g true = false → TrapsWith (.rvflags g pt a) 0x01 0 s) ∧
    (∃ t, exec (.rvflagsReply g pt a none) s = .next t ∧ Quiet s t ∧ ∃ e ∈ t.agenda, e.due = s.dcc + lat ∧ e.target = s.me ∧
      e.act = .rvflagsReply g pt a (some (x.point pt.toNat).word)) ∧
    (s.inRegion = false → ∃ t, exec (.rvflagsReply g pt a (some w)) s = .next t ∧ WritesS a w { s with core := { s.core with
      hz := { s.core.hz with pend := s.core.hz.pend.filter fun q => q.dest != .s a }
      cruiser := { s.core.cruiser with told := s.core.cruiser.told ++ [⟨s.dcc + 6, false, .s a w⟩] } } } t)

/-- R28 to R30, R144: BAR outside a region by a member of a tree group holds later bundles; its arrival leaves when earlier boundary
accesses have performed, and where it is the last, every member is released 8 cycles on if all run in one cluster and 40 if not.
One issued again after a restore does not arrive again (R146), and one that is over is not issued again. -/
def Obligations.BarReleasesAllMembers : Prop :=
  ∀ (s : State) (g : BitVec 8) (x : Group), s.group g = some x → s.firmware = false →
    let one := ∀ p ∈ s.memberPhys x, p / 4 = s.core.phys / 4
    (s.groupOk g false = false → TrapsWith (.bar g) 0x01 0 s) ∧
    (s.groupOk g false = true → s.inRegion = true → TrapsWith (.bar g) 0x1D 0 s) ∧
    (s.groupOk g false = true → s.inRegion = false → s.core.reissue = false →
      ∃ t z, exec (.bar g) s = .next t ∧ t.core.blk = .bar g ∧ t.core.barPending = true ∧ Quiet s t ∧ t.group g = some z ∧
        (s.core.unperformed s.serial = true →
          t.core.waits = s.core.waits ++ [⟨s.serial, s.serial, .bar g⟩] ∧ z = x ∧ t.agenda = s.agenda) ∧
        (s.core.unperformed s.serial = false →
          ((∃ m < 28, x.has m = true ∧ m ≠ s.core.lcore ∧ m ∉ x.bars) →
            s.core.lcore ∈ z.bars ∧ (∀ m ∈ x.bars, m ∈ z.bars) ∧ t.agenda = s.agenda) ∧
          ((∀ m < 28, x.has m = true → m = s.core.lcore ∨ m ∈ x.bars) →
            z.bars = [] ∧ ∀ m < 28, x.has m = true → ∃ e ∈ t.agenda, e.target = .ctx s.core.launch m ∧
              e.act = .barRelease g ∧ (one → e.due = s.dcc + 8) ∧ (¬one → e.due = s.dcc + 40)))) ∧
    (s.groupOk g false = true → s.inRegion = false → s.core.reissue = true →
      exec (.bar g) s = .next (if s.core.barPending then { s with core := { s.core with blk := .bar g } } else s)) ∧
    (s.core.blk = .bar g → (∀ b ∈ s.core.blocked, ∀ r, b.act ≠ .waitc r) →
      exec (.barRelease g) s = .next { s with core := { s.core with
        blocked := s.core.blocked.filter fun b => b.act != .bar g, barPending := false, blk := .none } })

/-- R148 to R150: FLAGW writes the set bit of a flag from s(a), unless a SETF wrote the flag in this cycle, and nothing else. WAITC
lets the next bundle issue no sooner than the cycle s(a), and at once when that has come. ALIGN by a member of a group holds
later bundles; the last of the members fixes one common cycle for all, 8 or 40 cycles on; one that has not completed when its
time-out has passed withdraws its arrival and raises ALIGN_TIMEOUT at its own word, to be issued again. In the firmware context
FLAGW is ILLEGAL (DEDUCED, log entry 17). -/
def Obligations.TimedWaits : Prop :=
  ∀ (s : State) (g : BitVec 8) (a : Reg) (tmo : BitVec 24) (n : BitVec 6),
    AbandonsWith (.flagw n a) 0x01 s ∧ (s.firmware = false →
    let at_ := (s.src a).toNat
    let flags := s.core.arch.flags
    let flags := if s.core.eng.setfNow.getLsbD n.toNat then flags
      else flags.set n.toNat { flags.get n.toFin with set := s.src a != 0 } n.isLt
    exec (.flagw n a) s = .next { s with core := { s.core with arch := { s.core.arch with flags := flags } } } ∧
    (at_ ≤ s.dcc + 1 → exec (.waitc a) s = .next s) ∧
    (s.dcc + 1 < at_ → s.core.blk = .none → exec (.waitc a) s = .next { s with
      core := { s.core with blk := .waitc at_ }
      agenda := Ev.insert ⟨at_, ordLate s.core.phys, s.me, .waitcExpiry⟩ s.agenda }) ∧
    (∀ c, s.core.blk = .waitc c → c ≤ s.dcc → exec .waitcExpiry s = .next { s with core := { s.core with blk := .none } }) ∧
    (s.memberOf g = false → TrapsWith (.align g tmo) 0x01 0 s) ∧
    (∀ x, s.group g = some x → s.memberOf g = true →
      ∃ t z, exec (.align g tmo) s = .next t ∧ t.core.blk = .align g s.serial ∧ Quiet s t ∧ t.group g = some z ∧
        ((∃ m < 28, x.has m = true ∧ m ≠ s.core.lcore ∧ ∀ e ∈ x.aligns, e.1 ≠ m) →
          (s.core.lcore, s.serial) ∈ z.aligns ∧
          ∃ e ∈ t.agenda, e.due = s.dcc + tmo.toNat + 1 ∧ e.target = s.me ∧ e.act = .alignTimeout s.serial) ∧
        ((∀ m < 28, x.has m = true → m ≠ s.core.lcore → ∃ e ∈ x.aligns, e.1 = m) →
          z.aligns = [] ∧ ∀ m < 28, x.has m = true → ∃ e ∈ t.agenda, e.target = .ctx s.core.launch m ∧
            e.act = .alignComplete g ∧ e.due = s.dcc + (if s.oneCluster x then 8 else 40))) ∧
    (∀ n, s.core.blk = .align g n →
      ((∀ b ∈ s.core.blocked, ∀ r, b.act ≠ .waitc r) → exec (.alignComplete g) s = .next { s with core := { s.core with
        blocked := s.core.blocked.filter fun b => !isAlign b.act, blk := .none, fw := { s.core.fw with hold := s.dcc } } }) ∧
      (s.core.trap = none → ∀ x, s.group g = some x → (s.core.lcore, n) ∈ x.aligns →
        ∃ t z, exec (.alignTimeout n) s = .next t ∧ t.core.stat.trapc = 0x1A ∧ t.core.blk = .none ∧ t.core.reissue = true ∧
          (∀ b, s.core.blocked = [b] → (∃ h k, b.act = .align h k) → s.core.sequence = none →
            t.core.stat.trapv0 = b.wpc ∧ t.core.stat.trapv1 = b.wword) ∧
          t.group g = some z ∧ (∀ e ∈ z.aligns, e.2 ≠ n) ∧ t.core.arch = s.core.arch ∧ SameBytes s t) ∧
      (∀ x, s.group g = some x → (s.core.lcore, n) ∉ x.aligns → exec (.alignTimeout n) s = .next s)))

/-! CSRs and system instructions. -/

/-- R21 to R24, R34, R165, R166: CSRR writes the CSR to s(a), and a privileged one raises PRIV in the user context. The firmware
context reads every CSR (DESIGN CHOICE, log entry 87). -/
def Obligations.CsrReads : Prop :=
  ∀ (s : State) (a : Reg) (c : Csr),
    (csrPrivileged c = true ↔ c = .fshare ∨ c = .errinjA ∨ c = .errinjC) ∧
    (csrPrivileged c = true → TrapsWith (.csrr a c) 0x02 0 s) ∧
    (csrPrivileged c = false ∨ s.firmware = true →
      ∃ v, PutsS (.csrr a c) a v s ∧
        let x := s.core.stat
        let r := s.core.pre.csr
        (c = .dcc → v = BitVec.ofNat 64 s.dcc) ∧ (c = .rsc → v = x.rsc) ∧ (c = .lcore → v = BitVec.ofNat 64 s.core.lcore) ∧
        (c = .pid → v = s.core.part.setWidth 64) ∧ (c = .vfid → v = s.core.vf.setWidth 64) ∧
        (c = .gmemb → v.extractLsb' 40 24 = 0 ∧ v.extractLsb' 32 4 = 0 ∧ ∀ i, i < 4 →
          v.getLsbD (36 + i) = (s.core.groups[i]?).isSome ∧ v.extractLsb' (8 * i) 8 = (s.core.groups[i]?).getD 0) ∧
        (c = .recnt → v.extractLsb' 8 8 = x.pcnt ∧ v.extractLsb' 0 8 = x.cnt ∧ v.extractLsb' 16 48 = 0) ∧
        (c = .relim → v = r.relim.setWidth 64) ∧
        (c = .rstat → v.extractLsb' 8 8 = x.lastc ∧ v.getLsbD 0 = x.relax ∧ v.extractLsb' 16 48 = 0 ∧ v.extractLsb' 1 7 = 0) ∧
        (c = .lscale → v = r.lscale.setWidth 64) ∧ (c = .lscfg → v = r.lscfg) ∧ (c = .lsstat → v = r.lsstat) ∧
        (c = .srseed → v = r.srseed) ∧ (c = .steptag → v = r.steptag.setWidth 64) ∧ (c = .trapc → v = x.trapc.setWidth 64) ∧
        (c = .trapv0 → v = x.trapv0) ∧ (c = .trapv1 → v = x.trapv1) ∧ (c = .trapv2 → v = x.trapv2) ∧ (c = .trapv3 → v = x.trapv3) ∧
        (c = .numf → v = r.numf.setWidth 64) ∧ (c = .fshare → v = s.core.fshare.setWidth 64) ∧
        (c = .errinjA → v = s.core.errinjA) ∧ (c = .errinjC → v = s.core.errinjC) ∧
        (c = .burstcfg → v.extractLsb' 0 8 = r.hold ∧ v.extractLsb' 8 8 = 0 ∧
          v.extractLsb' 16 15 = BitVec.ofNat 15 (s.core.eng.array.bleft s.dcc)) ∧
        (c = .shapeg → v = r.shapeg.setWidth 64))

/-- R34, R56, R166, R341, R347 to R349: CSRW in the user context: a CSR of no writable field, a bit that is reserved or read only,
and a value that the CSR refuses, are ILLEGAL; else the CSR takes the value, the bits written as 1 clear where the field is RC,
and nothing else changes. The privileged CSRs raise PRIV in the user context and are written by the firmware context; what those
refuse is ILLEGAL there, as in the user context. -/
def Obligations.CsrWrites : Prop :=
  ∀ (s : State) (a : Reg) (c : Csr),
    let v := s.src a
    let n := v.toNat
    let ill := TrapsWith (.csrw c a) 0x01 0 s
    let fw := fun (f : Core → Core) => s.firmware = true → exec (.csrw c a) s = .next { s with core := f s.core }
    let put := fun (f : CsrR → CsrR) => s.firmware = false → exec (.csrw c a) s = .next { s with core := { s.core with
      arch := { s.core.arch with csr := f s.core.arch.csr } } }
    (csrPrivileged c = true → TrapsWith (.csrw c a) 0x02 0 s) ∧
    (c = .dcc ∨ c = .rsc ∨ c = .lcore ∨ c = .pid ∨ c = .vfid ∨ c = .gmemb ∨ c = .recnt ∨ c = .rstat ∨ c = .trapc ∨ c = .trapv0 ∨
      c = .trapv1 ∨ c = .trapv2 ∨ c = .trapv3 ∨ c = .shapeg → ill) ∧
    (c = .relim → if n < 2 ^ 8 then put fun r => { r with relim := v.setWidth 8 } else ill) ∧
    (c = .steptag → if n < 2 ^ 16 then put fun r => { r with steptag := v.setWidth 16 } else ill) ∧
    (c = .srseed → put fun r => { r with srseed := v }) ∧
    (c = .lscale → if 0 < n ∧ n < 0x7F800000 then put fun r => { r with lscale := v.setWidth 32 } else ill) ∧
    (c = .lscfg → if v &&& 0xFFFF0000FFFF0000 = 0 ∧ v.extractLsb' 32 16 ≠ 0 ∧ v.extractLsb' 0 8 ≠ 0 ∧ v.extractLsb' 8 8 ≠ 255 ∧
        (v.extractLsb' 0 8).toNat ≤ (v.extractLsb' 8 8).toNat then
      ∃ w : Word, put (fun r => { r with lscfg := v, lsstat := w }) ∧ w.extractLsb' 16 48 = s.core.arch.csr.lsstat.extractLsb' 16 48 ∧
        (w.extractLsb' 0 16).toNat = min (s.core.arch.csr.lsstat.extractLsb' 0 16).toNat (v.extractLsb' 32 16).toNat else ill) ∧
    (c = .lsstat → if v &&& 0xFFFFFFF100000000 = 0 then put fun r => { r with lsstat := r.lsstat &&& ~~~v } else ill) ∧
    (c = .numf → if n < 2 ^ 8 then
      put fun r => { r with numf := (r.numf &&& ~~~(v.setWidth 8)) ||| (r.numf &&& s.core.numfNow) } else ill) ∧
    (c = .burstcfg → if n < 2 ^ 8 then s.firmware = false → ∃ t, exec (.csrw c a) s = .next t ∧ SameBytes s t ∧
        t.core.arch = { s.core.arch with csr := { s.core.arch.csr with hold := v.setWidth 8 } } ∧ t.core.stat = s.core.stat else ill) ∧
    (c = .fshare → if n < 2 ^ 8 then fw fun k => { k with fshare := v.setWidth 8 } else AbandonsWith (.csrw c a) 0x01 s) ∧
    (c = .errinjA → if v &&& 0xFFF0000000000007 = 0 then fw fun k => { k with errinjA := v } else AbandonsWith (.csrw c a) 0x01 s) ∧
    (c = .errinjC → if v &&& 0xFFFFFFFFFFFFE0C0 = 0 ∧ (v.extractLsb' 8 3).toNat ≤ 4 then
        fw fun k => { k with errinjC := if k.errinjC.getLsbD 12 then v else v &&& 0xFFFFFFFFFFFFEFFF }
      else AbandonsWith (.csrw c a) 0x01 s)

/-- R172: LSSTEP performs one loss-scale step on LSCALE and LSSTAT as its pseudocode says, and changes nothing else: no flag of
NUMF. LSCALE is finite and greater than zero and the bounds are powers of two (R347, R349), so that patterns order as the
numbers do; a discard restores both registers. -/
def Clause.LossScaleStep : Prop :=
  ∀ (s : State) (a : Reg), s.firmware = false →
    let r := s.core.pre.csr
    let x := r.lscale.toNat
    let floor := (r.lscfg.extractLsb' 0 8).toNat * 2 ^ 23
    let ceil := (r.lscfg.extractLsb' 8 8).toNat * 2 ^ 23
    let intv := (r.lscfg.extractLsb' 32 16).toNat
    let flovf := (r.lsstat.extractLsb' 16 16).toNat
    let clean := (r.lsstat.extractLsb' 0 16).toNat
    let flr := r.lsstat.getLsbD 33
    let ceils := r.lsstat.getLsbD 34
    let next := if clean < intv then clean + 1 else clean
    let leaves := fun (scale : Nat) (skip ceils flr : Bool) (flovf clean : Nat) =>
      ∃ v : Word, exec (.lsstep a) s = .next { s with core := { s.core with arch := { s.core.arch with
          csr := { s.core.arch.csr with lscale := BitVec.ofNat 32 scale, lsstat := v } } } } ∧
        v.getLsbD 35 = skip ∧ v.getLsbD 34 = ceils ∧ v.getLsbD 33 = flr ∧ (v.extractLsb' 16 16).toNat = flovf ∧
        (v.extractLsb' 0 16).toNat = clean ∧ v.extractLsb' 36 28 = 0 ∧ v.getLsbD 32 = false
    0 < x → x < 0x7F800000 →
    (s.src a ≠ 0 → floor < x → leaves (max (fpMul x 0x3F000000 .rne false 0).pat floor) true ceils flr flovf 0) ∧
    (s.src a ≠ 0 → x ≤ floor → leaves x true ceils true (min (flovf + 1) 65535) 0) ∧
    (s.src a = 0 → next ≠ intv → leaves x false ceils flr flovf next) ∧
    (s.src a = 0 → next = intv → x < ceil → leaves (min (fpMul x 0x40000000 .rne false 0).pat ceil) false ceils flr flovf 0) ∧
    (s.src a = 0 → next = intv → ceil ≤ x → leaves x false true flr flovf next) ∧
    (s.discard.core.arch.csr.lscale = s.core.reg.snap.arch.csr.lscale ∧
      s.discard.core.arch.csr.lsstat = s.core.reg.snap.arch.csr.lsstat)

/-- R173: SEED writes SRSEED with the mixing steps applied to s(a), and nothing else; of s(a) = 1 it makes 0x8F3A5C655E3B57DC. A
CSRW to SRSEED writes its value unmixed. -/
def Clause.SeedMixes : Prop :=
  (∀ (s : State) (a : Reg), s.firmware = false →
    let x := ((s.src a ^^^ (s.src a >>> 33)).toNat * 0x8F3A5C6127E9B4D5) % 2 ^ 64
    let seed := fun (w : Word) => { s with core := { s.core with
      arch := { s.core.arch with csr := { s.core.arch.csr with srseed := w } } } }
    exec (.seed a) s = .next (seed (BitVec.ofNat 64 (x ^^^ (x >>> 29)))) ∧
    (s.src a = 1 → exec (.seed a) s = .next (seed 0x8F3A5C655E3B57DC)) ∧
    exec (.csrw .srseed a) s = .next (seed (s.src a)))

/-- LSSTEP does one step of the loss scale, and SEED mixes its seed, as their rules say. -/
def Obligations.LossScaleAndSeed : Prop := Clause.LossScaleStep ∧ Clause.SeedMixes

/-- R147: DCCR writes s(a) := DCC in its issue cycle, with latency 1: the next bundle reads it. In the S format with op 0x41 every
field but a is reserved. CSRR of DCC in the same cycle writes the same value. -/
def Obligations.CycleCounterReads : Prop :=
  (∀ (s : State) (a : Reg), PutsS (.dccr a) a (BitVec.ofNat 64 s.dcc) s ∧ exec (.csrr a .dcc) s = exec (.dccr a) s) ∧
  ∀ (body : Nat), body < 2 ^ 52 →
    (∀ y, decodeSlot (headWord true 0 false 0x41 body) = .ok y → ∃ a, y.instr = .dccr a ∧ body = a.toNat * 2 ^ 45) ∧
    (body % 2 ^ 45 ≠ 0 ∨ 2 ^ 51 ≤ body → ∀ y, decodeSlot (headWord true 0 false 0x41 body) ≠ .ok y) ∧
    (body % 2 ^ 45 = 0 → body < 2 ^ 51 → ∃ y, decodeSlot (headWord true 0 false 0x41 body) = .ok y)

/-- R81: a word with one of the unassigned op values decodes to no assigned instruction, and raises ILLEGAL. The limit of 56 on the
register of QPUSH and TMPL keeps the run of eight within s0 to s63. -/
def Obligations.UnassignedOpsAreIllegal : Prop :=
  (∀ (op body : Nat), body < 2 ^ 52 →
    (0x12 ≤ op ∧ op ≤ 0x17) ∨ op = 0x1F ∨ (0x24 ≤ op ∧ op ≤ 0x27) ∨ (0x31 ≤ op ∧ op ≤ 0x37) ∨ (0x44 ≤ op ∧ op ≤ 0x47) ∨ op = 0x4F ∨
      (0x57 ≤ op ∧ op ≤ 0x5F) ∨ (0x6C ≤ op ∧ op ≤ 0x7F) →
    ∃ y, decodeSlot (headWord true 0 false op body) = .ok y ∧ y.instr = .unassignedOpcode (headWord true 0 false op body) ∧
      ∀ s : State, TrapsWith y.instr 0x01 0 s ∧ AbandonsWith y.instr 0x01 s) ∧
  ∀ (q : Queue) (pd : Pred) (n : BitVec 6) (a : Reg), (wellFormed (.qpush q pd a) = true → a.toNat + 7 < 64) ∧
    (wellFormed (.tmpl n a) = true → a.toNat + 7 < 64)

/-- R10, R30, R34, R167 to R171, R333, R345: TRAP raises SWTRAP with its code; NOP does nothing; ERET ends the firmware context's
routine and raises PRIV in the user context; EVENT outside a region waits for the Cruiser's copy, 6 cycles, for earlier accesses
to perform and for earlier records to be acknowledged (R335), and its record is posted then; YIELD holds the next bundle for the
decision, 4 cycles at least (DESIGN CHOICE, log entry 33). In a region EVENT, YIELD and HALT raise BOUNDARY; HALT in a LAYER
sequence is ILLEGAL there too, the lower code being recorded (DEDUCED, log entries 42 and 55). -/
def Obligations.SystemEffects : Prop :=
  ∀ (s : State) (code : BitVec 16) (a : Reg),
    TrapsWith (.trap code) 0x16 (code.setWidth 64) s ∧ AbandonsWith (.trap code) 0x16 s ∧ exec .nop s = .next s ∧
    (s.firmware = true → exec .eret s = .next { s with core := { s.core with fw := { s.core.fw with active := false } } }) ∧
    TrapsWith .eret 0x02 0 s ∧
    (s.inRegion = true → TrapsWith (.event code a) 0x1D 0 s ∧ TrapsWith .yield 0x1D 0 s ∧
      (s.core.blk ≠ .halt → s.inLayer = false → TrapsWith .halt 0x1D 0 s)) ∧
    (s.inLayer = true → s.core.blk ≠ .halt → TrapsWith .halt 0x01 0 s) ∧
    (s.inRegion = false → s.firmware = false →
      exec (.event code a) s = .next { s with
        core := { s.core with waits := s.core.waits ++ [⟨s.serial, s.serial, .event code (s.src a) s.dcc⟩] }
        serial := s.serial + 1 } ∧
      (∀ id upto at_ data, s.waitOver s.core ⟨id, upto, .event code data at_⟩ = true ↔
        at_ + 6 ≤ s.dcc ∧ s.hostWaits s.core upto = false) ∧
      (∀ id upto at_ data, ∃ w : Word, s.endWait ⟨id, upto, .event code data at_⟩ =
          s.postFor id s.core.launch s.core.lcore s.core.vf 2 false [w, data, BitVec.ofNat 64 at_] ∧
        w.extractLsb' 0 16 = code ∧ w.extractLsb' 16 8 = BitVec.ofNat 8 s.core.lcore ∧ w.extractLsb' 24 7 = s.core.vf ∧
        w.extractLsb' 31 33 = 0) ∧
      (s.core.blk = .none → ∃ t, exec .yield s = .next t ∧ t.core.blk = .yield ∧ t.core.hz.issueAt = max s.core.hz.issueAt (s.dcc + 4) ∧
        Quiet s t ∧ ∃ e ∈ t.agenda, e.act = .schedulingDecision s.core.part ∧ e.due = s.dcc))

/-- R36, R37, R168, R291, R313: HALT in boundary code of the user context ends the context at once where every earlier access has
performed and every record of its EVENTs is acknowledged, and else holds it till that has come: the core is halted, the
dispatcher counts it, and a decision of its partition follows; the last of a launch completes it, with its record posted
(DEDUCED, log entry 47). In the firmware context HALT is ILLEGAL (DEDUCED, log entry 17), and a user context that waits at its
HALT goes on waiting. -/
def Clause.HaltCompletes : Prop :=
  (∀ s : State, AbandonsWith .halt 0x01 s) ∧
  (∀ s : State, s.firmware = false → s.core.blk = .halt → (∃ w ∈ s.core.waits, w.kind = .halt) → exec .halt s = .next s) ∧
  ∀ s : State, s.firmware = false → ((s.core.blk = .halt ∧ ∀ w ∈ s.core.waits, w.kind ≠ .halt) ∨
      (s.core.blk ≠ .halt ∧ s.inRegion = false ∧ s.inLayer = false ∧ s.hostWaits s.core s.serial = false)) →
    ∃ t, exec .halt s = .next t ∧ t.core.life = .halted ∧ t.core.blk = .none ∧ t.core.arch = s.core.arch ∧ SameBytes s t

/-- R36, R37, R291, R313: what the end of a context tells the dispatcher and the host, and what a HALT waits for. -/
def Clause.HaltsAreCounted : Prop :=
  ∀ (s : State) (l : Launch), s.launch = some l → s.firmware = false →
    let ends := ∃ t, exec .halt s = .next t ∧ t.core.life = .halted ∧
      (∃ e ∈ t.agenda, e.act = .schedulingDecision s.core.part ∧ e.due = s.dcc) ∧
      (∃ m, t.launch = some m ∧ m.halted = l.halted ++ [s.core.lcore] ∧ m.lastHalt = s.dcc ∧
        (l.halted.length + 1 = l.n → m.state = .done) ∧ (l.halted.length + 1 ≠ l.n → m.state = l.state)) ∧
      (l.halted.length + 1 ≠ l.n → t.fabric = s.fabric) ∧
      (l.halted.length + 1 = l.n → (l.queue, l.seq) ∈ t.disp.doneLog ∧ ∃ w : Word,
        t.fabric = (s.post l.vf 1 l.late [w, BitVec.ofNat 64 s.dcc, 0]).fabric ∧
        w.extractLsb' 0 32 = l.seq ∧ w.extractLsb' 32 12 = l.queue ∧ w.extractLsb' 44 20 = 0)
    (∀ upto, s.hostWaits s.core upto = false ↔
      (∀ a ∈ s.core.io, a.kind.mem = true → a.entry = 0 → a.id < upto → a.performed = true) ∧
      (∀ o ∈ s.fabric.out, o.isRecord = true → o.launch = s.core.launch → o.lcore = s.core.lcore → upto ≤ o.id) ∧
      (∀ v ∈ s.fabric.vfs, ∀ r ∈ v.2.held, r.launch = s.core.launch → r.lcore = s.core.lcore → upto ≤ r.id) ∧
      ∀ w ∈ s.core.waits, (∃ c d n, w.kind = .event c d n) → upto ≤ w.id) ∧
    (s.core.blk = .halt → (∀ w ∈ s.core.waits, w.kind ≠ .halt) → ends) ∧
    (s.core.blk ≠ .halt → s.inRegion = false → s.inLayer = false →
      (s.hostWaits s.core s.serial = false → ends) ∧
      (s.hostWaits s.core s.serial = true → exec .halt s = .next { s with
        core := { s.core with waits := s.core.waits ++ [⟨s.serial, s.serial, .halt⟩], blk := .halt }
        serial := s.serial + 1 }))

/-- HALT ends its context when its accesses have performed, and the last one completes the launch. -/
def Obligations.HaltEndsTheContext : Prop := Clause.HaltCompletes ∧ Clause.HaltsAreCounted

/-- R291, R306, R313: a record posted to a function's queue carries the count of its queue, its type, LOST and LATE in its first
word. A queue with room takes it, as a transaction to the host that awaits its acknowledgement; a full one holds up to 256 in
order, and a record beyond that is lost, which the next one tells. -/
def Obligations.RecordsArePosted : Prop :=
  ∀ (s : State) (v : BitVec 7) (type : Nat) (late : Bool) (ws : List Word) (d : Vf),
    SMap.find v.toNat s.fabric.vfs = some d → type < 16 → ws.length ≤ 7 → s.fabric.vfs.Pairwise (fun x y => x.1 < y.1) →
    let t := s.post v type late ws
    ∃ (w : Word) (e : Vf), SMap.find v.toNat t.fabric.vfs = some e ∧ e.dseq = d.dseq + 1 ∧
      w.extractLsb' 32 32 = d.dseq ∧ w.extractLsb' 24 8 = BitVec.ofNat 8 type ∧ w.getLsbD 23 = d.lost ∧ w.getLsbD 22 = late ∧
      w.extractLsb' 0 22 = 0 ∧
      let words := w :: ws ++ List.replicate (7 - ws.length) 0
      (d.full = false → d.held = [] → e.posted = d.posted + 1 ∧ e.lost = false ∧ e.held = [] ∧
        ∃ at_ : Word, t.fabric.sent = s.fabric.sent ++ [(d.hnode.toNat, at_ :: words)] ∧
          at_ = BitVec.ofNat 64 (d.eqoff + d.posted.toNat % 2 ^ d.lgn * 64) ∧
          ∃ o : OutTxn, t.fabric.out = s.fabric.out ++ [o] ∧ o.id = s.serial ∧ o.isRecord = true ∧ o.ch = .host ∧
            o.node = d.hnode.toNat ∧ BitVec.ofNat 64 o.off = at_ ∧ o.kind = .write (words.flatMap fun w => leBytes 8 w.toNat)) ∧
      (d.full = true ∨ d.held ≠ [] → t.fabric.sent = s.fabric.sent ∧ t.fabric.out = s.fabric.out ∧ e.posted = d.posted ∧
        (d.held.length < 256 → e.held = d.held ++ [⟨s.serial, 0, 0, words⟩] ∧ e.lost = false) ∧
        (256 ≤ d.held.length → e.held = d.held ∧ e.lost = true)) ∧
      t.core = s.core ∧ t.disp = s.disp ∧ t.agenda = s.agenda ∧ SameBytes s t

/-- R10, R34, R174: CTXSAVE and CTXLOAD raise PRIV in the user context. In the firmware context, at an offset that is a multiple of
8,192 within the local store, CTXSAVE of a halted, parked or stopping context writes its image, and no byte outside it; CTXLOAD
gives the context what the image holds, its reserved bits read as zero (R7) and its shape no wider than the allowance (R381).
Both take 256 cycles, and write or read the image in their issue cycle (DEDUCED, log entry 32). -/
def Obligations.ContextImages : Prop :=
  ∀ (s : State) (a : Reg),
    let o := (s.src a).toNat
    let u := s.core.swapFirmware .user
    TrapsWith (.ctxsave a) 0x02 0 s ∧ TrapsWith (.ctxload a) 0x02 0 s ∧
    (o % 8192 ≠ 0 ∨ 0x60000 < o + 8192 → AbandonsWith (.ctxsave a) 0x01 s ∧ AbandonsWith (.ctxload a) 0x01 s) ∧
    (s.firmware = true → o % 8192 = 0 → o + 8192 ≤ 0x60000 →
      ((s.core.life = .halted ∨ s.core.life = .parked ∨ s.core.life = .saving) → Mem.wf s.core.ls.mem = true →
        ∃ t, exec (.ctxsave a) s = .next t ∧ t.core.hz.issueAt = s.dcc + 256 ∧
          let word := fun (k : Nat) => leWord (t.core.ls.mem.readBytes (o + k) 8)
          (∀ r : Reg, word (8 * r.toNat) = u.arch.sreg r) ∧ word 0x200 = u.savedPc ∧
          word 0x208 = BitVec.ofNat 64 (u.arch.p.toNat + u.arch.mask.length * 256) ∧
          (∀ h : HReg, (word (0x300 + 16 * h.toNat)).extractLsb' 12 40 = (u.arch.hreg h).pbase ∧
            (word (0x300 + 16 * h.toNat)).getLsbD 63 = (u.arch.hreg h).v) ∧
          (∀ n : BitVec 6, word (0x1000 + 64 * n.toNat) = (u.arch.tmpl.get n.toFin).w0) ∧
          (∀ x, x < o ∨ o + 8192 ≤ x → t.core.ls.mem.read x = s.core.ls.mem.read x) ∧
          (∀ x, t.mem.read x = s.mem.read x) ∧ t.core.arch = s.core.arch) ∧
      ∃ t v, exec (.ctxload a) s = .next t ∧ t.core.hz.issueAt = s.dcc + 256 ∧ SameBytes s t ∧ v = t.core.swapFirmware .user ∧
        let word := fun (k : Nat) => leWord (s.core.ls.mem.readBytes (o + k) 8)
        (∀ r : Reg, r ≠ 0 → v.arch.sreg r = word (8 * r.toNat)) ∧ (u.layer = none → u.reissue = false → v.pc = word 0x200) ∧
        v.arch.p = (word 0x208).extractLsb' 0 8 ∧ v.arch.hreg 0 = Handle.local ∧
        (∀ h : HReg, h ≠ 0 → (v.arch.hreg h).pbase = (word (0x300 + 16 * h.toNat)).extractLsb' 12 40 ∧
          (v.arch.hreg h).v = (word (0x300 + 16 * h.toNat)).getLsbD 63) ∧
        (∀ n : BitVec 6, (v.arch.tmpl.get n.toFin).w0 = word (0x1000 + 64 * n.toNat)) ∧
        v.arch.csr.lscfg &&& 0xFFFF0000FFFF0000 = 0 ∧ v.arch.csr.lsstat &&& 0xFFFFFFF100000000 = 0 ∧
        (∀ i : Fin 16, (v.arch.slots.get i).ctl.toNat < 2 ^ 13) ∧ t.core.fw.loaded = true ∧
        v.arch.csr.shapeg.toNat ≤ (s.part s.core.part).allow.toNat ∧
        v.stat.rsc = word 0x408 ∧ v.lcore = u.lcore ∧ v.part = u.part ∧ v.vf = u.vf ∧ v.groups = u.groups)

/-- R164, R343 to R346: LAYER outside a region and a sequence: with the entry's words copied and patched, the context goes on at the
first of them, 16 cycles and one for every eight words read later, and keeps where it came from; the event log notes the entry's
KIND (DESIGN CHOICE, log entry 94). An entry or a parameter block that does not hold up is ILLEGAL. In a region LAYER raises
BOUNDARY, in a sequence ILLEGAL (DEDUCED, log entries 55 and 61). A patch puts one field of a parameter into one field of a
word. -/
def Obligations.LayerEntersItsSequence : Prop :=
  (∀ (s : State) (e : BitVec 12) (a : Reg), s.firmware = false → s.inRegion = false → s.inLayer = false →
    (∀ x s', s.sequence e (s.src a).toNat = (some x, s') →
      s'.core = s.core ∧ s'.dcc = s.dcc ∧ x.words.length = x.m.nw ∧
      (Mem.wf s.mem = true → ∀ y, isHbm y = true → s'.mem.read y = s.mem.read y) ∧
      ∃ t, exec (.layer e a) s = .next t ∧ t.core.pc = 0 ∧ t.core.arch = s.core.arch ∧ SameBytes s' t ∧
        t.core.hz.issueAt = s.dcc + 16 + (x.m.nw + x.m.npatch + 7) / 8 ∧
        (∃ r ∈ t.himos.log, r.code = 0x0701 ∧ r.data % 8 = (x.d.1.extractLsb' 60 3).toNat) ∧
        ∃ l, t.core.layer = some l ∧ l.entry = e ∧ l.words = x.words ∧ l.pc = s.core.wpc ∧ l.word = s.core.wword ∧
          l.bundle = s.core.bpc ∧ l.ret = s.core.pc ∧ l.begun = false) ∧
    (∀ s', s.sequence e (s.src a).toNat = (none, s') → s.core.trap = none →
      ∃ t, exec (.layer e a) s = .next t ∧ Raises 0x01 0 s' t) ∧
    (SMap.find (s.core.part.toNat * 4096 + e.toNat) s.disp.microcode = none → s.sequence e (s.src a).toNat = (none, s)) ∧
    ((s.src a).toNat % 8 ≠ 0 → s.sequence e (s.src a).toNat = (none, s))) ∧
  (∀ (s : State) (e : BitVec 12) (a : Reg), s.firmware = false →
    (s.inLayer = true → TrapsWith (.layer e a) 0x01 0 s) ∧
    (s.inRegion = true → s.inLayer = false → TrapsWith (.layer e a) 0x1D 0 s)) ∧
  ∀ (np : Nat) (params seq out : List Word) (e : Word), patchSeq np params seq e = some out →
    let w := (e.extractLsb' 32 10).toNat
    let lo := (e.extractLsb' 24 6).toNat
    let wd := (e.extractLsb' 16 6).toNat + 1
    let p := (e.extractLsb' 0 6).toNat
    p < np ∧ w < seq.length ∧ lo + wd ≤ 52 ∧ out.length = seq.length ∧
    (∀ i, i ≠ w → out[i]? = seq[i]?) ∧
    ∀ b, b < 64 → (out.getD w 0).getLsbD b =
      if lo ≤ b ∧ b < lo + wd then (params.getD p 0).getLsbD (b - lo) else (seq.getD w 0).getLsbD b

/-! Chisels, queues and array power. -/

/-- R190, R191: the chisel words that round or compare, each from its two or three element registers, its port constants, and its
slot's SAT and hash: what it writes, and the flags it raises. -/
def Clause.ChiselFloatWords : Prop :=
  ∀ (s : State) (d a b c : EReg) (q : QReg) (m : Rm) (cond : FCond) (f : CvtFmt),
    let x := fun (j : Job) (r : EReg) => (j.e.get r.toFin).toNat
    let sat := fun (j : Job) => j.ctl.getLsbD 8
    let put := fun (i : Instr) (r : Job → Rounded) => WordPuts i d (fun j => (r j).pat) (fun j => (r j).flags) s
    put (.chiselFadd d a b m) (fun j => fpAdd (x j a) (x j b) m (sat j) j.hash) ∧
    put (.chiselFsub d a b m) (fun j => fpSub (x j a) (x j b) m (sat j) j.hash) ∧
    put (.chiselFmul d a b m) (fun j => fpMul (x j a) (x j b) m (sat j) j.hash) ∧
    put (.chiselFma d a b c m) (fun j => fpFma (x j a) (x j b) (x j c) m (sat j) j.hash) ∧
    put (.chiselFmin d a b) (fun j => fminmax false (x j a) (x j b)) ∧
    put (.chiselFmax d a b) (fun j => fminmax true (x j a) (x j b)) ∧
    put (.chiselFabs d a) (fun j => ⟨x j a % 2 ^ 31, 0⟩) ∧
    put (.chiselFneg d a) (fun j => ⟨(x j a + 2 ^ 31) % 2 ^ 32, 0⟩) ∧
    put (.chiselClamp d a b c) (fun j => if (valOf .fp32 (x j a)).isNan then
        ⟨0x7FC00000, if (valOf .fp32 (x j a)).isSnan then flagNV else 0⟩
      else
        let lo := fminmax true (x j a) (j.k.get b.toFin).toNat
        let hi := fminmax false lo.pat (j.k.get c.toFin).toNat
        ⟨hi.pat, lo.flags ||| hi.flags⟩) ∧
    WordRuns (.chiselFcmp q a b cond)
      (fun j => if (valOf .fp32 (x j a)).isSnan ∨ (valOf .fp32 (x j b)).isSnan then flagNV else 0)
      (fun j k => k.q.get q.toFin = FCond.holds cond (valOf .fp32 (x j a)) (valOf .fp32 (x j b)) ∧
        (∀ r : QReg, r ≠ q → k.q.get r.toFin = j.q.get r.toFin) ∧ { k with q := j.q } = j) s ∧
    put (.chiselSel d a b q) (fun j => ⟨if j.q.get q.toFin then x j a else x j b, 0⟩) ∧
    put (.chiselCvt d a f m) (fun j =>
      let r := convertTo (CvtFmt.tag f) false (x j a) m (sat j) j.hash
      ⟨widen (CvtFmt.tag f) r.pat, r.flags⟩) ∧
    put (.chiselCvtI2f d a m) (fun j => roundTo .fp32 (valOfInt (BitVec.ofNat 32 (x j a)).toInt) m false j.hash) ∧
    put (.chiselExp2 d a) (fun j => exp2Def (x j a) (sat j)) ∧ put (.chiselLog2 d a) (fun j => log2Def (x j a) (sat j)) ∧
    put (.chiselRcp d a) (fun j => rcpDef (x j a) (sat j)) ∧ put (.chiselRsqrt d a) (fun j => rsqrtDef (x j a) (sat j))

/-- R66: the tables of the four functions: an entry of TE, TR or TQ lies between the midpoints next to the power, the reciprocal or
the reciprocal root that R66 names, so it is the nearest FP32 value; one of TL is the logarithm of the rounded reciprocal to
within 2^-12. -/
def Clause.TranscendentalTables : Prop :=
  ∀ j : Nat, j < 32 →
    let v := FFmt.fp32.magOf
    let lo := fun p : Nat => (v (p - 1) + v p) / 2
    let hi := fun p : Nat => (v p + v (p + 1)) / 2
    let r := tableTR.getD j 0
    let b : ℚ := if j < 16 then (16 + j) / 16 else j / 8
    (lo (tableTE.getD j 0) ^ 32 ≤ 2 ^ j ∧ 2 ^ j ≤ hi (tableTE.getD j 0) ^ 32) ∧
    (lo r ≤ 32 / (32 + j) ∧ 32 / (32 + j) ≤ hi r) ∧
    (lo (tableTQ.getD j 0) ^ 2 * b ≤ 1 ∧ 1 ≤ hi (tableTQ.getD j 0) ^ 2 * b) ∧
    ∃ k : Nat, k ≤ 4096 * v (tableTL.getD j 0) ∧ 4096 * v (tableTL.getD j 0) < k + 1 ∧
      2 ^ k ≤ (1 / v r) ^ 4096 ∧ (1 / v r) ^ 4096 < 2 ^ (k + 1)

/-- R65, R68 to R71: EXP2, LOG2, RCP and RSQRT of NaN, infinities, zeros and negative values; the exact results, without a flag, at
integers and at powers of two; the worked example of R68; and NX, which says of every other operand that the result is not
exact. -/
def Clause.TranscendentalValues : Prop :=
  ∀ (a : Nat) (sat : Bool), a < 2 ^ 32 →
    let v := FFmt.fp32.magOf
    let x := valOf .fp32 a
    let nan : Rounded := ⟨0x7FC00000, flagNV⟩
    let signed := fun (p : Nat) => if x.neg then 0x80000000 + p else p
    let nx := fun (r : Rounded) => r.flags.getLsbD 4 = true
    (x.isNan = true → ∀ r ∈ [exp2Def a sat, log2Def a sat, rcpDef a sat, rsqrtDef a sat],
      r = ⟨0x7FC00000, flagIf x.isSnan flagNV⟩) ∧
    (x.isInf = true → exp2Def a sat = ⟨if x.neg then 0 else 0x7F800000, 0⟩ ∧ rcpDef a sat = ⟨signed 0, 0⟩ ∧
      log2Def a sat = (if x.neg then nan else ⟨0x7F800000, 0⟩) ∧ rsqrtDef a sat = if x.neg then nan else ⟨0, 0⟩) ∧
    (x.isZero = true → exp2Def a sat = ⟨0x3F800000, 0⟩ ∧ log2Def a sat = ⟨0xFF800000, flagDZ⟩ ∧
      rcpDef a sat = ⟨signed 0x7F800000, flagDZ⟩ ∧ rsqrtDef a sat = ⟨signed 0x7F800000, flagDZ⟩) ∧
    (∀ m e, x = .fin true (m + 1) e → log2Def a sat = nan ∧ rsqrtDef a sat = nan) ∧
    (∀ k : Int, -149 ≤ k → k ≤ 127 → ∃ p, exp2Def (roundTo .fp32 (valOfInt k) .rne false 0).pat sat = ⟨p, 0⟩ ∧ v p = 2 ^ k) ∧
    (∀ n : Nat, 1 ≤ n → n ≤ 254 →
      (∃ p, log2Def (2 ^ 23 * n) sat = ⟨withSign .fp32 (decide (n < 127)) p, 0⟩ ∧ v p = |(n : ℚ) - 127|) ∧
      (∀ neg, ∃ p, rcpDef (withSign .fp32 neg (2 ^ 23 * n)) sat = ⟨withSign .fp32 neg p, 0⟩ ∧ v p * v (2 ^ 23 * n) = 1) ∧
      (n % 2 = 1 → ∃ p, rsqrtDef (2 ^ 23 * n) sat = ⟨p, 0⟩ ∧ v p ^ 2 * v (2 ^ 23 * n) = 1)) ∧
    exp2Def 0x3F000000 sat = ⟨0x3FB504F3, flagNX⟩ ∧
    (∀ neg m e, x = .fin neg (m + 1) e →
      (¬nx (exp2Def a sat) → ∃ k : Int, (if neg then -v (a % 2 ^ 31) else v a) = k ∧ v (exp2Def a sat).pat = 2 ^ k) ∧
      (neg = false → (nx (log2Def a sat) ↔ ¬∃ k, v a = 2 ^ (k : Int)) ∧ (nx (rsqrtDef a sat) ↔ v (rsqrtDef a sat).pat ^ 2 * v a ≠ 1)) ∧
      ((rcpDef a sat).flags.getLsbD 2 = false → (nx (rcpDef a sat) ↔ v ((rcpDef a sat).pat % 2 ^ 31) * v (a % 2 ^ 31) ≠ 1)))

/-- R190 to R192: the chisel words on integers, constants, coordinates and carried state, and those that drop, replace or flag the
element. A shift by a negative count goes right, and one of 32 or more either way gives 0. -/
def Clause.ChiselOtherWords : Prop :=
  ∀ (s : State) (d a b : EReg) (c : QReg) (q : QReg) (n : BitVec 2) (i : BitVec 13) (m : Rm) (mode : CaccMode) (f : BitVec 8),
    let x := fun (j : Job) (r : EReg) => (j.e.get r.toFin).toNat
    let xc := fun (j : Job) => (j.c.get c.toFin).toNat
    let imm := (i.signExtend 32).toNat
    let put := fun (w : Instr) (v : Job → Nat) => WordPuts w d v (fun _ => 0) s
    let none_ : Job → BitVec 8 := fun _ => 0
    let shift := fun (v k : Nat) => let z := (BitVec.ofNat 32 k).toInt
      if 0 ≤ z ∧ z < 32 then v <<< z.toNat else if -32 < z ∧ z < 0 then v >>> (-z).toNat else 0
    put (.chiselIadd d a b) (fun j => x j a + x j b) ∧ put (.chiselIaddImm d a i) (fun j => x j a + imm) ∧
    put (.chiselIand d a b) (fun j => x j a &&& x j b) ∧ put (.chiselIandImm d a i) (fun j => x j a &&& imm) ∧
    put (.chiselIshl d a b) (fun j => shift (x j a) (x j b)) ∧ put (.chiselIshlImm d a i) (fun j => shift (x j a) imm) ∧
    put (.chiselMovk d b) (fun j => (j.k.get b.toFin).toNat) ∧
    put (.chiselMovkX d a) (fun j => (j.k.get (BitVec.ofNat 3 (x j a)).toFin).toNat) ∧
    put (.chiselGetc d c) xc ∧ put (.chiselCoordRow d) (fun j => j.row) ∧ put (.chiselCoordCol d) (fun j => j.col) ∧
    WordRuns (.chiselPutc c a) none_ (fun j k => k.c.get c.toFin = j.e.get a.toFin ∧
      (∀ r : QReg, r ≠ c → k.c.get r.toFin = j.c.get r.toFin) ∧ { k with c := j.c } = j) s ∧
    WordRuns (.chiselPrev d a n) none_ (fun j k => k.e.get d.toFin = j.c.get n.toFin ∧
      (∀ r : EReg, r ≠ d → k.e.get r.toFin = j.e.get r.toFin) ∧ k.c.get 0 = j.e.get a.toFin ∧
      (∀ r : Fin 4, r ≠ 0 → k.c.get r = if r.val ≤ n.toNat then j.c.get (r - 1) else j.c.get r) ∧ { k with e := j.e, c := j.c } = j) s ∧
    (let r := fun (j : Job) => match mode with
        | .add => fpAdd (xc j) (x j a) m (j.ctl.getLsbD 8) j.hash
        | .max => fminmax true (xc j) (x j a)
        | .min => fminmax false (xc j) (x j a)
        | .sqadd => fpFma (x j a) (x j a) (xc j) m (j.ctl.getLsbD 8) j.hash
     WordRuns (.chiselCacc c a mode m) (fun j => (r j).flags) (fun j k => (k.c.get c.toFin).toNat = (r j).pat % 2 ^ 32 ∧
       (∀ o : QReg, o ≠ c → k.c.get o.toFin = j.c.get o.toFin) ∧ { k with c := j.c } = j) s) ∧
    WordRuns (.chiselRaise q a f) (fun j => if j.q.get q.toFin then f else 0) (fun j k => k = j) s ∧
    WordRuns (.chiselOut a) none_ (fun j k => k = { j with out := some (j.e.get a.toFin) }) s ∧
    WordRuns (.chiselDrop q) none_ (fun j k => k = { j with drop := j.drop || j.q.get q.toFin }) s

/-- Every chisel word makes of the element what its definition says, and nothing else, with its flags. -/
def Obligations.ChiselWords : Prop := Clause.ChiselFloatWords ∧ Clause.TranscendentalTables ∧ Clause.TranscendentalValues ∧ Clause.ChiselOtherWords

/-- R17, R182 to R189: PLOAD reads its words from the local store, the store buffer apart (DEDUCED, log entry 68), and installs them
4 cycles later, the slot being pending till then; a word that does not decode is ILLEGAL. PBIND takes the port from any other
slot and the slot from any other port, and clears the carried state; PBIND.UN undoes it. PCONST, PCTL, PSTAT and the tag
instructions read and write their one piece of state; a slot or port that a command holds raises PORT_BUSY. -/
def Obligations.ChiselManagement : Prop :=
  ∀ (s : State) (slot : BitVec 4) (a : Reg) (n : BitVec 5) (p : Port) (k : EReg) (ctl : BitVec 15) (tile : BitVec 7)
      (prog : List Word32), s.firmware = false → tile.toNat < 96 →
    let o := (s.src a).toNat
    let c := s.core.arch.slots.get slot.toFin
    let ws := (List.range n.toNat).map fun i => BitVec.ofNat 32 (leNat (s.core.ls.mem.readBytes (o + 4 * i) 4))
    let free := ∀ q, c.port = some q → s.portClaimed q = false
    let tag := s.core.ls.tags.toList.getD tile.toNat ⟨false, 0, 0⟩
    let put := fun (i : Instr) (f : Arch → Arch) =>
      exec i s = .next { s with core := { s.core with arch := f s.core.arch } }
    (o % 4 = 0 → o + 4 * n.toNat ≤ 0x60000 → (wordsIn o (4 * n.toNat)).all (fun w => !s.core.ls.poison.contains w) = true →
      ((∀ w ∈ ws, ∃ i, decodeChisel w = .ok i) → free →
        ∃ t, exec (.pload slot a n) s = .next t ∧ t.core.arch = s.core.arch ∧ SameBytes s t ∧
          (⟨.slot slot, some (s.dcc + 4)⟩ : Pend) ∈ t.core.hz.pend ∧
          ∃ e ∈ t.agenda, e.due = s.dcc + 4 ∧ e.target = s.me ∧ e.act = .ploadInstall slot ws) ∧
      (s.inRegion = false → (∀ w ∈ ws, ∃ i, decodeChisel w = .ok i) → ¬free → TrapsWith (.pload slot a n) 0x0B 0 s) ∧
      (s.inRegion = false → ∀ i, (∀ j, j < i → ∃ x, decodeChisel (ws.getD j 0) = .ok x) → i < n.toNat →
        (∀ x, decodeChisel (ws.getD i 0) ≠ .ok x) →
        ∃ d : Word, TrapsWith (.pload slot a n) 0x01 d s ∧ (d.extractLsb' 8 4 = slot) ∧ (d.extractLsb' 0 5).toNat = i)) ∧
    (o % 4 ≠ 0 ∨ 0x60000 < o + 4 * n.toNat → TrapsWith (.pload slot a n) 0x01 0 s) ∧
    exec (.ploadInstall slot prog) s = .next { s with core := { s.core with
      arch := { s.core.arch with slots := s.core.arch.slots.set slot.toNat { c with prog := prog, sflg := 0 } slot.isLt }
      hz := { s.core.hz with pend := s.core.hz.pend.filter fun q => q.dest != .slot slot } } } ∧
    (c.prog = [] → TrapsWith (.pbind slot p) 0x01 0 s) ∧
    (c.prog ≠ [] → s.portClaimed p = true ∨ ¬free → TrapsWith (.pbind slot p) 0x0B 0 s) ∧
    (c.prog ≠ [] → s.portClaimed p = false → free → ∃ t, exec (.pbind slot p) s = .next t ∧ SameBytes s t ∧
      (t.core.arch.slots.get slot.toFin) = { c with port := some p } ∧
      (∀ r : BitVec 4, r ≠ slot → t.core.arch.slots.get r.toFin =
        { s.core.arch.slots.get r.toFin with
          port := if (s.core.arch.slots.get r.toFin).port = some p then none else (s.core.arch.slots.get r.toFin).port }) ∧
      (∀ q : Fin 4, t.core.arch.ports.get q = if q.val = p.code then { s.core.arch.ports.get q with c := Vector.replicate 4 0 }
        else s.core.arch.ports.get q) ∧
      t.core.arch.s = s.core.arch.s ∧ t.core.arch.p = s.core.arch.p) ∧
    (c.port = none → exec (.pbindUn slot) s = .next s) ∧
    (∀ q, c.port = some q →
      (s.portClaimed q = true → TrapsWith (.pbindUn slot) 0x0B 0 s) ∧
      (s.portClaimed q = false → ∃ t, exec (.pbindUn slot) s = .next t ∧ SameBytes s t ∧
        t.core.arch.slots = s.core.arch.slots.set slot.toNat { c with port := none } slot.isLt ∧
        ∀ r : Fin 4, t.core.arch.ports.get r = if r.val = q.code then { s.core.arch.ports.get r with c := Vector.replicate 4 0 }
          else s.core.arch.ports.get r)) ∧
    (∃ t, exec (.pconst p k a) s = .next t ∧ (t.onArch fun x => { x with ports := s.core.arch.ports }) = s ∧
      ∀ r : Fin 4, t.core.arch.ports.get r = if r.val = p.code then
          { s.core.arch.ports.get r with k := (s.core.arch.ports.get r).k.set k.toNat ((s.src a).setWidth 32) k.isLt }
        else s.core.arch.ports.get r) ∧
    (free → put (.pctl slot ctl) fun x => { x with slots := x.slots.set slot.toNat { c with ctl := ctl } slot.isLt }) ∧
    (¬free → TrapsWith (.pctl slot ctl) 0x0B 0 s) ∧
    (c.prog.length ≤ 16 → ∃ v, PutsS (.pstat a slot) a v s ∧ v.extractLsb' 32 15 = c.ctl ∧ v.extractLsb' 24 8 = c.sflg ∧
      v.getLsbD 15 = c.port.isSome ∧ (∀ q, c.port = some q → (v.extractLsb' 13 2).toNat = q.code) ∧
      (v.extractLsb' 0 5).toNat = c.prog.length) ∧
    (∃ v, PutsS (.ttagRd a tile) a v s ∧ v.getLsbD 31 = tag.full ∧ v.extractLsb' 16 6 = tag.fmt ∧ v.extractLsb' 0 16 = tag.seq ∧
      v.extractLsb' 22 9 = 0 ∧ v.extractLsb' 32 32 = 0) ∧
    (let v := s.src a
     let sets := fun (i : Instr) (x : TileTag) => exec i s = .next { s with core := { s.core with
       ls := { s.core.ls with tags := s.core.ls.tags.set! tile.toNat x } } }
     (v.extractLsb' 22 9 = 0 → tagReserved (v.extractLsb' 16 6).toNat = false →
       sets (.ttagWr tile a) ⟨v.getLsbD 31, v.extractLsb' 16 6, v.extractLsb' 0 16⟩) ∧
     (v.extractLsb' 22 9 ≠ 0 ∨ tagReserved (v.extractLsb' 16 6).toNat = true → TrapsWith (.ttagWr tile a) 0x01 0 s) ∧
     sets (.tclr tile) ⟨false, 0, 0⟩)

/-- R30, R32, R87, R156 to R160, R335: QPUSH pushes the record in s(a) to s(a + 7), QPUSHT one built from a template with its stamp
and low field replaced: with an entry free the queue holds it last, with what the push captures, and p(pd) is cleared; with
none, p(pd) is set. A record with faults raises the lowest of them. Of faults with one cause, which is named is open (DESIGN
CHOICE, log entry 88). TMPL keeps a record; QSTAT reads the queue as of the last cycle. The check of the Cruiser that an
injection hits finds a mismatch, and one that is not hit finds none here, what a bundle sends being compared apart (DEDUCED, log
entry 80). -/
def Obligations.QueuePushes : Prop :=
  ∀ (s : State) (q : Queue) (pd : Pred) (a b c : Reg) (n : BitVec 6), s.firmware = false →
    let x := s.core.pre
    let run := fun (i : Nat) => x.sreg (a + BitVec.ofNat 6 i)
    let whole : CmdRec := ⟨run 0, run 1, run 2, run 3, run 4, run 5, run 6, run 7⟩
    let tm := x.tmpl.get n.toFin
    let pushes := fun (i : Instr) (r : CmdRec) =>
      (s.inRegion = false → TrapsWith i 0x1D 0 s) ∧
      (s.inRegion = true → s.recordFaults q r = [] → s.occupied q < 32 →
        ∃ t u e, exec i s = .next u ∧ WritesP pd false t u ∧ e.r = r ∧ e.pushedAt = s.dcc ∧ e.handles = x.h ∧ e.mask = x.mtop ∧
          e.seed = x.csr.srseed ∧ e.steptag = x.csr.steptag ∧ e.startAt = none ∧
          (∀ k : Fin 6, t.core.eng.queues.get k =
            if k.val = q.code then s.core.eng.queues.get k ++ [e] else s.core.eng.queues.get k) ∧
          t.core.arch = s.core.arch ∧ t.core.eng.runs = s.core.eng.runs ∧ SameBytes s t) ∧
      (s.inRegion = true → s.recordFaults q r = [] → 32 ≤ s.occupied q → PutsP i pd true s) ∧
      (s.inRegion = true → s.recordFaults q r ≠ [] → ∃ f ∈ s.recordFaults q r,
        (∀ g ∈ s.recordFaults q r, f.cause.toNat ≤ g.cause.toNat) ∧ TrapsWith i f.cause f.data s)
    pushes (.qpush q pd a) whole ∧
    (∃ r, pushes (.qpusht q pd n b c) r ∧ r.w1 = tm.w1 ∧ r.w2 = tm.w2 ∧ r.w3 = tm.w3 ∧ r.w4 = tm.w4 ∧ r.w5 = tm.w5 ∧ r.w6 = tm.w6 ∧
      r.w7 = tm.w7 ∧ r.w0.extractLsb' 48 16 = tm.w0.extractLsb' 48 16 ∧ r.w0.extractLsb' 16 8 = tm.w0.extractLsb' 16 8 ∧
      r.w0.extractLsb' 24 24 = (if b = 0 then tm.w0.extractLsb' 24 24 else (x.sreg b).extractLsb' 0 24) ∧
      r.w0.extractLsb' 0 16 = (if c = 0 then tm.w0.extractLsb' 0 16 else (x.sreg c).extractLsb' 0 16)) ∧
    exec (.tmpl n a) s = .next { s with core := { s.core with
      arch := { s.core.arch with tmpl := s.core.arch.tmpl.set n.toNat whole n.isLt } } } ∧
    (let w := s.core.eng.qprev.toList.getD q.code (0, 0, 0)
     ∃ v, PutsS (.qstat q a) a v s ∧ (w.1 ≤ 32 → w.2.1 < 2 ^ 24 → w.2.2 < 2 ^ 8 →
       (v.extractLsb' 0 6).toNat = w.1 ∧ (v.extractLsb' 24 24).toNat = w.2.1 ∧ (v.extractLsb' 16 8).toNat = w.2.2 ∧
       v.extractLsb' 48 16 = 0 ∧ v.extractLsb' 6 10 = 0)) ∧
    (s.core.armed 4 = none → exec (.cruiserRecordCheck q whole) s = .next s) ∧
    ((s.core.armed 4).isSome = true → s.core.trap = none → ∃ t, exec (.cruiserRecordCheck q whole) s = .next t ∧
      t.core.stat.trapc = 0x13 ∧ t.core.errinjC.getLsbD 11 = false ∧ t.core.errinjC.getLsbD 12 = true ∧
      t.core.arch = s.core.arch ∧ SameBytes s t)

/-- R161 to R163: SHAPE is granted 32 cycles on, no more than the partition's allowance as it stands at issue (DEDUCED, log entry
31); MBURST ramps the array unless it is ramped, and opens a window that ends 32 + 64 n cycles on; an array is ramped 32 cycles
after a ramp-up begins, begins to ramp down when the hold and the window have passed, and is idle 16 cycles later. -/
def Obligations.ArrayPower : Prop :=
  ∀ (s : State) (a : Reg) (n : BitVec 15) (sh : BitVec 2) (serial : Nat), s.firmware = false →
    let v := (s.src a).toNat
    let al := (s.part s.core.part).allow.toNat
    let m := s.core.eng.array
    let windowEnd := if m.burstN = 0 then 0 else m.burstStart + 32 + 64 * m.burstN
    let hold := max (m.last + 1 + 16 * s.core.arch.csr.hold.toNat) windowEnd
    let same := fun (t : State) => t.core.arch = s.core.arch ∧ SameBytes s t
    (v ≤ 3 → ∃ g : BitVec 2, g.toNat = min v al ∧ exec (.shape a) s = .next { s with
      agenda := Ev.insert ⟨s.dcc + 32, ordLate s.core.phys, s.me, .shapeGrant g⟩ s.agenda }) ∧
    (3 < v → TrapsWith (.shape a) 0x01 0 s) ∧
    (∃ t, exec (.shapeGrant sh) s = .next t ∧ SameBytes s t ∧
      t.core.arch = { s.core.arch with csr := { s.core.arch.csr with shapeg := sh } }) ∧
    (n = 0 → TrapsWith (.mburst n) 0x01 0 s) ∧
    (n ≠ 0 → ∃ t, exec (.mburst n) s = .next t ∧ same t ∧ t.core.eng.array.burstStart = s.dcc ∧ t.core.eng.array.burstN = n.toNat ∧
      (∃ e ∈ t.agenda, e.due = s.dcc + 32 + 64 * n.toNat ∧ e.act = .mburstWindowEnd s.dcc) ∧
      (m.ramp = .ramped → t.core.eng.array.ramp = .ramped) ∧ (m.ramp = .up → t.core.eng.array.rampEnd = m.rampEnd) ∧
      (m.ramp = .idle ∨ m.ramp = .down → t.core.eng.array.ramp = .up ∧ t.core.eng.array.rampEnd = s.dcc + 32 ∧
        ∃ e ∈ t.agenda, e.due = s.dcc + 32 ∧ e.act = .rampUpDone t.core.eng.array.serial)) ∧
    (m.burstStart = serial → windowEnd ≤ s.dcc → ∃ t, exec (.mburstWindowEnd serial) s = .next t ∧ same t ∧
      t.core.eng.array = { m with burstN := 0 }) ∧
    (m.serial = serial → m.ramp = .up → ∃ t, exec (.rampUpDone serial) s = .next t ∧ same t ∧ t.core.eng.array.ramp = .ramped ∧
      ∃ e ∈ t.agenda, e.due = max (s.dcc + 1) hold ∧ e.act = .rampHoldExpiry t.core.eng.array.serial) ∧
    (m.serial = serial → m.ramp = .ramped → hold ≤ s.dcc → ∃ t, exec (.rampHoldExpiry serial) s = .next t ∧ same t ∧
      t.core.eng.array.ramp = .down ∧ t.core.eng.array.rampEnd = s.dcc + 16 ∧
      ∃ e ∈ t.agenda, e.due = s.dcc + 16 ∧ e.act = .rampDownEnd t.core.eng.array.serial) ∧
    (m.serial = serial → m.ramp = .down → ∃ t, exec (.rampDownEnd serial) s = .next t ∧ same t ∧
      (t.core.eng.array.ramp = .idle ∨ (t.core.eng.array.ramp = .up ∧ t.core.eng.array.rampEnd = s.dcc + 32)))

/-! Engine commands. -/

/-- R157, R162, R197, R198, R203, R204, R215: every engine command starts where the conditions of its start hold, and where its
engine is busy raises SCHED_MISS or waits. -/
def Obligations.CommandsStart : Prop :=
  ∀ (s : State) (q : Queue) (r : CmdRec),
    let plain : QEntry → StartSpec := fun _ => StartSpec.plain
    let engine : QEntry → StartSpec := fun _ => { StartSpec.plain with engine := true }
    let starts := fun (i : Beat → Instr) (spec : QEntry → StartSpec) => Starts (i (.start q)) q spec s
    starts (.mma r) (s.mmaSpec q) ∧ starts (.mmaSp r) (s.mmaSpec q) ∧ starts (.mmaMx r) (s.mmaSpec q) ∧
    starts (.accz r) plain ∧ starts (.accst r) plain ∧ starts (.fload r) floadSpec ∧ starts (.forest r) (s.forestSpec q) ∧
    starts (.leafg r) (s.leafgSpec q) ∧ starts (.copy r) copySpec ∧ starts (.fill r) engine ∧ starts (.reduce r) reduceSpec ∧
    starts (.quant r) quantSpec ∧ starts (.deq r) engine ∧ starts (.sgath r) (s.sgathSpec q) ∧ starts (.sgpat r) engine ∧
    starts (.attn r) (s.attnSpec q) ∧ starts (.kappend r) s.kappendSpec ∧ starts (.kchase r) engine ∧ starts (.rspanK r) engine ∧
    starts (.rspanC r) engine ∧ starts (.ktopk r) engine ∧ starts (.kcompact r) engine ∧ starts (.beamset r) engine ∧
    starts (.setf r) plain

/-- R19, R152 to R154, R211, R234, R244, R259, R261: ACCZ empties or clears the accumulators it names and sets their tag; SGPAT
installs its pattern; a SETF's flag write sets the flag and counts SSEQ up, or clears it; a WAITF whose flag has come ends,
clearing the flag where CLR is set, and waits in a relaxed entry where it has not; FOREST writes a sample's leaf numbers as one
row; the last beat of an FLOAD makes its forest valid; the Yarder's holds of a line of 4,096 cycles ago end, and no other. -/
def Obligations.CommandsTakeEffect : Prop :=
  ∀ (s : State) (x : CmdRec) (n : BitVec 6) (clr : Bool) (q : Queue),
    let flag := s.core.arch.flags.get n.toFin
    let ends := fun (r : Run) (t : State) => (∀ y ∈ t.core.eng.runs, y.id ≠ r.id) ∧ t.core.eng.runs.length ≤ s.core.eng.runs.length ∧
      t.core.arch = s.core.arch ∧ t.core.ls = s.core.ls ∧ SameBytes s t
    (∀ id r, s.core.eng.runs.find? (fun y => y.id == id) = some r →
      let w1 := r.e.r.w1
      (∃ t, exec (.accz x (.write id)) s = .next t ∧ ends r t ∧ ∀ i : Fin 4, t.core.acc.get i =
        if w1.getLsbD i.val then ⟨w1.extractLsb' 4 6, []⟩ else s.core.acc.get i) ∧
      (∃ t, exec (.sgpat x (.write id)) s = .next t ∧ ends r t ∧
        ∀ i : Fin 64, (t.part s.core.part).skidder.get i =
          if i.val = (r.e.r.w0.extractLsb' 0 6).toNat then w1 else (s.part s.core.part).skidder.get i) ∧
      (r.nw = 64 → s.core.eng.loading = some r.id → (∀ j, j < 64 → colBad ((r.capA.getD 64 []).getD j 0) = false) →
        ∃ t, exec (.fload x (.write id)) s = .next t ∧ ends r t ∧ t.core.eng.loading = none ∧
          t.core.eng.forest = some (Forest.ofRows r.capA)) ∧
      (r.nw + 1 = (scoreOf r.e.r).ns → (r.capA.getD r.nw []).length = 64 →
        ∃ t, exec (.forest x (.write id)) s = .next t ∧ ends r t ∧
          (∀ i : Fin 4, i.val ≠ (scoreOf r.e.r).ad → t.core.acc.get i = s.core.acc.get i) ∧
          ((scoreOf r.e.r).ad < 4 → (s.accOf (scoreOf r.e.r).ad).el.Pairwise (fun a b => a.1 < b.1) →
            ∀ i j, j < 64 → (t.accOf (scoreOf r.e.r).ad).at i j =
              if i = r.nw then BitVec.ofNat 32 ((r.capA.getD r.nw []).getD j 0) else (s.accOf (scoreOf r.e.r).ad).at i j))) ∧
    (∃ t, exec (.setfFlagWrite n clr) s = .next t ∧ SameBytes s t ∧ t.core.eng.runs = s.core.eng.runs ∧
      let f : EFlag := if clr then { flag with set := false } else ⟨true, flag.sseq + 1⟩
      t.core.arch = { s.core.arch with flags := s.core.arch.flags.set n.toNat f n.isLt }) ∧
    (∀ e rest, s.core.eng.queues.toList.getD q.code [] = e :: rest → e.gone = false →
      let m : BitVec 6 := e.r.w0.extractLsb' 0 6
      let f := s.core.arch.flags.get m.toFin
      let met := f.set = true ∧ (e.r.w0.getLsbD 17 = true → f.sseq = e.r.w1.extractLsb' 0 16)
      let over_ := fun (i : Instr) => ∃ t h, exec i s = .next t ∧ SameBytes s t ∧
        t.core.eng.queues.toList.getD q.code [] = h :: rest ∧ h.gone = true ∧ h.r = e.r ∧
        t.core.arch = (if e.r.w0.getLsbD 16 then
          { s.core.arch with flags := s.core.arch.flags.set m.toNat { f with set := false } m.isLt } else s.core.arch)
      (met → over_ (.waitf x (.start q)) ∧ (e.waiting = true → over_ (.waitfComplete q))) ∧
      (¬met → (s.core.stat.relax = true → ∃ t, exec (.waitf x (.start q)) s = .next t ∧ t.core.arch = s.core.arch ∧ SameBytes s t ∧
          t.core.eng.queues.toList.getD q.code [] = { e with seen := s.dcc + 1, waiting := true } :: rest) ∧
        (s.core.stat.relax = false → s.core.trap = none → ∃ t, exec (.waitf x (.start q)) s = .next t ∧
          t.core.stat.trapc = 0x08 ∧ t.core.arch = s.core.arch ∧ SameBytes s t) ∧
        exec (.waitfComplete q) s = .next s)) ∧
    (∀ line, ∃ t, exec (.yarderHoldExpiry line) s = .next t ∧ t.core = s.core ∧ SameBytes s t ∧
      t.lines.map Line.addr = s.lines.map Line.addr ∧
      (∀ l ∈ t.lines, l.addr = line / 128 * 128 → ∀ h ∈ l.yarder, s.dcc < h.2) ∧
      ∀ l ∈ s.lines, ∀ h ∈ l.yarder, s.dcc < h.2 → ∃ m ∈ t.lines, m.addr = l.addr ∧ h ∈ m.yarder)

/-- R56, R58, R61 to R64, R206, R211 to R213: the sum of a chunk of finite products is exact, with +0 for a zero sum; an I8 chunk is
added to its accumulator and clamped; the BF16 chunk of the spec's example gives 2^24 + 16. A row of an MMA form without port D
is written to its accumulator: the elements of the window take their results, every other element and accumulator is as before,
the tag is the form's, and the flags join NUMF. ACCST converts the row it reads, and its bytes land. -/
def Obligations.MatrixResults : Prop :=
  (∀ ps : List (Val × Val), (∀ p ∈ ps, p.1.isNan = false ∧ p.1.isInf = false ∧ p.2.isNan = false ∧ p.2.isInf = false) →
    let num := fun v : Val => match v with
      | .fin neg m e => (if neg then -1 else 1) * (m : ℚ) * 2 ^ e
      | _ => 0
    let r := chunkSum ps
    r.flags = 0 ∧ r.sticky = false ∧ r.v.isNan = false ∧ r.v.isInf = false ∧ num r.v = (ps.map fun p => num p.1 * num p.2).sum ∧
      (num r.v = 0 → r.v = .fin false 0 0)) ∧
  (∀ (acc : Rounded) (k : Int), let v := toSigned 32 acc.pat + k
    let r := promoteInt acc k
    toSigned 32 r.pat = max (-2 ^ 31) (min (2 ^ 31 - 1) v) ∧
      r.flags = acc.flags ||| (if -2 ^ 31 ≤ v ∧ v ≤ 2 ^ 31 - 1 then 0 else flagSAT)) ∧
  promote ⟨0x4B800000, 0⟩ (chunkSum (List.replicate 32 (valOf .bf16 0x3F00, valOf .bf16 0x3F80))) false = ⟨0x4B800008, 0⟩ ∧
  ∀ (s : State) (x : CmdRec) (id : Nat) (r : Run), s.core.eng.runs.find? (fun y => y.id == id) = some r → s.firmware = false →
    (let m := mmaOf r.e.r
     r.mmaRowDue s.dcc = true → r.claims .d = false → m.n ≤ r.res.length →
      (s.accOf m.ad).el.Pairwise (fun a b => a.1 < b.1) →
      ∀ i ∈ [Instr.mma x (.write id), .mmaSp x (.write id), .mmaMx x (.write id)],
        ∃ t, exec i s = .next t ∧ SameBytes s t ∧ t.core.ls = s.core.ls ∧
          (∀ j k, k < 64 → (t.accOf m.ad).at j k =
            if j = r.nw ∧ k < m.n then (r.res.getD k (0, 0)).1 else (s.accOf m.ad).at j k) ∧
          (t.accOf m.ad).tag = (if m.af = 8 then 9 else 1) ∧
          (∀ i : Fin 4, i.val ≠ m.ad → t.core.acc.get i = s.core.acc.get i) ∧
          t.core.arch.csr.numf = s.core.arch.csr.numf ||| ((r.res.take m.n).foldl (fun f v => f ||| v.2) 0) ∧
          t.core.arch.s = s.core.arch.s) ∧
    (let a := accstOf r.e.r
     let val := fun j => ((s.accOf a.src).at (a.r0 + r.nr) (a.c0 + j)).toNat
     let out := fun j => convertTo a.df ((s.accOf a.src).tag == 9) (val j) a.rm a.sat
       (r.e.hash (r.e.addr a.d (r.nr * a.d.pitch + j * elemBytes a.df)))
     exec (.accst x (.read id)) s = .next ((s.onEng fun e => { e with stall := none }).setRun { r with
       nr := r.nr + 1, peers := [], res := r.res ++ (List.range a.n).map fun j => (BitVec.ofNat 32 (out j).pat, (out j).flags) }) ∧
     BeatLands (.accst x (.write id)) a.d.loc
       (putAll [(r.e.addr a.d (r.nw * a.d.pitch), (r.res.take a.n).flatMap fun v => leBytes (elemBytes a.df) v.1.toNat)])
       ((r.res.take a.n).foldl (fun f v => f ||| v.2) 0) s)

/-- R219 to R234: what the data engines write in a write beat. FILL writes its value, COPY the elements that have come through, each
converted, or, where it combines, an entry of the log for each, unconverted; QUANT the codes, scales and side lists of its
chunks; DEQ the values; REDUCE its results, to its vector or to port constants; SGATH an output row. -/
def Obligations.DataEnginesWrite : Prop :=
  ∀ (s : State) (x : CmdRec) (id : Nat) (r : Run), s.core.eng.runs.find? (fun y => y.id == id) = some r →
    let all := fun (l : List (BitVec 8)) => l.foldl (fun f v => f ||| v) 0
    (let c := copyOf r.e.r
     let es := elemBytes c.df
     let at_ := fun i => r.e.addr c.dd (c.dstOff (i / c.n) (i % c.n))
     let out := fun i => convertTo c.df (isIntTag c.df) (r.e.r.w6.extractLsb' 0 32).toNat c.rm c.sat (r.e.hash (at_ i))
     let idx := rangeFrom (64 * r.nw) (min (c.m * c.n) (64 * r.nw + 64))
     BeatLands (.fill x (.write id)) c.dd.loc (putAll (idx.map fun i => (at_ i, leBytes es (out i).pat)))
       (all (idx.map fun i => (out i).flags)) s) ∧
    (∀ t0 g rest, r.flight = (t0, g) :: rest → t0 + r.copyDelay = s.dcc → (copyOf r.e.r).comb = 0 →
      let c := copyOf r.e.r
      let os := r.outs.filter fun o => o.idx / 64 == g && !o.drop
      let at_ := fun (o : OutEl) => r.e.addr c.dd (c.dstOff (o.idx / c.n) (o.idx % c.n))
      let out := fun (o : OutEl) => convertTo c.df (isIntTag c.sf) o.val.toNat c.rm c.sat (r.e.hash (at_ o))
      BeatLands (.copy x (.write id)) c.dd.loc (putAll (os.map fun o => (at_ o, leBytes (elemBytes c.df) (out o).pat)))
        (all (os.map fun o => (out o).flags)) s) ∧
    (∀ t0 g rest, r.flight = (t0, g) :: rest → t0 + r.copyDelay = s.dcc → (copyOf r.e.r).comb ≠ 0 → (copyOf r.e.r).dd.loc = true →
      let c := copyOf r.e.r
      let os := r.outs.filter fun o => o.idx / 64 == g && !o.drop
      let at_ := fun (o : OutEl) => r.e.addr c.dd (c.dstOff (o.idx / c.n) (o.idx % c.n))
      (∀ o ∈ os, s.fencedAt s.core.part (at_ o) = false ∧ s.core.held.owned.contains (lineOf (at_ o)) = true) →
      ∃ t, exec (.copy x (.write id)) s = .next t ∧ SameBytes s t ∧ t.core.arch = s.core.arch ∧ t.core.trap = s.core.trap ∧
        t.core.held.lines = s.core.held.lines ∧ t.core.held.log = s.core.held.log ++ os.map fun o =>
          (⟨at_ o, .elem (combKind c.comb) (BitVec.ofNat 6 c.df) c.rm c.sat (isIntTag c.sf) o.val r.e.seed r.e.steptag⟩ : Combine)) ∧
    (let q := quantOf r.e.r
     let cs := (r.chunksDue s.dcc).map r.quantChunk
     let here := fun (o : ChunkOut) => (if q.dd.loc = s.early then [o.elems] else []) ++ (if q.cd.loc = s.early then [o.scale] else []) ++
       (if q.od.en ∧ q.od.loc = s.early then [o.side] else [])
     let clips := r.clips + (cs.map ChunkOut.clips).sum
     s.early = false ∨ q.places = [true, true] ∨ q.places = [true, true, true] →
     BeatLands (.quant x (.write id)) s.early (putAll (cs.flatMap here))
       (all (cs.map ChunkOut.flags) ||| (if r.nw + cs.length = q.m * q.chunksPerRow ∧ q.thr < clips then flagOVR else 0)) s) ∧
    (∀ t0 g rest, r.flight = (t0, g) :: rest → t0 + r.deqDelay = s.dcc →
      let q := quantOf r.e.r
      let os := r.outs.filter fun o => o.idx / 64 == g
      let at_ := fun (o : OutEl) => r.e.addr q.dd (o.idx / q.n * q.dd.pitch + o.idx % q.n * elemBytes q.df)
      let out := fun (o : OutEl) => r.deqValue (o.idx / q.n) (o.idx % q.n) o.val.toNat (r.e.hash (at_ o))
      BeatLands (.deq x (.write id)) q.dd.loc (putAll (os.map fun o => (at_ o, leBytes (elemBytes q.df) (out o).pat)))
        (all (os.map fun o => (out o).flags)) s) ∧
    (let d := reduceOf r.e.r
     let es := elemBytes d.df
     let ls := r.resultsDue (r.pl .d + (if d.dd.loc then 22 else 2)) s.dcc
     let vs := ls.filterMap fun l => (r.reduceOut l (r.e.hash (r.e.addr d.dd (l * es)))).map fun v => (r.e.addr d.dd (l * es), v)
     (d.dd.en = true → d.ken = false → s.early = d.dd.loc → ls ≠ [] →
       BeatLands (.reduce x (.write id)) d.dd.loc (putAll (vs.map fun v => (v.1, leBytes es v.2.pat))) (all (vs.map fun v => v.2.flags)) s) ∧
     (∀ l, d.dd.en = false → d.ken = true → s.early = false → r.resultsDue (r.pl .d + 1) s.dcc = [l] → l < d.kn →
       ∃ t h, exec (.reduce x (.write id)) s = .next t ∧ SameBytes s t ∧ t.core.arch.s = s.core.arch.s ∧
         ∀ v, r.reduceOut l h = some v → ∀ p : Fin 4, t.core.arch.ports.get p =
           if p.val = d.kport.code then { s.core.arch.ports.get p with
             k := Vector.ofFn fun i => if i.val = d.kbase + l then BitVec.ofNat 32 (widen d.df v.pat) else (s.core.arch.ports.get p).k.get i }
           else s.core.arch.ports.get p)) ∧
    (let p := r.pattern
     let d := descOf r.e.r.w2
     (∀ a ∈ r.capX.headD [], s.resident a = true) →
     BeatLands (.sgath x (.write id)) false (putAll [(d.off + r.nw * d.pitch, (r.capA.headD []).flatMap (leBytes p.esize))]) 0 s)

/-- R240 to R256, R259, R267 to R269: what the commands of queue QK, and LEAFG, write in a write beat. KAPPEND puts a token into the
open page of its chain, and at the end the chain record; RSPAN and KCOMPACT the headers, the free stack and the chain record;
KTOPK its keep mask; BEAMSET a beam's entry; ATTN an output row and its LSE entry; the Yarder holds a line that has come for
4,096 cycles; LEAFG a sum into its accumulator. -/
def Obligations.CacheEnginesWrite : Prop :=
  ∀ (s : State) (x : CmdRec) (id : Nat) (r : Run), s.core.eng.runs.find? (fun y => y.id == id) = some r →
    (∀ c, r.chain = some c →
      let chain := fun (k : Chain) => (k.addr, k.bytes)
      let u := r.pages.foldl (Unlink.page (r.e.r.w1.extractLsb' 48 4).toNat) ⟨c, [], [], [], none⟩
      let heads := fun (k : Chain) => (u.kept.filter fun g => u.changed.contains g.frame).map fun g =>
        (k.at_ k.pool (k.frameOff g.frame), g.bytes)
      (r.nw = (appendOf r.e.r).nt → BeatLands (.kappend x (.write id)) true (putAll [chain c]) 0 s) ∧
      (∀ g, r.nw < (appendOf r.e.r).nt → r.pages = [g] → g.isSealed = false → g.cnt < 16 → g.tag = (appendOf r.e.r).tag →
        c.npos ≤ g.pos0 + 65535 → exceeds (maxFinite (r.capA.getD r.nw [])) g.ksc = false →
        exceeds (maxFinite (r.capB.getD r.nw [])) g.vsc = false →
        let ka := c.at_ c.pool (c.frameOff g.frame + 64 + g.cnt * c.dim)
        let va := c.at_ c.pool (c.frameOff g.frame + 64 + 16 * c.dim + g.cnt * c.dim)
        let ks := r.appendCodes (r.capA.getD r.nw []) g.ksc ka
        let vs := r.appendCodes (r.capB.getD r.nw []) g.vsc va
        let h : Page := { g with poff := g.poff.set g.cnt ((c.npos + 2 ^ 32 - g.pos0) % 2 ^ 16), cnt := g.cnt + 1 }
        BeatLands (.kappend x (.write id)) true
          (putAll [(ka, ks.map fun y => BitVec.ofNat 8 y.pat), (va, vs.map fun y => BitVec.ofNat 8 y.pat),
            (c.at_ c.pool (c.frameOff g.frame), h.bytes)]) ((ks ++ vs).foldl (fun f y => f ||| y.flags) 0) s) ∧
      (u.full = none →
        BeatLands (.rspanK x (.write id)) true (putAll (heads u.c ++ u.pushed ++ [chain u.c])) 0 s ∧
        BeatLands (.rspanC x (.write id)) true (putAll (heads u.renumber ++ u.pushed ++ [chain u.renumber])) 0 s) ∧
      (let fs := r.freshPages c
       let v := r.pages.foldl (fun (y : Unlink) g => y.push g.frame) ⟨c, [], [], [], none⟩
       let k : Chain := { v.c with
         head := r.vals.headD 0xFFFFFFFF, tail := r.vals.getLast?.getD 0xFFFFFFFF, npg := fs.length
         live := (fs.map fun (y : Fresh) => y.g.cnt).sum }
       v.full = none → fs.length ≤ r.nw → BeatLands (.kcompact x (.write id)) true (putAll (v.pushed ++ [chain k])) 0 s) ∧
      (∀ i, let a := attnOf r.e.r
        let y := r.rowOut c (s.homeOf c) i
        r.flight = [] → a.od.loc = a.ld.loc → s.early = a.od.loc → r.s + r.slip ≤ s.dcc → r.rowAt a.od (r.offset s.dcc) = some i →
        r.scoreAt (r.offset s.dcc) = none →
        let rows := putAll [(r.e.addr a.od (i * a.od.pitch), y.out.flatMap (leBytes (elemBytes a.ofmt)))]
        let lse := putAll [(r.e.addr a.ld (8 * i), leBytes 8 (y.lse + (if y.fmask then 2 ^ 32 else 0)))]
        s.maySend a.od.loc rows → s.maySend a.od.loc lse →
          ∃ t u, exec (.attn x (.write id)) s = .next t ∧ Lands a.od.loc rows y.flags s u ∧ Lands a.od.loc lse 0 u t)) ∧
    (let d := descOf r.e.r.w3
     BeatLands (.ktopk x (.write id)) d.loc (putAll [(r.e.addr d 0, leBytes (2 * (r.e.r.w1.extractLsb' 0 16).toNat) r.keepMask)]) 0 s) ∧
    (let e := r.vals.getD r.nw 0
     e < 2 ^ 48 → e / 2 ^ 40 ≤ 63 →
     BeatLands (.beamset x (.write id)) true
       (putAll [(r.e.addr (descOf r.e.r.w2) (8 * (e / 2 ^ 40)), leBytes 8 (e % 2 ^ 41))]) 0 s) ∧
    (∀ t0 a, r.flight = [(t0, a)] → t0 ≤ s.dcc → s.resident a = true → ∃ t, exec (.kchase x (.write id)) s = .next t ∧ SameBytes s t ∧
      (∃ l ∈ t.lines, l.addr = a / 128 * 128 ∧ ∃ h ∈ l.yarder, h.2 = s.dcc + 4096) ∧
      ∃ e ∈ t.agenda, e.act = .yarderHoldExpiry a ∧ e.due = s.dcc + 4096) ∧
    (let g := gatherOf r.e.r
     let v := r.res.getD r.nw (0, 0)
     s.firmware = false → (s.accOf g.ad).el.Pairwise (fun a b => a.1 < b.1) →
     ∃ t, exec (.leafg x (.write id)) s = .next t ∧ SameBytes s t ∧
       (∀ i k, k < 64 → (t.accOf g.ad).at i k = if i = r.nw ∧ k = g.dcol then v.1 else (s.accOf g.ad).at i k) ∧
       (t.accOf g.ad).tag = 1 ∧ (∀ i : Fin 4, i.val ≠ g.ad → t.core.acc.get i = s.core.acc.get i) ∧
       t.core.arch.csr.numf = s.core.arch.csr.numf ||| v.2)

/-! Traps and pre-emption. -/

/-- R31, R114, R122, R327, R331: at the end of a cycle with a trap an open entry is discarded, and the action of the cause follows,
taken from the launch's override or the partition's ACTDEF; a stored POISON is forwarded where it would be replayed. REPLAY
enters the region again after 64 cycles or more, relaxed after a late command, tag or translation, and in boundary code issues
the bundle again 72 cycles on, 136 where it names a handle; a late access alone is made again. PARK and FORWARD save the
context, that of an entry as it was at REGION 64 cycles on. KILL tells the host with a FORWARD record, ends the launch's saved
contexts, and stops its other cores 40 cycles on. PARK and FORWARD ask for a scheduling decision in this cycle, KILL when all of
the launch is quiet. The model's choices: codes that no override decides (log entry 38), when a PARK or a FORWARD has stopped
(log entry 45), how a killed launch ends (log entry 18), what a replay counts (log entry 48). -/
def Obligations.TrapsAreClosed : Prop :=
  ∀ (s : State) (r : TrapRec), s.core.trap = some r → s.core.life = .running → r.cause ≠ 0x13 →
    let i := r.cause.toNat
    let own := (s.part s.core.part).actdef
    let code := fun (w : Word) => w.toNat / 4 ^ i % 4
    let act := fun (n : Nat) => if n = 0 then Action.kill else if n = 1 then Action.replay else if n = 2 then Action.park else Action.forward
    let stored := r.cause = 0x14 ∧ r.stored = true
    let t := s.closeTrap
    let relaxed := r.cause == 0x08 || r.cause == 0x09 || r.cause == 0x1E
    let told := fun (pc : Word) => ∀ l, s.launch = some l → ∃ w : Word,
      t.fabric = (s.post l.vf 3 false [w, r.v0, r.v1, r.v2, r.v3, pc]).fabric ∧
      w.extractLsb' 0 8 = r.cause ∧ (s.core.lcore < 256 → (w.extractLsb' 8 8).toNat = s.core.lcore ∧ w.extractLsb' 16 32 = l.seq)
    let decides := ∃ e ∈ t.agenda, e.act = .schedulingDecision s.core.part ∧ e.due = s.dcc
    let parks := (∃ x, t.core.stop = some x ∧ x.park = true ∧ x.arrived = true) ∧ decides
    let killed := ∀ l, s.launch = some l → l.state ≠ .killed →
      (∃ m, t.launchOf l.id = some m ∧ m.state = .killed ∧ m.cause = r.cause) ∧ t.core.life = .killed ∧
        (∀ c ∈ t.saved, c.launch = l.id → c.life ≠ .saved ∧ c.life ≠ .parked) ∧
        ∀ c ∈ s.others, c.launch = l.id → c.life = .running → c.stop = none →
          ∃ e ∈ t.agenda, e.act = .preemptArrival ∧ e.target = .phys c.phys ∧ e.due = s.dcc + 40
    (i < 32 → s.launch = none → s.actionFor r = if code own = 1 ∧ stored then .forward else act (code own)) ∧
    (i < 31 → i ≠ 0 → i ≠ 0x15 → ∀ l, s.launch = some l →
      s.actionFor r = (let w := if l.ovmask.getLsbD i then l.overrides else own
        if code w = 1 ∧ stored then .forward else act (code w))) ∧
    (s.inRegion = true → s.actionFor r = .replay →
      t.inRegion = false ∧ t.core.trap = none ∧ t.core.blk = .reentry ∧ t.core.replay.repend = true ∧ t.core.replay.cause = r.cause ∧
        t.core.replay.relax = relaxed ∧ t.core.arch.s = s.core.reg.snap.arch.s ∧
        t.core.pc = s.core.reg.snap.pc ∧ t.core.held = Held.empty ∧ SameBytes s t ∧
        ∃ e ∈ t.agenda, e.act = .reentry ∧ e.target = s.me ∧ s.dcc + 64 ≤ e.due) ∧
    (s.inRegion = false → s.core.blk ≠ .reentry → s.actionFor r = .replay → r.access = none → r.cause ≠ 0x10 →
      (if s.core.replay.at_ = s.core.nextPc then s.core.replay.count.toNat else 0) < s.core.arch.csr.relim.toNat →
      t.core.trap = none ∧ t.core.arch = s.core.arch ∧ t.core.pc = s.core.pc ∧ SameBytes s t ∧ t.core.replay.at_ = s.core.nextPc ∧
        ∃ n, t.core.blk = .replay n ∧ ∃ e ∈ t.agenda, e.act = .boundaryReplay n ∧ e.target = s.me ∧
          e.due = s.dcc + (if r.cause = 0x03 then 136 else 72)) ∧
    (s.inRegion = false → s.core.blk ≠ .reentry → s.actionFor r = .replay → ∀ id, r.access = some id →
      t.core.trap = none ∧ t.core.arch = s.core.arch ∧ t.core.pc = s.core.pc ∧ SameBytes s t ∧ t.core.blk = s.core.blk ∧
        t.core.replay.access = some id ∧ t.core.replay.count = s.core.replay.count ∧
        ∃ e ∈ t.agenda, e.act = .boundaryReplay s.serial ∧ e.target = s.me ∧ e.due = s.dcc + 72) ∧
    (s.inRegion = false → s.core.blk ≠ .reentry → s.actionFor r = .park ∨ s.actionFor r = .forward →
      t.core.trap = none ∧ SameBytes s t ∧ parks ∧ (s.actionFor r = .park → t.fabric = s.fabric) ∧
        (s.actionFor r = .forward → told s.core.savedPc)) ∧
    (s.inRegion = true → s.actionFor r = .park ∨ s.actionFor r = .forward → (∀ x, s.core.stop = some x → x.kill = false) →
      t.inRegion = false ∧ t.core.trap = none ∧ t.core.life = .saving ∧ t.core.replay.repend = true ∧ t.core.replay.cause = r.cause ∧
        t.core.replay.relax = relaxed ∧ t.core.arch.s = s.core.reg.snap.arch.s ∧ t.core.pc = s.core.reg.snap.pc ∧
        t.core.held = Held.empty ∧ SameBytes s t ∧ parks ∧
        (∃ e ∈ t.agenda, e.act = .saveAreaReserve ∧ e.target = s.here ∧ e.due = s.dcc + 80) ∧
        (s.actionFor r = .park → t.fabric = s.fabric) ∧
        (s.actionFor r = .forward → s.core.reg.snap.layer = none → told s.core.reg.snap.pc)) ∧
    (s.inRegion = false → s.core.blk ≠ .reentry → s.actionFor r = .kill → (s.cores.map Core.phys).Nodup →
      t.core.trap = none ∧ SameBytes s t ∧ killed ∧ told s.core.savedPc) ∧
    (s.inRegion = true → s.actionFor r = .kill → (s.cores.map Core.phys).Nodup →
      t.inRegion = false ∧ t.core.trap = none ∧ t.core.arch.s = s.core.reg.snap.arch.s ∧ t.core.held = Held.empty ∧ SameBytes s t ∧ killed ∧
        (∃ x, t.core.stop = some x ∧ x.kill = true ∧ x.at_ = s.dcc + 64) ∧
        (s.core.reg.snap.layer = none → told s.core.reg.snap.pc))

/-- R32, R319 to R322, R324: a request to stop reaches the core: an open entry is discarded and waits for its restore, one that is
committing has 1,024 cycles more. A context that has stopped gives up the bytes its image takes, is saved and leaves the core
with its registers, its bytes standing in a save area of its partition's HBM, at a page that is open (DESIGN CHOICE, log entry
10); one that comes in has the bytes of its image's place back, and issues in that cycle. A bundle replayed in boundary code
issues again. That the phases are events of the dispatcher, with the firmware's work in them, is the model's reading (log entry
53). -/
def Obligations.PreemptionPhases : Prop :=
  ∀ (s : State) (serial : Nat),
    let c := s.core
    let area := saveBase c.part c.launch c.lcore
    (∀ x, c.stop = some x → x.arrived = false → c.life = .running →
      (s.inRegion = true → c.reg.commit = .none →
        ∃ t, exec .preemptArrival s = .next t ∧ t.inRegion = false ∧ t.core.blk = .reentry ∧ t.core.replay.cause = 0x15 ∧
          t.core.replay.repend = true ∧ t.core.replay.relax = false ∧ t.core.stopping = true ∧ t.core.arch.s = c.reg.snap.arch.s ∧
          SameBytes s t ∧ ∃ e ∈ t.agenda, e.act = .reentry ∧ e.due = s.dcc + 64) ∧
      (s.inRegion = true → c.reg.commit ≠ .none →
        ∃ t, exec .preemptArrival s = .next t ∧ t.inRegion = true ∧ t.core.arch = c.arch ∧ t.core.stopping = true ∧
          ∃ e ∈ t.agenda, e.act = .commitGraceExpiry s.dcc ∧ e.due = s.dcc + 1024) ∧
      (s.inRegion = false → c.blk = .none → exec .preemptArrival s = .next { s with core := { c with
        stop := some { x with arrived := true, at_ := s.dcc } } })) ∧
    (∀ x sc, c.stop = some x → x.arrived = true → x.at_ = serial → s.inRegion = true → c.life = .running →
      (c.reg.commit = .draining sc → ∃ t, exec (.commitGraceExpiry serial) s = .next t ∧ t.inRegion = false ∧
        t.core.blk = .reentry ∧ t.core.replay.cause = 0x15 ∧ t.core.arch.s = c.reg.snap.arch.s ∧ SameBytes s t) ∧
      ((∀ z, c.reg.commit ≠ .draining z) → exec (.commitGraceExpiry serial) s = .next s)) ∧
    (c.life = .saving → ∃ t, exec .saveAreaReserve s = .next t ∧
      t.core.tail = c.ls.mem.filter (fun e => decide (0x5E000 ≤ e.1)) ∧ t.core.arch = c.arch ∧ t.core.ls = c.ls ∧ t.cxl = s.cxl ∧
      (Mem.wf s.mem = true → ∀ a, t.mem.read a = if area + 0x60000 ≤ a ∧ a < area + 0x62000 then
        c.ls.mem.read (a - area - 0x60000 + 0x5E000) else s.mem.read a) ∧
      ∃ e ∈ t.agenda, e.act = .contextSwap ∧ e.target = s.here ∧ e.due = s.dcc + 1152) ∧
    (c.life ≠ .saving → ∃ t, exec .saveAreaReserve s = .next t ∧ t.core = c ∧
      ∃ e ∈ t.agenda, e.act = .contextSwap ∧ e.target = s.here ∧ e.due = s.dcc + 896) ∧
    (∀ x, c.stop = some x → c.life = .saving → x.kill = false → x.incoming = none → Mem.wf c.ls.mem = true →
      ∃ t o, exec .contextSwap s = .next t ∧ t.saved = s.saved ++ [o] ∧ o.life = (if x.park then .parked else .saved) ∧
        o.launch = c.launch ∧ o.lcore = c.lcore ∧ o.arch = c.arch ∧ o.acc = c.acc ∧ o.stat = c.stat ∧ o.pc = c.pc ∧ o.tail = c.tail ∧
        (∀ a, a < 0x5E000 → o.ls.mem.read a = c.ls.mem.read a) ∧ t.core.life = .idle ∧ t.core.phys = c.phys ∧ t.core.stop = none ∧
        (Mem.wf s.mem = true → (∀ a, a < area ∨ area + 0x72000 ≤ a → t.mem.read a = s.mem.read a) ∧
          ∀ k, k < 0x5E000 → t.mem.read (area + k) = c.ls.mem.read k)) ∧
    (c.life = .placed → c.replay.repend = false → c.layer = none → c.io = [] → c.replay.access = none → c.replay.hnd = none →
      Mem.wf c.ls.mem = true → (∀ e ∈ c.tail, 0x5E000 ≤ e.1) →
      ∃ t, exec .contextUnreserve s = .next t ∧ t.core.life = .running ∧ t.core.hz.issueAt = s.dcc ∧ t.core.tail = [] ∧
        (∀ a, t.core.ls.mem.read a = if a < 0x5E000 then c.ls.mem.read a else c.tail.read a) ∧ t.core.pc = c.pc ∧
        t.core.arch.s = c.arch.s ∧ t.core.arch.p = c.arch.p ∧ t.core.arch.h = c.arch.h ∧
        t.core.arch.csr.shapeg.toNat = min c.arch.csr.shapeg.toNat (s.part c.part).allow.toNat) ∧
    (c.life ≠ .placed → exec .contextUnreserve s = .next s) ∧
    (c.replay.serial = serial → c.replay.access = none → c.blk = .replay serial → c.stopping = false → c.replay.hnd = none →
      ∃ t, exec (.boundaryReplay serial) s = .next t ∧ t.core.blk = .none ∧ t.core.hz.issueAt = max c.hz.issueAt s.dcc ∧
        t.core.arch = c.arch ∧ t.core.pc = c.pc ∧ SameBytes s t) ∧
    (c.replay.serial ≠ serial → exec (.boundaryReplay serial) s = .next s)

/-! Launches and the host. -/

/-- R311, R312, R314 to R317, R331: the dispatcher's own events. A launch whose cores are loaded waits for its start time; where its
predecessors are done it runs, but not where a poisoned word was met in its placement (R338, DEDUCED, log entry 21); and a
parked one goes on; a new period gives a contract its budget; the budget's end, a missed deadline and a contract's admission are
told to the host; a killed launch ends when all of it is quiet. A decision moves contexts on and off cores by request: no
context that runs loses what it holds in the cycle of the decision. Which function hears of a contract is the model's choice
(log entry 19). -/
def Obligations.DispatcherEvents : Prop :=
  ∀ (s : State) (id serial : Nat) (p : BitVec 4) (cid : BitVec 6) (cause : BitVec 8),
    let key := contractKey p cid
    (∀ l, s.launchOf id = some l →
      (l.state = .placing → s.dcc < l.tstart → ∃ t, exec (.launchStart id) s = .next t ∧ t.core = s.core ∧ t.disp = s.disp ∧
        ∃ e ∈ t.agenda, e.due = l.tstart ∧ e.act = .tstartCheck id) ∧
      (l.state = .placing → l.bad.isSome = true → ∃ t, exec (.tstartCheck id) s = .next t ∧
        ∀ m, t.launchOf id = some m → m.state ≠ .running) ∧
      (l.state = .placing → l.bad = none → l.preds.all s.predDone = true → (s.cores.map Core.phys).Nodup →
        ∃ t m, exec (.tstartCheck id) s = .next t ∧ (l.tstart ≤ s.dcc → exec (.launchStart id) s = .next t) ∧
          t.launchOf id = some m ∧ m.state = .running ∧ m.late = (l.late || (l.tstart != 0 && decide (l.tstart < s.dcc))) ∧
          t.core.phys = s.core.phys ∧ SameBytes s t ∧
          (s.core.launch = id → s.core.life = .placed → t.core.life = .running ∧ t.core.arch = s.core.arch)) ∧
      (l.state ≠ .placing → exec (.launchStart id) s = .next s ∧ exec (.tstartCheck id) s = .next s) ∧
      (l.state = .parked → s.resumable l = true → ∃ t m, exec (.predDoneResume id) s = .next t ∧
        t.launchOf id = some m ∧ m.state = .running ∧ m.late = (l.late || !l.preds.isEmpty) ∧ t.core.arch = s.core.arch ∧ SameBytes s t ∧
        ∀ c ∈ t.saved, c.launch = id → c.life ≠ .parked) ∧
      (l.state = .killed → s.killQuiet id = true → ∃ t w, exec (.killComplete id cause) s = .next t ∧
        (l.queue, l.seq) ∈ t.disp.doneLog ∧ (∀ c ∈ t.saved, c.launch ≠ id) ∧
        (∃ e ∈ t.agenda, e.act = .schedulingDecision l.part ∧ e.due = s.dcc) ∧
        t.fabric = (s.post l.vf 1 l.late [w, BitVec.ofNat 64 l.lastHalt, cause.setWidth 64]).fabric ∧
        w.extractLsb' 0 32 = l.seq ∧ w.extractLsb' 32 12 = l.queue)) ∧
    (∀ c, SMap.find key s.disp.contracts = some c → s.disp.contracts.Pairwise (fun a b => a.1 < b.1) →
      (c.adm = true → c.withdraw = false → 0 < c.period → ∃ t d, exec (.periodStart p cid) s = .next t ∧ t.core = s.core ∧
        SMap.find key t.disp.contracts = some d ∧ d.left = c.budget ∧ d.budget = c.budget ∧
        ∃ e ∈ t.agenda, e.act = .periodStart p cid ∧ s.dcc < e.due ∧ (e.due - c.phase) % c.period = 0) ∧
      (∃ t d, exec (.budgetExhausted p cid) s = .next t ∧ SMap.find key t.disp.contracts = some d ∧ d.bovr = c.bovr + 1 ∧
        t.fabric = (s.post (s.partVf p) 6 false [cid.setWidth 64, BitVec.ofNat 64 c.k]).fabric)) ∧
    (∀ l d c, s.launchOf id = some l → l.deadline = some d → SMap.find (contractKey l.part l.cid) s.disp.contracts = some c →
      l.state ≠ .done → d ≤ s.dcc → ∃ w, exec (.deadlineMiss id) s = .next (s.post l.vf 8 false [l.cid.setWidth 64, l.seq.setWidth 64, w])) ∧
    (∀ (node : BitVec 11) (w0 w1 w2 w3 w4 w5 : Word), s.manages node = true → cid ≠ 63 → (SMap.find key s.disp.contracts = none ∨ w5.getLsbD 63 = true) →
      s.disp.contracts.Pairwise (fun a b => a.1 < b.1) →
      ∃ t c, exec (.contractWrite ⟨node, p⟩ cid w0 w1 w2 w3 w4 w5) s = .next t ∧ t.core = s.core ∧
        SMap.find key t.disp.contracts = some c ∧ (c.adm = true → w5.getLsbD 63 = true ∧ c.phase = w0.toNat ∧
          c.period = (w1.extractLsb' 0 40).toNat ∧ c.budget = (w2.extractLsb' 0 40).toNat ∧ c.deadline = (w3.extractLsb' 0 40).toNat ∧
          c.ncore = (w4.extractLsb' 24 5).toNat ∧ c.deadline ≤ c.period ∧ 4096 ≤ c.period ∧ 1 ≤ c.ncore ∧
          densitySum (t.admitted p) ≤ ((s.enabled p).length * 62259 : ℚ) / 65536 ∧
          (∃ e ∈ t.agenda, e.act = .periodStart p cid ∧ c.phase ≤ e.due ∧ s.dcc ≤ e.due))) ∧
    (∀ l, s.launch = some l → s.core.life = .running → s.bestEffort l = true → ∃ t, exec (.quantumExpiry serial) s = .next t ∧
      t.core = s.core ∧ ∃ e ∈ t.agenda, e.act = .quantumExpiry s.dcc ∧ e.target = s.me ∧ e.due = s.dcc + (s.part l.part).quantum) ∧
    ((s.cores.map Core.phys).Nodup → ∃ t, exec (.schedulingDecision p) s = .next t ∧ t.saved = s.saved ∧ t.core.phys = s.core.phys ∧
      ∀ c ∈ s.cores, c.life = .running ∨ c.life = .placed ∨ c.life = .saving → ∃ d ∈ t.cores, d.phys = c.phys ∧ d.life = c.life ∧
        d.launch = c.launch ∧ d.lcore = c.lcore ∧ d.arch = c.arch ∧ d.pc = c.pc ∧ d.acc = c.acc ∧ d.ls = c.ls ∧ d.held = c.held)

/-- R302 to R307, R332, R362, R369: a notify store of the owning host sets the producer index, one of another is dropped and logged,
and more records than the ring holds stop the queue. A descriptor write clears STOP and keeps the consumer index. The scanner
comes every four cycles, and takes the lowest pending queue from P on: it consumes its record, and stops the queue where SEQ is
not the expected one. A slot written resident releases what was held for it, but for what has lost its contract. A resume word
readies the parked context it names. A write of a node that does not manage is dropped and logged; the reserved bits of a write
are ignored (DESIGN CHOICE, log entry 91). That an overrun is judged whether the queue is enabled or not is the model's reading
(DEDUCED, log entry 24). -/
def Obligations.HostWritesAndScanner : Prop :=
  ∀ (s : State) (q : BitVec 12) (v w0 w1 : Word) (node : BitVec 11) (p : BitVec 4) (slot : BitVec 10),
    s.disp.queues.Pairwise (fun a b => a.1 < b.1) → s.disp.slots.Pairwise (fun a b => a.1 < b.1) →
    let d := s.queue q.toNat
    let ring := fun (x : QDesc) => x.stop = false ∧ 2 ^ x.lgn < (x.pi - x.ci).toNat
    Drops node (.queueDescriptorWrite ⟨node, q⟩ w0 w1) s ∧ Drops node (.residentSlotWrite ⟨node, p⟩ slot v) s ∧ Drops node (.resumeWord ⟨node, p⟩ v) s ∧
    (s.shut = true → exec (.notifyStore q v node) s = .next s) ∧
    (s.shut = false → s.ownsQueue q node = false → ∃ t, exec (.notifyStore q v node) s = .next t ∧ t.disp = s.disp ∧
      t.core = s.core ∧ ∃ r ∈ t.himos.log, r.seq = s.himos.logSeq ∧ r.code = logNotifyDropped) ∧
    (s.shut = false → s.ownsQueue q node = true → ∃ t, exec (.notifyStore q v node) s = .next t ∧ t.core = s.core ∧
      SameBytes s t ∧ (let x := { d with pi := v.extractLsb' 0 32 }
        (¬ring x → t.queue q.toNat = x ∧ t.fabric = s.fabric) ∧ (ring x → t.queue q.toNat = { x with stop := true })) ∧
      ∀ k, k ≠ q.toNat → t.queue k = s.queue k) ∧
    (s.manages node = true → ∃ t, exec (.queueDescriptorWrite ⟨node, q⟩ w0 w1) s = .next t ∧ t.core = s.core ∧ SameBytes s t ∧
      let x : QDesc := { d with
        en := w0.getLsbD 63, stop := false, lgn := (w0.extractLsb' 52 5).toNat, base := (w0.extractLsb' 12 40).toNat * 4096
        vf := w0.extractLsb' 0 7, expseq := w1.extractLsb' 32 32 }
      (¬ring x → t.queue q.toNat = x) ∧ (ring x → t.queue q.toNat = { x with stop := true })) ∧
    (s.himos.held = true ∨ s.nextQueue = none → exec .scannerTick s = .next { s with
      agenda := Ev.insert ⟨s.dcc + 4, 0, .chip, .scannerTick⟩ s.agenda }) ∧
    (∀ n, s.nextQueue = some n → (s.queue n).pending = true ∧
      (s.disp.scanP.toNat ≤ n → ∀ m, s.disp.scanP.toNat ≤ m → (s.queue m).pending = true → n ≤ m) ∧
      (n < s.disp.scanP.toNat → ∀ m, (s.queue m).pending = true → n ≤ m ∧ m < s.disp.scanP.toNat)) ∧
    (∀ n r t0, s.himos.held = false → s.nextQueue = some n → n < 4096 → s.fetchRecord (s.queue n) (s.queue n).ci = (some r, t0) →
      recExt r = false → (SMap.find (s.queue n).vf.toNat s.fabric.vfs).any (fun x => x.valid) = true →
      ∃ t, exec .scannerTick s = .next t ∧ t.core.arch = s.core.arch ∧ SameHbm s t ∧ t.disp.scanP = BitVec.ofNat 12 (n + 1) ∧
        (t.queue n).ci = (s.queue n).ci + 1 ∧ (∃ e ∈ t.agenda, e.act = .scannerTick ∧ e.due = s.dcc + 4) ∧
        (recSeq r = (s.queue n).expseq → (t.queue n).expseq = (s.queue n).expseq + 1) ∧
        (recSeq r ≠ (s.queue n).expseq → (t.queue n).expseq = (s.queue n).expseq ∧ (t.queue n).stop = true ∧
          t.disp.launches = s.disp.launches)) ∧
    (s.manages node = true → ∃ t, exec (.residentSlotWrite ⟨node, p⟩ slot v) s = .next t ∧ t.core = s.core ∧ SameBytes s t ∧ t.slotWord p slot = v ∧
      (v.getLsbD 63 = true → v.getLsbD 62 = true → (∀ x ∈ (t.part p).hold, recSlot x.rec_ ≠ slot) ∧
        t.disp.launches.length = s.disp.launches.length +
          ((s.part p).hold.filter fun x => recSlot x.rec_ == slot && !s.lacksContract x).length) ∧
      (v.getLsbD 63 = false ∨ v.getLsbD 62 = false → (t.part p).hold = (s.part p).hold ∧ t.disp.launches = s.disp.launches)) ∧
    (let names := fun (l : Launch) => l.part = p ∧ l.queue = v.extractLsb' 20 12 ∧ l.seq = v.extractLsb' 32 32 ∧
        l.state ≠ .done ∧ l.state ≠ .killed
     (s.manages node = true → (∀ l ∈ s.disp.launches, ¬names l) → exec (.resumeWord ⟨node, p⟩ v) s = .next s) ∧
     (∀ l c, s.manages node = true → l.n ≤ (s.enabled p).length → (∀ m ∈ s.disp.launches, names m → m = l) → l ∈ s.disp.launches → names l → l.state ≠ .parked → v.getLsbD 0 = true →
       s.parkedOf l.id (v.extractLsb' 8 8).toNat = [c] → c ∈ s.saved → c.replay.repend = true →
       ∃ t, exec (.resumeWord ⟨node, p⟩ v) s = .next t ∧ t.core.arch = s.core.arch ∧ SameBytes s t ∧
         (∀ k ∈ t.saved, k.isCtx c.launch c.lcore = true → k.life ≠ .parked) ∧ t.saved.map Core.arch = s.saved.map Core.arch ∧
         ∃ e ∈ t.agenda, e.act = .schedulingDecision p ∧ e.due = s.dcc))

/-! The fabric, media and management. -/

/-- R359 to R361, R363: a flit with its check whole and the sequence number expected is taken; any other is discarded, and the next
flit sent carries a NAK, and with it, as every flit does, the last good number. An ACK frees the replay buffer up to its flit; a
NAK has what follows it sent again. What a parcel brings is done when its last piece has come. A flit time sends what is to be
sent again, else the next piece of what waits, the management channel first and alone while the others are closed, else an idle
flit, and no piece while 512 flits are not acknowledged. The 16th NAK within 2^20 cycles halves the width, or takes a link of
two lanes down. After 25,000 cycles of retraining the flits not acknowledged are sent again; a link silent for 4,096 cycles goes
down, and its transactions go out on other paths. The header's layout and what an idle flit holds are the model's (DESIGN
CHOICE, log entry 25). -/
def Obligations.LinkProtocol : Prop :=
  ∀ (s : State) (n : BitVec 5) (f : Flit) (sh : Bool), n.toNat < 24 →
    let l := s.link n
    let whole := f.lcrc = crc64 (flitBytes f)
    let good := whole ∧ f.seq = l.rxNext
    let rx := (recentNaks l.naks s.dcc).length
    let tx := (recentNaks l.naksTx s.dcc).length
    let sends := fun (b : List Sent) => if f.nak then b else l.resend.filter b.contains
    (s.linkUp n = false → exec (.flitReceive n f) s = .next s) ∧
    (s.linkUp n = true → good → rx < 16 → tx + (if f.nak then 1 else 0) < 16 →
      ∃ t, exec (.flitReceive n f) s = .next t ∧ t.core = s.core ∧ t.himos = s.himos ∧ (t.link n).rxNext = l.rxNext + 1 ∧
        (t.link n).lastRx = s.dcc ∧ (t.link n).nakWait = false ∧ (t.link n).nakHeld = l.nakHeld ∧ (t.link n).width = l.width ∧
        (t.link n).txNext = l.txNext ∧ (t.link n).queue = l.queue ∧ (f.ch = .idle → (t.link n).rx = l.rx) ∧
        (let c := channelCode f.ch
         let bs := SMap.get [] c l.rx ++ (f.payload ++ List.replicate 240 0).take 240
         (f.ch ≠ .idle → wireWhole bs = false → (t.link n).rx = SMap.set [] c bs l.rx ∧ t.agenda = s.agenda) ∧
         (f.ch ≠ .idle → wireWhole bs = true → (t.link n).rx = SMap.set [] c [] l.rx ∧
           ∀ i, wireInstr n bs = some i → ∃ e ∈ t.agenda, e.act = i ∧ e.due = s.dcc)) ∧
        ((∀ g ∈ l.replay, g.flit.seq ≠ f.ack) → (t.link n).replay = l.replay ∧ (t.link n).resend = sends l.replay) ∧
        (∀ a g b, l.replay = a ++ g :: b → g.flit.seq = f.ack → (∀ x ∈ a, x.flit.seq ≠ f.ack) →
          (t.link n).replay = b ∧ (t.link n).resend = sends b)) ∧
    (s.linkUp n = true → ¬good → whole → l.nakWait = true →
      ∃ t, exec (.flitReceive n f) s = .next t ∧ t.core = s.core ∧ t.link n = { l with lastRx := s.dcc }) ∧
    (s.linkUp n = true → ¬good → (whole → l.nakWait = false) → rx < 15 → tx < 16 →
      ∃ t, exec (.flitReceive n f) s = .next t ∧ t.core = s.core ∧ t.link n =
        { l with lastRx := s.dcc, nakHeld := true, nakWait := true, naks := recentNaks l.naks s.dcc ++ [s.dcc] }) ∧
    (s.linkUp n = true → ¬good → (whole → l.nakWait = false) → rx = 15 →
      ∃ t, exec (.flitReceive n f) s = .next t ∧ (t.link n).width = (if l.width ≤ 2 then 0 else l.width / 2) ∧
        (2 < l.width → (t.link n).retrain = some (s.dcc + 25000) ∧
          ∃ e ∈ t.agenda, e.act = .linkRetrainDone n ∧ e.due = s.dcc + 25000)) ∧
    (l.retrain = some s.dcc → ∃ t, exec (.linkRetrainDone n) s = .next t ∧ t.core = s.core ∧
      t.link n = { l with retrain := none, resend := l.replay, lastRx := s.dcc }) ∧
    (s.linkUp n = true → l.lastRx + 4096 ≤ s.dcc → s.fabric.paths.Pairwise (fun a b => a.1 < b.1) →
      ∃ t, exec (.linkDown n) s = .next t ∧ (t.link n).width = 0 ∧ t.core = s.core ∧ t.fabric.out = s.fabric.out ∧
        ∀ o ∈ s.fabric.out, SMap.find o.node s.fabric.paths = some n.toNat → (∃ m, m ≠ n ∧ s.linkUp m = true) →
          ∃ k, k < 24 ∧ k ≠ n.toNat ∧ SMap.find o.node t.fabric.paths = some k ∧
            o.parcel s.fabric.own ∈ (t.link (BitVec.ofNat 5 k)).queue) ∧
    (s.dcc < l.lastRx + 4096 → exec (.linkDown n) s = .next s) ∧
    (∀ x rest, l.resend = x :: rest → (l.send sh).resend = rest ∧ (l.send sh).replay = l.replay ∧ (l.send sh).queue = l.queue ∧
      (l.send sh).tx = some { x.flit with ack := l.rxNext - 1, nak := l.nakHeld }) ∧
    (l.resend = [] → ∃ x : Sent, (l.send sh).replay = l.replay ++ [x] ∧ (l.send sh).tx = some x.flit ∧ (l.send sh).txNext = l.txNext + 1 ∧
      x.flit.seq = l.txNext ∧ x.flit.ack = l.rxNext - 1 ∧ x.flit.nak = l.nakHeld ∧
      (x.parcel = none → x.flit.ch = .idle ∧ (l.send sh).queue = l.queue) ∧ (512 ≤ l.replay.length ∨ l.queue = [] → x.parcel = none) ∧
      (l.replay.length < 512 → l.queue ≠ [] → sh = false → x.parcel ≠ none) ∧
      (∀ p, x.parcel = some p → p ∈ l.queue ∧ x.flit.ch = p.ch ∧ x.flit.payload = (p.bytes.drop p.gone).take 240 ∧
        (sh = true → p.ch = .mgmt) ∧ (p.bytes.length ≤ p.gone + 240 → (l.send sh).queue = l.queue.erase p) ∧
        (p.gone + 240 < p.bytes.length → { p with gone := p.gone + 240 } ∈ (l.send sh).queue)) ∧
      (l.replay.length < 512 → (∃ p ∈ l.queue, p.ch = .mgmt) → x.flit.ch = .mgmt)) ∧
    ∀ g, l.wire = some g → g.lcrc = crc64 (flitBytes g)

/-- R325, R338, R340, R352, R362, R363, R365 to R367, R370, R371: an inbound write of device memory that a window grants writes its
bytes and no other, a read is answered with the bytes, and what no window grants is rejected; a failed check is sent again, the
third leaves poison, nothing of a fenced device is applied, one waits behind the first of its source, channel and class, and an
acknowledgement ends its transaction, or, with a check that fails, is asked for again. Management writes set their registers,
and those of other nodes are dropped and logged; a consumer index lets held records go. A launch restored into another partition
has V clear in h1 to h15 of its contexts. What a failed transaction's answer is, and that what was sent before the removal of a
fence is dropped, are the model's reading (DEDUCED, log entry 81); the register that asks for a restore is the model's (DESIGN
CHOICE, log entry 51). -/
def Obligations.FabricTransactions : Prop :=
  ∀ (s : State) (x : Txn) (id : Nat) (ans : TxnReply) (data : List Byte) (p : BitVec 4) (vf : BitVec 7) (node : BitVec 11)
      (hci : BitVec 32) (r : MgmtReg) (v : Word) (port : BitVec 2),
    let a := x.off.toNat
    let open_ := x.ch = .peer ∧ x.snode.toNat < 1024 ∧ s.shut = false ∧ s.fabric.fenced.contains x.snode.toNat = false ∧ x.stale = false ∧
      x.kind ≠ .again
    let admitted := open_ ∧ s.waitsBehind x = false
    let whole := (s.checkTxn x).1
    let tells := fun (t : State) (code : Nat) (bs : List Byte) =>
      t.fabric.sent = s.fabric.sent ++ [(x.snode.toNat, BitVec.ofNat 64 code :: wordsOfBytes bs)]
    let done : Nat × List Word := (node.toNat, [1])
    (admitted → whole = true → s.accepts x = true → s.lineWaits a = false → s.txnWaits x = none → Mem.wf s.mem = true →
      (∀ bs, x.kind = .write bs → ∃ t, exec (.fabricTransaction x) s = .next t ∧ tells t 1 [] ∧ t.core = s.core ∧
        ∀ y, t.mem.read y = if a ≤ y ∧ y < a + bs.length then bs.getD (y - a) 0 else s.mem.read y) ∧
      (∀ n, x.kind = .read n → ∃ t, exec (.fabricTransaction x) s = .next t ∧ SameBytes s t ∧
        ((s.consume a n false).1 = none → tells t 1 (s.peekBytes a n)) ∧ ((s.consume a n false).1 ≠ none → tells t 4 []))) ∧
    (admitted → whole = true → ∀ w, s.txnWaits x = some w → ∃ t, exec (.fabricTransaction x) s = .next t ∧ t.core = s.core ∧ SameBytes s t ∧
      t.fabric.sent = s.fabric.sent ∧ x ∈ t.fabric.heads ∧ ∃ e ∈ t.agenda, e.act = .fabricTransaction x) ∧
    (open_ → s.waitsBehind x = true → exec (.fabricTransaction x) s = .next (s.onFabric fun b => { b with behind := b.behind ++ [x] })) ∧
    (admitted → whole = true → s.accepts x = false → ∃ t, exec (.fabricTransaction x) s = .next t ∧ tells t 2 [] ∧ t.core = s.core ∧
      SameBytes s t) ∧
    (admitted → whole = false → x.tries < 3 → ∃ t, exec (.fabricTransaction x) s = .next t ∧ tells t 3 [] ∧ t.core.arch = s.core.arch ∧
      SameBytes s t ∧ x ∈ t.fabric.heads) ∧
    (admitted → whole = false → 3 ≤ x.tries →
      (∀ n, x.kind = .read n → ∃ t, exec (.fabricTransaction x) s = .next t ∧ tells t 4 [] ∧ SameBytes s t) ∧
      (∀ bs, x.kind = .write bs → s.accepts x = true → ∃ t, exec (.fabricTransaction x) s = .next t ∧ tells t 1 [] ∧ SameBytes s t ∧
        ∀ w ∈ wordsIn a bs.length, w ∈ t.poison)) ∧
    (x.ch = .peer ∨ x.ch = .host → s.shut = true ∨ s.fabric.fenced.contains x.snode.toNat = true ∨ x.stale = true →
      exec (.fabricTransaction x) s = .next s) ∧
    (s.fabric.out.find? (fun o => o.id == id) = none → exec (.transactionAck id ans data) s = .next s) ∧
    (∀ o, s.fabric.out.find? (fun o => o.id == id) = some o →
      (s.checkAnswer o ans data = true → ans.verdict = .resend → ∃ t, exec (.transactionAck id ans data) s = .next t ∧ t.core = s.core ∧
        SameBytes s t ∧ ∃ y ∈ t.fabric.out, y.id = id ∧ y.bad = false ∧ y.kind = o.kind ∧ y.access = o.access ∧ y.tries = o.tries + 1) ∧
      (s.checkAnswer o ans data = false → ans.tries < 3 → ∃ t, exec (.transactionAck id ans data) s = .next t ∧ t.core = s.core ∧
        SameBytes s t ∧ t.fabric.out = s.fabric.out ∧ t.fabric.sent = s.fabric.sent)) ∧
    (∀ o c, s.fabric.out.find? (fun o => o.id == id) = some o → s.pubs.find? (fun q => q.id == o.access) = none →
      (s.checkAnswer o ans data = true ∧ ans.verdict = .done ∨ s.checkAnswer o ans data = false ∧ 3 ≤ ans.tries) → s.core.isCtx o.launch o.lcore = true → s.core.io.find? (fun b => b.id == o.access) = some c → c.kind = .st →
      ∃ t, exec (.transactionAck id ans data) s = .next t ∧ (∀ y ∈ t.fabric.out, y.id ≠ id) ∧
        (∀ b ∈ t.core.io, b.id ≠ c.id) ∧ t.core.arch = s.core.arch ∧ SameBytes s t) ∧
    Drops node (.fenceWordWrite ⟨node, v⟩) s ∧ Drops node (.rtloadWrite ⟨node, p⟩) s ∧ Drops node (.mgmtRegisterWrite node r) s ∧
    (s.manages node = true → ∃ t, exec (.fenceWordWrite ⟨node, v⟩) s = .next t ∧ t.fabric.sent.getLast? = some done ∧
      ((∀ o ∈ s.fabric.out, o.node ≠ (v.extractLsb' 0 10).toNat) → t.mem = s.mem ∧ t.cxl = s.cxl ∧ t.disp = s.disp ∧
        t.fabric.out = s.fabric.out) ∧
      (v.getLsbD 63 = true → (v.extractLsb' 0 10).toNat ∈ t.fabric.fenced ∧
        (∀ n ∈ s.fabric.fenced, n ∈ t.fabric.fenced) ∧
        ∀ y ∈ t.fabric.heads ++ t.fabric.behind, y.snode.toNat = (v.extractLsb' 0 10).toNat → y.ch = .mgmt) ∧
      (v.getLsbD 63 = false → t.fabric.fenced = s.fabric.fenced.filter fun n => n != (v.extractLsb' 0 10).toNat)) ∧
    (s.manages node = true → ∃ t, exec (.rtloadWrite ⟨node, p⟩) s = .next t ∧ (t.part p).rtcache = [] ∧ t.core = s.core ∧ SameBytes s t ∧
      (∀ o ∈ s.fabric.out, o.rank = true → o.part = p → ∃ w ∈ t.fabric.rtwait, w.1 = p.toNat ∧ w.2.1 = node ∧ o.id ∈ w.2.2) ∧
      ((∀ o ∈ s.fabric.out, o.rank = true → o.part ≠ p) → done ∈ t.fabric.sent)) ∧
    (∀ d, SMap.find vf.toNat s.fabric.vfs = some d → s.fabric.vfs.Pairwise (fun a b => a.1 < b.1) →
      (d.hnode ≠ node → exec (.hciWrite vf node hci) s = .next s) ∧
      (d.hnode = node → d.held = [] → ∃ t, exec (.hciWrite vf node hci) s = .next t ∧ t.core = s.core ∧
        SMap.find vf.toNat t.fabric.vfs = some { d with hci := hci } ∧ t.fabric.sent = s.fabric.sent) ∧
      (∀ w rest, d.hnode = node → d.held = w :: rest → (d.posted - hci).toNat < 2 ^ d.lgn →
        ∃ t e, exec (.hciWrite vf node hci) s = .next t ∧ t.core = s.core ∧ SMap.find vf.toNat t.fabric.vfs = some e ∧ e.hci = hci ∧
          e.held.length ≤ rest.length ∧ (∃ o ∈ t.fabric.out, o.id = w.id ∧ o.isRecord = true ∧ o.node = d.hnode.toNat) ∧
          ∃ more : List (Nat × List Word), t.fabric.sent = s.fabric.sent ++ more ∧ (more.head?.map fun m => m.2.drop 1) = some w.words)) ∧
    (s.manages node = true →
      (∀ w, ∃ t, exec (.mgmtRegisterWrite node (.actdef p w)) s = .next t ∧ (t.part p).actdef = w ∧ t.core = s.core ∧ t.disp = s.disp) ∧
      (∀ w, ∃ t, exec (.mgmtRegisterWrite node (.allowance p w)) s = .next t ∧ (t.part p).allow = w ∧ (t.part p).hostAllow = w ∧
        t.core = s.core) ∧
      (∀ q seq dst l ps u, s.disp.launches.find? (fun l => l.part == p && l.queue == q && l.seq == seq) = some l →
        s.poolsUnder vf l.pools = (some ps, u) → u.movable l dst vf = true →
        ∃ t, exec (.mgmtRegisterWrite node (.restore p q seq dst vf)) s = .next t ∧ t.core.arch = s.core.arch ∧ SameHbm s t ∧
          t.saved.map Core.pc = s.saved.map Core.pc ∧
          ∀ c ∈ t.saved, c.launch = l.id → c.part = dst ∧ c.vf = vf ∧ ∀ h : HReg, h ≠ 0 → (c.arch.hreg h).v = false)) ∧
    let fs := s.himos.cxlFailed
    exec (.cxlDeviceFailed port) s =
      .next { s with himos := { s.himos with cxlFailed := if fs.contains port.toNat then fs else fs ++ [port.toNat] } }

/-- R362, R372 to R375: a descriptor of a managing host that holds up, of an engine that is there and has room, is taken, and its
stream begins with the first frame whose start is not past; one that does not hold up is turned away and not valid, VALID or
not. A frame start takes a frame into the stream, and arms the next; one whose start comes before an earlier header of the
stream has been written is a SKIP, whose own header comes 17 cycles on or later. A frame that is complete has its header written
and its record posted. A write replaces the frames under way, and the function that hears of a stream on stamps is the
partition's lowest-numbered valid one (DESIGN CHOICE, log entry 26). -/
def Obligations.EncodeStreams : Prop :=
  ∀ (s : State) (node : BitVec 11) (p : BitVec 4) (slot : BitVec 5) (w0 w1 w2 w3 w4 : Word), s.encs.Pairwise (fun a b => a.1 < b.1) →
    let key := encKey p slot.toNat
    let e := Enc.fresh w0 w1 w2 w3 w4
    let write : Instr := .encoderSlotWrite ⟨node, p⟩ slot w0 w1 w2 w3 w4
    let fits := s.himos.config.encoders.getLsbD p.toNat = true ∧ s.encLoad p slot.toNat + e.load ≤ 737280000
    Drops node write s ∧
    (s.manages node = true → ∃ t, exec write s = .next t ∧ t.core = s.core ∧ SameBytes s t ∧
      (e.ok p = false ∨ (w0.getLsbD 63 = true ∧ ¬fits) → ∃ x, SMap.find key t.encs = some x ∧ x.w0.getLsbD 63 = false ∧
        s.himos.logSeq < t.himos.logSeq) ∧
      (e.ok p = true → w0.getLsbD 63 = false → SMap.find key t.encs = some e ∧ t.himos = s.himos) ∧
      (e.ok p = true → w0.getLsbD 63 = true → fits → ∃ k, SMap.find key t.encs = some { e with frame := k } ∧
        (w0.getLsbD 60 = true → k = 0) ∧ (w0.getLsbD 60 = false → s.dcc ≤ w2.toNat → k = 0) ∧
        (w0.getLsbD 60 = false → w2.toNat < s.dcc → s.dcc ≤ w2.toNat + k * e.fperiod ∧ w2.toNat + (k - 1) * e.fperiod < s.dcc) ∧
        (w0.getLsbD 60 = false → ∃ x ∈ t.agenda, x.act = .frameStart p slot ∧ x.due = max s.dcc (w2.toNat + k * e.fperiod - 16)))) ∧
    (∀ c, SMap.find key s.encs = some c → c.w0.getLsbD 63 = true →
      let start := if c.w0.getLsbD 60 then s.dcc + 16 else c.w2.toNat + c.frame * c.fperiod
      ∃ t x f, exec (.frameStart p slot) s = .next t ∧ t.core = s.core ∧ SameBytes s t ∧ SMap.find key t.encs = some x ∧
        x.frame = c.frame + 1 ∧ x.frames = c.frames ++ [f] ∧ f.k = c.frame ∧ f.start = start ∧ f.rk = none ∧ f.due = none ∧ f.skip = false ∧
        (c.w0.getLsbD 60 = false → ∃ y ∈ t.agenda, y.act = .frameStart p slot ∧
          y.due = max s.dcc (c.w2.toNat + (c.frame + 1) * c.fperiod - 16))) ∧
    (∀ c, SMap.find key s.encs = some c → (c.frames.map EncFrame.k).Nodup → (∀ x ∈ s.encs, x.1 < 512) →
      ∃ x, SMap.find key s.skipFrames.encs = some x ∧ x.frames.length = c.frames.length ∧
        ∀ (i : Nat) (f : EncFrame), c.frames[i]? = some f → ∃ g, x.frames[i]? = some g ∧ g.k = f.k ∧ g.start = f.start ∧
          let late := ∃ h ∈ c.frames, h.k < f.k ∧ ∀ d, h.due = some d → f.start < d
          (f.start = s.dcc → late → g.skip = true ∧ g.rk = none ∧ ∃ d, g.due = some d ∧ s.dcc + 17 ≤ d ∧
            ∃ y ∈ s.skipFrames.agenda, y.act = .frameComplete p slot ∧ y.due = d) ∧
          (f.start ≠ s.dcc ∨ ¬late → g = f)) ∧
    (SMap.find key s.encs = none → exec (.frameStart p slot) s = .next s ∧ exec (.frameComplete p slot) s = .next s) ∧
    (∀ c f d, SMap.find key s.encs = some c → c.frames = [f] → f.due = some d → d ≤ s.dcc → f.skip = true → Mem.wf s.mem = true →
      let at_ := c.obase + f.k % c.nout * c.slotSize
      ∃ t x h w, exec (.frameComplete p slot) s = .next t ∧ SMap.find key t.encs = some x ∧ x.frames = [] ∧ t.core = s.core ∧
        h = leBytes 8 (2 ^ 32 + f.k % 2 ^ 32) ++ leBytes 8 0 ++ leBytes 8 (f.start % 2 ^ 64) ++ leBytes 8 0 ∧
        t.fabric = (s.post (s.streamVf p c) 9 false [w, BitVec.ofNat 64 f.start, BitVec.ofNat 64 (2 ^ 32)]).fabric ∧
        w.extractLsb' 0 32 = BitVec.ofNat 32 f.k ∧ w.extractLsb' 32 5 = slot ∧
        (isHbm at_ = true → s.resident at_ = true → at_ % 128 ≤ 96 →
          ∀ y, t.mem.read y = if at_ ≤ y ∧ y < at_ + 32 then h.getD (y - at_) 0 else s.mem.read y))

/-- R342, R376 to R379, R382: the mailbox commands clear BUSY and leave the status, the response's length and its bytes: a request
of another length than the command's is refused, and so is LOAD_RECOVERY unless both slots failed; UPDATE_ACTIVATE refuses an
image that does not authenticate or is below the minimum. A refresh comes every 2^20 cycles, and lowers every allowance where a
sensor reads 105 °C or more; a trip, or the loss of power, drops every memory but the second tier's and what is in flash, and
one in the middle of an update leaves the running slot preferred. At power-up the preferred slot boots if it may, the other one
otherwise, and the device is held where neither may; until its cores leave reset, with the DCC 0, it serves the management
channel alone, its links run and its sensors are read. How long that takes is open (DESIGN CHOICE, log entry 54); the widths of
the signed records' fields, and the order of a command's checks, are the model's (DESIGN CHOICE, log entry 27). -/
def Obligations.ManagementCommands : Prop :=
  ∀ (s : State) (req : List Byte) (caps : List Nat),
    let h := s.himos
    let answers := fun (i : Instr) (st : Nat) (bs : List Byte) (f : Himos → Himos) =>
      ∃ d : Word, exec i s = .next { s with himos := { f h with response := bs, door := d } } ∧
        (bs.length < 2 ^ 16 → d.getLsbD 63 = false ∧ d.extractLsb' 32 16 = BitVec.ofNat 16 st ∧
          (d.extractLsb' 16 16).toNat = bs.length ∧ d.extractLsb' 0 8 = h.door.extractLsb' 0 8)
    let plain := fun (i : Instr) (bs : List Byte) => (req.length ≠ 0 → answers i 2 [] id) ∧ (req.length = 0 → answers i 0 bs id)
    let down := fun (t : State) => t.himos.railsUp = false ∧ (∀ a, t.mem.read a = 0) ∧ t.cxl = s.cxl ∧ t.core.ls.mem = [] ∧
      t.disp = State.reset.disp ∧ t.agenda = [] ∧ t.himos.slots = h.slots ∧ t.himos.booted = h.booted ∧
      t.himos.preferred = (if h.door.getLsbD 63 = true ∧ (h.door.extractLsb' 0 8 = 7 ∨ h.door.extractLsb' 0 8 = 8) then h.booted
        else h.preferred) ∧
      t.himos.config = h.config ∧ t.himos.minVersion = h.minVersion
    let i := 1 - h.booted
    let f := h.slots.toList.getD i ⟨[], 0, 0, false⟩
    plain (.status req) (h.reasons.toList.flatMap fun r => leBytes 4 r) ∧
    (∃ bs, plain (.readId req) bs) ∧
    (req.length ≠ 8 → answers (.readLog req) 2 [] id) ∧
    (req.length = 8 → ∃ bs, answers (.readLog req) 0 bs id ∧ bs.length ≤ 4096 ∧ bs.length % 32 = 0) ∧
    plain (.readSensors req) (h.sensors.flatMap fun w => leBytes 4 w.toNat) ∧
    (req.length ≠ 32 → answers (.attest req) 2 [] id) ∧
    (req.length = 32 → ∃ rest, answers (.attest req) 0 (req ++ leBytes 8 h.config.serial.toNat ++ rest) id) ∧
    (∃ bs, plain (.readConfig req) bs) ∧
    (h.reasons.get 0 = 0 ∨ h.reasons.get 1 = 0 → answers (.loadRecovery req) 1 [] id) ∧
    (h.reasons.get 0 ≠ 0 → h.reasons.get 1 ≠ 0 → if Config.authentic req then
      answers (.loadRecovery req) 0 [] fun m => { m with recovery := true } else answers (.loadRecovery req) 3 [] id) ∧
    (req.length < 4 ∨ 4092 < req.length → answers (.updateWrite req) 2 [] id) ∧
    (4 ≤ req.length → req.length ≤ 4092 → i < 2 → Mem.wf f.image = true → ∃ g : FwSlot,
      answers (.updateWrite req) 0 [] (fun m => { m with slots := m.slots.set! i g }) ∧
      let o := leNat (req.take 4)
      ∀ a, g.image.read a = if o ≤ a ∧ a < o + (req.length - 4) then req.getD (4 + a - o) 0 else f.image.read a) ∧
    (req = [] → answers (.updateActivate req) 2 [] id) ∧
    (req ≠ [] → (f.good = false → answers (.updateActivate req) 3 [] id) ∧
      (f.good = true → f.version < h.minVersion → answers (.updateActivate req) 4 [] id) ∧
      (f.good = true → h.minVersion ≤ f.version → answers (.updateActivate req) 0 [] fun m =>
        { m with preferred := i, minVersion := if leNat req % 2 = 1 then f.version else m.minVersion })) ∧
    (∃ t, exec .sensorRefresh s = .next t ∧ t.core = s.core ∧ SameBytes s t ∧ t.himos.sensors.length = 320 ∧
      (∀ k, k < 320 → (t.himos.sensors.getD k 0).extractLsb' 28 3 = if Config.sensorPower k then 1 else 0) ∧
      (∃ e ∈ t.agenda, e.act = .sensorRefresh ∧ e.due = s.dcc + 2 ^ 20) ∧
      (hotterThan t.himos.sensors 105 = true → ∀ p, (t.part p).allow.toNat = (s.part p).allow.toNat - 1) ∧
      (hotterThan t.himos.sensors 105 = false → t.parts = s.parts) ∧
      (hotterThan t.himos.sensors 115 = true → ∃ e ∈ t.agenda, e.act = .thermalTrip ∧ e.due = s.dcc)) ∧
    (∃ t, exec .thermalCoolRaise s = .next t ∧ t.core = s.core ∧ SameBytes s t ∧
      (∃ e ∈ t.agenda, e.act = .thermalCoolRaise ∧ e.due = s.dcc + 2 ^ 24) ∧
      (hotterThan h.sensors 95 = true → t.parts = s.parts) ∧
      (hotterThan h.sensors 95 = false → ∀ p, (t.part p).allow =
        if (s.part p).allow < (s.part p).hostAllow then (s.part p).allow + 1 else (s.part p).allow)) ∧
    (∃ t, exec .thermalTrip s = .next t ∧ down t ∧ ∃ r ∈ t.himos.log, r.seq = h.logSeq) ∧
    (∃ t, exec .powerLoss s = .next t ∧ down t ∧ t.himos.log = h.log) ∧
    (h.railsUp = true → exec (.powerUp caps) s = .next s) ∧
    (h.railsUp = false → ∃ t, exec (.powerUp caps) s = .next t ∧ t.core = s.core ∧ SameBytes s t ∧ t.himos.railsUp = true ∧
      (∃ e ∈ t.agenda, e.act = .sensorRefresh ∧ e.due = s.dcc) ∧ (∃ e ∈ t.agenda, e.act = .thermalCoolRaise ∧ e.due = s.dcc + 2 ^ 24) ∧
      1 ≤ t.himos.bring ∧ t.himos.power = h.power + 1 ∧ t.himos.cxlCaps = caps.take 4 ∧
      let ok := fun (k : Nat) => (h.slots.toList.getD k ⟨[], 0, 0, false⟩).good = true ∧
        h.minVersion ≤ (h.slots.toList.getD k ⟨[], 0, 0, false⟩).version
      (ok h.preferred → t.himos.booted = h.preferred) ∧ (¬ok h.preferred → t.himos.booted = 1 - h.preferred) ∧
      (t.himos.held = false ↔ (ok h.preferred ∨ ok (1 - h.preferred)) ∧ h.configGood = true ∧ h.rollback ≤ h.config.version)) ∧
    (let t := s.coresLeave
     t.dcc = 0 ∧ (∀ a, t.mem.read a = 0) ∧ t.cxl = s.cxl ∧ t.disp = State.reset.disp ∧ t.core = State.reset.core ∧
       (∀ n : BitVec 5, n.toNat < 24 → (t.link n).queue = (s.link n).queue ∧ (t.link n).replay = (s.link n).replay) ∧
       t.himos = { h with bring := 0, opens := t.himos.opens } ∧ (∃ e ∈ t.agenda, e.act = .scannerTick ∧ e.due = 4) ∧
       (∀ e ∈ s.agenda, ∃ f ∈ t.agenda, f.act = e.act ∧ f.due = e.due - s.dcc) ∧
       ∀ p, (t.part p).tierPages = min h.cxlCaps.sum (8192 * 2 ^ 30) / 16 / 4096) ∧
    (h.railsUp = true → h.bring ≠ 0 →
      (∀ e, s.inputs.find? (fun e => decide (e.due ≤ s.dcc)) = some e →
        let u := { s with inputs := s.inputs.erase e }
        (servedInBringUp e.act = true → step s = exec e.act u) ∧
        (servedInBringUp e.act = false → (∀ c, e.act ≠ .powerUp c) → step s = .next u)) ∧
      (s.inputs.find? (fun e => decide (e.due ≤ s.dcc)) = none → s.dueBelow 5000 = none →
        let u := { s.linkTick with dcc := s.dcc + 1 }
        (h.bring = 1 → step s = .next u.coresLeave) ∧
        (1 < h.bring → step s = .next { u with himos := { h with bring := h.bring - 1 } })))

/-! Encodings. -/

/-- R72, R73, R78 to R86: every well-formed instruction that an instruction word encodes is decoded from its encoding again, with
every operand at every value and under every end bit and guard that it admits. -/
def Obligations.InstructionWordRoundTrip : Prop :=
  ∀ (i : Instr) (op body : Nat), wellFormed i = true → encode i = some (.word op body) →
    op < 2 ^ 7 ∧ body < 2 ^ 52 ∧ ∀ (e : Bool) (pg : Pred) (pn : Bool), (guardFree i = true → pg = 0 ∧ pn = false) →
      ∃ y, decodeSlot (headWord e pg pn op body) = .ok y ∧ y.instr = i ∧ y.e = e ∧ y.pg = pg ∧ y.pn = pn

/-- R72, R79, R81: a word that decodes to an instruction is that instruction's encoding, bit for bit, and the instruction is
well-formed: no two words differ only in bits that the decoder ignores, and the decoder accepts no field outside its limits. -/
def Obligations.DecodedWordsAreEncodings : Prop :=
  ∀ (w : Word) (y : Slot), decodeSlot w = .ok y → y.word = w ∧
    ((∃ v, y.instr = .unassignedOpcode v) ∨ (wellFormed y.instr = true ∧ (guardFree y.instr = true → y.pg = 0 ∧ y.pn = false) ∧
      ∃ op body, encode y.instr = some (.word op body) ∧ w = headWord y.e y.pg y.pn op body))

/-- R85 to R88, R191: the same of chisel words, and of the records that start a command: each well-formed one is decoded from its
encoding, and what is decoded is well-formed and encoded as what it was decoded from. -/
def Obligations.ChiselAndRecordRoundTrip : Prop :=
  (∀ (i : Instr) (n : Nat), wellFormed i = true → encode i = some (.chisel n) →
    n < 2 ^ 32 ∧ decodeChisel (BitVec.ofNat 32 n) = .ok i) ∧
  (∀ (w : Word32) (i : Instr), decodeChisel w = .ok i → wellFormed i = true ∧ encode i = some (.chisel w.toNat)) ∧
  (∀ (i : Instr) (r : CmdRec), wellFormed i = true → encode i = some (.record r) → ∃ q, decodeRecord q r = some i) ∧
  ∀ (q : Queue) (r : CmdRec) (i : Instr), decodeRecord q r = some i → wellFormed i = true ∧ encode i = some (.record r)

/-- R72 to R88: the words that the spec writes out decode to what it says they are. -/
def Obligations.WordsOfTheSpec : Prop :=
  let is := fun (w : Word) (i : Instr) => Except.toOpt (decodeWord w) = some i
  is 0x8011400000000007 (.addi 5 0 7) ∧ is 0x81910520FFFFFFFD (.bcmp 4 5 .lt (-3)) ∧ is 0x82028B0000000000 (.mpush 10 11) ∧
    is 0x81130D3800020000 (.fadd 12 13 14 .rtz false) ∧ is 0x8380000030000FA0 (.region 4000 0b0011) ∧
    is 0x8390000004000000 (.commit .device) ∧ is 0x828008A0C0000000 (.xlate 2 10 ⟨true, true, false⟩) ∧
    is 0x82B1887080000040 (.ld 6 ⟨2, 7, 0, 0x40⟩ .w false false) ∧ is 0x82C20C93D0000008 (.st 8 ⟨3, 9, 3, 8⟩ .d true) ∧
    is 0x82E01000C1400010 (.amop ⟨4, 0, 0, 0x10⟩ .d 5 .add) ∧ is 0x83A0000004000003 (.fence .device 3) ∧
    is 0x83B000A200000000 (.arrive 5 2) ∧ is 0x83C000A200000000 (.waitrv 5 2) ∧ is 0x8421800000000000 (.waitc 12) ∧
    is 0x848A000030000000 (.qpush .qm 3 40) ∧ is 0x8490145400000005 (.qpusht .qm 0 5 20 21) ∧ is 0x8601400380000000 (.csrr 5 .numf) ∧
    is 0x8620000000000077 (.trap 0x77) ∧ is 0x8640000000000000 .halt ∧ is 0x84D3000000000025 (.layer 37 12) ∧
    is 0x8672400000000000 (.lsstep 9)

/-! The step and the state. -/

/-- R10, R33, R73 to R77, R92 to R95, R157, R190, R320, R321, R345: what one step runs. A listed instruction, and work that is due,
run as `exec` runs them; so does the chisel word at which an element stands. A bundle of the context whose turn it is, with no
fault of decoding and its hazards free, runs each slot with a true guard as `exec` of what its word decodes to, on the state
that stands behind the bundle; what a trap of the bundle undoes is undone, and a bundle whose page walk meets a page that fails
later waits for it. The firmware context goes first; a context that was stopped in a blocking bundle issues only its blocking
instructions again. The record at the head of a queue whose cycle has come is the command that it decodes to. The order of the
phases of a cycle, and one instruction a step, are the model's (DESIGN CHOICE, log entries 1 and 82). -/
def Obligations.StepRunsTheDecodedInstruction : Prop :=
  ∀ s : State, s.himos.railsUp = true → s.himos.bring = 0 → s.listed = true →
    (∀ t rest, s.todo = t :: rest → t.phys = s.core.phys → step s = exec t.act { s with todo := rest }) ∧
    (∀ e, s.todo = [] → s.phase = .events → s.dueBelow 4000 = some e → e.target = .chip ∨ e.target = s.me →
      step s = exec e.act { s with agenda := s.agenda.erase e }) ∧
    (∀ j js i, s.todo = [] → s.phase = .lanes → s.physList.head? = some s.core.phys → s.core.eng.jobs = j :: js →
      decodeChisel (j.prog.getD j.pc 0) = .ok i → step s = exec i s) ∧
    (∀ a b, s.todo = [] → s.phase = .issue → s.physList = a ++ s.core.phys :: b → (∀ n ∈ a, (s.focusPhys n).issue = none) →
      s.core.issued ≠ s.dcc + 1 →
      (s.firmwareMay = true → ∀ ws u, s.enterFirmware.fetchBundle = (.words ws, u) → bundleFaults false ws = [] →
        u.hazardFree ((slotsIn ws).map (·.2)) = true → step s = mapOut s.leaveFirmware (u.runBundle ws)) ∧
      (s.issueFirmware = none → s.firmware = false → s.core.life = .running → s.held = false → s.core.hz.issueAt ≤ s.dcc → s.core.trap = none →
        s.core.replay.access = none →
        (s.core.reissue = false → (∀ l, s.core.layer = some l → s.core.pc.toNat / 8 < l.words.length) →
          ∀ ws s', s.fetchBundle = (.words ws, s') → bundleFaults true ws = [] → s'.hazardFree ((slotsIn ws).map (·.2)) = true →
          s'.pushHolds ((slotsIn ws).map (·.2)) = false →
          s'.core.arch = s.core.arch ∧ s'.core.pc = s.core.pc ∧ s'.dcc = s.dcc ∧ SameHbm s s' ∧ step s = s'.runBundle ws ∧
          ∀ v w y, ws = [(v, w)] → decodeSlot w = .ok y →
            let u := s'.beginBundle (v + 8)
            let u := { u with core := { u.core with wpc := v, wword := w } }
            u.core.pc = v + 8 ∧ u.core.pre = s.core.arch ∧
            (s.core.arch.preg y.pg ≠ y.pn →
              (∀ t, exec y.instr u = .next t → t.core.trap = none → (s.core.walk = none → t.core.walk = none) →
                ∃ z, step s = .next z ∧ Follows t z) ∧
              (∀ t n, exec y.instr u = .next t → t.core.trap = none → s.core.walk = none → t.core.walk = some n → ∃ z, step s = .next z ∧
                z.core.arch = s.core.arch ∧ z.core.pc = s.core.pc ∧ z.core.walk = some n ∧ n ≤ z.core.hz.issueAt ∧ z.mem = s'.mem) ∧
              (∀ f, exec y.instr u = .fault f → step s = .fault f) ∧
              (∀ t x, exec y.instr u = .next t → t.core.trap = some x → ∃ z, step s = .next z ∧
                z.core.trap.map TrapRec.cause = some x.cause ∧ z.core.arch = s.core.arch ∧ z.core.pc = s.core.pc ∧ z.core.acc = s.core.acc ∧
                z.core.ls = s.core.ls ∧ z.core.held = s.core.held ∧ z.core.io = s.core.io ∧ z.disp = s.disp ∧ z.mem = t.mem)) ∧
            (s.core.arch.preg y.pg = y.pn → ∃ z, step s = .next z ∧ Follows (u.falseSlot y.instr) z)) ∧
        (∀ w, s.core.reissue = true → s.core.blocked = [w] →
          let u := { s with core := { s.core with
            issued := s.dcc + 1, trap := none, wpc := w.wpc, wword := w.wword, bend := s.core.pc, hz := { s.core.hz with issueAt := s.dcc + 1 } } }
          ∀ t, exec w.act u = .next t → t.core.trap = none → ∃ z, step s = .next z ∧
            z = { t with core := { t.core with
              trap := none, reissue := false, cruiser := z.core.cruiser, reg := { t.core.reg with digest := z.core.reg.digest } } }))) ∧
    ∀ q e rest i, s.core.eng.queues.toList.getD q.code [] = e :: rest → e.gone = false → e.waiting = false → e.startAt = none →
      s.nominal e.r = s.dcc → decodeRecord q e.r = some i → s.headTask q = some i

/-- Every step, whatever it runs, keeps every memory of the machine in its one canonical form, so that equal memories are equal
data. -/
def Obligations.StepKeepsMemoriesCanonical : Prop :=
  ∀ s t : State, s.canonical → step s = .next t → t.canonical

/-- The machine after reset has its memories in the canonical form. -/
def Obligations.ResetIsCanonical : Prop :=
  State.reset.canonical

/-- R11 to R15, R21, R26, R33, R302, R378, R380: what reset leaves: DCC 0; on every core no context, no region, no trap, no command
queued or running and an idle array, s0 and p0 read as zero and true, the mask stack is empty and reads as all ones, h0 is the
window onto the local store and V is clear in h1 to h15, accumulators are EMPTY and read as zero, the local store reads as zero
with its tag words 0, and the control registers are those of a launch, with FSHARE 8; no queue is enabled, no launch is known,
no encoder stream is valid, and the only work of the machine is the scanner's, the sensors' and the allowances'. That no launch
is placed, and what a register of a core holds that has no reset value, are the model's choice (DESIGN CHOICE, log entries 2 and
3). -/
def Obligations.ResetState : Prop :=
  let s := State.reset
  s.dcc = 0 ∧ s.phase = .events ∧ s.disp.launches = [] ∧ s.disp.queues = [] ∧ s.disp.slots = [] ∧ s.disp.microcode = [] ∧ s.encs = [] ∧
    s.saved = [] ∧ s.inputs = [] ∧ s.upsets = [] ∧ s.lines = [] ∧ s.poison = [] ∧ (∀ a, s.peek a = 0) ∧ s.himos.railsUp = true ∧ s.himos.bring = 0 ∧
    s.agenda.map Ev.act = [.scannerTick, .sensorRefresh, .thermalCoolRaise] ∧
    ∀ n, n < 448 →
      let c := (s.focusPhys n).core
      let a := c.arch
      c.phys = n ∧ c.part.toNat = n / 28 ∧ c.life = .idle ∧ c.mode = .user ∧ c.reg.isOpen = false ∧ c.trap = none ∧ c.io = [] ∧ c.waits = [] ∧
        (∀ r, a.sreg r = 0) ∧ (∀ p, a.preg p = (p == 0)) ∧ a.mask = [] ∧ a.mtop = BitVec.allOnes 128 ∧
        a.hreg 0 = ⟨true, true, true, true, 0, 0, 0⟩ ∧ (∀ h : HReg, h ≠ 0 → (a.hreg h).v = false) ∧
        (∀ i : Fin 4, (c.acc.get i).tag = 0 ∧ ∀ j k, (c.acc.get i).at j k = 0) ∧
        (∀ o, c.ls.mem.read o = 0) ∧ (∀ i : Fin 96, c.ls.tags.get i = ⟨false, 0, 0⟩) ∧
        c.stat = ⟨0, 0, 0, 0, false, 0, 0, 0, 0, 0⟩ ∧ a.csr.numf = 0 ∧ a.csr.srseed = 0 ∧ a.csr.steptag = 0 ∧ a.csr.relim = 3 ∧
        a.csr.lscale = 0x3F800000 ∧ a.csr.hold = 0 ∧ a.csr.shapeg = 3 ∧ c.fshare = 8 ∧ c.errinjA = 0 ∧ c.errinjC = 0 ∧
        c.eng.queues = Vector.replicate 6 [] ∧ c.eng.runs = [] ∧ c.eng.array.ramp = .idle ∧ c.eng.array.burstN = 0
end

