-- ==== Sys2Proof/Laws/Encoding.lean ====
section
/-! SUPPORT. What cutting a word into fields and putting fields together do to each other (R72, R78, R85), and what that says
of a word whose fields are known. -/

namespace Sys2Proof

/-- Every field fits its width. -/
def Fits : List Nat → List Nat → Prop
  | l :: ls, v :: vs => v < 2 ^ l ∧ Fits ls vs
  | [], [] => True
  | _, _ => False

theorem joinFields_lt : ∀ ls vs, joinFields ls vs < 2 ^ widthSum ls
  | [], vs => by cases vs <;> simp [joinFields, widthSum]
  | l :: ls, [] => by simp [joinFields, widthSum]
  | l :: ls, v :: vs => by
    have h := joinFields_lt ls vs
    have hv : v % 2 ^ l < 2 ^ l := Nat.mod_lt _ (by positivity)
    simp only [joinFields, widthSum, pow_add]
    calc v % 2 ^ l * 2 ^ widthSum ls + joinFields ls vs
        < v % 2 ^ l * 2 ^ widthSum ls + 2 ^ widthSum ls := by omega
      _ = (v % 2 ^ l + 1) * 2 ^ widthSum ls := by ring
      _ ≤ 2 ^ l * 2 ^ widthSum ls := Nat.mul_le_mul_right _ hv

/-- Multiples of the weight of the leading field do not reach the others. -/
theorem splitFields_mod : ∀ ls n k, splitFields ls (k * 2 ^ widthSum ls + n) = splitFields ls n
  | [], _, _ => rfl
  | l :: ls, n, k => by
    have h : k * 2 ^ widthSum (l :: ls) + n = (k * 2 ^ l) * 2 ^ widthSum ls + n := by
      simp only [widthSum, pow_add]; ring
    rw [h]
    simp only [splitFields]
    rw [splitFields_mod ls n (k * 2 ^ l), Nat.mul_comm (k * 2 ^ l), Nat.mul_add_div (by positivity), Nat.add_comm,
      Nat.add_mul_mod_self_right]

/-- The fields of a word put together from fields are those fields. -/
theorem splitFields_joinFields : ∀ ls vs, Fits ls vs → splitFields ls (joinFields ls vs) = vs
  | [], [], _ => rfl
  | l :: ls, v :: vs, ⟨hv, h⟩ => by
    simp only [joinFields, splitFields]
    rw [splitFields_mod, splitFields_joinFields ls vs h, Nat.mul_comm, Nat.mul_add_div (by positivity),
      Nat.div_eq_of_lt (joinFields_lt ls vs), Nat.add_zero, Nat.mod_mod, Nat.mod_eq_of_lt hv]

/-- A number is what its fields put together. -/
theorem joinFields_splitFields : ∀ ls n, joinFields ls (splitFields ls n) = n % 2 ^ widthSum ls
  | [], n => by simp [joinFields, widthSum, Nat.mod_one]
  | l :: ls, n => by
    simp only [splitFields, joinFields, widthSum]
    rw [joinFields_splitFields ls n, Nat.mod_mod, Nat.add_comm l, pow_add, Nat.mod_mul]
    ring

/-- The header fields of a word put together from them (R72). -/
theorem splitFields_headWord (e : Bool) (pg : Pred) (pn : Bool) (op body : Nat) (ho : op < 2 ^ 7) (hb : body < 2 ^ 52) :
    splitFields layHead (headWord e pg pn op body).toNat = [bit e, pg.toNat, bit pn, op, body] := by
  have h := joinFields_lt layHead [bit e, pg.toNat, bit pn, op, body]
  have hw : widthSum layHead = 64 := rfl
  rw [headWord, BitVec.toNat_ofNat, Nat.mod_eq_of_lt (hw ▸ h), splitFields_joinFields]
  have h1 : ∀ b, bit b < 2 ^ 1 := by decide
  exact ⟨h1 e, pg.isLt, h1 pn, ho, hb, trivial⟩

/-- The fields of a chisel word put together from them (R85). -/
theorem splitFields_chiselWord (vs : List Nat) (h : Fits layChisel vs) :
    splitFields layChisel (BitVec.ofNat 32 (joinFields layChisel vs)).toNat = vs := by
  have hw : widthSum layChisel = 32 := rfl
  rw [BitVec.toNat_ofNat, Nat.mod_eq_of_lt (hw ▸ joinFields_lt layChisel vs), splitFields_joinFields _ _ h]

end Sys2Proof
end

