-- ==== Sys2Proof/Laws/Memory.lean ====
section
/-! SUPPORT. Memory as a sparse table: a read after a write, what a write leaves alone, and the canonical form. -/

namespace Sys2Proof.Machine

/-- Keys rise from a bound on, and no entry holds the value of an unlisted key. -/
def SMap.okFrom {α : Type} (dflt : α) (b : Nat) : SMap α → Prop
  | [] => True
  | (k, v) :: m => b ≤ k ∧ v ≠ dflt ∧ SMap.okFrom dflt (k + 1) m

theorem SMap.okFrom_mono {α : Type} {d : α} {b c : Nat} (h : b ≤ c) : ∀ {m : SMap α}, SMap.okFrom d c m → SMap.okFrom d b m
  | [], _ => trivial
  | (_, _) :: _, ⟨hk, hv, hm⟩ => ⟨Nat.le_trans h hk, hv, hm⟩

/-- The canonical form in terms of `okFrom`. -/
theorem Mem.wf_iff : ∀ m : Mem, Mem.wf m = true ↔ SMap.okFrom Mem.unlisted 0 m
  | [] => by simp [Mem.wf, SMap.okFrom]
  | (a, v) :: m => by
    have key : ∀ (m : Mem) (a : Nat) (v : Byte),
        Mem.wf ((a, v) :: m) = true ↔ v ≠ Mem.unlisted ∧ SMap.okFrom Mem.unlisted (a + 1) m := by
      intro m
      induction m with
      | nil => intro a v; simp [Mem.wf, SMap.okFrom]
      | cons p m ih =>
        intro a v
        obtain ⟨b, w⟩ := p
        simp only [Mem.wf, SMap.okFrom, Bool.and_eq_true, decide_eq_true_eq, ih, bne_iff_ne]
        constructor
        · rintro ⟨⟨h1, h2⟩, h3, h4⟩; exact ⟨h1, h2, h3, h4⟩
        · rintro ⟨h1, h2, h3, h4⟩; exact ⟨⟨h1, h2⟩, h3, h4⟩
    simpa [SMap.okFrom] using key m a v

theorem SMap.get_okFrom {α : Type} {d : α} {b k : Nat} {m : SMap α} (h : SMap.okFrom d b m) (hk : k < b) : m.get d k = d := by
  cases m with
  | nil => rfl
  | cons p m =>
    obtain ⟨j, v⟩ := p
    obtain ⟨hj, -, -⟩ := h
    simp only [SMap.get]
    rw [if_neg (by omega), if_pos (by omega)]

theorem SMap.okFrom_put {α : Type} {d v : α} (hv : v ≠ d) {k : Nat} :
    ∀ {b : Nat} {m : SMap α}, b ≤ k → SMap.okFrom d b m → SMap.okFrom d b (m.put k v)
  | _, [], hb, _ => ⟨hb, hv, trivial⟩
  | b, (j, w) :: m, hb, ⟨hj, hw, hm⟩ => by
    simp only [SMap.put]
    split
    · rename_i h; subst h; exact ⟨hj, hv, hm⟩
    · split
      · exact ⟨hb, hv, by omega, hw, hm⟩
      · exact ⟨hj, hw, SMap.okFrom_put hv (by omega) hm⟩

theorem SMap.okFrom_del {α : Type} {d : α} {k : Nat} : ∀ {b : Nat} {m : SMap α}, SMap.okFrom d b m → SMap.okFrom d b (m.del k)
  | _, [], _ => trivial
  | b, (j, w) :: m, ⟨hj, hw, hm⟩ => by
    simp only [SMap.del]
    split
    · exact SMap.okFrom_mono (by omega) hm
    · split
      · exact ⟨hj, hw, hm⟩
      · exact ⟨hj, hw, SMap.okFrom_del hm⟩

theorem SMap.get_put {α : Type} {d v : α} {k : Nat} (i : Nat) : ∀ {b : Nat} {m : SMap α}, SMap.okFrom d b m →
    (m.put k v).get d i = if i = k then v else m.get d i
  | _, [], _ => by
    simp only [SMap.put, SMap.get]
    by_cases h : k = i
    · simp [h]
    · simp [h, Ne.symm h]
  | b, (j, w) :: m, ⟨_, _, hm⟩ => by
    have ih := SMap.get_put (v := v) (k := k) i hm
    have hlow : ∀ x, x < j + 1 → SMap.get d x m = d := fun x hx => SMap.get_okFrom hm hx
    simp only [SMap.put]
    by_cases h1 : j = k
    · subst h1
      simp only [↓reduceIte, SMap.get]
      by_cases h2 : j = i
      · simp [h2]
      · simp [h2, Ne.symm h2]
    · rw [if_neg h1]
      by_cases h2 : k < j
      · rw [if_pos h2]
        by_cases h3 : k = i
        · simp [SMap.get, h3]
        · by_cases h4 : i < k
          · have h5 : ¬j = i := by omega
            have h6 : i < j := by omega
            simp [SMap.get, h3, h4, Ne.symm h3, h5, h6]
          · simp [SMap.get, h3, h4, Ne.symm h3]
      · rw [if_neg h2]
        simp only [SMap.get, ih]
        by_cases h3 : j = i
        · subst h3; simp [h1]
        · simp only [h3, ↓reduceIte]
          by_cases h4 : i < j
          · have : i ≠ k := by omega
            simp [h4, this]
          · simp [h4]

theorem SMap.get_del {α : Type} {d : α} {k : Nat} (i : Nat) : ∀ {b : Nat} {m : SMap α}, SMap.okFrom d b m →
    (m.del k).get d i = if i = k then d else m.get d i
  | _, [], _ => by simp [SMap.del, SMap.get]
  | b, (j, w) :: m, ⟨_, _, hm⟩ => by
    have ih := SMap.get_del (k := k) i hm
    have hlow : ∀ x, x < j + 1 → SMap.get d x m = d := fun x hx => SMap.get_okFrom hm hx
    simp only [SMap.del]
    by_cases h1 : j = k
    · subst h1
      rw [if_pos rfl]
      by_cases h2 : i = j
      · subst h2; simp [hlow i (by omega)]
      · simp only [h2, ↓reduceIte, SMap.get, Ne.symm h2]
        by_cases h4 : i < j
        · simp [h4, hlow i (by omega)]
        · simp [h4]
    · rw [if_neg h1]
      by_cases h2 : k < j
      · rw [if_pos h2]
        by_cases h3 : i = k
        · subst h3; simp [SMap.get, h1, h2]
        · simp [h3]
      · rw [if_neg h2]
        simp only [SMap.get, ih]
        by_cases h3 : j = i
        · subst h3; simp [h1]
        · simp only [h3, ↓reduceIte]
          by_cases h4 : i < j
          · simp [h4]
          · simp [h4]

/-- A read after a write. -/
theorem Mem.read_write {m : Mem} (h : Mem.wf m = true) (a i : Nat) (v : Byte) :
    (m.write a v).read i = if i = a then v else m.read i := by
  have h' := (Mem.wf_iff m).1 h
  simp only [Mem.write, Mem.read, SMap.set]
  split
  · rename_i hv; rw [SMap.get_del i h', hv]
  · exact SMap.get_put i h'

/-- A write keeps the canonical form. -/
theorem Mem.wf_write {m : Mem} (h : Mem.wf m = true) (a : Nat) (v : Byte) : Mem.wf (m.write a v) = true := by
  have h' := (Mem.wf_iff m).1 h
  rw [Mem.wf_iff, Mem.write, SMap.set]
  split
  · exact SMap.okFrom_del h'
  · rename_i hv; exact SMap.okFrom_put hv (Nat.zero_le _) h'

theorem Mem.wf_writeBytes {m : Mem} (h : Mem.wf m = true) (a : Nat) (bs : List Byte) : Mem.wf (m.writeBytes a bs) = true := by
  induction bs generalizing m a with
  | nil => exact h
  | cons b bs ih => exact ih (Mem.wf_write h a b) (a + 1)

/-- The bytes stored read back; every other byte reads as before. -/
theorem Mem.read_writeBytes {m : Mem} (h : Mem.wf m = true) (a i : Nat) (bs : List Byte) :
    (m.writeBytes a bs).read i = if a ≤ i ∧ i < a + bs.length then bs.getD (i - a) 0 else m.read i := by
  induction bs generalizing m a with
  | nil => rw [Mem.writeBytes, if_neg (by simp)]
  | cons b bs ih =>
    rw [Mem.writeBytes, ih (Mem.wf_write h a b), Mem.read_write h]
    by_cases h1 : i = a
    · subst h1; simp
    · simp only [h1, ↓reduceIte, List.length_cons]
      by_cases h2 : a + 1 ≤ i ∧ i < a + 1 + bs.length
      · rw [if_pos h2, if_pos (by omega), show i - a = i - (a + 1) + 1 by omega]; simp
      · rw [if_neg h2, if_neg (by omega)]

end Sys2Proof.Machine
end

