-- ==== Sys2Proof/Laws/State.lean ====
section
/-! SUPPORT. What each update of a part of the state leaves in every field of it, each true by unfolding: no proof need unfold a
record update. -/

namespace Sys2Proof.Machine

/-! `State.onCore`. -/

@[simp] theorem State.onCore_dcc (s : State) (f : Core → Core) : (s.onCore f).dcc = s.dcc := rfl
@[simp] theorem State.onCore_phase (s : State) (f : Core → Core) : (s.onCore f).phase = s.phase := rfl
@[simp] theorem State.onCore_todo (s : State) (f : Core → Core) : (s.onCore f).todo = s.todo := rfl
@[simp] theorem State.onCore_listed (s : State) (f : Core → Core) : (s.onCore f).listed = s.listed := rfl
@[simp] theorem State.onCore_agenda (s : State) (f : Core → Core) : (s.onCore f).agenda = s.agenda := rfl
@[simp] theorem State.onCore_inputs (s : State) (f : Core → Core) : (s.onCore f).inputs = s.inputs := rfl
@[simp] theorem State.onCore_upsets (s : State) (f : Core → Core) : (s.onCore f).upsets = s.upsets := rfl
@[simp] theorem State.onCore_free (s : State) (f : Core → Core) : (s.onCore f).free = s.free := rfl
@[simp] theorem State.onCore_serial (s : State) (f : Core → Core) : (s.onCore f).serial = s.serial := rfl
@[simp] theorem State.onCore_core (s : State) (f : Core → Core) : (s.onCore f).core = f s.core := rfl
@[simp] theorem State.onCore_others (s : State) (f : Core → Core) : (s.onCore f).others = s.others := rfl
@[simp] theorem State.onCore_saved (s : State) (f : Core → Core) : (s.onCore f).saved = s.saved := rfl
@[simp] theorem State.onCore_mem (s : State) (f : Core → Core) : (s.onCore f).mem = s.mem := rfl
@[simp] theorem State.onCore_cxl (s : State) (f : Core → Core) : (s.onCore f).cxl = s.cxl := rfl
@[simp] theorem State.onCore_lines (s : State) (f : Core → Core) : (s.onCore f).lines = s.lines := rfl
@[simp] theorem State.onCore_poison (s : State) (f : Core → Core) : (s.onCore f).poison = s.poison := rfl
@[simp] theorem State.onCore_pubs (s : State) (f : Core → Core) : (s.onCore f).pubs = s.pubs := rfl
@[simp] theorem State.onCore_sliceFree (s : State) (f : Core → Core) : (s.onCore f).sliceFree = s.sliceFree := rfl
@[simp] theorem State.onCore_walked (s : State) (f : Core → Core) : (s.onCore f).walked = s.walked := rfl
@[simp] theorem State.onCore_invals (s : State) (f : Core → Core) : (s.onCore f).invals = s.invals := rfl
@[simp] theorem State.onCore_disp (s : State) (f : Core → Core) : (s.onCore f).disp = s.disp := rfl
@[simp] theorem State.onCore_parts (s : State) (f : Core → Core) : (s.onCore f).parts = s.parts := rfl
@[simp] theorem State.onCore_fabric (s : State) (f : Core → Core) : (s.onCore f).fabric = s.fabric := rfl
@[simp] theorem State.onCore_encs (s : State) (f : Core → Core) : (s.onCore f).encs = s.encs := rfl
@[simp] theorem State.onCore_himos (s : State) (f : Core → Core) : (s.onCore f).himos = s.himos := rfl

/-! `State.onArch`. -/

@[simp] theorem State.onArch_dcc (s : State) (f : Arch → Arch) : (s.onArch f).dcc = s.dcc := rfl
@[simp] theorem State.onArch_phase (s : State) (f : Arch → Arch) : (s.onArch f).phase = s.phase := rfl
@[simp] theorem State.onArch_todo (s : State) (f : Arch → Arch) : (s.onArch f).todo = s.todo := rfl
@[simp] theorem State.onArch_listed (s : State) (f : Arch → Arch) : (s.onArch f).listed = s.listed := rfl
@[simp] theorem State.onArch_agenda (s : State) (f : Arch → Arch) : (s.onArch f).agenda = s.agenda := rfl
@[simp] theorem State.onArch_inputs (s : State) (f : Arch → Arch) : (s.onArch f).inputs = s.inputs := rfl
@[simp] theorem State.onArch_upsets (s : State) (f : Arch → Arch) : (s.onArch f).upsets = s.upsets := rfl
@[simp] theorem State.onArch_free (s : State) (f : Arch → Arch) : (s.onArch f).free = s.free := rfl
@[simp] theorem State.onArch_serial (s : State) (f : Arch → Arch) : (s.onArch f).serial = s.serial := rfl
@[simp] theorem State.onArch_core (s : State) (f : Arch → Arch) : (s.onArch f).core = { s.core with arch := f s.core.arch } := rfl
@[simp] theorem State.onArch_others (s : State) (f : Arch → Arch) : (s.onArch f).others = s.others := rfl
@[simp] theorem State.onArch_saved (s : State) (f : Arch → Arch) : (s.onArch f).saved = s.saved := rfl
@[simp] theorem State.onArch_mem (s : State) (f : Arch → Arch) : (s.onArch f).mem = s.mem := rfl
@[simp] theorem State.onArch_cxl (s : State) (f : Arch → Arch) : (s.onArch f).cxl = s.cxl := rfl
@[simp] theorem State.onArch_lines (s : State) (f : Arch → Arch) : (s.onArch f).lines = s.lines := rfl
@[simp] theorem State.onArch_poison (s : State) (f : Arch → Arch) : (s.onArch f).poison = s.poison := rfl
@[simp] theorem State.onArch_pubs (s : State) (f : Arch → Arch) : (s.onArch f).pubs = s.pubs := rfl
@[simp] theorem State.onArch_sliceFree (s : State) (f : Arch → Arch) : (s.onArch f).sliceFree = s.sliceFree := rfl
@[simp] theorem State.onArch_walked (s : State) (f : Arch → Arch) : (s.onArch f).walked = s.walked := rfl
@[simp] theorem State.onArch_invals (s : State) (f : Arch → Arch) : (s.onArch f).invals = s.invals := rfl
@[simp] theorem State.onArch_disp (s : State) (f : Arch → Arch) : (s.onArch f).disp = s.disp := rfl
@[simp] theorem State.onArch_parts (s : State) (f : Arch → Arch) : (s.onArch f).parts = s.parts := rfl
@[simp] theorem State.onArch_fabric (s : State) (f : Arch → Arch) : (s.onArch f).fabric = s.fabric := rfl
@[simp] theorem State.onArch_encs (s : State) (f : Arch → Arch) : (s.onArch f).encs = s.encs := rfl
@[simp] theorem State.onArch_himos (s : State) (f : Arch → Arch) : (s.onArch f).himos = s.himos := rfl

/-! `State.onCsr`. -/

@[simp] theorem State.onCsr_dcc (s : State) (f : CsrR → CsrR) : (s.onCsr f).dcc = s.dcc := rfl
@[simp] theorem State.onCsr_phase (s : State) (f : CsrR → CsrR) : (s.onCsr f).phase = s.phase := rfl
@[simp] theorem State.onCsr_todo (s : State) (f : CsrR → CsrR) : (s.onCsr f).todo = s.todo := rfl
@[simp] theorem State.onCsr_listed (s : State) (f : CsrR → CsrR) : (s.onCsr f).listed = s.listed := rfl
@[simp] theorem State.onCsr_agenda (s : State) (f : CsrR → CsrR) : (s.onCsr f).agenda = s.agenda := rfl
@[simp] theorem State.onCsr_inputs (s : State) (f : CsrR → CsrR) : (s.onCsr f).inputs = s.inputs := rfl
@[simp] theorem State.onCsr_upsets (s : State) (f : CsrR → CsrR) : (s.onCsr f).upsets = s.upsets := rfl
@[simp] theorem State.onCsr_free (s : State) (f : CsrR → CsrR) : (s.onCsr f).free = s.free := rfl
@[simp] theorem State.onCsr_serial (s : State) (f : CsrR → CsrR) : (s.onCsr f).serial = s.serial := rfl
@[simp] theorem State.onCsr_core (s : State) (f : CsrR → CsrR) : (s.onCsr f).core = { s.core with arch := { s.core.arch with csr := f s.core.arch.csr } } := rfl
@[simp] theorem State.onCsr_others (s : State) (f : CsrR → CsrR) : (s.onCsr f).others = s.others := rfl
@[simp] theorem State.onCsr_saved (s : State) (f : CsrR → CsrR) : (s.onCsr f).saved = s.saved := rfl
@[simp] theorem State.onCsr_mem (s : State) (f : CsrR → CsrR) : (s.onCsr f).mem = s.mem := rfl
@[simp] theorem State.onCsr_cxl (s : State) (f : CsrR → CsrR) : (s.onCsr f).cxl = s.cxl := rfl
@[simp] theorem State.onCsr_lines (s : State) (f : CsrR → CsrR) : (s.onCsr f).lines = s.lines := rfl
@[simp] theorem State.onCsr_poison (s : State) (f : CsrR → CsrR) : (s.onCsr f).poison = s.poison := rfl
@[simp] theorem State.onCsr_pubs (s : State) (f : CsrR → CsrR) : (s.onCsr f).pubs = s.pubs := rfl
@[simp] theorem State.onCsr_sliceFree (s : State) (f : CsrR → CsrR) : (s.onCsr f).sliceFree = s.sliceFree := rfl
@[simp] theorem State.onCsr_walked (s : State) (f : CsrR → CsrR) : (s.onCsr f).walked = s.walked := rfl
@[simp] theorem State.onCsr_invals (s : State) (f : CsrR → CsrR) : (s.onCsr f).invals = s.invals := rfl
@[simp] theorem State.onCsr_disp (s : State) (f : CsrR → CsrR) : (s.onCsr f).disp = s.disp := rfl
@[simp] theorem State.onCsr_parts (s : State) (f : CsrR → CsrR) : (s.onCsr f).parts = s.parts := rfl
@[simp] theorem State.onCsr_fabric (s : State) (f : CsrR → CsrR) : (s.onCsr f).fabric = s.fabric := rfl
@[simp] theorem State.onCsr_encs (s : State) (f : CsrR → CsrR) : (s.onCsr f).encs = s.encs := rfl
@[simp] theorem State.onCsr_himos (s : State) (f : CsrR → CsrR) : (s.onCsr f).himos = s.himos := rfl

/-! `State.onStat`. -/

@[simp] theorem State.onStat_dcc (s : State) (f : Stat → Stat) : (s.onStat f).dcc = s.dcc := rfl
@[simp] theorem State.onStat_phase (s : State) (f : Stat → Stat) : (s.onStat f).phase = s.phase := rfl
@[simp] theorem State.onStat_todo (s : State) (f : Stat → Stat) : (s.onStat f).todo = s.todo := rfl
@[simp] theorem State.onStat_listed (s : State) (f : Stat → Stat) : (s.onStat f).listed = s.listed := rfl
@[simp] theorem State.onStat_agenda (s : State) (f : Stat → Stat) : (s.onStat f).agenda = s.agenda := rfl
@[simp] theorem State.onStat_inputs (s : State) (f : Stat → Stat) : (s.onStat f).inputs = s.inputs := rfl
@[simp] theorem State.onStat_upsets (s : State) (f : Stat → Stat) : (s.onStat f).upsets = s.upsets := rfl
@[simp] theorem State.onStat_free (s : State) (f : Stat → Stat) : (s.onStat f).free = s.free := rfl
@[simp] theorem State.onStat_serial (s : State) (f : Stat → Stat) : (s.onStat f).serial = s.serial := rfl
@[simp] theorem State.onStat_core (s : State) (f : Stat → Stat) : (s.onStat f).core = { s.core with stat := f s.core.stat } := rfl
@[simp] theorem State.onStat_others (s : State) (f : Stat → Stat) : (s.onStat f).others = s.others := rfl
@[simp] theorem State.onStat_saved (s : State) (f : Stat → Stat) : (s.onStat f).saved = s.saved := rfl
@[simp] theorem State.onStat_mem (s : State) (f : Stat → Stat) : (s.onStat f).mem = s.mem := rfl
@[simp] theorem State.onStat_cxl (s : State) (f : Stat → Stat) : (s.onStat f).cxl = s.cxl := rfl
@[simp] theorem State.onStat_lines (s : State) (f : Stat → Stat) : (s.onStat f).lines = s.lines := rfl
@[simp] theorem State.onStat_poison (s : State) (f : Stat → Stat) : (s.onStat f).poison = s.poison := rfl
@[simp] theorem State.onStat_pubs (s : State) (f : Stat → Stat) : (s.onStat f).pubs = s.pubs := rfl
@[simp] theorem State.onStat_sliceFree (s : State) (f : Stat → Stat) : (s.onStat f).sliceFree = s.sliceFree := rfl
@[simp] theorem State.onStat_walked (s : State) (f : Stat → Stat) : (s.onStat f).walked = s.walked := rfl
@[simp] theorem State.onStat_invals (s : State) (f : Stat → Stat) : (s.onStat f).invals = s.invals := rfl
@[simp] theorem State.onStat_disp (s : State) (f : Stat → Stat) : (s.onStat f).disp = s.disp := rfl
@[simp] theorem State.onStat_parts (s : State) (f : Stat → Stat) : (s.onStat f).parts = s.parts := rfl
@[simp] theorem State.onStat_fabric (s : State) (f : Stat → Stat) : (s.onStat f).fabric = s.fabric := rfl
@[simp] theorem State.onStat_encs (s : State) (f : Stat → Stat) : (s.onStat f).encs = s.encs := rfl
@[simp] theorem State.onStat_himos (s : State) (f : Stat → Stat) : (s.onStat f).himos = s.himos := rfl

/-! `State.onEng`. -/

@[simp] theorem State.onEng_dcc (s : State) (f : Engine → Engine) : (s.onEng f).dcc = s.dcc := rfl
@[simp] theorem State.onEng_phase (s : State) (f : Engine → Engine) : (s.onEng f).phase = s.phase := rfl
@[simp] theorem State.onEng_todo (s : State) (f : Engine → Engine) : (s.onEng f).todo = s.todo := rfl
@[simp] theorem State.onEng_listed (s : State) (f : Engine → Engine) : (s.onEng f).listed = s.listed := rfl
@[simp] theorem State.onEng_agenda (s : State) (f : Engine → Engine) : (s.onEng f).agenda = s.agenda := rfl
@[simp] theorem State.onEng_inputs (s : State) (f : Engine → Engine) : (s.onEng f).inputs = s.inputs := rfl
@[simp] theorem State.onEng_upsets (s : State) (f : Engine → Engine) : (s.onEng f).upsets = s.upsets := rfl
@[simp] theorem State.onEng_free (s : State) (f : Engine → Engine) : (s.onEng f).free = s.free := rfl
@[simp] theorem State.onEng_serial (s : State) (f : Engine → Engine) : (s.onEng f).serial = s.serial := rfl
@[simp] theorem State.onEng_core (s : State) (f : Engine → Engine) : (s.onEng f).core = { s.core with eng := f s.core.eng } := rfl
@[simp] theorem State.onEng_others (s : State) (f : Engine → Engine) : (s.onEng f).others = s.others := rfl
@[simp] theorem State.onEng_saved (s : State) (f : Engine → Engine) : (s.onEng f).saved = s.saved := rfl
@[simp] theorem State.onEng_mem (s : State) (f : Engine → Engine) : (s.onEng f).mem = s.mem := rfl
@[simp] theorem State.onEng_cxl (s : State) (f : Engine → Engine) : (s.onEng f).cxl = s.cxl := rfl
@[simp] theorem State.onEng_lines (s : State) (f : Engine → Engine) : (s.onEng f).lines = s.lines := rfl
@[simp] theorem State.onEng_poison (s : State) (f : Engine → Engine) : (s.onEng f).poison = s.poison := rfl
@[simp] theorem State.onEng_pubs (s : State) (f : Engine → Engine) : (s.onEng f).pubs = s.pubs := rfl
@[simp] theorem State.onEng_sliceFree (s : State) (f : Engine → Engine) : (s.onEng f).sliceFree = s.sliceFree := rfl
@[simp] theorem State.onEng_walked (s : State) (f : Engine → Engine) : (s.onEng f).walked = s.walked := rfl
@[simp] theorem State.onEng_invals (s : State) (f : Engine → Engine) : (s.onEng f).invals = s.invals := rfl
@[simp] theorem State.onEng_disp (s : State) (f : Engine → Engine) : (s.onEng f).disp = s.disp := rfl
@[simp] theorem State.onEng_parts (s : State) (f : Engine → Engine) : (s.onEng f).parts = s.parts := rfl
@[simp] theorem State.onEng_fabric (s : State) (f : Engine → Engine) : (s.onEng f).fabric = s.fabric := rfl
@[simp] theorem State.onEng_encs (s : State) (f : Engine → Engine) : (s.onEng f).encs = s.encs := rfl
@[simp] theorem State.onEng_himos (s : State) (f : Engine → Engine) : (s.onEng f).himos = s.himos := rfl

/-! `State.onHz`. -/

@[simp] theorem State.onHz_dcc (s : State) (f : Hazard → Hazard) : (s.onHz f).dcc = s.dcc := rfl
@[simp] theorem State.onHz_phase (s : State) (f : Hazard → Hazard) : (s.onHz f).phase = s.phase := rfl
@[simp] theorem State.onHz_todo (s : State) (f : Hazard → Hazard) : (s.onHz f).todo = s.todo := rfl
@[simp] theorem State.onHz_listed (s : State) (f : Hazard → Hazard) : (s.onHz f).listed = s.listed := rfl
@[simp] theorem State.onHz_agenda (s : State) (f : Hazard → Hazard) : (s.onHz f).agenda = s.agenda := rfl
@[simp] theorem State.onHz_inputs (s : State) (f : Hazard → Hazard) : (s.onHz f).inputs = s.inputs := rfl
@[simp] theorem State.onHz_upsets (s : State) (f : Hazard → Hazard) : (s.onHz f).upsets = s.upsets := rfl
@[simp] theorem State.onHz_free (s : State) (f : Hazard → Hazard) : (s.onHz f).free = s.free := rfl
@[simp] theorem State.onHz_serial (s : State) (f : Hazard → Hazard) : (s.onHz f).serial = s.serial := rfl
@[simp] theorem State.onHz_core (s : State) (f : Hazard → Hazard) : (s.onHz f).core = { s.core with hz := f s.core.hz } := rfl
@[simp] theorem State.onHz_others (s : State) (f : Hazard → Hazard) : (s.onHz f).others = s.others := rfl
@[simp] theorem State.onHz_saved (s : State) (f : Hazard → Hazard) : (s.onHz f).saved = s.saved := rfl
@[simp] theorem State.onHz_mem (s : State) (f : Hazard → Hazard) : (s.onHz f).mem = s.mem := rfl
@[simp] theorem State.onHz_cxl (s : State) (f : Hazard → Hazard) : (s.onHz f).cxl = s.cxl := rfl
@[simp] theorem State.onHz_lines (s : State) (f : Hazard → Hazard) : (s.onHz f).lines = s.lines := rfl
@[simp] theorem State.onHz_poison (s : State) (f : Hazard → Hazard) : (s.onHz f).poison = s.poison := rfl
@[simp] theorem State.onHz_pubs (s : State) (f : Hazard → Hazard) : (s.onHz f).pubs = s.pubs := rfl
@[simp] theorem State.onHz_sliceFree (s : State) (f : Hazard → Hazard) : (s.onHz f).sliceFree = s.sliceFree := rfl
@[simp] theorem State.onHz_walked (s : State) (f : Hazard → Hazard) : (s.onHz f).walked = s.walked := rfl
@[simp] theorem State.onHz_invals (s : State) (f : Hazard → Hazard) : (s.onHz f).invals = s.invals := rfl
@[simp] theorem State.onHz_disp (s : State) (f : Hazard → Hazard) : (s.onHz f).disp = s.disp := rfl
@[simp] theorem State.onHz_parts (s : State) (f : Hazard → Hazard) : (s.onHz f).parts = s.parts := rfl
@[simp] theorem State.onHz_fabric (s : State) (f : Hazard → Hazard) : (s.onHz f).fabric = s.fabric := rfl
@[simp] theorem State.onHz_encs (s : State) (f : Hazard → Hazard) : (s.onHz f).encs = s.encs := rfl
@[simp] theorem State.onHz_himos (s : State) (f : Hazard → Hazard) : (s.onHz f).himos = s.himos := rfl

/-! `State.onReg`. -/

@[simp] theorem State.onReg_dcc (s : State) (f : Region → Region) : (s.onReg f).dcc = s.dcc := rfl
@[simp] theorem State.onReg_phase (s : State) (f : Region → Region) : (s.onReg f).phase = s.phase := rfl
@[simp] theorem State.onReg_todo (s : State) (f : Region → Region) : (s.onReg f).todo = s.todo := rfl
@[simp] theorem State.onReg_listed (s : State) (f : Region → Region) : (s.onReg f).listed = s.listed := rfl
@[simp] theorem State.onReg_agenda (s : State) (f : Region → Region) : (s.onReg f).agenda = s.agenda := rfl
@[simp] theorem State.onReg_inputs (s : State) (f : Region → Region) : (s.onReg f).inputs = s.inputs := rfl
@[simp] theorem State.onReg_upsets (s : State) (f : Region → Region) : (s.onReg f).upsets = s.upsets := rfl
@[simp] theorem State.onReg_free (s : State) (f : Region → Region) : (s.onReg f).free = s.free := rfl
@[simp] theorem State.onReg_serial (s : State) (f : Region → Region) : (s.onReg f).serial = s.serial := rfl
@[simp] theorem State.onReg_core (s : State) (f : Region → Region) : (s.onReg f).core = { s.core with reg := f s.core.reg } := rfl
@[simp] theorem State.onReg_others (s : State) (f : Region → Region) : (s.onReg f).others = s.others := rfl
@[simp] theorem State.onReg_saved (s : State) (f : Region → Region) : (s.onReg f).saved = s.saved := rfl
@[simp] theorem State.onReg_mem (s : State) (f : Region → Region) : (s.onReg f).mem = s.mem := rfl
@[simp] theorem State.onReg_cxl (s : State) (f : Region → Region) : (s.onReg f).cxl = s.cxl := rfl
@[simp] theorem State.onReg_lines (s : State) (f : Region → Region) : (s.onReg f).lines = s.lines := rfl
@[simp] theorem State.onReg_poison (s : State) (f : Region → Region) : (s.onReg f).poison = s.poison := rfl
@[simp] theorem State.onReg_pubs (s : State) (f : Region → Region) : (s.onReg f).pubs = s.pubs := rfl
@[simp] theorem State.onReg_sliceFree (s : State) (f : Region → Region) : (s.onReg f).sliceFree = s.sliceFree := rfl
@[simp] theorem State.onReg_walked (s : State) (f : Region → Region) : (s.onReg f).walked = s.walked := rfl
@[simp] theorem State.onReg_invals (s : State) (f : Region → Region) : (s.onReg f).invals = s.invals := rfl
@[simp] theorem State.onReg_disp (s : State) (f : Region → Region) : (s.onReg f).disp = s.disp := rfl
@[simp] theorem State.onReg_parts (s : State) (f : Region → Region) : (s.onReg f).parts = s.parts := rfl
@[simp] theorem State.onReg_fabric (s : State) (f : Region → Region) : (s.onReg f).fabric = s.fabric := rfl
@[simp] theorem State.onReg_encs (s : State) (f : Region → Region) : (s.onReg f).encs = s.encs := rfl
@[simp] theorem State.onReg_himos (s : State) (f : Region → Region) : (s.onReg f).himos = s.himos := rfl

/-! `State.onLs`. -/

@[simp] theorem State.onLs_dcc (s : State) (f : LocalStore → LocalStore) : (s.onLs f).dcc = s.dcc := rfl
@[simp] theorem State.onLs_phase (s : State) (f : LocalStore → LocalStore) : (s.onLs f).phase = s.phase := rfl
@[simp] theorem State.onLs_todo (s : State) (f : LocalStore → LocalStore) : (s.onLs f).todo = s.todo := rfl
@[simp] theorem State.onLs_listed (s : State) (f : LocalStore → LocalStore) : (s.onLs f).listed = s.listed := rfl
@[simp] theorem State.onLs_agenda (s : State) (f : LocalStore → LocalStore) : (s.onLs f).agenda = s.agenda := rfl
@[simp] theorem State.onLs_inputs (s : State) (f : LocalStore → LocalStore) : (s.onLs f).inputs = s.inputs := rfl
@[simp] theorem State.onLs_upsets (s : State) (f : LocalStore → LocalStore) : (s.onLs f).upsets = s.upsets := rfl
@[simp] theorem State.onLs_free (s : State) (f : LocalStore → LocalStore) : (s.onLs f).free = s.free := rfl
@[simp] theorem State.onLs_serial (s : State) (f : LocalStore → LocalStore) : (s.onLs f).serial = s.serial := rfl
@[simp] theorem State.onLs_core (s : State) (f : LocalStore → LocalStore) : (s.onLs f).core = { s.core with ls := f s.core.ls } := rfl
@[simp] theorem State.onLs_others (s : State) (f : LocalStore → LocalStore) : (s.onLs f).others = s.others := rfl
@[simp] theorem State.onLs_saved (s : State) (f : LocalStore → LocalStore) : (s.onLs f).saved = s.saved := rfl
@[simp] theorem State.onLs_mem (s : State) (f : LocalStore → LocalStore) : (s.onLs f).mem = s.mem := rfl
@[simp] theorem State.onLs_cxl (s : State) (f : LocalStore → LocalStore) : (s.onLs f).cxl = s.cxl := rfl
@[simp] theorem State.onLs_lines (s : State) (f : LocalStore → LocalStore) : (s.onLs f).lines = s.lines := rfl
@[simp] theorem State.onLs_poison (s : State) (f : LocalStore → LocalStore) : (s.onLs f).poison = s.poison := rfl
@[simp] theorem State.onLs_pubs (s : State) (f : LocalStore → LocalStore) : (s.onLs f).pubs = s.pubs := rfl
@[simp] theorem State.onLs_sliceFree (s : State) (f : LocalStore → LocalStore) : (s.onLs f).sliceFree = s.sliceFree := rfl
@[simp] theorem State.onLs_walked (s : State) (f : LocalStore → LocalStore) : (s.onLs f).walked = s.walked := rfl
@[simp] theorem State.onLs_invals (s : State) (f : LocalStore → LocalStore) : (s.onLs f).invals = s.invals := rfl
@[simp] theorem State.onLs_disp (s : State) (f : LocalStore → LocalStore) : (s.onLs f).disp = s.disp := rfl
@[simp] theorem State.onLs_parts (s : State) (f : LocalStore → LocalStore) : (s.onLs f).parts = s.parts := rfl
@[simp] theorem State.onLs_fabric (s : State) (f : LocalStore → LocalStore) : (s.onLs f).fabric = s.fabric := rfl
@[simp] theorem State.onLs_encs (s : State) (f : LocalStore → LocalStore) : (s.onLs f).encs = s.encs := rfl
@[simp] theorem State.onLs_himos (s : State) (f : LocalStore → LocalStore) : (s.onLs f).himos = s.himos := rfl

/-! `State.onHeld`. -/

@[simp] theorem State.onHeld_dcc (s : State) (f : Held → Held) : (s.onHeld f).dcc = s.dcc := rfl
@[simp] theorem State.onHeld_phase (s : State) (f : Held → Held) : (s.onHeld f).phase = s.phase := rfl
@[simp] theorem State.onHeld_todo (s : State) (f : Held → Held) : (s.onHeld f).todo = s.todo := rfl
@[simp] theorem State.onHeld_listed (s : State) (f : Held → Held) : (s.onHeld f).listed = s.listed := rfl
@[simp] theorem State.onHeld_agenda (s : State) (f : Held → Held) : (s.onHeld f).agenda = s.agenda := rfl
@[simp] theorem State.onHeld_inputs (s : State) (f : Held → Held) : (s.onHeld f).inputs = s.inputs := rfl
@[simp] theorem State.onHeld_upsets (s : State) (f : Held → Held) : (s.onHeld f).upsets = s.upsets := rfl
@[simp] theorem State.onHeld_free (s : State) (f : Held → Held) : (s.onHeld f).free = s.free := rfl
@[simp] theorem State.onHeld_serial (s : State) (f : Held → Held) : (s.onHeld f).serial = s.serial := rfl
@[simp] theorem State.onHeld_core (s : State) (f : Held → Held) : (s.onHeld f).core = { s.core with held := f s.core.held } := rfl
@[simp] theorem State.onHeld_others (s : State) (f : Held → Held) : (s.onHeld f).others = s.others := rfl
@[simp] theorem State.onHeld_saved (s : State) (f : Held → Held) : (s.onHeld f).saved = s.saved := rfl
@[simp] theorem State.onHeld_mem (s : State) (f : Held → Held) : (s.onHeld f).mem = s.mem := rfl
@[simp] theorem State.onHeld_cxl (s : State) (f : Held → Held) : (s.onHeld f).cxl = s.cxl := rfl
@[simp] theorem State.onHeld_lines (s : State) (f : Held → Held) : (s.onHeld f).lines = s.lines := rfl
@[simp] theorem State.onHeld_poison (s : State) (f : Held → Held) : (s.onHeld f).poison = s.poison := rfl
@[simp] theorem State.onHeld_pubs (s : State) (f : Held → Held) : (s.onHeld f).pubs = s.pubs := rfl
@[simp] theorem State.onHeld_sliceFree (s : State) (f : Held → Held) : (s.onHeld f).sliceFree = s.sliceFree := rfl
@[simp] theorem State.onHeld_walked (s : State) (f : Held → Held) : (s.onHeld f).walked = s.walked := rfl
@[simp] theorem State.onHeld_invals (s : State) (f : Held → Held) : (s.onHeld f).invals = s.invals := rfl
@[simp] theorem State.onHeld_disp (s : State) (f : Held → Held) : (s.onHeld f).disp = s.disp := rfl
@[simp] theorem State.onHeld_parts (s : State) (f : Held → Held) : (s.onHeld f).parts = s.parts := rfl
@[simp] theorem State.onHeld_fabric (s : State) (f : Held → Held) : (s.onHeld f).fabric = s.fabric := rfl
@[simp] theorem State.onHeld_encs (s : State) (f : Held → Held) : (s.onHeld f).encs = s.encs := rfl
@[simp] theorem State.onHeld_himos (s : State) (f : Held → Held) : (s.onHeld f).himos = s.himos := rfl

/-! `State.onDisp`. -/

@[simp] theorem State.onDisp_dcc (s : State) (f : Dispatch → Dispatch) : (s.onDisp f).dcc = s.dcc := rfl
@[simp] theorem State.onDisp_phase (s : State) (f : Dispatch → Dispatch) : (s.onDisp f).phase = s.phase := rfl
@[simp] theorem State.onDisp_todo (s : State) (f : Dispatch → Dispatch) : (s.onDisp f).todo = s.todo := rfl
@[simp] theorem State.onDisp_listed (s : State) (f : Dispatch → Dispatch) : (s.onDisp f).listed = s.listed := rfl
@[simp] theorem State.onDisp_agenda (s : State) (f : Dispatch → Dispatch) : (s.onDisp f).agenda = s.agenda := rfl
@[simp] theorem State.onDisp_inputs (s : State) (f : Dispatch → Dispatch) : (s.onDisp f).inputs = s.inputs := rfl
@[simp] theorem State.onDisp_upsets (s : State) (f : Dispatch → Dispatch) : (s.onDisp f).upsets = s.upsets := rfl
@[simp] theorem State.onDisp_free (s : State) (f : Dispatch → Dispatch) : (s.onDisp f).free = s.free := rfl
@[simp] theorem State.onDisp_serial (s : State) (f : Dispatch → Dispatch) : (s.onDisp f).serial = s.serial := rfl
@[simp] theorem State.onDisp_core (s : State) (f : Dispatch → Dispatch) : (s.onDisp f).core = s.core := rfl
@[simp] theorem State.onDisp_others (s : State) (f : Dispatch → Dispatch) : (s.onDisp f).others = s.others := rfl
@[simp] theorem State.onDisp_saved (s : State) (f : Dispatch → Dispatch) : (s.onDisp f).saved = s.saved := rfl
@[simp] theorem State.onDisp_mem (s : State) (f : Dispatch → Dispatch) : (s.onDisp f).mem = s.mem := rfl
@[simp] theorem State.onDisp_cxl (s : State) (f : Dispatch → Dispatch) : (s.onDisp f).cxl = s.cxl := rfl
@[simp] theorem State.onDisp_lines (s : State) (f : Dispatch → Dispatch) : (s.onDisp f).lines = s.lines := rfl
@[simp] theorem State.onDisp_poison (s : State) (f : Dispatch → Dispatch) : (s.onDisp f).poison = s.poison := rfl
@[simp] theorem State.onDisp_pubs (s : State) (f : Dispatch → Dispatch) : (s.onDisp f).pubs = s.pubs := rfl
@[simp] theorem State.onDisp_sliceFree (s : State) (f : Dispatch → Dispatch) : (s.onDisp f).sliceFree = s.sliceFree := rfl
@[simp] theorem State.onDisp_walked (s : State) (f : Dispatch → Dispatch) : (s.onDisp f).walked = s.walked := rfl
@[simp] theorem State.onDisp_invals (s : State) (f : Dispatch → Dispatch) : (s.onDisp f).invals = s.invals := rfl
@[simp] theorem State.onDisp_disp (s : State) (f : Dispatch → Dispatch) : (s.onDisp f).disp = f s.disp := rfl
@[simp] theorem State.onDisp_parts (s : State) (f : Dispatch → Dispatch) : (s.onDisp f).parts = s.parts := rfl
@[simp] theorem State.onDisp_fabric (s : State) (f : Dispatch → Dispatch) : (s.onDisp f).fabric = s.fabric := rfl
@[simp] theorem State.onDisp_encs (s : State) (f : Dispatch → Dispatch) : (s.onDisp f).encs = s.encs := rfl
@[simp] theorem State.onDisp_himos (s : State) (f : Dispatch → Dispatch) : (s.onDisp f).himos = s.himos := rfl

/-! `State.onFabric`. -/

@[simp] theorem State.onFabric_dcc (s : State) (f : Fabric → Fabric) : (s.onFabric f).dcc = s.dcc := rfl
@[simp] theorem State.onFabric_phase (s : State) (f : Fabric → Fabric) : (s.onFabric f).phase = s.phase := rfl
@[simp] theorem State.onFabric_todo (s : State) (f : Fabric → Fabric) : (s.onFabric f).todo = s.todo := rfl
@[simp] theorem State.onFabric_listed (s : State) (f : Fabric → Fabric) : (s.onFabric f).listed = s.listed := rfl
@[simp] theorem State.onFabric_agenda (s : State) (f : Fabric → Fabric) : (s.onFabric f).agenda = s.agenda := rfl
@[simp] theorem State.onFabric_inputs (s : State) (f : Fabric → Fabric) : (s.onFabric f).inputs = s.inputs := rfl
@[simp] theorem State.onFabric_upsets (s : State) (f : Fabric → Fabric) : (s.onFabric f).upsets = s.upsets := rfl
@[simp] theorem State.onFabric_free (s : State) (f : Fabric → Fabric) : (s.onFabric f).free = s.free := rfl
@[simp] theorem State.onFabric_serial (s : State) (f : Fabric → Fabric) : (s.onFabric f).serial = s.serial := rfl
@[simp] theorem State.onFabric_core (s : State) (f : Fabric → Fabric) : (s.onFabric f).core = s.core := rfl
@[simp] theorem State.onFabric_others (s : State) (f : Fabric → Fabric) : (s.onFabric f).others = s.others := rfl
@[simp] theorem State.onFabric_saved (s : State) (f : Fabric → Fabric) : (s.onFabric f).saved = s.saved := rfl
@[simp] theorem State.onFabric_mem (s : State) (f : Fabric → Fabric) : (s.onFabric f).mem = s.mem := rfl
@[simp] theorem State.onFabric_cxl (s : State) (f : Fabric → Fabric) : (s.onFabric f).cxl = s.cxl := rfl
@[simp] theorem State.onFabric_lines (s : State) (f : Fabric → Fabric) : (s.onFabric f).lines = s.lines := rfl
@[simp] theorem State.onFabric_poison (s : State) (f : Fabric → Fabric) : (s.onFabric f).poison = s.poison := rfl
@[simp] theorem State.onFabric_pubs (s : State) (f : Fabric → Fabric) : (s.onFabric f).pubs = s.pubs := rfl
@[simp] theorem State.onFabric_sliceFree (s : State) (f : Fabric → Fabric) : (s.onFabric f).sliceFree = s.sliceFree := rfl
@[simp] theorem State.onFabric_walked (s : State) (f : Fabric → Fabric) : (s.onFabric f).walked = s.walked := rfl
@[simp] theorem State.onFabric_invals (s : State) (f : Fabric → Fabric) : (s.onFabric f).invals = s.invals := rfl
@[simp] theorem State.onFabric_disp (s : State) (f : Fabric → Fabric) : (s.onFabric f).disp = s.disp := rfl
@[simp] theorem State.onFabric_parts (s : State) (f : Fabric → Fabric) : (s.onFabric f).parts = s.parts := rfl
@[simp] theorem State.onFabric_fabric (s : State) (f : Fabric → Fabric) : (s.onFabric f).fabric = f s.fabric := rfl
@[simp] theorem State.onFabric_encs (s : State) (f : Fabric → Fabric) : (s.onFabric f).encs = s.encs := rfl
@[simp] theorem State.onFabric_himos (s : State) (f : Fabric → Fabric) : (s.onFabric f).himos = s.himos := rfl

/-! `State.onHimos`. -/

@[simp] theorem State.onHimos_dcc (s : State) (f : Himos → Himos) : (s.onHimos f).dcc = s.dcc := rfl
@[simp] theorem State.onHimos_phase (s : State) (f : Himos → Himos) : (s.onHimos f).phase = s.phase := rfl
@[simp] theorem State.onHimos_todo (s : State) (f : Himos → Himos) : (s.onHimos f).todo = s.todo := rfl
@[simp] theorem State.onHimos_listed (s : State) (f : Himos → Himos) : (s.onHimos f).listed = s.listed := rfl
@[simp] theorem State.onHimos_agenda (s : State) (f : Himos → Himos) : (s.onHimos f).agenda = s.agenda := rfl
@[simp] theorem State.onHimos_inputs (s : State) (f : Himos → Himos) : (s.onHimos f).inputs = s.inputs := rfl
@[simp] theorem State.onHimos_upsets (s : State) (f : Himos → Himos) : (s.onHimos f).upsets = s.upsets := rfl
@[simp] theorem State.onHimos_free (s : State) (f : Himos → Himos) : (s.onHimos f).free = s.free := rfl
@[simp] theorem State.onHimos_serial (s : State) (f : Himos → Himos) : (s.onHimos f).serial = s.serial := rfl
@[simp] theorem State.onHimos_core (s : State) (f : Himos → Himos) : (s.onHimos f).core = s.core := rfl
@[simp] theorem State.onHimos_others (s : State) (f : Himos → Himos) : (s.onHimos f).others = s.others := rfl
@[simp] theorem State.onHimos_saved (s : State) (f : Himos → Himos) : (s.onHimos f).saved = s.saved := rfl
@[simp] theorem State.onHimos_mem (s : State) (f : Himos → Himos) : (s.onHimos f).mem = s.mem := rfl
@[simp] theorem State.onHimos_cxl (s : State) (f : Himos → Himos) : (s.onHimos f).cxl = s.cxl := rfl
@[simp] theorem State.onHimos_lines (s : State) (f : Himos → Himos) : (s.onHimos f).lines = s.lines := rfl
@[simp] theorem State.onHimos_poison (s : State) (f : Himos → Himos) : (s.onHimos f).poison = s.poison := rfl
@[simp] theorem State.onHimos_pubs (s : State) (f : Himos → Himos) : (s.onHimos f).pubs = s.pubs := rfl
@[simp] theorem State.onHimos_sliceFree (s : State) (f : Himos → Himos) : (s.onHimos f).sliceFree = s.sliceFree := rfl
@[simp] theorem State.onHimos_walked (s : State) (f : Himos → Himos) : (s.onHimos f).walked = s.walked := rfl
@[simp] theorem State.onHimos_invals (s : State) (f : Himos → Himos) : (s.onHimos f).invals = s.invals := rfl
@[simp] theorem State.onHimos_disp (s : State) (f : Himos → Himos) : (s.onHimos f).disp = s.disp := rfl
@[simp] theorem State.onHimos_parts (s : State) (f : Himos → Himos) : (s.onHimos f).parts = s.parts := rfl
@[simp] theorem State.onHimos_fabric (s : State) (f : Himos → Himos) : (s.onHimos f).fabric = s.fabric := rfl
@[simp] theorem State.onHimos_encs (s : State) (f : Himos → Himos) : (s.onHimos f).encs = s.encs := rfl
@[simp] theorem State.onHimos_himos (s : State) (f : Himos → Himos) : (s.onHimos f).himos = f s.himos := rfl

/-! `State.putS`. -/

@[simp] theorem State.putS_dcc (s : State) (r : Reg) (v : Word) : (s.putS r v).dcc = s.dcc := rfl
@[simp] theorem State.putS_phase (s : State) (r : Reg) (v : Word) : (s.putS r v).phase = s.phase := rfl
@[simp] theorem State.putS_todo (s : State) (r : Reg) (v : Word) : (s.putS r v).todo = s.todo := rfl
@[simp] theorem State.putS_listed (s : State) (r : Reg) (v : Word) : (s.putS r v).listed = s.listed := rfl
@[simp] theorem State.putS_agenda (s : State) (r : Reg) (v : Word) : (s.putS r v).agenda = s.agenda := rfl
@[simp] theorem State.putS_inputs (s : State) (r : Reg) (v : Word) : (s.putS r v).inputs = s.inputs := rfl
@[simp] theorem State.putS_upsets (s : State) (r : Reg) (v : Word) : (s.putS r v).upsets = s.upsets := rfl
@[simp] theorem State.putS_free (s : State) (r : Reg) (v : Word) : (s.putS r v).free = s.free := rfl
@[simp] theorem State.putS_serial (s : State) (r : Reg) (v : Word) : (s.putS r v).serial = s.serial := rfl
@[simp] theorem State.putS_core (s : State) (r : Reg) (v : Word) : (s.putS r v).core = { s.core with arch := s.core.arch.setS r v } := rfl
@[simp] theorem State.putS_others (s : State) (r : Reg) (v : Word) : (s.putS r v).others = s.others := rfl
@[simp] theorem State.putS_saved (s : State) (r : Reg) (v : Word) : (s.putS r v).saved = s.saved := rfl
@[simp] theorem State.putS_mem (s : State) (r : Reg) (v : Word) : (s.putS r v).mem = s.mem := rfl
@[simp] theorem State.putS_cxl (s : State) (r : Reg) (v : Word) : (s.putS r v).cxl = s.cxl := rfl
@[simp] theorem State.putS_lines (s : State) (r : Reg) (v : Word) : (s.putS r v).lines = s.lines := rfl
@[simp] theorem State.putS_poison (s : State) (r : Reg) (v : Word) : (s.putS r v).poison = s.poison := rfl
@[simp] theorem State.putS_pubs (s : State) (r : Reg) (v : Word) : (s.putS r v).pubs = s.pubs := rfl
@[simp] theorem State.putS_sliceFree (s : State) (r : Reg) (v : Word) : (s.putS r v).sliceFree = s.sliceFree := rfl
@[simp] theorem State.putS_walked (s : State) (r : Reg) (v : Word) : (s.putS r v).walked = s.walked := rfl
@[simp] theorem State.putS_invals (s : State) (r : Reg) (v : Word) : (s.putS r v).invals = s.invals := rfl
@[simp] theorem State.putS_disp (s : State) (r : Reg) (v : Word) : (s.putS r v).disp = s.disp := rfl
@[simp] theorem State.putS_parts (s : State) (r : Reg) (v : Word) : (s.putS r v).parts = s.parts := rfl
@[simp] theorem State.putS_fabric (s : State) (r : Reg) (v : Word) : (s.putS r v).fabric = s.fabric := rfl
@[simp] theorem State.putS_encs (s : State) (r : Reg) (v : Word) : (s.putS r v).encs = s.encs := rfl
@[simp] theorem State.putS_himos (s : State) (r : Reg) (v : Word) : (s.putS r v).himos = s.himos := rfl

/-! `State.putP`. -/

@[simp] theorem State.putP_dcc (s : State) (r : Pred) (v : Bool) : (s.putP r v).dcc = s.dcc := rfl
@[simp] theorem State.putP_phase (s : State) (r : Pred) (v : Bool) : (s.putP r v).phase = s.phase := rfl
@[simp] theorem State.putP_todo (s : State) (r : Pred) (v : Bool) : (s.putP r v).todo = s.todo := rfl
@[simp] theorem State.putP_listed (s : State) (r : Pred) (v : Bool) : (s.putP r v).listed = s.listed := rfl
@[simp] theorem State.putP_agenda (s : State) (r : Pred) (v : Bool) : (s.putP r v).agenda = s.agenda := rfl
@[simp] theorem State.putP_inputs (s : State) (r : Pred) (v : Bool) : (s.putP r v).inputs = s.inputs := rfl
@[simp] theorem State.putP_upsets (s : State) (r : Pred) (v : Bool) : (s.putP r v).upsets = s.upsets := rfl
@[simp] theorem State.putP_free (s : State) (r : Pred) (v : Bool) : (s.putP r v).free = s.free := rfl
@[simp] theorem State.putP_serial (s : State) (r : Pred) (v : Bool) : (s.putP r v).serial = s.serial := rfl
@[simp] theorem State.putP_core (s : State) (r : Pred) (v : Bool) : (s.putP r v).core = { s.core with arch := s.core.arch.setP r v } := rfl
@[simp] theorem State.putP_others (s : State) (r : Pred) (v : Bool) : (s.putP r v).others = s.others := rfl
@[simp] theorem State.putP_saved (s : State) (r : Pred) (v : Bool) : (s.putP r v).saved = s.saved := rfl
@[simp] theorem State.putP_mem (s : State) (r : Pred) (v : Bool) : (s.putP r v).mem = s.mem := rfl
@[simp] theorem State.putP_cxl (s : State) (r : Pred) (v : Bool) : (s.putP r v).cxl = s.cxl := rfl
@[simp] theorem State.putP_lines (s : State) (r : Pred) (v : Bool) : (s.putP r v).lines = s.lines := rfl
@[simp] theorem State.putP_poison (s : State) (r : Pred) (v : Bool) : (s.putP r v).poison = s.poison := rfl
@[simp] theorem State.putP_pubs (s : State) (r : Pred) (v : Bool) : (s.putP r v).pubs = s.pubs := rfl
@[simp] theorem State.putP_sliceFree (s : State) (r : Pred) (v : Bool) : (s.putP r v).sliceFree = s.sliceFree := rfl
@[simp] theorem State.putP_walked (s : State) (r : Pred) (v : Bool) : (s.putP r v).walked = s.walked := rfl
@[simp] theorem State.putP_invals (s : State) (r : Pred) (v : Bool) : (s.putP r v).invals = s.invals := rfl
@[simp] theorem State.putP_disp (s : State) (r : Pred) (v : Bool) : (s.putP r v).disp = s.disp := rfl
@[simp] theorem State.putP_parts (s : State) (r : Pred) (v : Bool) : (s.putP r v).parts = s.parts := rfl
@[simp] theorem State.putP_fabric (s : State) (r : Pred) (v : Bool) : (s.putP r v).fabric = s.fabric := rfl
@[simp] theorem State.putP_encs (s : State) (r : Pred) (v : Bool) : (s.putP r v).encs = s.encs := rfl
@[simp] theorem State.putP_himos (s : State) (r : Pred) (v : Bool) : (s.putP r v).himos = s.himos := rfl

/-! `State.putH`. -/

@[simp] theorem State.putH_dcc (s : State) (r : HReg) (v : Handle) : (s.putH r v).dcc = s.dcc := rfl
@[simp] theorem State.putH_phase (s : State) (r : HReg) (v : Handle) : (s.putH r v).phase = s.phase := rfl
@[simp] theorem State.putH_todo (s : State) (r : HReg) (v : Handle) : (s.putH r v).todo = s.todo := rfl
@[simp] theorem State.putH_listed (s : State) (r : HReg) (v : Handle) : (s.putH r v).listed = s.listed := rfl
@[simp] theorem State.putH_agenda (s : State) (r : HReg) (v : Handle) : (s.putH r v).agenda = s.agenda := rfl
@[simp] theorem State.putH_inputs (s : State) (r : HReg) (v : Handle) : (s.putH r v).inputs = s.inputs := rfl
@[simp] theorem State.putH_upsets (s : State) (r : HReg) (v : Handle) : (s.putH r v).upsets = s.upsets := rfl
@[simp] theorem State.putH_free (s : State) (r : HReg) (v : Handle) : (s.putH r v).free = s.free := rfl
@[simp] theorem State.putH_serial (s : State) (r : HReg) (v : Handle) : (s.putH r v).serial = s.serial := rfl
@[simp] theorem State.putH_core (s : State) (r : HReg) (v : Handle) : (s.putH r v).core = { s.core with arch := s.core.arch.setH r v } := rfl
@[simp] theorem State.putH_others (s : State) (r : HReg) (v : Handle) : (s.putH r v).others = s.others := rfl
@[simp] theorem State.putH_saved (s : State) (r : HReg) (v : Handle) : (s.putH r v).saved = s.saved := rfl
@[simp] theorem State.putH_mem (s : State) (r : HReg) (v : Handle) : (s.putH r v).mem = s.mem := rfl
@[simp] theorem State.putH_cxl (s : State) (r : HReg) (v : Handle) : (s.putH r v).cxl = s.cxl := rfl
@[simp] theorem State.putH_lines (s : State) (r : HReg) (v : Handle) : (s.putH r v).lines = s.lines := rfl
@[simp] theorem State.putH_poison (s : State) (r : HReg) (v : Handle) : (s.putH r v).poison = s.poison := rfl
@[simp] theorem State.putH_pubs (s : State) (r : HReg) (v : Handle) : (s.putH r v).pubs = s.pubs := rfl
@[simp] theorem State.putH_sliceFree (s : State) (r : HReg) (v : Handle) : (s.putH r v).sliceFree = s.sliceFree := rfl
@[simp] theorem State.putH_walked (s : State) (r : HReg) (v : Handle) : (s.putH r v).walked = s.walked := rfl
@[simp] theorem State.putH_invals (s : State) (r : HReg) (v : Handle) : (s.putH r v).invals = s.invals := rfl
@[simp] theorem State.putH_disp (s : State) (r : HReg) (v : Handle) : (s.putH r v).disp = s.disp := rfl
@[simp] theorem State.putH_parts (s : State) (r : HReg) (v : Handle) : (s.putH r v).parts = s.parts := rfl
@[simp] theorem State.putH_fabric (s : State) (r : HReg) (v : Handle) : (s.putH r v).fabric = s.fabric := rfl
@[simp] theorem State.putH_encs (s : State) (r : HReg) (v : Handle) : (s.putH r v).encs = s.encs := rfl
@[simp] theorem State.putH_himos (s : State) (r : HReg) (v : Handle) : (s.putH r v).himos = s.himos := rfl

/-! `State.at_`. -/

@[simp] theorem State.at_dcc (s : State) (d o : Nat) (g : Target) (i : Instr) : (s.at_ d o g i).dcc = s.dcc := rfl
@[simp] theorem State.at_phase (s : State) (d o : Nat) (g : Target) (i : Instr) : (s.at_ d o g i).phase = s.phase := rfl
@[simp] theorem State.at_todo (s : State) (d o : Nat) (g : Target) (i : Instr) : (s.at_ d o g i).todo = s.todo := rfl
@[simp] theorem State.at_listed (s : State) (d o : Nat) (g : Target) (i : Instr) : (s.at_ d o g i).listed = s.listed := rfl
@[simp] theorem State.at_agenda (s : State) (d o : Nat) (g : Target) (i : Instr) : (s.at_ d o g i).agenda = Ev.insert ⟨d, o, g, i⟩ s.agenda := rfl
@[simp] theorem State.at_inputs (s : State) (d o : Nat) (g : Target) (i : Instr) : (s.at_ d o g i).inputs = s.inputs := rfl
@[simp] theorem State.at_upsets (s : State) (d o : Nat) (g : Target) (i : Instr) : (s.at_ d o g i).upsets = s.upsets := rfl
@[simp] theorem State.at_free (s : State) (d o : Nat) (g : Target) (i : Instr) : (s.at_ d o g i).free = s.free := rfl
@[simp] theorem State.at_serial (s : State) (d o : Nat) (g : Target) (i : Instr) : (s.at_ d o g i).serial = s.serial := rfl
@[simp] theorem State.at_core (s : State) (d o : Nat) (g : Target) (i : Instr) : (s.at_ d o g i).core = s.core := rfl
@[simp] theorem State.at_others (s : State) (d o : Nat) (g : Target) (i : Instr) : (s.at_ d o g i).others = s.others := rfl
@[simp] theorem State.at_saved (s : State) (d o : Nat) (g : Target) (i : Instr) : (s.at_ d o g i).saved = s.saved := rfl
@[simp] theorem State.at_mem (s : State) (d o : Nat) (g : Target) (i : Instr) : (s.at_ d o g i).mem = s.mem := rfl
@[simp] theorem State.at_cxl (s : State) (d o : Nat) (g : Target) (i : Instr) : (s.at_ d o g i).cxl = s.cxl := rfl
@[simp] theorem State.at_lines (s : State) (d o : Nat) (g : Target) (i : Instr) : (s.at_ d o g i).lines = s.lines := rfl
@[simp] theorem State.at_poison (s : State) (d o : Nat) (g : Target) (i : Instr) : (s.at_ d o g i).poison = s.poison := rfl
@[simp] theorem State.at_pubs (s : State) (d o : Nat) (g : Target) (i : Instr) : (s.at_ d o g i).pubs = s.pubs := rfl
@[simp] theorem State.at_sliceFree (s : State) (d o : Nat) (g : Target) (i : Instr) : (s.at_ d o g i).sliceFree = s.sliceFree := rfl
@[simp] theorem State.at_walked (s : State) (d o : Nat) (g : Target) (i : Instr) : (s.at_ d o g i).walked = s.walked := rfl
@[simp] theorem State.at_invals (s : State) (d o : Nat) (g : Target) (i : Instr) : (s.at_ d o g i).invals = s.invals := rfl
@[simp] theorem State.at_disp (s : State) (d o : Nat) (g : Target) (i : Instr) : (s.at_ d o g i).disp = s.disp := rfl
@[simp] theorem State.at_parts (s : State) (d o : Nat) (g : Target) (i : Instr) : (s.at_ d o g i).parts = s.parts := rfl
@[simp] theorem State.at_fabric (s : State) (d o : Nat) (g : Target) (i : Instr) : (s.at_ d o g i).fabric = s.fabric := rfl
@[simp] theorem State.at_encs (s : State) (d o : Nat) (g : Target) (i : Instr) : (s.at_ d o g i).encs = s.encs := rfl
@[simp] theorem State.at_himos (s : State) (d o : Nat) (g : Target) (i : Instr) : (s.at_ d o g i).himos = s.himos := rfl

end Sys2Proof.Machine
end

