-- ==== Sys2Proof/Laws/Ops.lean ====
section
/-! SUPPORT. What each shared operation can do, once: registers, results in flight, flags, and taking a trap. -/

namespace Sys2Proof.Machine

theorem SameBytes.refl (s : State) : SameBytes s s := ⟨fun _ => rfl, fun _ => rfl, fun _ => rfl⟩

/-! Registers (R11). -/

theorem vector_get_set {α : Type} {w : Nat} (v : Vector α (2 ^ w)) (i j : BitVec w) (x : α) :
    (v.set i.toNat x i.isLt).get j.toFin = if j = i then x else v.get j.toFin := by
  have h : ∀ (u : Vector α (2 ^ w)), u.get j.toFin = u[j.toNat]'j.isLt := fun _ => rfl
  rw [h, h, Vector.getElem_set]
  by_cases hij : j = i
  · rw [if_pos (by rw [hij]), if_pos hij]
  · rw [if_neg (fun he => hij (BitVec.eq_of_toNat_eq he.symm)), if_neg hij]

theorem Arch.sreg_setS (a : Arch) (d r : Reg) (v : Word) :
    (a.setS d v).sreg r = if r = d then (if d = 0 then 0 else v) else a.sreg r := by
  by_cases hd : d = 0
  · rw [hd, Arch.setS, if_pos rfl, if_pos rfl]
    split
    · rename_i h; rw [h]; rfl
    · rfl
  · have h := vector_get_set (w := 6) a.s d r v
    rw [Arch.setS, if_neg hd, if_neg hd]
    by_cases hr : r = d
    · rw [if_pos hr, Arch.sreg, if_neg (hr ▸ hd)]
      exact h.trans (if_pos hr)
    · rw [if_neg hr, Arch.sreg, Arch.sreg]
      split
      · rfl
      · exact h.trans (if_neg hr)

theorem getLsbD_setBit {n : Nat} (v : BitVec n) (i j : Nat) (b : Bool) (h : j < n) :
    (setBit v i b).getLsbD j = if j = i then b else v.getLsbD j := by
  have hp : (BitVec.ofNat n (2 ^ i)).getLsbD j = decide (i = j) := by
    simp only [BitVec.getLsbD_ofNat, h, decide_true, Bool.true_and, Nat.testBit_two_pow]
  unfold setBit
  split <;> rename_i hb
  · rw [BitVec.getLsbD_or, hp]
    by_cases hij : j = i
    · simp [hij, hb]
    · simp [hij, Ne.symm hij]
  · rw [BitVec.getLsbD_and, BitVec.getLsbD_not, hp]
    by_cases hij : j = i
    · simp [hij, hb]
    · simp [hij, Ne.symm hij, h]

theorem Arch.preg_setP (a : Arch) (d r : Pred) (v : Bool) :
    (a.setP d v).preg r = if r = d then (if d = 0 then true else v) else a.preg r := by
  by_cases hd : d = 0
  · rw [hd, Arch.setP, if_pos rfl, if_pos rfl]
    split
    · rename_i h; rw [h]; rfl
    · rfl
  · have h := getLsbD_setBit a.p d.toNat r.toNat v r.isLt
    rw [Arch.setP, if_neg hd, if_neg hd]
    by_cases hr : r = d
    · rw [if_pos hr, Arch.preg, if_neg (hr ▸ hd), h, if_pos (by rw [hr])]
    · rw [if_neg hr, Arch.preg, Arch.preg, h, if_neg (fun he => hr (BitVec.eq_of_toNat_eq he))]

/-- A write of a scalar register writes it and nothing else. -/
theorem State.writesS_putS (s : State) (d : Reg) (v : Word) : WritesS d v s (s.putS d v) := by
  refine ⟨by simp [Arch.sreg_setS], fun r hr => by simp [Arch.sreg_setS, hr], SameBytes.refl s, ?_⟩
  simp only [State.putS, State.onArch, State.onCore, Arch.setS]
  split <;> rfl

theorem State.writesP_putP (s : State) (d : Pred) (v : Bool) : WritesP d v s (s.putP d v) := by
  refine ⟨by simp [Arch.preg_setP], fun r hr => by simp [Arch.preg_setP, hr], SameBytes.refl s, ?_⟩
  simp only [State.putP, State.onArch, State.onCore, Arch.setP]
  split <;> rfl

/-! The agenda. -/

theorem Ev.mem_insert (e x : Ev) : ∀ l, x ∈ Ev.insert e l ↔ x = e ∨ x ∈ l
  | [] => by simp [Ev.insert]
  | f :: l => by
    simp only [Ev.insert]
    split
    · simp
    · simp [Ev.mem_insert e x l]; tauto

/-! Results in flight (R91, R92). -/

theorem State.inFlight_later (s : State) (d : Dest) (lat : Nat) (v : Word) (fl : BitVec 8) :
    InFlight d lat v fl s (s.later d lat v fl) := by
  unfold State.later State.pending
  split <;> rename_i h
  · exact ⟨fun e => Ev.mem_insert _ _ _, by simp [h], SameBytes.refl s, rfl⟩
  · exact ⟨fun e => Ev.mem_insert _ _ _, by simp [h], SameBytes.refl s, rfl⟩

/-! Taking a trap (R327, R329) and a fault of the firmware context (R333). -/

/-- The first trap of a cycle is recorded. -/
theorem State.raises_fault (s : State) (cause : BitVec 8) (data : Word) (hf : s.firmware = false) (ht : s.core.trap = none) :
    Raises cause data s (s.fault cause data) := by
  have h : s.fault cause data = s.takeTrap (s.instrRec cause data) := by simp [State.fault, hf]
  rw [h, State.takeTrap, ht, Option.any_none, if_neg Bool.false_ne_true]
  refine ⟨rfl, rfl, fun hl => ?_, fun l hl => ?_, rfl, SameBytes.refl s, rfl⟩
  · simp [State.instrRec, State.recOf, Core.named, hl]
  · simp [State.instrRec, State.recOf, Core.named, hl]

/-- Of several traps of one cycle the lowest code stays (R32). -/
theorem State.takeTrap_of_le (s : State) (t u : TrapRec) (h : s.core.trap = some u) (hle : u.cause.toNat ≤ t.cause.toNat) :
    s.takeTrap t = s := by
  simp [State.takeTrap, h, hle]

theorem mem_ringKeep (l : List LogRec) (r : LogRec) : r ∈ ringKeep (l ++ [r]) := by
  unfold ringKeep
  split
  · simp
  · rename_i h
    cases l with
    | nil => simp at h
    | cons a l => simp

theorem State.abandons_fault (s : State) (cause : BitVec 8) (data : Word) (hf : s.firmware = true) :
    Abandons cause s (s.fault cause data) := by
  have h : s.fault cause data = s.abandon cause := by simp [State.fault, hf]
  rw [h]
  refine ⟨rfl, ⟨s.himos.logSeq, s.himos.power, s.dcc, logFwFault, cause.toNat + 256 * s.core.phys⟩, ?_, rfl, rfl, rfl⟩
  exact mem_ringKeep _ _

/-! Branches (R93, R345). -/

theorem State.jump_eq (s : State) (t : Word) (h : s.outside t = false) :
    s.jump t = (s.onCore fun c => { c with pc := t }).onHz fun z => { z with issueAt := s.dcc + 3 } := by
  simp [State.jump, h]

end Sys2Proof.Machine
end

