-- ==== Sys2Proof/Tests/Slice0.lean ====
section
/-! SUPPORT. Tests: ill-formed terms and words that are refused, every instruction's decoding by a word written field by field from the
spec's tables, single steps with results from the spec's own examples, and a state that meets the hypotheses of each statement. -/

set_option Elab.async false

namespace Sys2Proof.Tests

open Sys2Proof.Machine

/-! Words by their fields: a value and the bit it starts at. -/

def fieldsOf (fs : List (Nat × Nat)) : Nat := (fs.map fun f => f.1 * 2 ^ f.2).sum

/-- An unguarded instruction word that ends its bundle (R72). -/
def iw (op : Nat) (fs : List (Nat × Nat)) : Word := BitVec.ofNat 64 (2 ^ 63 + op * 2 ^ 52 + fieldsOf fs)

/-- A chisel word (R85). -/
def cw (op dst s1 s2 s3 imm : Nat) : Word32 := BitVec.ofNat 32 (fieldsOf [(op, 26), (dst, 23), (s1, 20), (s2, 17), (s3, 14), (imm, 0)])

/-- A record with a command code and word 1 (R87). -/
def cr (code w1 : Nat) : CmdRec := { CmdRec.zero with w0 := BitVec.ofNat 64 (code * 2 ^ 56 + 100 * 2 ^ 24), w1 := BitVec.ofNat 64 w1 }

def reads (l : List (Word × Instr)) : Bool := l.all fun x => Except.toOpt (decodeWord x.1) == some x.2
def readsChisel (l : List (Word32 × Instr)) : Bool := l.all fun x => Except.toOpt (decodeChisel x.1) == some x.2
def refuses (l : List Word) : Bool := l.all fun w => (Except.toOpt (decodeWord w)).isNone
def refusesChisel (l : List Word32) : Bool := l.all fun w => (Except.toOpt (decodeChisel w)).isNone

/-! Decoding (R78 to R88). -/

/-- ALU, d = 1, a = 2, b = 3: fn of R82. -/
theorem test_decode_alu : reads
    [(iw 0 [(1, 46), (2, 40), (3, 34), (0, 20)], .add 1 2 3), (iw 0 [(1, 46), (2, 40), (3, 34), (1, 20)], .sub 1 2 3),
     (iw 0 [(1, 46), (2, 40), (3, 34), (2, 20)], .and 1 2 3), (iw 0 [(1, 46), (2, 40), (3, 34), (3, 20)], .or 1 2 3),
     (iw 0 [(1, 46), (2, 40), (3, 34), (4, 20)], .xor 1 2 3), (iw 0 [(1, 46), (2, 40), (3, 34), (5, 20)], .andn 1 2 3),
     (iw 0 [(1, 46), (2, 40), (3, 34), (6, 20)], .shl 1 2 3), (iw 0 [(1, 46), (2, 40), (3, 34), (7, 20)], .shr 1 2 3),
     (iw 0 [(1, 46), (2, 40), (3, 34), (8, 20)], .sar 1 2 3), (iw 0 [(1, 46), (2, 40), (3, 34), (9, 20)], .rol 1 2 3),
     (iw 0 [(1, 46), (2, 40), (3, 34), (10, 20)], .ror 1 2 3), (iw 0 [(1, 46), (2, 40), (3, 34), (11, 20)], .mul 1 2 3),
     (iw 0 [(1, 46), (2, 40), (3, 34), (12, 20)], .mulh 1 2 3), (iw 0 [(1, 46), (2, 40), (3, 34), (13, 20)], .mulhn 1 2 3),
     (iw 0 [(1, 46), (2, 40), (3, 34), (14, 20)], .div 1 2 3), (iw 0 [(1, 46), (2, 40), (3, 34), (15, 20)], .divn 1 2 3),
     (iw 0 [(1, 46), (2, 40), (3, 34), (16, 20)], .rem 1 2 3), (iw 0 [(1, 46), (2, 40), (3, 34), (17, 20)], .remn 1 2 3),
     (iw 0 [(1, 46), (2, 40), (3, 34), (18, 20)], .min 1 2 3), (iw 0 [(1, 46), (2, 40), (3, 34), (19, 20)], .max 1 2 3),
     (iw 0 [(1, 46), (2, 40), (3, 34), (20, 20)], .minn 1 2 3), (iw 0 [(1, 46), (2, 40), (3, 34), (21, 20)], .maxn 1 2 3),
     (iw 0 [(1, 46), (2, 40), (22, 20)], .clz 1 2), (iw 0 [(1, 46), (2, 40), (23, 20)], .ctz 1 2),
     (iw 0 [(1, 46), (2, 40), (24, 20)], .popc 1 2), (iw 0 [(1, 46), (2, 40), (25, 20)], .bswap 1 2),
     (iw 0 [(1, 46), (2, 40), (3, 34), (26, 20)], .sext 1 2 3), (iw 0 [(1, 46), (2, 40), (3, 34), (27, 20)], .zext 1 2 3)] = true := by
  decide +kernel

theorem test_decode_immediates : reads
    [(iw 1 [(1, 46), (2, 40), (5, 0)], .addi 1 2 5), (iw 2 [(1, 46), (2, 40), (2 ^ 36 - 1, 0)], .andi 1 2 (-1)),
     (iw 3 [(1, 46), (2, 40), (5, 0)], .ori 1 2 5), (iw 4 [(1, 46), (2, 40), (5, 0)], .xori 1 2 5),
     (iw 5 [(1, 46), (2, 40), (63, 0)], .shli 1 2 63), (iw 6 [(1, 46), (2, 40), (63, 0)], .shri 1 2 63),
     (iw 7 [(1, 46), (2, 40), (63, 0)], .sari 1 2 63), (iw 8 [(1, 46), (2, 40), (5, 0)], .muli 1 2 5),
     (iw 9 [(1, 46), (2 ^ 46 - 2, 0)], .li 1 (-2)), (iw 0x0A [(1, 46), (2 ^ 18 - 1, 0)], .lih 1 0x3FFFF),
     (iw 0x0B [(1, 46), (24, 0)], .la 1 24)] = true := by
  decide +kernel

/-- The condition codes of R83 stand in fn of CMP, and in cond of CMPI and BCMP. -/
theorem test_decode_compares : reads
    [(iw 0x0C [(7, 46), (2, 40), (3, 34), (0, 20)], .cmp 7 2 3 .eq), (iw 0x0C [(7, 46), (2, 40), (3, 34), (1, 20)], .cmp 7 2 3 .ne),
     (iw 0x0C [(7, 46), (2, 40), (3, 34), (2, 20)], .cmp 7 2 3 .lt), (iw 0x0C [(7, 46), (2, 40), (3, 34), (3, 20)], .cmp 7 2 3 .ge),
     (iw 0x0C [(7, 46), (2, 40), (3, 34), (4, 20)], .cmp 7 2 3 .ltn), (iw 0x0C [(7, 46), (2, 40), (3, 34), (5, 20)], .cmp 7 2 3 .gen),
     (iw 0x0C [(7, 46), (2, 40), (3, 34), (6, 20)], .cmp 7 2 3 .le), (iw 0x0C [(7, 46), (2, 40), (3, 34), (7, 20)], .cmp 7 2 3 .gt),
     (iw 0x0C [(7, 46), (2, 40), (3, 34), (8, 20)], .cmp 7 2 3 .len), (iw 0x0C [(7, 46), (2, 40), (3, 34), (9, 20)], .cmp 7 2 3 .gtn),
     (iw 0x0D [(7, 46), (2, 40), (9, 36), (5, 0)], .cmpi 7 2 .gtn 5),
     (iw 0x0E [(1, 46), (2, 40), (3, 34), (0, 20)], .pand 1 2 3), (iw 0x0E [(1, 46), (2, 40), (3, 34), (1, 20)], .por 1 2 3),
     (iw 0x0E [(1, 46), (2, 40), (3, 34), (2, 20)], .pxor 1 2 3), (iw 0x0E [(1, 46), (2, 40), (3, 20)], .pnot 1 2),
     (iw 0x0E [(1, 46), (2, 40), (4, 20)], .pmov 1 2), (iw 0x0F [(1, 46), (2, 40), (3, 34), (4, 28)], .sel 1 2 3 4),
     (iw 0x10 [(5, 46), (0, 20)], .movpsGet 5), (iw 0x10 [(5, 40), (1, 20)], .movpsSet 5)] = true := by
  decide +kernel

/-- FALU: fn and the FCVT kind in c of R84, rm at bit 17, sat at bit 16; FCMP keeps its condition in rm. -/
theorem test_decode_falu : reads
    [(iw 0x11 [(1, 46), (2, 40), (3, 34), (0, 20), (1, 17), (1, 16)], .fadd 1 2 3 .rtz true),
     (iw 0x11 [(1, 46), (2, 40), (3, 34), (1, 20), (2, 17)], .fsub 1 2 3 .rpi false),
     (iw 0x11 [(1, 46), (2, 40), (3, 34), (2, 20), (3, 17)], .fmul 1 2 3 .rni false),
     (iw 0x11 [(1, 46), (2, 40), (3, 34), (3, 20), (4, 17)], .fdiv 1 2 3 .sr false),
     (iw 0x11 [(1, 46), (2, 40), (3, 34), (4, 20)], .fmin 1 2 3), (iw 0x11 [(1, 46), (2, 40), (3, 34), (5, 20)], .fmax 1 2 3),
     (iw 0x11 [(1, 46), (2, 40), (6, 20), (1, 16)], .fsqrt 1 2 .rne true), (iw 0x11 [(1, 46), (2, 40), (7, 20)], .fabs 1 2),
     (iw 0x11 [(1, 46), (2, 40), (8, 20)], .fneg 1 2), (iw 0x11 [(7, 46), (2, 40), (3, 34), (9, 20), (7, 17)], .fcmp 7 2 3 .gt),
     (iw 0x11 [(7, 46), (2, 40), (3, 34), (9, 20), (6, 17)], .fcmp 7 2 3 .le),
     (iw 0x11 [(1, 46), (2, 40), (0, 28), (10, 20), (1, 17)], .fcvtF2i 1 2 .rtz),
     (iw 0x11 [(1, 46), (2, 40), (1, 28), (10, 20), (1, 17)], .fcvtI2f 1 2 .rtz),
     (iw 0x11 [(1, 46), (2, 40), (2, 28), (10, 20), (1, 17), (1, 16)], .fcvtF2b 1 2 .rtz true),
     (iw 0x11 [(1, 46), (2, 40), (3, 28), (10, 20)], .fcvtB2f 1 2)] = true := by
  decide +kernel

theorem test_decode_branches : reads
    [(iw 0x18 [(2 ^ 32 - 1, 0)], .b (-1)), (iw 0x19 [(4, 46), (5, 40), (2, 36), (7, 0)], .bcmp 4 5 .lt 7),
     (iw 0x1A [(9, 46), (7, 0)], .call 9 7), (iw 0x1B [(9, 46)], .ret 9), (iw 0x1C [(9, 46)], .bi 9),
     (iw 0x1D [(9, 46), (7, 0)], .loop 9 7), (iw 0x1E [(7, 0)], .bzm 7), (iw 0x20 [(10, 46), (11, 40)], .mpush 10 11),
     (iw 0x21 [], .minv), (iw 0x22 [], .mpop), (iw 0x23 [(20, 46), (21, 40)], .mget 20 21)] = true := by
  decide +kernel

/-- M format: d, h, x, oc, sz, ext, inc, off28; the atomics have b, c, fn and off12 in its place (R78, R80). -/
theorem test_decode_memory : reads
    [(iw 0x28 [(2, 42), (10, 36), (1, 31), (1, 30), (1, 29)], .xlate 2 10 ⟨true, true, true⟩), (iw 0x29 [(15, 42)], .hinv 15),
     (iw 0x2A [(62, 46), (15, 42)], .hinfo 62 15),
     (iw 0x2B [(6, 46), (2, 42), (7, 36), (9, 32), (2, 30), (1, 29), (1, 28), (0x40, 0)], .ld 6 ⟨2, 7, 9, 0x40⟩ .w true true),
     (iw 0x2C [(6, 46), (2, 42), (7, 36), (9, 32), (3, 30), (1, 28), (0x40, 0)], .st 6 ⟨2, 7, 9, 0x40⟩ .d true),
     (iw 0x2D [(6, 46), (2, 42), (7, 36), (9, 32), (2, 30), (1, 29), (4, 22), (5, 16), (10, 12), (0x40, 0)],
       .amo 6 ⟨2, 7, 9, 0x40⟩ .w true 4 5 .cas),
     (iw 0x2E [(2, 42), (7, 36), (9, 32), (3, 30), (4, 22), (8, 12), (0x40, 0)], .amop ⟨2, 7, 9, 0x40⟩ .d 4 .xor),
     (iw 0x2F [(6, 46), (7, 36), (1, 30)], .probe 6 7 ⟨false, true, false⟩),
     (iw 0x30 [(2, 42), (7, 36), (9, 32), (0x40, 0)], .pref ⟨2, 7, 9, 0x40⟩)] = true := by
  decide +kernel

/-- S format: a, grp, pt, amask, scope, imm24. -/
theorem test_decode_synchronisation : reads
    [(iw 0x38 [(5, 28), (4000, 0)], .region 4000 5), (iw 0x39 [(11, 24)], .commit .system), (iw 0x3A [(4, 24), (3, 0)], .fence .device 3),
     (iw 0x3B [(255, 37), (23, 32)], .arrive 255 23), (iw 0x3C [(255, 37), (23, 32)], .waitrv 255 23), (iw 0x3D [(7, 37)], .bar 7),
     (iw 0x3E [(9, 45), (7, 37), (2, 32)], .rvinit 7 2 9), (iw 0x3F [(9, 45), (7, 37), (2, 32)], .rvflags 7 2 9),
     (iw 0x40 [(9, 45), (63, 0)], .flagw 63 9), (iw 0x41 [(9, 45)], .dccr 9), (iw 0x42 [(9, 45)], .waitc 9),
     (iw 0x43 [(7, 37), (500, 0)], .align 7 500)] = true := by
  decide +kernel

/-- Q format: a, b, c, qn, pd, slot, port, tile, imm15. -/
theorem test_decode_queues : reads
    [(iw 0x48 [(56, 46), (5, 31), (3, 28)], .qpush .qg 3 56), (iw 0x49 [(20, 40), (21, 34), (1, 31), (3, 28), (63, 0)], .qpusht .qc 3 63 20 21),
     (iw 0x4A [(9, 46), (4, 31)], .qstat .qk 9), (iw 0x4B [(9, 46)], .shape 9), (iw 0x4C [(32767, 0)], .mburst 32767),
     (iw 0x4D [(9, 46), (4095, 0)], .layer 4095 9), (iw 0x4E [(56, 46), (63, 0)], .tmpl 63 56),
     (iw 0x50 [(9, 46), (15, 24), (16, 0)], .pload 15 9 16), (iw 0x51 [(15, 24), (3, 22), (1, 0)], .pbind 15 .s),
     (iw 0x51 [(15, 24)], .pbindUn 15), (iw 0x52 [(9, 46), (2, 22), (7, 0)], .pconst .d 7 9),
     (iw 0x53 [(15, 24), (0x19FF, 0)], .pctl 15 0x19FF), (iw 0x54 [(9, 46), (15, 24)], .pstat 9 15),
     (iw 0x55 [(9, 46), (95, 15)], .ttagRd 9 95), (iw 0x55 [(9, 46), (95, 15), (1, 0)], .ttagWr 95 9),
     (iw 0x56 [(95, 15)], .tclr 95)] = true := by
  decide +kernel

/-- X format, with the CSR numbers of R21. -/
theorem test_decode_system : reads
    [(iw 0x60 [(5, 46), (0x000, 28)], .csrr 5 .dcc), (iw 0x60 [(5, 46), (0x001, 28)], .csrr 5 .rsc), (iw 0x60 [(5, 46), (0x002, 28)], .csrr 5 .lcore),
     (iw 0x60 [(5, 46), (0x003, 28)], .csrr 5 .pid), (iw 0x60 [(5, 46), (0x004, 28)], .csrr 5 .vfid), (iw 0x60 [(5, 46), (0x005, 28)], .csrr 5 .gmemb),
     (iw 0x60 [(5, 46), (0x010, 28)], .csrr 5 .recnt), (iw 0x61 [(5, 46), (0x011, 28)], .csrw .relim 5),
     (iw 0x60 [(5, 46), (0x012, 28)], .csrr 5 .rstat), (iw 0x61 [(5, 46), (0x020, 28)], .csrw .lscale 5),
     (iw 0x61 [(5, 46), (0x021, 28)], .csrw .lscfg 5), (iw 0x61 [(5, 46), (0x022, 28)], .csrw .lsstat 5),
     (iw 0x61 [(5, 46), (0x028, 28)], .csrw .srseed 5), (iw 0x61 [(5, 46), (0x029, 28)], .csrw .steptag 5),
     (iw 0x60 [(5, 46), (0x030, 28)], .csrr 5 .trapc), (iw 0x60 [(5, 46), (0x031, 28)], .csrr 5 .trapv0),
     (iw 0x60 [(5, 46), (0x032, 28)], .csrr 5 .trapv1), (iw 0x60 [(5, 46), (0x033, 28)], .csrr 5 .trapv2),
     (iw 0x60 [(5, 46), (0x034, 28)], .csrr 5 .trapv3), (iw 0x61 [(5, 46), (0x038, 28)], .csrw .numf 5),
     (iw 0x61 [(5, 46), (0x040, 28)], .csrw .fshare 5), (iw 0x61 [(5, 46), (0x048, 28)], .csrw .errinjA 5),
     (iw 0x61 [(5, 46), (0x049, 28)], .csrw .errinjC 5), (iw 0x61 [(5, 46), (0x050, 28)], .csrw .burstcfg 5),
     (iw 0x60 [(5, 46), (0x060, 28)], .csrr 5 .shapeg), (iw 0x62 [(0xFFFF, 0)], .trap 0xFFFF), (iw 0x63 [], .eret), (iw 0x64 [], .halt),
     (iw 0x65 [], .yield), (iw 0x66 [], .nop), (iw 0x67 [(9, 46)], .lsstep 9), (iw 0x68 [(9, 46)], .seed 9),
     (iw 0x69 [(9, 46), (0xFFFF, 0)], .event 0xFFFF 9), (iw 0x6A [(9, 46)], .ctxsave 9), (iw 0x6B [(9, 46)], .ctxload 9)] = true := by
  decide +kernel

/-- The 28 chisel operations in the order of R191. -/
theorem test_decode_chisel : readsChisel
    [(cw 0x01 1 2 3 0 4, .chiselFadd 1 2 3 .sr), (cw 0x02 1 2 3 0 3, .chiselFsub 1 2 3 .rni), (cw 0x03 1 2 3 0 2, .chiselFmul 1 2 3 .rpi),
     (cw 0x04 1 2 3 4 1, .chiselFma 1 2 3 4 .rtz), (cw 0x05 1 2 3 0 0, .chiselFmin 1 2 3), (cw 0x06 1 2 3 0 0, .chiselFmax 1 2 3),
     (cw 0x07 1 2 0 0 0, .chiselFabs 1 2), (cw 0x08 1 2 0 0 0, .chiselFneg 1 2), (cw 0x09 1 2 6 7 0, .chiselClamp 1 2 6 7),
     (cw 0x0A 3 2 4 0 7, .chiselFcmp 3 2 4 .gt), (cw 0x0B 1 2 4 3 0, .chiselSel 1 2 4 3),
     (cw 0x0C 1 2 0 0 (2 * 8 + 1), .chiselCvt 1 2 .bf16 .rtz), (cw 0x0C 1 2 0 0 (1 * 512 + 1), .chiselCvtI2f 1 2 .rtz),
     (cw 0x0D 1 2 0 0 0, .chiselExp2 1 2), (cw 0x0E 1 2 0 0 0, .chiselLog2 1 2), (cw 0x0F 1 2 0 0 0, .chiselRcp 1 2),
     (cw 0x10 1 2 0 0 0, .chiselRsqrt 1 2), (cw 0x11 1 2 3 0 0, .chiselIadd 1 2 3), (cw 0x11 1 2 0 0 (8192 + 8191), .chiselIaddImm 1 2 (-1)),
     (cw 0x12 1 2 3 0 0, .chiselIand 1 2 3), (cw 0x12 1 2 0 0 (8192 + 5), .chiselIandImm 1 2 5), (cw 0x13 1 2 3 0 0, .chiselIshl 1 2 3),
     (cw 0x13 1 2 0 0 (8192 + 5), .chiselIshlImm 1 2 5), (cw 0x14 1 7 0 0 0, .chiselMovk 1 7), (cw 0x14 1 7 0 0 1, .chiselMovkX 1 7),
     (cw 0x15 1 3 0 0 0, .chiselGetc 1 3), (cw 0x16 3 7 0 0 0, .chiselPutc 3 7), (cw 0x17 1 7 0 0 3, .chiselPrev 1 7 3),
     (cw 0x18 3 7 0 0 (3 * 8 + 1), .chiselCacc 3 7 .sqadd .rtz), (cw 0x19 0 3 7 0 255, .chiselRaise 3 7 255), (cw 0x1A 0 7 0 0 0, .chiselOut 7),
     (cw 0x1B 7 0 0 0 0, .chiselCoordRow 7), (cw 0x1B 7 0 0 0 1, .chiselCoordCol 7), (cw 0x1C 0 3 0 0 0, .chiselDrop 3)] = true := by
  decide +kernel

/-- The command codes of R88, each from the queue that serves it. -/
theorem test_decode_records :
    let d := fun q code w1 => decodeRecord q (cr code w1)
    d .qm 0x01 0 = some (.mma (cr 0x01 0) (.start .qm)) ∧ d .qm 0x02 0 = some (.mmaSp (cr 0x02 0) (.start .qm)) ∧
    d .qm 0x03 0 = some (.mmaMx (cr 0x03 0) (.start .qm)) ∧ d .qm 0x04 0 = some (.accz (cr 0x04 0) (.start .qm)) ∧
    d .qm 0x05 0 = some (.accst (cr 0x05 0) (.start .qm)) ∧ d .qm 0x06 0 = some (.fload (cr 0x06 0) (.start .qm)) ∧
    d .qm 0x07 0 = some (.forest (cr 0x07 0) (.start .qm)) ∧ d .qm 0x08 0 = some (.leafg (cr 0x08 0) (.start .qm)) ∧
    d .qc 0x10 0 = some (.copy (cr 0x10 0) (.start .qc)) ∧ d .qc 0x11 0 = some (.fill (cr 0x11 0) (.start .qc)) ∧
    d .qr 0x18 0 = some (.reduce (cr 0x18 0) (.start .qr)) ∧ d .qv 0x20 0 = some (.quant (cr 0x20 0) (.start .qv)) ∧
    d .qv 0x21 0 = some (.deq (cr 0x21 0) (.start .qv)) ∧ d .qk 0x28 0 = some (.attn (cr 0x28 0) (.start .qk)) ∧
    d .qk 0x29 0 = some (.kappend (cr 0x29 0) (.start .qk)) ∧ d .qk 0x2A 0 = some (.kchase (cr 0x2A 0) (.start .qk)) ∧
    d .qk 0x2B 0 = some (.rspanK (cr 0x2B 0) (.start .qk)) ∧
    d .qk 0x2B (2 ^ 63) = some (.rspanC (cr 0x2B (2 ^ 63)) (.start .qk)) ∧
    d .qk 0x2C 0 = some (.ktopk (cr 0x2C 0) (.start .qk)) ∧ d .qk 0x2D 0 = some (.kcompact (cr 0x2D 0) (.start .qk)) ∧
    d .qk 0x2E 0 = some (.beamset (cr 0x2E 0) (.start .qk)) ∧ d .qg 0x30 0 = some (.sgath (cr 0x30 0) (.start .qg)) ∧
    d .qg 0x31 0 = some (.sgpat (cr 0x31 0) (.start .qg)) ∧ d .qc 0x3E 0 = some (.setf (cr 0x3E 0) (.start .qc)) ∧
    d .qr 0x3F 0 = some (.waitf (cr 0x3F 0) (.start .qr)) := by
  decide +kernel

/-- The first and the last of the op values that R81 leaves unassigned, and function codes beyond R82 and R84. -/
theorem test_decode_unassigned :
    Except.toOpt (decodeWord (iw 0x12 [])) = some (.unassignedOpcode (iw 0x12 [])) ∧
    Except.toOpt (decodeWord (iw 0x7F [])) = some (.unassignedOpcode (iw 0x7F [])) ∧
    Except.toOpt (decodeWord (iw 0x00 [(28, 20)])) = some (.unassignedOpcode (iw 0x00 [(28, 20)])) ∧
    Except.toOpt (decodeWord (iw 0x11 [(11, 20)])) = some (.unassignedOpcode (iw 0x11 [(11, 20)])) := by
  decide +kernel

/-! What is ill-formed is refused, as a term and as a word. -/

theorem test_illformed_terms : [Instr.shli 1 2 64, .shri 1 2 64, .sari 1 2 64, .mget 5 5, .xlate 0 1 ⟨true, false, false⟩,
    .xlate 1 1 ⟨false, false, false⟩, .hinv 0, .hinfo 0 1, .hinfo 63 1, .ld 1 ⟨0, 2, 0, 0⟩ .d true false, .ld 1 ⟨0, 0, 0, 0⟩ .w false true,
    .ld 2 ⟨0, 2, 0, 0⟩ .w false true, .st 1 ⟨0, 0, 0, 0⟩ .w true, .amo 1 ⟨0, 2, 0, 0⟩ .w false 3 0 .add, .amo 1 ⟨1, 2, 0, 0⟩ .b false 3 0 .add,
    .amo 1 ⟨1, 2, 0, 0⟩ .d false 3 0 .fadd, .amo 1 ⟨1, 2, 0, 0⟩ .d true 3 0 .add, .amo 1 ⟨1, 2, 0, 0⟩ .w false 3 4 .add,
    .amop ⟨1, 2, 0, 0⟩ .w 3 .cas, .amop ⟨1, 2, 0, 0⟩ .h 3 .add, .probe 1 2 ⟨false, false, false⟩, .region 0 0, .fence .core 0,
    .arrive 0 24, .waitrv 0 24, .rvinit 0 24 1, .rvflags 0 24 1, .align 0 0, .qpush .qm 0 57, .tmpl 0 57, .mburst 0, .pload 0 1 0,
    .pload 0 1 17, .pctl 0 0x2000, .pctl 0 0x0A00, .ttagRd 1 96, .ttagWr 96 1, .tclr 96, .chiselCacc 0 1 .max .rtz, .chiselRaise 0 1 0,
    .mma (cr 0x02 0) (.start .qm), .copy (cr 0x10 0) (.start .qm), .rspanK (cr 0x2B (2 ^ 63)) (.start .qk), .rspanC (cr 0x2B 0) (.start .qk),
    .setf (cr 0x3F 0) (.start .qm), .waitf (cr 0x3E 0) (.start .qm), .fill (cr 0x10 0) (.write 1)].all (fun i => !wellFormed i) = true := by
  decide +kernel

theorem test_illformed_words : refuses
    [iw 5 [(1, 46), (2, 40), (64, 0)], iw 6 [(1, 46), (2, 40), (64, 0)], iw 7 [(1, 46), (2, 40), (64, 0)], iw 0x23 [(5, 46), (5, 40)],
     iw 0x28 [(0, 42), (1, 36), (1, 31)], iw 0x28 [(1, 42), (1, 36)], iw 0x29 [], iw 0x2A [(1, 42)], iw 0x2A [(63, 46), (1, 42)],
     iw 0x2B [(1, 46), (2, 36), (3, 30), (1, 29)], iw 0x2B [(1, 46), (2, 30), (1, 28)], iw 0x2B [(2, 46), (2, 36), (2, 30), (1, 28)],
     iw 0x2C [(1, 46), (2, 30), (1, 28)], iw 0x2C [(1, 46), (2, 30), (1, 29)], iw 0x2D [(1, 46), (2, 36), (2, 30), (3, 22)],
     iw 0x2D [(1, 46), (1, 42), (2, 36), (0, 30), (3, 22)], iw 0x2D [(1, 46), (1, 42), (2, 36), (3, 30), (3, 22), (1, 12)],
     iw 0x2D [(1, 46), (1, 42), (2, 36), (2, 30), (3, 22), (4, 16)], iw 0x2D [(1, 46), (1, 42), (2, 36), (2, 30), (3, 22), (4, 16), (10, 12), (1, 28)],
     iw 0x2E [(1, 42), (2, 36), (2, 30), (3, 22), (10, 12)], iw 0x2E [(1, 46), (1, 42), (2, 36), (2, 30), (3, 22)], iw 0x2F [(1, 46), (2, 36)],
     iw 0x38 [], iw 0x39 [(12, 24)], iw 0x3A [], iw 0x3B [(24, 32)], iw 0x3C [(24, 32)], iw 0x3E [(1, 45), (24, 32)], iw 0x3F [(1, 45), (24, 32)],
     iw 0x43 [], iw 0x48 [(57, 46)], iw 0x48 [(6, 31)], iw 0x4E [(57, 46)], iw 0x4C [], iw 0x50 [(1, 46)], iw 0x50 [(1, 46), (17, 0)],
     iw 0x53 [(0x2000, 0)], iw 0x53 [(0x0A00, 0)], iw 0x55 [(1, 46), (96, 15)], iw 0x55 [(1, 46), (96, 15), (1, 0)], iw 0x56 [(96, 15)],
     iw 0x00 [(1, 28)], iw 0x0C [(10, 20)], iw 0x0C [(8, 46)], iw 0x0A [(1, 46), (2 ^ 18, 0)], iw 0x11 [(5, 17)], iw 0x11 [(9, 20), (4, 17)],
     iw 0x11 [(9, 20), (1, 16)], iw 0x11 [(4, 28), (10, 20)], iw 0x19 [(10, 36)], iw 0x60 [(5, 46), (0x006, 28)], iw 0x66 [(1, 0)]] = true := by
  decide +kernel

theorem test_illformed_chisel : refusesChisel
    [cw 0x00 0 0 0 0 0, cw 0x1D 0 0 0 0 0, cw 0x01 1 2 3 0 5, cw 0x01 1 2 3 1 0, cw 0x0A 4 2 3 0 0, cw 0x0A 1 2 3 0 4, cw 0x0C 1 2 0 0 (512 + 8),
     cw 0x11 1 2 1 0 8192, cw 0x15 1 4 0 0 0, cw 0x18 1 2 0 0 9, cw 0x19 0 1 2 0 0, cw 0x1C 0 4 0 0 0] = true := by
  decide +kernel

/-! States for the tests below. -/

/-- A context that runs on core 0 of partition 0, with virtual 0 to 2^30 mapped to the partition's first bytes. -/
def base : State := State.reset.placeCode nopWord

def onCtx (s : State) (f : Core → Core) : State := { s with core := f s.core }

/-- Registers as they stand before the bundle and behind it. -/
def sets (s : State) (l : List (Reg × Word)) : State :=
  let a := l.foldl (fun (a : Arch) x => a.setS x.1 x.2) s.core.arch
  onCtx s fun c => { c with arch := a, pre := a }

def handles (s : State) (n : HReg) (h : Handle) : State :=
  let a := { s.core.arch with h := s.core.arch.h.set n.toNat h n.isLt }
  onCtx s fun c => { c with arch := a, pre := a }

/-- h1 names the first page of 4,096 bytes, with all rights. -/
def paged : State := handles base 1 ⟨true, true, true, true, 12, 0, 0⟩

def inside (s : State) : State := onCtx s fun c => { c with reg := { c.reg with isOpen := true, entry := 1, len := 4000 } }
def fw (s : State) : State := onCtx s fun c => { c with mode := .firmware }
def masks (s : State) (m : List (BitVec 128)) : State :=
  onCtx s fun c => { c with arch := { c.arch with mask := m }, pre := { c.pre with mask := m } }
def blocked (s : State) (b : Block) : State := onCtx s fun c => { c with blk := b }
def outstanding (s : State) (a : Access) : State := onCtx s fun c => { c with io := [a] }
def layered (s : State) (words : List Word) : State := onCtx s fun c => { c with layer := some ⟨3, words, 8, 0, 0, 16, 0, true⟩ }

/-- A group of the launch, the core its member 0; of rendezvous mode or of tree mode. -/
def grouped (rv : Bool) (memb : BitVec 28) (f : Group → Group) : State :=
  let g : Group := f ⟨7, rv, memb, [], 0, [], Vector.replicate 24 0, 0, []⟩
  let s := onCtx base fun c => { c with groups := [7] }
  { s with disp := { s.disp with launches := s.disp.launches.map fun l => { l with groups := [g] } } }

/-- A second core holds logical core 1 of the launch. -/
def withPeer (s : State) (phys : Nat) : State :=
  { s with others := [{ Core.idle phys 0 with launch := 1, lcore := 1, life := .running }] }

def resident (s : State) (a : Nat) : State := { s with lines := [⟨lineOf a, false, 0, [], false, 0, [], []⟩] }

def access (k : AccKind) (n : Nat) : Access := { base.newAccess k 0 0 n (paged.core.arch.hreg 1) with id := 5 }

/-- A trap of the present cycle. -/
def trapped (s : State) (cause : BitVec 8) : State := onCtx s fun c => { c with trap := some ⟨cause, 0, 0, 0, 0, none, false⟩ }

def launchIs (s : State) (f : Launch → Launch) : State :=
  { s with disp := { s.disp with launches := s.disp.launches.map f } }

/-- A command that runs. -/
def entry (r : CmdRec) : QEntry := ⟨r, 0, BitVec.allOnes 128, 0, 0, base.core.arch.h, none, 0, false, false⟩
def command (r : CmdRec) (f : Run → Run) : State :=
  onCtx base fun c => { c with eng := { c.eng with runs := [f { base.newRun .qm (entry r) [] with id := 5 }] } }
def ran (s : State) : Option Run := s.core.eng.runs.find? fun y => y.id == 5
def queued (s : State) (q : Queue) (l : List QEntry) : State :=
  onCtx s fun c => { c with eng := { c.eng with queues := (Vector.replicate 6 []).set q.code l (by cases q <;> decide) } }

/-! For each statement with hypotheses, states and operands that meet them, clause by clause. -/

theorem test_meets_ImmediatesAndPredicates : base.inLayer = false := by decide +kernel

theorem test_meets_RoundingIsCorrect : ∀ mode ∈ [Rm.rne, .rtz, .rpi, .rni, .sr], ∀ neg ∈ [true, false],
    let r := roundMag .fp32 neg 3 (-150) false mode false 0
    r.flags.getLsbD 2 = false ∧ r.flags.getLsbD 5 = false := by decide +kernel

theorem test_meets_FloatSpecialCases :
    (valOf .fp32 0x7F800001).isNan = true ∧ valOf .fp32 0x7F800000 = .inf false ∧ valOf .fp32 0xFF800000 = .inf true ∧
    (valOf .fp32 0x80000000).isZero = true ∧ (valOf .fp32 0xFF800000).isInf = true ∧ valOf .fp32 0x00000001 = .fin false (0 + 1) (-149) ∧
    valOf .fp32 0x80000001 = .fin true (0 + 1) (-149) := by decide +kernel

theorem test_meets_Branches :
    let s := sets base [(1, 2), (2, 16), (3, 17), (4, 1)]
    let l := layered s [nopWord]
    s.outside 8 = false ∧ 1 < (s.src 1).toNat ∧ s.firmware = false ∧ s.inLayer = false ∧ (s.src 4).toNat ≤ 1 ∧ (s.src 2).toNat % 8 = 0 ∧
    (s.src 3).toNat % 8 ≠ 0 ∧ l.inLayer = true ∧ (∃ y, l.core.layer = some y ∧ 8 * y.words.length ≤ (8 : Word).toNat) ∧
    condHolds .eq (l.src 5) (l.src 6) = true ∧ (masks l [0]).core.pre.mtop = 0 := by
  refine ⟨by decide +kernel, by decide +kernel, by decide +kernel, by decide +kernel, by decide +kernel, by decide +kernel,
    by decide +kernel, by decide +kernel, ⟨_, rfl, by decide +kernel⟩, by decide +kernel, by decide +kernel⟩

theorem test_meets_MaskStack :
    let s := masks base (List.replicate 7 0)
    let top := s.core.pre.mask.headD (BitVec.allOnes 128)
    s.firmware = false ∧ s.core.pre.mask.length < 8 ∧ s.core.pre.mask = top :: List.replicate 6 0 ∧
    8 ≤ (masks base (List.replicate 8 0)).core.pre.mask.length ∧ base.core.pre.mask = [] := by decide +kernel

theorem test_meets_TranslationAndHandles :
    let s := sets base [(1, 0x1000), (2, 2 ^ 56), (3, 2 ^ 40)]
    let a := { access (.xlate 1) 0 with strict := true }
    let late := { a with back := 65, entry := 1 }
    (s.xlated s.core.part s.core.vf (s.src 1) ⟨true, false, false⟩).1 ≠ .cause 0x04 (s.src 1) ∧ 2 ^ 56 ≤ (s.src 2).toNat ∧
    SMap.find State.reset.core.vf.toNat State.reset.fabric.vfs = none ∧ s.firmware = false ∧
    (s.xlated s.core.part s.core.vf (s.src 3) ⟨true, false, false⟩).1 = .cause 0x04 (s.src 3) ∧
    (outstanding base a).core.io.find? (fun b => b.id == 5) = some a ∧ a.kind = .xlate 1 ∧ a.back ≤ base.dcc ∧ base.inRegion = false ∧
    { base with dcc := 64 }.dcc < late.back ∧ late.strict = true ∧ late.entry ≠ base.core.reg.entry ∧ (inside base).inRegion = true ∧
    late.entry = (inside base).core.reg.entry ∧ (outstanding (inside base) late).core.trap = none ∧ 1 ≤ (1 : Reg).toNat ∧ (62 : Reg).toNat ≤ 62 := by decide +kernel

theorem test_meets_LoadsStart :
    let o := 0x60000 - 8
    (inside base).inRegion = true ∧ (inside base).firmware = false ∧ (inside base).granted 0 o 8 ((inside base).srcH 0).rd ∧
    (wordsIn o 8).all (fun w => !(inside base).core.ls.poison.contains w) = true ∧ (fw base).firmware = true ∧ (fw base).inRegion = false ∧
    (fw base).granted 0 o 8 ((fw base).srcH 0).rd ∧
    paged.granted 1 (4096 - 8) 8 (paged.srcH 1).rd ∧ base.granted 0 o 8 (base.srcH 0).rd ∧ base.inRegion = false := by
  simp only [State.granted]; decide +kernel

theorem test_meets_LoadReturns :
    let a := { access (.ld 1 .d false) 8 with value := some [1, 2, 3, 4, 5, 6, 7, 8], issued := 0 }
    let b := access (.ld 1 .d false) 8
    let v := { a with performed := true, back := 96, strict := true }
    let s := { outstanding base v with dcc := 96 }
    let m := { access (.amo 1 .d false .swap) 8 with value := some [1, 2, 3, 4, 5, 6, 7, 8] }
    let e := { outstanding (inside base) { v with entry := 1, back := 97 } with dcc := 96 }
    let t := resident (outstanding base b) 0
    s.core.io.find? (fun b => b.id == 5) = some v ∧ s.inRegion = false ∧ v.performed = true ∧ v.back ≤ s.dcc ∧
    (outstanding base m).core.io.find? (fun b => b.id == 5) = some m ∧ e.inRegion = true ∧ e.core.reg.entry = 1 ∧ v.hnd.lgsz ≠ 0 ∧
    v.issued + 96 ≤ e.dcc ∧ e.dcc < 97 ∧ e.core.trap = none ∧
    t.core.io.find? (fun b => b.id == 5) = some b ∧ b.value = none ∧ b.poison = none ∧ b.performed = false ∧ b.y = 0 ∧ b.entry = 0 ∧
    b.ovl = [] ∧ t.blocked b = false ∧ t.fencedAt t.core.part b.pa = false ∧ isFabric b.pa = false ∧ t.lineWaits b.pa = false ∧
    (∀ i, i < b.data.length → t.pendingByte b (b.pa + i) = none) ∧
    (t.consumeWords (readWords (t.ownByte b) b.pa b.data.length) false).1 = none := by decide +kernel

theorem test_meets_StoreEffects :
    paged.granted 1 (4096 - 8) 8 (paged.srcH 1).wr ∧ (inside paged).granted 1 0 8 ((inside paged).srcH 1).wr ∧ (inside paged).inRegion = true ∧
    granules (putBytes (fun b => (⟨b, 0⟩ : HByte)) 0 (leBytes 8 0) []) ≤ 1024 ∧
    1024 < granules (putBytes (fun b => (⟨b, 0⟩ : HByte)) 0 (leBytes 8 0) ((List.range 1024).map fun i => (8 * i + 8, ⟨0, 0⟩))) ∧ base.inRegion = false ∧
    Mem.wf base.core.ls.mem = true := by
  simp only [State.granted]; decide +kernel

theorem test_meets_AtomicStarts :
    paged.granted 1 0 4 (paged.srcH 1).at_ ∧ paged.inRegion = false ∧ (inside paged).granted 1 0 4 ((inside paged).srcH 1).at_ ∧
    (inside paged).inRegion = true ∧ (inside paged).logEntries < 2048 := by
  simp only [State.granted]; decide +kernel

theorem test_meets_HomeSliceApplies : ∀ k ∈ [AccKind.st, .amop .w .add, .amo 1 .w false .cas],
    let a := access k 4
    let s := resident (outstanding base a) 0
    s.core.io.find? (fun b => b.id == 5) = some a ∧ a.fenced = false ∧ a.performed = false ∧ s.blocked a = false ∧
    s.fencedAt s.core.part a.pa = false ∧ isFabric a.pa = false ∧ s.lineWaits a.pa = false ∧ Mem.wf s.mem = true ∧
    (s.consume a.pa a.data.length false).1 = none ∧ s.poisonedWord a.pa a.data.length = none ∧ a.data.length = sizeBytes .w := by
  decide +kernel

theorem test_meets_AccessFaults :
    let bad := handles base 1 ⟨true, false, false, false, 12, 0, 0⟩
    let gone := handles base 1 ⟨true, true, true, true, 12, 0x6000000, 0⟩
    (base.srcH 1).v = false ∧ (paged.srcH 1).v = true ∧ 1 % 8 ≠ 0 ∧ (paged.srcH 1).bytes 1 < 4096 - 4 + 8 ∧ (bad.srcH 1).fits 1 0 8 = true ∧
    exists_ ((bad.srcH 1).addr 0) 8 = true ∧ (bad.srcH 1).rd = false ∧ (bad.srcH 1).wr = false ∧ (inside paged).inRegion = true ∧
    (gone.srcH 1).v = true ∧ (gone.srcH 1).fits 1 0 8 = true ∧ exists_ ((gone.srcH 1).addr 0) 8 = false := by decide +kernel

theorem test_meets_ProbePrefetchFill :
    let s := sets base [(1, 0), (2, 2 ^ 36 + 1), (3, 8), (4, 2 ^ 40), (5, 2 ^ 30 + 1)]
    let p : Perms := ⟨true, false, false⟩
    let q := s.probePages p 0 7 maxPages
    let f := s.probePages p (2 ^ 40) (2 ^ 40 + 7) maxPages
    let walks := fun (n : Nat) => onCtx s fun c => { c with walk := some n }
    let host := { paged with mem := paged.mem.writeBytes 0x3000 [0x7B] }
    (s.src 1).toNat = 0 ∧ 2 ^ 36 < (s.src 2).toNat ∧ (s.src 3).toNat ≠ 0 ∧ (s.src 3).toNat ≤ 2 ^ 36 ∧ s.firmware = false ∧ q.1 = none ∧
    q.2.core.blk = .none ∧ q.2.dcc = s.dcc ∧ q.2.firmware = false ∧ f.1 = some ⟨0x04, s.src 4, 2 ^ 40⟩ ∧ f.2.core.trap = none ∧
    f.2.firmware = false ∧ (s.src 5).toNat ≤ 2 ^ 36 ∧ (s.probePages p 0 (2 ^ 30) maxPages).1 = some ⟨0x04, 2 ^ 30, 2 ^ 30⟩ ∧ s.inRegion = false ∧
    s.core.walk = none ∧ (walks 5).core.walk = some 5 ∧ s.dcc < 5 ∧ (walks 0).core.walk = some 0 ∧ 0 ≤ s.dcc ∧ s.core.blk = .none ∧
    (host.hostOwned (host.srcH 1) 0).1 = true ∧ (inside s).inRegion = true ∧
    (access (.probe p 7) 0).performed = false ∧ 7 < { access (.probe p 7) 0 with va := 0x1000 }.va.toNat ∧
    (blocked s (.probe 5)).core.blk = .probe 5 ∧ s.core.blocked = [] ∧ (s.hostOwned (paged.srcH 1) 4095).1 = false ∧ (paged.srcH 1).v = true ∧ (paged.srcH 1).rd = true ∧ 4095 < (paged.srcH 1).bytes 1 ∧
    isFabric ((paged.srcH 1).addr 4095) = false ∧ isTier2 0 = false ∧ s.lines.length < 16 := by decide +kernel

theorem test_meets_RegionAndCommitIssue :
    base.firmware = false ∧ base.inRegion = false ∧ (2 ^ 20 : BitVec 24).toNat ≤ base.maxLen ∧ base.maxLen < (2 ^ 20 + 1 : BitVec 24).toNat ∧
    (∀ e ∈ base.agenda, e.target ≠ base.me) ∧ base.core.replay.repend = false ∧
    (onCtx base fun c => { c with replay := { c.replay with repend := true } }).core.replay.repend = true ∧
    (inside base).inRegion = true := by decide +kernel

theorem test_meets_CommitAndPublish :
    let s := onCtx (inside base) fun c => { c with reg := { c.reg with commit := .checking .core }, held := { c.held with sbLs := [(0, 1)] } }
    let p : PubSet := ⟨5, 1, 0, .device, 0, [(0, 1)], [], 1, [], [], [], 0, 0, 0, 0, 0, 0, false, none⟩
    let odd := onCtx s fun c => { c with reg := { c.reg with digest := 1 } }
    let t := resident { onCtx base fun c => { c with reg := { c.reg with commit := .publishing 5 } } with pubs := [p] } 0
    s.inRegion = true ∧ s.core.reg.commit = .checking .core ∧ s.core.trap = none ∧ s.core.reg.digest = s.core.cruiser.digest ∧
    odd.core.reg.digest ≠ odd.core.cruiser.digest ∧ t.core.blocked = [] ∧ Mem.wf s.core.ls.mem = true ∧
    s.core.held.sbLs.Pairwise (fun x y => x.1 < y.1) ∧ t.pubs.find? (fun q => q.id == 5) = some p ∧ p.applied = false ∧ p.log = [] ∧
    p.fenced = none ∧ p.vis ≤ t.dcc ∧ Mem.wf t.mem = true ∧ p.plain.Pairwise (fun x y => x.1 < y.1) ∧
    (∀ e ∈ p.plain, isHbm e.1 = true ∧ t.resident e.1 = true) ∧ scopeTier p.sc = false ∧ scopeMedia p.sc = false ∧ t.unacked p.id = false ∧
    t.core.isCtx p.launch p.lcore = true ∧ t.firmware = false ∧ t.core.reg.commit = .publishing 5 := by decide +kernel

theorem test_meets_DiscardAndReentry :
    let s := blocked base .reentry
    let r := fun (cause : BitVec 8) (cnt : BitVec 8) => onCtx s fun c => { c with
      replay := { c.replay with cause := cause }, stat := { c.stat with cnt := cnt } }
    (inside base).inRegion = true ∧ (inside base).core.reg.entry = 1 ∧ (inside base).core.trap = none ∧
    (inside base).core.reg.snap.layer = none ∧ base.inRegion = false ∧ (r 0x15 255).core.blk = .reentry ∧ (r 0x15 255).core.stopping = false ∧
    (r 0x15 255).toRetranslate = [] ∧ (r 0x15 255).resultsPending = false ∧ (r 0x08 2).core.stat.cnt.toNat + 1 ≤ (r 0x08 2).core.arch.csr.relim.toNat ∧
    (r 0x08 3).core.arch.csr.relim.toNat < (r 0x08 3).core.stat.cnt.toNat + 1 ∧ (r 0x08 3).core.trap = none := by decide +kernel

theorem test_meets_RevocationClearsHandles :
    let a := access .st 8
    (withPeer base 1).cores.length = 2 ∧ ((withPeer base 1).cores.map Core.phys).Nodup ∧
    (∃ c ∈ (inside paged).cores, c.vf = 0 ∧ c.reg.isOpen = true ∧ (c.arch.hreg 1).v = true ∧ (c.arch.hreg 1).overlaps 4095 1 = true) ∧
    (∃ c ∈ (outstanding paged a).cores, a ∈ c.io) ∧ a.kind.mem = true ∧ a.performed = false ∧ a.hnd.overlaps 4095 1 = true := by
  decide +kernel

theorem test_meets_FenceHoldsItsClasses :
    let s := outstanding base (access .st 8)
    let p : PubSet := ⟨0, 1, 0, .core, 0, [], [], 1, [], [(0, 0)], [], 0, 0, 0, 0, 0, 0, false, none⟩
    let t := { base with lines := [⟨2 ^ 48, true, 0, [], false, 0, [(1, 0, 0)], []⟩] }
    (fw base).firmware = true ∧ base.core.fenceWaits 1 base.serial = false ∧ (inside base).inRegion = true ∧ scopeTier .device = false ∧
    scopeMedia .device = false ∧ base.pubs = [] ∧ (∃ q ∈ { base with pubs := [p] }.pubs, q.launch = base.core.launch ∧ q.lcore = base.core.lcore ∧
      q.id < 6 ∧ ∃ x ∈ q.classes, (1 : BitVec 16).getLsbD x.2.toNat = true) ∧ scopeTier .tier2 = true ∧
    (∃ l ∈ t.lines, l.dirty = true ∧ isTier2 l.addr = true ∧ t.wrote 1 l.writers = true) ∧ scopeMedia .media = true ∧ s.core.blocked = [] ∧ s.firmware = false ∧ s.core.fenceWaits 1 6 = true ∧ s.core.blk = .none ∧ { s with serial := 6 }.serial = 6 ∧
    (blocked s (.fence 3)).core.blk = .fence 3 := by decide +kernel

theorem test_meets_RendezvousPoint :
    let full := grouped true 1 fun g => g.setPoint 23 { g.point 23 with ini := true, exp := 1 }
    let more := grouped true 1 fun g => g.setPoint 0 { g.point 0 with cnt := 1 }
    (23 : BitVec 5).toNat < 24 ∧ (full.group 7).any (fun x => (x.point 23).ini && decide ((x.point 23).exp ≤ (x.point 23).cnt + 1)) = true ∧
    (more.group 7).any (fun x => !(x.point 0).ini && decide ((x.point 0).cnt < 2) && decide (1 ≤ (x.point 0).cnt)) = true ∧
    (full.group 7).any (fun x => !(x.point 0).ini) = true ∧ full.core.isCtx full.core.launch 0 = true := by decide +kernel

theorem test_meets_RendezvousContext :
    let s := grouped true 1 id
    let r := fun (a : ArrRec) => onCtx (blocked s (.waitrv 7 0)) fun c => { c with arr := c.arr.set 0 a }
    s.core.groupIndex 7 < 4 ∧ (s.group 7).isSome = true ∧ s.firmware = false ∧ s.groupOk 7 true = true ∧ s.inRegion = false ∧
    s.core.unperformed s.serial = false ∧ ({ outstanding s (access .st 8) with serial := 9 }).core.unperformed 9 = true ∧
    (inside s).inRegion = true ∧ (inside s).logEntries < 2048 ∧ (grouped false 1 id).groupOk 7 true = false ∧
    (grouped true 2 id).groupOk 7 true = false ∧ s.core.blk ≠ .waitrv 7 0 ∧ (s.core.arrRec 7 0).stale = 0 ∧
    0 < ((r ⟨true, true, 0, 1⟩).core.arrRec 7 0).stale ∧ (r ⟨true, true, 0, 0⟩).core.blk = .waitrv 7 0 ∧
    ((r ⟨true, true, 0, 0⟩).core.arrRec 7 0).pending = true ∧ ((r ⟨true, false, 5, 0⟩).core.arrRec 7 0).gen = 5 ∧
    (s.group 7).any (fun x => (x.point 0).gen != 5) = true ∧ s.waitSent 7 0 = false ∧ s.core.blocked = [] ∧
    ({ s with agenda := Ev.insert ⟨20, 0, s.me, .waitrvRelease 7 0 none⟩ s.agenda }).waitSent 7 0 = true := by decide +kernel

theorem test_meets_RvinitAndRvflags :
    let s := sets (grouped true 1 id) [(1, 1), (2, 28), (3, 0), (4, 29)]
    (s.group 7).isSome = true ∧ s.firmware = false ∧ s.groupOk 7 true = true ∧ 1 ≤ (s.src 1).toNat ∧ (s.src 2).toNat ≤ 28 ∧
    (inside s).inRegion = true ∧ (inside s).logEntries < 2048 ∧ s.inRegion = false ∧ (s.src 3).toNat = 0 ∧ 28 < (s.src 4).toNat ∧
    (grouped false 1 id).groupOk 7 true = false := by decide +kernel

theorem test_meets_BarReleasesAllMembers :
    let s := withPeer (grouped false 3 id) 1
    let last := withPeer (grouped false 3 fun g => { g with bars := [1] }) 4
    (s.group 7).isSome = true ∧ s.firmware = false ∧ (grouped true 1 id).groupOk 7 false = false ∧ s.groupOk 7 false = true ∧
    (inside s).inRegion = true ∧ s.inRegion = false ∧ s.core.reissue = false ∧ s.core.unperformed s.serial = false ∧
    ({ outstanding s (access .st 8) with serial := 9 }).core.unperformed 9 = true ∧
    (s.group 7).any (fun x => (List.range 28).any fun m => x.has m && m != s.core.lcore && !x.bars.contains m) = true ∧
    (last.group 7).any (fun x => (List.range 28).all fun m => !x.has m || m == last.core.lcore || x.bars.contains m) = true ∧
    (s.group 7).any (fun x => (s.memberPhys x).all fun p => p / 4 == s.core.phys / 4) = true ∧
    (last.group 7).any (fun x => (last.memberPhys x).all fun p => p / 4 == last.core.phys / 4) = false ∧
    (onCtx s fun c => { c with reissue := true }).core.reissue = true ∧ (blocked s (.bar 7)).core.blk = .bar 7 ∧ s.core.blocked = [] := by decide +kernel

theorem test_meets_TimedWaits :
    let s := { sets (grouped true 1 id) [(1, 11), (2, 12)] with dcc := 10 }
    let two := grouped true 3 fun g => { g with aligns := [(0, 5)] }
    s.firmware = false ∧ (s.src 1).toNat ≤ s.dcc + 1 ∧ s.dcc + 1 < (s.src 2).toNat ∧ s.core.blk = .none ∧
    (blocked s (.waitc 10)).core.blk = .waitc 10 ∧ (10 : Nat) ≤ s.dcc ∧ (grouped true 2 id).memberOf 7 = false ∧ s.memberOf 7 = true ∧
    (two.group 7).any (fun x => x.has 1 && x.aligns.all fun e => e.1 != 1) = true ∧
    (s.group 7).any (fun x => (List.range 28).all fun m => !x.has m || m == s.core.lcore || x.aligns.any fun e => e.1 == m) = true ∧
    (blocked two (.align 7 5)).core.blk = .align 7 5 ∧ two.core.trap = none ∧ (two.group 7).any (fun x => x.aligns.contains (0, 5)) = true ∧
    (two.group 7).any (fun x => x.aligns.contains (0, 6)) = false ∧ two.core.blocked = [] ∧ two.core.layer = none ∧
    (fw base).firmware = true := by decide +kernel

theorem test_meets_CsrReadsAndWrites :
    let s := sets base [(1, 255), (2, 256), (3, 65535), (4, 65536), (5, 0x7F7FFFFF), (6, 0x7F800000), (7, 0x000003E800008F01), (8, 0xEFFFFFFFF),
      (9, 0x100000000), (10, 0x000FFFFFFFFFFFF8), (11, 7), (12, 0x1C3F), (13, 0x0500)]
    csrPrivileged .fshare = true ∧ csrPrivileged .numf = false ∧ (fw base).firmware = true ∧ s.firmware = false ∧ (s.src 1).toNat < 2 ^ 8 ∧
    ¬(s.src 2).toNat < 2 ^ 8 ∧ (s.src 3).toNat < 2 ^ 16 ∧ ¬(s.src 4).toNat < 2 ^ 16 ∧ 0 < (s.src 5).toNat ∧ (s.src 5).toNat < 0x7F800000 ∧
    ¬(s.src 6).toNat < 0x7F800000 ∧ s.src 8 &&& 0xFFFFFFF100000000 = 0 ∧ s.src 7 &&& 0xFFFF0000FFFF0000 = 0 ∧ s.src 10 &&& 0xFFFF0000FFFF0000 ≠ 0 ∧ s.src 9 &&& 0xFFFFFFF100000000 ≠ 0 ∧
    s.src 10 &&& 0xFFF0000000000007 = 0 ∧ s.src 11 &&& 0xFFF0000000000007 ≠ 0 ∧ s.src 12 &&& 0xFFFFFFFFFFFFE0C0 = 0 ∧
    ((s.src 12).extractLsb' 8 3).toNat ≤ 4 ∧ ¬((s.src 13).extractLsb' 8 3).toNat ≤ 4 := by decide +kernel

theorem test_meets_LossScaleAndSeed :
    let s := sets base [(1, 1), (2, 0)]
    let x := s.core.pre.csr
    let hi := onCtx s fun c => { c with pre := { c.pre with csr := { c.pre.csr with lscale := 0x7F000000 } } }
    let lo := onCtx s fun c => { c with pre := { c.pre with csr := { c.pre.csr with lscale := 0x00800000, lscfg := 0x000003E800008F01 } } }
    let near := onCtx s fun c => { c with pre := { c.pre with csr := { c.pre.csr with lsstat := 999 } } }
    s.firmware = false ∧ s.src 1 = 1 ∧ 0 < x.lscale.toNat ∧ x.lscale.toNat < 0x7F800000 ∧
    (lo.core.pre.csr.lscfg.extractLsb' 0 8).toNat * 2 ^ 23 = lo.core.pre.csr.lscale.toNat ∧
    (lo.core.pre.csr.lscfg.extractLsb' 0 8).toNat * 2 ^ 23 < hi.core.pre.csr.lscale.toNat ∧
    (x.lscfg.extractLsb' 32 16).toNat = 1000 ∧ (x.lsstat.extractLsb' 0 16).toNat = 0 ∧
    (near.core.pre.csr.lsstat.extractLsb' 0 16).toNat + 1 = 1000 ∧ (x.lscfg.extractLsb' 8 8).toNat * 2 ^ 23 ≤ hi.core.pre.csr.lscale.toNat ∧
    x.lscale.toNat < (x.lscfg.extractLsb' 8 8).toNat * 2 ^ 23 := by decide +kernel

theorem test_meets_CycleCounterReads : (3 * 2 ^ 45 : Nat) < 2 ^ 51 ∧ (3 * 2 ^ 45) % 2 ^ 45 = 0 ∧ (3 * 2 ^ 45 + 1) % 2 ^ 45 ≠ 0 ∧
    (2 ^ 51 : Nat) < 2 ^ 52 ∧ (3 * 2 ^ 45 + 1 : Nat) < 2 ^ 52 := by decide

theorem test_meets_UnassignedOpsAreIllegal : ∀ op ∈ [0x12, 0x17, 0x1F, 0x24, 0x27, 0x31, 0x37, 0x44, 0x47, 0x4F, 0x57, 0x5F, 0x6C, 0x7F],
    (Except.toOpt (decodeWord (iw op [(2 ^ 52 - 1, 0)]))) = some (.unassignedOpcode (iw op [(2 ^ 52 - 1, 0)])) := by decide +kernel

theorem test_meets_SystemEffects :
    (fw base).firmware = true ∧ (inside base).inRegion = true ∧ base.core.blk ≠ .halt ∧ base.inRegion = false ∧ base.firmware = false ∧
    base.hostWaits base.core base.serial = false ∧ base.inLayer = false ∧ (layered base [nopWord]).inLayer = true ∧
    ({ outstanding base (access .st 8) with serial := 9 }).hostWaits (outstanding base (access .st 8)).core 9 = true ∧
    base.core.blk = .none := by decide +kernel

theorem test_meets_HaltEndsTheContext :
    let w := fun (k : WaitKind) => onCtx (blocked base .halt) fun c => { c with waits := [⟨1, 1, k⟩] }
    (fw base).firmware = true ∧ (∃ x ∈ (w .halt).core.waits, x.kind = .halt) ∧ (∀ x ∈ (w (.bar 7)).core.waits, x.kind ≠ .halt) ∧
    (∀ x ∈ (blocked base .halt).core.waits, x.kind ≠ .halt) ∧ base.inLayer = false ∧ (blocked base .halt).firmware = false ∧
    (base.launch).any (fun l => l.halted.length + 1 == l.n) = true ∧
    ((launchIs base fun l => { l with n := 2 }).launch).any (fun l => l.halted.length + 1 != l.n) = true ∧
    (blocked base .halt).core.blk = .halt ∧ base.core.blk ≠ .halt ∧ base.firmware = false ∧ base.inRegion = false ∧
    base.hostWaits base.core base.serial = false ∧
    ({ outstanding base (access .st 8) with serial := 9 }).hostWaits (outstanding base (access .st 8)).core 9 = true := by decide +kernel

theorem test_meets_RecordsArePosted :
    let d : Vf := ⟨true, 1024, 0, 0, 0, 0, 0, 0, false, []⟩
    let f := { d with posted := 1 }
    let h := { d with held := List.replicate 256 ⟨0, 0, 0, []⟩ }
    let s := fun (x : Vf) => { base with fabric := { base.fabric with vfs := [(0, x)] } }
    SMap.find 0 (s d).fabric.vfs = some d ∧ (15 : Nat) < 16 ∧ (List.replicate 7 (0 : Word)).length ≤ 7 ∧
    (s d).fabric.vfs.Pairwise (fun x y => x.1 < y.1) ∧ d.full = false ∧ d.held = [] ∧ f.full = true ∧ f.held.length < 256 ∧
    256 ≤ h.held.length ∧ h.held ≠ [] := by decide +kernel

theorem test_meets_ContextImages :
    let s := sets (fw base) [(1, 8192), (2, 8), (3, 0x60000), (4, 0x5E000)]
    s.firmware = true ∧ (s.src 1).toNat % 8192 = 0 ∧ (s.src 4).toNat + 8192 ≤ 0x60000 ∧ (s.src 2).toNat % 8192 ≠ 0 ∧
    0x60000 < (s.src 3).toNat + 8192 ∧ (onCtx s fun c => { c with life := .halted }).core.life = .halted ∧
    (onCtx s fun c => { c with life := .parked }).core.life = .parked ∧ (onCtx s fun c => { c with life := .saving }).core.life = .saving ∧
    Mem.wf s.core.ls.mem = true ∧ s.core.layer = none := by decide +kernel

/-- A sequence of one word without patches, for entry 3 of partition 0, at physical 0x8000. -/
def sequenced : State :=
  let m := (base.mem.writeBytes 0x8000 (leBytes 8 nopWord.toNat))
  { base with mem := m, disp := { base.disp with microcode := [(3, (BitVec.ofNat 64 (2 ^ 63 + 0x8000), 0))] } }

theorem test_meets_LayerEntersItsSequence :
    let s := sets base [(1, 8), (2, 4)]
    s.firmware = false ∧ s.inRegion = false ∧ s.inLayer = false ∧ (s.sequence 3 (s.src 1).toNat).1 = none ∧ s.core.trap = none ∧
    (sequenced.sequence 3 0).1.isSome = true ∧ (inside s).inLayer = false ∧
    SMap.find (s.core.part.toNat * 4096 + (3 : BitVec 12).toNat) s.disp.microcode = none ∧ (s.src 2).toNat % 8 ≠ 0 ∧
    (inside s).inRegion = true ∧ (layered s [nopWord]).inLayer = true ∧
    (patchSeq 1 [5] [nopWord] (BitVec.ofNat 64 (0 * 2 ^ 32 + 4 * 2 ^ 24 + 47 * 2 ^ 16))).isSome = true := by decide +kernel

/-- An element with one word before it, its trap enables as given. -/
def atWord (ctl : BitVec 15) : State :=
  onCtx base fun c => { c with eng := { c.eng with jobs := [{ laneJob (cw 0x01 1 2 3 0 0) 0 with ctl := ctl }] } }

theorem test_meets_ChiselWords :
    let j := { laneJob (cw 0x01 1 2 3 0 0) 0 with ctl := 0xFF }
    (atWord 0xFF).core.eng.jobs.head? = some j ∧ j.trap = none ∧ (0 : BitVec 8) &&& j.ctl.setWidth 8 = 0 ∧ flagNV &&& j.ctl.setWidth 8 ≠ 0 := by
  decide +kernel

theorem test_meets_ChiselWords_transcendental :
    (valOf .fp32 0x7FC00000).isNan = true ∧ (valOf .fp32 0xFF800000).isInf = true ∧ (valOf .fp32 0x80000000).isZero = true ∧
    valOf .fp32 0xBF800000 = .fin true (8388607 + 1) (-23) ∧ (rcpDef 0x40400000 false).flags.getLsbD 2 = false ∧
    (exp2Def 0x40000000 false).flags.getLsbD 4 = false := by decide +kernel

theorem test_meets_ChiselManagement :
    let s := sets base [(1, 0x60000 - 64), (2, 2), (3, 0x60000 - 60), (4, 0), (5, 0x00BF0000), (6, 0x00400000)]
    let put := fun (x : ChiselSlot) => onCtx s fun c => { c with arch := { c.arch with slots := c.arch.slots.set 15 x } }
    let word := BitVec.ofNat 32 (cw 0x1A 0 7 0 0 0).toNat
    let ok := onCtx s fun c => { c with ls := { c.ls with mem := c.ls.mem.writeBytes 0 (leBytes 4 word.toNat) } }
    let busy := onCtx (put ⟨[word], 0, 0, some .a⟩) fun c => { c with eng := { c.eng with runs :=
      [{ base.newRun .qm (entry CmdRec.zero) [] with use := [⟨.a, 15, [word], 0, 100⟩] }] } }
    s.firmware = false ∧ (95 : BitVec 7).toNat < 96 ∧ (s.src 1).toNat % 4 = 0 ∧ (s.src 1).toNat + 4 * 16 ≤ 0x60000 ∧ (s.src 2).toNat % 4 ≠ 0 ∧
    0x60000 < (s.src 3).toNat + 4 * 16 ∧ (wordsIn (0x60000 - 64) 64).all (fun w => !s.core.ls.poison.contains w) = true ∧
    (Except.toOpt (decodeChisel (BitVec.ofNat 32 (leNat (ok.core.ls.mem.readBytes 0 4))))).isSome = true ∧
    (Except.toOpt (decodeChisel (BitVec.ofNat 32 (leNat (s.core.ls.mem.readBytes 0 4))))).isSome = false ∧ s.inRegion = false ∧
    (s.core.arch.slots.get 15).prog = [] ∧ (put ⟨[word], 0, 0, none⟩).portClaimed .a = false ∧
    ((put ⟨[word], 0, 0, none⟩).core.arch.slots.get 15).prog ≠ [] ∧ busy.portClaimed .a = true ∧
    (busy.core.arch.slots.get 15).port = some .a ∧ ((s.src 4).extractLsb' 22 9 = 0 ∧ tagReserved ((s.src 4).extractLsb' 16 6).toNat = false) ∧
    tagReserved ((s.src 5).extractLsb' 16 6).toNat = true ∧ (s.src 6).extractLsb' 22 9 ≠ 0 := by decide +kernel

theorem test_meets_QueuePushes :
    let r : CmdRec := cr 0x3E 0
    let s := inside base
    let full := queued s .qc (List.replicate 32 (entry r))
    let inj := onCtx s fun c => { c with errinjC := 0x0000000000000C00 }
    s.firmware = false ∧ base.inRegion = false ∧ s.inRegion = true ∧ s.recordFaults .qc r = [] ∧ s.occupied .qc < 32 ∧
    32 ≤ (onCtx full fun c => { c with eng := { c.eng with qprev := Vector.replicate 6 (32, 100, 0x3E) } }).occupied .qc ∧
    s.recordFaults .qc (cr 0x01 0) ≠ [] ∧ s.core.armed 4 = none ∧ (inj.core.armed 4).isSome = true ∧ s.core.trap = none := by decide +kernel

theorem test_meets_ArrayPower :
    let s := sets base [(1, 3), (2, 4)]
    let a := fun (r : Ramp) => onCtx s fun c => { c with eng := { c.eng with array := { c.eng.array with ramp := r, serial := 3 } } }
    s.firmware = false ∧ (s.src 1).toNat ≤ 3 ∧ 3 < (s.src 2).toNat ∧ (32767 : BitVec 15) ≠ 0 ∧ (a .idle).core.eng.array.ramp = .idle ∧
    (a .up).core.eng.array.serial = 3 ∧ (a .up).core.eng.array.ramp = .up ∧ (a .ramped).core.eng.array.ramp = .ramped ∧
    (a .down).core.eng.array.ramp = .down ∧ s.core.eng.array.burstStart = 0 ∧
    max (s.core.eng.array.last + 1 + 16 * s.core.arch.csr.hold.toNat) 0 ≤ { s with dcc := 1 }.dcc := by decide +kernel

theorem test_meets_CommandsStart :
    let e := entry (cr 0x11 0)
    let s := { queued (inside base) .qc [e] with dcc := 100 }
    let sp : StartSpec := { StartSpec.plain with engine := true }
    let busy := onCtx s fun c => { c with eng := { c.eng with free := Vector.replicate 6 101 } }
    s.core.eng.queues.toList.getD Queue.qc.code [] = e :: [] ∧ e.gone = false ∧ s.startsNow .qc e sp ∧ sp.engine = true ∧ e.startAt = none ∧
    busy.dcc < busy.core.eng.free.toList.getD Queue.qc.code 0 ∧ busy.core.stat.relax = false ∧ busy.core.trap = none ∧
    (onCtx busy fun c => { c with stat := { c.stat with relax := true } }).core.stat.relax = true := by
  simp only [State.startsNow]; decide +kernel

theorem test_meets_CommandsTakeEffect :
    let row := List.replicate 64 0
    let f := command (cr 0x06 0) fun r => { r with nw := 64, capA := List.replicate 65 row }
    let fl := onCtx f fun c => { c with eng := { c.eng with loading := some 5 } }
    let t := command (cr 0x07 0) fun r => { r with capA := [row] }
    let w := fun (set : Bool) (e : QEntry) => onCtx (queued base .qc [e]) fun c => { c with arch := { c.arch with
      flags := c.arch.flags.set 0 ⟨set, 0⟩ } }
    let e := entry { cr 0x3F 0 with w0 := BitVec.ofNat 64 (0x3F * 2 ^ 56 + 2 ^ 17 + 2 ^ 16) }
    (ran fl).any (fun r => r.nw == 64) = true ∧ fl.core.eng.loading = some 5 ∧ (List.range 64).all (fun j => !colBad (row.getD j 0)) = true ∧
    (ran t).any (fun r => r.nw + 1 == (scoreOf r.e.r).ns && (r.capA.getD r.nw []).length == 64 && decide ((scoreOf r.e.r).ad < 4)) = true ∧
    (w true e).core.eng.queues.toList.getD Queue.qc.code [] = [e] ∧ e.gone = false ∧ ((w true e).core.arch.flags.get 0).set = true ∧
    ((w true e).core.arch.flags.get 0).sseq = e.r.w1.extractLsb' 0 16 ∧ ((w false e).core.arch.flags.get 0).set = false ∧
    (w false e).core.stat.relax = false ∧ (w false e).core.trap = none ∧
    (∃ l ∈ { base with lines := [⟨0, false, 0, [(1, 4096)], false, 0, [], []⟩] }.lines, ∃ h ∈ l.yarder, base.dcc < h.2) := by decide +kernel

theorem test_meets_MatrixResults :
    let s := { command (cr 0x01 0) fun r => { r with nr := 4096, res := List.replicate 64 (0, 0) } with dcc := 8 }
    let due := (ran s).any fun r => r.mmaRowDue r.mmaDst.succ && !r.claims .d && decide ((mmaOf r.e.r).n ≤ r.res.length)
    due = true ∧ s.firmware = false ∧ (s.accOf 0).el.Pairwise (fun a b => a.1 < b.1) ∧
    (∀ p ∈ [(valOf .bf16 0x3F80, valOf .bf16 0x8001)], p.1.isNan = false ∧ p.1.isInf = false ∧ p.2.isNan = false ∧ p.2.isInf = false) ∧
    s.maySend false [(0, 1)] := by
  simp only [State.maySend]; decide +kernel

theorem test_meets_DataEnginesWrite :
    let c := command (cr 0x10 0) fun r => { r with flight := [(0, 0)], outs := [⟨0, 0x3F800000, false⟩] }
    let m := { cr 0x10 (1 * 2 ^ 45) with w3 := BitVec.ofNat 64 (2 ^ 63 + 2 ^ 59) }
    let k := onCtx (command m fun r => { r with flight := [(0, 0)], outs := [⟨0, 0, false⟩] }) fun c =>
      { c with held := { c.held with owned := [0] } }
    let q := command { cr 0x20 0 with w3 := 2 ^ 63, w4 := 2 ^ 63 } id
    let d := command { cr 0x18 0 with w4 := 2 ^ 58 } fun r => { r with times := [0] }
    let p := command (cr 0x18 (2 ^ 56)) fun r => { r with times := [0] }
    (ran c).any (fun r => (copyOf r.e.r).comb == 0 && r.flight.length == 1) = true ∧
    (ran k).any (fun r => (copyOf r.e.r).comb != 0 && (copyOf r.e.r).dd.loc && r.outs.all fun o =>
      !k.fencedAt k.core.part (r.e.addr (copyOf r.e.r).dd ((copyOf r.e.r).dstOff 0 o.idx)) &&
        k.core.held.owned.contains (lineOf (r.e.addr (copyOf r.e.r).dd ((copyOf r.e.r).dstOff 0 o.idx)))) = true ∧
    q.early = false ∧ (ran q).any (fun r => r.quant.places == [true, true]) = true ∧
    (ran d).any (fun r => (reduceOf r.e.r).dd.en && !(reduceOf r.e.r).ken && !(r.resultsDue 2 2).isEmpty) = true ∧
    (ran p).any (fun r => !(reduceOf r.e.r).dd.en && (reduceOf r.e.r).ken && r.resultsDue 1 1 == [0]) = true ∧
    (resident base 0).resident 0 = true ∧ k.maySend true [(0, 1)] := by
  simp only [State.maySend]; decide +kernel

def aChain : Chain := ⟨0, 0xFFFFFFFF, 0xFFFFFFFF, 0, 0, 0, 0, 0, 0, 0, 0, 0, 0, 16, 0, base.core.arch.h⟩
def aPage : Page := ⟨0, 0xFFFFFFFF, 0, 0, 15, false, 0, 0x3F800000, 0x3F800000, 0, List.replicate 16 0, [], []⟩

theorem test_meets_CacheEnginesWrite :
    let s := command (cr 0x29 0) fun r => { r with chain := some aChain, pages := [aPage] }
    let x := command { cr 0x2E 0 with w2 := 2 ^ 63 } fun r => { r with vals := [63 * 2 ^ 40 + 7] }
    let y := { resident (command (cr 0x2A 0) fun r => { r with flight := [(1, 0)] }) 0 with dcc := 1 }
    let z := { command { cr 0x28 0 with w4 := 0, w5 := 0 } id with dcc := 200 }
    (ran s).any (fun r => r.chain == some aChain && decide (r.nw < (appendOf r.e.r).nt) && r.pages == [aPage]) = true ∧
    aPage.isSealed = false ∧ aPage.cnt < 16 ∧ aChain.npos ≤ aPage.pos0 + 65535 ∧ exceeds (maxFinite [0]) aPage.ksc = false ∧
    (ran (command (cr 0x29 0) fun r => { r with nw := 1 })).any (fun r => r.nw == (appendOf r.e.r).nt) = true ∧
    ((List.nil (α := Page)).foldl (Unlink.page 0) ⟨aChain, [], [], [], none⟩).full = none ∧
    (ran x).any (fun r => decide (r.vals.getD 0 0 < 2 ^ 48) && decide (r.vals.getD 0 0 / 2 ^ 40 ≤ 63)) = true ∧
    (ran y).any (fun r => r.flight == [(1, 0)] && decide (1 ≤ y.dcc)) = true ∧ y.resident 0 = true ∧ y.firmware = false ∧
    z.early = false ∧ (ran z).any (fun r => r.flight.isEmpty && (attnOf r.e.r).od.loc == (attnOf r.e.r).ld.loc &&
      (r.rowAt (attnOf r.e.r).od (r.offset (r.mdone + 4))).isSome && (r.scoreAt (r.offset (r.mdone + 4))).isNone) = true := by
  decide +kernel

theorem test_meets_TrapsAreClosed :
    let i := trapped (inside base) 0x08
    let b := trapped base 0x03
    let noLaunch := trapped State.reset 0x01
    let killsAll := fun (s : State) => s.onPart 0 fun p => { p with actdef := 0 }
    let parksAll := fun (s : State) => s.onPart 0 fun p => { p with actdef := 0x2AAAAAAAAAAAAAAA }
    let late := onCtx base fun c => { c with trap := some ⟨0x14, 0, 0, 0, 0, some 5, false⟩ }
    let two := withPeer base 1
    (i.core.trap.map TrapRec.cause) = some 0x08 ∧ i.core.life = .running ∧ i.inRegion = true ∧ i.core.trap.map i.actionFor = some .replay ∧
    i.launch.isSome = true ∧ noLaunch.launch = none ∧ b.inRegion = false ∧ b.core.blk ≠ .reentry ∧ b.core.trap.map b.actionFor = some .replay ∧
    (if b.core.replay.at_ = b.core.nextPc then b.core.replay.count.toNat else 0) < b.core.arch.csr.relim.toNat ∧
    (trapped base 0x17).core.trap.map (trapped base 0x17).actionFor = some .park ∧
    (trapped base 0x16).core.trap.map (trapped base 0x16).actionFor = some .forward ∧
    (killsAll b).core.trap.map (killsAll b).actionFor = some .kill ∧ (killsAll i).core.trap.map (killsAll i).actionFor = some .kill ∧
    (killsAll i).inRegion = true ∧ ((killsAll b).cores.map Core.phys).Nodup ∧ (b.launch).any (fun l => l.state != .killed) = true ∧
    (two.others.all fun c => c.launch == base.core.launch && c.life == .running && c.stop.isNone) = true ∧
    (parksAll i).core.trap.map (parksAll i).actionFor = some .park ∧ i.core.stop = none ∧ i.core.reg.snap.layer = none ∧
    late.core.trap.map late.actionFor = some .replay ∧ (late.core.trap.bind TrapRec.access) = some 5 := by decide +kernel

theorem test_meets_PreemptionPhases :
    let stop := fun (s : State) (x : Stop) => onCtx s fun c => { c with stop := some x }
    let asked := stop (inside base) ⟨0, false, false, false, none⟩
    let com := fun (p : CommitPhase) => onCtx (inside base) fun c => { c with reg := { c.reg with commit := p }, stop := some ⟨0, false, false, true, none⟩ }
    let lives := fun (l : Life) => onCtx base fun c => { c with life := l }
    let rep := onCtx (blocked base (.replay 4)) fun c => { c with replay := { c.replay with serial := 4 } }
    asked.core.stop = some ⟨0, false, false, false, none⟩ ∧ asked.core.life = .running ∧ asked.inRegion = true ∧
    asked.core.reg.commit = .none ∧ (com (.checking .core)).core.reg.commit ≠ .none ∧ (stop base ⟨0, false, false, false, none⟩).inRegion = false ∧
    base.core.blk = .none ∧ (com (.draining .core)).core.stop = some ⟨0, false, false, true, none⟩ ∧
    (com (.draining .core)).core.reg.commit = .draining .core ∧ (lives .saving).core.life = .saving ∧ (lives .idle).core.life ≠ .saving ∧
    (stop (lives .saving) ⟨0, false, true, true, none⟩).core.stop = some ⟨0, false, true, true, none⟩ ∧
    Mem.wf base.mem = true ∧ Mem.wf (lives .placed).core.ls.mem = true ∧ (lives .placed).core.life = .placed ∧ (lives .placed).core.replay.repend = false ∧
    (lives .placed).core.layer = none ∧ (lives .placed).core.io = [] ∧ (lives .placed).core.replay.access = none ∧
    (lives .placed).core.replay.hnd = none ∧ (∀ e ∈ (lives .placed).core.tail, 0x5E000 ≤ e.1) ∧ rep.core.replay.serial = 4 ∧
    rep.core.blk = .replay 4 ∧ rep.core.replay.access = none ∧ rep.core.stopping = false ∧ rep.core.replay.hnd = none := by decide +kernel

theorem test_meets_DispatcherEvents :
    let l := fun (st : LState) (t : Nat) => launchIs base fun l => { l with state := st, tstart := t, cid := 0, deadline := some 0 }
    let killed := onCtx (l .killed 0) fun c => { c with life := .halted }
    let c : Contract := ⟨0, 4096, 100, 4096, 1, 0, true, true, 0, 0, 0, false⟩
    let s := { l .running 0 with disp := { (l .running 0).disp with contracts := [(contractKey 0 0, c)] } }
    (l .placing 10).dcc < 10 ∧ ((l .placing 0).launchOf 1).any (fun l => l.state == .placing && l.bad.isNone && l.preds.all (l.preds.contains ·)) = true ∧
    ((launchIs (l .placing 0) fun l => { l with bad := some (0, true) }).launchOf 1).any (fun l => l.state == .placing && l.bad.isSome) = true ∧
    ((l .placing 0).cores.map Core.phys).Nodup ∧ ((l .parked 0).launchOf 1).any (fun x => x.state == .parked && (l .parked 0).resumable x) = true ∧ base.manages 1024 = true ∧
    killed.killQuiet 1 = true ∧ SMap.find (contractKey 0 0) s.disp.contracts = some c ∧ s.disp.contracts.Pairwise (fun a b => a.1 < b.1) ∧
    c.adm = true ∧ c.withdraw = false ∧ 0 < c.period ∧ (s.launchOf 1).any (fun x => x.deadline == some 0 && x.state != .done) = true ∧
    (62 : BitVec 6) ≠ 63 ∧ SMap.find (contractKey 0 62) s.disp.contracts = none ∧ base.launch.any base.bestEffort = true ∧
    base.core.life = .running := by decide +kernel

/-- An enabled queue of function 0 with one record, at physical 0x4000. -/
def aQueue : QDesc := ⟨true, false, 2, 0x4000, 0, 0, 0, 1⟩

theorem test_meets_HostWritesAndScanner :
    let s := { base with disp := { base.disp with queues := [(4095, aQueue)] } }
    let late := { base with disp := { base.disp with queues := [(4095, { aQueue with expseq := 1 })] } }
    let held := { base with himos := { base.himos with held := true } }
    let c := { base.core with phys := 1, lcore := 1, life := .parked, replay := { base.core.replay with repend := true } }
    let parked := { base with saved := [c] }
    let inv : Invocation := ⟨0, { CmdRec.zero with w0 := 0 }, none⟩
    s.disp.queues.Pairwise (fun a b => a.1 < b.1) ∧ s.disp.slots.Pairwise (fun a b => a.1 < b.1) ∧ held.himos.held = true ∧ s.himos.held = false ∧
    base.manages 5 = false ∧ base.manages 1024 = true ∧ held.shut = true ∧ base.shut = false ∧ s.lacksContract inv = true ∧
    (base.disp.launches.all fun l => decide (l.n ≤ (base.enabled 0).length)) = true ∧
    s.ownsQueue 4095 1024 = true ∧ s.ownsQueue 4095 1025 = false ∧ 2 ^ aQueue.lgn < ((5 : BitVec 32) - aQueue.ci).toNat ∧
    ¬2 ^ aQueue.lgn < ((4 : BitVec 32) - aQueue.ci).toNat ∧ base.nextQueue = none ∧ s.nextQueue = some 4095 ∧
    (s.fetchRecord aQueue 0).1.any (fun r => !recExt r && recSeq r == aQueue.expseq) = true ∧
    (late.fetchRecord (late.queue 4095) 0).1.any (fun r => recSeq r != (late.queue 4095).expseq) = true ∧
    (SMap.find aQueue.vf.toNat s.fabric.vfs).any (fun x => x.valid) = true ∧ (parked.parkedOf 1 1) = [c] ∧ c ∈ parked.saved ∧
    c.replay.repend = true ∧ base.disp.launches.any (fun l => l.part == 0 && l.queue == 0 && l.seq == 0 && l.state == .running) = true := by
  decide +kernel

theorem test_meets_LinkProtocol :
    let s := fun (g : Link → Link) => base.onLink 23 g
    let sent : Sent := ⟨⟨3, 0, false, .idle, [], 0⟩, none⟩
    let p : Parcel := ⟨1024, .mgmt, [1], 0, 0⟩
    let long : Parcel := { p with bytes := List.replicate 241 0 }
    let answer := wireBytes ⟨0, 1024, 0, 0, 0, 9, 1, .host⟩ (answerParts ansDone [])
    wireWhole (answer ++ List.replicate 216 0) = true ∧ (wireInstr 23 (answer ++ List.replicate 216 0)).isSome = true ∧
    wireWhole (wireBytes ⟨0, 5, 0, 0, 0, 9, 1, .peer⟩ (txnParts (.write (List.replicate 240 0)))) = false ∧
    p.bytes.length ≤ p.gone + 240 ∧ long.gone + 240 < long.bytes.length ∧
    base.linkUp 23 = true ∧ base.linkUp 0 = true ∧ base.fabric.paths.Pairwise (fun a b => a.1 < b.1) ∧
    (recentNaks (base.link 23).naksTx base.dcc).length < 15 ∧ ((s fun l => { l with nakWait := true }).link 23).nakWait = true ∧
    ((s fun l => { l with resend := [sent], replay := [sent] }).link 23).resend = [sent] ∧ (base.link 23).resend = [] ∧
    512 ≤ ((s fun l => { l with replay := List.replicate 512 sent }).link 23).replay.length ∧ (base.link 23).queue = [] ∧
    ((s fun l => { l with queue := [p] }).link 23).queue = [p] ∧ p.ch = .mgmt ∧
    ((s fun l => { l with tx := some sent.flit }).link 23).wire.isSome = true ∧ (s fun l => { l with width := 0 }).linkUp 23 = false ∧ (23 : BitVec 5).toNat < 24 ∧
    (base.link 23).rxNext = 0 ∧
    (recentNaks (base.link 23).naks base.dcc).length < 15 ∧ (base.link 23).nakHeld = false ∧ (base.link 23).nakWait = false ∧
    (base.link 23).replay.length < 512 ∧ (recentNaks (List.replicate 15 0) base.dcc).length = 15 ∧
    ((s fun l => { l with retrain := some 0 }).link 23).retrain = some base.dcc ∧ (base.link 23).lastRx + 4096 ≤ { base with dcc := 4096 }.dcc ∧
    base.dcc < (base.link 23).lastRx + 4096 := by decide +kernel

theorem test_meets_LinkProtocol_flits (f : Flit) :
    (∃ good : Flit, good.lcrc = crc64 (flitBytes good) ∧ good.seq = f.seq) ∧ ∃ bad : Flit, bad.lcrc ≠ crc64 (flitBytes bad) := by
  have e : ∀ x, flitBytes { f with lcrc := x } = flitBytes f := fun x => rfl
  generalize hx : crc64 (flitBytes f) = x
  refine ⟨⟨{ f with lcrc := x }, ?_, rfl⟩, { f with lcrc := x + 1 }, ?_⟩
  · rw [e, hx]
  · rw [e, hx]
    intro h
    have h : x + 1 = x := h
    bv_omega

theorem test_meets_FabricTransactions :
    let z : Txn := ⟨5, 0, .peer, 0, 0, .write [1, 2], 0, 1, 0, false, 7⟩
    let x : Txn := { z with crc := wireCrc (txnHead z 0) (txnParts z.kind) }
    let y : Txn := { x with kind := .read 2, crc := 0 }
    let s := resident (base.onPart 0 fun p => { p with windows := p.windows.set 0 (BitVec.ofNat 64 (2 ^ 63 + 2 ^ 62 + 2 ^ 61 + 5 * 2 ^ 49 + 1), 0) }) 0
    let o : OutTxn := ⟨9, 0, true, 5, .peer, 0, 0, 1, 0, 5, false, .write [], false, 1⟩
    let good := fun (v : TxnAnswer) => (⟨v, wireCrc ⟨0, 5, 0, 0, 0, 9, 1, .peer⟩ (answerParts (ackCode v) []), 1⟩ : TxnReply)
    let late := { s with fabric := { s.fabric with heads := [{ x with off := 128 }] } }
    let cold := { s with lines := [] }
    let a := outstanding { base with fabric := { base.fabric with out := [o] } } (access .st 8)
    let d : Vf := ⟨true, 1024, 0, 0, 0, 0, 0, 0, false, []⟩
    let moved := { base with saved := [{ base.core with lcore := 0, life := .saved }], core := { base.core with launch := 0, life := .idle } }
    x.ch = .peer ∧ x.snode.toNat < 1024 ∧ s.shut = false ∧ s.fabric.fenced.contains x.snode.toNat = false ∧ x.stale = false ∧
    (s.checkTxn x).1 = true ∧ (s.checkTxn y).1 = false ∧ { y with tries := 3 }.kind = .read 2 ∧ base.accepts x = false ∧
    { x with tries := 2 }.tries < 3 ∧ s.lineWaits x.off.toNat = false ∧ s.txnWaits x = none ∧ x.kind = .write [1, 2] ∧
    s.waitsBehind x = false ∧ late.waitsBehind x = true ∧ cold.txnWaits x = some 0 ∧ (cold.checkTxn x).1 = true ∧ { y with kind := .read 2 }.kind ≠ .again ∧
    a.checkAnswer o (good .done) [] = true ∧ (good .done).verdict = .done ∧ a.checkAnswer o (good .resend) [] = true ∧
    a.checkAnswer o { good .done with crc := 0 } [] = false ∧ (good .done).tries < 3 ∧ 3 ≤ { good .done with tries := 3 }.tries ∧
    a.checkAnswer o { good .done with crc := 0, tries := 3 } [] = false ∧ ({ s with poison := [0] }.consume 0 2 false).1 ≠ none ∧
    (moved.disp.launches.find? fun l => l.part == 0 && l.queue == 0 && l.seq == 0).any (fun l => (moved.poolsUnder 6 l.pools).1 == some [] &&
      (moved.poolsUnder 6 l.pools).2.movable l 1 6) = true ∧ (∀ z ∈ a.fabric.out, z.node ≠ 1 ∧ z.rank = true ∧ z.part = 0) ∧ Mem.wf s.mem = true ∧
    (s.consume 0 2 false).1 = none ∧ base.fabric.out.find? (fun o => o.id == 9) = none ∧ a.fabric.out.find? (fun o => o.id == 9) = some o ∧
    a.pubs.find? (fun q => q.id == o.access) = none ∧ a.core.isCtx o.launch o.lcore = true ∧
    (a.core.io.find? fun b => b.id == o.access) = some (access .st 8) ∧ (access .st 8).kind = .st ∧
    SMap.find 0 [(0, d)] = some d ∧ d.held = [] ∧ d.hnode ≠ 1025 ∧ d.hnode = 1024 ∧
    (({ d with held := [⟨0, 0, 0, [0]⟩], posted := 1 }.posted - (1 : BitVec 32)).toNat < 2 ^ d.lgn) ∧ base.manages 1025 = false ∧ base.manages 1024 = true ∧
    (base.fabric.vfs.Pairwise fun a b => a.1 < b.1) ∧ s.accepts x = true := by decide +kernel

theorem test_meets_EncodeStreams :
    let w0 : Word := BitVec.ofNat 64 (2 ^ 63 + 2 ^ 59 + 1 * 2 ^ 16)
    let e : Enc := ⟨w0, 0, 0, 0, 0, 0, [⟨0, 16, none, some 0, true, [], []⟩], 0⟩
    let two : Enc := { e with frames := [⟨0, 0, some 5, none, false, [], []⟩, ⟨1, 16, none, none, false, [], []⟩] }
    let s := { base with encs := [(encKey 0 31, e)] }
    base.encs.Pairwise (fun a b => a.1 < b.1) ∧ SMap.find (encKey 0 31) base.encs = none ∧ SMap.find (encKey 0 31) s.encs = some e ∧
    e.w0.getLsbD 63 = true ∧ (0 : Word).getLsbD 63 = false ∧ (Enc.fresh w0 0 0 0 0).ok 0 = false ∧ Mem.wf s.mem = true ∧
    e.frames = [⟨0, 16, none, some 0, true, [], []⟩] ∧ base.manages 1024 = true ∧ base.manages 1023 = false ∧
    (two.frames.map EncFrame.k).Nodup ∧ encKey 0 31 < 512 ∧ two.frames[1]?.any (fun f => f.start == 16 &&
      two.frames.any fun h => decide (h.k < f.k) && h.due.isNone) = true ∧ { base with dcc := 16 }.dcc = 16 := by decide +kernel

/-- R372's 1280 × 720 at 25 frames per second: 32 such streams fill an engine, 33 do not. -/
theorem test_meets_EncodeStreams_admission :
    let w0 := BitVec.ofNat 64 (2 ^ 63 + 1279 * 2 ^ 40 + 719 * 2 ^ 28 + 30 * 2 ^ 16)
    let e := Enc.fresh w0 4 100 100000000 0
    let many := fun (n : Nat) => { base with encs := (List.range n).map fun k => (k, e) }
    e.ok 0 = true ∧ base.himos.config.encoders.getLsbD 0 = true ∧ (many 31).encLoad 0 31 + e.load ≤ 737280000 ∧
    ¬(many 32).encLoad 0 40 + e.load ≤ 737280000 ∧ e.w2.toNat < 200 ∧ 200 ≤ e.w2.toNat + 1 * e.fperiod := by decide +kernel

theorem test_meets_ManagementCommands :
    let s := State.reset
    let failed := { s.himos with reasons := Vector.replicate 3 1 }
    let b := { s with himos := { s.himos with bring := 1 }, agenda := [] }
    let more := { b with himos := { b.himos with bring := 2 } }
    let w := fun (i : Instr) => { b with inputs := [⟨0, 0, .chip, i⟩] }
    s.himos.reasons.get 0 = 0 ∧ failed.reasons.get 0 ≠ 0 ∧ failed.reasons.get 1 ≠ 0 ∧ 1 - s.himos.booted < 2 ∧
    Mem.wf (s.himos.slots.toList.getD 1 ⟨[], 0, 0, false⟩).image = true ∧ (s.himos.slots.toList.getD 1 ⟨[], 0, 0, false⟩).good = true ∧
    s.himos.minVersion ≤ (s.himos.slots.toList.getD 1 ⟨[], 0, 0, false⟩).version ∧ s.himos.railsUp = true ∧ b.himos.railsUp = true ∧
    b.himos.bring = 1 ∧ b.inputs = [] ∧ b.dueBelow 5000 = none ∧ more.himos.bring = 2 ∧ more.inputs = [] ∧ more.dueBelow 5000 = none ∧
    servedInBringUp (.hciWrite 0 0 0) = true ∧ servedInBringUp .scannerTick = false ∧
    (w (.hciWrite 0 0 0)).inputs.find? (fun e => decide (e.due ≤ 0)) = some ⟨0, 0, .chip, .hciWrite 0 0 0⟩ ∧ (w .scannerTick).dcc = 0 ∧
    hotterThan s.himos.sensors 95 = false ∧ hotterThan [0x80000690] 105 = true ∧ hotterThan [0x80000730] 115 = true := by decide +kernel

theorem test_meets_RoundTrips :
    wellFormed (.addi 63 63 (-1)) = true ∧ (encode (.addi 63 63 (-1))).isSome = true ∧ guardFree (.addi 63 63 (-1)) = false ∧
    (Except.toOpt (decodeSlot (headWord true 7 true 0x01 (2 ^ 52 - 2 ^ 40 + 5)))).isSome = true ∧
    encode (.chiselOut 7) = some (.chisel (cw 0x1A 0 7 0 0 0).toNat) ∧ (Except.toOpt (decodeChisel (cw 0x1A 0 7 0 0 0))) = some (.chiselOut 7) ∧
    encode (.mma (cr 0x01 0) (.start .qm)) = some (.record (cr 0x01 0)) ∧ decodeRecord .qm (cr 0x01 0) = some (.mma (cr 0x01 0) (.start .qm)) := by
  decide +kernel

theorem test_meets_StepRunsTheDecodedInstruction :
    let s := base
    let ev : Ev := ⟨0, 0, .chip, .scannerTick⟩
    let due := { s with phase := .events, agenda := [ev] }
    let task := { s with todo := [⟨0, .nop⟩] }
    let lane := onCtx { s with phase := .lanes } fun c => { c with eng := { c.eng with jobs := [laneJob (cw 0x1A 0 7 0 0 0) 0] } }
    let q := queued (inside s) .qc [entry (cr 0x11 0)]
    let may := onCtx s fun c => { c with fw := { c.fw with active := true, hold := 1 } }
    let long := (sets s [(1, 0), (5, 2 ^ 30 + 1)]).beginBundle 8
    let again := onCtx s fun c => { c with reissue := true, blocked := [⟨0, 0, .waitc 1⟩] }
    s.himos.railsUp = true ∧ s.listed = true ∧ task.todo = [⟨task.core.phys, .nop⟩] ∧ s.todo = [] ∧ due.dueBelow 4000 = some ev ∧
    lane.physList.head? = some lane.core.phys ∧ lane.core.eng.jobs.length = 1 ∧ s.phase = .issue ∧ s.physList = [] ++ s.core.phys :: [] ∧
    s.firmware = false ∧ s.core.fw.active = false ∧ s.core.issued ≠ s.dcc + 1 ∧ s.core.life = .running ∧ s.held = false ∧
    s.core.hz.issueAt ≤ s.dcc ∧ s.core.trap = none ∧ s.core.replay.access = none ∧ s.core.layer = none ∧
    (s.fetchBundle).1 = .words [(0, nopWord)] ∧ s.himos.bring = 0 ∧ s.issueFirmware = none ∧ may.firmwareMay = true ∧
    bundleFaults false [(0, nopWord)] = [] ∧ again.core.reissue = true ∧
    again.core.blocked = [⟨0, 0, .waitc 1⟩] ∧ again.issueFirmware = none ∧ again.core.trap = none ∧
    (layered s [nopWord]).core.pc.toNat / 8 < [nopWord].length ∧ bundleFaults true [(0, nopWord)] = [] ∧ s.hazardFree ((slotsIn [(0, nopWord)]).map (·.2)) = true ∧
    s.pushHolds ((slotsIn [(0, nopWord)]).map (·.2)) = false ∧ s.core.reissue = false ∧ s.core.arch.preg 0 ≠ false ∧
    s.core.arch.preg 0 = true ∧ s.core.walk = none ∧
    (match exec (.probe 5 1 ⟨true, false, false⟩) long with
      | .next t => t.core.trap.isNone && t.core.walk.isSome
      | _ => false) = true ∧ q.nominal (cr 0x11 0) = 100 ∧ decodeRecord .qc (cr 0x11 0) = some (.fill (cr 0x11 0) (.start .qc)) := by
  decide +kernel

/-- The words of the firmware are open: where the one at 0 is a NOP, its bundle is. -/
theorem test_meets_StepRunsTheDecodedInstruction_firmware (h : Config.firmwareWord 0 = nopWord) :
    let s := (onCtx base fun c => { c with fw := { c.fw with active := true } }).enterFirmware
    s.fetchBundle = (.words [(0, nopWord)], s) ∧ s.hazardFree ((slotsIn [(0, nopWord)]).map (·.2)) = true := by
  refine ⟨?_, by decide +kernel⟩
  have e : (nopWord.getLsbD 63) = true := by decide
  have m : ((onCtx base fun c => { c with fw := { c.fw with active := true } }).enterFirmware).firmware = true := by decide +kernel
  have p : ((onCtx base fun c => { c with fw := { c.fw with active := true } }).enterFirmware).core.pc = 0 := by decide +kernel
  simp only [State.fetchBundle, State.fetchFrom, State.codeWord, m, p, h, e, if_true, List.nil_append]

theorem test_meets_StepKeepsMemoriesCanonical : State.reset.memOk = true ∧ (State.reset.cores ++ State.reset.saved).all (fun c => c.tail.isEmpty) = true ∧
    (match step State.reset with
      | .next _ => true
      | _ => false) = true := by decide +kernel

/-! Single steps, with results from the spec's own examples or worked from its tables by hand. -/

/-- What an instruction leaves in s(r). -/
def outS (o : Out) (r : Reg) : Option Word :=
  match o with
  | .next t => some (t.core.arch.sreg r)
  | _ => none

def outP (o : Out) (r : Pred) : Option Bool :=
  match o with
  | .next t => some (t.core.arch.preg r)
  | _ => none

/-- The result that an instruction leaves in flight, with its due cycle. -/
def outFlight (o : Out) : Option (Nat × Word × BitVec 8) :=
  match o with
  | .next t => t.agenda.findSome? fun e => match e.act with
    | .scalarWriteback _ v fl => some (e.due, v, fl)
    | _ => none
  | _ => none

def outTrap (o : Out) : Option (BitVec 8) :=
  match o with
  | .next t => t.core.trap.map TrapRec.cause
  | _ => none

def words : State := sets base [(1, 0x8000000000000001), (2, 0xFFFFFFFFFFFFFFFF), (3, 7), (4, 0x0123456789ABCDEF), (5, 0), (6, 0x80)]

/-- R97: wraps, the counts of shifts, the signed and unsigned orders, the counts of bits, and SEXT of a byte. -/
theorem test_alu : outS (exec (.add 9 1 2) words) 9 = some 0x8000000000000000 ∧ outS (exec (.sub 9 5 2) words) 9 = some 1 ∧
    outS (exec (.andn 9 2 3) words) 9 = some 0xFFFFFFFFFFFFFFF8 ∧ outS (exec (.sar 9 1 3) words) 9 = some 0xFF00000000000000 ∧
    outS (exec (.shr 9 1 2) words) 9 = some 1 ∧ outS (exec (.rol 9 1 3) words) 9 = some 0x00000000000000C0 ∧
    outS (exec (.min 9 1 3) words) 9 = some 0x8000000000000001 ∧ outS (exec (.minn 9 1 3) words) 9 = some 7 ∧
    outS (exec (.clz 9 3) words) 9 = some 61 ∧ outS (exec (.ctz 9 5) words) 9 = some 64 ∧ outS (exec (.popc 9 2) words) 9 = some 64 ∧
    outS (exec (.bswap 9 4) words) 9 = some 0xEFCDAB8967452301 ∧ outS (exec (.sext 9 6 3) words) 9 = some 0xFFFFFFFFFFFFFF80 ∧
    outS (exec (.zext 9 4 3) words) 9 = some 0xEF ∧ outS (exec (.add 0 1 2) words) 0 = some 0 := by decide +kernel

/-- R97, R98: high products, truncation toward zero, and division by zero; 3 and 20 cycles (R91). -/
theorem test_products : outFlight (exec (.mulh 9 2 2) words) = some (3, 0, 0) ∧ outFlight (exec (.mulhn 9 2 2) words) = some (3, 0xFFFFFFFFFFFFFFFE, 0) ∧
    outFlight (exec (.div 9 1 3) words) = some (20, 0xEDB6DB6DB6DB6DB7, 0) ∧ outFlight (exec (.div 9 3 5) words) = some (20, 0xFFFFFFFFFFFFFFFF, 0) ∧
    outFlight (exec (.rem 9 1 3) words) = some (20, 0, 0) ∧ outFlight (exec (.remn 9 3 5) words) = some (20, 7, 0) := by decide +kernel

/-- R100: the constant 0x123456789ABCDEF0 by LI and LIH, bits [63:46] from LIH. -/
theorem test_constant : outS (exec (.lih 9 0x48D1) (sets base [(9, 0x16789ABCDEF0)])) 9 = some 0x123456789ABCDEF0 ∧
    outS (exec (.li 9 0x16789ABCDEF0) base) 9 = some 0x16789ABCDEF0 := by decide +kernel

/-- R83, R101, R104: signed and unsigned compares; p0 keeps its value; MOVPS.GET reads bit 0 as 1. -/
theorem test_compares : outP (exec (.cmp 3 1 5 .lt) words) 3 = some true ∧ outP (exec (.cmp 3 1 5 .ltn) words) 3 = some false ∧
    outP (exec (.cmpi 3 2 .eq (-1)) words) 3 = some true ∧ outP (exec (.pnot 0 0) words) 0 = some true ∧
    outP (exec (.movpsSet 6) words) 7 = some true ∧ outS (exec (.movpsGet 9) words) 9 = some 1 := by decide +kernel

/-- R112's example: the second MPUSH and the MINV after it. -/
theorem test_masks :
    let s := masks (sets base [(12, 0x0000FFFF0000FFFF), (13, 0xFFFFFFFFFFFFFFFF)]) [0x00000000FFFFFFFF]
    (match exec (.mpush 12 13) s with
      | .next t => t.core.arch.mask == [0x000000000000FFFF, 0x00000000FFFFFFFF]
      | _ => false) = true ∧
    (match exec .minv (masks base [0x000000000000FFFF, 0x00000000FFFFFFFF]) with
      | .next t => t.core.arch.mask == [0x00000000FFFF0000, 0x00000000FFFFFFFF]
      | _ => false) = true ∧ outTrap (exec .mpop base) = some 0x01 := by decide +kernel

/-- R106, R107, R57: 1 + 2 in 4 cycles, 1 / 0 with DZ in 14, and a NaN with NV. -/
theorem test_falu :
    let s := sets base [(1, 0x3F800000), (2, 0x40000000), (3, 0), (4, 0x7F800001)]
    outFlight (exec (.fadd 9 1 2 .rne false) s) = some (4, 0x40400000, 0) ∧
    outFlight (exec (.fdiv 9 1 3 .rne false) s) = some (14, 0x7F800000, flagDZ) ∧
    outFlight (exec (.fmul 9 1 4 .rne false) s) = some (4, 0x7FC00000, flagNV) ∧
    outFlight (exec (.fcvtF2i 9 2 .rne) s) = some (4, 2, 0) := by decide +kernel

/-- R173's example. -/
theorem test_seed : (match exec (.seed 5) (sets base [(5, 1)]) with
    | .next t => t.core.arch.csr.srseed == 0x8F3A5C655E3B57DC
    | _ => false) = true := by decide +kernel

/-- R93, R109: a loop goes back by its displacement in words while the counter is above 1, three cycles later. -/
theorem test_loop :
    let s := onCtx (sets base [(9, 2)]) fun c => { c with wpc := 0x40 }
    (match exec (.loop 9 (-3)) s with
      | .next t => t.core.pc == 0x28 && t.core.arch.sreg 9 == 1 && t.core.hz.issueAt == 3
      | _ => false) = true := by decide +kernel

/-- R129: a byte of the local store, signed; a misaligned access. -/
theorem test_load :
    let s := onCtx (inside base) fun c => { c with ls := { c.ls with mem := c.ls.mem.writeBytes 0x5FFFF [0x80] } }
    (match exec (.ld 9 ⟨0, 0, 0, 0x5FFFF⟩ .b true false) s with
      | .next t => t.core.io.map fun a => (a.back, outS (exec (.ldReturn a.id) { t with dcc := 4 }) 9)
      | _ => []) = [(4, some 0xFFFFFFFFFFFFFF80)] ∧
    outTrap (exec (.ld 9 ⟨0, 0, 0, 0x5FFFF⟩ .h true false) s) = some 0x01 ∧ outTrap (exec (.ld 9 ⟨0, 0, 0, 0x5FFFF⟩ .b true false) (trapped s 0x1F)) = some 0x1F := by
  decide +kernel

/-- R128, R129: a store writes its lowest bytes, lowest first. -/
theorem test_store : (match exec (.st 1 ⟨0, 0, 0, 8⟩ .h false) (sets base [(1, 0x123456)]) with
    | .next t => (t.core.ls.mem.read 8, t.core.ls.mem.read 9, t.core.ls.mem.read 10) == (0x56, 0x34, 0)
    | _ => false) = true := by decide +kernel

/-- R34, R167: a privileged CSR and ERET in the user context, TRAP, and an opcode that is unassigned. -/
theorem test_privilege : outTrap (exec (.csrr 1 .fshare) base) = some 0x02 ∧ outTrap (exec .eret base) = some 0x02 ∧
    outTrap (exec (.trap 7) base) = some 0x16 ∧ outTrap (exec (.unassignedOpcode 0) base) = some 0x01 := by decide +kernel

/-- R113, R118: a REGION within a region, and a COMMIT outside one. -/
theorem test_region : outTrap (exec (.region 100 0) (inside base)) = some 0x01 ∧ outTrap (exec (.commit .core) base) = some 0x01 ∧
    (match exec (.region 100 0) base with
      | .next t => t.inRegion
      | _ => false) = true := by decide +kernel

/-- R160's example: push 2 of the SETFs, 64 cycles after the first, on flag 1. -/
theorem test_template :
    let s := sets (inside base) [(20, 164), (21, 1)]
    let s := onCtx s fun c => { c with pre := { c.pre with tmpl := c.pre.tmpl.set 5 { CmdRec.zero with w0 := 0x3E00000000000000 } } }
    (match exec (.qpusht .qc 0 5 20 21) s with
      | .next t => ((t.core.eng.queues.get 1).map fun e => e.r.w0) == [0x3E000000A4000001]
      | _ => false) = true := by decide +kernel

/-- R191: 1 + 2 in a lane; ISHL by a negative count; RAISE of a flag that traps. -/
theorem test_chisel :
    let at_ := fun (j : Job) => onCtx base fun c => { c with eng := { c.eng with jobs := [{ j with prog := [0, 0] }] } }
    let j := { laneJob 0 0 with e := (Vector.replicate 8 0).set 2 0x3F800000 |>.set 3 0x40000000 |>.set 4 0xFFFFFFFF }
    let out := fun (o : Out) => match o with
      | .next t => t.core.eng.jobs.head?.map fun k => (k.e.get 1, k.trap.isSome)
      | _ => none
    out (exec (.chiselFadd 1 2 3 .rne) (at_ j)) = some (0x40400000, false) ∧ out (exec (.chiselIshl 1 2 4) (at_ j)) = some (0x1FC00000, false) := by
  decide +kernel

/-- R72 to R88: the step from where a word is placed runs it: an instruction word, a chisel word, a record. -/
theorem test_placed :
    (match step (State.reset.withFetchWord 64 (iw 0x09 [(9, 46), (5, 0)]).toNat) with
      | .next t => t.core.arch.sreg 9 == 5 && t.core.pc == 8
      | _ => false) = true ∧
    (match step (State.reset.withFetchWord 512 (0x3E * 2 ^ 56)) with
      | .next t => t.core.eng.runs.length == 1
      | _ => false) = true := by decide +kernel

end Sys2Proof.Tests
end

section
namespace Sys2Proof.Machine

/-! Faults and the two contexts (R10, R30, R327, R333). -/

theorem State.userOnly_user {s k : State} (h : s.firmware = false) : s.userOnly k = k := by simp [State.userOnly, h]

theorem State.userOnly_firmware {s k : State} (h : s.firmware = true) : s.userOnly k = s.illegal := by simp [State.userOnly, h]

theorem State.boundaryOnly_boundary {s k : State} (h : s.inRegion = false) : s.boundaryOnly k = k := by
  simp [State.boundaryOnly, h]

theorem State.boundaryOnly_region {s k : State} (h : s.inRegion = true) : s.boundaryOnly k = s.fault cBOUNDARY 0 := by
  simp [State.boundaryOnly, h]

theorem State.notInLayer_out {s k : State} (h : s.inLayer = false) : s.notInLayer k = k := by simp [State.notInLayer, h]

theorem State.notInLayer_in {s k : State} (h : s.inLayer = true) : s.notInLayer k = s.illegal := by simp [State.notInLayer, h]

/-- What faults in the user context raises the cause there. -/
theorem trapsWith_of_fault {i : Instr} {c : BitVec 8} {d : Word} {s : State}
    (h : s.firmware = false → exec i s = .next (s.fault c d)) : TrapsWith i c d s :=
  fun hf ht => ⟨_, h hf, s.raises_fault c d hf ht⟩

/-- What faults in the firmware context abandons its routine. -/
theorem abandonsWith_of_fault {i : Instr} {c : BitVec 8} {d : Word} {s : State}
    (h : s.firmware = true → exec i s = .next (s.fault c d)) : AbandonsWith i c s :=
  fun hf => ⟨_, h hf, s.abandons_fault c d hf⟩

/-- What only the user context may run is ILLEGAL in the firmware context. -/
theorem abandonsWith_of_userOnly {i : Instr} {s k : State} (h : exec i s = .next (s.userOnly k)) : AbandonsWith i 0x01 s :=
  abandonsWith_of_fault (d := 0) fun hf => by rw [h, State.userOnly_firmware hf]; rfl

/-! The mask stack (R14, R112). -/

theorem exec_mpush (a b : Reg) (s : State) : exec (.mpush a b) s = execMpush a b s := rfl
theorem exec_minv (s : State) : exec .minv s = execMinv s := rfl
theorem exec_mpop (s : State) : exec .mpop s = execMpop s := rfl
theorem exec_mget (a b : Reg) (s : State) : exec (.mget a b) s = execMget a b s := rfl

theorem getLsbD_lanes_low (lo hi : Word) {i : Nat} (h : i < 64) : (lanes lo hi).getLsbD i = lo.getLsbD i :=
  (BitVec.getLsbD_append (x := hi) (y := lo)).trans (if_pos h)

theorem getLsbD_lanes_high (lo hi : Word) (i : Nat) : (lanes lo hi).getLsbD (64 + i) = hi.getLsbD i :=
  (BitVec.getLsbD_append (x := hi) (y := lo)).trans (by rw [if_neg (by omega), Nat.add_sub_cancel_left])

/-- Settles O7: each of the four instructions by the depth of its stack. -/
theorem maskStack : Obligations.MaskStack := by
  intro s a b stack top keep
  refine ⟨fun hf => ⟨fun hlen => ?_, fun rest hst => ⟨?_, ?_⟩, ?_⟩, fun hlen => ?_, fun hst => ⟨?_, ?_⟩, ?_, ?_, ?_, ?_⟩
  · refine ⟨lanes (s.src a) (s.src b) &&& top, ?_, fun i hi => ⟨?_, ?_⟩⟩
    · rw [exec_mpush, execMpush, State.userOnly_user hf, if_pos (show s.maskStack.length < 8 from hlen)]
      rfl
    · rw [BitVec.getLsbD_and, getLsbD_lanes_low _ _ hi]
    · rw [BitVec.getLsbD_and, getLsbD_lanes_high]
  · rw [exec_minv, execMinv, State.userOnly_user hf, show s.maskStack = top :: rest from hst]
    rfl
  · rw [exec_mpop, execMpop, State.userOnly_user hf, show s.maskStack = top :: rest from hst]
    rfl
  · exact ⟨_, _, by rw [exec_mget, execMget, State.userOnly_user hf]; rfl, State.writesS_putS _ _ _, State.writesS_putS _ _ _⟩
  · refine trapsWith_of_fault fun hf => ?_
    rw [exec_mpush, execMpush, State.userOnly_user hf, if_neg (show ¬s.maskStack.length < 8 from Nat.not_lt.mpr hlen)]
    rfl
  · refine trapsWith_of_fault fun hf => ?_
    rw [exec_minv, execMinv, State.userOnly_user hf, show s.maskStack = [] from hst]
    rfl
  · refine trapsWith_of_fault fun hf => ?_
    rw [exec_mpop, execMpop, State.userOnly_user hf, show s.maskStack = [] from hst]
    rfl
  · exact abandonsWith_of_userOnly (exec_mpush a b s)
  · exact abandonsWith_of_userOnly (exec_minv s)
  · exact abandonsWith_of_userOnly (exec_mpop s)
  · exact abandonsWith_of_userOnly (exec_mget a b s)

/-! Accesses through a handle (R30, R129, R133). -/

theorem exec_ld (d : Reg) (m : MemOp) (sz : Size) (sx inc : Bool) (s : State) : exec (.ld d m sz sx inc) s = execLd d m sz sx inc s := rfl
theorem exec_st (d : Reg) (m : MemOp) (sz : Size) (inc : Bool) (s : State) : exec (.st d m sz inc) s = execSt d m sz inc s := rfl
theorem exec_amo (d : Reg) (q : AtomOp) (sz : Size) (sx : Bool) (b c : Reg) (fn : AmoFn) (s : State) :
    exec (.amo d q sz sx b c fn) s = execAmo d q sz sx b c fn s := rfl
theorem exec_amop (q : AtomOp) (sz : Size) (b : Reg) (fn : AmoFn) (s : State) : exec (.amop q sz b fn) s = execAmop q sz b fn s := rfl

/-- Misaligned, or beyond the page. -/
theorem Handle.fits_eq_false {h : Handle} {r : HReg} {o n : Nat} (hb : o % n ≠ 0 ∨ h.bytes r < o + n) : h.fits r o n = false := by
  simp only [Handle.fits, Bool.and_eq_false_iff, beq_eq_false_iff_ne, decide_eq_false_iff_not]
  omega

/-- The machine goes on, unless the handle admits an address that no leaf can map. -/
theorem State.reach_next {s k : State} {r : HReg} {o n : Nat}
    (h : r ≠ 0 → (s.srcH r).v = true → (s.srcH r).fits r o n = true → exists_ ((s.srcH r).addr o) n = true) :
    s.reach r o n k = .next k := by
  rw [State.reach, if_neg]
  simp only [Bool.and_eq_true, bne_iff_ne, Bool.not_eq_true', not_and, and_imp]
  exact fun h1 h2 h3 => by simp [h h1 h2 h3]

theorem State.reach_noSuchAddress {s k : State} {r : HReg} {o n : Nat} (h0 : r ≠ 0) (hv : (s.srcH r).v = true)
    (hfit : (s.srcH r).fits r o n = true) (he : exists_ ((s.srcH r).addr o) n = false) : s.reach r o n k = .fault .noSuchAddress := by
  rw [State.reach, if_pos (by simpa [hv, hfit, he] using h0)]

theorem State.throughHandle_clear {s k : State} {r : HReg} {o n : Nat} {ok : Bool} (hf : s.firmware = false)
    (hv : (s.srcH r).v = false) : s.throughHandle r o n ok k = s.fault cHANDLE_INVALID (r.setWidth 64) := by
  simp [State.throughHandle, hf, hv]

theorem State.throughHandle_illegal {s k : State} {r : HReg} {o n : Nat} {ok : Bool} (hf : s.firmware = false)
    (hv : (s.srcH r).v = true) (h : (s.srcH r).fits r o n = false ∨ ok = false) : s.throughHandle r o n ok k = s.fault cILLEGAL 0 := by
  have h : (!(s.srcH r).fits r o n || !ok) = true := by
    rcases h with h | h <;> simp [h]
  simp [State.throughHandle, hf, hv, h, State.illegal]

/-- Through a handle with V clear no address is asked to exist, and the cause is HANDLE_INVALID. -/
theorem State.reach_clear {s k : State} {r : HReg} {o n : Nat} {ok : Bool} (hf : s.firmware = false) (hv : (s.srcH r).v = false) :
    s.reach r o n (s.throughHandle r o n ok k) = .next (s.fault cHANDLE_INVALID (r.setWidth 64)) := by
  rw [State.reach_next fun _ h => by simp [hv] at h, State.throughHandle_clear hf hv]

/-- Nor of an access that does not fit. -/
theorem State.reach_unfit {s k : State} {r : HReg} {o n : Nat} {ok : Bool} (hf : s.firmware = false) (hv : (s.srcH r).v = true)
    (hb : o % n ≠ 0 ∨ (s.srcH r).bytes r < o + n) : s.reach r o n (s.throughHandle r o n ok k) = .next (s.fault cILLEGAL 0) := by
  have hfit := Handle.fits_eq_false hb
  rw [State.reach_next fun _ _ h => by simp [hfit] at h, State.throughHandle_illegal hf hv (.inl hfit)]

theorem State.reach_notGranted {s k : State} {r : HReg} {o n : Nat} {ok : Bool} (hf : s.firmware = false) (hv : (s.srcH r).v = true)
    (he : r ≠ 0 → exists_ ((s.srcH r).addr o) n = true) (hok : ok = false) :
    s.reach r o n (s.throughHandle r o n ok k) = .next (s.fault cILLEGAL 0) := by
  rw [State.reach_next fun h _ _ => he h, State.throughHandle_illegal hf hv (.inr hok)]

/-- Settles O14, by the checks in the order of R129. -/
theorem accessFaults : Obligations.AccessFaults := by
  intro s d b c m q sz sx inc fn n o p h g
  refine ⟨fun hv => ⟨?_, ?_⟩, fun hv hb => ⟨?_, ?_⟩, fun hv hfit he => ⟨fun hr => ?_, fun hw => ?_⟩, fun hv => ?_, fun hv hb => ?_,
    fun hr he => ?_, fun h0 hv hfit he => ⟨?_, ?_⟩⟩
  · exact trapsWith_of_fault fun hf => (exec_ld d m sz sx inc s).trans (State.reach_clear hf hv)
  · exact trapsWith_of_fault fun hf => (exec_st d m sz inc s).trans (State.reach_clear hf hv)
  · exact trapsWith_of_fault fun hf => (exec_ld d m sz sx inc s).trans (State.reach_unfit hf hv hb)
  · exact trapsWith_of_fault fun hf => (exec_st d m sz inc s).trans (State.reach_unfit hf hv hb)
  · exact trapsWith_of_fault fun hf => (exec_ld d m sz sx inc s).trans (State.reach_notGranted hf hv he hr)
  · exact trapsWith_of_fault fun hf => (exec_st d m sz inc s).trans (State.reach_notGranted hf hv he hw)
  · exact trapsWith_of_fault fun hf => (exec_amop q sz b fn s).trans (State.reach_clear hf hv)
  · exact trapsWith_of_fault fun hf => (exec_amop q sz b fn s).trans (State.reach_unfit hf hv hb)
  · refine trapsWith_of_fault fun _ => (exec_amo d q sz sx b c fn s).trans ?_
    exact (State.reach_next fun h0 hv _ => he h0 hv).trans (by rw [State.boundaryOnly_region hr]; rfl)
  · exact (exec_ld d m sz sx inc s).trans (State.reach_noSuchAddress h0 hv hfit he)
  · exact (exec_st d m sz inc s).trans (State.reach_noSuchAddress h0 hv hfit he)

/-! Opening a region, and COMMIT (R16, R20, R113, R114, R118). -/

theorem exec_region (len : BitVec 24) (am : BitVec 4) (s : State) : exec (.region len am) s = execRegion len am s := rfl
theorem exec_commit (sc : Scope) (s : State) : exec (.commit sc) s = execCommit sc s := rfl

/-- With no work of the context due, no result is in flight. -/
theorem State.landed_eq {s : State} (h : ∀ e ∈ s.agenda, e.target ≠ s.me) : s.landed = s.core.arch := by
  unfold State.landed
  generalize s.core.arch = a
  have key : ∀ l : List Ev, (∀ e ∈ l, e.target ≠ s.me) → ∀ f : Arch → Ev → Arch, (∀ a e, e.target ≠ s.me → f a e = a) → l.foldl f a = a := by
    intro l hl f hf
    induction l with
    | nil => rfl
    | cons e l ih =>
      rw [List.foldl_cons, hf a e (hl e (by simp))]
      exact ih fun x hx => hl x (by simp [hx])
  exact key s.agenda h _ fun a e he => if_neg he

theorem regionOpens : Clause.RegionOpens := by
  intro s len am hf hr hlen
  refine ⟨s.openRegion len.toNat am, ?_, rfl, rfl, fun h => ⟨?_, ?_, ?_, ?_⟩, fun h => ⟨?_, ?_⟩, rfl, State.landed_eq, rfl, rfl, rfl, rfl, rfl,
    ⟨_, (Ev.mem_insert _ _ _).2 (.inl rfl), rfl, rfl⟩, rfl, rfl, rfl, SameBytes.refl s⟩
  · rw [exec_region, execRegion, if_neg (by simp [hf, hr]), if_neg (Nat.not_lt.mpr hlen)]
  all_goals simp [State.openRegion, h]

theorem commitDrainsAndFaults : Clause.RegionAndCommitIssue := by
  intro s len am sc
  refine ⟨fun hf hr => ?_, fun hr => trapsWith_of_fault fun hf => ?_, fun hr => trapsWith_of_fault fun hf => ?_,
    fun hr hlen => trapsWith_of_fault fun hf => ?_, abandonsWith_of_fault (d := 0) fun hf => ?_,
    abandonsWith_of_fault (d := 0) fun hf => ?_⟩
  · rw [exec_commit, execCommit, if_neg (by simp [hf, hr])]
    rfl
  · rw [exec_region, execRegion, if_pos (by simp [hr])]
    rfl
  · rw [exec_commit, execCommit, if_pos (by simp [hr])]
    rfl
  · rw [exec_region, execRegion, if_neg (by simp [hf, hr]), if_pos hlen]
    rfl
  · rw [exec_region, execRegion, if_pos (by simp [hf])]
    rfl
  · rw [exec_commit, execCommit, if_pos (by simp [hf])]
    rfl

/-- Settles O16: both clauses. -/
theorem regionAndCommitIssue : Obligations.RegionAndCommitIssue := ⟨regionOpens, commitDrainsAndFaults⟩

end Sys2Proof.Machine
end

section
namespace Sys2Proof.Machine

/-! Fields of a word (R21). -/

theorem toNat_extractLsb'_ofNat (n lo w : Nat) : ((BitVec.ofNat 64 n).extractLsb' lo w).toNat = n % 2 ^ 64 / 2 ^ lo % 2 ^ w := by
  simp [BitVec.extractLsb'_toNat, Nat.shiftRight_eq_div_pow]

theorem getLsbD_ofNat_eq (n i : Nat) : (BitVec.ofNat 64 n).getLsbD i = decide (n % 2 ^ 64 / 2 ^ i % 2 = 1) := by
  rw [BitVec.getLsbD, BitVec.toNat_ofNat, Nat.testBit_eq_decide_div_mod_eq]

/-- A field of a word is known by the number it holds. -/
theorem extractLsb'_ofNat_eq {n lo w : Nat} {x : BitVec w} (h : n % 2 ^ 64 / 2 ^ lo % 2 ^ w = x.toNat) :
    (BitVec.ofNat 64 n).extractLsb' lo w = x :=
  BitVec.eq_of_toNat_eq ((toNat_extractLsb'_ofNat n lo w).trans h)

theorem bit_le_one (b : Bool) : bit b ≤ 1 := by cases b <;> decide

theorem getLsbD_ofNat_eq_bit {n i : Nat} {b : Bool} (h : n % 2 ^ 64 / 2 ^ i % 2 = bit b) : (BitVec.ofNat 64 n).getLsbD i = b := by
  rw [BitVec.getLsbD, BitVec.toNat_ofNat, Nat.testBit_eq_decide_div_mod_eq, h]
  cases b <;> rfl

/-! Reading a CSR (R21 to R24, R34). -/

theorem exec_csrr (a : Reg) (c : Csr) (s : State) : exec (.csrr a c) s = execCsrr a c s := rfl

theorem csrPrivileged_iff (c : Csr) : csrPrivileged c = true ↔ c = .fshare ∨ c = .errinjA ∨ c = .errinjC := by
  cases c <;> simp [csrPrivileged]

theorem Core.recnt_fields (c : Core) :
    c.recnt.extractLsb' 8 8 = c.stat.pcnt ∧ c.recnt.extractLsb' 0 8 = c.stat.cnt ∧ c.recnt.extractLsb' 16 48 = 0 := by
  have h1 := c.stat.pcnt.isLt
  have h2 := c.stat.cnt.isLt
  refine ⟨extractLsb'_ofNat_eq ?_, extractLsb'_ofNat_eq ?_, extractLsb'_ofNat_eq ?_⟩ <;> simp <;> omega

theorem Core.rstat_fields (c : Core) :
    c.rstat.extractLsb' 8 8 = c.stat.lastc ∧ c.rstat.getLsbD 0 = c.stat.relax ∧ c.rstat.extractLsb' 16 48 = 0 ∧
      c.rstat.extractLsb' 1 7 = 0 := by
  have h1 := c.stat.lastc.isLt
  have h2 := bit_le_one c.stat.relax
  refine ⟨extractLsb'_ofNat_eq ?_, getLsbD_ofNat_eq_bit ?_, extractLsb'_ofNat_eq ?_, extractLsb'_ofNat_eq ?_⟩ <;> simp <;> omega

theorem CsrR.burstcfg_fields (r : CsrR) (n : Nat) :
    (r.burstcfg n).extractLsb' 0 8 = r.hold ∧ (r.burstcfg n).extractLsb' 8 8 = 0 ∧
      (r.burstcfg n).extractLsb' 16 15 = BitVec.ofNat 15 n := by
  have h := r.hold.isLt
  refine ⟨extractLsb'_ofNat_eq ?_, extractLsb'_ofNat_eq ?_, extractLsb'_ofNat_eq ?_⟩ <;> simp <;> omega

theorem sum_four (f : Nat → Nat): ([0,1,2,3].map f).sum = f 0 + f 1 + f 2 + f 3 := by
  simp [Nat.add_assoc]

/-- The four entries of GMEMB as one number, an entry that is not valid as 0. -/
theorem Core.gmemb_eq (c : Core) : c.gmemb = BitVec.ofNat 64 (([0, 1, 2, 3].map fun i =>
    bit (c.groups[i]?).isSome * 2 ^ (36 + i) + ((c.groups[i]?).getD 0).toNat * 2 ^ (8 * i)).sum) := by
  rw [Core.gmemb, ofFields, show List.range 4 = [0, 1, 2, 3] from rfl, List.map_flatMap, List.flatMap_def, List.sum_flatten, List.map_map]
  refine congrArg (fun l : List Nat => BitVec.ofNat 64 l.sum) (List.map_congr_left fun i _ => ?_)
  dsimp only [Function.comp_apply]
  cases c.groups[i]? <;> simp [bit]

theorem Core.gmemb_fields (c : Core) : c.gmemb.extractLsb' 40 24 = 0 ∧ c.gmemb.extractLsb' 32 4 = 0 ∧ ∀ i, i < 4 →
    c.gmemb.getLsbD (36 + i) = (c.groups[i]?).isSome ∧ c.gmemb.extractLsb' (8 * i) 8 = (c.groups[i]?).getD 0 := by
  have hb := fun i : Nat => bit_le_one (c.groups[i]?).isSome
  have hg := fun i : Nat => ((c.groups[i]?).getD 0).isLt
  have := hb 0; have := hb 1; have := hb 2; have := hb 3
  have := hg 0; have := hg 1; have := hg 2; have := hg 3
  rw [Core.gmemb_eq, sum_four]
  refine ⟨extractLsb'_ofNat_eq ?_, extractLsb'_ofNat_eq ?_, fun i hi => ⟨getLsbD_ofNat_eq_bit ?_, extractLsb'_ofNat_eq ?_⟩⟩
  · change _ = 0
    omega
  · change _ = 0
    omega
  · interval_cases i <;> omega
  · interval_cases i <;> omega

theorem csrr_completes {s : State} {a : Reg} {c : Csr} (h : csrPrivileged c = false ∨ s.firmware = true) :
    PutsS (.csrr a c) a (s.csr c) s := by
  refine ⟨s.putS a (s.csr c), ?_, s.writesS_putS a (s.csr c)⟩
  rw [exec_csrr, execCsrr, if_neg]
  rcases h with h | h <;> simp [h]

/-- Settles O26: the value is that of `State.csr`, whose fields stand in their places. -/
theorem csrReads : Obligations.CsrReads := by
  intro s a c
  refine ⟨csrPrivileged_iff c, fun hp => trapsWith_of_fault fun hf => ?_, fun h => ⟨s.csr c, csrr_completes h, ?_⟩⟩
  · rw [exec_csrr, execCsrr, if_pos (by simp [hp, hf])]
    rfl
  · dsimp only
    refine ⟨?_, ?_, ?_, ?_, ?_, ?_, ?_, ?_, ?_, ?_, ?_, ?_, ?_, ?_, ?_, ?_, ?_, ?_, ?_, ?_, ?_, ?_, ?_, ?_, ?_⟩ <;> rintro rfl
    case refine_6 => exact s.core.gmemb_fields
    case refine_7 => exact s.core.recnt_fields
    case refine_9 => exact s.core.rstat_fields
    case refine_24 => exact s.core.pre.csr.burstcfg_fields _
    all_goals rfl

/-! Writing a CSR (R34, R56, R166, R341, R347 to R349). -/

theorem exec_csrw (c : Csr) (a : Reg) (s : State) : exec (.csrw c a) s = execCsrw c a s := rfl

/-- The values that a CSR takes: no bit is set that cannot be written, and the CSR does not refuse the value. -/
def CsrTakes (c : Csr) (v : Word) : Prop := ∃ m, csrWritable c = some m ∧ v &&& ~~~(BitVec.ofNat 64 m) = 0 ∧ csrRefuses c v = false

theorem csrTakes_iff {c : Csr} {m : Nat} (hw : csrWritable c = some m) (v : Word) :
    CsrTakes c v ↔ v &&& ~~~(BitVec.ofNat 64 m) = 0 ∧ csrRefuses c v = false := by
  simp [CsrTakes, hw]

/-- A value that is taken is written, in the context that may write the CSR. -/
theorem csrw_takes {s : State} {a : Reg} {c : Csr} (h : CsrTakes c (s.src a)) (hm : csrPrivileged c = s.firmware) :
    exec (.csrw c a) s = .next (s.writeCsr c (s.src a)) := by
  obtain ⟨m, hw, hv, hr⟩ := h
  rw [exec_csrw, execCsrw, if_neg (by cases hf : s.firmware <;> simp [hm, hf]), if_neg (by cases hf : s.firmware <;> simp [hm, hf]), hw]
  simp [hv, hr]

/-- One that is not taken is ILLEGAL there. -/
theorem csrw_refuses {s : State} {a : Reg} {c : Csr} (h : ¬CsrTakes c (s.src a)) (hm : csrPrivileged c = s.firmware) :
    exec (.csrw c a) s = .next (s.fault cILLEGAL 0) := by
  rw [exec_csrw, execCsrw, if_neg (by cases hf : s.firmware <;> simp [hm, hf]), if_neg (by cases hf : s.firmware <;> simp [hm, hf])]
  cases hw : csrWritable c with
  | none => rfl
  | some m =>
    have hbad : (decide (s.src a &&& ~~~(BitVec.ofNat 64 m) ≠ 0) || csrRefuses c (s.src a)) = true := by
      by_contra hgood
      simp only [Bool.or_eq_true, decide_eq_true_eq, not_or, not_not, Bool.not_eq_true] at hgood
      exact h ⟨m, hw, hgood⟩
    exact congrArg Host.Outcome.next (if_pos hbad)

/-- What a write to a CSR of the user context does, where `P` tells the values that it takes. -/
theorem csrw_user {s : State} {a : Reg} {c : Csr} {P : Prop} [Decidable P] (hp : csrPrivileged c = false)
    (h : CsrTakes c (s.src a) ↔ P) :
    if P then s.firmware = false → exec (.csrw c a) s = .next (s.writeCsr c (s.src a)) else TrapsWith (.csrw c a) 0x01 0 s := by
  split
  · next hP => exact fun hf => csrw_takes (h.2 hP) (hp.trans hf.symm)
  · next hP => exact trapsWith_of_fault fun hf => csrw_refuses (fun ht => hP (h.1 ht)) (hp.trans hf.symm)

/-- What a write to a privileged CSR does in the firmware context. -/
theorem csrw_firmware {s : State} {a : Reg} {c : Csr} {P : Prop} [Decidable P] (hp : csrPrivileged c = true)
    (h : CsrTakes c (s.src a) ↔ P) :
    if P then s.firmware = true → exec (.csrw c a) s = .next (s.writeCsr c (s.src a)) else AbandonsWith (.csrw c a) 0x01 s := by
  split
  · next hP => exact fun hf => csrw_takes (h.2 hP) (hp.trans hf.symm)
  · next hP => exact abandonsWith_of_fault (d := 0) fun hf => csrw_refuses (fun ht => hP (h.1 ht)) (hp.trans hf.symm)

/-- No bit from `k` on is set. -/
theorem and_not_mask_eq_zero_iff (v : Word) (k : Nat) :
    v &&& ~~~(BitVec.ofNat 64 (2 ^ k - 1)) = 0 ↔ v.toNat < 2 ^ k := by
  have hbit : ∀ i, i < 64 → (v &&& ~~~(BitVec.ofNat 64 (2 ^ k - 1))).getLsbD i = (v.getLsbD i && decide (k ≤ i)) := by
    intro i hi
    rw [BitVec.getLsbD_and, BitVec.getLsbD_not, BitVec.getLsbD_ofNat, Nat.testBit_two_pow_sub_one]
    by_cases h : i < k
    · simp [hi, h, Nat.not_le.mpr h]
    · simp [hi, h, Nat.not_lt.mp h]
  constructor
  · intro h0
    refine Nat.lt_pow_two_of_testBit _ fun i hki => ?_
    by_cases hi : i < 64
    · have := hbit i hi
      rw [h0] at this
      simpa [hki, BitVec.getLsbD] using this.symm
    · exact BitVec.getLsbD_of_ge v i (Nat.not_lt.mp hi)
  · intro hv
    refine BitVec.eq_of_getLsbD_eq fun i hi => ?_
    rw [hbit i hi]
    by_cases hki : k ≤ i
    · have : v.getLsbD i = false := Nat.testBit_lt_two_pow (lt_of_lt_of_le hv (Nat.pow_le_pow_right (by decide) hki))
      simp [this]
    · simp [hki]

/-- The values of a CSR that is a low field of `k` bits and refuses none of them. -/
theorem csrTakes_lowField {c : Csr} {k : Nat} (hw : csrWritable c = some (2 ^ k - 1)) (hr : ∀ v, csrRefuses c v = false) (v : Word) :
    CsrTakes c v ↔ v.toNat < 2 ^ k := by
  rw [csrTakes_iff hw, and_not_mask_eq_zero_iff, hr v, and_iff_left rfl]

theorem csrTakes_lscale (v : Word) : CsrTakes .lscale v ↔ 0 < v.toNat ∧ v.toNat < 0x7F800000 := by
  have h0 : v = 0 ↔ v.toNat = 0 := by rw [← BitVec.toNat_inj]; rfl
  rw [csrTakes_iff (m := 2 ^ 32 - 1) rfl, and_not_mask_eq_zero_iff]
  simp only [csrRefuses, Bool.or_eq_false_iff, beq_eq_false_iff_ne, decide_eq_false_iff_not, ne_eq, h0]
  omega

/-- A field of a word, in the two spellings. -/
theorem wfield_eq_extractLsb' (v : Word) {hi lo w : Nat} (h : hi - lo + 1 = w) : wfield v hi lo = (v.extractLsb' lo w).toNat := by
  rw [wfield, field, h, BitVec.extractLsb'_toNat, Nat.shiftRight_eq_div_pow]

/-- INTV is not 0, FLOOR and CEIL are no exponents of zero or of infinity, and FLOOR is at most CEIL (R347, R349). -/
theorem csrTakes_lscfg (v : Word) : CsrTakes .lscfg v ↔ v &&& 0xFFFF0000FFFF0000 = 0 ∧ v.extractLsb' 32 16 ≠ 0 ∧ v.extractLsb' 0 8 ≠ 0 ∧
    v.extractLsb' 8 8 ≠ 255 ∧ (v.extractLsb' 0 8).toNat ≤ (v.extractLsb' 8 8).toNat := by
  have hmask : ~~~(BitVec.ofNat 64 0x0000FFFF0000FFFF) = 0xFFFF0000FFFF0000 := by decide
  have hi : v.extractLsb' 32 16 = 0 ↔ (v.extractLsb' 32 16).toNat = 0 := by rw [← BitVec.toNat_inj]; rfl
  have hf : v.extractLsb' 0 8 = 0 ↔ (v.extractLsb' 0 8).toNat = 0 := by rw [← BitVec.toNat_inj]; rfl
  have he : v.extractLsb' 8 8 = 255 ↔ (v.extractLsb' 8 8).toNat = 255 := by rw [← BitVec.toNat_inj]; rfl
  rw [csrTakes_iff (m := 0x0000FFFF0000FFFF) rfl, hmask, ne_eq, ne_eq, ne_eq, hi, hf, he]
  simp only [csrRefuses, wfield_eq_extractLsb' v (show 47 - 32 + 1 = 16 from rfl), wfield_eq_extractLsb' v (show 7 - 0 + 1 = 8 from rfl),
    wfield_eq_extractLsb' v (show 15 - 8 + 1 = 8 from rfl), Bool.or_eq_false_iff, beq_eq_false_iff_ne, decide_eq_false_iff_not]
  exact and_congr_right fun _ => by omega

theorem csrTakes_lsstat (v : Word) : CsrTakes .lsstat v ↔ v &&& 0xFFFFFFF100000000 = 0 := by
  rw [csrTakes_iff (m := 0x0000000EFFFFFFFF) rfl, show ~~~(BitVec.ofNat 64 0x0000000EFFFFFFFF) = 0xFFFFFFF100000000 from by decide,
    show csrRefuses .lsstat v = false from rfl, and_iff_left rfl]

theorem csrTakes_srseed (v : Word) : CsrTakes .srseed v ↔ True :=
  (csrTakes_lowField (k := 64) rfl (fun _ => rfl) v).trans (iff_true_intro v.isLt)

theorem csrTakes_errinjA (v : Word) : CsrTakes .errinjA v ↔ v &&& 0xFFF0000000000007 = 0 := by
  rw [csrTakes_iff (m := 0x000FFFFFFFFFFFF8) rfl, show ~~~(BitVec.ofNat 64 0x000FFFFFFFFFFFF8) = 0xFFF0000000000007 from by decide,
    show csrRefuses .errinjA v = false from rfl, and_iff_left rfl]

theorem csrTakes_errinjC (v : Word) : CsrTakes .errinjC v ↔ v &&& 0xFFFFFFFFFFFFE0C0 = 0 ∧ (v.extractLsb' 8 3).toNat ≤ 4 := by
  rw [csrTakes_iff (m := 0x1F3F) rfl, show ~~~(BitVec.ofNat 64 0x1F3F) = 0xFFFFFFFFFFFFE0C0 from by decide,
    csrRefuses, wfield_eq_extractLsb' v (show 10 - 8 + 1 = 3 from rfl), decide_eq_false_iff_not, Nat.not_lt]

/-- CLEAN is cut to INTV, and nothing else of LSSTAT changes (R349). -/
theorem capClean_fields (x : Word) (intv : Nat) :
    (capClean x intv).extractLsb' 16 48 = x.extractLsb' 16 48 ∧
      ((capClean x intv).extractLsb' 0 16).toNat = min (x.extractLsb' 0 16).toNat intv := by
  have hlow : wfield x 15 0 = (x.extractLsb' 0 16).toNat := wfield_eq_extractLsb' x rfl
  have hhigh : wfield x 63 16 = (x.extractLsb' 16 48).toNat := wfield_eq_extractLsb' x rfl
  have hl := (x.extractLsb' 0 16).isLt
  have hh := (x.extractLsb' 16 48).isLt
  unfold capClean
  split
  · next h =>
    rw [hlow] at h
    refine ⟨extractLsb'_ofNat_eq ?_, (toNat_extractLsb'_ofNat _ _ _).trans ?_⟩
    all_goals
      rw [hhigh]
      generalize (x.extractLsb' 16 48).toNat = q at *
      generalize (x.extractLsb' 0 16).toNat = p at *
      simp only [List.map_cons, List.map_nil, List.sum_cons, List.sum_nil]
      omega
  · next h =>
    rw [hlow] at h
    exact ⟨rfl, (min_eq_left (Nat.not_lt.mp h)).symm⟩

/-- Watching for the end of the ramped hold touches the array and the agenda only. -/
theorem State.rampWatch_cases (s : State) : s.rampWatch = s ∨ ∃ f n, s.rampWatch = (s.onArray f).at_ n (ordLate s.core.phys) s.here
    (.rampHoldExpiry (s.core.eng.array.serial + 1)) := by
  unfold State.rampWatch
  dsimp only
  split
  · exact .inr ⟨_, _, rfl⟩
  all_goals exact .inl rfl

/-- Settles O27: each CSR by the values that it takes. -/
theorem csrWrites : Obligations.CsrWrites := by
  intro s a c v n ill fw put
  refine ⟨fun hp => trapsWith_of_fault fun hf => ?_, fun hc => ?_, ?_, ?_, ?_, ?_, ?_, ?_, ?_, ?_, ?_, ?_, ?_⟩
  · rw [exec_csrw, execCsrw, if_pos (by simp [hp, hf])]
    rfl
  · have hw : csrWritable c = none := by rcases hc with h | h | h | h | h | h | h | h | h | h | h | h | h | h <;> rw [h] <;> rfl
    have hp : csrPrivileged c = false := by rcases hc with h | h | h | h | h | h | h | h | h | h | h | h | h | h <;> rw [h] <;> rfl
    exact trapsWith_of_fault fun hf => csrw_refuses (by rintro ⟨m, hm, -⟩; simp [hw] at hm) (hp.trans hf.symm)
  all_goals rintro rfl
  · exact csrw_user rfl (csrTakes_lowField (k := 8) rfl (fun _ => rfl) _)
  · exact csrw_user rfl (csrTakes_lowField (k := 16) rfl (fun _ => rfl) _)
  · exact csrw_user (P := True) rfl (csrTakes_srseed _)
  · exact csrw_user rfl (csrTakes_lscale _)
  · have h := csrw_user (s := s) (a := a) rfl (csrTakes_lscfg _)
    split at h
    · next hP =>
      rw [if_pos hP]
      have hi : wfield v 47 32 = (v.extractLsb' 32 16).toNat := wfield_eq_extractLsb' v rfl
      exact ⟨capClean s.core.arch.csr.lsstat (wfield v 47 32), h, hi ▸ capClean_fields _ _⟩
    · next hP => rwa [if_neg hP]
  · exact csrw_user rfl (csrTakes_lsstat _)
  · exact csrw_user rfl (csrTakes_lowField (k := 8) rfl (fun _ => rfl) _)
  · have h := csrw_user (s := s) (a := a) rfl (csrTakes_lowField (c := .burstcfg) (k := 8) rfl (fun _ => rfl) _)
    split at h
    · next hP =>
      rw [if_pos hP]
      refine fun hf => ⟨_, h hf, ?_⟩
      rcases State.rampWatch_cases (s.onCsr fun r => { r with hold := v.setWidth 8 }) with hw | ⟨f, k, hw⟩
      · rw [show s.writeCsr .burstcfg (s.src a) = _ from hw]
        exact ⟨SameBytes.refl s, rfl, rfl⟩
      · rw [show s.writeCsr .burstcfg (s.src a) = _ from hw]
        exact ⟨SameBytes.refl s, rfl, rfl⟩
    · next hP => rwa [if_neg hP]
  · exact csrw_firmware rfl (csrTakes_lowField (k := 8) rfl (fun _ => rfl) _)
  · exact csrw_firmware rfl (csrTakes_errinjA _)
  · exact csrw_firmware rfl (csrTakes_errinjC _)

end Sys2Proof.Machine
end

section
namespace Sys2Proof.Machine

/-! Decisions of the dispatchers, and waits. -/

/-- A decision of the partition is due in this cycle, and nothing else has changed. -/
theorem State.decision_eq (s : State) (p : BitVec 4) : ∃ l, s.decision p = { s with agenda := l } ∧
    (∃ e ∈ l, e.act = .schedulingDecision p ∧ e.due = s.dcc) ∧ ∀ e ∈ s.agenda, e ∈ l := by
  unfold State.decision
  split
  · next h =>
    obtain ⟨e, he, hd⟩ := List.any_eq_true.mp h
    rw [Bool.and_eq_true, beq_iff_eq, beq_iff_eq] at hd
    exact ⟨s.agenda, rfl, ⟨e, he, hd.2, hd.1⟩, fun _ h => h⟩
  · exact ⟨_, rfl, ⟨_, (Ev.mem_insert _ _ _).2 (.inl rfl), rfl, rfl⟩, fun e h => (Ev.mem_insert _ _ _).2 (.inr h)⟩

/-! TRAP, NOP, ERET, EVENT and YIELD (R167 to R171). -/

theorem exec_trap (code : BitVec 16) (s : State) : exec (.trap code) s = execTrap code s := rfl
theorem exec_eret (s : State) : exec .eret s = execEret s := rfl
theorem exec_event (code : BitVec 16) (a : Reg) (s : State) : exec (.event code a) s = execEvent code a s := rfl
theorem exec_yield (s : State) : exec .yield s = execYield s := rfl
theorem exec_halt (s : State) : exec .halt s = execHalt s := rfl

/-- A HALT that does not wait yet, by where it stands. -/
theorem halt_first {s : State} (hf : s.firmware = false) (hb : s.core.blk ≠ .halt) : exec .halt s = .next (s.notInLayer (s.boundaryOnly
    (if s.hostWaits s.core s.serial then (s.addWait .halt).onCore fun c => { c with blk := .halt } else s.halt))) := by
  rw [exec_halt, execHalt, State.userOnly_user hf, if_neg hb]

/-- The words of an EVENT's record (R171). -/
theorem State.endWait_event (s : State) (id upto at_ : Nat) (code : BitVec 16) (data : Word) :
    ∃ w : Word, s.endWait ⟨id, upto, .event code data at_⟩ =
        s.postFor id s.core.launch s.core.lcore s.core.vf 2 false [w, data, BitVec.ofNat 64 at_] ∧
      w.extractLsb' 0 16 = code ∧ w.extractLsb' 16 8 = BitVec.ofNat 8 s.core.lcore ∧ w.extractLsb' 24 7 = s.core.vf ∧
      w.extractLsb' 31 33 = 0 := by
  have hv := s.core.vf.isLt
  have hc := code.isLt
  refine ⟨_, rfl, extractLsb'_ofNat_eq ?_, extractLsb'_ofNat_eq ?_, extractLsb'_ofNat_eq ?_, extractLsb'_ofNat_eq ?_⟩ <;> simp <;> omega

/-- YIELD outside a region (R169). -/
theorem yield_boundary {s : State} (hf : s.firmware = false) (hr : s.inRegion = false) (hb : s.core.blk = .none) :
    ∃ t, exec .yield s = .next t ∧ t.core.blk = .yield ∧ t.core.hz.issueAt = max s.core.hz.issueAt (s.dcc + 4) ∧
      Quiet s t ∧ ∃ e ∈ t.agenda, e.act = .schedulingDecision s.core.part ∧ e.due = s.dcc := by
  obtain ⟨l, hl, hd, -⟩ := State.decision_eq
    ((s.onCore fun c => c.hold .yield).onHz fun z => { z with issueAt := max z.issueAt (s.dcc + 4) }) s.core.part
  have hold : s.core.hold .yield = { s.core with blk := .yield } := if_pos hb
  refine ⟨_, by rw [exec_yield, execYield, State.userOnly_user hf, State.boundaryOnly_boundary hr, hl], ?_, ?_, ?_, hd⟩
  all_goals simp only [State.onHz, State.onCore, hold]
  exact ⟨rfl, rfl, rfl, rfl, rfl, rfl, rfl, SameBytes.refl s⟩

/-- Settles O31, instruction by instruction. -/
theorem systemEffects : Obligations.SystemEffects := by
  intro s code a
  refine ⟨trapsWith_of_fault fun _ => rfl, abandonsWith_of_fault fun _ => rfl, rfl, fun hf => ?_, trapsWith_of_fault fun hf => ?_,
    fun hr => ⟨trapsWith_of_fault fun hf => ?_, trapsWith_of_fault fun hf => ?_, fun hb hl => trapsWith_of_fault fun hf => ?_⟩,
    fun hl hb => trapsWith_of_fault fun hf => ?_, fun hr hf => ⟨?_, fun id upto at_ data => ?_, fun id upto at_ data => ?_, ?_⟩⟩
  · rw [exec_eret, execEret, if_pos hf]
    rfl
  · rw [exec_eret, execEret, if_neg (by simp [hf])]
    rfl
  · rw [exec_event, execEvent, State.userOnly_user hf, State.boundaryOnly_region hr]
    rfl
  · rw [exec_yield, execYield, State.userOnly_user hf, State.boundaryOnly_region hr]
    rfl
  · rw [halt_first hf hb, State.notInLayer_out hl, State.boundaryOnly_region hr]
    rfl
  · rw [halt_first hf hb, State.notInLayer_in hl]
    rfl
  · rw [exec_event, execEvent, State.userOnly_user hf, State.boundaryOnly_boundary hr]
    rfl
  · simp [State.waitOver]
  · exact s.endWait_event id upto at_ code data
  · exact yield_boundary hf hr

end Sys2Proof.Machine
end

section
namespace Sys2Proof.Machine

/-! Launches, groups and arrival records under their updates (R27, R29, R140, R143). -/

/-- Updating the entries of one key and looking that key up. -/
theorem find?_map_update {α β : Type} [DecidableEq β] (key : α → β) (k : β) (f : α → α) (hf : ∀ x, key x = k → key (f x) = k)
    (l : List α) : (l.map fun x => if key x = k then f x else x).find? (fun x => key x == k) = (l.find? fun x => key x == k).map f := by
  induction l with
  | nil => rfl
  | cons x l ih =>
    by_cases h : key x = k
    · simp [h, hf x h]
    · simp [h, ih]

theorem State.launchOf_onLaunch (s : State) (id : Nat) (f : Launch → Launch) (hf : ∀ l, (f l).id = l.id) :
    (s.onLaunch id f).launchOf id = (s.launchOf id).map f :=
  find?_map_update Launch.id id f (fun l h => (hf l).trans h) s.disp.launches

theorem State.group_onGroup (s : State) (g : BitVec 8) (f : Group → Group) (hf : ∀ x, x.gid = g → (f x).gid = g) :
    (s.onGroup g f).group g = (s.group g).map f := by
  have hl := s.launchOf_onLaunch s.core.launch (fun l : Launch => { l with groups := l.groups.map fun x : Group => if x.gid = g then f x else x })
    fun _ => rfl
  calc (s.onGroup g f).group g = ((s.onGroup g f).launchOf s.core.launch).bind fun l => l.group g := rfl
    _ = (s.launch.map fun l : Launch => { l with groups := l.groups.map fun x : Group => if x.gid = g then f x else x }).bind fun l => l.group g := by
      rw [State.onGroup, hl]; rfl
    _ = (s.group g).map f := by
      rw [State.group]
      cases s.launch with
      | none => rfl
      | some l => exact find?_map_update Group.gid g f hf l.groups

theorem Group.gid_of_group {s : State} {g : BitVec 8} {x : Group} (h : s.group g = some x) : x.gid = g := by
  obtain ⟨l, -, hl⟩ := Option.bind_eq_some_iff.mp h
  exact beq_iff_eq.mp (List.find?_some (p := fun y : Group => y.gid == g) hl)

/-- A group that is looked up at the focused context, and its key in the table of arrival records. -/
theorem Core.arrIndex_lt {c : Core} {g : BitVec 8} {pt : BitVec 5} (hp : pt.toNat < 24) (hg : c.groupIndex g < 4) :
    c.arrIndex g pt < 96 := by
  unfold Core.arrIndex
  omega

theorem State.setArr_eq {s : State} {g : BitVec 8} {pt : BitVec 5} (h : s.core.arrIndex g pt < 96) (f : ArrRec → ArrRec) :
    s.setArr g pt f = { s with core := { s.core with
      arr := s.core.arr.set (s.core.arrIndex g pt) (f (s.core.arr[s.core.arrIndex g pt])) h } } := by
  simp only [State.setArr, State.onCore, dif_pos h]

/-- The record of a point after its update. -/
theorem State.arrRec_setArr {s : State} {g : BitVec 8} {pt : BitVec 5} (h : s.core.arrIndex g pt < 96) (f : ArrRec → ArrRec) :
    (s.setArr g pt f).core.arrRec g pt = f (s.core.arrRec g pt) := by
  have hold : s.core.arrRec g pt = s.core.arr[s.core.arrIndex g pt] := by
    rw [Core.arrRec, List.getD_eq_getElem?_getD, Vector.getElem?_toList, Vector.getElem?_eq_getElem h]
    rfl
  rw [State.setArr_eq h, hold]
  have hidx : Core.arrIndex { s.core with
      arr := s.core.arr.set (s.core.arrIndex g pt) (f (s.core.arr[s.core.arrIndex g pt])) h } g pt = s.core.arrIndex g pt := rfl
  rw [Core.arrRec, hidx, List.getD_eq_getElem?_getD, Vector.getElem?_toList, Vector.getElem?_eq_getElem h, Vector.getElem_set_self]
  rfl

/-- With no WAITC in the latest bundle, the end of another of its waits lets the next bundle issue (R148). -/
theorem State.unblock_eq {s : State} (h : ∀ b ∈ s.core.blocked, ∀ r, b.act ≠ .waitc r) : s.unblock = s := by
  have hleft : s.core.waitcLeft s.dcc = none := by
    refine List.findSome?_eq_none_iff.mpr fun b hb => ?_
    split
    · next r hr => exact absurd hr (h b hb r)
    · rfl
  unfold State.unblock
  rw [hleft]
  split <;> rfl

theorem doneWith_blocked_noWaitc {c : Core} {p : Instr → Bool} (h : ∀ b ∈ c.blocked, ∀ r, b.act ≠ .waitc r) :
    ∀ b ∈ (c.doneWith p).blocked, ∀ r, b.act ≠ .waitc r :=
  fun b hb => h b (List.mem_filter.mp hb).1

/-! ARRIVE and WAITRV (R142, R143, R146). -/

theorem exec_arrive (g : BitVec 8) (pt : BitVec 5) (s : State) : exec (.arrive g pt) s = execArrive g pt s := rfl
theorem exec_rvAnswer (g : BitVec 8) (pt : BitVec 5) (gen : BitVec 8) (s : State) :
    exec (.rvAnswer g pt gen) s = execRvAnswer g pt gen s := rfl
theorem exec_waitrv (g : BitVec 8) (pt : BitVec 5) (s : State) : exec (.waitrv g pt) s = execWaitrv g pt s := rfl
theorem exec_waitrvRelease (g : BitVec 8) (pt : BitVec 5) (gen : Option (BitVec 8)) (s : State) :
    exec (.waitrvRelease g pt gen) s = execWaitrvRelease g pt gen s := rfl

/-- Nothing a program can read changes with the table of arrival records, the agenda, the waits, the block and the launches. -/
theorem Quiet.of_eq {s t : State} (hc : ∃ arr waits blk bp blocked, t.core = { s.core with
      arr := arr, waits := waits, blk := blk, barPending := bp, blocked := blocked })
    (hm : t.mem = s.mem) (hx : t.cxl = s.cxl) : Quiet s t := by
  obtain ⟨arr, waits, blk, bp, blocked, hc⟩ := hc
  rw [Quiet, SameBytes, hc, hm, hx]
  exact ⟨rfl, rfl, rfl, rfl, rfl, rfl, rfl, fun _ => rfl, fun _ => rfl, fun _ => rfl⟩

theorem State.sendArrival_eq {s : State} {g : BitVec 8} {x : Group} (h : s.group g = some x) (pt : BitVec 5) (fl : BitVec 8) :
    s.sendArrival g pt fl = s.at_ (s.dcc + s.msgTime x) (ordLate s.core.lcore) s.me (.rvArrival g pt s.core.lcore fl) := by
  rw [State.sendArrival, h]

/-- Records of arrivals are no part of what a group, or a message under way, depends on. -/
theorem State.waitSent_setArr {s : State} {g : BitVec 8} {pt : BitVec 5} (h : s.core.arrIndex g pt < 96) (f : ArrRec → ArrRec) :
    (s.setArr g pt f).waitSent g pt = s.waitSent g pt := by
  rw [State.setArr_eq h]
  rfl

theorem State.sendWait_sent {s : State} {g : BitVec 8} {pt : BitVec 5} (h : s.waitSent g pt = true) : s.sendWait g pt = s := by
  rw [State.sendWait, h]
  rfl

theorem State.sendWait_sends {s : State} {g : BitVec 8} {pt : BitVec 5} {x : Group} (h : s.waitSent g pt = false)
    (hg : s.group g = some x) :
    s.sendWait g pt = s.at_ (s.dcc + s.msgTime x) (ordLate s.core.phys) s.me (.waitrvRelease g pt none) := by
  rw [State.sendWait, h, hg]
  rfl

/-- ARRIVE in boundary code (R142). -/
theorem arrive_boundary {s : State} {g : BitVec 8} {pt : BitVec 5} {x : Group} (hi : s.core.arrIndex g pt < 96)
    (hx : s.group g = some x) (hf : s.firmware = false) (hok : s.groupOk g true = true) (hr : s.inRegion = false) :
    ∃ t, exec (.arrive g pt) s = .next t ∧ (t.core.arrRec g pt).valid = true ∧ (t.core.arrRec g pt).pending = true ∧
      (s.core.unperformed s.serial = false →
        ∀ e, e ∈ t.agenda ↔ e = ⟨s.dcc + (if dieOf s.core.phys = x.homeDie then 20 else 60), ordLate s.core.lcore, s.me,
          .rvArrival g pt s.core.lcore s.core.pre.csr.numf⟩ ∨ e ∈ s.agenda) ∧
      (s.core.unperformed s.serial = true →
        t.agenda = s.agenda ∧ t.core.waits = s.core.waits ++ [⟨s.serial, s.serial, .arrive g pt⟩]) ∧ Quiet s t ∧
      t.core.blk = s.core.blk := by
  have hrec := s.arrRec_setArr hi ArrRec.mark
  have hset := s.setArr_eq hi ArrRec.mark
  have hgroup : (s.setArr g pt ArrRec.mark).group g = some x := by rw [hset]; exact hx
  have hexec : exec (.arrive g pt) s = .next (if s.core.unperformed s.serial then (s.setArr g pt ArrRec.mark).addWait (.arrive g pt)
      else (s.setArr g pt ArrRec.mark).sendArrival g pt s.core.pre.csr.numf) := by
    rw [exec_arrive, execArrive, State.userOnly_user hf, if_neg (by simp [hok]), if_neg (by simp [hr])]
  rw [State.sendArrival_eq hgroup] at hexec
  cases hu : s.core.unperformed s.serial with
  | false =>
    rw [hu, if_neg Bool.false_ne_true] at hexec
    refine ⟨_, hexec, congrArg ArrRec.valid hrec, congrArg ArrRec.pending hrec, fun _ e => ?_, fun h => absurd h Bool.false_ne_true, ?_, ?_⟩
    · rw [hset]
      exact Ev.mem_insert _ _ _
    · rw [hset]
      exact Quiet.of_eq ⟨_, _, _, _, _, rfl⟩ rfl rfl
    · rw [hset]
      rfl
  | true =>
    rw [hu, if_pos rfl] at hexec
    refine ⟨_, hexec, congrArg ArrRec.valid hrec, congrArg ArrRec.pending hrec, fun h => absurd h.symm Bool.false_ne_true, fun _ => ?_, ?_, ?_⟩
    all_goals rw [hset]
    · exact ⟨rfl, rfl⟩
    · exact Quiet.of_eq ⟨_, _, _, _, _, rfl⟩ rfl rfl
    · rfl

/-- The answer to an arrival, where no WAITRV goes on with it (R143). -/
theorem rvAnswer_record {s : State} {g : BitVec 8} {pt : BitVec 5} (gen : BitVec 8)
    (hb : s.core.blk ≠ .waitrv g pt) : exec (.rvAnswer g pt gen) s = .next (s.setArr g pt fun r => r.answer gen) := by
  rw [exec_rvAnswer, execRvAnswer, if_neg (by simp [hb])]

theorem arriveAndItsAnswer : Clause.ArriveAndItsAnswer := by
  intro s g pt gen x hpt hgi hx
  have hi := Core.arrIndex_lt hpt hgi
  refine ⟨fun hf hok => ⟨arrive_boundary hi hx hf hok, fun hr hlog => ?_⟩, fun hok => trapsWith_of_fault fun hf => ?_,
    abandonsWith_of_userOnly (exec_arrive g pt s), fun hb => ⟨_, rvAnswer_record gen hb, ?_⟩⟩
  · rw [exec_arrive, execArrive, State.userOnly_user hf, if_neg (by simp [hok]), if_pos hr, State.logCombine, if_neg (by omega)]
    rfl
  · rw [exec_arrive, execArrive, State.userOnly_user hf, if_pos (by simp [hok])]
    rfl
  · rw [State.arrRec_setArr hi, State.setArr_eq hi]
    refine ⟨rfl, Quiet.of_eq ⟨_, _, _, _, _, rfl⟩ rfl rfl, rfl, fun h => ?_, fun h => ?_⟩
    · rw [ArrRec.answer, if_neg (by omega)]
    · rw [ArrRec.answer, if_pos h]

/-- WAITRV in boundary code (R143, R146). -/
theorem waitrv_boundary {s : State} {g : BitVec 8} {pt : BitVec 5} {x : Group} (hx : s.group g = some x) (hf : s.firmware = false)
    (hok : s.groupOk g true = true) (hr : s.inRegion = false) :
    ∃ t, exec (.waitrv g pt) s = .next t ∧ t.core.blk = .waitrv g pt ∧ Quiet s t ∧
      ((s.core.arrRec g pt).valid = true ∧ (s.core.arrRec g pt).pending = true ∨ s.waitSent g pt = true → t.agenda = s.agenda) ∧
      (¬((s.core.arrRec g pt).valid = true ∧ (s.core.arrRec g pt).pending = true) → s.waitSent g pt = false →
        ∃ e ∈ t.agenda, e.due = s.dcc + s.msgTime x ∧ e.target = s.me ∧ e.act = .waitrvRelease g pt none) := by
  let t := s.onCore fun c => { c with blk := .waitrv g pt }
  have hexec : exec (.waitrv g pt) s = .next (if ((s.core.arrRec g pt).valid && (s.core.arrRec g pt).pending) = true then t
      else t.sendWait g pt) := by
    rw [exec_waitrv, execWaitrv, State.userOnly_user hf, if_neg (by simp [hok]), State.boundaryOnly_boundary hr]
  have hsent : t.waitSent g pt = s.waitSent g pt := rfl
  by_cases hp : (s.core.arrRec g pt).valid = true ∧ (s.core.arrRec g pt).pending = true
  · rw [if_pos (by simp [hp])] at hexec
    exact ⟨t, hexec, rfl, Quiet.of_eq ⟨_, _, _, _, _, rfl⟩ rfl rfl, fun _ => rfl, fun h => absurd hp h⟩
  · rw [if_neg (by simpa using hp)] at hexec
    cases hw : s.waitSent g pt with
    | true =>
      rw [State.sendWait_sent (hsent.trans hw)] at hexec
      exact ⟨t, hexec, rfl, Quiet.of_eq ⟨_, _, _, _, _, rfl⟩ rfl rfl, fun _ => rfl, fun _ h => absurd h.symm Bool.false_ne_true⟩
    | false =>
      rw [State.sendWait_sends (hsent.trans hw) hx] at hexec
      exact ⟨_, hexec, rfl, Quiet.of_eq ⟨_, _, _, _, _, rfl⟩ rfl rfl, fun h => (h.elim hp fun h => Bool.false_ne_true h).elim,
        fun _ _ => ⟨_, (Ev.mem_insert _ _ _).2 (.inl rfl), rfl, rfl, rfl⟩⟩

/-- The message of a WAITRV at its point: the target is fixed, and answered at once or waited for (R143). -/
theorem waitrvRelease_atPoint {s : State} {g : BitVec 8} {pt : BitVec 5} {x : Group} (hi : s.core.arrIndex g pt < 96)
    (hx : s.group g = some x) :
    ∃ t, exec (.waitrvRelease g pt none) s = .next t ∧ t.core.blk = s.core.blk ∧ Quiet s t ∧
      (t.core.arrRec g pt).valid = true ∧
      (t.core.arrRec g pt).gen = (if (s.core.arrRec g pt).valid then (s.core.arrRec g pt).gen else (x.point pt.toNat).gen) ∧
      ((s.core.arrRec g pt).valid = true → (s.core.arrRec g pt).gen ≠ (x.point pt.toNat).gen →
        ∃ e ∈ t.agenda, e.due = s.dcc + s.msgTime x ∧ e.target = s.me ∧ e.act = .waitrvRelease g pt (some (s.core.arrRec g pt).gen)) ∧
      ((s.core.arrRec g pt).valid = false ∨ (s.core.arrRec g pt).gen = (x.point pt.toNat).gen →
        ∃ z, t.group g = some z ∧ (pt, s.core.lcore, some (x.point pt.toNat).gen, s.dcc) ∈ z.waiters) := by
  generalize hr : s.core.arrRec g pt = r
  generalize hnow : (x.point pt.toNat).gen = now
  generalize htarget : (if r.valid then r.gen else now) = target
  let fixed : ArrRec → ArrRec := fun r => { r with valid := true, pending := false, gen := target }
  have hset := s.setArr_eq hi fixed
  have hrec := s.arrRec_setArr hi fixed
  have hgroup : (s.setArr g pt fixed).group g = some x := by rw [hset]; exact hx
  have hexec : exec (.waitrvRelease g pt none) s = .next (if target = now then
      (s.setArr g pt fixed).onGroup g fun y => { y with waiters := y.waiters ++ [(pt, s.core.lcore, some target, s.dcc)] }
      else (s.setArr g pt fixed).at_ (s.dcc + s.msgTime x) (ordLate s.core.phys) s.me (.waitrvRelease g pt (some target))) := by
    rw [exec_waitrvRelease]
    unfold execWaitrvRelease
    rw [hx]
    dsimp only
    rw [hr, hnow, htarget]
  by_cases ht : target = now
  · rw [if_pos ht] at hexec
    refine ⟨_, hexec, ?_, ?_, congrArg ArrRec.valid hrec, congrArg ArrRec.gen hrec, fun hv hne => ?_, fun _ => ?_⟩
    · rw [hset]; rfl
    · rw [hset]; exact Quiet.of_eq ⟨_, _, _, _, _, rfl⟩ rfl rfl
    · rw [hv, if_pos rfl] at htarget
      exact absurd (htarget.trans ht) hne
    · rw [State.group_onGroup, hgroup]
      · exact ⟨_, rfl, by simp [ht]⟩
      · exact fun _ h => h
  · rw [if_neg ht] at hexec
    have hv : r.valid = true := by
      by_contra hv
      rw [if_neg hv] at htarget
      exact ht htarget.symm
    rw [hv, if_pos rfl] at htarget
    refine ⟨_, hexec, ?_, ?_, congrArg ArrRec.valid hrec, congrArg ArrRec.gen hrec, fun _ _ => ?_, fun h => ?_⟩
    · rw [hset]; rfl
    · rw [hset]; exact Quiet.of_eq ⟨_, _, _, _, _, rfl⟩ rfl rfl
    · exact ⟨_, (Ev.mem_insert _ _ _).2 (.inl rfl), rfl, rfl, by rw [htarget]⟩
    · rcases h with h | h
      · exact absurd hv (by simp [h])
      · exact absurd (htarget.symm.trans h) ht

/-- The release of the target of a WAITRV (R143). -/
theorem waitrvRelease_atCore {s : State} {g : BitVec 8} {pt : BitVec 5} (hi : s.core.arrIndex g pt < 96)
    (hb : s.core.blk = .waitrv g pt) (hv : (s.core.arrRec g pt).valid = true) (hp : (s.core.arrRec g pt).pending = false)
    (hw : ∀ b ∈ s.core.blocked, ∀ q, b.act ≠ .waitc q) :
    ∃ t, exec (.waitrvRelease g pt (some (s.core.arrRec g pt).gen)) s = .next t ∧ t.core.blk = .none ∧ Quiet s t ∧
      t.core.arrRec g pt = { s.core.arrRec g pt with valid := false, pending := false } := by
  let ended : ArrRec → ArrRec := fun r => { r with valid := false, pending := false }
  have hset := s.setArr_eq hi ended
  refine ⟨(s.setArr g pt ended).onCore fun c => { c.doneWith (· == .waitrv g pt) with blk := .none }, ?_, rfl, ?_, s.arrRec_setArr hi ended⟩
  · rw [exec_waitrvRelease, execWaitrvRelease]
    dsimp only
    rw [if_pos ⟨hb, hv, hp, rfl⟩]
    refine congrArg Host.Outcome.next (State.unblock_eq ?_)
    rw [hset]
    exact doneWith_blocked_noWaitc (c := s.core) (p := (· == .waitrv g pt)) hw
  · rw [hset]
    exact Quiet.of_eq ⟨_, _, _, _, _, rfl⟩ rfl rfl

theorem waitrvWaitsForItsGeneration : Clause.WaitrvWaitsForItsGeneration := by
  intro s g pt x hpt hgi hx r now sent
  have hi := Core.arrIndex_lt hpt hgi
  refine ⟨fun hf hok hr => waitrv_boundary hx hf hok hr, fun hf hok hr => trapsWith_of_fault fun _ => ?_,
    fun hok => trapsWith_of_fault fun hf => ?_, abandonsWith_of_userOnly (exec_waitrv g pt s), fun gen hb hp hst hw => ?_,
    waitrvRelease_atPoint hi hx, waitrvRelease_atCore hi⟩
  · rw [exec_waitrv, execWaitrv, State.userOnly_user hf, if_neg (by simp [hok]), State.boundaryOnly_region hr]
    rfl
  · rw [exec_waitrv, execWaitrv, State.userOnly_user hf, if_pos (by simp [hok])]
    rfl
  · have hrec : (s.setArr g pt fun r => r.answer gen).core.arrRec g pt = { r with pending := false, gen := gen } := by
      rw [State.arrRec_setArr hi, ArrRec.answer, if_neg (Nat.not_lt.mpr (Nat.le_of_eq hst))]
    have hset := s.setArr_eq hi fun r => r.answer gen
    have hgroup : (s.setArr g pt fun r => r.answer gen).group g = some x := by rw [hset]; exact hx
    refine ⟨(s.setArr g pt fun r => r.answer gen).at_ (s.dcc + s.msgTime x) (ordLate s.core.phys) s.me (.waitrvRelease g pt none), ?_, hrec,
      ⟨_, (Ev.mem_insert _ _ _).2 (.inl rfl), rfl, rfl, rfl⟩⟩
    rw [exec_rvAnswer, execRvAnswer]
    rw [if_pos (by simp [hb, show (s.core.arrRec g pt).pending = true from hp, hrec]),
      State.sendWait_sends ((State.waitSent_setArr hi _).trans hw) hgroup, hset]
    rfl

/-- Settles O22: both clauses. -/
theorem rendezvousContext : Obligations.RendezvousContext := ⟨arriveAndItsAnswer, waitrvWaitsForItsGeneration⟩

/-! BAR (R28, R144, R146). -/

theorem exec_bar (g : BitVec 8) (s : State) : exec (.bar g) s = execBar g s := rfl
theorem exec_barRelease (g : BitVec 8) (s : State) : exec (.barRelease g) s = execBarRelease g s := rfl

theorem Group.mem_members {x : Group} {m : Nat} : m ∈ x.members ↔ m < 28 ∧ x.has m = true := by
  simp [Group.members]

/-- Every member has the event, when it is due. -/
theorem State.toMembers_mem (s : State) (x : Group) (due : Nat) (i : Instr) {m : Nat} (hm : m ∈ x.members) :
    ⟨due, ordLate m, .ctx s.core.launch m, i⟩ ∈ (s.toMembers x due i).agenda := by
  have key : ∀ (l : List Nat) (t : State) (e : Ev), e ∈ t.agenda ∨ (∃ k ∈ l, e = ⟨due, ordLate k, .ctx s.core.launch k, i⟩) →
      e ∈ (l.foldl (fun (t : State) m => t.at_ due (ordLate m) (.ctx s.core.launch m) i) t).agenda := by
    intro l
    induction l with
    | nil => rintro t e (h | ⟨k, hk, -⟩) <;> [exact h; exact absurd hk (by simp)]
    | cons k l ih =>
      rintro t e (h | ⟨j, hj, he⟩)
      · exact ih _ e (.inl ((Ev.mem_insert _ _ _).2 (.inr h)))
      · rcases List.mem_cons.mp hj with rfl | hj
        · exact ih _ e (.inl ((Ev.mem_insert _ _ _).2 (.inl he)))
        · exact ih _ e (.inr ⟨j, hj, he⟩)
  exact key x.members s _ (.inr ⟨m, hm, rfl⟩)

/-- Events for the members change the agenda only. -/
theorem State.toMembers_eq (s : State) (x : Group) (due : Nat) (i : Instr) :
    ∃ l, s.toMembers x due i = { s with agenda := l } := by
  have key : ∀ (l : List Nat) (t : State), ∃ a,
      l.foldl (fun (t : State) m => t.at_ due (ordLate m) (.ctx s.core.launch m) i) t = { t with agenda := a } := by
    intro l
    induction l with
    | nil => exact fun t => ⟨t.agenda, rfl⟩
    | cons k l ih =>
      intro t
      obtain ⟨a, ha⟩ := ih (t.at_ due (ordLate k) (.ctx s.core.launch k) i)
      exact ⟨a, ha⟩
  exact key x.members s

/-- Do all members run in the core's cluster (R1, R28)? -/
theorem State.oneCluster_iff (s : State) (x : Group) : s.oneCluster x = true ↔ ∀ p ∈ s.memberPhys x, p / 4 = s.core.phys / 4 := by
  simp [State.oneCluster, clusterOf]

/-- The arrival of a member that is not the last (R144). -/
theorem State.barArrive_waits {s : State} {g : BitVec 8} {x : Group} (hx : s.group g = some x)
    (h : ∃ m < 28, x.has m = true ∧ m ≠ s.core.lcore ∧ m ∉ x.bars) :
    ∃ z, (s.barArrive g).group g = some z ∧ (s.barArrive g).core = { s.core with barPending := true } ∧
      (s.barArrive g).mem = s.mem ∧ (s.barArrive g).cxl = s.cxl ∧ (s.barArrive g).agenda = s.agenda ∧
      s.core.lcore ∈ z.bars ∧ ∀ m ∈ x.bars, m ∈ z.bars := by
  let y : Group := { x with bars := if x.bars.contains s.core.lcore then x.bars else x.bars ++ [s.core.lcore], lastBar := s.dcc }
  have hbars : ∀ m, m ∈ y.bars ↔ m ∈ x.bars ∨ m = s.core.lcore := by
    intro m
    by_cases hc : s.core.lcore ∈ x.bars
    · have : y.bars = x.bars := if_pos (by simpa using hc)
      rw [this]
      exact ⟨.inl, fun h => h.elim id fun h => h ▸ hc⟩
    · have : y.bars = x.bars ++ [s.core.lcore] := if_neg (by simpa using hc)
      simp [this]
  have hnot : ¬x.members.all y.bars.contains = true := by
    obtain ⟨m, hm, hh, hne, hno⟩ := h
    intro hall
    have := List.all_eq_true.mp hall m (Group.mem_members.2 ⟨hm, hh⟩)
    exact ((hbars m).1 (by simpa using this)).elim hno hne
  have heq : s.barArrive g = (s.onCore fun c => { c with barPending := true }).onGroup g fun _ => y := by
    rw [State.barArrive, hx]
    exact if_neg hnot
  rw [heq]
  refine ⟨y, ?_, rfl, rfl, rfl, rfl, (hbars _).2 (.inr rfl), fun m hm => (hbars m).2 (.inl hm)⟩
  have hgid : x.gid = g := Group.gid_of_group hx
  exact (State.group_onGroup _ g (fun _ => y) fun _ _ => hgid).trans (congrArg (Option.map fun _ => y) hx)

/-- The arrival of the last member releases every one of them (R28, R144). -/
theorem State.barArrive_releases {s : State} {g : BitVec 8} {x : Group} (hx : s.group g = some x)
    (h : ∀ m < 28, x.has m = true → m = s.core.lcore ∨ m ∈ x.bars) :
    ∃ z, (s.barArrive g).group g = some z ∧ (s.barArrive g).core = { s.core with barPending := true } ∧
      (s.barArrive g).mem = s.mem ∧ (s.barArrive g).cxl = s.cxl ∧ z.bars = [] ∧
      ∀ m < 28, x.has m = true →
        ⟨s.dcc + s.groupDelay x, ordLate m, .ctx s.core.launch m, .barRelease g⟩ ∈ (s.barArrive g).agenda := by
  let y : Group := { x with bars := if x.bars.contains s.core.lcore then x.bars else x.bars ++ [s.core.lcore], lastBar := s.dcc }
  let t := (s.onCore fun c => { c with barPending := true }).onGroup g fun x => { x with bars := [], lastBar := s.dcc }
  have hall : x.members.all y.bars.contains = true := by
    refine List.all_eq_true.mpr fun m hm => ?_
    obtain ⟨hlt, hhas⟩ := Group.mem_members.1 hm
    by_cases hc : s.core.lcore ∈ x.bars
    · have : y.bars = x.bars := if_pos (by simpa using hc)
      simpa [this] using (h m hlt hhas).elim (fun h => h ▸ hc) id
    · have : y.bars = x.bars ++ [s.core.lcore] := if_neg (by simpa using hc)
      simpa [this] using (h m hlt hhas).symm
  have heq : s.barArrive g = t.toMembers x (s.dcc + s.groupDelay x) (.barRelease g) := by
    rw [State.barArrive, hx]
    exact if_pos hall
  have hgroup : t.group g = some { x with bars := [], lastBar := s.dcc } :=
    (State.group_onGroup _ g (fun x : Group => { x with bars := [], lastBar := s.dcc }) fun _ h => h).trans (congrArg (Option.map _) hx)
  rw [heq]
  obtain ⟨l, hl⟩ := t.toMembers_eq x (s.dcc + s.groupDelay x) (.barRelease g)
  refine ⟨{ x with bars := [], lastBar := s.dcc }, ?_, ?_, ?_, ?_, rfl, fun m hm hh => t.toMembers_mem x _ _ (Group.mem_members.2 ⟨hm, hh⟩)⟩
  all_goals rw [hl]
  · exact hgroup
  all_goals rfl

/-- BAR in boundary code (R144). -/
theorem bar_boundary {s : State} {g : BitVec 8} (hf : s.firmware = false) (hok : s.groupOk g false = true) (hr : s.inRegion = false)
    (hre : s.core.reissue = false) : exec (.bar g) s = .next (
      let t := s.onCore fun c => { c with blk := .bar g, barPending := true }
      if s.core.unperformed s.serial then t.addWait (.bar g) else t.barArrive g) := by
  rw [exec_bar, execBar, State.userOnly_user hf, if_neg (by simp [hok]), State.boundaryOnly_boundary hr, if_neg (by simp [hre])]

/-- Settles O24: the arrival waits, is not the last, or releases all. -/
theorem barReleasesAllMembers : Obligations.BarReleasesAllMembers := by
  intro s g x hx hf one
  refine ⟨fun hok => trapsWith_of_fault fun _ => ?_, fun hok hr => trapsWith_of_fault fun _ => ?_, fun hok hr hre => ?_,
    fun hok hr hre => ?_, fun hb hw => ?_⟩
  · rw [exec_bar, execBar, State.userOnly_user hf, if_pos (by simp [hok])]
    rfl
  · rw [exec_bar, execBar, State.userOnly_user hf, if_neg (by simp [hok]), State.boundaryOnly_region hr]
    rfl
  · have hexec := bar_boundary hf hok hr hre
    let t := s.onCore fun c => { c with blk := .bar g, barPending := true }
    have ht : t.group g = some x := hx
    cases hu : s.core.unperformed s.serial with
    | true =>
      rw [hu, if_pos rfl] at hexec
      exact ⟨_, x, hexec, rfl, rfl, Quiet.of_eq ⟨_, _, _, _, _, rfl⟩ rfl rfl, hx, fun _ => ⟨rfl, rfl, rfl⟩,
        fun h => absurd h.symm Bool.false_ne_true⟩
    | false =>
      rw [hu, if_neg Bool.false_ne_true] at hexec
      by_cases hlast : ∃ m < 28, x.has m = true ∧ m ≠ s.core.lcore ∧ m ∉ x.bars
      · obtain ⟨z, hz, hcore, hm, hc, hag, hme, hold⟩ := State.barArrive_waits ht hlast
        refine ⟨_, z, hexec, ?_, ?_, Quiet.of_eq ⟨_, _, _, _, _, hcore⟩ hm hc, hz, fun h => absurd h Bool.false_ne_true,
          fun _ => ⟨fun _ => ⟨hme, hold, hag⟩, fun h => ?_⟩⟩
        · rw [hcore]; rfl
        · rw [hcore]
        · obtain ⟨m, hm, hh, hne, hno⟩ := hlast
          exact ((h m hm hh).elim hne hno).elim
      · have hall : ∀ m < 28, x.has m = true → m = s.core.lcore ∨ m ∈ x.bars := by
          intro m hm hh
          by_contra hno
          exact hlast ⟨m, hm, hh, not_or.mp hno⟩
        obtain ⟨z, hz, hcore, hm, hc, hbars, hev⟩ := State.barArrive_releases ht hall
        have hphys : t.memberPhys x = s.memberPhys x := by
          simp only [t, State.memberPhys, State.cores, State.onCore_core, State.onCore_others, State.onCore_saved, List.filter_cons]
          split <;> rfl
        have hdelay : t.groupDelay x = if s.oneCluster x then 8 else 40 := by
          simp only [State.groupDelay, State.oneCluster, hphys]
          rfl
        refine ⟨_, z, hexec, ?_, ?_, Quiet.of_eq ⟨_, _, _, _, _, hcore⟩ hm hc, hz, fun h => absurd h Bool.false_ne_true,
          fun _ => ⟨fun h => absurd h hlast, fun _ => ⟨hbars, fun m hm hh => ⟨_, hev m hm hh, rfl, rfl, fun h1 => ?_, fun h1 => ?_⟩⟩⟩⟩
        · rw [hcore]; rfl
        · rw [hcore]
        · rw [hdelay, if_pos ((s.oneCluster_iff x).2 h1)]
          rfl
        · rw [hdelay, if_neg (mt (s.oneCluster_iff x).1 h1)]
          rfl
  · rw [exec_bar, execBar, State.userOnly_user hf, if_neg (by simp [hok]), State.boundaryOnly_boundary hr, if_pos hre]
    rfl
  · rw [exec_barRelease, execBarRelease]
    refine congrArg Host.Outcome.next ?_
    have hcore : (s.onCore fun c =>
        if c.blk = .bar g then { c.doneWith (· == .bar g) with barPending := false, blk := .none } else { c with barPending := false }) =
        s.onCore fun c => { c.doneWith (· == .bar g) with barPending := false, blk := .none } := by
      simp only [State.onCore, hb, if_true]
    rw [hcore]
    exact State.unblock_eq (doneWith_blocked_noWaitc (c := s.core) (p := (· == .bar g)) hw)

end Sys2Proof.Machine
end

section
namespace Sys2Proof.Machine

/-! Records posted to a host change the fabric only, and depend on little (R306, R363). -/

/-- What changes the fabric only. -/
def OnlyFabric (s t : State) : Prop := ∃ b, t = { s with fabric := b }

theorem OnlyFabric.trans {s t u : State} : OnlyFabric s t → OnlyFabric t u → OnlyFabric s u := by
  rintro ⟨b, rfl⟩ ⟨c, rfl⟩
  exact ⟨c, rfl⟩

theorem State.onFabric_only (s : State) (f : Fabric → Fabric) : OnlyFabric s (s.onFabric f) := ⟨_, rfl⟩

theorem State.onVf_only (s : State) (v : BitVec 7) (f : Vf → Vf) : OnlyFabric s (s.onVf v f) := s.onFabric_only _

theorem State.onLink_only (s : State) (n : BitVec 5) (f : Link → Link) : OnlyFabric s (s.onLink n f) := s.onFabric_only _

theorem State.handBy_only (s : State) (p : Parcel) (put : List Parcel → List Parcel) : OnlyFabric s (s.handBy p put) := by
  unfold State.handBy
  exact (State.onFabric_only _ _).trans (State.onLink_only _ _ _)

theorem State.sendOutTxn_only (s : State) (o : OutTxn) : OnlyFabric s (s.sendOutTxn o) := by
  unfold State.sendOutTxn State.hand
  exact (State.onFabric_only _ _).trans (State.handBy_only _ _ _)

theorem State.writeRing_only (s : State) (v : BitVec 7) (d : Vf) (r : HeldRec) : OnlyFabric s (s.writeRing v d r) := by
  unfold State.writeRing
  exact ((State.onFabric_only _ _).trans (State.onVf_only _ _ _)).trans (State.sendOutTxn_only _ _)

theorem State.postFor_only (s : State) (n launch lcore : Nat) (v : BitVec 7) (type : Nat) (late : Bool) (ws : List Word) :
    OnlyFabric s (s.postFor n launch lcore v type late ws) := by
  unfold State.postFor
  split
  · exact ⟨s.fabric, rfl⟩
  · dsimp only
    split
    · exact (s.writeRing_only v _ _).trans (State.onFabric_only _ _)
    · split <;> exact s.onFabric_only _

/-- A record takes one number. -/
theorem State.post_eq (s : State) (v : BitVec 7) (type : Nat) (late : Bool) (ws : List Word) :
    ∃ b, s.post v type late ws = { s with serial := s.serial + 1, fabric := b } :=
  State.postFor_only { s with serial := s.serial + 1 } s.serial 0 0 v type late ws

/-- The record that goes out, and its way, depend on the fabric, on the links that are enabled, and on the record's number. -/
theorem State.post_fabric_congr {s t : State} (hf : t.fabric = s.fabric) (hs : t.serial = s.serial) (hh : t.himos = s.himos)
    (v : BitVec 7) (type : Nat) (late : Bool) (ws : List Word) : (t.post v type late ws).fabric = (s.post v type late ws).fabric := by
  cases s
  cases t
  dsimp only at hf hs hh
  subst hf hs hh
  unfold State.post State.postFor
  dsimp only
  split
  · rfl
  · split
    · rfl
    · split <;> rfl

/-! HALT and the end of a launch (R36, R37, R291, R313). -/

theorem State.launch_id {s : State} {l : Launch} (h : s.launch = some l) : l.id = s.core.launch :=
  beq_iff_eq.mp (List.find?_some (p := fun x : Launch => x.id == s.core.launch) h)

/-- The launch with the halt of one more of its contexts. -/
def Launch.withHalt (l : Launch) (lcore dcc : Nat) : Launch := { l with halted := l.halted ++ [lcore], lastHalt := dcc }

/-- A HALT whose context is not the last of its launch to end: the core and the count change, and a decision follows. -/
theorem State.halt_notLast {s : State} (h : ∀ l, s.launch = some l → l.halted.length + 1 ≠ l.n) : ∃ a, s.halt =
    { s with
      core := { s.core with life := .halted, blk := .none }
      disp := (s.onLaunch s.core.launch fun l => l.withHalt s.core.lcore s.dcc).disp, agenda := a } ∧
    ∃ e ∈ a, e.act = .schedulingDecision s.core.part ∧ e.due = s.dcc := by
  let t := (s.onCore fun c => { c with life := .halted, blk := .none }).onLaunch s.core.launch fun l => l.withHalt s.core.lcore s.dcc
  obtain ⟨a, ha, hd, -⟩ := t.decision_eq s.core.part
  refine ⟨a, ?_, hd⟩
  have hl : (t.decision s.core.part).launch = s.launch.map fun l => l.withHalt s.core.lcore s.dcc := by
    rw [ha]
    exact s.launchOf_onLaunch s.core.launch (fun l => l.withHalt s.core.lcore s.dcc) fun _ => rfl
  have heq : s.halt = t.decision s.core.part := by
    unfold State.halt
    dsimp only
    split
    · next l hm =>
      obtain ⟨k, hk, rfl⟩ := Option.map_eq_some_iff.mp (hl.symm.trans hm)
      rw [if_neg (by simpa [Launch.withHalt] using h k hk)]
      rfl
    · rfl
  rw [heq, ha]
  rfl

/-- The HALT of the last context completes the launch. -/
theorem State.halt_last {s : State} {l : Launch} (h : s.launch = some l) (hn : l.halted.length + 1 = l.n) : ∃ a b d, s.halt =
    { s with
      core := { s.core with life := .halted, blk := .none }
      disp := d, agenda := a, serial := s.serial + 1, fabric := b } ∧
    (∃ e ∈ a, e.act = .schedulingDecision s.core.part ∧ e.due = s.dcc) ∧
    (d.launches.find? fun m => m.id == s.core.launch) = some { l.withHalt s.core.lcore s.dcc with state := .done } ∧
    (l.queue, l.seq) ∈ d.doneLog ∧
    b = (s.post l.vf 1 l.late [ofFields [(l.queue.toNat, 32), (l.seq.toNat, 0)], BitVec.ofNat 64 s.dcc, 0]).fabric := by
  let t := (s.onCore fun c => { c with life := .halted, blk := .none }).onLaunch s.core.launch fun l => l.withHalt s.core.lcore s.dcc
  obtain ⟨a, ha, hd, -⟩ := t.decision_eq s.core.part
  have hid := State.launch_id h
  have hof : (t.decision s.core.part).launchOf s.core.launch = some (l.withHalt s.core.lcore s.dcc) := by
    rw [ha]
    exact (s.launchOf_onLaunch s.core.launch (fun l => l.withHalt s.core.lcore s.dcc) fun _ => rfl).trans (congrArg (Option.map _) h)
  have hl : (t.decision s.core.part).launch = some (l.withHalt s.core.lcore s.dcc) := by
    rw [ha] at hof ⊢
    exact hof
  let u := (t.decision s.core.part).onLaunch s.core.launch fun l => { l with state := .done }
  have hu : u.launchOf s.core.launch = some { l.withHalt s.core.lcore s.dcc with state := .done } :=
    (State.launchOf_onLaunch _ _ (fun l => { l with state := .done }) fun _ => rfl).trans (congrArg (Option.map _) hof)
  have heq : s.halt = u.complete (l.withHalt s.core.lcore s.dcc) 0 := by
    unfold State.halt
    dsimp only
    split
    · next k hm =>
      obtain rfl := Option.some.inj (hl.symm.trans hm)
      rw [if_pos (by simpa [Launch.withHalt] using hn), show (l.withHalt s.core.lcore s.dcc).id = s.core.launch from hid]
      rfl
    · next hm => exact absurd (hl.symm.trans hm) (by simp)
  obtain ⟨b, hb⟩ := u.post_eq l.vf 1 l.late [ofFields [(l.queue.toNat, 32), (l.seq.toNat, 0)], BitVec.ofNat 64 s.dcc, 0]
  have hcong : b = (s.post l.vf 1 l.late [ofFields [(l.queue.toNat, 32), (l.seq.toNat, 0)], BitVec.ofNat 64 s.dcc, 0]).fabric := by
    rw [← State.post_fabric_congr (s := s) (t := u), hb]
    all_goals simp only [u, State.onLaunch, ha]
    all_goals rfl
  refine ⟨a, b, { u.disp with doneLog := u.disp.doneLog ++ [(l.queue, l.seq)] }, ?_, hd, ?_, ?_, hcong⟩
  · rw [heq, State.complete]
    refine (congrArg (fun x : State => x.onDisp fun d => { d with doneLog := d.doneLog ++ [(l.queue, l.seq)] }) hb).trans ?_
    simp only [u, State.onLaunch, State.onDisp, ha]
    rfl
  · exact hu
  · simp

/-- What a HALT, or an EVENT's record, waits for (R36, R171, R291). -/
theorem State.hostWaits_iff (s : State) (upto : Nat) : s.hostWaits s.core upto = false ↔
    (∀ a ∈ s.core.io, a.kind.mem = true → a.entry = 0 → a.id < upto → a.performed = true) ∧
    (∀ o ∈ s.fabric.out, o.isRecord = true → o.launch = s.core.launch → o.lcore = s.core.lcore → upto ≤ o.id) ∧
    (∀ v ∈ s.fabric.vfs, ∀ r ∈ v.2.held, r.launch = s.core.launch → r.lcore = s.core.lcore → upto ≤ r.id) ∧
    ∀ w ∈ s.core.waits, (∃ c d n, w.kind = .event c d n) → upto ≤ w.id := by
  have hev : ∀ k : WaitKind, k.isEvent = true ↔ ∃ c d n, k = .event c d n := by
    intro k
    cases k <;> simp [WaitKind.isEvent]
  simp only [State.hostWaits, Core.unperformed, State.recordsOut, Bool.or_eq_false_iff, List.any_eq_false, Bool.and_eq_true,
    beq_iff_eq, decide_eq_true_eq, Bool.not_eq_true', not_and, Bool.not_eq_false, List.any_eq_true, not_exists,
    Nat.not_lt, hev, and_assoc]

/-- A HALT that ends its context: one that waited, and is entered again when what it waited for has come, or one that has nothing
to wait for (R36). -/
theorem halt_ends {s : State} (hf : s.firmware = false) (h : (s.core.blk = .halt ∧ ∀ w ∈ s.core.waits, w.kind ≠ .halt) ∨
    (s.core.blk ≠ .halt ∧ s.inRegion = false ∧ s.inLayer = false ∧ s.hostWaits s.core s.serial = false)) :
    exec .halt s = .next s.halt := by
  rcases h with ⟨hb, hw⟩ | ⟨hb, hr, hl, hw⟩
  · have hno : s.core.halting = false := by simpa [Core.halting] using hw
    rw [exec_halt, execHalt, State.userOnly_user hf, if_pos hb, if_neg (by simp [hno])]
  · rw [halt_first hf hb, State.notInLayer_out hl, State.boundaryOnly_boundary hr, if_neg (by simp [hw])]

theorem haltCompletes : Clause.HaltCompletes := by
  refine ⟨fun s => abandonsWith_of_userOnly (exec_halt s), fun s hf hb ⟨w, hw, hk⟩ => ?_, fun s hf h => ⟨s.halt, halt_ends hf h, ?_⟩⟩
  · have hyes : s.core.halting = true := List.any_eq_true.mpr ⟨w, hw, by simp [hk]⟩
    rw [exec_halt, execHalt, State.userOnly_user hf, if_pos hb, if_pos hyes]
  · by_cases hlast : ∃ l, s.launch = some l ∧ l.halted.length + 1 = l.n
    · obtain ⟨l, hl, hn⟩ := hlast
      obtain ⟨a, b, d, heq, -⟩ := State.halt_last hl hn
      rw [heq]
      exact ⟨rfl, rfl, rfl, SameBytes.refl s⟩
    · obtain ⟨a, heq, -⟩ := State.halt_notLast fun l hl hn => hlast ⟨l, hl, hn⟩
      rw [heq]
      exact ⟨rfl, rfl, rfl, SameBytes.refl s⟩

theorem haltsAreCounted : Clause.HaltsAreCounted := by
  intro s l hl hf ends
  have hends : exec .halt s = .next s.halt → ends := by
    intro hexec
    refine ⟨s.halt, hexec, ?_⟩
    by_cases hn : l.halted.length + 1 = l.n
    · obtain ⟨a, b, d, heq, hd, hfind, hlog, hb⟩ := State.halt_last hl hn
      have hseq := l.seq.isLt
      have hqueue := l.queue.isLt
      rw [heq]
      refine ⟨rfl, hd, ⟨_, hfind, rfl, rfl, fun _ => rfl, fun h => absurd hn h⟩, fun h => absurd hn h, fun _ => ⟨hlog, _, hb, ?_, ?_, ?_⟩⟩
      all_goals
        refine extractLsb'_ofNat_eq ?_
        simp only [List.map_cons, List.map_nil, List.sum_cons, List.sum_nil, BitVec.toNat_zero, BitVec.ofNat_eq_ofNat]
        omega
    · obtain ⟨a, heq, hd⟩ := State.halt_notLast (s := s) fun k hk => by
        rw [hl] at hk
        exact Option.some.inj hk ▸ hn
      rw [heq]
      refine ⟨rfl, hd, ⟨l.withHalt s.core.lcore s.dcc, ?_, rfl, rfl, fun h => absurd h hn, fun _ => rfl⟩, fun _ => rfl, fun h => absurd h hn⟩
      exact (s.launchOf_onLaunch s.core.launch (fun l => l.withHalt s.core.lcore s.dcc) fun _ => rfl).trans (congrArg (Option.map _) hl)
  refine ⟨s.hostWaits_iff, fun hb hw => hends (halt_ends hf (.inl ⟨hb, hw⟩)), fun hb hr hil => ⟨fun hw => ?_, fun hw => ?_⟩⟩
  · exact hends (halt_ends hf (.inr ⟨hb, hr, hil, hw⟩))
  · rw [halt_first hf hb, State.notInLayer_out hil, State.boundaryOnly_boundary hr, if_pos hw]
    rfl

/-- Settles O32: both clauses. -/
theorem haltEndsTheContext : Obligations.HaltEndsTheContext := ⟨haltCompletes, haltsAreCounted⟩

end Sys2Proof.Machine
end

section
namespace Sys2Proof.Machine

/-! Taking a trap on a core that has none (R327). -/

/-- The core with the trap registers of a record. -/
def Core.trapped (c : Core) (r : TrapRec) : Core :=
  { c with
    trap := some r
    stat := { c.stat with trapc := r.cause, trapv0 := r.v0, trapv1 := r.v1, trapv2 := r.v2, trapv3 := r.v3 } }

theorem State.takeTrap_eq {s : State} (h : s.core.trap = none) (r : TrapRec) :
    s.takeTrap r = { s with core := s.core.trapped r } := by
  rw [State.takeTrap, h, Option.any_none, if_neg Bool.false_ne_true]
  rfl

theorem SameBytes.of_eq {s t : State} (hm : t.mem = s.mem) (hc : t.cxl = s.cxl) (hl : t.core.ls.mem = s.core.ls.mem) : SameBytes s t := by
  rw [SameBytes, hm, hc, hl]
  exact ⟨fun _ => rfl, fun _ => rfl, fun _ => rfl⟩

/-! Discard (R20, R122). -/

/-- Use of a resident line changes what L2 keeps of its lines only. -/
theorem State.useLine_eq (s : State) (a : Nat) (f : Line → Line) : ∃ l, s.useLine a f = { s with lines := l } := by
  unfold State.useLine
  split
  · exact ⟨_, rfl⟩
  · exact ⟨s.lines, rfl⟩

theorem State.releaseLines_eq (s : State) : ∃ l, s.releaseLines = { s with lines := l } := by
  have key : ∀ (owned : List Nat) (t : State), ∃ l,
      owned.foldl (fun (t : State) a => t.useLine a fun l => { l with uncommitted := l.uncommitted - 1 }) t = { t with lines := l } := by
    intro owned
    induction owned with
    | nil => exact fun t => ⟨t.lines, rfl⟩
    | cons a owned ih =>
      intro t
      obtain ⟨l, hl⟩ := t.useLine_eq a fun l => { l with uncommitted := l.uncommitted - 1 }
      obtain ⟨k, hk⟩ := ih { t with lines := l }
      exact ⟨k, by rw [List.foldl_cons, hl, hk]⟩
  exact key s.core.held.owned s

theorem State.unpin_eq (s : State) (ps : List (Nat × Nat)) : ∃ l, s.unpin ps = { s with lines := l } := by
  unfold State.unpin
  induction ps generalizing s with
  | nil => exact ⟨s.lines, rfl⟩
  | cons a ps ih =>
    obtain ⟨k, hk⟩ := ih { s with lines := s.lines.map fun l => if l.addr = lineOf a.1 then { l with pins := l.pins - 1 } else l }
    exact ⟨k, by rw [List.foldl_cons, hk]⟩

theorem State.leaveAlign_eq (s : State) : ∃ d, s.leaveAlign = { s with disp := d } := by
  unfold State.leaveAlign
  split
  · exact ⟨_, rfl⟩
  · exact ⟨s.disp, rfl⟩

/-- What an entry that is dropped leaves of its core: the registers are still those of the entry. -/
def Core.dropped (c : Core) : Core :=
  { c with
    ls := c.ls.clearWritten
    held := Held.empty
    eng := { c.eng with
      queues := Vector.replicate 6 [], runs := c.eng.runs.filter fun x => x.chasing && decide (x.id < c.reg.entry)
      free := Vector.replicate 6 0, lastW := Vector.replicate 6 0,
      setfPend := 0, forest := none, loading := none, jobs := [], waitJobs := [], leaves := [], banks := [], stall := none }
    hz := { c.hz with
      pend := c.hz.pend.filter fun p => c.io.any fun a => a.entry != c.reg.entry &&
        (match a.kind with
        | .ld d .. | .amo d .. => p.dest == .s d
        | .xlate h => p.dest == .h h
        | _ => false)
      divs := [], fdivs := [] }
    io := c.io.filter fun a => a.entry != c.reg.entry
    waits := c.waits.filter fun w => match w.kind with
      | .fence .. => false
      | _ => true
    blocked := []
    reissue := false
    reg := { c.reg with isOpen := false, commit := .none } }

/-- Dropping an entry touches its core, the lines it held, its arrivals at an ALIGN, and the work of the context. -/
theorem State.dropEntry_eq (s : State) : ∃ l d a, s.dropEntry = { s with core := s.core.dropped, lines := l, disp := d, agenda := a } := by
  obtain ⟨d, hd⟩ := s.leaveAlign_eq
  obtain ⟨l, hl⟩ := State.releaseLines_eq { s with disp := d }
  obtain ⟨k, hk⟩ := State.unpin_eq (State.releaseYarder { s with disp := d, lines := l }) (s.core.eng.runs.flatMap (·.pins))
  unfold State.dropEntry
  rw [hd]
  dsimp only
  rw [hl, hk]
  exact ⟨_, _, _, rfl⟩

/-- The core with the region-start state (R20). -/
def Core.restart (c : Core) : Core :=
  let r := c.reg
  { c with
    arch := r.restored
    pc := r.snap.pc
    wpc := r.snap.pc
    wword := r.word
    layer := r.snap.layer
    acc := Vector.ofFn fun i => if r.amask.getLsbD i.val then r.snap.acc.get i else c.acc.get i
    blk := .reentry
    cruiser := c.cruiser.restart r.restored r.snap.pc }

/-- The core of a discard, before the array's hold runs anew. -/
def Core.discarded (c : Core) : Core := c.dropped.restart

theorem Core.discarded_arch (c : Core) : c.discarded.arch = c.reg.restored := by
  change c.dropped.reg.restored = _
  simp only [Region.restored, Core.dropped]

theorem Core.discarded_acc (c : Core) (i : Fin 4) :
    c.discarded.acc.get i = if c.reg.amask.getLsbD i.val then c.reg.snap.acc.get i else c.acc.get i := by
  simp only [Core.discarded, Core.restart, Vector.get_ofFn]
  rfl

theorem LocalStore.clearWritten_full (l : LocalStore) (i : Fin 96) :
    (l.clearWritten.tags.get i).full = ((l.tags.get i).full && !l.w.any fun n => n / 16 == i.val) := by
  simp only [LocalStore.clearWritten, Vector.get_ofFn]
  cases l.w.any fun n => n / 16 == i.val <;> simp

/-- A discard clears tags and line bits of the local store, and keeps its bytes (R122). -/
theorem Core.discarded_mem (c : Core) : c.discarded.ls.mem = c.ls.mem := by
  change c.ls.clearWritten.mem = c.ls.mem
  rw [LocalStore.clearWritten]

/-- What a discard is, once for all that follows from it. -/
theorem State.discard_eq (s : State) : ∃ l d a x, s.discard = { s with
    core := { s.core.discarded with eng := { s.core.discarded.eng with array := x } }, lines := l, disp := d, agenda := a } := by
  obtain ⟨l, d, a, h⟩ := s.dropEntry_eq
  unfold State.discard State.rampDiscard
  rw [h]
  rcases State.rampWatch_cases (State.onArray (State.onCore { s with core := s.core.dropped, lines := l, disp := d, agenda := a }
      Core.restart) fun x => { x with last := min x.last s.dcc, free := 0, dend := 0 }) with hw | ⟨f, n, hw⟩
  · exact ⟨l, d, a, _, hw⟩
  · exact ⟨l, d, _, _, hw⟩

theorem exec_regionLong (n : Nat) (s : State) : exec (.regionLong n) s = execRegionLong n s := rfl
theorem exec_reentry (s : State) : exec .reentry s = execReentry s := rfl

/-- The record about a region names its REGION where that stands in no LAYER sequence (R329). -/
theorem State.regionRec_named {s : State} (h : s.core.reg.snap.layer = none) (cause : BitVec 8) (data : Word) :
    (s.regionRec cause data).cause = cause ∧ (s.regionRec cause data).v0 = s.core.reg.snap.pc ∧
      (s.regionRec cause data).v1 = s.core.reg.word ∧ (s.regionRec cause data).v2 = data := by
  refine ⟨rfl, ?_, ?_, rfl⟩ <;> simp [State.regionRec, State.recOf, Core.named, Core.sequence, h]

theorem watchdogFires : Clause.WatchdogFires := by
  intro s entry
  refine ⟨fun hr he ht hl => ?_, fun h => ?_⟩
  · obtain ⟨hc, h0, h1, h2⟩ := s.regionRec_named hl cREGION_LONG (BitVec.ofNat 64 (s.core.reg.len % 2 ^ 24))
    refine ⟨{ s with core := s.core.trapped (s.regionRec cREGION_LONG (BitVec.ofNat 64 (s.core.reg.len % 2 ^ 24))) }, ?_, hc, h0, h1, h2, rfl,
      SameBytes.refl s⟩
    rw [exec_regionLong, execRegionLong, if_pos (by simp [hr, he]), State.takeTrap_eq ht]
  · rw [exec_regionLong, execRegionLong, if_neg]
    rcases h with h | h <;> simp [h]

/-- A restore gives back every register but the handles as it was at REGION (R20). -/
theorem Region.restored_fields (r : Region) : r.restored.s = r.snap.arch.s ∧ r.restored.p = r.snap.arch.p ∧
    r.restored.mask = r.snap.arch.mask ∧ r.restored.slots = r.snap.arch.slots ∧ r.restored.ports = r.snap.arch.ports ∧
    r.restored.flags = r.snap.arch.flags ∧ r.restored.csr = r.snap.arch.csr := by
  simp only [Region.restored, and_self]

/-- The handles of a restore (R20). -/
theorem Region.restored_hreg (r : Region) (h : HReg) : r.restored.hreg h =
    { r.snap.arch.hreg h with v := (r.snap.arch.hreg h).v && !r.revoked.getLsbD h.toNat } := by
  simp only [Arch.hreg, Region.restored, Vector.get_ofFn]
  rfl

theorem discardRestoresRegionStart : Clause.DiscardRestoresRegionStart := by
  intro s
  obtain ⟨l, d, a, x, h⟩ := s.discard_eq
  obtain ⟨hs, hp, hmask, hslots, hports, hflags, hcsr⟩ := s.core.reg.restored_fields
  dsimp only
  rw [h]
  rw [← Core.discarded_arch] at hs hp hmask hslots hports hflags hcsr
  refine ⟨hs, hp, hmask, hslots, hports, hflags, hcsr, fun r => ?_, rfl, fun i => ?_, rfl, fun q hq => ?_, fun y hy => ?_, rfl, rfl,
    fun i => ?_, rfl, SameBytes.of_eq rfl rfl ?_⟩
  · change (s.core.discarded.arch.hreg r).v = _ ∧ (s.core.discarded.arch.hreg r).pbase = _ ∧ (s.core.discarded.arch.hreg r).vpage = _
    rw [Core.discarded_arch, Region.restored_hreg]
    exact ⟨rfl, rfl, rfl⟩
  · exact s.core.discarded_acc i
  · exact List.eq_of_mem_replicate (n := 6) (by simpa [Core.discarded, Core.restart, Core.dropped] using hq)
  · simpa [Core.discarded, Core.restart, Core.dropped] using (List.mem_filter.mp hy).2
  · exact s.core.ls.clearWritten_full i
  · change s.core.discarded.ls.mem = s.core.ls.mem
    exact s.core.discarded_mem

/-- The re-entry that waits for nothing any more counts (R22, R23). -/
theorem reentry_counts {s : State} (hb : s.core.blk = .reentry) (hs : s.core.stopping = false) (hp : s.resultsPending = false)
    (ht : s.toRetranslate = []) :
    exec .reentry s = .next (s.countReentry.onHz fun z => { z with issueAt := max z.issueAt s.dcc }) := by
  rw [exec_reentry, execReentry, if_pos hb, if_neg (by simp [hs]), if_neg (by simp [hp]), ht]
  rfl

/-- A re-entry after a pre-emption counts in PCNT (R22). -/
theorem State.countReentry_preempt {s : State} (h : s.core.replay.cause = cPREEMPT) : s.countReentry = { s with core := { s.core with
    stat := { s.core.stat with pcnt := sat255 s.core.stat.pcnt, lastc := s.core.replay.cause }, blk := .none } } := by
  rw [State.countReentry, if_pos h]
  rfl

/-- One after any other cause counts in CNT, within the limit (R22). -/
theorem State.countReentry_within {s : State} (h1 : s.core.replay.cause ≠ cPREEMPT) (h2 : s.core.replay.cause ≠ cREGION_LIVELOCK)
    (h : s.core.stat.cnt.toNat + 1 ≤ s.core.arch.csr.relim.toNat) : s.countReentry = { s with core := { s.core with
    stat := { s.core.stat with cnt := sat255 s.core.stat.cnt, lastc := s.core.replay.cause }, blk := .none } } := by
  rw [State.countReentry, if_neg h1, if_neg h2, if_neg (Nat.not_lt.mpr h)]
  rfl

/-- One beyond the limit raises REGION_LIVELOCK (R23). -/
theorem State.countReentry_beyond {s : State} (h1 : s.core.replay.cause ≠ cPREEMPT) (h2 : s.core.replay.cause ≠ cREGION_LIVELOCK)
    (h : s.core.arch.csr.relim.toNat < s.core.stat.cnt.toNat + 1) (ht : s.core.trap = none) : s.countReentry = { s with
      core := ({ s.core with stat := { s.core.stat with cnt := minCnt s.core.stat.cnt s.core.arch.csr.relim } } : Core).trapped
        (s.regionRec cREGION_LIVELOCK (s.core.replay.cause.setWidth 64)) } := by
  rw [State.countReentry, if_neg h1, if_neg h2, if_pos h, State.takeTrap_eq (s := s.onStat _) ht]
  rfl

theorem reentryIsCounted : Clause.ReentryIsCounted := by
  intro s hb hs hp ht c x lim
  have hexec := reentry_counts hb hs hp ht
  refine ⟨fun hc => ⟨_, hexec, ?_⟩, fun h15 h10 hle => ⟨_, hexec, ?_⟩, fun h15 h10 hlt htrap hlayer => ⟨_, hexec, ?_⟩⟩
  · rw [State.countReentry_preempt hc]
    exact ⟨rfl, rfl, rfl, SameBytes.of_eq rfl rfl rfl⟩
  · rw [State.countReentry_within h15 h10 hle]
    exact ⟨rfl, rfl, rfl, SameBytes.of_eq rfl rfl rfl⟩
  · obtain ⟨hcause, h0, -, h2⟩ := s.regionRec_named hlayer cREGION_LIVELOCK (c.setWidth 64)
    rw [State.countReentry_beyond h15 h10 hlt htrap]
    exact ⟨hcause, h0, h2, hb, SameBytes.of_eq rfl rfl rfl⟩

/-- Settles O18: all three clauses. -/
theorem discardAndReentry : Obligations.DiscardAndReentry := ⟨watchdogFires, discardRestoresRegionStart, reentryIsCounted⟩

end Sys2Proof.Machine
end

section
namespace Sys2Proof.Machine

/-! Reset (R380): every core is idle. -/

theorem Arch.launch_sreg (r : Reg) : Arch.launch.sreg r = 0 := by
  unfold Arch.sreg
  split
  · rfl
  · simp only [Arch.launch, Vector.get_replicate]

theorem Arch.launch_preg (p : Pred) : Arch.launch.preg p = (p == 0) := by
  revert p
  decide

theorem Arch.launch_hreg_of_ne_zero {h : HReg} (hh : h ≠ 0) : (Arch.launch.hreg h).v = false := by
  revert h
  decide

theorem Acc.empty_at (j k : Nat) : Acc.empty.at j k = 0 := rfl

theorem State.reset_focusPhys_core (n : Nat) : (State.reset.focusPhys n).core = Core.idle n (BitVec.ofNat 4 (n / 28)) := by
  unfold State.focusPhys
  split
  next h =>
    obtain rfl : 0 = n := by simpa [State.cores, State.reset, Core.idle] using h
    rfl
  next => rfl

/-- Settles O60: the state after reset lists core 0 only, and any other core comes into focus as an idle one. -/
theorem resetState : Obligations.ResetState := by
  unfold Obligations.ResetState
  refine ⟨rfl, rfl, rfl, rfl, rfl, rfl, rfl, rfl, rfl, rfl, rfl, rfl, fun a => ?_, rfl, rfl, rfl, fun n hn => ?_⟩
  · unfold State.peek
    split <;> rfl
  · simp only [State.reset_focusPhys_core]
    have hpart : (BitVec.ofNat 4 (n / 28)).toNat = n / 28 := by
      rw [BitVec.toNat_ofNat]
      omega
    refine ⟨rfl, hpart, rfl, rfl, rfl, rfl, rfl, rfl, Arch.launch_sreg, Arch.launch_preg, rfl, rfl, rfl,
      fun h => Arch.launch_hreg_of_ne_zero, fun i => ?_, fun _ => rfl, fun i => ?_, rfl, rfl, rfl, rfl, rfl, rfl, rfl, rfl, rfl, rfl, rfl,
      rfl, rfl, rfl, rfl⟩
    · have hacc : (Core.idle n (BitVec.ofNat 4 (n / 28))).acc.get i = Acc.empty := by simp only [Core.idle, Vector.get_replicate]
      rw [hacc]
      exact ⟨rfl, Acc.empty_at⟩
    · simp only [Core.idle, LocalStore.clear, Vector.get_replicate]

end Sys2Proof.Machine
end

section
namespace Sys2Proof.Machine

theorem SameBytes.onArch (s : State) (f : Arch → Arch) : SameBytes s (s.onArch f) := SameBytes.of_eq rfl rfl rfl

/-! Managing chisels (R17, R182 to R189). -/

theorem exec_pload (slot : BitVec 4) (a : Reg) (n : BitVec 5) (s : State) : exec (.pload slot a n) s = execPload slot a n s := rfl
theorem exec_ploadInstall (slot : BitVec 4) (prog : List Word32) (s : State) :
    exec (.ploadInstall slot prog) s = execPloadInstall slot prog s := rfl
theorem exec_pbind (slot : BitVec 4) (p : Port) (s : State) : exec (.pbind slot p) s = execPbind slot p s := rfl
theorem exec_pbindUn (slot : BitVec 4) (s : State) : exec (.pbindUn slot) s = execPbindUn slot s := rfl
theorem exec_pconst (p : Port) (k : EReg) (a : Reg) (s : State) : exec (.pconst p k a) s = execPconst p k a s := rfl
theorem exec_pctl (slot : BitVec 4) (ctl : BitVec 15) (s : State) : exec (.pctl slot ctl) s = execPctl slot ctl s := rfl
theorem exec_pstat (a : Reg) (slot : BitVec 4) (s : State) : exec (.pstat a slot) s = execPstat a slot s := rfl
theorem exec_ttagRd (a : Reg) (tile : BitVec 7) (s : State) : exec (.ttagRd a tile) s = execTtagRd a tile s := rfl
theorem exec_ttagWr (tile : BitVec 7) (a : Reg) (s : State) : exec (.ttagWr tile a) s = execTtagWr tile a s := rfl
theorem exec_tclr (tile : BitVec 7) (s : State) : exec (.tclr tile) s = execTclr tile s := rfl

/-- No command holds the port that the slot is bound to (R188). -/
def State.SlotFree (s : State) (n : BitVec 4) : Prop := ∀ q, (s.core.arch.slots.get n.toFin).port = some q → s.portClaimed q = false

theorem State.slotBusy_eq_false_iff (s : State) (n : BitVec 4) : s.slotBusy n = false ↔ s.SlotFree n := by
  unfold State.slotBusy State.SlotFree Arch.slot
  cases (s.core.arch.slots.get n.toFin).port <;> simp

theorem State.slotBusy_of_not_free {s : State} {n : BitVec 4} (h : ¬s.SlotFree n) : s.slotBusy n = true := by
  rwa [← s.slotBusy_eq_false_iff n, Bool.not_eq_false] at h

theorem State.unlessBusy_busy {s k : State} {b : Bool} (h : b = true) : s.unlessBusy b k = s.fault cPORT_BUSY 0 := by
  rw [State.unlessBusy, if_pos h]

theorem State.unlessBusy_free {s k : State} {b : Bool} (h : b = false) : s.unlessBusy b k = k := by
  rw [State.unlessBusy, if_neg (by simp [h])]

/-- The bytes of a range, cut into pieces of `w`. -/
theorem splitEvery_readBytes (m : Mem) (w n o : Nat) :
    splitEvery w n (m.readBytes o (w * n)) = (List.range n).map fun i => m.readBytes (o + w * i) w := by
  induction n generalizing o with
  | zero => rfl
  | succ n ih =>
    have hcut : m.readBytes o (w * (n + 1)) = m.readBytes o w ++ m.readBytes (o + w) (w * n) := by
      rw [Mem.readBytes, Nat.mul_succ, Nat.add_comm (w * n), List.range_add, List.map_append, List.map_map]
      refine congrArg₂ _ rfl (List.map_congr_left fun i _ => ?_)
      simp only [Function.comp_apply, Nat.add_assoc]
    have hlen : (m.readBytes o w).length = w := by simp [Mem.readBytes]
    rw [hcut, splitEvery, List.take_left' hlen, List.drop_left' hlen, ih, List.range_succ_eq_map, List.map_cons, List.map_map]
    refine congrArg₂ _ (by rw [Nat.mul_zero, Nat.add_zero]) (List.map_congr_left fun i _ => ?_)
    simp only [Function.comp_apply, Nat.succ_eq_add_one, Nat.mul_add, Nat.mul_one]
    rw [Nat.add_assoc, Nat.add_comm w]

/-- The chisel words of a range that no poison touches. -/
theorem State.chiselWords_eq {s : State} {o n : Nat} (h : ((wordsIn o (4 * n)).all fun w => !s.core.ls.poison.contains w) = true) :
    s.chiselWords o n = ((List.range n).map fun i => BitVec.ofNat 32 (leNat (s.core.ls.mem.readBytes (o + 4 * i) 4)), s) := by
  have hbad : ((wordsIn o (4 * n)).any fun w => s.core.ls.poison.contains w) = false := by
    rw [List.any_eq_false]
    exact fun w hw => by simpa using List.all_eq_true.mp h w hw
  rw [State.chiselWords, hbad, if_neg Bool.false_ne_true, splitEvery_readBytes, List.map_map]
  rfl

theorem badChisel_eq_none {ws : List Word32} (h : ∀ w ∈ ws, ∃ i, decodeChisel w = .ok i) : badChisel ws = none := by
  rw [badChisel, List.findIdx?_eq_none_iff]
  intro w hw
  obtain ⟨i, hi⟩ := h w hw
  rw [hi]

theorem badChisel_eq_some {ws : List Word32} {i : Nat} (hi : i < ws.length) (hok : ∀ j, j < i → ∃ x, decodeChisel (ws.getD j 0) = .ok x)
    (hbad : ∀ x, decodeChisel (ws.getD i 0) ≠ .ok x) : badChisel ws = some i := by
  have hget : ∀ {j} (hj : j < ws.length), ws.getD j 0 = ws[j] := fun hj => List.getD_eq_getElem _ _ hj
  rw [badChisel, List.findIdx?_eq_some_iff_getElem]
  refine ⟨hi, ?_, fun j hj => ?_⟩
  · rw [hget hi] at hbad
    cases hd : decodeChisel ws[i] with
    | ok x => exact absurd hd (hbad x)
    | error _ => rfl
  · obtain ⟨x, hx⟩ := hok j hj
    rw [hget (hj.trans hi)] at hx
    rw [hx]
    exact Bool.false_ne_true

theorem State.markRead_boundary {s : State} (h : s.inRegion = false) (a n : Nat) : s.markRead a n = s := by
  rw [State.markRead, if_neg (by simp [h])]

/-- Marking lines as read changes the marks only. -/
theorem State.markRead_eq (s : State) (a n : Nat) : ∃ r, s.markRead a n = s.onLs fun l => { l with r := r } := by
  unfold State.markRead
  split
  · exact ⟨_, rfl⟩
  · exact ⟨s.core.ls.r, rfl⟩

/-- PLOAD of a range that lies in the local store, with no poison. -/
theorem execPload_words {s : State} {slot : BitVec 4} {a : Reg} {n : BitVec 5} (hf : s.firmware = false)
    (ho : (s.src a).toNat % 4 = 0) (hn : (s.src a).toNat + 4 * n.toNat ≤ 0x60000)
    (hp : ((wordsIn (s.src a).toNat (4 * n.toNat)).all fun w => !s.core.ls.poison.contains w) = true) :
    let ws := (List.range n.toNat).map fun i => BitVec.ofNat 32 (leNat (s.core.ls.mem.readBytes ((s.src a).toNat + 4 * i) 4))
    let t := s.markRead (s.src a).toNat (4 * n.toNat)
    exec (.pload slot a n) s = .next (match badChisel ws with
      | some i => t.fault cILLEGAL (ofFields [(slot.toNat, 8), (i, 0)])
      | none => t.unlessBusy (t.slotBusy slot)
        ((t.pending (.slot slot) (some (s.dcc + 4))).at_ (s.dcc + 4) ordResult s.me (.ploadInstall slot ws))) := by
  intro ws t
  rw [exec_pload, execPload, State.userOnly_user hf, State.chiselWords_eq hp, if_neg (by simp [ho]; omega)] <;> rfl

/-- The local store's range is checked before its words. -/
theorem execPload_range {s : State} {slot : BitVec 4} {a : Reg} {n : BitVec 5} (hf : s.firmware = false)
    (h : (s.src a).toNat % 4 ≠ 0 ∨ 0x60000 < (s.src a).toNat + 4 * n.toNat) : exec (.pload slot a n) s = .next s.illegal := by
  rw [exec_pload, execPload, State.userOnly_user hf, if_pos (by simpa using h)]

theorem ploadData_fields (slot : BitVec 4) {i : Nat} (hi : i < 32) :
    (ofFields [(slot.toNat, 8), (i, 0)]).extractLsb' 8 4 = slot ∧ ((ofFields [(slot.toNat, 8), (i, 0)]).extractLsb' 0 5).toNat = i := by
  have hs := slot.isLt
  have hw : ofFields [(slot.toNat, 8), (i, 0)] = BitVec.ofNat 64 (slot.toNat * 2 ^ 8 + i) := by simp [ofFields]
  rw [hw]
  refine ⟨extractLsb'_ofNat_eq ?_, ?_⟩
  · omega
  · rw [toNat_extractLsb'_ofNat]
    omega

theorem Port.fin_val (p : Port) : (Port.fin p).val = p.code := by cases p <;> rfl

theorem Arch.onPort_get (a : Arch) (p : Port) (f : PortRegs → PortRegs) (i : Fin 4) :
    (a.onPort p f).ports.get i = if i.val = p.code then f (a.ports.get i) else a.ports.get i := by
  simp only [Arch.onPort, Vector.get_ofFn, ← Port.fin_val p, Fin.ext_iff]

theorem statusWord_sum (a b c : Nat) (o : Option Port) :
    ((([(a, 32), (b, 24), (c, 0)] ++ (match o with
      | some p => [(1, 15), (p.code, 13)]
      | none => [])).map fun p => p.1 * 2 ^ p.2).sum) =
    a * 2 ^ 32 + b * 2 ^ 24 + c + (bit o.isSome * 2 ^ 15 + o.elim 0 Port.code * 2 ^ 13) := by
  rw [List.map_append, List.sum_append]
  have h1 : ([(a, 32), (b, 24), (c, 0)].map fun p => p.1 * 2 ^ p.2).sum = a * 2 ^ 32 + b * 2 ^ 24 + c := by
    rw [List.map_cons, List.map_cons, List.map_cons, List.map_nil, List.sum_cons, List.sum_cons, List.sum_cons, List.sum_nil,
      Nat.pow_zero, Nat.mul_one, Nat.add_zero, Nat.add_assoc]
  rw [h1]
  refine congrArg _ ?_
  cases o with
  | none => rw [Option.isSome_none, Option.elim_none, bit, if_neg Bool.false_ne_true, Nat.zero_mul, Nat.zero_mul, List.map_nil, List.sum_nil, Nat.add_zero]
  | some p =>
    rw [Option.isSome_some, Option.elim_some, bit, if_pos rfl, List.map_cons, List.map_cons, List.map_nil,
      List.sum_cons, List.sum_cons, List.sum_nil, Nat.add_zero]
theorem Arch.onPort_slots (a : Arch) (p : Port) (f : PortRegs → PortRegs) : (a.onPort p f).slots = a.slots := by
  simp only [Arch.onPort]

/-- A change of a port's registers changes nothing else. -/
theorem State.onPort_restored (s : State) (p : Port) (f : PortRegs → PortRegs) :
    ((s.onArch fun a => a.onPort p f).onArch fun a => { a with ports := s.core.arch.ports }) = s := by
  simp only [State.onArch, State.onCore, Arch.onPort]

/-- The status word of a slot as a number (R187). -/
theorem ChiselSlot.pstat_eq (c : ChiselSlot) :
    c.pstat = BitVec.ofNat 64 (c.ctl.toNat * 2 ^ 32 + c.sflg.toNat * 2 ^ 24 + c.prog.length +
      (bit c.port.isSome * 2 ^ 15 + c.port.elim 0 Port.code * 2 ^ 13)) := by
  rw [ChiselSlot.pstat, ofFields]
  exact congrArg _ (statusWord_sum _ _ _ _)

theorem ChiselSlot.pstat_fields {c : ChiselSlot} (h : c.prog.length ≤ 16) :
    c.pstat.extractLsb' 32 15 = c.ctl ∧ c.pstat.extractLsb' 24 8 = c.sflg ∧ c.pstat.getLsbD 15 = c.port.isSome ∧
      (∀ q, c.port = some q → (c.pstat.extractLsb' 13 2).toNat = q.code) ∧ (c.pstat.extractLsb' 0 5).toNat = c.prog.length := by
  have hc := c.ctl.isLt
  have hs := c.sflg.isLt
  have hb := bit_le_one c.port.isSome
  have hq : c.port.elim 0 Port.code < 4 := by
    cases c.port with
    | none => exact Nat.succ_pos 3
    | some p => cases p <;> decide
  rw [ChiselSlot.pstat_eq]
  refine ⟨extractLsb'_ofNat_eq ?_, extractLsb'_ofNat_eq ?_, getLsbD_ofNat_eq_bit ?_, fun q hp => ?_, ?_⟩
  · omega
  · omega
  · omega
  · have hcode : c.port.elim 0 Port.code = q.code := by rw [hp]; rfl
    rw [toNat_extractLsb'_ofNat, ← hcode]
    omega
  · rw [toNat_extractLsb'_ofNat]
    omega

/-- The tag word of a tile (R17). -/
theorem TileTag.word_fields (t : TileTag) :
    (BitVec.ofNat 64 t.word).getLsbD 31 = t.full ∧ (BitVec.ofNat 64 t.word).extractLsb' 16 6 = t.fmt ∧
      (BitVec.ofNat 64 t.word).extractLsb' 0 16 = t.seq ∧ (BitVec.ofNat 64 t.word).extractLsb' 22 9 = 0 ∧
      (BitVec.ofNat 64 t.word).extractLsb' 32 32 = 0 := by
  have hf := t.fmt.isLt
  have hs := t.seq.isLt
  have hb := bit_le_one t.full
  unfold TileTag.word
  refine ⟨getLsbD_ofNat_eq_bit ?_, extractLsb'_ofNat_eq ?_, extractLsb'_ofNat_eq ?_, extractLsb'_ofNat_eq ?_, extractLsb'_ofNat_eq ?_⟩ <;>
    simp <;> omega

theorem State.setTag_eq (s : State) (tile : BitVec 7) (t : TileTag) :
    s.setTag tile t = { s with core := { s.core with ls := { s.core.ls with tags := s.core.ls.tags.set! tile.toNat t } } } := by
  have hv : (Vector.ofFn fun i : Fin 96 => if i.val = tile.toNat then t else s.core.ls.tags.get i) = s.core.ls.tags.set! tile.toNat t := by
    ext i hi
    rw [Vector.getElem_ofFn, Vector.getElem_set!]
    by_cases hit : tile.toNat = i
    · rw [if_pos hit, if_pos hit.symm]
    · rw [if_neg hit, if_neg (Ne.symm hit)]
      rfl
  rw [State.setTag, State.onLs, State.onCore, hv]

theorem wfield_reserved_iff (v : Word) : wfield v 30 22 = 0 ↔ v.extractLsb' 22 9 = 0 := by
  rw [wfield_eq_extractLsb' v (w := 9) rfl, ← BitVec.toNat_inj]
  rfl

theorem State.markRead_slotBusy (s : State) (a k : Nat) (n : BitVec 4) : (s.markRead a k).slotBusy n = s.slotBusy n := by
  obtain ⟨r, hr⟩ := s.markRead_eq a k
  rw [hr]
  rfl

/-- PLOAD of words that decode into a slot that no command holds starts their way to the slot. -/
theorem pload_starts {s : State} {slot : BitVec 4} {a : Reg} {n : BitVec 5} {ws : List Word32}
    (h : exec (.pload slot a n) s = .next (((s.markRead (s.src a).toNat (4 * n.toNat)).pending (.slot slot) (some (s.dcc + 4))).at_
      (s.dcc + 4) ordResult s.me (.ploadInstall slot ws))) :
    ∃ t, exec (.pload slot a n) s = .next t ∧ t.core.arch = s.core.arch ∧ SameBytes s t ∧
      (⟨.slot slot, some (s.dcc + 4)⟩ : Pend) ∈ t.core.hz.pend ∧
      ∃ e ∈ t.agenda, e.due = s.dcc + 4 ∧ e.target = s.me ∧ e.act = .ploadInstall slot ws := by
  obtain ⟨r, hr⟩ := s.markRead_eq (s.src a).toNat (4 * n.toNat)
  rw [hr] at h
  exact ⟨_, h, rfl, SameBytes.of_eq rfl rfl rfl, List.mem_cons_self, _, (Ev.mem_insert _ _ _).2 (.inl rfl), rfl, rfl, rfl⟩

/-- PBIND of a slot with a program (R184). -/
theorem execPbind_bound {s : State} {slot : BitVec 4} {p : Port} (hf : s.firmware = false)
    (hc : (s.core.arch.slot slot).prog ≠ []) : exec (.pbind slot p) s =
      .next (s.unlessBusy (s.portClaimed p || s.slotBusy slot) (s.onArch fun a => bindSlot a slot p)) := by
  rw [exec_pbind, execPbind, State.userOnly_user hf, if_neg (fun h => hc (List.isEmpty_iff.1 h))]

/-- PBIND.UN of a bound slot. -/
theorem execPbindUn_bound {s : State} {slot : BitVec 4} {p : Port} (hf : s.firmware = false)
    (hp : (s.core.arch.slot slot).port = some p) : exec (.pbindUn slot) s =
      .next (s.unlessBusy (s.portClaimed p)
        (s.onArch fun a => (a.onSlot slot fun c => { c with port := none }).onPort p clearCarried)) := by
  rw [exec_pbindUn, execPbindUn, State.userOnly_user hf, hp]

/-- TTAG.WR checks the reserved fields of its word (R189). -/
theorem execTtagWr_eq {s : State} {tile : BitVec 7} {a : Reg} (hf : s.firmware = false) : execTtagWr tile a s =
    .next (if (s.src a).extractLsb' 22 9 ≠ 0 ∨ tagReserved ((s.src a).extractLsb' 16 6).toNat = true then s.illegal
      else s.setTag tile ⟨(s.src a).getLsbD 31, (s.src a).extractLsb' 16 6, (s.src a).extractLsb' 0 16⟩) := by
  have hfmt : wfield (s.src a) 21 16 = ((s.src a).extractLsb' 16 6).toNat := wfield_eq_extractLsb' _ rfl
  rw [execTtagWr, State.userOnly_user hf]
  rw [hfmt, BitVec.ofNat_toNat, BitVec.setWidth_eq, BitVec.setWidth_eq_extractLsb' (by decide)]
  have hres := wfield_reserved_iff (s.src a)
  refine congrArg _ (ite_congr (propext ?_) (fun _ => rfl) (fun _ => rfl))
  rw [Bool.or_eq_true, bne_iff_ne, ne_eq, hres]

/-- What a bind makes of each slot (R184). -/
theorem bindSlot_slots (a : Arch) (slot : BitVec 4) (p : Port) (i : Fin 16) :
    (bindSlot a slot p).slots.get i = if i = slot.toFin then { a.slots.get i with port := some p }
      else if (a.slots.get i).port = some p then { a.slots.get i with port := none } else a.slots.get i := by
  simp only [bindSlot, Arch.onPort, Vector.get_ofFn]

theorem bindSlot_s (a : Arch) (slot : BitVec 4) (p : Port) : (bindSlot a slot p).s = a.s := by simp only [bindSlot, Arch.onPort]

theorem bindSlot_p (a : Arch) (slot : BitVec 4) (p : Port) : (bindSlot a slot p).p = a.p := by simp only [bindSlot, Arch.onPort]

/-- Settles O37, instruction by instruction. -/
theorem chiselManagement : Obligations.ChiselManagement := by
  intro s slot a n p k ctl tile prog hf htile o c ws free tag put
  refine ⟨fun ho hn hp => ⟨fun hws hfree => ?_, fun hb hws hbusy => ?_, fun hb i hok hi hbad => ?_⟩, fun h => ?_, rfl, fun hc => ?_,
    fun hc hbusy => ?_, fun hc hp hfree => ?_, fun hc => ?_, fun q hq => ⟨fun hbusy => ?_, fun hfree => ?_⟩, ?_, fun hfree => ?_,
    fun hbusy => ?_, fun hc => ?_, ?_, ?_, ?_, ?_⟩
  · refine pload_starts (ws := ws) ?_
    rw [execPload_words hf ho hn hp, badChisel_eq_none hws]
    exact congrArg Host.Outcome.next (State.unlessBusy_free (((s.markRead_slotBusy _ _ slot).trans ((s.slotBusy_eq_false_iff slot).2 hfree))))
  · refine trapsWith_of_fault fun _ => ?_
    rw [execPload_words hf ho hn hp, badChisel_eq_none hws, State.markRead_boundary hb]
    exact congrArg Host.Outcome.next (State.unlessBusy_busy (State.slotBusy_of_not_free hbusy))
  · have hlen : ws.length = n.toNat := by rw [List.length_map, List.length_range]
    obtain ⟨h1, h2⟩ := ploadData_fields slot (i := i) (hi.trans n.isLt)
    refine ⟨_, trapsWith_of_fault fun _ => ?_, h1, h2⟩
    rw [execPload_words hf ho hn hp, badChisel_eq_some (hlen ▸ hi) hok hbad, State.markRead_boundary hb]
    rfl
  · exact trapsWith_of_fault fun _ => execPload_range hf h
  · refine trapsWith_of_fault fun _ => ?_
    rw [exec_pbind, execPbind, State.userOnly_user hf, if_pos (List.isEmpty_iff.2 (show (s.core.arch.slot slot).prog = [] from hc))]
    rfl
  · refine trapsWith_of_fault fun _ => ?_
    have hb : (s.portClaimed p || s.slotBusy slot) = true :=
      Bool.or_eq_true_iff.2 (hbusy.imp_right State.slotBusy_of_not_free)
    rw [execPbind_bound hf hc]
    exact congrArg Host.Outcome.next (State.unlessBusy_busy hb)
  · have hb : (s.portClaimed p || s.slotBusy slot) = false :=
      Bool.or_eq_false_iff.2 ⟨hp, (s.slotBusy_eq_false_iff slot).2 hfree⟩
    refine ⟨_, (execPbind_bound hf hc).trans (congrArg _ (State.unlessBusy_free hb)), SameBytes.onArch _ _, ?_, fun r hr => ?_, fun q => ?_,
      bindSlot_s _ _ _, bindSlot_p _ _ _⟩
    · rw [State.onArch_core, bindSlot_slots, if_pos rfl]
    · rw [State.onArch_core, bindSlot_slots, if_neg (fun h => hr (BitVec.toFin_inj.1 h))]
      split <;> rfl
    · exact Arch.onPort_get _ _ _ _
  · rw [exec_pbindUn, execPbindUn, State.userOnly_user hf, show (s.core.arch.slot slot).port = none from hc]
  · refine trapsWith_of_fault fun _ => ?_
    rw [execPbindUn_bound hf hq]
    exact congrArg Host.Outcome.next (State.unlessBusy_busy hbusy)
  · refine ⟨_, (execPbindUn_bound hf hq).trans (congrArg _ (State.unlessBusy_free hfree)), SameBytes.onArch _ _,
      Arch.onPort_slots _ _ _, fun r => ?_⟩
    exact Arch.onPort_get _ _ _ _
  · exact ⟨_, (exec_pconst p k a s).trans (congrArg Host.Outcome.next (State.userOnly_user hf)), s.onPort_restored _ _,
      fun r => Arch.onPort_get _ _ _ _⟩
  · change exec (.pctl slot ctl) s = _
    rw [exec_pctl, execPctl, State.userOnly_user hf, State.unlessBusy_free ((s.slotBusy_eq_false_iff slot).2 hfree)]
    rfl
  · refine trapsWith_of_fault fun _ => ?_
    rw [exec_pctl, execPctl, State.userOnly_user hf, State.unlessBusy_busy (State.slotBusy_of_not_free hbusy)]
    rfl
  · exact ⟨_, ⟨_, (exec_pstat a slot s).trans (congrArg Host.Outcome.next (State.userOnly_user hf)), s.writesS_putS a _⟩,
      ChiselSlot.pstat_fields (c := s.core.arch.slot slot) hc⟩
  · exact ⟨_, ⟨_, (exec_ttagRd a tile s).trans (congrArg Host.Outcome.next (State.userOnly_user hf)), s.writesS_putS a _⟩,
      TileTag.word_fields (s.core.ls.tag tile.toNat)⟩
  · intro hr ht
    have hok : ¬((s.src a).extractLsb' 22 9 ≠ 0 ∨ tagReserved ((s.src a).extractLsb' 16 6).toNat = true) := by
      rw [hr, ht]
      exact fun h => h.elim (fun h => h rfl) Bool.false_ne_true
    rw [exec_ttagWr, execTtagWr_eq hf, if_neg hok, State.setTag_eq]
  · intro h
    refine trapsWith_of_fault fun _ => ?_
    rw [exec_ttagWr, execTtagWr_eq hf, if_pos h]
    rfl
  · change exec (.tclr tile) s = _
    rw [exec_tclr, execTclr, State.userOnly_user hf, State.setTag_eq]

end Sys2Proof.Machine
end

section
namespace Sys2Proof.Machine

/-! Pushing a record (R87, R156 to R160). -/

theorem exec_qpush (q : Queue) (pd : Pred) (a : Reg) (s : State) : exec (.qpush q pd a) s = execQpush q pd a s := rfl
theorem exec_qpusht (q : Queue) (pd : Pred) (n : BitVec 6) (b c : Reg) (s : State) :
    exec (.qpusht q pd n b c) s = execQpusht q pd n b c s := rfl
theorem exec_tmpl (n : BitVec 6) (a : Reg) (s : State) : exec (.tmpl n a) s = execTmpl n a s := rfl
theorem exec_qstat (q : Queue) (a : Reg) (s : State) : exec (.qstat q a) s = execQstat q a s := rfl
theorem exec_cruiserRecordCheck (q : Queue) (r : CmdRec) (s : State) :
    exec (.cruiserRecordCheck q r) s = execCruiserRecordCheck q r s := rfl

theorem firstFault_nil_iff (l : List PushFault) : firstFault l = none ↔ l = [] := by
  cases l with
  | nil => simp [firstFault]
  | cons f l =>
    simp only [firstFault, reduceCtorEq, iff_false]
    cases firstFault l with
    | none => simp
    | some g => dsimp only; split <;> simp

/-- The fault that a push raises is one of its faults, of the lowest cause (R32). -/
theorem firstFault_lowest {l : List PushFault} {f : PushFault} (h : firstFault l = some f) :
    f ∈ l ∧ ∀ g ∈ l, f.cause.toNat ≤ g.cause.toNat := by
  induction l generalizing f with
  | nil => simp [firstFault] at h
  | cons x l ih =>
    rw [firstFault] at h
    cases hl : firstFault l with
    | none =>
      obtain rfl : x = f := by simpa [hl] using h
      simp [(firstFault_nil_iff l).1 hl]
    | some g =>
      obtain ⟨hg, hmin⟩ := ih hl
      rw [hl] at h
      dsimp only at h
      split at h
      next hlt =>
        obtain rfl : g = f := by simpa using h
        refine ⟨List.mem_cons_of_mem _ hg, fun y hy => ?_⟩
        rcases List.mem_cons.1 hy with rfl | hy
        · exact hlt.le
        · exact hmin y hy
      next hge =>
        obtain rfl : x = f := by simpa using h
        refine ⟨List.mem_cons_self, fun y hy => ?_⟩
        rcases List.mem_cons.1 hy with rfl | hy
        · exact le_rfl
        · exact (Nat.le_of_not_lt hge).trans (hmin y hy)

/-- The entry of a queue that a push makes, with what it captures (R52, R126, R179). -/
def State.entryPushed (s : State) (r : CmdRec) : QEntry :=
  { r := r, pushedAt := s.dcc, mask := s.core.pre.mtop, seed := s.core.pre.csr.srseed, steptag := s.core.pre.csr.steptag
    handles := s.core.pre.h, startAt := none, seen := 0, waiting := false, gone := false }

/-- The queues with one more entry. -/
def Engine.pushed (g : Engine) (q : Queue) (e : QEntry) : Engine :=
  { g with queues := Vector.ofFn fun i => if i.val = q.code then g.queues.get i ++ [e] else g.queues.get i }

theorem State.append_eq (s : State) (q : Queue) (r : CmdRec) :
    ∃ x, s.append q r = { s with core := { s.core with eng := s.core.eng.pushed q (s.entryPushed r), reg := x } } := by
  rw [State.append]
  split
  · exact ⟨_, rfl⟩
  · exact ⟨s.core.reg, rfl⟩

theorem State.awaitCruiser_eq (s : State) (q : Queue) (r : CmdRec) : ∃ a, s.awaitCruiser q r = { s with agenda := a } := by
  unfold State.awaitCruiser
  split
  · exact ⟨_, rfl⟩
  · exact ⟨s.agenda, rfl⟩

/-- What every push of a record does, by the place it stands in, its faults and the room in its queue. -/
theorem push_outcomes {s : State} {i : Instr} {q : Queue} {pd : Pred} {r : CmdRec} (hf : s.firmware = false)
    (hi : exec i s = .next (s.push q pd r)) :
    (s.inRegion = false → TrapsWith i 0x1D 0 s) ∧
    (s.inRegion = true → s.recordFaults q r = [] → s.occupied q < 32 →
      ∃ (t u : State) (e : QEntry), exec i s = .next u ∧ WritesP pd false t u ∧ e.r = r ∧ e.pushedAt = s.dcc ∧ e.handles = s.core.pre.h ∧
        e.mask = s.core.pre.mtop ∧ e.seed = s.core.pre.csr.srseed ∧ e.steptag = s.core.pre.csr.steptag ∧ e.startAt = none ∧
        (∀ k : Fin 6, t.core.eng.queues.get k = if k.val = q.code then s.core.eng.queues.get k ++ [e] else s.core.eng.queues.get k) ∧
        t.core.arch = s.core.arch ∧ t.core.eng.runs = s.core.eng.runs ∧ SameBytes s t) ∧
    (s.inRegion = true → s.recordFaults q r = [] → 32 ≤ s.occupied q → PutsP i pd true s) ∧
    (s.inRegion = true → s.recordFaults q r ≠ [] → ∃ f ∈ s.recordFaults q r,
      (∀ g ∈ s.recordFaults q r, f.cause.toNat ≤ g.cause.toNat) ∧ TrapsWith i f.cause f.data s) := by
  rw [State.push, State.userOnly_user hf] at hi
  refine ⟨fun hr => trapsWith_of_fault fun _ => ?_, fun hr hnone hroom => ?_, fun hr hnone hfull => ?_, fun hr hsome => ?_⟩
  · rw [hi, hr]
    rfl
  · rw [hr, (firstFault_nil_iff _).2 hnone] at hi
    obtain ⟨x, hx⟩ := s.append_eq q r
    obtain ⟨a, ha⟩ := State.awaitCruiser_eq { s with core := { s.core with eng := s.core.eng.pushed q (s.entryPushed r), reg := x } } q r
    refine ⟨_, _, s.entryPushed r, hi.trans (congrArg _ ((if_neg Bool.false_ne_true).trans (if_pos hroom))), State.writesP_putP _ pd false, rfl, rfl, rfl, rfl, rfl, rfl, rfl, ?_⟩
    rw [hx, ha]
    exact ⟨fun k => Vector.get_ofFn .., rfl, rfl, SameBytes.of_eq rfl rfl rfl⟩
  · rw [hr, (firstFault_nil_iff _).2 hnone] at hi
    exact ⟨_, hi.trans (congrArg _ ((if_neg Bool.false_ne_true).trans (if_neg (Nat.not_lt.2 hfull)))), s.writesP_putP pd true⟩
  · cases hff : firstFault (s.recordFaults q r) with
    | none => exact absurd ((firstFault_nil_iff _).1 hff) hsome
    | some f =>
      obtain ⟨hmem, hmin⟩ := firstFault_lowest hff
      refine ⟨f, hmem, hmin, trapsWith_of_fault fun _ => ?_⟩
      rw [hi, hr, hff]
      rfl

/-! The record that QPUSHT builds (R159). -/

theorem stampMask_getLsbD (i : Nat) : (0xFFFFFF000000 : Word).getLsbD i = (decide (24 ≤ i) && decide (i < 48)) := by
  rw [show (0xFFFFFF000000 : Word) = ((BitVec.allOnes 24).setWidth 64) <<< 24 by decide, BitVec.getLsbD_shiftLeft, BitVec.getLsbD_setWidth, BitVec.getLsbD_allOnes]
  rw [Bool.eq_iff_iff]
  simp
  omega

theorem lowMask_getLsbD (n i : Nat) : (BitVec.ofNat 64 (2 ^ n - 1)).getLsbD i = (decide (i < n) && decide (i < 64)) := by
  rw [BitVec.getLsbD_ofNat, Nat.testBit_two_pow_sub_one, Bool.and_comm]

/-- A record with its stamp patched: the other bits stay. -/
theorem patchStamp_getLsbD (w v : Word) {i : Nat} (hi : i < 64) :
    ((w &&& ~~~(0xFFFFFF000000 : Word)) ||| ((v &&& 0xFFFFFF) <<< 24)).getLsbD i =
      if 24 ≤ i ∧ i < 48 then v.getLsbD (i - 24) else w.getLsbD i := by
  have hm : (0xFFFFFF : Word).getLsbD (i - 24) = (decide (i - 24 < 24) && decide (i - 24 < 64)) := lowMask_getLsbD 24 _
  rw [BitVec.getLsbD_or, BitVec.getLsbD_and, BitVec.getLsbD_not, stampMask_getLsbD, BitVec.getLsbD_shiftLeft, BitVec.getLsbD_and, hm]
  rcases Nat.lt_or_ge i 24 with h1 | h1
  · simp [h1, hi, Nat.not_le.2 h1]
  · rcases Nat.lt_or_ge i 48 with h2 | h2
    · have h3 : i - 24 < 24 := by omega
      simp [h1, h2, h3, hi, Nat.not_lt.2 h1, h3.trans (show 24 < 64 by decide)]
    · have h3 : ¬i - 24 < 24 := by omega
      simp [h3, hi, Nat.not_lt.2 h1, Nat.not_lt.2 h2]

theorem patchLow_getLsbD (w v : Word) {i : Nat} (hi : i < 64) :
    ((w &&& ~~~(0xFFFF : Word)) ||| (v &&& 0xFFFF)).getLsbD i = if i < 16 then v.getLsbD i else w.getLsbD i := by
  have hm : (0xFFFF : Word).getLsbD i = (decide (i < 16) && decide (i < 64)) := lowMask_getLsbD 16 _
  rw [BitVec.getLsbD_or, BitVec.getLsbD_and, BitVec.getLsbD_not, BitVec.getLsbD_and, hm]
  by_cases h : i < 16 <;> simp [h, hi]

/-- A word whose bits from `lo` on are those of another word from `ho` on. -/
theorem extractLsb'_congr {w v : Word} {lo ho n : Nat} (h : ∀ i, i < n → w.getLsbD (lo + i) = v.getLsbD (ho + i)) :
    w.extractLsb' lo n = v.extractLsb' ho n :=
  BitVec.eq_of_getLsbD_eq fun i hi => by rw [BitVec.getLsbD_extractLsb', BitVec.getLsbD_extractLsb', h i hi]

theorem patchRecord_words (r : CmdRec) (x y : Option Word) : (patchRecord r x y).w1 = r.w1 ∧ (patchRecord r x y).w2 = r.w2 ∧
    (patchRecord r x y).w3 = r.w3 ∧ (patchRecord r x y).w4 = r.w4 ∧ (patchRecord r x y).w5 = r.w5 ∧ (patchRecord r x y).w6 = r.w6 ∧
    (patchRecord r x y).w7 = r.w7 := ⟨rfl, rfl, rfl, rfl, rfl, rfl, rfl⟩

/-- The bits of the first word of a patched record. -/
theorem patchRecord_getLsbD (r : CmdRec) (x y : Option Word) {i : Nat} (hi : i < 64) : (patchRecord r x y).w0.getLsbD i =
    if i < 16 then (y.getD r.w0).getLsbD i
    else if 24 ≤ i ∧ i < 48 then x.elim (r.w0.getLsbD i) (fun v => v.getLsbD (i - 24)) else r.w0.getLsbD i := by
  match x, y with
  | none, none => simp [patchRecord]
  | none, some v => exact (patchLow_getLsbD r.w0 v hi).trans (by simp)
  | some v, none =>
    refine (patchStamp_getLsbD r.w0 v hi).trans ?_
    by_cases h : i < 16
    · rw [if_pos h, if_neg (by omega)]
      rfl
    · rw [if_neg h]
      rfl
  | some v, some u => exact (patchLow_getLsbD _ u hi).trans (by rw [patchStamp_getLsbD r.w0 v hi]; rfl)

/-- The fields of the record that QPUSHT builds. -/
theorem templateRecord_fields (x : Arch) (n : BitVec 6) (b c : Reg) :
    let t := (x.tmpl.get n.toFin).w0
    let w := (x.templateRecord n b c).w0
    w.extractLsb' 48 16 = t.extractLsb' 48 16 ∧ w.extractLsb' 16 8 = t.extractLsb' 16 8 ∧
      w.extractLsb' 24 24 = (if b = 0 then t.extractLsb' 24 24 else (x.sreg b).extractLsb' 0 24) ∧
      w.extractLsb' 0 16 = (if c = 0 then t.extractLsb' 0 16 else (x.sreg c).extractLsb' 0 16) := by
  intro t w
  have hw : ∀ i, i < 64 → w.getLsbD i = _ := fun i hi => patchRecord_getLsbD (x.tmpl.get n.toFin) _ _ hi
  refine ⟨extractLsb'_congr fun i hi => ?_, extractLsb'_congr fun i hi => ?_, ?_, ?_⟩
  · rw [hw _ (by omega), if_neg (by omega), if_neg (by omega)]
  · rw [hw _ (by omega), if_neg (by omega), if_neg (by omega)]
  · split
    next hb =>
      refine extractLsb'_congr fun i hi => ?_
      rw [hw _ (by omega), if_neg (by omega), if_pos (by omega), if_pos hb]
      rfl
    next hb =>
      refine extractLsb'_congr fun i hi => ?_
      rw [hw _ (by omega), if_neg (by omega), if_pos (by omega), if_neg hb, Option.elim_some, Nat.add_sub_cancel_left, Nat.zero_add]
  · split
    next hc =>
      refine extractLsb'_congr fun i hi => ?_
      rw [hw _ (by omega), if_pos (by omega), if_pos hc]
      rfl
    next hc =>
      refine extractLsb'_congr fun i hi => ?_
      rw [hw _ (by omega), if_pos (by omega), if_neg hc]
      rfl

/-- The status word of a queue (R160). -/
theorem qstat_fields {o n x : Nat} (ho : o ≤ 32) (hn : n < 2 ^ 24) (hx : x < 2 ^ 8) :
    let v := ofFields [(n, 24), (x, 16), (o, 0)]
    (v.extractLsb' 0 6).toNat = o ∧ (v.extractLsb' 24 24).toNat = n ∧ (v.extractLsb' 16 8).toNat = x ∧
      v.extractLsb' 48 16 = 0 ∧ v.extractLsb' 6 10 = 0 := by
  intro v
  have hv : v = BitVec.ofNat 64 (n * 2 ^ 24 + (x * 2 ^ 16 + o)) := by
    show ofFields [(n, 24), (x, 16), (o, 0)] = _
    rw [ofFields, List.map_cons, List.map_cons, List.map_cons, List.map_nil, List.sum_cons, List.sum_cons, List.sum_cons, List.sum_nil,
      Nat.pow_zero, Nat.mul_one, Nat.add_zero]
  have h0 : ∀ k, (0 : BitVec k).toNat = 0 := fun k => BitVec.toNat_ofNat 0 k ▸ Nat.zero_mod _
  rw [hv]
  refine ⟨?_, ?_, ?_, extractLsb'_ofNat_eq ?_, extractLsb'_ofNat_eq ?_⟩
  · rw [toNat_extractLsb'_ofNat]
    omega
  · rw [toNat_extractLsb'_ofNat]
    omega
  · rw [toNat_extractLsb'_ofNat]
    omega
  · rw [h0]
    omega
  · rw [h0]
    omega

/-! The Cruiser's check of a pushed record (R335, R341). -/

theorem Core.fire_errinjC (c : Core) : c.fire.errinjC.getLsbD 11 = false ∧ c.fire.errinjC.getLsbD 12 = true := by
  rw [Core.fire, getLsbD_setBit _ _ _ _ (by decide), getLsbD_setBit _ _ _ _ (by decide), getLsbD_setBit _ _ _ _ (by decide)]
  exact ⟨rfl, rfl⟩

/-- A check that an injection hits finds a mismatch. -/
theorem cruiserRecordCheck_hit {s : State} {q : Queue} {r : CmdRec} (ha : (s.core.armed 4).isSome = true) (ht : s.core.trap = none) :
    ∃ n x, exec (.cruiserRecordCheck q r) s = .next { s with free := n, core := s.core.fire.trapped x } ∧ x.cause = 0x13 := by
  rw [exec_cruiserRecordCheck, execCruiserRecordCheck, if_pos ha]
  exact ⟨_, _, congrArg _ (State.takeTrap_eq (s := { s with free := s.free + 1 + 1, core := s.core.fire }) ht _), rfl⟩

/-- Settles O38: each push by the place it stands in, its faults and the room in its queue. -/
theorem queuePushes : Obligations.QueuePushes := by
  intro s q pd a b c n hf x run whole tm pushes
  refine ⟨push_outcomes hf rfl, ⟨x.templateRecord n b c, push_outcomes hf rfl, rfl, rfl, rfl, rfl, rfl, rfl, rfl,
    templateRecord_fields x n b c⟩, ?_, ?_, fun h => ?_, fun ha ht => ?_⟩
  · rw [exec_tmpl, execTmpl, State.userOnly_user hf]
    rfl
  · exact ⟨_, ⟨_, (exec_qstat q a s).trans (congrArg Host.Outcome.next (State.userOnly_user hf)), s.writesS_putS a _⟩,
      fun ho hn hx => qstat_fields ho hn hx⟩
  · rw [exec_cruiserRecordCheck, execCruiserRecordCheck, h]
    rfl
  · obtain ⟨m, y, he, hy⟩ := cruiserRecordCheck_hit (q := q) (r := whole) ha ht
    obtain ⟨h11, h12⟩ := Core.fire_errinjC s.core
    exact ⟨_, he, hy, h11, h12, rfl, SameBytes.of_eq rfl rfl rfl⟩

end Sys2Proof.Machine
end

section
namespace Sys2Proof.Machine

/-! Sparse tables whose keys rise, whatever their values are: as tables of present values, which none is not. -/

def SMap.lift {α : Type} (m : SMap α) : SMap (Option α) := m.map fun e => (e.1, some e.2)

/-- The keys of a table rise. -/
def SMap.Rising {α : Type} (m : SMap α) : Prop := SMap.okFrom none 0 m.lift

theorem SMap.lift_put {α : Type} (k : Nat) (v : α) (m : SMap α) : (m.put k v).lift = m.lift.put k (some v) := by
  induction m with
  | nil => rfl
  | cons e m ih =>
    simp only [SMap.put, SMap.lift, List.map_cons]
    split
    · rfl
    · split
      · rfl
      · exact congrArg _ ih

theorem SMap.lift_del {α : Type} (k : Nat) (m : SMap α) : (m.del k).lift = m.lift.del k := by
  induction m with
  | nil => rfl
  | cons e m ih =>
    simp only [SMap.del, SMap.lift, List.map_cons]
    split
    · rfl
    · split
      · rfl
      · exact congrArg _ ih

theorem SMap.get_lift {α : Type} (d : α) (k : Nat) (m : SMap α) : m.get d k = (m.lift.get none k).getD d := by
  induction m with
  | nil => rfl
  | cons e m ih =>
    simp only [SMap.get, SMap.lift, List.map_cons]
    split
    · rfl
    · split
      · rfl
      · exact ih

theorem SMap.rising_of_pairwise {α : Type} {m : SMap α} (h : m.Pairwise fun a b => a.1 < b.1) : m.Rising := by
  have key : ∀ (m : SMap α) (b : Nat), (m.Pairwise fun a b => a.1 < b.1) → (∀ e ∈ m, b ≤ e.1) → SMap.okFrom none b m.lift := by
    intro m
    induction m with
    | nil => exact fun _ _ _ => trivial
    | cons e m ih =>
      intro b hp hb
      obtain ⟨hlt, hm⟩ := List.pairwise_cons.1 hp
      exact ⟨hb e List.mem_cons_self, Option.some_ne_none _, ih (e.1 + 1) hm fun x hx => hlt x hx⟩
  exact key m 0 h fun _ _ => Nat.zero_le _

theorem SMap.rising_set {α : Type} [DecidableEq α] {d v : α} {k : Nat} {m : SMap α} (h : m.Rising) : (SMap.set d k v m).Rising := by
  unfold SMap.Rising SMap.set
  split
  · rw [SMap.lift_del]
    exact SMap.okFrom_del h
  · rw [SMap.lift_put]
    exact SMap.okFrom_put (Option.some_ne_none v) (Nat.zero_le k) h

theorem SMap.get_set {α : Type} [DecidableEq α] {d v : α} {k : Nat} {m : SMap α} (h : m.Rising) (i : Nat) :
    (SMap.set d k v m).get d i = if i = k then v else m.get d i := by
  unfold SMap.set
  split
  next hv =>
    rw [SMap.get_lift, SMap.lift_del, SMap.get_del i h, SMap.get_lift d i m]
    split
    · exact hv.symm
    · rfl
  next =>
    rw [SMap.get_lift, SMap.lift_put, SMap.get_put i h, SMap.get_lift d i m]
    split <;> rfl

/-! Rows of an accumulator. -/

/-- The elements of a table after consecutive writes from a key on. -/
theorem putRow_elements (ws : List Word32) (b : Nat) : ∀ (el : SMap Word32) (c : Nat), el.Rising →
    let el' := ((ws.map some).foldl (fun (x : SMap Word32 × Nat) v =>
      (match v with
      | some w => SMap.set 0 (b + x.2) w x.1
      | none => x.1, x.2 + 1)) (el, c)).1
    ∀ k, el'.get 0 k = if b + c ≤ k ∧ k < b + c + ws.length then ws.getD (k - (b + c)) 0 else el.get 0 k := by
  induction ws with
  | nil =>
    intro el c _ el' k
    rw [if_neg (by simp)]
    rfl
  | cons w ws ih =>
    intro el c hel el' k
    refine (ih (SMap.set 0 (b + c) w el) (c + 1) (SMap.rising_set hel) k).trans ?_
    rw [SMap.get_set hel, List.length_cons]
    rcases Nat.lt_trichotomy k (b + c) with hk | rfl | hk
    · rw [if_neg (by omega), if_neg (by omega), if_neg (by omega)]
    · rw [if_neg (by omega), if_pos rfl, if_pos (by omega), Nat.sub_self, List.getD_cons_zero]
    · have hsub : k - (b + c) = (k - (b + (c + 1))) + 1 := by omega
      by_cases hin : k < b + c + (ws.length + 1)
      · rw [if_pos (by omega), if_pos (by omega), hsub, List.getD_cons_succ]
      · rw [if_neg (by omega), if_neg (by omega), if_neg (by omega)]

/-- A row of 64 elements of an accumulator that no longer is EMPTY. -/
theorem Acc.putRow_at {a : Acc} {tag i : Nat} {ws : List Word32} (ht : BitVec.ofNat 6 tag ≠ 0) (hw : ws.length = 64)
    (ha : a.el.Pairwise fun a b => a.1 < b.1) (k j : Nat) (hj : j < 64) :
    (a.putRow tag i 0 (ws.map some)).at k j = if k = i then ws.getD j 0 else a.at k j := by
  have hel : (if a.tag = 0 then [] else a.el : SMap Word32).Rising := by
    split
    · exact trivial
    · exact SMap.rising_of_pairwise ha
  have hold : SMap.get 0 (k * 64 + j) (if a.tag = 0 then [] else a.el) = a.at k j := by
    unfold Acc.at
    split <;> rfl
  have hget := putRow_elements ws (i * 64) _ 0 hel (k * 64 + j)
  rw [hw, hold, Nat.add_zero] at hget
  rw [Acc.at, if_neg (show (a.putRow tag i 0 (ws.map some)).tag ≠ 0 from ht)]
  refine hget.trans ?_
  rcases Nat.lt_trichotomy k i with hk | rfl | hk
  · rw [if_neg (by omega), if_neg (by omega)]
  · rw [if_pos (by omega), if_pos rfl, Nat.add_sub_cancel_left]
  · rw [if_neg (by omega), if_neg (by omega)]

/-! The end of a command (R119, R153). -/

theorem exec_accz (x : CmdRec) (b : Beat) (s : State) : exec (.accz x b) s = execAccz x b s := rfl
theorem exec_sgpat (x : CmdRec) (b : Beat) (s : State) : exec (.sgpat x b) s = execSgpat x b s := rfl
theorem exec_fload (x : CmdRec) (b : Beat) (s : State) : exec (.fload x b) s = execFload x b s := rfl
theorem exec_forest (x : CmdRec) (b : Beat) (s : State) : exec (.forest x b) s = execForest x b s := rfl
theorem exec_waitf (x : CmdRec) (b : Beat) (s : State) : exec (.waitf x b) s = execWaitf x b s := rfl
theorem exec_waitfComplete (q : Queue) (s : State) : exec (.waitfComplete q) s = execWaitfComplete q s := rfl
theorem exec_setfFlagWrite (n : BitVec 6) (clr : Bool) (s : State) : exec (.setfFlagWrite n clr) s = execSetfFlagWrite n clr s := rfl
theorem exec_yarderHoldExpiry (line : Nat) (s : State) : exec (.yarderHoldExpiry line) s = execYarderHoldExpiry line s := rfl

/-- An engine without a command that has made its last write. -/
def Engine.finished (e : Engine) (r : Run) (t : Nat) : Engine :=
  { e with
    runs := e.runs.filter fun x => x.id != r.id
    lastW := Vector.ofFn fun i => if i.val = r.q.code then max t (e.lastW.get i) else e.lastW.get i }

theorem State.finish_eq (s : State) (r : Run) :
    ∃ l, s.finish r = { s with core := { s.core with eng := s.core.eng.finished r s.dcc }, lines := l } := by
  obtain ⟨l, hl⟩ := s.unpin_eq (((s.runOf r.id).map (·.pins)).getD [])
  refine ⟨l, ?_⟩
  rw [State.finish, hl]
  rfl

/-- The state in which a beat is tried. -/
def State.unstalled (s : State) : State := { s with core := { s.core with eng := { s.core.eng with stall := none } } }

theorem find?_filter_ne (runs : List Run) (id : Nat) : (runs.filter fun x => x.id != id).find? (fun x => x.id == id) = none := by
  rw [List.find?_eq_none]
  intro x hx
  simpa using (List.mem_filter.1 hx).2

/-- A write that finishes its command is the whole of its beat. -/
theorem State.onBeat_finishes {s : State} {id : Nat} {r : Run} {start : Queue → State} {read write : State → Run → State} {u : State}
    (hr : s.core.eng.runs.find? (fun y => y.id == id) = some r) (hw : write s.unstalled r = u.finish r) (hs : u.core.eng.stall = none) :
    s.onBeat (.write id) start read write = u.finish r := by
  obtain ⟨l, hl⟩ := u.finish_eq r
  have hrun : s.runOf id = some r := hr
  have hnone : (u.finish r).runOf r.id = none := by
    rw [hl]
    exact find?_filter_ne u.core.eng.runs r.id
  have hstall : (u.finish r).core.eng.stall = none := by
    rw [hl]
    exact hs
  rw [State.onBeat, hrun]
  show State.attempt s r _ = _
  rw [State.attempt, show (write (s.onEng fun e => { e with stall := none }) r) = u.finish r from hw]
  rw [hstall]
  dsimp only
  rw [hnone]

/-- What the end of a command leaves. -/
theorem State.finish_ends {s u : State} (r : Run) (hruns : u.core.eng.runs = s.core.eng.runs) (ha : u.core.arch = s.core.arch)
    (hl : u.core.ls = s.core.ls) (hm : u.mem = s.mem) (hc : u.cxl = s.cxl) :
    (∀ y ∈ (u.finish r).core.eng.runs, y.id ≠ r.id) ∧ (u.finish r).core.eng.runs.length ≤ s.core.eng.runs.length ∧
      (u.finish r).core.arch = s.core.arch ∧ (u.finish r).core.ls = s.core.ls ∧ SameBytes s (u.finish r) := by
  obtain ⟨l, h⟩ := u.finish_eq r
  rw [h]
  refine ⟨fun y hy => ?_, ?_, ha, hl, SameBytes.of_eq hm hc (congrArg _ hl)⟩
  · simpa using (List.mem_filter.1 hy).2
  · exact (List.length_filter_le _ _).trans (congrArg _ hruns).le

theorem State.finish_acc (u : State) (r : Run) : (u.finish r).core.acc = u.core.acc := by
  obtain ⟨l, h⟩ := u.finish_eq r
  rw [h]

theorem State.finish_parts (u : State) (r : Run) : (u.finish r).parts = u.parts := by
  obtain ⟨l, h⟩ := u.finish_eq r
  rw [h]

theorem State.finish_forest (u : State) (r : Run) :
    (u.finish r).core.eng.loading = u.core.eng.loading ∧ (u.finish r).core.eng.forest = u.core.eng.forest := by
  obtain ⟨l, h⟩ := u.finish_eq r
  rw [h]
  exact ⟨rfl, rfl⟩

/-! ACCZ (R211). -/

/-- Several accumulators take one value. -/
theorem foldl_onAcc (p : Nat → Prop) [DecidablePred p] (a : Acc) (l : List Nat) (s : State) :
    ∃ x, l.foldl (fun (s : State) i => if p i then s.onAcc i fun _ => a else s) s = { s with core := { s.core with acc := x } } ∧
      ∀ i : Fin 4, x.get i = if i.val ∈ l ∧ p i.val then a else s.core.acc.get i := by
  induction l generalizing s with
  | nil => exact ⟨s.core.acc, rfl, fun i => by simp⟩
  | cons n l ih =>
    rw [List.foldl_cons]
    by_cases hn : p n
    · obtain ⟨x, hx, hget⟩ := ih (s.onAcc n fun _ => a)
      refine ⟨x, by rw [if_pos hn, hx]; rfl, fun i => ?_⟩
      rw [hget i, State.onAcc, State.onCore_core, Vector.get_ofFn]
      by_cases hin : i.val = n
      · simp [hin, hn]
      · simp [hin]
    · obtain ⟨x, hx, hget⟩ := ih s
      refine ⟨x, by rw [if_neg hn, hx], fun i => ?_⟩
      rw [hget i]
      by_cases hin : i.val = n
      · simp [hin, hn]
      · simp [hin]

theorem wfield_bit (w : Word) {i : Nat} (hi : i < 4) : wfield w 3 0 / 2 ^ i % 2 = 1 ↔ w.getLsbD i = true := by
  have h := BitVec.getLsbD_extractLsb' (start := 0) (len := 4) (x := w) (i := i)
  rw [Nat.zero_add, decide_eq_true hi, Bool.true_and] at h
  rw [wfield_eq_extractLsb' w (w := 4) rfl, ← h, BitVec.getLsbD, Nat.testBit_eq_decide_div_mod_eq, decide_eq_true_iff]

/-- The last beat of an ACCZ. -/
theorem accz_ends {s : State} {x : CmdRec} {id : Nat} {r : Run} (hr : s.core.eng.runs.find? (fun y => y.id == id) = some r) :
    ∃ a, exec (.accz x (.write id)) s = .next (State.finish { s.unstalled with core := { s.unstalled.core with acc := a } } r) ∧
      ∀ i : Fin 4, a.get i = if r.e.r.w1.getLsbD i.val then ⟨r.e.r.w1.extractLsb' 4 6, []⟩ else s.core.acc.get i := by
  have htag : BitVec.ofNat 6 (wfield r.e.r.w1 9 4) = r.e.r.w1.extractLsb' 4 6 := by
    rw [wfield_eq_extractLsb' _ (w := 6) rfl, BitVec.ofNat_toNat, BitVec.setWidth_eq]
  obtain ⟨a, ha, hget⟩ := foldl_onAcc (fun i => wfield r.e.r.w1 3 0 / 2 ^ i % 2 = 1) ⟨BitVec.ofNat 6 (wfield r.e.r.w1 9 4), []⟩
    (List.range 4) s.unstalled
  refine ⟨a, congrArg Host.Outcome.next (State.onBeat_finishes hr ?_ rfl), fun i => ?_⟩
  · rw [State.acczEarly]
    exact congrArg (fun t : State => t.finish r) ha
  · rw [hget i, htag]
    refine ite_congr (propext ?_) (fun _ => rfl) (fun _ => rfl)
    rw [wfield_bit _ i.isLt]
    exact and_iff_right (List.mem_range.2 i.isLt)

/-! SGPAT (R234). -/

theorem sgpat_ends {s : State} {x : CmdRec} {id : Nat} {r : Run} (hr : s.core.eng.runs.find? (fun y => y.id == id) = some r) :
    exec (.sgpat x (.write id)) s = .next ((s.unstalled.onPart s.core.part fun p => { p with
      skidder := Vector.ofFn fun i => if i.val = wfield r.e.r.w0 5 0 then r.e.r.w1 else p.skidder.get i }).finish r) :=
  congrArg Host.Outcome.next (State.onBeat_finishes hr rfl rfl)

theorem State.part_onPart (s : State) (p : BitVec 4) (f : Partition → Partition) : (s.onPart p f).part p = f (s.part p) := by
  have h := vector_get_set (w := 4) s.parts p p (f (s.parts.get p.toFin))
  rw [if_pos rfl] at h
  exact h

/-! FLOAD and FOREST (R259, R261). -/

/-- The last beat of an FLOAD of a column table with no reserved bit. -/
theorem fload_ends {s : State} {x : CmdRec} {id : Nat} {r : Run} (hr : s.core.eng.runs.find? (fun y => y.id == id) = some r)
    (hn : r.nw = 64) (hl : s.core.eng.loading = some r.id) (hok : ∀ j, j < 64 → colBad ((r.capA.getD 64 []).getD j 0) = false) :
    exec (.fload x (.write id)) s = .next ((s.unstalled.onEng fun e =>
      { e with forest := some (Forest.ofRows r.capA), loading := none }).finish r) := by
  refine congrArg Host.Outcome.next (State.onBeat_finishes hr ?_ rfl)
  have hbad : (List.range 64).find? (fun j => colBad ((r.capA.getD r.nw []).getD j 0)) = none := by
    rw [hn, List.find?_eq_none]
    exact fun j hj => (hok j (List.mem_range.1 hj)).symm ▸ Bool.false_ne_true
  rw [State.floadWrite, if_neg (by omega), hbad]
  dsimp only
  refine congrArg (fun t : State => t.finish r) ?_
  rw [State.onEng, State.onCore, State.onEng, State.onCore, if_pos (show s.unstalled.core.eng.loading = some r.id from hl)]

/-- The last sample of a FOREST. -/
theorem forest_ends {s : State} {x : CmdRec} {id : Nat} {r : Run} (hr : s.core.eng.runs.find? (fun y => y.id == id) = some r)
    (hn : r.nw + 1 = (scoreOf r.e.r).ns) : exec (.forest x (.write id)) s = .next ((s.unstalled.onAcc (scoreOf r.e.r).ad fun a =>
      a.putRow tagI32 r.nw 0 ((r.capA.getD r.nw []).map fun v => some (BitVec.ofNat 32 v))).finish r) := by
  refine congrArg Host.Outcome.next (State.onBeat_finishes hr ?_ rfl)
  rw [State.forestWrite]
  exact if_pos hn

theorem State.accOf_lt (s : State) {n : Nat} (h : n < 4) : s.accOf n = s.core.acc.get ⟨n, h⟩ := by
  rw [State.accOf, List.getD_eq_getElem _ _ (by simpa using h)]
  rfl

theorem State.onAcc_get (s : State) (n : Nat) (f : Acc → Acc) (i : Fin 4) :
    (s.onAcc n f).core.acc.get i = if i.val = n then f (s.core.acc.get i) else s.core.acc.get i := by
  rw [State.onAcc, State.onCore_core, Vector.get_ofFn]

/-! SETF and WAITF (R152 to R154). -/

theorem setfFlagWrite_eq (n : BitVec 6) (clr : Bool) (s : State) :
    exec (.setfFlagWrite n clr) s = .next { s with core := { s.core with
      arch := setFlag s.core.arch n fun f => if clr then { f with set := false } else ⟨true, f.sseq + 1⟩
      eng := { s.core.eng with setfPend := s.core.eng.setfPend - 1, setfNow := setBit s.core.eng.setfNow n.toNat true } } } := rfl

theorem Queue.code_lt (q : Queue) : q.code < 6 := by cases q <;> decide

theorem vector_getD {α : Type} (v : Vector α 6) {n : Nat} (h : n < 6) (d : α) : v.toList.getD n d = v.get ⟨n, h⟩ := by
  rw [List.getD_eq_getElem _ _ (by simpa using h)]
  rfl

/-- The queue of a state whose head has changed. -/
theorem State.onHead_queue {s : State} {q : Queue} {e : QEntry} {rest : List QEntry} (h : s.core.eng.queues.toList.getD q.code [] = e :: rest)
    (f : QEntry → QEntry) : (s.onHead q f).core.eng.queues.toList.getD q.code [] = f e :: rest := by
  rw [vector_getD _ (Queue.code_lt q)] at h ⊢
  simp only [State.onHead, State.onEng, State.onCore, Vector.get_ofFn, if_pos, h]

theorem State.onHead_eq (s : State) (q : Queue) (f : QEntry → QEntry) :
    ∃ x, s.onHead q f = { s with core := { s.core with eng := { s.core.eng with queues := x } } } := ⟨_, rfl⟩

theorem State.headOf_eq {s : State} {q : Queue} {e : QEntry} {rest : List QEntry} (h : s.core.eng.queues.toList.getD q.code [] = e :: rest)
    (hg : e.gone = false) : s.headOf q = some e := by
  rw [State.headOf, h, List.find?_cons_of_pos (by simp [hg])]

theorem flagOf_eq (r : CmdRec) : flagOf r = r.w0.extractLsb' 0 6 := by
  rw [flagOf, wfield_eq_extractLsb' _ (w := 6) rfl, BitVec.ofNat_toNat, BitVec.setWidth_eq]

/-- When a flag satisfies a WAITF (R154). -/
theorem waitMet_iff (a : Arch) (r : CmdRec) : waitMet a r = true ↔ (a.flags.get (r.w0.extractLsb' 0 6).toFin).set = true ∧
    (r.w0.getLsbD 17 = true → (a.flags.get (r.w0.extractLsb' 0 6).toFin).sseq = r.w1.extractLsb' 0 16) := by
  rw [waitMet, flagOf_eq, wfield_eq_extractLsb' _ (w := 16) rfl, ← BitVec.toNat_inj]
  cases r.w0.getLsbD 17 <;> simp

/-- A wait that ends (R154). -/
theorem endFlagWait_over {s u : State} {q : Queue} {e e' : QEntry} {rest : List QEntry}
    (hq : u.core.eng.queues.toList.getD q.code [] = e' :: rest) (he : e'.r = e.r) (ha : u.core.arch = s.core.arch) (hb : SameBytes s u) :
    ∃ h, SameBytes s (u.endFlagWait q e) ∧ (u.endFlagWait q e).core.eng.queues.toList.getD q.code [] = h :: rest ∧ h.gone = true ∧
      h.r = e.r ∧ (u.endFlagWait q e).core.arch = if e.r.w0.getLsbD 16 then
        setFlag s.core.arch (e.r.w0.extractLsb' 0 6) fun f => { f with set := false } else s.core.arch := by
  refine ⟨{ e' with waiting := false, gone := true }, ?_⟩
  rw [State.endFlagWait]
  dsimp only
  split
  next hclr =>
    have hq' : (u.onArch fun a => setFlag a (flagOf e.r) fun f => { f with set := false }).core.eng.queues.toList.getD q.code [] =
      e' :: rest := hq
    refine ⟨hb, State.onHead_queue hq' _, rfl, he, ?_⟩
    obtain ⟨x, hx⟩ := State.onHead_eq (u.onArch fun a => setFlag a (flagOf e.r) fun f => { f with set := false }) q
      fun e => { e with waiting := false, gone := true }
    rw [hx, ← ha, ← flagOf_eq]
    rfl
  next hclr =>
    refine ⟨hb, State.onHead_queue hq _, rfl, he, ?_⟩
    obtain ⟨x, hx⟩ := State.onHead_eq u q fun e => { e with waiting := false, gone := true }
    rw [hx]
    exact ha

/-- The first cycle of a WAITF, and its later ones. -/
theorem waitf_start {s : State} {x : CmdRec} {q : Queue} {e : QEntry} {rest : List QEntry}
    (h : s.core.eng.queues.toList.getD q.code [] = e :: rest) (hg : e.gone = false) : exec (.waitf x (.start q)) s = .next
      (let u := s.onHead q fun e => { e with seen := s.dcc + 1 }
       if waitMet s.core.arch e.r then u.endFlagWait q e
       else if s.core.stat.relax then u.onHead q fun e => { e with waiting := true }
       else u.cmdFault cSCHED_MISS q e.r 0 0 0) := by
  refine congrArg Host.Outcome.next ?_
  show s.startWait q = _
  rw [State.startWait, State.headOf_eq h hg]
  rfl

theorem waitfComplete_eq {s : State} {q : Queue} {e : QEntry} {rest : List QEntry}
    (h : s.core.eng.queues.toList.getD q.code [] = e :: rest) (hg : e.gone = false) :
    exec (.waitfComplete q) s = .next (if e.waiting && waitMet s.core.arch e.r then s.endFlagWait q e else s) := by
  rw [exec_waitfComplete, execWaitfComplete, State.headOf_eq h hg]

/-- A line whose holds that are over have ended, where it is the one named (R244). -/
def Line.expire (l : Line) (line now : Nat) : Line :=
  if l.addr = lineOf line then { l with yarder := l.yarder.filter fun h => decide (now < h.2) } else l

theorem yarderHoldExpiry_eq (line : Nat) (s : State) :
    exec (.yarderHoldExpiry line) s = .next { s with lines := s.lines.map fun l => l.expire line s.dcc } := rfl

theorem Line.expire_addr (l : Line) (line now : Nat) : (l.expire line now).addr = l.addr := by
  unfold Line.expire
  split <;> rfl

theorem Line.expire_ends {l : Line} {line now : Nat} (hl : l.addr = lineOf line) : ∀ h ∈ (l.expire line now).yarder, now < h.2 := by
  rw [Line.expire, if_pos hl]
  exact fun h hh => of_decide_eq_true (List.mem_filter.1 hh).2

theorem Line.expire_keeps {l : Line} {line now : Nat} {h : Nat × Nat} (hh : h ∈ l.yarder) (hlt : now < h.2) :
    h ∈ (l.expire line now).yarder := by
  unfold Line.expire
  split
  · exact List.mem_filter.2 ⟨hh, decide_eq_true hlt⟩
  · exact hh

/-- Settles O41, command by command. -/
theorem commandsTakeEffect : Obligations.CommandsTakeEffect := by
  intro s x n clr q flag ends
  refine ⟨fun id r hr => ⟨?_, ?_, fun hn hl hok => ?_, fun hn hlen => ?_⟩, ?_, fun e rest hq hg => ⟨fun hmet => ?_, fun hmet => ?_⟩,
    fun line => ?_⟩
  · obtain ⟨a, he, ha⟩ := accz_ends (x := x) hr
    exact ⟨_, he, State.finish_ends r rfl rfl rfl rfl rfl, fun i => by rw [State.finish_acc]; exact ha i⟩
  · refine ⟨_, sgpat_ends hr, State.finish_ends r rfl rfl rfl rfl rfl, fun i => ?_⟩
    have hidx : wfield r.e.r.w0 5 0 = (r.e.r.w0.extractLsb' 0 6).toNat := wfield_eq_extractLsb' _ rfl
    rw [State.part, State.finish_parts]
    refine (congrArg (fun p : Partition => p.skidder.get i) (State.part_onPart s.unstalled s.core.part _)).trans ?_
    rw [Vector.get_ofFn, hidx]
    rfl
  · obtain ⟨h1, h2⟩ := State.finish_forest (s.unstalled.onEng fun e => { e with forest := some (Forest.ofRows r.capA), loading := none }) r
    exact ⟨_, fload_ends hr hn hl hok, State.finish_ends r rfl rfl rfl rfl rfl, h1, h2⟩
  · refine ⟨_, forest_ends hr hn, State.finish_ends r rfl rfl rfl rfl rfl, fun i hi => ?_, fun had hel i j hj => ?_⟩
    · rw [State.finish_acc, State.onAcc_get, if_neg hi]
      rfl
    · have hmap : ((r.capA.getD r.nw []).map fun v => some (BitVec.ofNat 32 v)) = ((r.capA.getD r.nw []).map (BitVec.ofNat 32)).map some :=
        List.map_map.symm
      have hw : ((r.capA.getD r.nw []).map (BitVec.ofNat 32)).length = 64 := (List.length_map _).trans hlen
      have hval : ((r.capA.getD r.nw []).map (BitVec.ofNat 32)).getD j 0 = BitVec.ofNat 32 ((r.capA.getD r.nw []).getD j 0) :=
        List.getD_map _ 0 (BitVec.ofNat 32)
      rw [State.accOf_lt s had] at hel ⊢
      rw [State.accOf_lt _ had, State.finish_acc, State.onAcc_get, if_pos rfl, hmap, ← hval]
      exact Acc.putRow_at (tag := tagI32) (by decide) hw hel i j hj
  · exact ⟨_, setfFlagWrite_eq n clr s, SameBytes.of_eq rfl rfl rfl, rfl, rfl⟩
  · have hm := (waitMet_iff s.core.arch e.r).2 hmet
    refine ⟨?_, fun hw => ?_⟩
    · obtain ⟨h, hb, hq', hrest⟩ := endFlagWait_over (State.onHead_queue hq fun e => { e with seen := s.dcc + 1 }) rfl rfl
        (SameBytes.of_eq rfl rfl rfl)
      exact ⟨_, h, (waitf_start hq hg).trans (congrArg Host.Outcome.next (if_pos hm)), hb, hq', hrest⟩
    · obtain ⟨h, hb, hq', hrest⟩ := endFlagWait_over hq rfl rfl (SameBytes.refl s)
      exact ⟨_, h, (waitfComplete_eq hq hg).trans (congrArg Host.Outcome.next (if_pos (by rw [hw, hm]; rfl))), hb, hq', hrest⟩
  · have hm : ¬waitMet s.core.arch e.r = true := fun h => hmet ((waitMet_iff s.core.arch e.r).1 h)
    refine ⟨fun hr => ?_, fun hr ht => ?_, ?_⟩
    · refine ⟨_, (waitf_start hq hg).trans (congrArg Host.Outcome.next ((if_neg hm).trans (if_pos hr))), rfl, SameBytes.of_eq rfl rfl rfl, ?_⟩
      exact State.onHead_queue (State.onHead_queue hq _) _
    · refine ⟨_, (waitf_start hq hg).trans (congrArg Host.Outcome.next ((if_neg hm).trans (if_neg (by simp [hr])))), ?_⟩
      rw [State.cmdFault, State.takeTrap_eq (s := s.onHead q fun e => { e with seen := s.dcc + 1 }) ht]
      exact ⟨rfl, rfl, SameBytes.of_eq rfl rfl rfl⟩
    · rw [waitfComplete_eq hq hg, if_neg (by simp [hm])]
  · refine ⟨_, yarderHoldExpiry_eq line s, rfl, SameBytes.of_eq rfl rfl rfl, ?_, fun l hl hline h hh => ?_, fun l hl h hh hlt => ?_⟩
    · exact List.map_map.trans (List.map_congr_left fun l _ => Line.expire_addr l line s.dcc)
    · obtain ⟨m, -, rfl⟩ := List.mem_map.1 hl
      exact Line.expire_ends ((Line.expire_addr m line s.dcc).symm.trans hline) h hh
    · exact ⟨_, List.mem_map_of_mem hl, Line.expire_addr l line s.dcc, Line.expire_keeps hh hlt⟩

end Sys2Proof.Machine
end

section
namespace Sys2Proof.Machine

/-! What a read through L2 leaves (R280, R282, R338, R341): lines come and go with what they hold of the second tier, armed injections fire,
corrected errors are logged, and fills are started. -/

/-- One state behind another by reads through L2 alone. -/
def ReadsL2 (s t : State) : Prop :=
  ∃ inj others mem cxl lines poison agenda free himos,
    t = { s with core := { s.core with errinjC := inj }, others := others, mem := mem, cxl := cxl, lines := lines, poison := poison,
                 agenda := agenda, free := free, himos := himos } ∧
      (Mem.wf s.mem = true → Mem.wf mem = true ∧ ∀ a, isHbm a = true → mem.read a = s.mem.read a) ∧ ∀ e ∈ s.agenda, e ∈ agenda

theorem ReadsL2.refl (s : State) : ReadsL2 s s :=
  ⟨_, _, _, _, _, _, _, _, _, rfl, fun h => ⟨h, fun _ _ => rfl⟩, fun _ h => h⟩

theorem ReadsL2.trans {s t u : State} (h1 : ReadsL2 s t) (h2 : ReadsL2 t u) : ReadsL2 s u := by
  obtain ⟨_, _, _, _, _, _, _, _, _, rfl, hm1, ha1⟩ := h1
  obtain ⟨_, _, _, _, _, _, _, _, _, rfl, hm2, ha2⟩ := h2
  refine ⟨_, _, _, _, _, _, _, _, _, rfl, fun h => ?_, fun e he => ha2 e (ha1 e he)⟩
  obtain ⟨hw1, hr1⟩ := hm1 h
  obtain ⟨hw2, hr2⟩ := hm2 hw1
  exact ⟨hw2, fun a ha => (hr2 a ha).trans (hr1 a ha)⟩

/-- What the lines hold beside the bytes of HBM may change freely. -/
theorem ReadsL2.lines (s : State) (cxl : Mem) (lines : List Line) (poison : List Nat) :
    ReadsL2 s { s with cxl := cxl, lines := lines, poison := poison } :=
  ⟨_, _, _, _, _, _, _, _, _, rfl, fun h => ⟨h, fun _ _ => rfl⟩, fun _ h => h⟩

/-- Bytes beyond HBM. -/
theorem ReadsL2.beyond (s : State) {a : Nat} (bs : List Byte) (ha : 0x6000000000 ≤ a) : ReadsL2 s { s with mem := s.mem.writeBytes a bs } := by
  refine ⟨_, _, _, _, _, _, _, _, _, rfl, fun h => ⟨Mem.wf_writeBytes h a bs, fun i hi => ?_⟩, fun _ h => h⟩
  have hi : i < 0x6000000000 := of_decide_eq_true hi
  rw [Mem.read_writeBytes h, if_neg (by omega)]

theorem beyond_of_isTier2 {a : Nat} (h : isTier2 a = true) : 0x6000000000 ≤ lineOf a ∧ 0x6000000000 ≤ a := by
  rw [isTier2, Bool.and_eq_true, decide_eq_true_eq, decide_eq_true_eq] at h
  unfold lineOf
  omega

theorem State.useLine_reads (s : State) (a : Nat) (f : Line → Line) : ReadsL2 s (s.useLine a f) := by
  obtain ⟨l, hl⟩ := s.useLine_eq a f
  rw [hl]
  exact ReadsL2.lines s s.cxl l s.poison

theorem State.writeBack_reads (s : State) (a : Nat) : ReadsL2 s (s.writeBack a) := by
  unfold State.writeBack
  split
  · exact ReadsL2.lines s _ _ s.poison
  · exact ReadsL2.refl s

theorem State.dropLine_reads (s : State) (l : Line) : ReadsL2 s (s.dropLine l) := by
  have h1 : ReadsL2 s (if l.dirty then s.writeBack l.addr else s) := by
    split
    · exact s.writeBack_reads l.addr
    · exact ReadsL2.refl s
  unfold State.dropLine
  dsimp only
  generalize (if l.dirty then s.writeBack l.addr else s) = u at h1 ⊢
  have h2 := h1.trans (ReadsL2.lines u u.cxl (u.lines.filter fun m => m.addr != l.addr) u.poison)
  split
  next ht => exact h2.trans (ReadsL2.beyond _ _ (beyond_of_isTier2 ht).2)
  next => exact h2

theorem State.makeRoom_reads {s t : State} {a : Nat} (h : s.makeRoom a = some t) : ReadsL2 s t := by
  unfold State.makeRoom at h
  dsimp only at h
  split at h
  · obtain rfl := Option.some.inj h
    exact ReadsL2.refl s
  · obtain ⟨l, -, rfl⟩ := Option.map_eq_some_iff.1 h
    exact s.dropLine_reads l

theorem State.fillLine_reads {s t : State} {a : Nat} (h : s.fillLine a = some t) : ReadsL2 s t := by
  unfold State.fillLine at h
  split at h
  · obtain rfl := Option.some.inj h
    exact ReadsL2.refl s
  · obtain ⟨u, hu, rfl⟩ := Option.map_eq_some_iff.1 h
    refine ((s.makeRoom_reads hu).trans ?_).trans (ReadsL2.lines _ _ _ _)
    split
    next ht => exact ReadsL2.beyond _ _ (beyond_of_isTier2 ht).1
    next => exact ReadsL2.refl u

theorem State.startFill_reads (s : State) (a : Nat) : ReadsL2 s (s.startFill a) := by
  unfold State.startFill
  split
  · exact ReadsL2.refl s
  · exact ⟨_, _, _, _, _, _, _, _, _, rfl, fun h => ⟨h, fun _ _ => rfl⟩, fun e he => (Ev.mem_insert _ _ _).2 (.inr he)⟩

theorem State.touch_reads (s : State) (a : Nat) : ReadsL2 s (s.touch a) := by
  unfold State.touch
  split
  next t ht => exact (State.fillLine_reads ht).trans (t.useLine_reads a id)
  next => exact s.startFill_reads a

theorem State.onCores_fire_reads (s : State) (p : Core → Bool) : ReadsL2 s (s.onCores fun c => if p c then c.fire else c) := by
  have hcore : ∃ inj, (if p s.core then s.core.fire else s.core) = { s.core with errinjC := inj } := by
    split
    · exact ⟨_, rfl⟩
    · exact ⟨_, rfl⟩
  obtain ⟨inj, hinj⟩ := hcore
  refine ⟨inj, s.others.map fun c => if p c then c.fire else c, s.mem, s.cxl, s.lines, s.poison, s.agenda, s.free, s.himos, ?_, fun h => ⟨h, fun _ _ => rfl⟩, fun _ h => h⟩
  rw [State.onCores, hinj]

theorem State.log_reads (s : State) (code data : Nat) : ReadsL2 s (s.log code data) :=
  ⟨_, _, _, _, _, _, _, _, _, rfl, fun h => ⟨h, fun _ _ => rfl⟩, fun _ h => h⟩

theorem State.consumeWords_reads (s : State) (ws : List Nat) (scale : Bool) : ReadsL2 s (s.consumeWords ws scale).2 := by
  have h2 : ∀ (c b : Bool) (p : Core → Bool) (w : Nat),
      ReadsL2 s (if c then (if b then s.onCores fun c => if p c then c.fire else c else s).log logCorrected w
        else if b then s.onCores fun c => if p c then c.fire else c else s) := by
    intro c b p w
    have h1 : ReadsL2 s (if b then s.onCores fun c => if p c then c.fire else c else s) := by
      split
      · exact s.onCores_fire_reads p
      · exact ReadsL2.refl s
    split
    · exact h1.trans (State.log_reads _ _ _)
    · exact h1
  unfold State.consumeWords
  dsimp only
  split
  · exact h2 _ _ _ _
  · exact h2 _ _ _ _

theorem State.consume_reads (s : State) (a n : Nat) (scale : Bool) : ReadsL2 s (s.consume a n scale).2 := s.consumeWords_reads _ _

/-! The walk of the page tables (R285 to R287). -/

theorem State.tableEntry_reads (s : State) (v level table : Nat) : ReadsL2 s (s.tableEntry v level table).2 := by
  unfold State.tableEntry
  dsimp only
  generalize table + 8 * (v / 2 ^ (12 + 9 * level) % (if level = 4 then 256 else 512)) = a
  have h := (s.touch_reads a).trans ((s.touch a).consume_reads a 8 false)
  split
  next he =>
    rw [he] at h
    exact h
  next he =>
    rw [he] at h
    split
    · exact h
    · split
      · exact h
      · split
        · exact h
        · exact h

theorem State.walkFrom_reads (v level : Nat) : ∀ (s : State) (table : Nat), ReadsL2 s (s.walkFrom v level table).2 := by
  induction level with
  | zero =>
    intro s table
    have h := s.tableEntry_reads v 0 table
    unfold State.walkFrom
    split
    next he =>
      rw [he] at h
      exact h
    next he =>
      rw [he] at h
      exact h
  | succ level ih =>
    intro s table
    have h := s.tableEntry_reads v (level + 1) table
    unfold State.walkFrom
    split
    next he =>
      rw [he] at h
      exact h
    next he =>
      rw [he] at h
      exact h.trans (ih _ _)

theorem State.walk_reads (s : State) (vf : BitVec 7) (v : Nat) : ReadsL2 s (s.walk vf v).2 := by
  unfold State.walk
  split
  · split
    · exact State.walkFrom_reads _ _ _ _
    · exact ReadsL2.refl s
  · exact ReadsL2.refl s

theorem State.xlated_reads (s : State) (part : BitVec 4) (vf : BitVec 7) (v : Word) (p : Perms) : ReadsL2 s (s.xlated part vf v p).2 := by
  have h := s.walk_reads vf v.toNat
  unfold State.xlated
  split
  · exact ReadsL2.refl s
  · split
    next he =>
      rw [he] at h
      exact h
    next he =>
      rw [he] at h
      exact h
    next he =>
      rw [he] at h
      split
      · exact h
      · split
        · exact h
        · split
          · exact h
          · exact h

/-- HBM and the local store read as before. -/
theorem ReadsL2.sameHbm {s t : State} (h : ReadsL2 s t) : SameHbm s t := by
  obtain ⟨_, _, _, _, _, _, _, _, _, rfl, hm, -⟩ := h
  exact ⟨fun hw => (hm hw).2, fun _ => rfl⟩

/-! XLATE, HINV and HINFO (R123 to R127). -/

theorem exec_xlate (h : HReg) (x : Reg) (p : Perms) (s : State) : exec (.xlate h x p) s = execXlate h x p s := rfl
theorem exec_xlateComplete (id : Nat) (s : State) : exec (.xlateComplete id) s = execXlateComplete id s := rfl
theorem exec_hinv (h : HReg) (s : State) : exec (.hinv h) s = execHinv h s := rfl
theorem exec_hinfo (d : Reg) (h : HReg) (s : State) : exec (.hinfo d h) s = execHinfo d h s := rfl

/-- A translation that succeeds gives a valid handle with the rights that were asked for. -/
theorem xlated_handle {s s' : State} {part : BitVec 4} {vf : BitVec 7} {v : Word} {p : Perms} {n : Handle}
    (h : s.xlated part vf v p = (.handle n, s')) : n.v = true ∧ n.rd = p.rd ∧ n.wr = p.wr ∧ n.at_ = p.at_ := by
  unfold State.xlated at h
  split at h
  · simp at h
  · split at h
    · simp at h
    · simp at h
    · split at h
      · simp at h
      · split at h
        · simp at h
        · split at h
          · simp at h
          · obtain ⟨h, -⟩ := Prod.mk.inj h
            obtain rfl := Xlated.handle.inj h
            exact ⟨rfl, rfl, rfl, rfl⟩

/-- The access of an XLATE whose walk is over in a cycle. -/
def State.xlateAccess (s : State) (r : HReg) (h : Handle) (va : Word) (back : Nat) : Access :=
  { s.newAccess (.xlate r) 0 0 0 h with va := va, back := back }

/-- An access that is outstanding, with its handle pending and its next stage in the agenda. -/
def State.awaiting (s : State) (a : Access) (r : HReg) : State :=
  { s with
    serial := s.serial + 1
    agenda := Ev.insert ⟨a.back, ordResult, s.me, .xlateComplete a.id⟩ s.agenda
    core := { s.core with io := s.core.io ++ [a], hz := { s.core.hz with pend := ⟨.h r, none⟩ :: s.core.hz.pend } } }

/-- The start of an XLATE: the access, and a second look at it where a strict entry waits longer than 64 cycles. -/
theorem State.startXlate_eq (s : State) (r : HReg) (h : Handle) (va : Word) : ∃ free d agenda,
    s.startXlate r h va =
      { ({ s with free := free } : State).awaiting (s.xlateAccess r h va (s.dcc + max 64 d)) r with agenda := agenda } ∧
    ∀ e ∈ (s.awaiting (s.xlateAccess r h va (s.dcc + max 64 d)) r).agenda, e ∈ agenda := by
  have hd : ∃ d n, (if s.keepsWalk (clusterOf s.core.phys) s.core.vf va.toNat then (64, s) else s.delay) = (d, { s with free := n }) := by
    split
    · exact ⟨64, s.free, rfl⟩
    · exact ⟨_, _, rfl⟩
  obtain ⟨d, n, hd⟩ := hd
  have hstart : s.startXlate r h va =
      let a := s.xlateAccess r h va (s.dcc + max 64 d)
      let t := ({ s with free := n } : State).awaiting a r
      if s.strict && decide (s.dcc + 64 < a.back) then t.at_ (s.dcc + 64) (ordLate s.core.phys) s.me (.xlateComplete a.id) else t := by
    unfold State.startXlate
    dsimp only
    rw [hd]
    rfl
  rw [hstart]
  dsimp only
  split
  · exact ⟨n, d, _, rfl, fun e he => (Ev.mem_insert _ _ _).2 (.inr he)⟩
  · exact ⟨n, d, _, rfl, fun e he => he⟩

theorem translationStarts : Clause.TranslationStarts := by
  intro s h x p h0
  have hexec : s.firmware = false → ∀ {r t}, s.xlated s.core.part s.core.vf (s.src x) p = (r, t) →
      exec (.xlate h x p) s = .next (match r with
        | .cause c data => t.fault c data
        | .handle n => t.startXlate h n (s.src x)) := by
    intro hf r t hr
    rw [exec_xlate, execXlate, State.userOnly_user hf, hr]
    cases r <;> rfl
  refine ⟨fun n s' hx hf => ?_, fun hbig => ?_, fun hnone => ?_, fun c data s' hx hf => ⟨_, hexec hf hx, fun ht hf' => s'.raises_fault c data hf' ht⟩,
    fun r s' hx => ?_, abandonsWith_of_userOnly (exec_xlate h x p s)⟩
  · obtain ⟨hv, hrd, hwr, hat⟩ := xlated_handle hx
    obtain ⟨free, d, agenda, ht, hkeep⟩ := s'.startXlate_eq h n (s.src x)
    refine ⟨hv, hrd, hwr, hat, _, s'.xlateAccess h n (s.src x) (s'.dcc + max 64 d), hexec hf hx, rfl, rfl, rfl, ?_⟩
    dsimp only
    rw [ht]
    refine ⟨⟨rfl, ⟨_, hkeep _ ((Ev.mem_insert _ _ _).2 (.inl rfl)), rfl, ?_⟩, fun e he => hkeep e ((Ev.mem_insert _ _ _).2 (.inr he)),
      rfl, rfl, rfl, rfl, rfl, rfl, rfl, SameBytes.of_eq rfl rfl rfl⟩, none, List.mem_cons_self⟩
    exact Nat.add_le_add_left (Nat.le_max_left 64 d) _
  · refine trapsWith_of_fault fun hf => ?_
    refine hexec hf (r := .cause cXLATE_FAULT (s.src x)) (t := s) ?_
    rw [State.xlated, if_pos (by omega)]
  · refine trapsWith_of_fault fun hf => ?_
    refine hexec hf (r := .cause cXLATE_FAULT (s.src x)) (t := s) ?_
    have hw : s.walk s.core.vf (s.src x).toNat = (.invalid, s) := by rw [State.walk, hnone]
    rw [State.xlated, hw]
    dsimp only
    rw [ite_self]
  · have hr := s.xlated_reads s.core.part s.core.vf (s.src x) p
    rw [hx] at hr
    have hb := hr.sameHbm
    obtain ⟨_, _, _, _, _, _, _, _, _, rfl, -, -⟩ := hr
    exact ⟨rfl, rfl, rfl, hb⟩

/-- The region registers with a note of the valid handle that the open entry gives up (R290). -/
theorem State.noteHandle_eq (s : State) (h : HReg) : s.noteHandle h = { s with core := { s.core with
    reg := if s.inRegion && h != 0 && (s.core.arch.hreg h).v then { s.core.reg with had := s.core.reg.had ++ [s.core.arch.hreg h] }
      else s.core.reg } } := by
  unfold State.noteHandle
  dsimp only
  split <;> rfl

theorem State.noteHandle_entry (s : State) (h : HReg) :
    (s.noteHandle h).inRegion = s.inRegion ∧ (s.noteHandle h).core.reg.entry = s.core.reg.entry := by
  unfold State.noteHandle
  dsimp only
  split
  · exact ⟨rfl, rfl⟩
  · exact ⟨rfl, rfl⟩

/-- The result of an access that the open entry has not outlived lands in the registers of now only. -/
theorem State.landBoth_now {s : State} {a : Access} (h : s.inRegion = true → a.entry = s.core.reg.entry) (f : Arch → Arch) :
    s.landBoth a f = s.onArch f := by
  unfold State.landBoth State.ofEntry
  cases hr : s.inRegion with
  | false => simp
  | true => simp [h hr]

theorem State.mayBeLate_iff (s : State) (a : Access) :
    s.mayBeLate a = true ↔ a.strict = true ∧ s.inRegion = true ∧ a.entry = s.core.reg.entry := by
  simp [State.mayBeLate, State.ofEntry]

/-- The number that fields add up to, field by field. -/
theorem fieldSum_cons (x k : Nat) (l : List (Nat × Nat)) :
    (((x, k) :: l).map fun p => p.1 * 2 ^ p.2).sum = x * 2 ^ k + (l.map fun p => p.1 * 2 ^ p.2).sum := by
  rw [List.map_cons, List.sum_cons]

theorem fieldSum_nil : (([] : List (Nat × Nat)).map fun p => p.1 * 2 ^ p.2).sum = 0 := rfl

/-- The two words of a handle (R12). -/
theorem handleWord0_fields (h : Handle) : (handleWord0 h).getLsbD 63 = h.v ∧ (handleWord0 h).getLsbD 62 = h.rd ∧
    (handleWord0 h).getLsbD 61 = h.wr ∧ (handleWord0 h).getLsbD 60 = h.at_ ∧ (handleWord0 h).extractLsb' 58 2 = 0 ∧
    (handleWord0 h).extractLsb' 52 6 = h.lgsz ∧ (handleWord0 h).extractLsb' 12 40 = h.pbase ∧ (handleWord0 h).extractLsb' 0 12 = 0 := by
  have hw : handleWord0 h = BitVec.ofNat 64 (bit h.v * 2 ^ 63 + (bit h.rd * 2 ^ 62 + (bit h.wr * 2 ^ 61 + (bit h.at_ * 2 ^ 60 +
      (h.lgsz.toNat * 2 ^ 52 + h.pbase.toNat * 2 ^ 12))))) := by
    rw [handleWord0, ofFields, fieldSum_cons, fieldSum_cons, fieldSum_cons, fieldSum_cons, fieldSum_cons, fieldSum_cons, fieldSum_nil,
      Nat.add_zero]
  have h0 : ∀ k, (0 : BitVec k).toNat = 0 := fun k => BitVec.toNat_ofNat 0 k ▸ Nat.zero_mod _
  have := bit_le_one h.v
  have := bit_le_one h.rd
  have := bit_le_one h.wr
  have := bit_le_one h.at_
  have := h.lgsz.isLt
  have := h.pbase.isLt
  rw [hw]
  refine ⟨getLsbD_ofNat_eq_bit ?_, getLsbD_ofNat_eq_bit ?_, getLsbD_ofNat_eq_bit ?_, getLsbD_ofNat_eq_bit ?_, extractLsb'_ofNat_eq ?_,
    extractLsb'_ofNat_eq ?_, extractLsb'_ofNat_eq ?_, extractLsb'_ofNat_eq ?_⟩
  · omega
  · omega
  · omega
  · omega
  · rw [h0]
    omega
  · omega
  · omega
  · rw [h0]
    omega

theorem handleWord1_fields (h : Handle) : (handleWord1 h).extractLsb' 56 8 = 0 ∧ (handleWord1 h).extractLsb' 12 44 = h.vpage ∧
    (handleWord1 h).extractLsb' 0 12 = 0 := by
  have hw : handleWord1 h = BitVec.ofNat 64 (h.vpage.toNat * 2 ^ 12) := by
    rw [handleWord1, ofFields, fieldSum_cons, fieldSum_nil, Nat.add_zero]
  have h0 : ∀ k, (0 : BitVec k).toNat = 0 := fun k => BitVec.toNat_ofNat 0 k ▸ Nat.zero_mod _
  have := h.vpage.isLt
  rw [hw]
  refine ⟨extractLsb'_ofNat_eq ?_, extractLsb'_ofNat_eq ?_, extractLsb'_ofNat_eq ?_⟩
  · rw [h0]
    omega
  · omega
  · rw [h0]
    omega

/-- The stage at which a walk is over, or late. -/
theorem xlateComplete_eq {s : State} {id : Nat} {a : Access} {h : HReg} (ha : s.core.io.find? (fun b => b.id == id) = some a)
    (hk : a.kind = .xlate h) : exec (.xlateComplete id) s = .next
      (if a.back ≤ s.dcc then
        ((((s.noteHandle h).landBoth a fun r => r.setH h a.hnd).settled (.h h)).dropAccess id).relay (.h h a.hnd)
      else if s.mayBeLate a then s.accessFault a cXLATE_LATE a.va else s) := by
  rw [exec_xlateComplete, execXlateComplete, State.findAccess, ha]
  dsimp only
  rw [hk]

theorem handleWrites : Clause.HandleWrites := by
  intro s h d old reg
  refine ⟨fun id a ha hk => ⟨fun hback hent => ?_, fun hback hlate => ?_, fun hback hst hr hent ht => ?_⟩, fun hf => ?_, fun hf hd1 hd2 => ?_⟩
  · obtain ⟨hreg, hentry⟩ := s.noteHandle_entry h
    rw [xlateComplete_eq ha hk, if_pos hback, State.landBoth_now fun hr => (hent (hreg.symm.trans hr)).trans hentry.symm, State.noteHandle_eq]
    simp only [State.onArch, State.onHz, State.settled, State.dropAccess, State.relay, State.relayAt, State.onCore, Arch.setH]
    rfl
  · rw [xlateComplete_eq ha hk, if_neg (Nat.not_le.2 hback), if_neg fun hm => ?_]
    obtain ⟨h1, h2, h3⟩ := (s.mayBeLate_iff a).1 hm
    rcases hlate with hl | hl | hl
    · simp [h1] at hl
    · simp [h2] at hl
    · exact hl h3
  · refine ⟨_, (xlateComplete_eq ha hk).trans (congrArg Host.Outcome.next ((if_neg (Nat.not_le.2 hback)).trans
      (if_pos ((s.mayBeLate_iff a).2 ⟨hst, hr, hent⟩)))), ?_⟩
    rw [State.accessFault, State.takeTrap_eq ht]
    exact ⟨rfl, rfl, rfl, rfl, rfl, SameBytes.of_eq rfl rfl rfl⟩
  · rw [exec_hinv, execHinv, State.userOnly_user hf, State.noteHandle_eq]
    rfl
  · obtain ⟨h1, h2, h3, h4, h5, h6, h7, h8⟩ := handleWord0_fields (s.srcH h)
    obtain ⟨h9, h10, h11⟩ := handleWord1_fields (s.srcH h)
    exact ⟨_, _, _, _, (exec_hinfo d h s).trans (congrArg Host.Outcome.next (if_neg (by simp [hf]))), s.writesS_putS d _,
      State.writesS_putS _ (d + 1) _, h1, h2, h3, h4, h5, h6, h7, h8, h9, h10, h11⟩

/-- Settles O8: what a walk reads, and what each of the four instructions writes. -/
theorem translationAndHandles : Obligations.TranslationAndHandles := ⟨translationStarts, handleWrites⟩

end Sys2Proof.Machine
end

section
namespace Sys2Proof.Machine

/-! An entry that is discarded and waits for its restore (R20, R122, R320). -/

theorem State.reenter_eq (s : State) (cause : BitVec 8) : ∃ n d, s.reenter cause = { s with
      free := n
      core := { s.core with blk := .reentry, replay := { s.core.replay with repend := true, relax := relaxes cause, cause := cause } }
      agenda := Ev.insert ⟨s.dcc + max 64 d, ordLate s.core.phys, s.me, .reentry⟩ s.agenda } ∧ (s.core.stopping = true → d = 0) := by
  unfold State.reenter
  dsimp only
  split
  next => exact ⟨s.free, 0, rfl, fun _ => rfl⟩
  next h => exact ⟨_, _, rfl, fun hs => absurd (by rw [hs, Bool.or_true]) h⟩

theorem Core.discarded_kept (c : Core) : c.discarded.stop = c.stop ∧ c.discarded.trap = c.trap ∧ c.discarded.replay = c.replay ∧
    c.discarded.life = c.life ∧ c.discarded.stat = c.stat := by
  simp only [Core.discarded, Core.restart, Core.dropped, and_self]

/-- What a discarded entry leaves on its core. -/
structure Discarded (s t : State) : Prop where
  closed : t.inRegion = false
  regs : t.core.arch.s = s.core.reg.snap.arch.s
  pc : t.core.pc = s.core.reg.snap.pc
  held : t.core.held = Held.empty
  bytes : SameBytes s t

/-- A restore of the region that is to come. -/
structure AwaitsReentry (cause : BitVec 8) (s t : State) : Prop where
  blk : t.core.blk = .reentry
  replay : t.core.replay = { s.core.replay with repend := true, relax := relaxes cause, cause := cause }
  due : ∃ e ∈ t.agenda, e.act = .reentry ∧ e.target = s.me ∧ s.dcc + 64 ≤ e.due ∧ (s.core.stopping = true → e.due = s.dcc + 64)

theorem State.discard_discards (s : State) : Discarded s s.discard := by
  obtain ⟨l, d, a, x, h⟩ := s.discard_eq
  rw [h]
  exact ⟨rfl, (congrArg Arch.s s.core.discarded_arch).trans (Region.restored_fields s.core.reg).1, rfl, rfl,
    SameBytes.of_eq rfl rfl s.core.discarded_mem⟩

/-- The discard of an entry that enters again. -/
theorem State.discard_reenter (s : State) (cause : BitVec 8) :
    Discarded s (s.discard.reenter cause) ∧ AwaitsReentry cause s (s.discard.reenter cause) ∧
      (s.discard.reenter cause).core.stop = s.core.stop ∧ (s.discard.reenter cause).core.trap = s.core.trap := by
  obtain ⟨l, d, a, x, h⟩ := s.discard_eq
  obtain ⟨hclosed, hregs, hpc, hheld, hbytes⟩ := s.discard_discards
  obtain ⟨hstop, htrap, hreplay, -, -⟩ := s.core.discarded_kept
  have hstop' : s.discard.core.stop = s.core.stop := by rw [h]; exact hstop
  have htrap' : s.discard.core.trap = s.core.trap := by rw [h]; exact htrap
  have hreplay' : s.discard.core.replay = s.core.replay := by rw [h]; exact hreplay
  have hme : s.discard.me = s.me ∧ s.discard.dcc = s.dcc := by rw [h]; exact ⟨rfl, rfl⟩
  obtain ⟨n, k, hr, hk⟩ := s.discard.reenter_eq cause
  rw [hr]
  refine ⟨⟨hclosed, hregs, hpc, hheld, hbytes⟩, ⟨rfl, ?_, _, (Ev.mem_insert _ _ _).2 (.inl rfl), rfl, hme.1, ?_, fun hs => ?_⟩, hstop', htrap'⟩
  · show ({ s.discard.core.replay with repend := true, relax := relaxes cause, cause := cause } : Replay) = _
    rw [hreplay']
  · show s.dcc + 64 ≤ s.discard.dcc + max 64 k
    rw [hme.2]
    exact Nat.add_le_add_left (Nat.le_max_left 64 k) _
  · have h0 : k = 0 := hk (by rw [Core.stopping, hstop']; exact hs)
    show s.discard.dcc + max 64 k = _
    rw [hme.2, h0]
    rfl

/-! Bytes of a memory that are copied. -/

theorem Mem.length_readBytes (m : Mem) (a n : Nat) : (m.readBytes a n).length = n := by
  rw [Mem.readBytes, List.length_map, List.length_range]

theorem Mem.getD_readBytes (m : Mem) {a n i : Nat} (h : i < n) : (m.readBytes a n).getD i 0 = m.read (a + i) := by
  rw [List.getD_eq_getElem _ _ (by rwa [Mem.length_readBytes])]
  simp [Mem.readBytes]

/-- A memory after a copy. -/
theorem Mem.read_copy {m n : Mem} (h : Mem.wf m = true) (a b len i : Nat) :
    (m.writeBytes a (n.readBytes b len)).read i = if a ≤ i ∧ i < a + len then n.read (i - a + b) else m.read i := by
  rw [Mem.read_writeBytes h, Mem.length_readBytes]
  split
  next hi => rw [Mem.getD_readBytes _ (by omega), Nat.add_comm]
  next => rfl

theorem length_leBytes (n v : Nat) : (leBytes n v).length = n := by
  induction n generalizing v with
  | zero => rfl
  | succ n ih => rw [leBytes, List.length_cons, ih]

/-- A table with the entries below a key kept, and others from the key on. -/
theorem Mem.read_filter_append {m tail : Mem} (hm : Mem.wf m = true) {b : Nat} (ht : ∀ e ∈ tail, b ≤ e.1) (a : Nat) :
    Mem.read ((m.filter fun e => decide (e.1 < b)) ++ tail) a = if a < b then m.read a else tail.read a := by
  have htail : a < b → tail.read a = Mem.unlisted := by
    intro hab
    cases tail with
    | nil => rfl
    | cons e tail =>
      have := ht e List.mem_cons_self
      show (if e.1 = a then e.2 else if a < e.1 then Mem.unlisted else _) = _
      rw [if_neg (by omega), if_pos (by omega)]
  have key : ∀ (m : Mem) (c : Nat), SMap.okFrom Mem.unlisted c m →
      Mem.read ((m.filter fun e => decide (e.1 < b)) ++ tail) a = if a < b then m.read a else tail.read a := by
    intro m
    induction m with
    | nil =>
      intro _ _
      split
      next hab => exact htail hab
      next => rfl
    | cons e m ih =>
      obtain ⟨j, v⟩ := e
      intro c h
      obtain ⟨-, -, hrest⟩ := h
      have hr := ih (j + 1) hrest
      have hcons : ∀ k : Mem, Mem.read ((j, v) :: k) a = if j = a then v else if a < j then Mem.unlisted else Mem.read k a := fun _ => rfl
      rw [hcons]
      by_cases hj : j < b
      · rw [List.filter_cons_of_pos (by simpa using hj), List.cons_append, hcons, hr]
        by_cases hab : a < b
        · rw [if_pos hab, if_pos hab]
        · rw [if_neg hab, if_neg hab, if_neg (by omega), if_neg (by omega)]
      · rw [List.filter_cons_of_neg (by simpa using hj), hr]
        by_cases hab : a < b
        · have hlow : Mem.read m a = Mem.unlisted := SMap.get_okFrom hrest (by omega)
          rw [if_pos hab, if_pos hab, if_neg (by omega), if_pos (by omega), hlow]
        · rw [if_neg hab, if_neg hab]
  exact key m 0 ((Mem.wf_iff m).1 hm)

/-! The phases of a stop (R319 to R322, R324). -/

theorem exec_preemptArrival (s : State) : exec .preemptArrival s = execPreemptArrival s := rfl
theorem exec_commitGraceExpiry (n : Nat) (s : State) : exec (.commitGraceExpiry n) s = execCommitGraceExpiry n s := rfl
theorem exec_saveAreaReserve (s : State) : exec .saveAreaReserve s = execSaveAreaReserve s := rfl
theorem exec_contextSwap (s : State) : exec .contextSwap s = execContextSwap s := rfl
theorem exec_contextUnreserve (s : State) : exec .contextUnreserve s = execContextUnreserve s := rfl
theorem exec_boundaryReplay (n : Nat) (s : State) : exec (.boundaryReplay n) s = execBoundaryReplay n s := rfl

/-- The core with the request to stop. -/
def State.asked (s : State) (x : Stop) : State := { s with core := { s.core with stop := some { x with arrived := true, at_ := s.dcc } } }

section
variable {s : State} {x : Stop} (hx : s.core.stop = some x) (ha : x.arrived = false) (hl : s.core.life = .running)
include hx ha hl

/-- A request that reaches an open entry. -/
theorem preemptArrival_open (hr : s.core.reg.isOpen = true) (hc : s.core.reg.commit = .none) :
    exec .preemptArrival s = .next ((s.asked x).discard.reenter cPREEMPT) := by
  rw [exec_preemptArrival, execPreemptArrival, hx]
  dsimp only
  rw [ha, if_neg Bool.false_ne_true, hl]
  dsimp only
  rw [if_pos hr, hc]
  rfl

/-- A request that reaches an entry which commits. -/
theorem preemptArrival_committing (hr : s.core.reg.isOpen = true) (hc : s.core.reg.commit ≠ .none) : exec .preemptArrival s =
    .next ((s.asked x).at_ (s.dcc + 1024) (ordStop s.core.phys) s.me (.commitGraceExpiry s.dcc)) := by
  rw [exec_preemptArrival, execPreemptArrival, hx]
  dsimp only
  rw [ha, if_neg Bool.false_ne_true, hl]
  dsimp only
  rw [if_pos hr]
  cases hcommit : s.core.reg.commit with
  | none => exact absurd hcommit hc
  | draining _ => rfl
  | checking _ => rfl
  | publishing _ => rfl

/-- A request that reaches a context in boundary code that waits for nothing. -/
theorem preemptArrival_boundary (hr : s.core.reg.isOpen = false) (hb : s.core.blk = .none) : exec .preemptArrival s = .next (s.asked x) := by
  rw [exec_preemptArrival, execPreemptArrival, hx]
  dsimp only
  rw [ha, if_neg Bool.false_ne_true, hl]
  dsimp only
  rw [hr, if_neg Bool.false_ne_true, hb]
  rfl

end

/-- The request that reaches an open entry, one that is committing, and a context with none. -/
theorem requestToStop (s : State) (x : Stop) (hx : s.core.stop = some x) (ha : x.arrived = false) (hl : s.core.life = .running) :
    (s.inRegion = true → s.core.reg.commit = .none →
      ∃ t, exec .preemptArrival s = .next t ∧ t.inRegion = false ∧ t.core.blk = .reentry ∧ t.core.replay.cause = 0x15 ∧
        t.core.replay.repend = true ∧ t.core.replay.relax = false ∧ t.core.stopping = true ∧ t.core.arch.s = s.core.reg.snap.arch.s ∧
        SameBytes s t ∧ ∃ e ∈ t.agenda, e.act = .reentry ∧ e.due = s.dcc + 64) ∧
    (s.inRegion = true → s.core.reg.commit ≠ .none →
      ∃ t, exec .preemptArrival s = .next t ∧ t.inRegion = true ∧ t.core.arch = s.core.arch ∧ t.core.stopping = true ∧
        ∃ e ∈ t.agenda, e.act = .commitGraceExpiry s.dcc ∧ e.due = s.dcc + 1024) ∧
    (s.inRegion = false → s.core.blk = .none → exec .preemptArrival s = .next { s with core := { s.core with
      stop := some { x with arrived := true, at_ := s.dcc } } }) := by
  refine ⟨fun hr hc => ?_, fun hr hc => ?_, fun hr hb => ?_⟩
  · obtain ⟨⟨hclosed, hregs, -, -, hbytes⟩, ⟨hblk, hreplay, e, he, hact, -, -, hdue⟩, hstop, -⟩ := (s.asked x).discard_reenter cPREEMPT
    refine ⟨_, preemptArrival_open hx ha hl hr hc, hclosed, hblk, ?_, ?_, ?_, ?_, hregs, hbytes, e, he, hact, hdue rfl⟩
    · exact congrArg Replay.cause hreplay
    · exact congrArg Replay.repend hreplay
    · exact congrArg Replay.relax hreplay
    · rw [Core.stopping, hstop]
      rfl
  · exact ⟨_, preemptArrival_committing hx ha hl hr hc, hr, rfl, rfl, _, (Ev.mem_insert _ _ _).2 (.inl rfl), rfl, rfl⟩
  · exact preemptArrival_boundary hx ha hl hr hb

/-- What the grace of a COMMIT comes to: a drain that has not ended is discarded, a later phase goes on. -/
theorem commitGrace (s : State) (serial : Nat) (x : Stop) (sc : Scope) (hx : s.core.stop = some x) (ha : x.arrived = true)
    (hat : x.at_ = serial) (hr : s.inRegion = true) (hl : s.core.life = .running) :
    (s.core.reg.commit = .draining sc → ∃ t, exec (.commitGraceExpiry serial) s = .next t ∧ t.inRegion = false ∧
      t.core.blk = .reentry ∧ t.core.replay.cause = 0x15 ∧ t.core.arch.s = s.core.reg.snap.arch.s ∧ SameBytes s t) ∧
    ((∀ z, s.core.reg.commit ≠ .draining z) → exec (.commitGraceExpiry serial) s = .next s) := by
  refine ⟨fun hc => ?_, fun hc => ?_⟩
  · obtain ⟨⟨hclosed, hregs, -, -, hbytes⟩, ⟨hblk, hreplay, -⟩, -, -⟩ := s.discard_reenter cPREEMPT
    refine ⟨_, ?_, hclosed, hblk, congrArg Replay.cause hreplay, hregs, hbytes⟩
    rw [exec_commitGraceExpiry, execCommitGraceExpiry, hc]
    dsimp only
    rw [if_pos (by simp [hx, ha, hat, hr, hl])]
  · rw [exec_commitGraceExpiry, execCommitGraceExpiry]
    cases hcommit : s.core.reg.commit with
    | none => rfl
    | draining z => exact absurd hcommit (hc z)
    | checking _ => rfl
    | publishing _ => rfl

/-- The bytes that an image takes go to the save area. -/
theorem saveAreaReserve_saving {s : State} (hl : s.core.life = .saving) : ∃ t, exec .saveAreaReserve s = .next t ∧
    t.core.tail = s.core.ls.mem.filter (fun e => decide (0x5E000 ≤ e.1)) ∧ t.core.arch = s.core.arch ∧ t.core.ls = s.core.ls ∧ t.cxl = s.cxl ∧
    t.mem = s.mem.writeBytes (saveBase s.core.part s.core.launch s.core.lcore + 0x60000) (s.core.ls.mem.readBytes 0x5E000 0x2000) ∧
    ∃ e ∈ t.agenda, e.act = .contextSwap ∧ e.target = s.here ∧ e.due = s.dcc + 1152 := by
  refine ⟨_, (exec_saveAreaReserve s).trans (congrArg Host.Outcome.next (if_pos hl)), ?_, rfl, rfl, rfl, ?_, _,
    (Ev.mem_insert _ _ _).2 (.inl rfl), rfl, rfl, rfl⟩
  · exact List.filter_congr fun e _ => decide_eq_decide.2 Iff.rfl
  · simp only [State.at_, State.toArea, State.onCore, imageBase]

theorem saveAreaReserve_idle {s : State} (hl : s.core.life ≠ .saving) : ∃ t, exec .saveAreaReserve s = .next t ∧ t.core = s.core ∧
    ∃ e ∈ t.agenda, e.act = .contextSwap ∧ e.target = s.here ∧ e.due = s.dcc + 896 :=
  ⟨_, (exec_saveAreaReserve s).trans (congrArg Host.Outcome.next (if_neg hl)), rfl, _, (Ev.mem_insert _ _ _).2 (.inl rfl), rfl, rfl, rfl⟩

/-! The swap (R319, R322). -/

/-- An image is written into the local store, and no more. -/
theorem State.saveImage_eq (s : State) (o : Nat) : ∃ bs bad, s.saveImage o = { s with
    free := s.free + 8192
    core := { s.core with ls := { s.core.ls with mem := s.core.ls.mem.writeBytes o bs, poison := bad } } } := by
  unfold State.saveImage
  generalize (s.core.swapFirmware .user).image s.dcc s.free = bs
  exact ⟨bs, _, rfl⟩

/-- The context that leaves its core: with its image in its local store, and its life afterwards. -/
def Core.outgoing (c : Core) (ls : LocalStore) (life : Life) : Core := { c with ls := ls, life := life, stop := none, eng := Engine.idle }

/-- A context that has stopped leaves its core, its bytes standing in its save area. -/
theorem State.sendOut_saving {s : State} (hl : s.core.life = .saving) (hk : (s.core.stop.any fun x => x.kill) = false) :
    ∃ bs bad free lines poison,
      let ls : LocalStore := { s.core.ls with mem := s.core.ls.mem.writeBytes imageBase bs, poison := bad }
      let area := saveBase s.core.part s.core.launch s.core.lcore
      s.sendOut = { s with
        free := free, lines := lines, poison := poison
        mem := (s.mem.writeBytes (area + 0) (ls.mem.readBytes 0 0x60000)).writeBytes (area + 0x62000) (s.core.acc.toList.flatMap Acc.bytes)
        saved := s.saved ++ [s.core.outgoing ls (if s.core.stop.any fun x => x.park then .parked else .saved)]
        core := Core.vacate { s.core with ls := ls } } := by
  obtain ⟨l, hu⟩ := s.unpin_eq (s.core.eng.runs.flatMap (·.pins))
  obtain ⟨bs, bad, hs⟩ := State.saveImage_eq { s with lines := l } imageBase
  refine ⟨bs, bad, ?_⟩
  unfold State.sendOut
  dsimp only
  rw [hu, hl]
  dsimp only
  rw [hs, hk, if_neg Bool.false_ne_true, if_neg Bool.false_ne_true]
  simp only [State.toArea, State.onCore]
  exact ⟨_, _, _, rfl⟩

theorem length_accBytes (v : Vector Acc 4) : (v.toList.flatMap Acc.bytes).length = 0x10000 := by
  have hone : ∀ a : Acc, a.bytes.length = 4096 * 4 := by
    intro a
    rw [Acc.bytes, List.length_flatMap]
    simp only [length_leBytes]
    rw [List.map_const', List.sum_replicate, List.length_range]
    rfl
  rw [List.length_flatMap]
  simp only [hone]
  rw [List.map_const', List.sum_replicate, Vector.length_toList]
  rfl

theorem State.bringIn_none {s : State} (h : (s.core.stop.bind fun x => x.incoming) = none) :
    s.bringIn = { s with core := { s.core with stop := none } } := by
  rw [State.bringIn, h]
  rfl

/-- A copy from the start of a memory and another from an offset on, at one base: what lies below and beyond, and what the first copy has
brought. -/
theorem Mem.read_two_copies {m n : Mem} (h : Mem.wf m = true) (base k off : Nat) (bs : List Byte) (hk : k ≤ off) :
    let w := (m.writeBytes (base + 0) (n.readBytes 0 k)).writeBytes (base + off) bs
    (∀ a, a < base ∨ base + off + bs.length ≤ a → w.read a = m.read a) ∧ ∀ i, i < k → w.read (base + i) = n.read i := by
  refine ⟨fun a ha => ?_, fun i hi => ?_⟩
  · rw [Mem.read_writeBytes (Mem.wf_writeBytes h _ _), if_neg (by omega), Mem.read_copy h, if_neg (by omega)]
  · rw [Mem.read_writeBytes (Mem.wf_writeBytes h _ _), if_neg (by omega), Mem.read_copy h, if_pos (by omega)]
    exact congrArg _ (by omega)

/-- The swap of a context that has stopped for no other. -/
theorem contextSwap_saving (s : State) (x : Stop) (hx : s.core.stop = some x) (hl : s.core.life = .saving) (hk : x.kill = false)
    (hi : x.incoming = none) (hls : Mem.wf s.core.ls.mem = true) :
    let c := s.core
    let area := saveBase c.part c.launch c.lcore
    ∃ (t : State) (o : Core), exec .contextSwap s = .next t ∧ t.saved = s.saved ++ [o] ∧ o.life = (if x.park then .parked else .saved) ∧
      o.launch = c.launch ∧ o.lcore = c.lcore ∧ o.arch = c.arch ∧ o.acc = c.acc ∧ o.stat = c.stat ∧ o.pc = c.pc ∧ o.tail = c.tail ∧
      (∀ a, a < 0x5E000 → o.ls.mem.read a = c.ls.mem.read a) ∧ t.core.life = .idle ∧ t.core.phys = c.phys ∧ t.core.stop = none ∧
      (Mem.wf s.mem = true → (∀ a, a < area ∨ area + 0x72000 ≤ a → t.mem.read a = s.mem.read a) ∧
        ∀ k, k < 0x5E000 → t.mem.read (area + k) = c.ls.mem.read k) := by
  intro c area
  obtain ⟨bs, bad, free, lines, poison, hout⟩ := State.sendOut_saving hl (by rw [hx]; exact hk)
  rw [hx] at hout
  have hread : ∀ a, a < 0x5E000 → (c.ls.mem.writeBytes imageBase bs).read a = c.ls.mem.read a := fun a ha => by
    rw [Mem.read_writeBytes hls, if_neg]
    exact fun hb => absurd (show 0x5E000 ≤ a from hb.1) (Nat.not_le.2 ha)
  have hnone : (s.sendOut.core.stop.bind fun x => x.incoming) = none := by
    rw [hout]
    show (s.core.stop.bind fun x => x.incoming) = none
    rw [hx]
    exact hi
  have hswap : exec .contextSwap s = .next { s.sendOut with core := { s.sendOut.core with stop := none } } :=
    (exec_contextSwap s).trans (congrArg Host.Outcome.next (State.bringIn_none hnone))
  refine ⟨_, c.outgoing { c.ls with mem := c.ls.mem.writeBytes imageBase bs, poison := bad } (if x.park then .parked else .saved), hswap, ?_⟩
  rw [hout]
  refine ⟨rfl, rfl, rfl, rfl, rfl, rfl, rfl, rfl, rfl, hread, rfl, rfl, rfl, fun hm => ?_⟩
  obtain ⟨hout, hin⟩ := Mem.read_two_copies (n := c.ls.mem.writeBytes imageBase bs) hm area 0x60000 0x62000
    (c.acc.toList.flatMap Acc.bytes) (by decide)
  have hend : area + 0x62000 + (c.acc.toList.flatMap Acc.bytes).length = area + 0x72000 :=
    (congrArg (fun n => area + 0x62000 + n) (length_accBytes _)).trans (Nat.add_assoc area 0x62000 0x10000)
  exact ⟨fun a ha => hout a (ha.imp_right hend.le.trans), fun k hk => (hin k (Nat.lt_of_lt_of_le hk (by decide))).trans (hread k hk)⟩

/-- The focused context with its own bytes back in its local store. -/
def State.restored (s : State) : State := s.onCore fun c =>
  { c.capShape (s.part c.part).allow with
    life := .running
    ls := { c.ls with mem := (c.ls.mem.filter fun e => decide (e.1 < imageBase)) ++ c.tail }
    tail := []
    hz := { c.hz with issueAt := s.dcc } }

/-- The quantum of a context is work of its agenda. -/
theorem State.startQuantum_eq (s : State) : ∃ agenda, s.startQuantum = { s with agenda := agenda } := by
  unfold State.startQuantum
  dsimp only
  split
  · split
    · exact ⟨_, rfl⟩
    · exact ⟨_, rfl⟩
  · exact ⟨_, rfl⟩

/-- The restored context, where no access and no handle waits for it. -/
theorem contextUnreserve_restored {s t : State} (hl : s.core.life = .placed)
    (h : (s.restored.resumeReentry s.dcc).relayer.meetPoison.startQuantum = t) (ha : t.core.replay.access = none)
    (hh : t.core.replay.hnd = none) : exec .contextUnreserve s = .next t := by
  rw [exec_contextUnreserve, execContextUnreserve, if_neg (fun hne => hne hl)]
  unfold State.restored at h
  dsimp only at h ⊢
  rw [h, ha, hh]

/-- A context with nothing to restore but its bytes issues at once (R321). -/
theorem contextUnreserve_placed (s : State) (hl : s.core.life = .placed) (hp : s.core.replay.repend = false) (hy : s.core.layer = none)
    (hio : s.core.io = []) (ha : s.core.replay.access = none) (hh : s.core.replay.hnd = none) (hm : Mem.wf s.core.ls.mem = true)
    (ht : ∀ e ∈ s.core.tail, 0x5E000 ≤ e.1) :
    let c := s.core
    ∃ t : State, exec .contextUnreserve s = .next t ∧ t.core.life = .running ∧ t.core.hz.issueAt = s.dcc ∧ t.core.tail = [] ∧
      (∀ a, t.core.ls.mem.read a = if a < 0x5E000 then c.ls.mem.read a else c.tail.read a) ∧ t.core.pc = c.pc ∧
      t.core.arch.s = c.arch.s ∧ t.core.arch.p = c.arch.p ∧ t.core.arch.h = c.arch.h ∧
      t.core.arch.csr.shapeg.toNat = min c.arch.csr.shapeg.toNat (s.part c.part).allow.toNat := by
  intro c
  have hread := Mem.read_filter_append (b := imageBase) hm ht
  have hshape : ((c.capShape (s.part c.part).allow).arch.csr.shapeg).toNat = min c.arch.csr.shapeg.toNat (s.part c.part).allow.toNat := by
    show (if c.arch.csr.shapeg.toNat ≤ (s.part c.part).allow.toNat then c.arch.csr.shapeg else (s.part c.part).allow).toNat = _
    split
    next h => exact (Nat.min_eq_left h).symm
    next h => exact (Nat.min_eq_right (Nat.le_of_not_le h)).symm
  obtain ⟨agenda, hq⟩ := State.startQuantum_eq (s.restored)
  refine ⟨{ s.restored with agenda := agenda }, ?_, rfl, rfl, rfl, hread, rfl, rfl, rfl, rfl, hshape⟩
  have h1 : s.restored.resumeReentry s.dcc = s.restored := by rw [State.resumeReentry, show s.restored.core.replay.repend = false from hp]; rfl
  have h2 : s.restored.relayer = s.restored := by rw [State.relayer, show s.restored.core.layer = none from hy]
  have h3 : s.restored.meetPoison = s.restored := by rw [State.meetPoison, show s.restored.core.io = [] from hio]; rfl
  exact contextUnreserve_restored hl (by rw [h1, h2, h3, hq]) ha hh

/-- A bundle of boundary code that is replayed issues again. -/
theorem boundaryReplay_bundle (s : State) (serial : Nat) (hs : s.core.replay.serial = serial) (ha : s.core.replay.access = none)
    (hb : s.core.blk = .replay serial) (hstop : s.core.stopping = false) (hh : s.core.replay.hnd = none) :
    exec (.boundaryReplay serial) s = .next { s with core := { s.core with
      blk := .none, replay := { s.core.replay with hnd := none }, hz := { s.core.hz with issueAt := max s.core.hz.issueAt s.dcc } } } := by
  rw [exec_boundaryReplay, execBoundaryReplay, if_neg (fun h => h hs), ha]
  dsimp only
  rw [if_neg (fun h => h hb), hstop, if_neg Bool.false_ne_true, hh]
  rfl

/-- Settles O46, phase by phase. -/
theorem preemptionPhases : Obligations.PreemptionPhases := by
  intro s serial c area
  refine ⟨fun x hx ha hl => requestToStop s x hx ha hl, fun x sc hx ha hat hr hl => commitGrace s serial x sc hx ha hat hr hl, fun hl => ?_,
    fun hl => saveAreaReserve_idle hl, fun x hx hl hk hi hls => contextSwap_saving s x hx hl hk hi hls,
    fun hl hp hy hio ha hh hm ht => contextUnreserve_placed s hl hp hy hio ha hh hm ht, fun hl => ?_, fun hs ha hb hstop hh => ?_, fun hs => ?_⟩
  · obtain ⟨t, he, htail, harch, hls, hcxl, hmem, hdue⟩ := saveAreaReserve_saving hl
    refine ⟨t, he, htail, harch, hls, hcxl, fun hm a => ?_, hdue⟩
    have hend : area + 0x60000 + 0x2000 = area + 0x62000 := Nat.add_assoc area 0x60000 0x2000
    have hcopy := Mem.read_copy (n := c.ls.mem) hm (area + 0x60000) 0x5E000 0x2000 a
    rw [hend, Nat.sub_add_eq] at hcopy
    exact (congrArg (fun m : Mem => m.read a) hmem).trans hcopy
  · rw [exec_contextUnreserve, execContextUnreserve, if_pos hl]
  · exact ⟨_, boundaryReplay_bundle s serial hs ha hb hstop hh, rfl, rfl, rfl, rfl, SameBytes.of_eq rfl rfl rfl⟩
  · rw [exec_boundaryReplay, execBoundaryReplay, if_pos hs]

end Sys2Proof.Machine
end

section
namespace Sys2Proof.Machine

/-! Launches that differ in their groups at most (R149). -/

/-- The launch with other groups. -/
def Launch.withGroups (g : Launch → List Group) (l : Launch) : Launch := { l with groups := g l }

def SameLaunches (s t : State) : Prop := ∀ id, ∃ g, t.launchOf id = (s.launchOf id).map (Launch.withGroups g)

theorem SameLaunches.of_disp {s t : State} (h : t.disp = s.disp) : SameLaunches s t := fun id =>
  ⟨Launch.groups, by
    rw [State.launchOf, State.launchOf, h]
    exact (Option.map_id' (x := s.disp.launches.find? fun l => l.id == id)).symm⟩

theorem SameLaunches.trans {s t u : State} (h1 : SameLaunches s t) (h2 : SameLaunches t u) : SameLaunches s u := by
  intro id
  obtain ⟨g, hg⟩ := h1 id
  obtain ⟨k, hk⟩ := h2 id
  exact ⟨fun l => k (l.withGroups g), by rw [hk, hg, Option.map_map]; rfl⟩

/-- A launch found by its number, after changes that keep numbers. -/
theorem State.launchOf_map {s t : State} (f : Launch → Launch) (hf : ∀ l, (f l).id = l.id) (h : t.disp.launches = s.disp.launches.map f)
    (id : Nat) : t.launchOf id = (s.launchOf id).map f := by
  rw [State.launchOf, h, List.find?_map, State.launchOf]
  simp only [Function.comp_def, hf]

theorem State.onGroup_launches (s : State) (g : BitVec 8) (f : Group → Group) : SameLaunches s (s.onGroup g f) := by
  intro id
  have hmap := State.launchOf_map (s := s) (t := s.onGroup g f)
    (Launch.withGroups fun l => if l.id = s.core.launch then l.groups.map fun x => if x.gid = g then f x else x else l.groups)
    (fun _ => rfl) (List.map_congr_left fun l _ => by
      unfold Launch.withGroups
      dsimp only
      split <;> rfl) id
  exact ⟨_, hmap⟩

theorem State.leaveAlign_launches (s : State) : SameLaunches s s.leaveAlign := by
  unfold State.leaveAlign
  split
  · exact s.onGroup_launches _ _
  · exact SameLaunches.of_disp rfl

theorem State.dropEntry_launches (s : State) : SameLaunches s s.dropEntry := by
  obtain ⟨l, hl⟩ := s.leaveAlign.releaseLines_eq
  obtain ⟨k, hk⟩ := s.leaveAlign.releaseLines.releaseYarder.unpin_eq (s.leaveAlign.core.eng.runs.flatMap (·.pins))
  refine s.leaveAlign_launches.trans (SameLaunches.of_disp ?_)
  unfold State.dropEntry
  dsimp only
  rw [hk, hl]
  rfl

theorem State.rampWatch_disp (s : State) : s.rampWatch.disp = s.disp := by
  rcases s.rampWatch_cases with hw | ⟨f, n, hw⟩
  · rw [hw]
  · rw [hw]
    rfl

theorem State.rampDiscard_disp (s : State) : s.rampDiscard.disp = s.disp := (State.rampWatch_disp _).trans rfl

theorem State.discard_launches (s : State) : SameLaunches s s.discard :=
  s.dropEntry_launches.trans (SameLaunches.of_disp ((State.rampDiscard_disp _).trans (State.onCore_disp _ _)))

/-! What the action of a trap is (R331). -/

theorem State.actionFor_congr {s t : State} (hp : t.parts = s.parts) (hc : t.core.part = s.core.part) (hl : t.core.launch = s.core.launch)
    (h : SameLaunches s t) (r : TrapRec) : t.actionFor r = s.actionFor r := by
  obtain ⟨g, hg⟩ := h s.core.launch
  have hlaunch : t.launch = s.launch.map (Launch.withGroups g) := by
    rw [State.launch, hl]
    exact hg
  unfold State.actionFor State.part
  rw [hlaunch, hp, hc]
  cases s.launch <;> rfl

/-- The action of a code, a stored POISON being forwarded where it would be replayed. -/
def Action.ofCode (n : Nat) (stored : Prop) [Decidable stored] : Action :=
  if n = 1 ∧ stored then .forward
  else if n = 0 then .kill else if n = 1 then .replay else if n = 2 then .park else .forward

theorem actionOfCode_eq (n : Nat) (p : Prop) [Decidable p] :
    (if actionOfCode (n % 4) = .replay ∧ p then Action.forward else actionOfCode (n % 4)) = Action.ofCode (n % 4) p := by
  have h : n % 4 < 4 := Nat.mod_lt n (by decide)
  generalize n % 4 = k at h
  unfold Action.ofCode
  interval_cases k <;> simp [actionOfCode]

theorem wfield_code (w : Word) (i : Nat) : wfield w (2 * i + 1) (2 * i) = w.toNat / 4 ^ i % 4 := by
  rw [wfield, field, Nat.pow_mul, show 2 * i + 1 - 2 * i + 1 = 2 by omega]
  rfl

theorem State.actionFor_of_code {s : State} {r : TrapRec} {w : Word} (h : (match s.launch with
    | some l => if l.ovmask.getLsbD r.cause.toNat && !fixedCause r.cause then l.overrides else (s.part s.core.part).actdef
    | none => (s.part s.core.part).actdef) = w) :
    s.actionFor r = Action.ofCode (w.toNat / 4 ^ r.cause.toNat % 4) (r.cause = cPOISON ∧ r.stored = true) := by
  rw [← actionOfCode_eq, ← wfield_code, ← h]
  rfl

/-- The action by the partition's default, of a context without a launch. -/
theorem State.actionFor_default {s : State} {r : TrapRec} (h : s.launch = none) : s.actionFor r =
    Action.ofCode ((s.part s.core.part).actdef.toNat / 4 ^ r.cause.toNat % 4) (r.cause = cPOISON ∧ r.stored = true) :=
  State.actionFor_of_code (by rw [h])

/-- The action by the launch's override, of a cause that one may decide. -/
theorem State.actionFor_launch {s : State} {r : TrapRec} {l : Launch} (h : s.launch = some l) (hfix : fixedCause r.cause = false) :
    s.actionFor r = Action.ofCode ((if l.ovmask.getLsbD r.cause.toNat then l.overrides else (s.part s.core.part).actdef).toNat /
      4 ^ r.cause.toNat % 4) (r.cause = cPOISON ∧ r.stored = true) :=
  State.actionFor_of_code (by rw [h, hfix]; simp)

theorem fixedCause_eq_false {c : BitVec 8} (h : c.toNat < 31) (h0 : c.toNat ≠ 0) (h15 : c.toNat ≠ 0x15) (h13 : c ≠ 0x13) :
    fixedCause c = false := by
  have hz : ¬c = 0#8 := fun hc => h0 (by rw [hc]; rfl)
  have hp : c ≠ cPREEMPT := fun hc => h15 (by rw [hc]; rfl)
  have hm : c ≠ cCHECK_MISMATCH := h13
  simp [fixedCause, hz, hp, hm, h]

/-! The FORWARD record (R313). -/

theorem State.forwardOwn_eq (s : State) (r : TrapRec) : ∃ n b, s.forwardOwn r = { s with serial := n, fabric := b } := by
  unfold State.forwardOwn State.postForward
  split
  · obtain ⟨b, hb⟩ := State.post_eq s _ recFORWARD false _
    exact ⟨_, b, hb⟩
  · exact ⟨s.serial, s.fabric, rfl⟩

/-- The host of a launch hears of a trap. -/
def Tells (s t : State) (r : TrapRec) (pc : Word) : Prop := ∀ l, s.launch = some l → ∃ w : Word,
  t.fabric = (s.post l.vf 3 false [w, r.v0, r.v1, r.v2, r.v3, pc]).fabric ∧
    w.extractLsb' 0 8 = r.cause ∧ (s.core.lcore < 256 → (w.extractLsb' 8 8).toNat = s.core.lcore ∧ w.extractLsb' 16 32 = l.seq)

theorem forwardWord_fields (seq : BitVec 32) (lcore : Nat) (cause : BitVec 8) :
    let w := ofFields [(seq.toNat, 16), (lcore, 8), (cause.toNat, 0)]
    w.extractLsb' 0 8 = cause ∧ (lcore < 256 → (w.extractLsb' 8 8).toNat = lcore ∧ w.extractLsb' 16 32 = seq) := by
  intro w
  have hw : w = BitVec.ofNat 64 (seq.toNat * 2 ^ 16 + (lcore * 2 ^ 8 + cause.toNat)) := by
    show ofFields [(seq.toNat, 16), (lcore, 8), (cause.toNat, 0)] = _
    rw [ofFields, fieldSum_cons, fieldSum_cons, fieldSum_cons, fieldSum_nil, Nat.pow_zero, Nat.mul_one, Nat.add_zero]
  have := seq.isLt
  have := cause.isLt
  rw [hw]
  refine ⟨extractLsb'_ofNat_eq ?_, fun h => ⟨?_, extractLsb'_ofNat_eq ?_⟩⟩
  · omega
  · rw [toNat_extractLsb'_ofNat]
    omega
  · omega

/-- The record that goes out from a state behind another tells what one from that state would. -/
theorem State.forwardOwn_tells {s t : State} (hf : t.fabric = s.fabric) (hs : t.serial = s.serial) (hh : t.himos = s.himos)
    (hl : t.core.launch = s.core.launch) (hc : t.core.lcore = s.core.lcore) (h : SameLaunches s t) (r : TrapRec) :
    Tells s (t.forwardOwn r) r t.core.savedPc := by
  intro l hsl
  obtain ⟨g, hg⟩ := h s.core.launch
  have htl : t.launch = some (l.withGroups g) := by
    rw [State.launch, hl, hg, show s.launchOf s.core.launch = some l from hsl]
    rfl
  obtain ⟨h1, h2⟩ := forwardWord_fields l.seq s.core.lcore r.cause
  refine ⟨_, ?_, h1, h2⟩
  rw [State.forwardOwn, htl, ← hc]
  exact State.post_fabric_congr hf hs hh _ _ _ _

/-! PARK and FORWARD (R320, R331). -/

theorem State.passAlign_eq (s : State) : ∃ d b, s.passAlign = { s with disp := d, core := { s.core with blocked := b } } ∧
    SameLaunches s { s with disp := d } := by
  unfold State.passAlign
  split
  · split
    · obtain ⟨d, hd⟩ := s.leaveAlign_eq
      have hl := s.leaveAlign_launches
      rw [hd] at hl ⊢
      exact ⟨d, s.core.blocked, rfl, hl⟩
    · exact ⟨s.disp, _, rfl, SameLaunches.of_disp rfl⟩
  · exact ⟨s.disp, s.core.blocked, rfl, SameLaunches.of_disp rfl⟩

theorem State.stopBlocked_eq (s : State) : ∃ d b k e, s.stopBlocked =
    { s with disp := d, core := { s.core with blocked := b, blk := k, reissue := e } } ∧ SameLaunches s { s with disp := d } := by
  obtain ⟨d, b, hp, hl⟩ := s.passAlign_eq
  have hstop : ∃ d b k e, s.passAlign.onCore (fun c => { c with blk := .none, reissue := !c.blocked.isEmpty }) =
      { s with disp := d, core := { s.core with blocked := b, blk := k, reissue := e } } ∧ SameLaunches s { s with disp := d } := by
    rw [hp]
    exact ⟨d, b, .none, _, rfl, hl⟩
  unfold State.stopBlocked
  split
  · exact hstop
  · exact hstop
  · exact hstop
  · exact hstop
  · exact ⟨s.disp, s.core.blocked, s.core.blk, s.core.reissue, rfl, SameLaunches.of_disp rfl⟩

/-- A stop from a cycle on: the context is to be saved, or ends where its launch is killed. -/
theorem State.beginSave_eq (s : State) (t0 : Nat) : ∃ k a, s.beginSave t0 = { s with
      agenda := a
      core := { s.core with
        life := if s.core.stop.any fun x => x.kill then .killed else .saving
        walk := none, blk := k
        stop := s.core.stop.map fun x => { x with at_ := t0, arrived := true } } } ∧
    ((s.core.stop.any fun x => x.kill) = false → ∃ e ∈ a, e.act = .saveAreaReserve ∧ e.target = s.here ∧ e.due = t0 + 16) := by
  unfold State.beginSave
  dsimp only
  cases hk : s.core.stop.any fun x => x.kill with
  | true => exact ⟨_, _, rfl, fun h => absurd h (by decide)⟩
  | false => exact ⟨_, _, rfl, fun _ => ⟨_, (Ev.mem_insert _ _ _).2 (.inl rfl), rfl, rfl, rfl⟩⟩

/-- The stop record of a context that is to be parked. -/
def Core.parkStop (c : Core) (dcc t0 : Nat) : Stop :=
  { c.stop.getD ⟨dcc, false, false, false, none⟩ with park := true, arrived := true, at_ := t0 }

/-- What a PARK from a cycle on leaves of a core. -/
def Core.parked (c : Core) (dcc t0 : Nat) (r : Replay) (d : List Worded) (k : Block) (e : Bool) : Core :=
  { c with
    life := if (c.parkStop dcc t0).kill then .killed else .saving
    stop := some (c.parkStop dcc t0), replay := r, short := false, walk := none, blocked := d, blk := k, reissue := e }


/-- The replay state of a context that is parked: inside an entry its re-entry waits, in boundary code its bundle's replay. -/
def Replay.parked (p : Replay) (cause : BitVec 8) (entry : Bool) (hnd : Option HReg) : Replay :=
  if entry then { p with repend := true, relax := relaxes cause, cause := cause } else { p with cause := cause, hnd := hnd }

theorem State.parkAt_eq (s : State) (cause : BitVec 8) (entry : Bool) (hnd : Option HReg) (t0 : Nat) : ∃ d l k e a,
    s.parkAt cause entry hnd t0 = { s with
      core := s.core.parked s.dcc t0 (s.core.replay.parked cause entry hnd) l k e, disp := d, agenda := a } ∧
    (∃ x ∈ a, x.act = .schedulingDecision s.core.part ∧ x.due = s.dcc) ∧
    ((s.core.parkStop s.dcc t0).kill = false → ∃ x ∈ a, x.act = .saveAreaReserve ∧ x.target = s.here ∧ x.due = t0 + 16) := by
  let u : State := { s with core := { s.core.withStop s.dcc (fun x => { x with park := true, arrived := true }) with
    replay := s.core.replay.parked cause entry hnd, short := false } }
  obtain ⟨d, l, k, e, hb, -⟩ := u.stopBlocked_eq
  obtain ⟨k', a, hs, hdue⟩ := u.stopBlocked.beginSave_eq t0
  obtain ⟨a', hd, hdec, hmono⟩ := (u.stopBlocked.beginSave t0).decision_eq s.core.part
  have hpark : s.parkAt cause entry hnd t0 = (u.stopBlocked.beginSave t0).decision s.core.part := rfl
  rw [hs, hb] at hd hmono hdec
  rw [hb] at hdue
  refine ⟨d, l, k', e, a', ?_, hdec, fun hk => ?_⟩
  · rw [hpark, hs, hb, hd]
    rfl
  · obtain ⟨x, hx, h⟩ := hdue hk
    exact ⟨x, hmono x hx, h⟩

/-! What a trap's action starts from: the entry is discarded, and an access that is to be made again is noted. -/

/-- The core with its trap taken up, and the access of the trap noted. -/
def Core.noted (c : Core) (r : TrapRec) : Core :=
  if r.access.any fun id => c.io.any fun a => a.id == id then { c with replay := { c.replay with access := r.access } } else c

/-- The state that the action of a trap acts on. -/
def State.atTrap (s : State) (r : TrapRec) : State :=
  let u := { s with core := { s.core with trap := none } }
  (if s.core.reg.isOpen then u.discard else u).onCore fun c => c.noted r

theorem Core.noted_eq (c : Core) (r : TrapRec) : ∃ a, c.noted r = { c with replay := { c.replay with access := a } } := by
  unfold Core.noted
  split
  · exact ⟨_, rfl⟩
  · exact ⟨c.replay.access, rfl⟩

/-- What stands at the action of a trap as it stood before. -/
structure AtTrap (s t : State) : Prop where
  trap : t.core.trap = none
  ctx : t.core.life = s.core.life ∧ t.core.launch = s.core.launch ∧ t.core.lcore = s.core.lcore ∧ t.core.part = s.core.part
  phys : t.core.phys = s.core.phys
  stop : t.core.stop = s.core.stop
  rest : ∃ l d a, t = { s with core := t.core, lines := l, disp := d, agenda := a }
  launches : SameLaunches s t
  bytes : SameBytes s t

theorem State.atTrap_boundary {s : State} (h : s.inRegion = false) (r : TrapRec) :
    s.atTrap r = { s with core := { s.core with trap := none }.noted r } := by
  rw [State.atTrap, show s.core.reg.isOpen = false from h]
  rfl

theorem State.atTrap_region {s : State} (h : s.inRegion = true) (r : TrapRec) : s.atTrap r =
    { s with core := { s.core with trap := none } }.discard.onCore fun c => c.noted r := by
  rw [State.atTrap, show s.core.reg.isOpen = true from h]
  rfl

theorem State.atTrap_keeps (s : State) (r : TrapRec) : AtTrap s (s.atTrap r) := by
  cases h : s.inRegion with
  | false =>
    obtain ⟨p, hn⟩ := Core.noted_eq { s.core with trap := none } r
    rw [State.atTrap_boundary h, hn]
    exact ⟨rfl, ⟨rfl, rfl, rfl, rfl⟩, rfl, rfl, ⟨s.lines, s.disp, s.agenda, rfl⟩, SameLaunches.of_disp rfl,
      SameBytes.of_eq rfl rfl rfl⟩
  | true =>
    obtain ⟨l, d, a, x, hd⟩ := State.discard_eq { s with core := { s.core with trap := none } }
    have hl := State.discard_launches { s with core := { s.core with trap := none } }
    rw [State.atTrap_region h]
    obtain ⟨-, -, -, -, hb⟩ := State.discard_discards { s with core := { s.core with trap := none } }
    rw [hd] at hl hb ⊢
    dsimp only [State.onCore]
    generalize hc : Core.discarded _ = c at *
    obtain ⟨p, hn⟩ := Core.noted_eq { c with eng := { c.eng with array := x } } r
    rw [hn]
    subst hc
    exact ⟨rfl, ⟨rfl, rfl, rfl, rfl⟩, rfl, rfl, ⟨l, d, a, rfl⟩, hl, hb⟩

theorem State.discard_dcc (s : State) : s.discard.dcc = s.dcc := by
  obtain ⟨l, d, a, x, h⟩ := s.discard_eq
  rw [h]

theorem Core.noted_kept (c : Core) (r : TrapRec) : (c.noted r).savedPc = c.savedPc ∧ (c.noted r).arch = c.arch ∧ (c.noted r).pc = c.pc ∧
    (c.noted r).held = c.held ∧ (c.noted r).reg = c.reg := by
  obtain ⟨a, h⟩ := c.noted_eq r
  rw [h]
  exact ⟨rfl, rfl, rfl, rfl, rfl⟩

/-- The entry of a trap is discarded. -/
theorem State.atTrap_discards {s : State} (h : s.inRegion = true) (r : TrapRec) : Discarded s (s.atTrap r) := by
  have hbytes := (s.atTrap_keeps r).bytes
  obtain ⟨hclosed, hregs, hpc, hheld, -⟩ := State.discard_discards { s with core := { s.core with trap := none } }
  rw [State.atTrap_region h] at hbytes ⊢
  obtain ⟨-, harch, hpc', hheld', hreg⟩ := ({ s with core := { s.core with trap := none } }.discard.core).noted_kept r
  exact ⟨(congrArg Region.isOpen hreg).trans hclosed, (congrArg Arch.s harch).trans hregs, hpc'.trans hpc, hheld'.trans hheld, hbytes⟩

/-- A discarded entry outside of a LAYER sequence goes on at its REGION. -/
theorem State.atTrap_savedPc_region {s : State} (h : s.inRegion = true) (hl : s.core.reg.snap.layer = none) (r : TrapRec) :
    (s.atTrap r).core.savedPc = s.core.reg.snap.pc := by
  obtain ⟨l, d, a, x, hd⟩ := State.discard_eq { s with core := { s.core with trap := none } }
  rw [State.atTrap_region h]
  refine (Core.noted_kept _ r).1.trans ?_
  rw [hd]
  show Core.savedPc { Core.discarded _ with eng := _ } = _
  unfold Core.savedPc
  show (match s.core.reg.snap.layer with | some l => l.bundle | none => s.core.reg.snap.pc) = _
  rw [hl]

theorem State.atTrap_savedPc_boundary {s : State} (h : s.inRegion = false) (r : TrapRec) : (s.atTrap r).core.savedPc = s.core.savedPc := by
  rw [State.atTrap_boundary h]
  exact (Core.noted_kept _ r).1

/-- A replay that passes no limit counts. -/
theorem State.countReplay_counts {s : State}
    (h : (if s.core.replay.at_ = s.core.nextPc then s.core.replay.count.toNat else 0) < s.core.arch.csr.relim.toNat) :
    ∃ n, s.countReplay = (true, { s with core := { s.core with replay := { s.core.replay with at_ := s.core.nextPc, count := n } } }) := by
  have hn : (if s.core.replay.at_ = s.core.nextPc then s.core.replay.count else 0).toNat < s.core.arch.csr.relim.toNat := by
    split at h
    next he => rwa [if_pos he]
    next he => rwa [if_neg he]
  rw [State.countReplay]
  dsimp only
  rw [if_neg (by omega)]
  exact ⟨_, rfl⟩

/-- A bundle of boundary code is tried again. -/
theorem State.replayBoundary_bundle {s : State} {r : TrapRec} (ha : r.access = none) (hc : r.cause ≠ 0x10)
    (h : (if s.core.replay.at_ = s.core.nextPc then s.core.replay.count.toNat else 0) < s.core.arch.csr.relim.toNat) :
    ∃ n, s.replayBoundary r = { s with core := { s.core with replay := { s.core.replay with at_ := s.core.nextPc, count := n } } }.startReplay r
      (trapHandle r) (if r.cause = 0x03 then 136 else 72) := by
  obtain ⟨n, hn⟩ := State.countReplay_counts h
  refine ⟨n, ?_⟩
  have hwait : (if (trapHandle r).isSome then 136 else 72) = if r.cause = 0x03 then 136 else 72 := by
    unfold trapHandle
    split
    next hh => exact (if_pos hh).symm
    next hh => exact (if_neg hh).symm
  have hplain : ¬((r.access.isSome || r.cause == cREGION_LIVELOCK) = true) := by
    rw [ha, Option.isSome_none, Bool.false_or, beq_iff_eq]
    exact hc
  unfold State.replayBoundary
  dsimp only
  rw [if_neg hplain, hn, hwait]

/-- A late access of boundary code is made again. -/
theorem State.replayBoundary_access {s : State} {r : TrapRec} {id : Nat} (ha : r.access = some id) :
    s.replayBoundary r = s.startReplay r (trapHandle r) 72 := by
  rw [State.replayBoundary, ha]
  rfl

section
variable {s : State} {r : TrapRec} (ht : s.core.trap = some r) (hl : s.core.life = .running) (hc : r.cause ≠ 0x13)

theorem State.atTrap_action (s : State) (r : TrapRec) : (s.atTrap r).actionFor r = s.actionFor r := by
  obtain ⟨-, ⟨-, hlaunch, -, hpart⟩, -, -, ⟨l, d, a, hrest⟩, hsame, -⟩ := s.atTrap_keeps r
  exact State.actionFor_congr (by rw [hrest]) hpart hlaunch hsame r

/-- Is the context in a region, or to enter one again? -/
def State.inEntry (s : State) : Bool := s.core.reg.isOpen || s.core.blk == .reentry

/-- When the context of a trap has stopped (R320). -/
def State.trapStops (s : State) : Nat := if s.core.reg.isOpen then s.dcc + 64 else { s with core := { s.core with trap := none } }.lastResult

/-- A REPLAY, in a region and in boundary code (R331). -/
def State.replayed (s : State) (r : TrapRec) (entry : Bool) : State :=
  if entry then
    (match s.core.replay.access, r.access with
    | some n, some m => if n = m then s.startReplay r none 72 else s
    | _, _ => s).reenter r.cause
  else s.replayBoundary r

/-- The state with other work, and what its context waits for. -/
def State.rerun (s : State) (b : Block) (p : Replay) (n m : Nat) (a : List Ev) : State :=
  { s with core := { s.core with blk := b, replay := p }, free := m, serial := n, agenda := a }

/-- A REPLAY of an entry enters its region again, with an access of before it made again where the trap is that access's. -/
theorem State.replayed_entry (s : State) (r : TrapRec) : ∃ (k : Nat) (p : Replay) (n m : Nat) (a : List Ev),
    s.replayed r true = s.rerun .reentry (p.parked r.cause true none) n m a ∧ s.dcc + 64 ≤ k ∧
      ⟨k, ordLate s.core.phys, s.me, .reentry⟩ ∈ a := by
  have key : ∀ b p n a, ∃ (k : Nat) (q : Replay) (n' m : Nat) (a' : List Ev),
      (s.rerun b p n s.free a).reenter r.cause = s.rerun .reentry (q.parked r.cause true none) n' m a' ∧ s.dcc + 64 ≤ k ∧
        ⟨k, ordLate s.core.phys, s.me, .reentry⟩ ∈ a' := by
    intro b p n a
    obtain ⟨m, d, h, -⟩ := (s.rerun b p n s.free a).reenter_eq r.cause
    exact ⟨_, p, n, m, _, h, Nat.add_le_add_left (Nat.le_max_left 64 d) _, (Ev.mem_insert _ _ _).2 (.inl rfl)⟩
  have hself := key s.core.blk s.core.replay s.serial s.agenda
  unfold State.replayed
  rw [if_pos rfl]
  split
  · split
    · exact key _ _ _ _
    · exact hself
  · exact hself

/-- What the action of a trap makes of the state that it finds. -/
def State.acted (s : State) (r : TrapRec) (entry opened : Bool) (t0 : Nat) : Action → State
  | .replay => s.replayed r entry
  | .park => s.parkAt r.cause entry (trapHandle r) t0
  | .forward => (s.forwardOwn r).parkAt r.cause entry (trapHandle r) t0
  | .kill => (s.forwardOwn r).kill r.cause opened

include ht hl hc

theorem State.closeTrap_actWith : ∃ u : State, u.onCore (fun c => c.noted r) = s.atTrap r ∧
    (if s.core.reg.isOpen then u.dcc + 64 else u.lastResult) = s.trapStops ∧
    s.closeTrap = u.actWith r s.inEntry s.core.reg.isOpen fun v => v.replayed r s.inEntry := by
  refine ⟨if s.core.reg.isOpen then { s with core := { s.core with trap := none } }.discard else { s with core := { s.core with trap := none } },
    rfl, ?_, ?_⟩
  · unfold State.trapStops
    split
    · rw [State.discard_dcc]
    · rfl
  · have hr : (fun v : State => v.replayed r s.inEntry) = fun v => if !s.inEntry then v.replayBoundary r else
        (match v.core.replay.access, r.access with
        | some n, some m => if n = m then v.startReplay r none 72 else v
        | _, _ => v).reenter r.cause := by
      funext v
      unfold State.replayed
      cases s.inEntry <;> rfl
    rw [hr, State.closeTrap, ht]
    dsimp only
    have hu : s.onCore (fun c => { c with trap := none }) = { s with core := { s.core with trap := none } } := rfl
    rw [hu]
    exact (if_neg fun h => h hl).trans (if_neg hc)

theorem State.closeTrap_eq : s.closeTrap = (s.atTrap r).acted r s.inEntry s.core.reg.isOpen s.trapStops (s.actionFor r) := by
  obtain ⟨u, hu, ht0, hact⟩ := State.closeTrap_actWith ht hl hc
  rw [hact, ← ht0, ← s.atTrap_action r, ← hu]
  rfl

/-- PARK and FORWARD park the context; a FORWARD tells the host before. -/
theorem State.closeTrap_parkAt (h : s.actionFor r = .park ∨ s.actionFor r = .forward) : ∃ (u : State) (n : Nat) (b : Fabric) (l : List Line)
      (d : Dispatch) (a : List Ev),
    u = { s with core := (s.atTrap r).core, lines := l, disp := d, agenda := a, serial := n, fabric := b } ∧
      s.closeTrap = u.parkAt r.cause s.inEntry (trapHandle r) s.trapStops ∧ (s.actionFor r = .park → b = s.fabric) ∧
      (s.actionFor r = .forward → Tells s u r (s.atTrap r).core.savedPc) := by
  obtain ⟨-, ⟨-, hlaunch, hlcore, -⟩, -, -, ⟨l, d, a, hrest⟩, hsame, -⟩ := s.atTrap_keeps r
  have hclose := State.closeTrap_eq ht hl hc
  rcases h with h | h
  · refine ⟨s.atTrap r, s.serial, s.fabric, l, d, a, hrest, ?_, fun _ => rfl, fun hf => ?_⟩
    · rw [hclose, h, State.acted]
    · rw [h] at hf
      cases hf
  · obtain ⟨n, b, hfwd⟩ := (s.atTrap r).forwardOwn_eq r
    refine ⟨(s.atTrap r).forwardOwn r, n, b, l, d, a, ?_, ?_, fun hp => ?_, fun _ => ?_⟩
    · rw [hfwd, hrest]
    · rw [hclose, h, State.acted]
    · rw [h] at hp
      cases hp
    · exact State.forwardOwn_tells (by rw [hrest]) (by rw [hrest]) (by rw [hrest]) hlaunch hlcore hsame r

/-- What a PARK or a FORWARD leaves. -/
theorem State.closeTrap_parks (h : s.actionFor r = .park ∨ s.actionFor r = .forward) : ∃ n b m d l k e a,
    s.closeTrap = { s with
        core := (s.atTrap r).core.parked s.dcc s.trapStops ((s.atTrap r).core.replay.parked r.cause s.inEntry (trapHandle r)) l k e
        lines := m, disp := d, agenda := a, serial := n, fabric := b } ∧
      (∃ x ∈ a, x.act = .schedulingDecision s.core.part ∧ x.due = s.dcc) ∧
      (((s.atTrap r).core.parkStop s.dcc s.trapStops).kill = false →
        ∃ x ∈ a, x.act = .saveAreaReserve ∧ x.target = s.here ∧ x.due = s.trapStops + 16) ∧
      (s.actionFor r = .park → b = s.fabric) ∧ (s.actionFor r = .forward → Tells s s.closeTrap r (s.atTrap r).core.savedPc) := by
  obtain ⟨-, ⟨-, -, -, hpart⟩, hphys, -, -, -, -⟩ := s.atTrap_keeps r
  obtain ⟨u, n, b, m, d, a, hu, hclose, hp, hf⟩ := State.closeTrap_parkAt ht hl hc h
  obtain ⟨d', l, k, e, a', hpark, hdec, hres⟩ := u.parkAt_eq r.cause s.inEntry (trapHandle r) s.trapStops
  have hhere : u.here = s.here := by
    rw [hu]
    exact congrArg Target.phys hphys
  rw [hhere] at hres
  rw [hpark, hu] at hclose
  rw [hu] at hdec hres hf
  dsimp only at hclose hdec hres
  rw [hpart] at hdec
  refine ⟨n, b, m, d', l, k, e, a', hclose, hdec, hres, hp, fun h => ?_⟩
  rw [hclose]
  exact hf h

/-- PARK and FORWARD, in boundary code and in a region. -/
theorem closeTrap_parked (h : s.actionFor r = .park ∨ s.actionFor r = .forward) :
    let t := s.closeTrap
    t.core.trap = none ∧ SameBytes s t ∧
      ((∃ x, t.core.stop = some x ∧ x.park = true ∧ x.arrived = true) ∧
        ∃ e ∈ t.agenda, e.act = .schedulingDecision s.core.part ∧ e.due = s.dcc) ∧
      (s.actionFor r = .park → t.fabric = s.fabric) ∧ (s.actionFor r = .forward → Tells s t r (s.atTrap r).core.savedPc) := by
  obtain ⟨n, b, m, d, l, k, e, a, hclose, hdec, -, hp, hf⟩ := State.closeTrap_parks ht hl hc h
  obtain ⟨htrap, -, -, -, -, -, hbytes⟩ := s.atTrap_keeps r
  obtain ⟨-, -, hls⟩ := hbytes
  refine ⟨?_, ?_, ?_, fun hp' => ?_, hf⟩
  · rw [hclose]
    exact htrap
  · rw [hclose]
    exact ⟨fun _ => rfl, fun _ => rfl, hls⟩
  · rw [hclose]
    exact ⟨⟨_, rfl, rfl, rfl⟩, hdec⟩
  · rw [hclose]
    exact hp hp'

/-- PARK and FORWARD in a region: the context is saved as it was at its REGION. -/
theorem closeTrap_parked_region (hr : s.inRegion = true) (h : s.actionFor r = .park ∨ s.actionFor r = .forward)
    (hk : ∀ x, s.core.stop = some x → x.kill = false) :
    let t := s.closeTrap
    t.inRegion = false ∧ t.core.life = .saving ∧ t.core.replay.repend = true ∧ t.core.replay.cause = r.cause ∧
      t.core.replay.relax = relaxes r.cause ∧ t.core.arch.s = s.core.reg.snap.arch.s ∧ t.core.pc = s.core.reg.snap.pc ∧
      t.core.held = Held.empty ∧ ∃ e ∈ t.agenda, e.act = .saveAreaReserve ∧ e.target = s.here ∧ e.due = s.dcc + 80 := by
  obtain ⟨n, b, m, d, l, k, e, a, hclose, -, hres, -, -⟩ := State.closeTrap_parks ht hl hc h
  obtain ⟨-, -, -, hstop, -, -, -⟩ := s.atTrap_keeps r
  obtain ⟨hclosed, hregs, hpc, hheld, -⟩ := State.atTrap_discards hr r
  have hentry : s.inEntry = true := by rw [State.inEntry, show s.core.reg.isOpen = true from hr]; rfl
  have hstops : s.trapStops = s.dcc + 64 := if_pos hr
  have hkill : ∀ t0, ((s.atTrap r).core.parkStop s.dcc t0).kill = false := by
    intro t0
    rw [Core.parkStop, hstop]
    cases hx : s.core.stop with
    | none => rfl
    | some x => exact hk x hx
  have hlife : (if ((s.atTrap r).core.parkStop s.dcc s.trapStops).kill then Life.killed else .saving) = .saving := by rw [hkill]; rfl
  intro t
  rw [show t = _ from hclose]
  rw [hentry]
  obtain ⟨x, hx, hact, htgt, hdue⟩ := hres (hkill _)
  exact ⟨hclosed, hlife, rfl, rfl, rfl, hregs, hpc, hheld, x, hx, hact, htgt, hdue.trans (by rw [hstops])⟩

theorem closeTrap_replayBoundary (hr : s.inRegion = false) (hb : s.core.blk ≠ .reentry) (h : s.actionFor r = .replay) :
    s.closeTrap = { s with core := { s.core with trap := none }.noted r }.replayBoundary r := by
  have hentry : s.inEntry = false := by
    rw [State.inEntry, show s.core.reg.isOpen = false from hr, Bool.false_or]
    exact beq_false_of_ne hb
  rw [State.closeTrap_eq ht hl hc, h, State.acted, hentry, State.atTrap_boundary hr]
  rfl

/-- A bundle of boundary code that is to issue again. -/
theorem closeTrap_bundle (hr : s.inRegion = false) (hb : s.core.blk ≠ .reentry) (h : s.actionFor r = .replay) (ha : r.access = none)
    (hlock : r.cause ≠ 0x10)
    (hlim : (if s.core.replay.at_ = s.core.nextPc then s.core.replay.count.toNat else 0) < s.core.arch.csr.relim.toNat) :
    let t := s.closeTrap
    t.core.trap = none ∧ t.core.arch = s.core.arch ∧ t.core.pc = s.core.pc ∧ SameBytes s t ∧ t.core.replay.at_ = s.core.nextPc ∧
      ∃ n, t.core.blk = .replay n ∧ ∃ e ∈ t.agenda, e.act = .boundaryReplay n ∧ e.target = s.me ∧
        e.due = s.dcc + (if r.cause = 0x03 then 136 else 72) := by
  have hnoted : { s.core with trap := none }.noted r = { s.core with trap := none } := by
    rw [Core.noted, ha]
    rfl
  obtain ⟨n, hn⟩ := State.replayBoundary_bundle (s := { s with core := { s.core with trap := none } }) ha hlock hlim
  intro t
  rw [show t = _ from closeTrap_replayBoundary ht hl hc hr hb h, hnoted, hn]
  refine ⟨rfl, rfl, rfl, SameBytes.of_eq rfl rfl rfl, rfl, s.serial, ?_, _, (Ev.mem_insert _ _ _).2 (.inl rfl), rfl, rfl, rfl⟩
  show (if r.access.isSome then s.core.blk else .replay s.serial) = _
  rw [ha]
  rfl

/-- An access of boundary code that is to be made again. -/
theorem closeTrap_access (hr : s.inRegion = false) (hb : s.core.blk ≠ .reentry) (h : s.actionFor r = .replay) (id : Nat)
    (ha : r.access = some id) :
    let t := s.closeTrap
    t.core.trap = none ∧ t.core.arch = s.core.arch ∧ t.core.pc = s.core.pc ∧ SameBytes s t ∧ t.core.blk = s.core.blk ∧
      t.core.replay.access = some id ∧ t.core.replay.count = s.core.replay.count ∧
      ∃ e ∈ t.agenda, e.act = .boundaryReplay s.serial ∧ e.target = s.me ∧ e.due = s.dcc + 72 := by
  obtain ⟨p, hp⟩ := Core.noted_eq { s.core with trap := none } r
  intro t
  rw [show t = _ from closeTrap_replayBoundary ht hl hc hr hb h, State.replayBoundary_access ha, hp]
  refine ⟨rfl, rfl, rfl, SameBytes.of_eq rfl rfl rfl, ?_, ha, rfl, _, (Ev.mem_insert _ _ _).2 (.inl rfl), rfl, rfl, rfl⟩
  show (if r.access.isSome then s.core.blk else .replay s.serial) = _
  rw [ha]
  rfl

/-- An entry that is to be entered again. -/
theorem closeTrap_reenters (hr : s.inRegion = true) (h : s.actionFor r = .replay) :
    let t := s.closeTrap
    t.inRegion = false ∧ t.core.trap = none ∧ t.core.blk = .reentry ∧ t.core.replay.repend = true ∧ t.core.replay.cause = r.cause ∧
      t.core.replay.relax = relaxes r.cause ∧ t.core.arch.s = s.core.reg.snap.arch.s ∧
      t.core.pc = s.core.reg.snap.pc ∧ t.core.held = Held.empty ∧ SameBytes s t ∧
      ∃ e ∈ t.agenda, e.act = .reentry ∧ e.target = s.me ∧ s.dcc + 64 ≤ e.due := by
  have hentry : s.inEntry = true := by rw [State.inEntry, show s.core.reg.isOpen = true from hr]; rfl
  obtain ⟨htrap, ⟨-, hlaunch, hlcore, -⟩, -, -, ⟨l, d, a, hrest⟩, -, -⟩ := s.atTrap_keeps r
  obtain ⟨hclosed, hregs, hpc, hheld, hmem, hcxl, hls⟩ := State.atTrap_discards hr r
  obtain ⟨k, p, n, m, a, hre, hk, hmem'⟩ := (s.atTrap r).replayed_entry r
  have hdcc : (s.atTrap r).dcc = s.dcc := by rw [hrest]
  have hme : (s.atTrap r).me = s.me := by rw [State.me, hlaunch, hlcore]; rfl
  intro t
  rw [show t = _ from State.closeTrap_eq ht hl hc, h, State.acted, hentry, hre]
  refine ⟨hclosed, htrap, rfl, rfl, rfl, rfl, hregs, hpc, hheld, ⟨hmem, hcxl, hls⟩, _, hmem', rfl, hme, ?_⟩
  rw [hdcc] at hk
  exact hk

end
end Sys2Proof.Machine
end

section
namespace Sys2Proof.Machine

/-! Cores in focus. -/

/-- An element of its own key in front of those of other keys. -/
theorem perm_cons_filter_key {α β : Type} [DecidableEq β] (f : α → β) {a : α} : ∀ {l : List α}, (l.map f).Nodup → a ∈ l →
    (a :: l.filter fun b => f b != f a).Perm l
  | [], _, h => absurd h List.not_mem_nil
  | b :: l, hd, h => by
    rw [List.map_cons, List.nodup_cons] at hd
    obtain ⟨hb, hd⟩ := hd
    rcases List.mem_cons.1 h with rfl | h
    · have hrest : (l.filter fun b => f b != f a) = l :=
        List.filter_eq_self.2 fun c hc => bne_iff_ne.2 fun he => hb (List.mem_map.2 ⟨c, hc, he⟩)
      rw [List.filter_cons_of_neg (by simp), hrest]
    · have hne : f b ≠ f a := fun he => hb (List.mem_map.2 ⟨a, h, he.symm⟩)
      rw [List.filter_cons_of_pos (p := fun b => f b != f a) (bne_iff_ne.2 hne)]
      exact (List.Perm.swap b a _).trans ((perm_cons_filter_key f hd h).cons b)

/-- Bringing a core into focus changes the order of the cores alone. -/
theorem State.focusPhys_perm {s : State} {n : Nat} (hd : (s.cores.map Core.phys).Nodup) (hn : n ∈ s.cores.map Core.phys) :
    ∃ (c : Core) (os : List Core), s.focusPhys n = { s with core := c, others := os } ∧ c.phys = n ∧ (c :: os).Perm s.cores := by
  have hany : (s.cores.any fun c => c.phys == n) = true := by
    obtain ⟨c, hc, h⟩ := List.mem_map.1 hn
    exact List.any_eq_true.2 ⟨c, hc, beq_iff_eq.2 h⟩
  rw [State.focusPhys, if_pos hany, State.focusOn]
  split
  next h => exact ⟨s.core, s.others, rfl, beq_iff_eq.1 h, List.Perm.refl _⟩
  next h =>
    have hex : ∃ c ∈ s.others, (c.phys == n) = true := by
      rw [State.cores, List.any_cons, Bool.or_eq_true] at hany
      exact List.any_eq_true.1 (hany.resolve_left h)
    obtain ⟨c, hfind⟩ := Option.isSome_iff_exists.1 (List.find?_isSome.2 hex)
    have hphys := List.find?_some (p := fun c : Core => c.phys == n) hfind
    have hothers := perm_cons_filter_key Core.phys (List.nodup_cons.1 hd).2 (List.mem_of_find?_eq_some hfind)
    rw [hfind]
    exact ⟨_, _, rfl, beq_iff_eq.1 hphys, (List.Perm.swap s.core c _).trans (hothers.cons s.core)⟩

/-! The cores of a killed launch (R331). -/

/-- A core that waits for the context of a killed launch waits for none. -/
def Core.unawaiting (c : Core) (id : Nat) : Core :=
  if c.stop.any fun x => x.incoming.any fun i => i.1 == id then { c with stop := c.stop.map fun x => { x with incoming := none } } else c

/-- What the kill of a launch makes of a core. -/
def Core.killedWith (c : Core) (id dcc : Nat) : Core :=
  let d := c.unawaiting id
  if d.launch != id then d
  else match d.life with
    | .placed => { d with life := .killed }
    | .saving => { d with stop := d.stop.map fun x => { x with kill := true } }
    | .running => d.withStop dcc fun x => { x with kill := true }
    | _ => d

theorem Core.unawaiting_eq (c : Core) (id : Nat) : ∃ x, c.unawaiting id = { c with stop := x } ∧ (c.stop = none → x = none) ∧
    ∀ y, c.stop = some y → ∃ i, x = some { y with incoming := i } := by
  unfold Core.unawaiting
  split
  · refine ⟨_, rfl, fun h => by rw [h]; rfl, fun y h => ⟨none, by rw [h]; rfl⟩⟩
  · exact ⟨c.stop, rfl, fun h => h, fun y h => ⟨y.incoming, h⟩⟩

theorem Core.killedWith_phys (c : Core) (id dcc : Nat) : (c.killedWith id dcc).phys = c.phys := by
  obtain ⟨x, h, -⟩ := c.unawaiting_eq id
  unfold Core.killedWith
  dsimp only
  rw [h]
  split
  · rfl
  · split <;> rfl

/-- A context that is killed already keeps its core but for what waits for it. -/
theorem Core.killedWith_killed {c : Core} (h : c.life = .killed) (id dcc : Nat) : c.killedWith id dcc = c.unawaiting id := by
  obtain ⟨x, hx, -⟩ := c.unawaiting_eq id
  have hl : (c.unawaiting id).life = .killed := by
    rw [hx]
    exact h
  unfold Core.killedWith
  dsimp only
  rw [hl]
  exact ite_self _

/-- The kill of a launch at the focused core. -/
theorem State.killCore_focused {s u : State} {id n : Nat} (hu : s.focusPhys n = u) (hn : u.core.phys = n) :
    ∃ a, s.killCore id n = { u with core := u.core.killedWith id u.dcc, agenda := a } ∧ (∀ e ∈ u.agenda, e ∈ a) ∧
      (u.core.launch = id → u.core.life = .running → u.core.stop = none →
        ∃ e ∈ a, e.act = .preemptArrival ∧ e.target = .phys n ∧ e.due = u.dcc + 40) := by
  obtain ⟨x, hx, hnone, -⟩ := u.core.unawaiting_eq id
  have hdrop : (if u.core.stop.any fun x => x.incoming.any fun i => i.1 == id then
      u.onCore fun c => { c with stop := c.stop.map fun x => { x with incoming := none } } else u) =
      { u with core := u.core.unawaiting id } := by
    unfold Core.unawaiting
    split <;> rfl
  unfold State.killCore
  dsimp only
  rw [hu, hdrop]
  dsimp only
  have hlaunch : (u.core.unawaiting id).launch = u.core.launch := by rw [hx]
  have hlife : (u.core.unawaiting id).life = u.core.life := by rw [hx]
  by_cases hid : ((u.core.unawaiting id).launch != id) = true
  · rw [if_pos hid, Core.killedWith]
    rw [if_pos hid]
    refine ⟨u.agenda, rfl, fun _ h => h, fun h => ?_⟩
    rw [hlaunch, h, bne_self_eq_false] at hid
    cases hid
  · rw [if_neg hid, Core.killedWith]
    rw [if_neg hid]
    dsimp only [State.onCore]
    rw [hlife]
    cases hl : u.core.life with
    | running =>
      dsimp only
      split
      next hasked =>
        refine ⟨u.agenda, rfl, fun _ h => h, fun _ _ hstop => ?_⟩
        rw [hx, hnone hstop] at hasked
        cases hasked
      next =>
        refine ⟨_, rfl, fun e h => (Ev.mem_insert _ _ _).2 (.inr h), fun _ _ _ => ⟨_, (Ev.mem_insert _ _ _).2 (.inl rfl), rfl, ?_, rfl⟩⟩
        rw [hx]
        exact congrArg Target.phys hn
    | _ => exact ⟨u.agenda, rfl, fun _ h => h, fun _ hr => Life.noConfusion hr⟩

/-- The kill of a launch at one core. -/
theorem State.killCore_eq {s : State} {id n : Nat} (hd : (s.cores.map Core.phys).Nodup) (hn : n ∈ s.cores.map Core.phys) :
    ∃ (c : Core) (os : List Core) (a : List Ev), s.killCore id n = { s with core := c.killedWith id s.dcc, others := os, agenda := a } ∧
      c.phys = n ∧ (c :: os).Perm s.cores ∧ (∀ e ∈ s.agenda, e ∈ a) ∧
      (c.launch = id → c.life = .running → c.stop = none → ∃ e ∈ a, e.act = .preemptArrival ∧ e.target = .phys n ∧ e.due = s.dcc + 40) := by
  obtain ⟨c, os, hf, hp, hperm⟩ := State.focusPhys_perm hd hn
  obtain ⟨a, hk, hmono, hev⟩ := State.killCore_focused (id := id) hf hp
  exact ⟨c, os, a, hk, hp, hperm, hmono, hev⟩

/-- A core with the kill applied where it is among those named. -/
def Core.killedAmong (ps : List Nat) (id dcc : Nat) (c : Core) : Core := if c.phys ∈ ps then c.killedWith id dcc else c

theorem Core.killedAmong_phys (ps : List Nat) (id dcc : Nat) (c : Core) : (c.killedAmong ps id dcc).phys = c.phys := by
  unfold Core.killedAmong
  split
  · exact c.killedWith_phys id dcc
  · rfl

theorem Core.killedAmong_cons {p : Nat} {ps : List Nat} (h : p ∉ ps) (id dcc : Nat) (c : Core) :
    (c.killedAmong [p] id dcc).killedAmong ps id dcc = c.killedAmong (p :: ps) id dcc := by
  have hphys := c.killedAmong_phys [p] id dcc
  by_cases hc : c.phys = p
  · rw [Core.killedAmong, hphys, hc, if_neg h, Core.killedAmong, Core.killedAmong, if_pos (by simp [hc]), if_pos (by simp [hc])]
  · rw [show c.killedAmong [p] id dcc = c from if_neg (by simpa using hc), Core.killedAmong, Core.killedAmong]
    exact if_congr (by simp [hc]) rfl rfl

theorem killCore_cores {s : State} {id p : Nat} {c : Core} {os : List Core} (hd : (s.cores.map Core.phys).Nodup) (hc : c.phys = p)
    (hperm : (c :: os).Perm s.cores) : (c.killedWith id s.dcc :: os).Perm (s.cores.map (Core.killedAmong [p] id s.dcc)) := by
  have hnd : ((c :: os).map Core.phys).Nodup := (hperm.map Core.phys).nodup_iff.2 hd
  have hos : os.map (Core.killedAmong [p] id s.dcc) = os := by
    refine (List.map_congr_left fun d hdo => if_neg fun hdp => ?_).trans (List.map_id' os)
    exact (List.nodup_cons.1 hnd).1 (List.mem_map.2 ⟨d, hdo, (List.mem_singleton.1 hdp).trans hc.symm⟩)
  have h := hperm.map (Core.killedAmong [p] id s.dcc)
  rwa [List.map_cons, hos, show c.killedAmong [p] id s.dcc = c.killedWith id s.dcc from if_pos (by simp [hc])] at h

/-- The work of the cores that are to stop is there: each gets its request 40 cycles on. -/
def Requested (s : State) (ps : List Nat) (id : Nat) (a : List Ev) : Prop :=
  ∀ c ∈ s.cores, c.phys ∈ ps → c.launch = id → c.life = .running → c.stop = none →
    ∃ e ∈ a, e.act = .preemptArrival ∧ e.target = .phys c.phys ∧ e.due = s.dcc + 40

/-- The kill of a launch at one core after the other. -/
theorem State.killCores_eq (id : Nat) : ∀ (ps : List Nat) (s : State), (s.cores.map Core.phys).Nodup → ps ⊆ s.cores.map Core.phys → ps.Nodup →
    ∃ (c : Core) (os : List Core) (a : List Ev), ps.foldl (fun (t : State) p => t.killCore id p) s = { s with core := c, others := os, agenda := a } ∧
      (c :: os).Perm (s.cores.map (Core.killedAmong ps id s.dcc)) ∧ (∀ e ∈ s.agenda, e ∈ a) ∧ Requested s ps id a
  | [], s, _, _, _ => by
    refine ⟨s.core, s.others, s.agenda, rfl, ?_, fun _ h => h, fun c _ hc => absurd hc List.not_mem_nil⟩
    have hid : Core.killedAmong [] id s.dcc = fun c => c := funext fun c => if_neg List.not_mem_nil
    rw [hid, List.map_id']
    exact List.Perm.refl _
  | p :: ps, s, hd, hsub, hnd => by
    obtain ⟨hp, hnd⟩ := List.nodup_cons.1 hnd
    obtain ⟨c, os, a, hk, hphys, hperm, hmono, hev⟩ := State.killCore_eq (id := id) hd (hsub List.mem_cons_self)
    let u : State := { s with core := c.killedWith id s.dcc, others := os, agenda := a }
    have hcores : u.cores.Perm (s.cores.map (Core.killedAmong [p] id s.dcc)) := killCore_cores hd hphys hperm
    have hkeys : (u.cores.map Core.phys).Perm (s.cores.map Core.phys) := by
      have h := hcores.map Core.phys
      rwa [List.map_map, show (Core.phys ∘ Core.killedAmong [p] id s.dcc) = Core.phys from
        funext (Core.killedAmong_phys [p] id s.dcc)] at h
    obtain ⟨c', os', a', hf, hperm', hmono', hev'⟩ := State.killCores_eq id ps u (hkeys.nodup_iff.2 hd)
      (fun q hq => hkeys.mem_iff.2 (hsub (List.mem_cons_of_mem p hq))) hnd
    refine ⟨c', os', a', ?_, ?_, fun e he => hmono' e (hmono e he), fun d hdc hq hl hr hs => ?_⟩
    · rw [List.foldl_cons, hk]
      exact hf
    · refine hperm'.trans ?_
      have h := hcores.map (Core.killedAmong ps id s.dcc)
      rwa [List.map_map, show (Core.killedAmong ps id s.dcc ∘ Core.killedAmong [p] id s.dcc) =
        Core.killedAmong (p :: ps) id s.dcc from funext (Core.killedAmong_cons hp id s.dcc)] at h
    · by_cases hdp : d.phys = p
      · have hcd : c = d := List.inj_on_of_nodup_map hd (hperm.mem_iff.1 List.mem_cons_self) hdc (hphys.trans hdp.symm)
        obtain ⟨e, he, hact, htgt, hdue⟩ := hev (hcd ▸ hl) (hcd ▸ hr) (hcd ▸ hs)
        exact ⟨e, hmono' e he, hact, htgt.trans (by rw [hdp]), hdue⟩
      · have hdu : d ∈ u.cores := hcores.mem_iff.2 (List.mem_map.2 ⟨d, hdc, if_neg (by simpa using hdp)⟩)
        exact hev' d hdu ((List.mem_cons.1 hq).resolve_left hdp) hl hr hs

/-- The launch is killed at every core. -/
theorem State.killLaunch_eq {s : State} (hd : (s.cores.map Core.phys).Nodup) (id : Nat) (cause : BitVec 8) :
    ∃ (os : List Core) (a : List Ev), s.killLaunch id cause = { s with
        disp := (s.onLaunch id fun l => { l with state := .killed, cause := cause }).disp
        core := s.core.killedWith id s.dcc, others := os, agenda := a
        saved := s.saved.map fun (c : Core) => if c.launch == id && (c.life == .saved || c.life == .parked) then { c with life := .killed } else c } ∧
      Requested s (s.cores.map Core.phys) id a := by
  let u : State := { s.onLaunch id (fun l => { l with state := .killed, cause := cause }) with
    saved := s.saved.map fun (c : Core) => if c.launch == id && (c.life == .saved || c.life == .parked) then { c with life := .killed } else c }
  have hall : ∀ c ∈ s.cores, c.killedAmong (s.cores.map Core.phys) id s.dcc = c.killedWith id s.dcc := fun c hc =>
    if_pos (List.mem_map.2 ⟨c, hc, rfl⟩)
  obtain ⟨c, os, a, hf, hperm, -, hreq⟩ := State.killCores_eq id (s.cores.map Core.phys) u hd (List.Subset.refl _) hd
  let v : State := { u with core := c, others := os, agenda := a }
  have hv : v.cores.Perm (s.cores.map (Core.killedAmong (s.cores.map Core.phys) id s.dcc)) := hperm
  have hkeys : (v.cores.map Core.phys).Perm (s.cores.map Core.phys) := by
    have h := hv.map Core.phys
    rwa [List.map_map, show (Core.phys ∘ Core.killedAmong (s.cores.map Core.phys) id s.dcc) = Core.phys from
      funext (Core.killedAmong_phys _ id s.dcc)] at h
  obtain ⟨d, ds, hfocus, hphys, hperm'⟩ := State.focusPhys_perm (s := v) (n := s.core.phys) (hkeys.nodup_iff.2 hd)
    (hkeys.mem_iff.2 List.mem_cons_self)
  have hdk : d = s.core.killedWith id s.dcc := by
    obtain ⟨e, he, hed⟩ := List.mem_map.1 (hv.mem_iff.1 (hperm'.mem_iff.1 List.mem_cons_self))
    have hes : e = s.core := List.inj_on_of_nodup_map hd he List.mem_cons_self
      ((e.killedAmong_phys _ id s.dcc).symm.trans ((congrArg Core.phys hed).trans hphys))
    rw [← hed, hall e he, hes]
  refine ⟨ds, a, ?_, hreq⟩
  rw [← hdk]
  exact (congrArg (fun t : State => t.focusPhys s.core.phys) hf).trans hfocus

/-- A core whose context a kill has stopped. -/
def Core.killedAt (c : Core) (x : Stop) (k : Block) : Core := { c with life := .killed, walk := none, blk := k, stop := some x }

/-- A launch that is killed: in the dispatcher, on the core in focus, in what is saved, and by the requests to its other cores. -/
structure LaunchKilled (s t : State) (l : Launch) (cause : BitVec 8) : Prop where
  entry : ∃ m, t.launchOf l.id = some m ∧ m.state = .killed ∧ m.cause = cause
  core : t.core.life = .killed
  saved : ∀ c ∈ t.saved, c.launch = l.id → c.life ≠ .saved ∧ c.life ≠ .parked
  others : ∀ c ∈ s.others, c.launch = l.id → c.life = .running → c.stop = none →
    ∃ e ∈ t.agenda, e.act = .preemptArrival ∧ e.target = .phys c.phys ∧ e.due = s.dcc + 40

/-- The context of a trap that kills stops. -/
theorem State.killStop_eq (s : State) (t0 : Nat) : ∃ x k a, (s.onCore fun c => c.withStop s.dcc fun x => { x with kill := true }).beginSave t0 =
    { s with core := s.core.killedAt x k, agenda := a } ∧ x.kill = true ∧ x.at_ = t0 := by
  obtain ⟨k, a, h, -⟩ := (s.onCore fun c => c.withStop s.dcc fun x => { x with kill := true }).beginSave_eq t0
  exact ⟨_, k, a, h, rfl, rfl⟩

/-- A core that is killed already, with the kill of its launch. -/
theorem Core.killedAt_killedWith (c : Core) (x : Stop) (k : Block) (id dcc : Nat) : ∃ i,
    (c.killedAt x k).killedWith id dcc = c.killedAt { x with incoming := i } k := by
  obtain ⟨y, hy, -, hsome⟩ := (c.killedAt x k).unawaiting_eq id
  obtain ⟨i, hi⟩ := hsome x rfl
  refine ⟨i, ?_⟩
  rw [Core.killedWith_killed rfl, hy, hi]
  rfl

/-- The launch of a stopped context is killed. -/
theorem State.killLaunch_kills {s : State} (hd : (s.cores.map Core.phys).Nodup) {l : Launch} (hl : s.launch = some l) (x : Stop) (k : Block)
    (a : List Ev) (cause : BitVec 8) : ∃ i d os sv a',
    let t := State.killLaunch { s with core := s.core.killedAt x k, agenda := a } l.id cause
    t = { s with core := s.core.killedAt { x with incoming := i } k, disp := d, others := os, saved := sv, agenda := a' } ∧
      LaunchKilled s t l cause := by
  let u : State := { s with core := s.core.killedAt x k, agenda := a }
  obtain ⟨i, hi⟩ := s.core.killedAt_killedWith x k l.id s.dcc
  obtain ⟨os, a', h, hreq⟩ := State.killLaunch_eq (s := u) hd l.id cause
  rw [show u.core.killedWith l.id u.dcc = _ from hi] at h
  refine ⟨i, _, os, _, a', h, ?_⟩
  rw [h]
  refine ⟨?_, rfl, fun c hc hcl => ?_, fun c hc => hreq c (List.mem_cons_of_mem _ hc) (List.mem_cons_of_mem _ (List.mem_map.2 ⟨c, hc, rfl⟩))⟩
  · have hfound : s.launchOf l.id = some l := by
      rw [State.launch_id hl]
      exact hl
    refine ⟨{ l with state := .killed, cause := cause }, ?_, rfl, rfl⟩
    exact (State.launchOf_onLaunch s l.id (fun l => { l with state := .killed, cause := cause }) fun _ => rfl).trans (by rw [hfound]; rfl)
  · obtain ⟨b, -, rfl⟩ := List.mem_map.1 hc
    have hbl : b.launch = l.id := by split at hcl <;> exact hcl
    split
    next => exact ⟨Life.noConfusion, Life.noConfusion⟩
    next hb =>
      rw [hbl, beq_self_eq_true, Bool.true_and, Bool.or_eq_true, beq_iff_eq, beq_iff_eq, not_or] at hb
      exact hb

/-- KILL by a trap of the focused context. -/
theorem State.kill_eq {s : State} (hd : (s.cores.map Core.phys).Nodup) (cause : BitVec 8) (opened : Bool) : ∃ x k d os sv a,
    s.kill cause opened = { s with core := s.core.killedAt x k, disp := d, others := os, saved := sv, agenda := a } ∧
      x.kill = true ∧ x.at_ = (if opened then s.dcc + 64 else s.lastResult) ∧
      ∀ l, s.launch = some l → l.state ≠ .killed → LaunchKilled s (s.kill cause opened) l cause := by
  obtain ⟨x, k, a, hstop, hkill, hat⟩ := s.killStop_eq (if opened then s.dcc + 64 else s.lastResult)
  unfold State.kill
  dsimp only
  rw [hstop, show State.launch { s with core := s.core.killedAt x k, agenda := a } = s.launch from rfl]
  cases hl : s.launch with
  | none => exact ⟨x, k, s.disp, s.others, s.saved, a, rfl, hkill, hat, fun _ h => nomatch h⟩
  | some l =>
    dsimp only
    split
    next hs => exact ⟨x, k, s.disp, s.others, s.saved, a, rfl, hkill, hat, fun m h hm => absurd (Option.some.inj h ▸ hs) hm⟩
    next =>
      obtain ⟨i, d, os, sv, a', h, hk⟩ := State.killLaunch_kills hd hl x k a cause
      exact ⟨{ x with incoming := i }, k, d, os, sv, a', h, hkill, hat, fun m hm _ => Option.some.inj hm ▸ hk⟩

/-- A launch killed from a state that stands behind another, with its groups changed at most. -/
theorem LaunchKilled.of_behind {s u t : State} {cause : BitVec 8} (hl : u.core.launch = s.core.launch) (hsame : SameLaunches s u)
    (hothers : u.others = s.others) (hdcc : u.dcc = s.dcc) (h : ∀ l, u.launch = some l → l.state ≠ .killed → LaunchKilled u t l cause)
    {l : Launch} (hs : s.launch = some l) (hk : l.state ≠ .killed) : LaunchKilled s t l cause := by
  obtain ⟨g, hg⟩ := hsame s.core.launch
  have hu : u.launch = some (l.withGroups g) := by
    rw [State.launch, hl, hg, show s.launchOf s.core.launch = some l from hs]
    rfl
  obtain ⟨hentry, hcore, hsaved, hreq⟩ := h (l.withGroups g) hu hk
  rw [hothers, hdcc] at hreq
  exact ⟨hentry, hcore, hsaved, hreq⟩

section
variable {s : State} {r : TrapRec} (ht : s.core.trap = some r) (hl : s.core.life = .running) (hc : r.cause ≠ 0x13)
include ht hl hc

/-- What a KILL leaves: its context is stopped, the host has been told, and the launch is killed. -/
theorem closeTrap_killed (h : s.actionFor r = .kill) (hd : (s.cores.map Core.phys).Nodup) :
    let t := s.closeTrap
    (∃ x k, t.core = (s.atTrap r).core.killedAt x k ∧ x.kill = true ∧ (s.inRegion = true → x.at_ = s.dcc + 64)) ∧ SameBytes s t ∧
      (∀ l, s.launch = some l → l.state ≠ .killed → LaunchKilled s t l r.cause) ∧ Tells s t r (s.atTrap r).core.savedPc := by
  obtain ⟨-, ⟨-, hlaunch, hlcore, -⟩, hphys, -, ⟨m, d, a, hrest⟩, hsame, -, -, hls⟩ := s.atTrap_keeps r
  obtain ⟨n, b, hfwd⟩ := (s.atTrap r).forwardOwn_eq r
  have htell := State.forwardOwn_tells (t := s.atTrap r) (by rw [hrest]) (by rw [hrest]) (by rw [hrest]) hlaunch hlcore hsame r
  obtain ⟨u, hu⟩ : ∃ u, u = (s.atTrap r).forwardOwn r := ⟨_, rfl⟩
  have hclose : s.closeTrap = u.kill r.cause s.core.reg.isOpen := (State.closeTrap_eq ht hl hc).trans (by rw [h, State.acted, hu])
  rw [← hu] at htell
  rw [hfwd, hrest] at hu
  dsimp only at hu
  have hd' : (u.cores.map Core.phys).Nodup := by
    rw [hu]
    show ((s.atTrap r).core.phys :: s.others.map Core.phys).Nodup
    rw [hphys]
    exact hd
  obtain ⟨x, k, d', os, sv, a', hk, hkill, hat, hlk⟩ := State.kill_eq hd' r.cause s.core.reg.isOpen
  have hsame' : SameLaunches s u := hsame.trans (SameLaunches.of_disp (by rw [hu, hrest]))
  intro t
  rw [show t = _ from hclose]
  refine ⟨⟨x, k, ?_, hkill, fun hr => ?_⟩, ?_, fun l hs hlk' => ?_, ?_⟩
  · rw [hk, hu]
  · rw [hat, if_pos (show s.core.reg.isOpen = true from hr), hu]
  · rw [hk, hu]
    exact ⟨fun _ => rfl, fun _ => rfl, hls⟩
  · exact LaunchKilled.of_behind (by rw [hu]; exact hlaunch) hsame' (by rw [hu]) (by rw [hu]) hlk hs hlk'
  · rw [hk]
    exact htell

end

/-- Settles O45, action by action. -/
theorem trapsAreClosed : Obligations.TrapsAreClosed := by
  intro s r ht hl hc i own code act stored t relaxed told decides parks killed
  have hkilled : (∀ l, s.launch = some l → l.state ≠ .killed → LaunchKilled s t l r.cause) → killed := fun h l hs hk =>
    ⟨(h l hs hk).entry, (h l hs hk).core, (h l hs hk).saved, (h l hs hk).others⟩
  refine ⟨fun _ hs => State.actionFor_default hs, fun hi h0 h15 l hs => State.actionFor_launch hs (fixedCause_eq_false hi h0 h15 hc),
    fun hr ha => closeTrap_reenters ht hl hc hr ha, fun hr hb ha hacc hlock hlim => closeTrap_bundle ht hl hc hr hb ha hacc hlock hlim,
    fun hr hb ha id hacc => closeTrap_access ht hl hc hr hb ha id hacc, fun hr _ ha => ?_, fun hr ha hk => ?_, fun hr _ ha hd => ?_, fun hr ha hd => ?_⟩
  · obtain ⟨htrap, hbytes, hparks, hp, hf⟩ := closeTrap_parked ht hl hc ha
    rw [State.atTrap_savedPc_boundary hr] at hf
    exact ⟨htrap, hbytes, hparks, hp, hf⟩
  · obtain ⟨htrap, hbytes, hparks, hp, hf⟩ := closeTrap_parked ht hl hc ha
    obtain ⟨hclosed, hlife, hrep, hcause, hrelax, hregs, hpc, hheld, hres⟩ := closeTrap_parked_region ht hl hc hr ha hk
    refine ⟨hclosed, htrap, hlife, hrep, hcause, hrelax, hregs, hpc, hheld, hbytes, hparks, hres, hp, fun ha' hlayer => ?_⟩
    rw [← State.atTrap_savedPc_region hr hlayer r]
    exact hf ha'
  · obtain ⟨⟨x, k, hcore, -, -⟩, hbytes, hlk, htell⟩ := closeTrap_killed ht hl hc ha hd
    rw [State.atTrap_savedPc_boundary hr] at htell
    exact ⟨(congrArg Core.trap hcore).trans (s.atTrap_keeps r).trap, hbytes, hkilled hlk, htell⟩
  · obtain ⟨⟨x, k, hcore, hx, hat⟩, hbytes, hlk, htell⟩ := closeTrap_killed ht hl hc ha hd
    obtain ⟨hclosed, hregs, hpc, hheld, -⟩ := State.atTrap_discards hr r
    refine ⟨(congrArg (fun c : Core => c.reg.isOpen) hcore).trans hclosed, (congrArg Core.trap hcore).trans (s.atTrap_keeps r).trap,
      (congrArg (fun c : Core => c.arch.s) hcore).trans hregs, (congrArg Core.held hcore).trans hheld, hbytes, hkilled hlk,
      ⟨x, congrArg Core.stop hcore, hx, hat hr⟩, fun hlayer => ?_⟩
    rw [← State.atTrap_savedPc_region hr hlayer r]
    exact htell

end Sys2Proof.Machine
end

section
namespace Sys2Proof.Machine

/-! Numbers of an image, and of memory (R5). -/

theorem leNat_leBytes (n v : Nat) : leNat (leBytes n v) = v % 256 ^ n := by
  induction n generalizing v with
  | zero => rw [Nat.pow_zero, Nat.mod_one]; rfl
  | succ n ih =>
    rw [leBytes, leNat, ih, BitVec.toNat_ofNat]
    exact Nat.mod_mul.symm.trans (congrArg (v % ·) Nat.pow_succ'.symm)

theorem leWord_leBytes (w : Word) : leWord (leBytes 8 w.toNat) = w := by
  rw [leWord, leNat_leBytes, Nat.mod_eq_of_lt (Nat.lt_of_lt_of_eq w.isLt (by decide)), BitVec.ofNat_toNat, BitVec.setWidth_eq]

/-- What stands in a list behind a part of its own length. -/
theorem slice_of_eq {α : Type} {l pre w post : List α} {k n : Nat} (h : l = pre ++ (w ++ post)) (hk : pre.length = k) (hn : w.length = n) :
    (l.drop k).take n = w := by
  rw [h, List.drop_left' hk, List.take_left' hn]

theorem slice_append {α : Type} {l pre seg post : List α} {k j n : Nat} (h : l = pre ++ (seg ++ post)) (hk : pre.length = k)
    (hj : j + n ≤ seg.length) : (l.drop (k + j)).take n = (seg.drop j).take n := by
  rw [h, ← List.drop_drop, List.drop_left' hk, List.drop_append_of_le_length (by omega),
    List.take_append_of_le_length (by rw [List.length_drop]; omega)]

theorem flatMap_split {α β : Type} (l : List α) (f : α → List β) {i : Nat} (h : i < l.length) :
    l.flatMap f = (l.take i).flatMap f ++ (f l[i] ++ (l.drop (i + 1)).flatMap f) := by
  conv_lhs => rw [← List.take_append_drop i l, ← List.cons_getElem_drop_succ (h := h)]
  rw [List.flatMap_append, List.flatMap_cons]

theorem length_flatMap_of_forall {α β : Type} {l : List α} {f : α → List β} {n : Nat} (h : ∀ x ∈ l, (f x).length = n) :
    (l.flatMap f).length = n * l.length := by
  rw [List.length_flatMap, List.map_congr_left h, List.map_const', List.sum_replicate, Nat.mul_comm, smul_eq_mul]

theorem Mem.readBytes_writeBytes {m : Mem} (hm : Mem.wf m = true) {o k n : Nat} {bs : List Byte} (h : k + n ≤ bs.length) :
    (m.writeBytes o bs).readBytes (o + k) n = (bs.drop k).take n := by
  refine List.ext_getElem (by rw [Mem.length_readBytes, List.length_take, List.length_drop]; omega) fun i hi _ => ?_
  rw [Mem.length_readBytes] at hi
  rw [List.getElem_take, List.getElem_drop, ← List.getD_eq_getElem _ 0 (by rwa [Mem.length_readBytes]), Mem.getD_readBytes _ hi,
    Mem.read_writeBytes hm, if_pos (by omega), show o + k + i - o = k + i by omega, List.getD_eq_getElem]

theorem Mem.slice_readBytes (m : Mem) {o k n len : Nat} (h : k + n ≤ len) : ((m.readBytes o len).drop k).take n = m.readBytes (o + k) n := by
  refine List.ext_getElem (by rw [Mem.length_readBytes, List.length_take, List.length_drop, Mem.length_readBytes]; omega) fun i hi hj => ?_
  rw [Mem.length_readBytes] at hj
  rw [List.getElem_take, List.getElem_drop]
  simp only [Mem.readBytes, List.getElem_map, List.getElem_range]
  rw [Nat.add_assoc]

/-! The image of a context (R174). -/

theorem length_fillTo (k o e : Nat) (bs : List Byte) : (fillTo k o e bs).length = e - o := by
  rw [fillTo, List.length_take, List.length_append, List.length_map, List.length_range]
  omega

theorem length_words (ws : List Word) : (ws.flatMap fun w => leBytes 8 w.toNat).length = 8 * ws.length :=
  length_flatMap_of_forall fun _ _ => length_leBytes 8 _

theorem length_words4 (ws : List Nat) : (ws.flatMap (leBytes 4)).length = 4 * ws.length :=
  length_flatMap_of_forall fun _ _ => length_leBytes 4 _

/-- Offsets 0x500 to 0xFFF of an image: flags, chisel state, arrival records, tags, and what re-entry and replay keep. -/
def Core.imageMid (c : Core) (k : Nat) : List Byte :=
  let a := c.arch
  let r := c.replay
  let w4 (ws : List Nat) : List Byte := ws.flatMap (leBytes 4)
  w4 (a.flags.toList.map EFlag.word) ++
  w4 (a.ports.toList.flatMap fun p => (p.k.toList ++ p.c.toList).map BitVec.toNat) ++
  w4 (a.slots.toList.flatMap fun t => [t.ctl.toNat + t.sflg.toNat * 2 ^ 24, t.pstat.toNat % 2 ^ 16]) ++
  c.arr.toList.flatMap (fun r => leBytes 2 (bit r.pending * 2 ^ 9 + bit r.valid * 2 ^ 8 + r.gen.toNat)) ++
  (List.range 16).flatMap (fun i => fillTo k (0x800 + 64 * i) (0x840 + 64 * i)
    (w4 (((a.slots.toList.getD i ChiselSlot.empty).prog).map BitVec.toNat))) ++
  leBytes 4 ((List.range 4).foldl (fun n i => n + (c.acc.toList.getD i Acc.empty).tag.toNat * 2 ^ (6 * i))
    (bit c.barPending * 2 ^ 31)) ++
  leBytes 4 (bit r.repend + bit r.relax * 2 + r.cause.toNat * 2 ^ 8 + r.mism.toNat * 2 ^ 16 + r.count.toNat * 2 ^ 24) ++
  List.replicate 1016 0

theorem Core.length_imageMid (c : Core) (k : Nat) : (c.imageMid k).length = 0xB00 := by
  have hports : (c.arch.ports.toList.flatMap fun p => (p.k.toList ++ p.c.toList).map BitVec.toNat).length = 12 * 4 := by
    rw [length_flatMap_of_forall (n := 12) fun p _ => by simp, Vector.length_toList]
  have hslots : (c.arch.slots.toList.flatMap fun t => [t.ctl.toNat + t.sflg.toNat * 2 ^ 24, t.pstat.toNat % 2 ^ 16]).length = 2 * 16 := by
    rw [length_flatMap_of_forall (n := 2) fun p _ => rfl, Vector.length_toList]
  have harr : (c.arr.toList.flatMap fun r => leBytes 2 (bit r.pending * 2 ^ 9 + bit r.valid * 2 ^ 8 + r.gen.toNat)).length = 2 * 96 := by
    rw [length_flatMap_of_forall (n := 2) fun p _ => length_leBytes 2 _, Vector.length_toList]
  have hprogs : ((List.range 16).flatMap fun i => fillTo k (0x800 + 64 * i) (0x840 + 64 * i)
      ((((c.arch.slots.toList.getD i ChiselSlot.empty).prog).map BitVec.toNat).flatMap (leBytes 4))).length = 64 * 16 := by
    rw [length_flatMap_of_forall (n := 64) fun i _ => by rw [length_fillTo]; omega, List.length_range]
  unfold Core.imageMid
  dsimp only
  simp only [List.length_append, length_words4, List.length_map, Vector.length_toList, hports, hslots, harr, hprogs, length_leBytes,
    List.length_replicate]

/-- The words of the registers, of the handles and of the templates in an image. -/
def Core.imageRegs (c : Core) : List Word := (List.range 64).map fun i => c.arch.sreg (BitVec.ofNat 6 i)

def Core.imageHandles (c : Core) : List Byte := c.arch.h.toList.flatMap fun h => [handleWord0 h, handleWord1 h].flatMap fun w => leBytes 8 w.toNat

def Core.imageTmpls (c : Core) : List Byte := c.arch.tmpl.toList.flatMap fun t => (recWords t).flatMap fun w => leBytes 8 w.toNat

/-- Offsets 0x210 to 0x2FF, the mask stack, and 0x400 to 0x4FF, the CSRs. -/
def Core.imageMasks (c : Core) (k : Nat) : List Byte := fillTo k 0x210 0x300 (c.arch.mask.reverse.flatMap maskBytes)

def Core.imageStat (c : Core) (dcc k : Nat) : List Byte := fillTo k 0x400 0x500 ((c.imageCsrs dcc).flatMap fun w => leBytes 8 w.toNat)

/-- The parts of an image. -/
theorem Core.image_eq (c : Core) (dcc k : Nat) : c.image dcc k =
    c.imageRegs.flatMap (fun w => leBytes 8 w.toNat) ++ (leBytes 8 c.savedPc.toNat ++ (leBytes 8 (c.arch.p.toNat + c.arch.mask.length * 2 ^ 8) ++
      (c.imageMasks k ++ (c.imageHandles ++ (c.imageStat dcc k ++ (c.imageMid k ++ c.imageTmpls)))))) := by
  simp only [Core.image, Core.imageMid, Core.imageRegs, Core.imageHandles, Core.imageTmpls, Core.imageMasks, Core.imageStat, List.append_assoc]

section
variable (c : Core) (dcc k : Nat)

theorem Core.length_imageRegs : (c.imageRegs.flatMap fun w => leBytes 8 w.toNat).length = 0x200 := by
  rw [length_words, Core.imageRegs, List.length_map, List.length_range]

theorem Core.length_imageHandles : c.imageHandles.length = 0x100 := by
  rw [Core.imageHandles, length_flatMap_of_forall (n := 16) fun h _ => length_words _, Vector.length_toList]

theorem Core.length_imageTmpls : c.imageTmpls.length = 0x1000 := by
  rw [Core.imageTmpls, length_flatMap_of_forall (n := 64) fun t _ => length_words _, Vector.length_toList]

theorem Core.length_image : (c.image dcc k).length = 8192 := by
  rw [c.image_eq]
  simp only [List.length_append, c.length_imageRegs, c.length_imageHandles, c.length_imageTmpls, length_leBytes, Core.imageMasks,
    Core.imageStat, length_fillTo, c.length_imageMid]

/-- The words of an image: s(r), the PC, the predicates with the depth of the mask stack, the handles and the templates. -/
theorem Core.image_sreg (r : Reg) : ((c.image dcc k).drop (8 * r.toNat)).take 8 = leBytes 8 (c.arch.sreg r).toNat := by
  have hr : r.toNat < c.imageRegs.length := by
    rw [Core.imageRegs, List.length_map, List.length_range]
    exact r.isLt
  have hw : c.imageRegs[r.toNat] = c.arch.sreg r := by
    simp only [Core.imageRegs, List.getElem_map, List.getElem_range, BitVec.ofNat_toNat, BitVec.setWidth_eq]
  have h := c.image_eq dcc k
  rw [flatMap_split c.imageRegs _ hr, hw, List.append_assoc, List.append_assoc] at h
  refine slice_of_eq h ?_ (length_leBytes 8 _)
  rw [length_words, List.length_take, Nat.min_eq_left hr.le]

theorem Core.image_pc : ((c.image dcc k).drop 0x200).take 8 = leBytes 8 c.savedPc.toNat :=
  slice_of_eq (c.image_eq dcc k) c.length_imageRegs (length_leBytes 8 _)

theorem Core.image_preds : ((c.image dcc k).drop 0x208).take 8 = leBytes 8 (c.arch.p.toNat + c.arch.mask.length * 2 ^ 8) := by
  refine slice_of_eq ((c.image_eq dcc k).trans (List.append_assoc _ _ _).symm) ?_ (length_leBytes 8 _)
  rw [List.length_append, c.length_imageRegs, length_leBytes]

theorem Core.image_handle (h : HReg) : ((c.image dcc k).drop (0x300 + 16 * h.toNat)).take 8 = leBytes 8 (handleWord0 (c.arch.hreg h)).toNat := by
  have hh : h.toNat < c.arch.h.toList.length := by
    rw [Vector.length_toList]
    exact h.isLt
  let pre := c.imageRegs.flatMap (fun w => leBytes 8 w.toNat) ++ leBytes 8 c.savedPc.toNat ++
    leBytes 8 (c.arch.p.toNat + c.arch.mask.length * 2 ^ 8) ++ c.imageMasks k
  have himg : c.image dcc k = pre ++ (c.imageHandles ++ (c.imageStat dcc k ++ (c.imageMid k ++ c.imageTmpls))) := by
    simp only [pre, List.append_assoc]
    exact c.image_eq dcc k
  have hpre : pre.length = 0x300 := by
    simp only [pre, List.length_append, c.length_imageRegs, length_leBytes, Core.imageMasks, length_fillTo]
  have hsplit := flatMap_split c.arch.h.toList (fun h => [handleWord0 h, handleWord1 h].flatMap fun w => leBytes 8 w.toNat) hh
  rw [List.flatMap_cons, List.append_assoc] at hsplit
  rw [slice_append himg hpre (by rw [c.length_imageHandles]; omega)]
  refine slice_of_eq hsplit ?_ (length_leBytes 8 _)
  rw [length_flatMap_of_forall (n := 16) fun h _ => length_words _, List.length_take, Nat.min_eq_left hh.le]

theorem Core.image_tmpl (n : BitVec 6) : ((c.image dcc k).drop (0x1000 + 64 * n.toNat)).take 8 = leBytes 8 (c.arch.tmpl.get n.toFin).w0.toNat := by
  have hn : n.toNat < c.arch.tmpl.toList.length := by
    rw [Vector.length_toList]
    exact n.isLt
  let pre := c.imageRegs.flatMap (fun w => leBytes 8 w.toNat) ++ leBytes 8 c.savedPc.toNat ++
    leBytes 8 (c.arch.p.toNat + c.arch.mask.length * 2 ^ 8) ++ c.imageMasks k ++ c.imageHandles ++ c.imageStat dcc k ++ c.imageMid k
  have himg : c.image dcc k = pre ++ (c.imageTmpls ++ []) := by
    simp only [pre, List.append_assoc, List.append_nil]
    exact c.image_eq dcc k
  have hpre : pre.length = 0x1000 := by
    simp only [pre, List.length_append, c.length_imageRegs, c.length_imageHandles, c.length_imageMid, length_leBytes, Core.imageMasks,
      Core.imageStat, length_fillTo]
  have hsplit := flatMap_split c.arch.tmpl.toList (fun t => (recWords t).flatMap fun w => leBytes 8 w.toNat) hn
  rw [recWords, List.flatMap_cons, List.append_assoc] at hsplit
  rw [slice_append himg hpre (by rw [c.length_imageTmpls]; omega)]
  refine slice_of_eq hsplit ?_ (length_leBytes 8 _)
  rw [length_flatMap_of_forall (n := 64) fun t _ => length_words _, List.length_take, Nat.min_eq_left hn.le]

end

/-! CTXSAVE and CTXLOAD. -/

theorem exec_ctxsave (a : Reg) (s : State) : exec (.ctxsave a) s = execCtxsave a s := rfl
theorem exec_ctxload (a : Reg) (s : State) : exec (.ctxload a) s = execCtxload a s := rfl

theorem imageOffset_iff (v : Word) : imageOffset v = true ↔ v.toNat % 8192 = 0 ∧ v.toNat + 8192 ≤ 0x60000 := by
  rw [imageOffset, Bool.and_eq_true, beq_iff_eq, decide_eq_true_iff]

section
variable {s : State} {a : Reg}

/-- Neither may be run by the user context, nor at an offset that holds no image. -/
theorem imageFaults : TrapsWith (.ctxsave a) 0x02 0 s ∧ TrapsWith (.ctxload a) 0x02 0 s ∧
    ((s.src a).toNat % 8192 ≠ 0 ∨ 0x60000 < (s.src a).toNat + 8192 → AbandonsWith (.ctxsave a) 0x01 s ∧ AbandonsWith (.ctxload a) 0x01 s) := by
  refine ⟨trapsWith_of_fault fun hf => ?_, trapsWith_of_fault fun hf => ?_, fun h => ?_⟩
  · rw [exec_ctxsave, execCtxsave, hf]
    rfl
  · rw [exec_ctxload, execCtxload, hf]
    rfl
  · have ho : imageOffset (s.src a) = false := by
      rw [← Bool.not_eq_true, imageOffset_iff]
      omega
    refine ⟨abandonsWith_of_fault (d := 0) fun hf => ?_, abandonsWith_of_fault (d := 0) fun hf => ?_⟩
    · rw [exec_ctxsave, execCtxsave, hf, ho]
      rfl
    · rw [exec_ctxload, execCtxload, hf, ho]
      rfl

variable (hf : s.firmware = true) (ho : (s.src a).toNat % 8192 = 0) (hr : (s.src a).toNat + 8192 ≤ 0x60000)
include hf ho hr

theorem ctxsave_saves (hl : s.core.life = .halted ∨ s.core.life = .parked ∨ s.core.life = .saving) :
    exec (.ctxsave a) s = .next (s.saveImage (s.src a).toNat).imageBusy := by
  have hoff := (imageOffset_iff (s.src a)).2 ⟨ho, hr⟩
  rw [exec_ctxsave, execCtxsave, hf, hoff]
  rcases hl with hl | hl | hl <;> rw [hl] <;> rfl

end

/-- The state with bytes written to the local store, 256 cycles being taken. -/
theorem State.localWrite_busy (s : State) (o n : Nat) (bs : List Byte) : ∃ bad, State.imageBusy { s.localWrite o bs with free := n } = { s with
    free := n
    core := { s.core with
      ls := { s.core.ls with mem := s.core.ls.mem.writeBytes o bs, poison := bad }, hz := { s.core.hz with issueAt := s.dcc + 256 } } } :=
  ⟨_, rfl⟩

/-- The state after CTXSAVE. -/
theorem ctxsave_eq {s : State} {a : Reg} (hf : s.firmware = true) (ho : (s.src a).toNat % 8192 = 0) (hr : (s.src a).toNat + 8192 ≤ 0x60000)
    (hl : s.core.life = .halted ∨ s.core.life = .parked ∨ s.core.life = .saving) : ∃ bs bad n, bs = (s.core.swapFirmware .user).image s.dcc s.free ∧
    exec (.ctxsave a) s = .next { s with
      free := n
      core := { s.core with
        ls := { s.core.ls with mem := s.core.ls.mem.writeBytes (s.src a).toNat bs, poison := bad }
        hz := { s.core.hz with issueAt := s.dcc + 256 } } } := by
  obtain ⟨bad, h⟩ := s.localWrite_busy (s.src a).toNat (s.free + 8192) ((s.core.swapFirmware .user).image s.dcc s.free)
  exact ⟨_, bad, _, rfl, (ctxsave_saves hf ho hr hl).trans (congrArg Host.Outcome.next h)⟩

/-- What an image that has been written reads as. -/
theorem savedImage_reads {m : Mem} (hm : Mem.wf m = true) (u : Core) (o dcc k : Nat) :
    let word := fun (i : Nat) => leWord ((m.writeBytes o (u.image dcc k)).readBytes (o + i) 8)
    (∀ r : Reg, word (8 * r.toNat) = u.arch.sreg r) ∧ word 0x200 = u.savedPc ∧
    word 0x208 = BitVec.ofNat 64 (u.arch.p.toNat + u.arch.mask.length * 256) ∧
    (∀ h : HReg, (word (0x300 + 16 * h.toNat)).extractLsb' 12 40 = (u.arch.hreg h).pbase ∧
      (word (0x300 + 16 * h.toNat)).getLsbD 63 = (u.arch.hreg h).v) ∧
    (∀ n : BitVec 6, word (0x1000 + 64 * n.toNat) = (u.arch.tmpl.get n.toFin).w0) ∧
    (∀ x, x < o ∨ o + 8192 ≤ x → (m.writeBytes o (u.image dcc k)).read x = m.read x) := by
  have hlen := u.length_image dcc k
  have hslice : ∀ i, i + 8 ≤ 8192 → (m.writeBytes o (u.image dcc k)).readBytes (o + i) 8 = ((u.image dcc k).drop i).take 8 :=
    fun i hi => Mem.readBytes_writeBytes hm (by rw [hlen]; exact hi)
  intro word
  refine ⟨fun r => ?_, ?_, ?_, fun h => ?_, fun n => ?_, fun x hx => ?_⟩
  · rw [show word _ = _ from congrArg leWord (hslice _ (by omega)), u.image_sreg, leWord_leBytes]
  · rw [show word _ = _ from congrArg leWord (hslice _ (by omega)), u.image_pc, leWord_leBytes]
  · rw [show word _ = _ from congrArg leWord (hslice _ (by omega)), u.image_preds, leWord, leNat_leBytes]
    refine BitVec.eq_of_toNat_eq ?_
    rw [BitVec.toNat_ofNat, BitVec.toNat_ofNat]
    exact Nat.mod_mod_of_dvd _ (Dvd.intro 1 (by decide))
  · rw [show word _ = _ from congrArg leWord (hslice _ (by omega)), u.image_handle, leWord_leBytes]
    obtain ⟨hv, -, -, -, -, -, hp, -⟩ := handleWord0_fields (u.arch.hreg h)
    exact ⟨hp, hv⟩
  · rw [show word _ = _ from congrArg leWord (hslice _ (by omega)), u.image_tmpl, leWord_leBytes]
  · rw [Mem.read_writeBytes hm, if_neg (by rw [hlen]; omega)]

/-- What the firmware context makes of the user context is what the user context then is. -/
theorem Core.asUser_eq {c : Core} (hc : c.mode = .firmware) (f : Core → Core) (hf : (f (c.swapFirmware .user)).mode = .user) :
    let d := f (c.swapFirmware .user)
    c.asUser f = { d with
      mode := .firmware
      arch := { d.arch with s := d.fw.s, p := d.fw.p }
      pc := d.fw.pc
      hz := d.fw.hz
      fw := { d.fw with s := d.arch.s, p := d.arch.p, pc := d.pc, hz := d.hz } } := by
  intro d
  rw [Core.asUser, hc, Core.swapFirmware, if_neg (by rw [hf]; decide)]

theorem State.resumeReentry_eq (s : State) (t : Nat) : ∃ b n a, s.resumeReentry t = { s with
    free := n, agenda := a, core := { s.core with blk := b } } := by
  unfold State.resumeReentry
  split
  · dsimp only
    split
    · exact ⟨_, _, _, rfl⟩
    · exact ⟨_, _, _, rfl⟩
  · exact ⟨s.core.blk, s.free, s.agenda, rfl⟩

/-- A core that holds the firmware context, with the user context put back under it. -/
def Core.under (d : Core) (b : Block) (z : Hazard) (loaded : Bool) : Core :=
  { d with
    mode := .firmware
    arch := { d.arch with s := d.fw.s, p := d.fw.p }
    pc := d.fw.pc
    hz := z
    blk := b
    fw := { d.fw with s := d.arch.s, p := d.arch.p, pc := d.pc, hz := d.hz, loaded := loaded } }

theorem Core.under_swap {d : Core} (hd : d.mode = .user) (b : Block) (z : Hazard) (l : Bool) :
    ∃ fw, (d.under b z l).swapFirmware .user = { d with blk := b, fw := fw } := by
  refine ⟨{ (d.under b z l).fw with s := d.fw.s, p := d.fw.p, pc := d.fw.pc, hz := z }, ?_⟩
  rw [Core.swapFirmware, if_neg (show ¬(d.under b z l).mode = .user from Mode.noConfusion), ← hd]
  rfl

/-- The context with an image, and no wider shape than it may have. -/
def Core.loaded (c : Core) (bs : List Byte) (al : BitVec 2) : Core := (c.loadImage bs).capShape al

theorem Core.loaded_mode (c : Core) (bs : List Byte) (al : BitVec 2) : (c.loaded bs al).mode = c.mode := by
  simp only [Core.loaded, Core.capShape, Core.loadImage]

section
variable {s : State} {a : Reg} (hf : s.firmware = true) (ho : (s.src a).toNat % 8192 = 0) (hr : (s.src a).toNat + 8192 ≤ 0x60000)
include hf ho hr

/-- The state after CTXLOAD, and the user context that it gives. -/
theorem ctxload_eq {bs : List Byte} (hbs : bs = s.core.ls.mem.readBytes (s.src a).toNat 8192) {d : Core}
    (hd : d = (s.core.swapFirmware .user).loaded bs (s.part s.core.part).allow) :
    ∃ b z n ag, exec (.ctxload a) s = .next { s with free := n, agenda := ag, core := d.under b z true } ∧
      z.issueAt = s.dcc + 256 ∧ d.mode = .user := by
  have hmode : s.core.mode = .firmware := beq_iff_eq.1 hf
  have hdm : d.mode = .user := by
    rw [hd, Core.loaded_mode, Core.swapFirmware, hmode]
    rfl
  have huser := Core.asUser_eq hmode (fun u => u.loaded bs (s.part s.core.part).allow) (by rw [← hd]; exact hdm)
  dsimp only at huser
  rw [← hd] at huser
  have hcore : (s.onCore fun c =>
      let e := c.asUser fun u => (u.loadImage bs).capShape (s.part c.part).allow
      { e with fw := { e.fw with loaded := true } }) = { s with core := d.under d.blk d.fw.hz true } := by
    have hfun : (s.core.asUser fun u => (u.loadImage bs).capShape (s.part s.core.part).allow) = _ := huser
    dsimp only [State.onCore]
    rw [hfun]
    rfl
  have hexec : exec (.ctxload a) s = .next ((if (d.under d.blk d.fw.hz true).life = .running then
      State.resumeReentry { s with core := d.under d.blk d.fw.hz true } s.dcc else { s with core := d.under d.blk d.fw.hz true }).imageBusy) := by
    rw [exec_ctxload, execCtxload]
    dsimp only
    rw [hf, (imageOffset_iff (s.src a)).2 ⟨ho, hr⟩, ← hbs, Bool.not_true, if_neg Bool.false_ne_true, if_neg Bool.false_ne_true, hcore]
  rw [hexec]
  split
  · obtain ⟨b, n, ag, h⟩ := State.resumeReentry_eq { s with core := d.under d.blk d.fw.hz true } s.dcc
    rw [h]
    exact ⟨b, { d.fw.hz with issueAt := s.dcc + 256 }, n, ag, rfl, rfl, hdm⟩
  · exact ⟨d.blk, { d.fw.hz with issueAt := s.dcc + 256 }, s.free, s.agenda, rfl, rfl, hdm⟩

end

theorem Core.capShape_shapeg (c : Core) (al : BitVec 2) : (c.capShape al).arch.csr.shapeg.toNat ≤ al.toNat := by
  unfold Core.capShape
  dsimp only
  split
  next h => exact h
  next => exact Nat.le_refl _

/-- What a loaded context has from its image, and what it keeps. -/
theorem Core.loaded_fields (c : Core) (bs : List Byte) (al : BitVec 2) :
    let d := c.loaded bs al
    let x := archOf bs
    (d.arch.s = x.s ∧ d.arch.p = x.p ∧ d.arch.h = x.h ∧ d.arch.tmpl = x.tmpl ∧ d.arch.slots = x.slots) ∧
      (d.arch.csr.lscfg = x.csr.lscfg ∧ d.arch.csr.lsstat = x.csr.lsstat) ∧
      d.stat.rsc = BitVec.ofNat 64 (imageAt bs 0x408 8) ∧
      (c.layer = none → c.reissue = false → d.pc = BitVec.ofNat 64 (imageAt bs 0x200 8)) ∧
      d.ls = c.ls ∧ d.lcore = c.lcore ∧ d.part = c.part ∧ d.vf = c.vf ∧ d.groups = c.groups := by
  simp only [Core.loaded, Core.capShape, Core.loadImage]
  refine ⟨⟨trivial, trivial, trivial, trivial, trivial⟩, ⟨trivial, trivial⟩, trivial, fun hl hr => ?_, trivial, trivial, trivial, trivial, trivial⟩
  rw [hl, hr]
  rfl

section
variable (m : Mem) (o : Nat)

theorem imageAt_readBytes {k : Nat} (h : k + 8 ≤ 8192) :
    BitVec.ofNat 64 (imageAt (m.readBytes o 8192) k 8) = leWord (m.readBytes (o + k) 8) := by
  rw [imageAt, Mem.slice_readBytes m h, leWord]

/-- A byte of an image is the low byte of the word that begins with it. -/
theorem imageAt_byte {k : Nat} (h : k + 8 ≤ 8192) :
    BitVec.ofNat 8 (imageAt (m.readBytes o 8192) k 1) = (leWord (m.readBytes (o + k) 8)).extractLsb' 0 8 := by
  rw [imageAt, Mem.slice_readBytes m (by omega)]
  have hone : m.readBytes (o + k) 1 = [m.read (o + k)] := rfl
  have hcons : m.readBytes (o + k) 8 = m.read (o + k) :: (List.range 7).map (fun i => m.read (o + k + (i + 1))) := rfl
  refine BitVec.eq_of_toNat_eq ?_
  rw [hone, hcons, leWord, leNat, leNat, leNat, toNat_extractLsb'_ofNat, BitVec.toNat_ofNat]
  omega

/-- A handle of an image. -/
theorem handleOf_fields (w0 w1 : Nat) : (handleOf w0 w1).pbase = (BitVec.ofNat 64 w0).extractLsb' 12 40 ∧
    (handleOf w0 w1).v = (BitVec.ofNat 64 w0).getLsbD 63 := by
  constructor
  · refine BitVec.eq_of_toNat_eq ?_
    rw [toNat_extractLsb'_ofNat]
    show (BitVec.ofNat 40 (field w0 51 12)).toNat = _
    rw [BitVec.toNat_ofNat, field]
    omega
  · show (w0 / 2 ^ 63 % 2 == 1) = _
    rw [BitVec.getLsbD_ofNat, Nat.testBit_eq_decide_div_mod_eq]
    rfl

/-- The registers that an image holds, word by word. -/
theorem archOf_reads :
    let x := archOf (m.readBytes o 8192)
    let word := fun (k : Nat) => leWord (m.readBytes (o + k) 8)
    (∀ r : Reg, r ≠ 0 → x.sreg r = word (8 * r.toNat)) ∧ x.p = (word 0x208).extractLsb' 0 8 ∧ x.hreg 0 = Handle.local ∧
    (∀ h : HReg, h ≠ 0 → (x.hreg h).pbase = (word (0x300 + 16 * h.toNat)).extractLsb' 12 40 ∧
      (x.hreg h).v = (word (0x300 + 16 * h.toNat)).getLsbD 63) ∧
    (∀ n : BitVec 6, (x.tmpl.get n.toFin).w0 = word (0x1000 + 64 * n.toNat)) ∧
    x.csr.lscfg &&& 0xFFFF0000FFFF0000 = 0 ∧ x.csr.lsstat &&& 0xFFFFFFF100000000 = 0 ∧
    ∀ i : Fin 16, (x.slots.get i).ctl.toNat < 2 ^ 13 := by
  obtain ⟨bs, hbs⟩ : ∃ bs, bs = m.readBytes o 8192 := ⟨_, rfl⟩
  have hword : ∀ k, k + 8 ≤ 8192 → BitVec.ofNat 64 (imageAt bs k 8) = leWord (m.readBytes (o + k) 8) := fun k hk => by
    rw [hbs, imageAt_readBytes m o hk]
  have hp := imageAt_byte m o (k := 0x208) (by omega)
  rw [← hbs] at hp ⊢
  intro x word
  refine ⟨fun r hr => ?_, hp, ?_, fun h hh => ?_, fun n => ?_, ?_, ?_, fun i => ?_⟩
  · rw [Arch.sreg, if_neg hr]
    exact (Vector.get_ofFn _ _).trans (hword _ (by omega))
  · rw [Arch.hreg, Vector.get_eq_getElem]
    exact Vector.getElem_set_self _
  · have hget : x.hreg h = handleOf (imageAt bs (0x300 + 16 * h.toNat) 8) (imageAt bs (0x308 + 16 * h.toNat) 8) := by
      rw [Arch.hreg, Vector.get_eq_getElem]
      refine (Vector.getElem_set_ne (by decide) _ fun h0 => hh (BitVec.eq_of_toNat_eq h0.symm)).trans ?_
      rw [Vector.getElem_ofFn]
    obtain ⟨hpbase, hv⟩ := handleOf_fields (imageAt bs (0x300 + 16 * h.toNat) 8) (imageAt bs (0x308 + 16 * h.toNat) 8)
    rw [hword _ (by omega)] at hpbase hv
    rw [hget]
    exact ⟨hpbase, hv⟩
  · exact (congrArg CmdRec.w0 (Vector.get_ofFn _ _)).trans (hword _ (by omega))
  · show (_ &&& 0x0000FFFF0000FFFF) &&& _ = _
    rw [BitVec.and_assoc]
    exact BitVec.and_zero
  · show (_ &&& 0x0000000EFFFFFFFF) &&& _ = _
    rw [BitVec.and_assoc]
    exact BitVec.and_zero
  · rw [show (x.slots.get i).ctl = BitVec.ofNat 15 (imageAt bs (0x6C0 + 8 * i.val) 4 % 2 ^ 13) from
      congrArg ChiselSlot.ctl (Vector.get_ofFn _ _), BitVec.toNat_ofNat]
    omega

end

/-- The user context that an image gives, word by word, and what it keeps. -/
theorem Core.loaded_reads (u : Core) (m : Mem) (o : Nat) (al : BitVec 2) :
    let d := u.loaded (m.readBytes o 8192) al
    let word := fun (k : Nat) => leWord (m.readBytes (o + k) 8)
    d.ls = u.ls ∧
    (∀ r : Reg, r ≠ 0 → d.arch.sreg r = word (8 * r.toNat)) ∧ (u.layer = none → u.reissue = false → d.pc = word 0x200) ∧
    d.arch.p = (word 0x208).extractLsb' 0 8 ∧ d.arch.hreg 0 = Handle.local ∧
    (∀ h : HReg, h ≠ 0 → (d.arch.hreg h).pbase = (word (0x300 + 16 * h.toNat)).extractLsb' 12 40 ∧
      (d.arch.hreg h).v = (word (0x300 + 16 * h.toNat)).getLsbD 63) ∧
    (∀ n : BitVec 6, (d.arch.tmpl.get n.toFin).w0 = word (0x1000 + 64 * n.toNat)) ∧
    (d.arch.csr.lscfg &&& 0xFFFF0000FFFF0000 = 0 ∧ d.arch.csr.lsstat &&& 0xFFFFFFF100000000 = 0 ∧
      ∀ i : Fin 16, (d.arch.slots.get i).ctl.toNat < 2 ^ 13) ∧
    d.arch.csr.shapeg.toNat ≤ al.toNat ∧ d.stat.rsc = word 0x408 ∧ d.lcore = u.lcore ∧ d.part = u.part ∧ d.vf = u.vf ∧ d.groups = u.groups := by
  obtain ⟨bs, hbs⟩ : ∃ bs, bs = m.readBytes o 8192 := ⟨_, rfl⟩
  have hword : ∀ k, k + 8 ≤ 8192 → BitVec.ofNat 64 (imageAt bs k 8) = leWord (m.readBytes (o + k) 8) := fun k hk => by
    rw [hbs, imageAt_readBytes m o hk]
  obtain ⟨hs, hp, h0, hh, ht, hcfg, hstat, hctl⟩ := archOf_reads m o
  obtain ⟨⟨ds, dp, dh, dt, dsl⟩, ⟨dcfg, dstat⟩, drsc, dpc, dls, dl, dpart, dvf, dg⟩ := u.loaded_fields bs al
  have hshape := (u.loadImage bs).capShape_shapeg al
  rw [← hbs] at hs hp h0 hh ht hcfg hstat hctl ⊢
  intro d word
  refine ⟨dls, fun r hr => ?_, fun hl hi => (dpc hl hi).trans (hword _ (by omega)), dp.trans hp, ?_, fun h hne => ?_, fun n => ?_,
    ⟨?_, ?_, fun i => ?_⟩, hshape, drsc.trans (hword _ (by omega)), dl, dpart, dvf, dg⟩
  · exact (congrArg (fun v : Vector Word 64 => if r = 0 then 0 else v.get r.toFin) ds).trans (hs r hr)
  · exact (congrArg (fun v : Vector Handle 16 => v.get (BitVec.toFin (0 : HReg))) dh).trans h0
  · obtain ⟨hb, hv⟩ := hh h hne
    exact ⟨(congrArg (fun v : Vector Handle 16 => (v.get h.toFin).pbase) dh).trans hb,
      (congrArg (fun v : Vector Handle 16 => (v.get h.toFin).v) dh).trans hv⟩
  · exact (congrArg (fun v : Vector CmdRec 64 => (v.get n.toFin).w0) dt).trans (ht n)
  · exact (congrArg (fun w : Word => w &&& 0xFFFF0000FFFF0000) dcfg).trans hcfg
  · exact (congrArg (fun w : Word => w &&& 0xFFFFFFF100000000) dstat).trans hstat
  · exact (congrArg (fun v : Vector ChiselSlot 16 => (v.get i).ctl.toNat) dsl).trans_lt (hctl i)

theorem Core.swapFirmware_ls (c : Core) (m : Mode) : (c.swapFirmware m).ls = c.ls := by
  unfold Core.swapFirmware
  split <;> rfl

/-- Settles O34: what CTXSAVE writes, and what CTXLOAD gives. -/
theorem contextImages : Obligations.ContextImages := by
  intro s a o u
  obtain ⟨h1, h2, h3⟩ := imageFaults (s := s) (a := a)
  refine ⟨h1, h2, h3, fun hf ho hr => ⟨fun hl hm => ?_, ?_⟩⟩
  · obtain ⟨bs, bad, n, hbs, he⟩ := ctxsave_eq hf ho hr hl
    obtain ⟨hs, hpc, hp, hh, ht, hout⟩ := savedImage_reads hm u o s.dcc s.free
    rw [← hbs] at hs hpc hp hh ht hout
    exact ⟨_, he, rfl, hs, hpc, hp, hh, ht, hout, fun _ => rfl, rfl⟩
  · have hreads := u.loaded_reads s.core.ls.mem o (s.part s.core.part).allow
    obtain ⟨d, hd⟩ : ∃ d, d = u.loaded (s.core.ls.mem.readBytes o 8192) (s.part s.core.part).allow := ⟨_, rfl⟩
    obtain ⟨b, z, n, ag, he, hz, hmode⟩ := ctxload_eq hf ho hr rfl hd
    obtain ⟨fw, hswap⟩ := Core.under_swap hmode b z true
    dsimp only at hreads
    rw [← hd] at hreads
    obtain ⟨hls, hs, hpc, hp, h0, hh, ht, ⟨hcfg, hstat, hctl⟩, hshape, hrsc, hlc, hpart, hvf, hg⟩ := hreads
    exact ⟨_, _, he, hz, SameBytes.of_eq rfl rfl (congrArg LocalStore.mem (hls.trans (s.core.swapFirmware_ls .user))), hswap.symm,
      hs, hpc, hp, h0, hh, ht, hcfg, hstat, hctl, rfl, hshape, hrsc, hlc, hpart, hvf, hg⟩

end Sys2Proof.Machine
end

section
namespace Sys2Proof.Machine

/-! Fetching the words of a bundle (R74, R280, R345). -/

theorem State.codeWord_firmware {s : State} (h : s.firmware = true) (v : Word) : (s.codeWord v).2 = s := by
  rw [State.codeWord, if_pos h]

theorem State.openWord_reads (s : State) : ReadsL2 s s.openWord.2 :=
  ⟨_, _, _, _, _, _, _, _, _, rfl, fun h => ⟨h, fun _ _ => rfl⟩, fun _ h => h⟩

theorem State.programWord_reads (s : State) (l : Launch) (v : Word) : ReadsL2 s (s.programWord l v).2 := by
  have h := s.walk_reads l.vf v.toNat
  unfold State.programWord
  split
  next he =>
    rw [he] at h
    exact h
  next he =>
    rw [he] at h
    exact h.trans (State.openWord_reads _)
  next lg base _ _ _ _ t he =>
    rw [he] at h
    have ht := h.trans (t.touch_reads (base + v.toNat % 2 ^ lg))
    dsimp only
    split
    · exact ht.trans (State.openWord_reads _)
    · exact ht

theorem State.codeWord_reads (s : State) (v : Word) : ReadsL2 s (s.codeWord v).2 := by
  unfold State.codeWord
  split
  · exact ReadsL2.refl s
  · split
    · split
      · exact ReadsL2.refl s
      · exact ReadsL2.refl s
    · split
      · exact ReadsL2.refl s
      · split
        · exact ReadsL2.refl s
        · exact s.programWord_reads _ v

theorem State.fetchFrom_reads : ∀ (k : Nat) (s : State) (v : Word) (acc : List (Word × Word)), ReadsL2 s (s.fetchFrom k v acc).2
  | 0, s, _, _ => ReadsL2.refl s
  | k + 1, s, v, acc => by
    have h := s.codeWord_reads v
    unfold State.fetchFrom
    split
    next w t he =>
      rw [he] at h
      split
      · exact h
      · exact h.trans (State.fetchFrom_reads k t _ _)
    next he =>
      rw [he] at h
      exact h
    next he =>
      rw [he] at h
      exact h

theorem State.fetchFrom_firmware : ∀ (k : Nat) {s : State} (v : Word) (acc : List (Word × Word)), s.firmware = true → (s.fetchFrom k v acc).2 = s
  | 0, _, _, _, _ => rfl
  | k + 1, s, v, acc, hf => by
    have h := State.codeWord_firmware hf v
    unfold State.fetchFrom
    split
    next w t he =>
      rw [he] at h
      obtain rfl : t = s := h
      split
      · rfl
      · exact State.fetchFrom_firmware k _ _ hf
    next he =>
      rw [he] at h
      exact h
    next he =>
      rw [he] at h
      exact h

/-! What a step of the running machine does (R10, R33). -/

section
variable {s : State} (hr : s.himos.railsUp = true) (hb : s.himos.bring = 0) (hl : s.listed = true)

theorem State.focusPhys_self (s : State) : s.focusPhys s.core.phys = s := by
  rw [State.focusPhys, if_pos (by simp [State.cores]), State.focusOn, if_pos (beq_self_eq_true _)]

include hr hb hl

/-- With its phase entered, a step does the work of the phase. -/
theorem step_work : step s = s.work := by
  rw [step, State.stepCycle, hr, hb, hl]
  rfl

/-- A listed instruction runs. -/
theorem step_listed {t : Task} {rest : List Task} (ht : s.todo = t :: rest) (hp : t.phys = s.core.phys) :
    step s = exec t.act { s with todo := rest } := by
  rw [step_work hr hb hl, State.work, ht]
  dsimp only
  rw [hp]
  exact congrArg (exec t.act) (State.focusPhys_self { s with todo := rest })

/-- With nothing listed, the phase picks. -/
theorem step_picks (ht : s.todo = []) {o : Out} (hp : s.pick = some o) : step s = o := by
  rw [step_work hr hb hl, State.work, ht, hp]
  rfl

/-- Work that is due on the chip, or for the context in focus, runs. -/
theorem step_event (ht : s.todo = []) (hph : s.phase = .events) {e : Ev} (hd : s.dueBelow 4000 = some e)
    (hte : e.target = .chip ∨ e.target = s.me) : step s = exec e.act { s with agenda := s.agenda.erase e } := by
  have hrun : s.runEv e = exec e.act { s with agenda := s.agenda.erase e } := by
    rw [State.runEv]
    rcases hte with hte | hte
    · rw [hte]
      rfl
    · have hctx : Core.isCtx s.core.launch s.core.lcore s.core = true := by
        rw [Core.isCtx, beq_self_eq_true, beq_self_eq_true]
        rfl
      rw [hte, State.me, State.execFor]
      rw [if_pos (by rw [State.cores, List.any_cons, hctx, Bool.true_or]), State.focusOn, if_pos hctx]
  refine step_picks hr hb hl ht ?_
  rw [← hrun, State.pick, hph]
  exact congrArg (Option.map s.runEv) hd

/-- The chisel word before which an element stands runs. -/
theorem step_lane (ht : s.todo = []) (hph : s.phase = .lanes) (hcore : s.physList.head? = some s.core.phys) {j : Job} {js : List Job} {i : Instr}
    (hj : s.core.eng.jobs = j :: js) (hd : decodeChisel (j.prog.getD j.pc 0) = .ok i) : step s = exec i s := by
  have hopt : Except.toOpt (decodeChisel (j.prog.getD j.pc 0)) = some i := by
    rw [hd]
    rfl
  have hlanes : s.lanes = s := by
    rw [State.lanes, State.readyLanes, hj]
    dsimp only
    rw [hopt]
  have hword : s.laneWord = some i := by
    rw [State.laneWord, hj]
    exact hopt
  obtain ⟨rest, hlist⟩ : ∃ rest, s.physList = s.core.phys :: rest := by
    cases hx : s.physList with
    | nil =>
      rw [hx] at hcore
      cases hcore
    | cons n rest =>
      rw [hx] at hcore
      exact ⟨rest, by rw [Option.some.inj hcore]⟩
  have hnext : s.nextLane s.physList = (s, some i) := by
    rw [hlist, State.nextLane, s.focusPhys_self, hlanes]
    rw [hword]
  refine step_picks hr hb hl ht ?_
  rw [State.pick, hph]
  dsimp only
  rw [hnext]
  rfl

/-- The first core whose turn it is issues. -/
theorem step_issue (ht : s.todo = []) (hph : s.phase = .issue) {a b : List Nat} (hlist : s.physList = a ++ s.core.phys :: b)
    (ha : ∀ n ∈ a, (s.focusPhys n).issue = none) {o : Out} (hi : s.issue = some o) : step s = o := by
  refine step_picks hr hb hl ht ?_
  rw [State.pick, hph]
  have hnone : (a.findSome? fun n => (s.focusPhys n).issue) = none := List.findSome?_eq_none_iff.2 ha
  rw [hlist, List.findSome?_append, hnone, Option.none_or, List.findSome?_cons, s.focusPhys_self, hi]

end

/-! The issue of a bundle (R33, R73 to R77, R92). -/

theorem State.issueAtPc_words {s t : State} {ws : List (Word × Word)} (hf : s.fetchBundle = (.words ws, t))
    (hb : bundleFaults (!s.firmware) ws = []) (hz : t.hazardFree ((slotsIn ws).map (·.2)) = true)
    (hp : t.pushHolds ((slotsIn ws).map (·.2)) = false) : s.issueAtPc = some (t.runBundle ws) := by
  rw [State.issueAtPc, hf]
  dsimp only
  rw [hb, firstFailed]
  dsimp only
  rw [hz, hp]
  rfl

theorem Core.swapFirmware_mode (c : Core) (m : Mode) : (c.swapFirmware m).mode = m := by
  unfold Core.swapFirmware
  split
  next h => exact h
  next => rfl

theorem State.enterFirmware_firmware (s : State) : s.enterFirmware.firmware = true :=
  beq_iff_eq.2 (s.core.swapFirmware_mode .firmware)

/-- The firmware context's pushes hold no bundle. -/
theorem State.pushHolds_firmware {s : State} (h : s.firmware = true) (l : List Slot) : s.pushHolds l = false := by
  rw [State.pushHolds, h]
  simp

/-- The firmware context issues its bundle. -/
theorem issue_firmware {s u : State} {ws : List (Word × Word)} (hi : s.core.issued ≠ s.dcc + 1) (hm : s.firmwareMay = true)
    (hf : s.enterFirmware.fetchBundle = (.words ws, u)) (hb : bundleFaults false ws = [])
    (hz : u.hazardFree ((slotsIn ws).map (·.2)) = true) : s.issue = some (mapOut s.leaveFirmware (u.runBundle ws)) := by
  have hfw := s.enterFirmware_firmware
  have hu : u = s.enterFirmware := by
    have h := State.fetchFrom_firmware 4 s.enterFirmware.core.pc [] hfw
    rw [State.fetchBundle] at hf
    rw [hf] at h
    exact h
  have hat : s.enterFirmware.issueAtPc = some (u.runBundle ws) :=
    State.issueAtPc_words hf (by rw [hfw]; exact hb) hz (State.pushHolds_firmware (by rw [hu]; exact hfw) _)
  rw [State.issue, if_neg hi, State.issueFirmware, if_pos hm, hat]
  rfl

section
variable {s : State} (hi : s.core.issued ≠ s.dcc + 1) (hfw : s.issueFirmware = none) (hl : s.core.life = .running) (hh : s.held = false)
  (hat : s.core.hz.issueAt ≤ s.dcc) (ht : s.core.trap = none) (ha : s.core.replay.access = none)
include hi hfw hl hh hat ht ha

/-- What the user context issues where nothing holds it. -/
theorem issue_user : s.issue = if s.core.reissue then some s.reissueBundle else
    if s.leaveLayer.core.issued = s.dcc + 1 then some (.next s.leaveLayer) else s.leaveLayer.issueAtPc := by
  have hmay : s.userMay = true := by
    have hrep : s.core.replaying = false := by
      rw [Core.replaying, Core.replayingOther, ha]
      rfl
    rw [State.userMay]
    rw [hl, hh, ht, hrep, decide_eq_true hat]
    simp
  have hself : (s.onCore fun c => { c with replay := { c.replay with access := none } }) = s := by
    rw [← ha]
    rfl
  rw [State.issue, if_neg hi, hfw, State.issueUser, if_pos hmay]
  dsimp only [Option.orElse]
  rw [hself]

/-- The user context issues the bundle at its PC. -/
theorem issue_bundle (hfirm : s.firmware = false) (hre : s.core.reissue = false)
    (hly : ∀ l, s.core.layer = some l → s.core.pc.toNat / 8 < l.words.length) {t : State} {ws : List (Word × Word)}
    (hf : s.fetchBundle = (.words ws, t)) (hb : bundleFaults true ws = []) (hz : t.hazardFree ((slotsIn ws).map (·.2)) = true)
    (hp : t.pushHolds ((slotsIn ws).map (·.2)) = false) : s.issue = some (t.runBundle ws) := by
  have hend : s.endLayer = s := by
    unfold State.endLayer
    dsimp only
    split
    next l hl => rw [if_neg fun h => Nat.not_le.2 (hly l hl) h.1]
    next => rfl
  have hleave : s.leaveLayer = s := by
    unfold State.leaveLayer
    dsimp only
    rw [hend]
    split
    next l hl => rw [if_neg (Nat.not_le.2 (hly l hl))]
    next => rfl
  rw [issue_user hi hfw hl hh hat ht ha, hre, if_neg Bool.false_ne_true, hleave, if_neg hi]
  exact State.issueAtPc_words hf (by rw [hfirm]; exact hb) hz hp

/-- A context stopped in a blocking bundle issues that again. -/
theorem issue_again (hre : s.core.reissue = true) : s.issue = some s.reissueBundle := by
  rw [issue_user hi hfw hl hh hat ht ha, hre, if_pos rfl]

end

/-! A bundle of one word (R75, R94, R95). -/

theorem decodeSlot_word {w : Word} {y : Slot} (h : decodeSlot w = .ok y) : y.word = w := by
  unfold decodeSlot at h
  split at h
  · split at h
    · cases h
    · split at h
      · cases h
      · cases h
        rfl
  · cases h

theorem slotsIn_single {v w : Word} {y : Slot} (h : decodeSlot w = .ok y) : slotsIn [(v, w)] = [(v, y)] := by
  rw [slotsIn, List.filterMap_cons, h]
  rfl

/-- The state in which the one word of a bundle takes effect. -/
def State.beginWord (s : State) (v w : Word) : State :=
  let u := s.beginBundle (v + 8)
  { u with core := { u.core with wpc := v, wword := w } }

theorem runSlot_single {s : State} {v w : Word} {y : Slot} (h : decodeSlot w = .ok y) :
    (s.beginBundle (v + 8)).runSlot (v, y) = if s.core.arch.preg y.pg != y.pn then exec y.instr (s.beginWord v w)
      else .next ((s.beginWord v w).falseSlot y.instr) := by
  rw [State.runSlot, decodeSlot_word h]
  rfl

theorem runBundle_single {s : State} {v w : Word} {y : Slot} (h : decodeSlot w = .ok y) (hf : s.firmware = false) :
    s.runBundle [(v, w)] = mapOut (s.seal (s.beginBundle (v + 8)) [(v, y)]) ((s.beginBundle (v + 8)).runSlot (v, y)) := by
  have hpair : csrPair [(v, y)] = false := by
    refine decide_eq_false fun hlen => ?_
    have := List.length_filter_le (fun x : Placed => writesCsr x.2.instr) [(v, y)]
    rw [List.length_singleton] at this
    omega
  have hrun : ∀ b : State, b.firmware = false → runSlots [(v, y)] b = b.runSlot (v, y) := by
    intro b hb
    rw [runSlots, hb, Bool.false_and, if_neg Bool.false_ne_true]
    cases b.runSlot (v, y) <;> rfl
  rw [State.runBundle, slotsIn_single h]
  rw [hpair, if_neg Bool.false_ne_true]
  exact congrArg (mapOut _) (hrun _ hf)

/-- The Cruiser follows a bundle, and the digest of an entry covers it. -/
theorem State.follow_eq (b t : State) (l : List Guarded) : ∃ x g, State.follow b t l =
    { t with core := { t.core with cruiser := x, reg := { t.core.reg with digest := g } } } := by
  unfold State.follow
  dsimp only [State.onCore]
  split
  · exact ⟨_, _, rfl⟩
  · exact ⟨_, t.core.reg.digest, rfl⟩

/-- What the Cruiser and a stop keep of a bundle changes nothing else. -/
theorem State.keepBundle_follows {s : State} (hs : s.core.trap = none) (b t : State) (l : List Placed) :
    Follows t ((State.keepBundle b t l).onCore fun c => { c with trap := s.core.trap }) := by
  obtain ⟨x, g, h⟩ := State.follow_eq b t (l.map fun x => ⟨⟨x.1, x.2.word, x.2.instr⟩, x.2.pg, x.2.pn⟩)
  unfold State.keepBundle
  dsimp only
  rw [h, hs]
  rfl

section
variable {s : State} {v w : Word} {y : Slot} (hf : s.firmware = false) (ht : s.core.trap = none) (b : State) (l : List Placed) {t : State}
include hf

/-- A bundle without a trap has taken effect. -/
theorem seal_follows (hs : s.core.trap = none) (ht : t.core.trap = none) (hw : s.core.walk = none → t.core.walk = none) :
    Follows t (s.seal b l t) := by
  have hwait : ¬((s.core.walk.isNone && t.core.walk.isSome) = true) := by
    rw [Bool.and_eq_true, Option.isNone_iff_eq_none]
    rintro ⟨h1, h2⟩
    rw [hw h1] at h2
    cases h2
  rw [State.seal, hf, if_neg Bool.false_ne_true, ht]
  dsimp only
  rw [if_neg hwait]
  exact State.keepBundle_follows hs b t l

/-- A bundle whose page walk meets a page that fails waits. -/
theorem seal_waits {n : Nat} (ht : t.core.trap = none) (hs : s.core.walk = none) (hw : t.core.walk = some n) : s.seal b l t = s.awaitWalk t := by
  rw [State.seal, hf, if_neg Bool.false_ne_true, ht]
  dsimp only
  rw [hs, hw]
  rfl

/-- A bundle that traps is undone. -/
theorem seal_traps {x : TrapRec} (ht : t.core.trap = some x) : s.seal b l t = (s.undo t).takeTrap (b.bundleTrap l x) := by
  rw [State.seal, hf, if_neg Bool.false_ne_true, ht]

end

/-- The trap of a bundle of one word is that word's. -/
theorem bundleTrap_single {b t : State} {p : Placed} {x z : TrapRec} (h : b.runSlot p = .next t) (ht : t.core.trap = some x) :
    b.bundleTrap [p] z = x := by
  have hl : ([p].filterMap fun y => trapOf (b.runSlot y)) = [x] := by
    rw [List.filterMap_cons, h, trapOf, ht]
    rfl
  rw [State.bundleTrap, hl]
  exact ite_self x

/-- A false slot occupies what its instruction would have. -/
theorem State.falseSlot_eq (s : State) (i : Instr) : ∃ z, s.falseSlot i = { s with core := { s.core with hz := z } } := by
  have hpend : ∀ (l : List (PendDest × Nat)) (t : State), (∃ z, t = { s with core := { s.core with hz := z } }) →
      ∃ z, (l.foldl (fun (t : State) d => t.pending d.1 (some (s.dcc + d.2))) t) = { s with core := { s.core with hz := z } } := by
    intro l
    induction l with
    | nil => exact fun t ht => ht
    | cons d l ih =>
      rintro t ⟨z, rfl⟩
      rw [List.foldl_cons]
      refine ih _ ?_
      unfold State.pending
      split
      · exact ⟨_, rfl⟩
      · exact ⟨z, rfl⟩
  obtain ⟨z, hz⟩ := hpend (s.lateDests i) s ⟨s.core.hz, rfl⟩
  unfold State.falseSlot
  dsimp only
  rw [hz]
  split
  · exact ⟨_, rfl⟩
  · split
    · exact ⟨_, rfl⟩
    · exact ⟨z, rfl⟩

/-- What a bundle of one word comes to, from the state in which its words have been fetched. -/
theorem runBundle_word {s s' : State} (h : ReadsL2 s s') (hf : s.firmware = false) (ht : s.core.trap = none) {v w : Word} {y : Slot}
    (hd : decodeSlot w = .ok y) :
    let u := s'.beginWord v w
    let o := s'.runBundle [(v, w)]
    (s.core.arch.preg y.pg ≠ y.pn →
      (∀ t, exec y.instr u = .next t → t.core.trap = none → (s.core.walk = none → t.core.walk = none) → ∃ z, o = .next z ∧ Follows t z) ∧
      (∀ t n, exec y.instr u = .next t → t.core.trap = none → s.core.walk = none → t.core.walk = some n → ∃ z, o = .next z ∧
        z.core.arch = s.core.arch ∧ z.core.pc = s.core.pc ∧ z.core.walk = some n ∧ n ≤ z.core.hz.issueAt ∧ z.mem = s'.mem) ∧
      (∀ f, exec y.instr u = .fault f → o = .fault f) ∧
      (∀ t x, exec y.instr u = .next t → t.core.trap = some x → ∃ z, o = .next z ∧
        z.core.trap.map TrapRec.cause = some x.cause ∧ z.core.arch = s.core.arch ∧ z.core.pc = s.core.pc ∧ z.core.acc = s.core.acc ∧
        z.core.ls = s.core.ls ∧ z.core.held = s.core.held ∧ z.core.io = s.core.io ∧ z.disp = s.disp ∧ z.mem = t.mem)) ∧
    (s.core.arch.preg y.pg = y.pn → ∃ z, o = .next z ∧ Follows (u.falseSlot y.instr) z) := by
  obtain ⟨inj, others, mem, cxl, lines, poison, agenda, free, himos, hs', -, -⟩ := h
  have hf' : s'.firmware = false := by
    rw [hs']
    exact hf
  have ht' : s'.core.trap = none := by
    rw [hs']
    exact ht
  have hpre : s'.core.arch = s.core.arch := by rw [hs']
  intro u o
  have hrun := runSlot_single (s := s') (v := v) hd
  have ho : o = mapOut (s'.seal (s'.beginBundle (v + 8)) [(v, y)]) ((s'.beginBundle (v + 8)).runSlot (v, y)) := runBundle_single hd hf'
  rw [hpre] at hrun
  refine ⟨fun hg => ?_, fun hg => ?_⟩
  · rw [if_pos (bne_iff_ne.2 hg)] at hrun
    have hnext : ∀ t, exec y.instr u = .next t → o = .next (s'.seal (s'.beginBundle (v + 8)) [(v, y)] t) := fun t he => by
      rw [ho, hrun, show exec y.instr (s'.beginWord v w) = .next t from he, mapOut]
    refine ⟨fun t he htrap hw => ⟨_, hnext t he, seal_follows hf' _ _ ht' htrap ?_⟩, fun t n he htrap hw hn => ⟨_, hnext t he, ?_⟩,
      fun f he => ?_, fun t x he htrap => ⟨_, hnext t he, ?_⟩⟩
    · rw [hs']
      exact hw
    · have hw' : s'.core.walk = none := by
        rw [hs']
        exact hw
      rw [seal_waits hf' _ _ htrap hw' hn]
      refine ⟨hpre, by rw [hs']; rfl, hn, ?_, rfl⟩
      show n ≤ max _ (t.core.walk.getD 0)
      rw [hn]
      exact Nat.le_max_right _ _
    · rw [ho, hrun, show exec y.instr (s'.beginWord v w) = .fault f from he, mapOut]
    · have hslot : (s'.beginBundle (v + 8)).runSlot (v, y) = .next t := hrun.trans he
      rw [seal_traps hf' _ _ htrap, bundleTrap_single hslot htrap, State.takeTrap_eq (s := s'.undo t) ht', hs']
      exact ⟨rfl, rfl, rfl, rfl, rfl, rfl, rfl, rfl, rfl⟩
  · rw [if_neg (by rw [hg, bne_self_eq_false]; exact Bool.false_ne_true)] at hrun
    obtain ⟨z, hz⟩ := u.falseSlot_eq y.instr
    refine ⟨_, ?_, seal_follows hf' (s'.beginBundle (v + 8)) [(v, y)] ht' ?_ fun hw => ?_⟩
    · rw [ho, hrun, mapOut]
    · rw [hz]
      rfl
    · rw [hz]
      exact hw

/-- The one blocking instruction of a bundle issues again. -/
theorem reissueBundle_single {s : State} {w : Worded} (hb : s.core.blocked = [w]) (hs : s.core.trap = none) :
    let u := { s with core := { s.core with
      issued := s.dcc + 1, trap := none, wpc := w.wpc, wword := w.wword, bend := s.core.pc, hz := { s.core.hz with issueAt := s.dcc + 1 } } }
    ∀ t, exec w.act u = .next t → t.core.trap = none → ∃ z, s.reissueBundle = .next z ∧
      z = { t with core := { t.core with
        trap := none, reissue := false, cruiser := z.core.cruiser, reg := { t.core.reg with digest := z.core.reg.digest } } } := by
  intro u t he ht
  let b : State := { s with core := { s.core with
    issued := s.dcc + 1, trap := none, bend := s.core.pc, hz := { s.core.hz with issueAt := s.dcc + 1 } } }
  obtain ⟨x, g, hf⟩ := State.follow_eq b t ([w].map fun x => ⟨x, 0, false⟩)
  have hrun : s.reissueBundle = .next ((State.follow b t ([w].map fun x => ⟨x, 0, false⟩)).onCore fun c =>
      { c with trap := s.core.trap, reissue := false }) := by
    rw [State.reissueBundle, hb]
    show mapOut _ (exec w.act u) = _
    rw [he, mapOut, ht]
    rfl
  refine ⟨_, hrun, ?_⟩
  rw [hf, hs]
  rfl

/-! The head of a queue (R157). -/

/-- A record whose cycle has come is the command that it decodes to. -/
theorem headTask_due {s : State} {q : Queue} {e : QEntry} {rest : List QEntry} {i : Instr}
    (hq : s.core.eng.queues.toList.getD q.code [] = e :: rest) (hg : e.gone = false) (hw : e.waiting = false) (ha : e.startAt = none)
    (hn : s.nominal e.r = s.dcc) (hd : decodeRecord q e.r = some i) : s.headTask q = some i := by
  have hdue : (if s.core.stat.relax then decide (s.nominal e.r ≤ s.dcc) else s.nominal e.r == s.dcc) = true := by
    rw [hn, beq_self_eq_true, decide_eq_true (Nat.le_refl s.dcc)]
    exact ite_self true
  rw [State.headTask, hq]
  dsimp only
  rw [hg, hw, ha]
  dsimp only
  rw [hdue, hd]
  rfl

/-- Settles O57, by the kinds of work that a step may find. -/
theorem stepRunsTheDecodedInstruction : Obligations.StepRunsTheDecodedInstruction := by
  intro s hr hb hl
  refine ⟨fun t rest ht hp => step_listed hr hb hl ht hp, fun e ht hph hd hte => step_event hr hb hl ht hph hd hte,
    fun j js i ht hph hcore hj hd => step_lane hr hb hl ht hph hcore hj hd, fun a b ht hph hlist ha hi => ⟨fun hm ws u hf hbf hz => ?_,
      fun hfw hfirm hlife hh hat htrap hacc => ⟨fun hre hly ws s' hf hbf hz hp => ?_, fun w hre hblk => ?_⟩⟩,
    fun q e rest i hq hg hw hs hn hd => headTask_due hq hg hw hs hn hd⟩
  · exact step_issue hr hb hl ht hph hlist ha (issue_firmware hi hm hf hbf hz)
  · have hstep : step s = s'.runBundle ws :=
      step_issue hr hb hl ht hph hlist ha (issue_bundle hi hfw hlife hh hat htrap hacc hfirm hre hly hf hbf hz hp)
    have hreads : ReadsL2 s s' := by
      have h := s.fetchFrom_reads 4 s.core.pc []
      rw [State.fetchBundle] at hf
      rw [hf] at h
      exact h
    have hword := fun v w y (hd : decodeSlot w = .ok y) => runBundle_word hreads hfirm htrap (v := v) hd
    have hbytes := hreads.sameHbm
    obtain ⟨inj, others, mem, cxl, lines, poison, agenda, free, himos, hs', -, -⟩ := hreads
    refine ⟨by rw [hs'], by rw [hs'], by rw [hs'], hbytes, hstep, fun v w y hws hd => ?_⟩
    obtain ⟨htrue, hfalse⟩ := hword v w y hd
    rw [hstep, hws]
    exact ⟨rfl, by rw [hs']; rfl, htrue, hfalse⟩
  · intro u t he hn
    obtain ⟨z, hz, hzt⟩ := reissueBundle_single hblk htrap t he hn
    exact ⟨z, (step_issue hr hb hl ht hph hlist ha (issue_again hi hfw hlife hh hat htrap hacc hre)).trans hz, hzt⟩

end Sys2Proof.Machine
end

section
namespace Sys2Proof.Machine

/-! The scale of magnitudes of a format (R38): what one pattern stands for, and the next one. -/

theorem FFmt.mbits_pos (f : FFmt) : 0 < f.mbits := by cases f <;> decide

theorem FFmt.emin_add_bias (f : FFmt) : f.emin + f.bias = 1 := by rw [FFmt.emin]; omega

/-- A significand of at most `f.mbits + 1` bits with the weight of its last bit: below the least normal number the weight is the least
there is. -/
def FFmt.Scaled (f : FFmt) (n : Nat) (q : Int) : Prop :=
  f.emin - f.mbits ≤ q ∧ n < 2 ^ (f.mbits + 1) ∧ (n < 2 ^ f.mbits → q = f.emin - f.mbits)

theorem packMag_of_normal {f : FFmt} {n : Nat} (q : Int) (h1 : 2 ^ f.mbits ≤ n) (h2 : n < 2 ^ (f.mbits + 1)) :
    packMag f n q = (q + f.mbits + f.bias).toNat * 2 ^ f.mbits + (n - 2 ^ f.mbits) := by
  rw [packMag, if_neg (by omega), if_neg (by omega), if_neg (by omega)]

theorem packMag_carry (f : FFmt) (q : Int) : packMag f (2 ^ (f.mbits + 1)) q = packMag f (2 ^ f.mbits) (q + 1) := by
  have hpow : 2 ^ (f.mbits + 1) = 2 * 2 ^ f.mbits := by ring
  have hpos : 0 < 2 ^ f.mbits := by positivity
  rw [packMag_of_normal (q + 1) le_rfl (by omega)]
  simp [packMag, hpow]

/-- The next significand has the next pattern, over a power of two too. -/
theorem packMag_succ {f : FFmt} {n : Nat} {q : Int} (h : f.Scaled n q) : packMag f (n + 1) q = packMag f n q + 1 := by
  obtain ⟨hq, hn, hsub⟩ := h
  have hbias := f.emin_add_bias
  have hpow : 2 ^ (f.mbits + 1) = 2 * 2 ^ f.mbits := by ring
  have hpos : 0 < 2 ^ f.mbits := by positivity
  rcases Nat.lt_or_ge n (2 ^ f.mbits) with hlow | hhigh
  · rcases Nat.lt_or_ge (n + 1) (2 ^ f.mbits) with hnext | hnext
    · rw [packMag, if_pos hnext, packMag, if_pos hlow]
    · have hone : q + f.mbits + f.bias = 1 := by have := hsub hlow; omega
      rw [packMag_of_normal q hnext (by omega), hone, packMag, if_pos hlow, Int.toNat_one]
      omega
  · rw [packMag_of_normal q hhigh hn]
    rcases Nat.lt_or_ge (n + 1) (2 ^ (f.mbits + 1)) with hnext | hnext
    · rw [packMag_of_normal q (by omega) hnext]
      omega
    · have htop : n + 1 = 2 ^ (f.mbits + 1) := by omega
      have hexp : (q + 1 + f.mbits + f.bias).toNat = (q + f.mbits + f.bias).toNat + 1 := by omega
      rw [htop, packMag_carry, packMag_of_normal _ le_rfl (by omega), hexp, Nat.succ_mul]
      omega

theorem packMag_mod_two {f : FFmt} {n : Nat} {q : Int} (h : f.Scaled n q) : packMag f n q % 2 = n % 2 := by
  obtain ⟨-, hn, -⟩ := h
  obtain ⟨b, hb⟩ : ∃ b, f.mbits = b + 1 := ⟨f.mbits - 1, by have := f.mbits_pos; omega⟩
  rcases Nat.lt_or_ge n (2 ^ f.mbits) with hlow | hhigh
  · rw [packMag, if_pos hlow]
  · have heven : 2 ^ f.mbits = 2 * 2 ^ b := by rw [hb]; ring
    rw [packMag_of_normal q hhigh hn, heven, ← Nat.mul_assoc, Nat.mul_comm _ 2, Nat.mul_assoc]
    omega

theorem FFmt.magOf_packMag {f : FFmt} {n : Nat} {q : Int} (h : f.Scaled n q) : f.magOf (packMag f n q) = n * 2 ^ q := by
  obtain ⟨hq, hn, hsub⟩ := h
  have hbias := f.emin_add_bias
  have hpos : 0 < 2 ^ f.mbits := by positivity
  have hpow : 2 ^ (f.mbits + 1) = 2 * 2 ^ f.mbits := by ring
  rcases Nat.lt_or_ge n (2 ^ f.mbits) with hlow | hhigh
  · rw [packMag, if_pos hlow, FFmt.magOf, if_pos (Nat.div_eq_of_lt hlow), hsub hlow]
  · have hfrac : n - 2 ^ f.mbits < 2 ^ f.mbits := by omega
    have hdiv : packMag f n q / 2 ^ f.mbits = (q + f.mbits + f.bias).toNat := by
      rw [packMag_of_normal q hhigh hn, Nat.mul_comm, Nat.mul_add_div hpos, Nat.div_eq_of_lt hfrac, Nat.add_zero]
    have hmod : packMag f n q % 2 ^ f.mbits = n - 2 ^ f.mbits := by
      rw [packMag_of_normal q hhigh hn, Nat.mul_comm, Nat.mul_add_mod, Nat.mod_eq_of_lt hfrac]
    rw [FFmt.magOf, hdiv, hmod, if_neg (by omega), Nat.add_sub_cancel' hhigh]
    congr 2
    omega

/-- Every pattern is that of a significand and a weight. -/
theorem exists_packMag (f : FFmt) (p : Nat) : ∃ n q, f.Scaled n q ∧ packMag f n q = p := by
  have hbias := f.emin_add_bias
  have hpos : 0 < 2 ^ f.mbits := by positivity
  have hpow : 2 ^ (f.mbits + 1) = 2 * 2 ^ f.mbits := by ring
  have hmod := Nat.mod_lt p hpos
  rcases Nat.lt_or_ge p (2 ^ f.mbits) with hlow | hhigh
  · exact ⟨p, f.emin - f.mbits, ⟨le_rfl, by omega, fun _ => rfl⟩, if_pos hlow⟩
  · have hexp : 1 ≤ p / 2 ^ f.mbits := (Nat.one_le_div_iff hpos).2 hhigh
    refine ⟨2 ^ f.mbits + p % 2 ^ f.mbits, (p / 2 ^ f.mbits : Nat) - f.bias - f.mbits, ⟨?_, by omega, fun h => by omega⟩, ?_⟩
    · generalize p / 2 ^ f.mbits = k at hexp; omega
    · rw [packMag_of_normal _ (Nat.le_add_right _ _) (by omega), Nat.add_sub_cancel_left,
        show ((p / 2 ^ f.mbits : Nat) - (f.bias : Int) - f.mbits + f.mbits + f.bias).toNat = p / 2 ^ f.mbits by omega]
      exact Nat.div_add_mod' p _

theorem FFmt.magOf_succ {f : FFmt} {n : Nat} {q : Int} (h : f.Scaled n q) : f.magOf (packMag f n q + 1) = (n + 1) * 2 ^ q := by
  obtain ⟨hq, hn, hsub⟩ := h
  have hbias := f.emin_add_bias
  have hpow : 2 ^ (f.mbits + 1) = 2 * 2 ^ f.mbits := by ring
  rw [← packMag_succ ⟨hq, hn, hsub⟩]
  rcases Nat.lt_or_ge (n + 1) (2 ^ (f.mbits + 1)) with hnext | hnext
  · rw [FFmt.magOf_packMag ⟨hq, hnext, fun h => hsub (by omega)⟩, Nat.cast_succ]
  · have htop : n + 1 = 2 ^ (f.mbits + 1) := by omega
    have hval : (n : ℚ) + 1 = 2 * 2 ^ f.mbits := by exact_mod_cast htop.trans hpow
    rw [htop, packMag_carry, FFmt.magOf_packMag ⟨by omega, by omega, fun h => absurd h (lt_irrefl _)⟩, hval, zpow_add_one₀ two_ne_zero]
    push_cast
    ring

theorem FFmt.magOf_strictMono (f : FFmt) : StrictMono f.magOf := by
  refine strictMono_nat_of_lt_succ fun p => ?_
  obtain ⟨n, q, h, rfl⟩ := exists_packMag f p
  rw [FFmt.magOf_succ h, FFmt.magOf_packMag h]
  exact mul_lt_mul_of_pos_right (lt_add_one _) (by positivity)

/-! A magnitude on that scale (R47). -/

/-- The weight of the last bit that a format keeps of m × 2^e. -/
def FFmt.quantum (f : FFmt) (m : Nat) (e : Int) : Int := max ((Nat.log2 m : Int) + e) f.emin - f.mbits

/-- The bits that are cut off. -/
def FFmt.cut (f : FFmt) (m : Nat) (e : Int) : Nat := (f.quantum m e - e).toNat

/-- The significand that is left. -/
def FFmt.units (f : FFmt) (m : Nat) (e : Int) : Nat :=
  if e < f.quantum m e then m / 2 ^ f.cut m e else m * 2 ^ (e - f.quantum m e).toNat

/-- What is cut off, in units of the last bit of `m`. -/
def FFmt.rest (f : FFmt) (m : Nat) (e : Int) : Nat := if e < f.quantum m e then m % 2 ^ f.cut m e else 0

theorem FFmt.rest_lt (f : FFmt) (m : Nat) (e : Int) : f.rest m e < 2 ^ f.cut m e := by
  unfold FFmt.rest
  split
  · exact Nat.mod_lt _ (by positivity)
  · positivity

theorem FFmt.units_add_rest (f : FFmt) (m : Nat) (e : Int) :
    (m : ℚ) * 2 ^ e = (f.units m e + f.rest m e / 2 ^ f.cut m e) * 2 ^ f.quantum m e := by
  unfold FFmt.units FFmt.rest
  split
  next h =>
    have hcut : (2 : ℚ) ^ f.quantum m e = 2 ^ f.cut m e * 2 ^ e := by
      rw [← zpow_natCast, ← zpow_add₀ two_ne_zero]
      congr 1
      unfold FFmt.cut
      omega
    have hm : (m : ℚ) = (m / 2 ^ f.cut m e : Nat) * 2 ^ f.cut m e + (m % 2 ^ f.cut m e : Nat) := by
      exact_mod_cast (Nat.div_add_mod' m (2 ^ f.cut m e)).symm
    have hpos : (2 : ℚ) ^ f.cut m e ≠ 0 := by positivity
    rw [hcut, hm]
    field_simp
  next h =>
    have hup : (2 : ℚ) ^ e = 2 ^ (e - f.quantum m e).toNat * 2 ^ f.quantum m e := by
      rw [← zpow_natCast, ← zpow_add₀ two_ne_zero]
      congr 1
      omega
    rw [hup]
    push_cast
    ring

theorem magnitude_lt (m : Nat) (e : Int) : (m : ℚ) * 2 ^ e < 2 ^ ((Nat.log2 m : Int) + e + 1) := by
  have h : (m : ℚ) < 2 ^ (Nat.log2 m + 1) := by exact_mod_cast Nat.lt_log2_self
  rw [show (Nat.log2 m : Int) + e + 1 = (Nat.log2 m + 1 : Nat) + e by push_cast; ring, zpow_add₀ two_ne_zero, zpow_natCast]
  exact mul_lt_mul_of_pos_right h (by positivity)

theorem le_magnitude {m : Nat} (hm : m ≠ 0) (e : Int) : (2 : ℚ) ^ ((Nat.log2 m : Int) + e) ≤ m * 2 ^ e := by
  have h : (2 : ℚ) ^ Nat.log2 m ≤ m := by exact_mod_cast Nat.log2_self_le hm
  rw [zpow_add₀ two_ne_zero, zpow_natCast]
  exact mul_le_mul_of_nonneg_right h (by positivity)

theorem FFmt.units_le (f : FFmt) (m : Nat) (e : Int) : f.units m e * 2 ^ f.quantum m e ≤ (m : ℚ) * 2 ^ e := by
  have hfrac : 0 ≤ (f.rest m e : ℚ) / 2 ^ f.cut m e := by positivity
  rw [f.units_add_rest m e]
  exact mul_le_mul_of_nonneg_right (by linarith) (by positivity)

theorem FFmt.lt_units_succ (f : FFmt) (m : Nat) (e : Int) : (m : ℚ) * 2 ^ e < (f.units m e + 1) * 2 ^ f.quantum m e := by
  have h : (f.rest m e : ℚ) < 2 ^ f.cut m e := by exact_mod_cast f.rest_lt m e
  rw [f.units_add_rest m e]
  have hfrac : (f.rest m e : ℚ) / 2 ^ f.cut m e < 1 := (div_lt_one (by positivity)).2 h
  exact mul_lt_mul_of_pos_right (by linarith) (by positivity)

theorem FFmt.scaled_units (f : FFmt) {m : Nat} (hm : m ≠ 0) (e : Int) : f.Scaled (f.units m e) (f.quantum m e) := by
  refine ⟨by unfold FFmt.quantum; omega, ?_, fun hlow => ?_⟩
  · have h1 : (f.units m e : ℚ) * 2 ^ f.quantum m e < 2 ^ (f.mbits + 1 : Nat) * 2 ^ f.quantum m e := by
      refine ((f.units_le m e).trans_lt (magnitude_lt m e)).trans_le ?_
      rw [← zpow_natCast, ← zpow_add₀ two_ne_zero]
      refine zpow_le_zpow_right₀ one_le_two ?_
      unfold FFmt.quantum
      push_cast
      omega
    exact_mod_cast lt_of_mul_lt_mul_right h1 (by positivity)
  · by_contra hne
    have hnormal : f.quantum m e = (Nat.log2 m : Int) + e - f.mbits := by unfold FFmt.quantum at hne ⊢; omega
    have hle : (f.units m e : ℚ) + 1 ≤ 2 ^ f.mbits := by exact_mod_cast hlow
    have h1 : (f.units m e + 1 : ℚ) * 2 ^ f.quantum m e ≤ 2 ^ ((Nat.log2 m : Int) + e) := by
      refine (mul_le_mul_of_nonneg_right hle (by positivity)).trans_eq ?_
      rw [hnormal, ← zpow_natCast, ← zpow_add₀ two_ne_zero]
      congr 1
      ring
    exact absurd ((le_magnitude hm e).trans_lt (f.lt_units_succ m e)) (not_lt.2 h1)

end Sys2Proof.Machine
end

section
namespace Sys2Proof.Machine

/-! What the rounding function makes of a magnitude (R47). -/

/-- The greatest pattern whose magnitude is not above m × 2^e. -/
def FFmt.floorPat (f : FFmt) (m : Nat) (e : Int) : Nat := packMag f (f.units m e) (f.quantum m e)

/-- Is the upper neighbour taken? -/
def FFmt.roundsUp (f : FFmt) (neg : Bool) (m : Nat) (e : Int) (mode : Rm) (h : BitVec 16) : Bool :=
  f.rest m e != 0 && roundUp neg mode h (f.units m e) (f.rest m e) (f.cut m e) false

/-- The pattern without its sign. -/
def FFmt.roundedPat (f : FFmt) (neg : Bool) (m : Nat) (e : Int) (mode : Rm) (h : BitVec 16) : Nat :=
  if f.roundsUp neg m e mode h then f.floorPat m e + 1 else f.floorPat m e

/-- The flags of what is cut off. -/
def FFmt.cutFlags (f : FFmt) (m : Nat) (e : Int) : Flags :=
  if f.rest m e = 0 then 0 else flagNX ||| flagIf (decide ((Nat.log2 m : Int) + e < f.emin)) flagUF

section
variable {f : FFmt} {neg : Bool} {m : Nat} {e : Int} {mode : Rm} {sat : Bool} {h : BitVec 16}

theorem roundMag_eq (hm : m ≠ 0) : roundMag f neg m e false mode sat h =
    if f.maxPat < f.roundedPat neg m e mode h then
      ⟨(overflow f neg mode sat).pat, (overflow f neg mode sat).flags ||| f.cutFlags m e⟩
    else ⟨withSign f neg (f.roundedPat neg m e mode h), f.cutFlags m e⟩ := by
  have hpat : f.roundedPat neg m e mode h =
      packMag f (if f.rest m e = 0 then f.units m e
        else if roundUp neg mode h (f.units m e) (f.rest m e) (f.cut m e) false then f.units m e + 1 else f.units m e)
        (f.quantum m e) := by
    unfold FFmt.roundedPat FFmt.roundsUp FFmt.floorPat
    by_cases hr : f.rest m e = 0
    · simp [hr]
    · by_cases hup : roundUp neg mode h (f.units m e) (f.rest m e) (f.cut m e) false = true
      · simp [hr, hup, packMag_succ (f.scaled_units hm e)]
      · simp [hr, hup]
  rw [roundMag, if_neg hm, hpat]
  simp only [Bool.not_false, Bool.and_true, beq_iff_eq]
  rfl

theorem FFmt.magOf_floorPat (hm : m ≠ 0) : f.magOf (f.floorPat m e) = f.units m e * 2 ^ f.quantum m e :=
  FFmt.magOf_packMag (f.scaled_units hm e)

theorem FFmt.magOf_floorPat_succ (hm : m ≠ 0) : f.magOf (f.floorPat m e + 1) = (f.units m e + 1) * 2 ^ f.quantum m e :=
  FFmt.magOf_succ (f.scaled_units hm e)

theorem FFmt.magOf_floorPat_le (hm : m ≠ 0) : f.magOf (f.floorPat m e) ≤ m * 2 ^ e :=
  (FFmt.magOf_floorPat hm).trans_le (f.units_le m e)

theorem FFmt.lt_magOf_floorPat_succ (hm : m ≠ 0) : (m : ℚ) * 2 ^ e < f.magOf (f.floorPat m e + 1) :=
  (f.lt_units_succ m e).trans_eq (FFmt.magOf_floorPat_succ hm).symm

/-- How far the magnitude lies above its lower neighbour. -/
theorem FFmt.sub_magOf_floorPat (hm : m ≠ 0) :
    m * 2 ^ e - f.magOf (f.floorPat m e) = f.rest m e * (2 ^ f.quantum m e / 2 ^ f.cut m e) := by
  rw [FFmt.magOf_floorPat hm, f.units_add_rest m e]
  ring

theorem FFmt.magOf_floorPat_succ_sub (hm : m ≠ 0) :
    f.magOf (f.floorPat m e + 1) - m * 2 ^ e = (2 ^ f.cut m e - f.rest m e) * (2 ^ f.quantum m e / 2 ^ f.cut m e) := by
  rw [FFmt.magOf_floorPat_succ hm, f.units_add_rest m e]
  field_simp
  ring

theorem FFmt.rest_eq_zero_iff (hm : m ≠ 0) : f.rest m e = 0 ↔ f.magOf (f.floorPat m e) = m * 2 ^ e := by
  have h := f.sub_magOf_floorPat (e := e) hm
  constructor
  · intro hr
    rw [hr, Nat.cast_zero, zero_mul] at h
    linarith
  · intro heq
    rw [heq, sub_self, eq_comm, mul_eq_zero, or_iff_left (by positivity)] at h
    exact_mod_cast h

/-- A magnitude that the format has is that pattern, without a flag. -/
theorem roundMag_exact {p : Nat} (hp : p ≤ f.maxPat) (hval : f.magOf p = m * 2 ^ e) :
    roundMag f neg m e false mode sat h = ⟨withSign f neg p, 0⟩ := by
  have hzero : f.magOf 0 = 0 := by simp [FFmt.magOf]
  by_cases hm : m = 0
  · rw [hm, Nat.cast_zero, zero_mul, ← hzero] at hval
    rw [hm, roundMag, if_pos rfl, f.magOf_strictMono.injective hval]
  · have hle : f.floorPat m e ≤ p := f.magOf_strictMono.le_iff_le.1 ((FFmt.magOf_floorPat_le hm).trans_eq hval.symm)
    have hlt : p < f.floorPat m e + 1 := f.magOf_strictMono.lt_iff_lt.1 (hval.trans_lt (FFmt.lt_magOf_floorPat_succ hm))
    obtain rfl : p = f.floorPat m e := by omega
    have hr := (FFmt.rest_eq_zero_iff hm).2 hval
    have hpat : f.roundedPat neg m e mode h = f.floorPat m e := by simp [FFmt.roundedPat, FFmt.roundsUp, hr]
    rw [roundMag_eq hm, hpat, if_neg (by omega), FFmt.cutFlags, if_pos hr]

/-! The flags. -/

theorem FFmt.cutFlags_NX : (f.cutFlags m e).getLsbD 4 = true ↔ f.rest m e ≠ 0 := by
  unfold FFmt.cutFlags flagIf
  by_cases hr : f.rest m e = 0
  · simp [hr]
  · by_cases hs : (Nat.log2 m : Int) + e < f.emin <;> simp [hr, hs] <;> decide

theorem FFmt.cutFlags_UF : (f.cutFlags m e).getLsbD 3 = true ↔ f.rest m e ≠ 0 ∧ (Nat.log2 m : Int) + e < f.emin := by
  unfold FFmt.cutFlags flagIf
  by_cases hr : f.rest m e = 0
  · simp [hr]
  · by_cases hs : (Nat.log2 m : Int) + e < f.emin <;> simp [hr, hs] <;> decide

/-- An exact value below the least normal number is one whose leading bit is. -/
theorem lt_two_zpow_iff (hm : m ≠ 0) (k : Int) : (m : ℚ) * 2 ^ e < 2 ^ k ↔ (Nat.log2 m : Int) + e < k := by
  constructor
  · intro hlt
    exact (zpow_lt_zpow_iff_right₀ one_lt_two).1 ((le_magnitude hm e).trans_lt hlt)
  · intro hlt
    exact (magnitude_lt m e).trans_le (zpow_le_zpow_right₀ one_le_two hlt)

/-- A result that overflows says so, or that it saturates. -/
theorem overflow_flags : (overflow f neg mode sat).flags.getLsbD 2 = true ∨ (overflow f neg mode sat).flags.getLsbD 5 = true := by
  cases f <;> cases neg <;> cases mode <;> cases sat <;> decide

/-- A result without OF and SAT is one of the neighbours. -/
theorem roundMag_within (hm : m ≠ 0) (hof : (roundMag f neg m e false mode sat h).flags.getLsbD 2 = false)
    (hsat : (roundMag f neg m e false mode sat h).flags.getLsbD 5 = false) :
    f.roundedPat neg m e mode h ≤ f.maxPat ∧
      roundMag f neg m e false mode sat h = ⟨withSign f neg (f.roundedPat neg m e mode h), f.cutFlags m e⟩ := by
  rw [roundMag_eq hm] at hof hsat ⊢
  by_cases hbig : f.maxPat < f.roundedPat neg m e mode h
  · rw [if_pos hbig] at hof hsat
    simp only [BitVec.getLsbD_or, Bool.or_eq_false_iff] at hof hsat
    rcases overflow_flags (f := f) (neg := neg) (mode := mode) (sat := sat) with ho | ho
    · exact absurd (ho.symm.trans hof.1) (by decide)
    · exact absurd (ho.symm.trans hsat.1) (by decide)
  · exact ⟨not_lt.1 hbig, if_neg hbig⟩

/-! The modes. -/

theorem FFmt.roundedPat_ne (hm : m ≠ 0) (hr : f.rest m e ≠ 0) : f.magOf (f.roundedPat neg m e mode h) ≠ m * 2 ^ e := by
  unfold FFmt.roundedPat
  split
  · exact (FFmt.lt_magOf_floorPat_succ hm).ne'
  · exact fun heq => hr ((FFmt.rest_eq_zero_iff hm).2 heq)

theorem FFmt.roundedPat_exact (hr : f.rest m e = 0) : f.roundedPat neg m e mode h = f.floorPat m e := by
  simp [FFmt.roundedPat, FFmt.roundsUp, hr]

theorem FFmt.magOf_roundedPat_eq_iff (hm : m ≠ 0) : f.magOf (f.roundedPat neg m e mode h) = m * 2 ^ e ↔ f.rest m e = 0 := by
  constructor
  · exact fun heq => by_contra fun hr => FFmt.roundedPat_ne hm hr heq
  · intro hr
    rw [FFmt.roundedPat_exact hr]
    exact (FFmt.rest_eq_zero_iff hm).1 hr

/-- A pattern on the lower side is as far from the magnitude as the lower neighbour, which it then is, or farther. -/
theorem FFmt.far_of_le (hm : m ≠ 0) {q : Nat} (hq : q ≤ f.floorPat m e) :
    m * 2 ^ e - f.magOf (f.floorPat m e) ≤ |f.magOf q - m * 2 ^ e| ∧
      (m * 2 ^ e - f.magOf (f.floorPat m e) = |f.magOf q - m * 2 ^ e| → q = f.floorPat m e) := by
  have h1 := f.magOf_strictMono.monotone hq
  have h2 := f.magOf_floorPat_le (e := e) hm
  rw [abs_of_nonpos (by linarith)]
  exact ⟨by linarith, fun heq => f.magOf_strictMono.injective (by linarith)⟩

theorem FFmt.far_of_gt (hm : m ≠ 0) {q : Nat} (hq : f.floorPat m e + 1 ≤ q) :
    f.magOf (f.floorPat m e + 1) - m * 2 ^ e ≤ |f.magOf q - m * 2 ^ e| ∧
      (f.magOf (f.floorPat m e + 1) - m * 2 ^ e = |f.magOf q - m * 2 ^ e| → q = f.floorPat m e + 1) := by
  have h1 := f.magOf_strictMono.monotone hq
  have h2 := f.lt_magOf_floorPat_succ (e := e) hm
  rw [abs_of_nonneg (by linarith)]
  exact ⟨by linarith, fun heq => f.magOf_strictMono.injective (by linarith)⟩

/-- Twice what is cut off, against one unit: nearer to the lower neighbour, or to the upper one. -/
theorem FFmt.nearer_iff (hm : m ≠ 0) :
    (m * 2 ^ e - f.magOf (f.floorPat m e) < f.magOf (f.floorPat m e + 1) - m * 2 ^ e ↔ 2 * f.rest m e < 2 ^ f.cut m e) ∧
    (f.magOf (f.floorPat m e + 1) - m * 2 ^ e < m * 2 ^ e - f.magOf (f.floorPat m e) ↔ 2 ^ f.cut m e < 2 * f.rest m e) := by
  have hu : (0 : ℚ) < 2 ^ f.quantum m e / 2 ^ f.cut m e := by positivity
  rw [FFmt.sub_magOf_floorPat hm, FFmt.magOf_floorPat_succ_sub hm, mul_lt_mul_iff_of_pos_right hu, mul_lt_mul_iff_of_pos_right hu,
    lt_sub_iff_add_lt, sub_lt_iff_lt_add, ← two_mul]
  exact ⟨by exact_mod_cast Iff.rfl, by exact_mod_cast Iff.rfl⟩

theorem FFmt.roundsUp_rne : f.roundsUp neg m e .rne h = true ↔
    2 ^ f.cut m e < 2 * f.rest m e ∨ 2 * f.rest m e = 2 ^ f.cut m e ∧ f.units m e % 2 = 1 := by
  have hlt := f.rest_lt m e
  by_cases hr : f.rest m e = 0
  · have hpos : 0 < 2 ^ f.cut m e := by positivity
    simp [FFmt.roundsUp, hr, hpos.ne]
  have hcut : f.cut m e ≠ 0 := fun h0 => by rw [h0] at hlt; omega
  have hhalf : 2 ^ f.cut m e = 2 * 2 ^ (f.cut m e - 1) := by rw [← pow_succ', Nat.sub_add_cancel (by omega)]
  rw [FFmt.roundsUp, bne_iff_ne.2 hr, Bool.true_and, roundUp, if_neg hcut, hhalf]
  dsimp only
  split
  next => simp; omega
  next =>
    split
    next => simp; omega
    next => simp; omega

/-- RNE takes the nearest pattern, of two as near the one with an even last bit. -/
theorem FFmt.roundedPat_rne (hm : m ≠ 0) (q : Nat) :
    |f.magOf (f.roundedPat neg m e .rne h) - m * 2 ^ e| ≤ |f.magOf q - m * 2 ^ e| ∧
      (|f.magOf (f.roundedPat neg m e .rne h) - m * 2 ^ e| = |f.magOf q - m * 2 ^ e| →
        q = f.roundedPat neg m e .rne h ∨ f.roundedPat neg m e .rne h % 2 = 0) := by
  obtain ⟨hdown, hup⟩ := FFmt.nearer_iff (f := f) (e := e) hm
  have hlow := f.magOf_floorPat_le (e := e) hm
  have hhigh := f.lt_magOf_floorPat_succ (e := e) hm
  have hparity : f.floorPat m e % 2 = f.units m e % 2 := packMag_mod_two (f.scaled_units hm e)
  have hside := Nat.lt_or_ge q (f.floorPat m e + 1)
  by_cases hto : f.roundsUp neg m e .rne h = true
  · have hcase := FFmt.roundsUp_rne.1 hto
    have hle := not_lt.1 (mt hdown.1 (by omega))
    rw [FFmt.roundedPat, if_pos hto, abs_of_nonneg (by linarith)]
    rcases hside with hq | hq
    · obtain ⟨hfar, -⟩ := FFmt.far_of_le (f := f) (e := e) hm (Nat.le_of_lt_succ hq)
      refine ⟨hle.trans hfar, fun heq => .inr ?_⟩
      have := mt hup.2 (not_lt.2 (by linarith))
      omega
    · obtain ⟨hfar, hself⟩ := FFmt.far_of_gt (f := f) (e := e) hm hq
      exact ⟨hfar, fun heq => .inl (hself heq)⟩
  · have hcase := mt FFmt.roundsUp_rne.2 hto
    have hle := not_lt.1 (mt hup.1 (by omega))
    rw [FFmt.roundedPat, if_neg hto, abs_of_nonpos (by linarith), neg_sub]
    rcases hside with hq | hq
    · obtain ⟨hfar, hself⟩ := FFmt.far_of_le (f := f) (e := e) hm (Nat.le_of_lt_succ hq)
      exact ⟨hfar, fun heq => .inl (hself heq)⟩
    · obtain ⟨hfar, -⟩ := FFmt.far_of_gt (f := f) (e := e) hm hq
      refine ⟨hle.trans hfar, fun heq => .inr ?_⟩
      have := mt hdown.2 (not_lt.2 (by linarith))
      omega

/-- A mode that rounds toward zero takes the lower neighbour. -/
theorem FFmt.roundedPat_towardZero (hm : m ≠ 0) (hmode : mode = .rtz ∨ (mode = .rpi ∧ neg = true) ∨ (mode = .rni ∧ neg = false)) :
    f.magOf (f.roundedPat neg m e mode h) ≤ m * 2 ^ e ∧ m * 2 ^ e < f.magOf (f.roundedPat neg m e mode h + 1) := by
  have hto : f.roundsUp neg m e mode h = false := by
    rcases hmode with rfl | ⟨rfl, rfl⟩ | ⟨rfl, rfl⟩ <;> simp [FFmt.roundsUp, roundUp]
  rw [FFmt.roundedPat, hto, if_neg Bool.false_ne_true]
  exact ⟨FFmt.magOf_floorPat_le hm, FFmt.lt_magOf_floorPat_succ hm⟩

/-- What every mode takes is less than one pattern away from the magnitude. -/
theorem FFmt.roundedPat_neighbour (hm : m ≠ 0) : m * 2 ^ e < f.magOf (f.roundedPat neg m e mode h + 1) ∧
    (f.roundedPat neg m e mode h = 0 ∨ f.magOf (f.roundedPat neg m e mode h - 1) < m * 2 ^ e) := by
  have hlow := f.magOf_floorPat_le (e := e) hm
  have hhigh := f.lt_magOf_floorPat_succ (e := e) hm
  unfold FFmt.roundedPat
  split
  next hto =>
    refine ⟨hhigh.trans (f.magOf_strictMono (Nat.lt_succ_self _)), .inr ?_⟩
    have hr : f.rest m e ≠ 0 := by simp only [FFmt.roundsUp, Bool.and_eq_true, bne_iff_ne] at hto; exact hto.1
    exact lt_of_le_of_ne hlow (mt (FFmt.rest_eq_zero_iff hm).2 hr)
  next =>
    refine ⟨hhigh, (Nat.eq_zero_or_pos _).imp_right fun hpos => ?_⟩
    exact (f.magOf_strictMono (Nat.sub_lt hpos one_pos)).trans_le hlow

/-- A mode that rounds away from zero takes the upper neighbour of a magnitude that the format does not have. -/
theorem FFmt.roundedPat_awayFromZero (hm : m ≠ 0) (hmode : (mode = .rpi ∧ neg = false) ∨ (mode = .rni ∧ neg = true)) :
    m * 2 ^ e ≤ f.magOf (f.roundedPat neg m e mode h) := by
  by_cases hr : f.rest m e = 0
  · exact ((FFmt.magOf_roundedPat_eq_iff hm).2 hr).ge
  · have hto : f.roundsUp neg m e mode h = true := by
      rcases hmode with ⟨rfl, rfl⟩ | ⟨rfl, rfl⟩ <;> simp [FFmt.roundsUp, roundUp, hr]
    rw [FFmt.roundedPat, hto, if_pos rfl]
    exact (FFmt.lt_magOf_floorPat_succ hm).le

end

/-- Settles O4: the result is a neighbour of the exact value, chosen by the mode. -/
theorem roundingIsCorrect : Obligations.RoundingIsCorrect := by
  unfold Obligations.RoundingIsCorrect
  intro f neg m e mode sat h hm r x hof hsat
  obtain ⟨hmax, hr⟩ : f.roundedPat neg m e mode h ≤ f.maxPat ∧ r = ⟨withSign f neg (f.roundedPat neg m e mode h), f.cutFlags m e⟩ :=
    roundMag_within hm hof hsat
  have hexact : f.magOf (f.roundedPat neg m e mode h) ≠ x ↔ f.rest m e ≠ 0 := not_congr (FFmt.magOf_roundedPat_eq_iff hm)
  have hnext := FFmt.roundedPat_neighbour (f := f) (neg := neg) (e := e) (mode := mode) (h := h) hm
  rw [hr]
  refine ⟨f.roundedPat neg m e mode h, rfl, hmax, ?_, ?_, ?_, FFmt.roundedPat_towardZero hm,
    fun hmode => ⟨FFmt.roundedPat_awayFromZero hm hmode, hnext.2⟩, fun _ => hnext⟩
  · rw [FFmt.cutFlags_NX, hexact]
  · rw [FFmt.cutFlags_UF, hexact, lt_two_zpow_iff hm]
  · rintro rfl q
    exact FFmt.roundedPat_rne hm q

end Sys2Proof.Machine
end

section
namespace Sys2Proof.Machine

/-! The special results of FP32 arithmetic (R39, R57). -/

theorem zero_or_flags (f : Flags) : 0 ||| f = f := BitVec.zero_or

theorem flagIf_or (a b : Bool) (f : Flags) : flagIf a f ||| flagIf b f = flagIf (a || b) f := by cases a <;> cases b <;> simp [flagIf]

theorem snanFlag_pair (x y : Val) : snanFlag [x, y] = flagIf (x.isSnan || y.isSnan) flagNV := by simp [snanFlag]

section
variable (m : Rm) (sat : Bool) (h : BitVec 16) (st : Bool) (fl : Flags)

theorem Exact.round_nan (s : Bool) : Exact.round ⟨.nan s, st, fl⟩ .fp32 m sat h = ⟨0x7FC00000, fl⟩ := by
  simp [Exact.round, roundTo, nanOut, FFmt.nanPat]

theorem Exact.round_inf (n : Bool) : Exact.round ⟨.inf n, st, fl⟩ .fp32 m sat h = ⟨withSign .fp32 n 0x7F800000, fl⟩ := by
  simp [Exact.round, roundTo, infOut, FFmt.infPat]

theorem Exact.round_zero (n : Bool) (e : Int) : Exact.round ⟨.fin n 0 e, st, fl⟩ .fp32 m sat h = ⟨withSign .fp32 n 0, fl⟩ := by
  show (⟨withSign .fp32 n 0, 0 ||| fl⟩ : Rounded) = _
  rw [zero_or_flags]

end

theorem withSign_inf (n : Bool) : withSign .fp32 n 0x7F800000 = if n then 0xFF800000 else 0x7F800000 := by cases n <;> rfl

theorem withSign_zero (n : Bool) : withSign .fp32 n 0 = if n then 0x80000000 else 0 := by cases n <;> rfl

theorem Val.isNan_iff (x : Val) : x.isNan = true ↔ ∃ s, x = .nan s := by cases x <;> simp [Val.isNan]

theorem Val.isInf_iff (x : Val) : x.isInf = true ↔ x = .inf x.neg := by cases x <;> simp [Val.isInf, Val.neg]

theorem Val.isZero_iff (x : Val) : x.isZero = true ↔ ∃ e, x = .fin x.neg 0 e := by
  cases x with
  | fin n k e => simp [Val.isZero, Val.neg]
  | _ => simp [Val.isZero]

/-! Sums. -/

theorem exactAdd_nan {x y : Val} (m : Rm) (hn : x.isNan = true ∨ y.isNan = true) :
    exactAdd x y m = ⟨.nan false, false, flagIf (x.isSnan || y.isSnan) flagNV⟩ := by
  rw [← snanFlag_pair]
  rcases hn with hn | hn
  · obtain ⟨s, rfl⟩ := (Val.isNan_iff x).1 hn
    rfl
  · obtain ⟨s, rfl⟩ := (Val.isNan_iff y).1 hn
    cases x <;> rfl

theorem exactAdd_inf_finite (n : Bool) {y : Val} (m : Rm) (hy : y = .inf n ∨ y.isNan = false ∧ y.isInf = false) :
    exactAdd (.inf n) y m = ⟨.inf n, false, 0⟩ := by
  cases y <;> simp_all [exactAdd, Val.isNan, Val.isInf]

theorem exactAdd_finite_inf (n : Bool) {x : Val} (m : Rm) (hx : x.isNan = false) (hi : x.isInf = false) :
    exactAdd x (.inf n) m = ⟨.inf n, false, 0⟩ := by
  cases x <;> simp_all [exactAdd, Val.isNan, Val.isInf]

theorem exactAdd_zeros (a b : Bool) (e g : Int) (m : Rm) :
    exactAdd (.fin a 0 e) (.fin b 0 g) m = ⟨.fin (if a = b then a else m == .rni) 0 0, false, 0⟩ := by
  by_cases hab : a = b <;> simp [exactAdd, hab, ofSigned, signedAt]

theorem exactAdd_cancel (n : Bool) (k : Nat) (e : Int) (m : Rm) :
    exactAdd (.fin n (k + 1) e) (.fin (!n) (k + 1) e) m = ⟨.fin (m == .rni) 0 0, false, 0⟩ := by
  cases n <;> simp [exactAdd, ofSigned, signedAt]

theorem roundedSum_special (x y : Val) (m : Rm) (sat : Bool) (h : BitVec 16) :
    let r := (exactAdd x y m).round .fp32 m sat h
    (x.isNan = true ∨ y.isNan = true → r = ⟨0x7FC00000, flagIf (x.isSnan || y.isSnan) flagNV⟩) ∧
    (∀ n, x = .inf n → y = .inf (!n) → r = ⟨0x7FC00000, flagNV⟩) ∧
    (∀ n, (x = .inf n ∧ (y = .inf n ∨ y.isNan = false ∧ y.isInf = false)) ∨ (x.isNan = false ∧ x.isInf = false ∧ y = .inf n) →
      r = ⟨if n then 0xFF800000 else 0x7F800000, 0⟩) ∧
    (x.isZero = true → y.isZero = true → x.neg = y.neg → r = ⟨if x.neg then 0x80000000 else 0, 0⟩) ∧
    (x.isZero = true → y.isZero = true → x.neg ≠ y.neg → r = ⟨if m = .rni then 0x80000000 else 0, 0⟩) ∧
    (∀ n k e, x = .fin n (k + 1) e → y = .fin (!n) (k + 1) e → r = ⟨if m = .rni then 0x80000000 else 0, 0⟩) := by
  dsimp only
  refine ⟨fun hn => ?_, ?_, fun n hn => ?_, fun hx hy hs => ?_, fun hx hy hs => ?_, ?_⟩
  · rw [exactAdd_nan m hn, Exact.round_nan]
  · rintro n rfl rfl
    rw [exactAdd, if_neg (by simp), Exact.round_nan]
  · rw [← withSign_inf]
    rcases hn with ⟨rfl, hy⟩ | ⟨hx, hi, rfl⟩
    · rw [exactAdd_inf_finite n m hy, Exact.round_inf]
    · rw [exactAdd_finite_inf n m hx hi, Exact.round_inf]
  · obtain ⟨e, he⟩ := (Val.isZero_iff x).1 hx
    obtain ⟨g, hg⟩ := (Val.isZero_iff y).1 hy
    rw [he, hg, exactAdd_zeros, if_pos hs, Exact.round_zero, withSign_zero]
    rfl
  · obtain ⟨e, he⟩ := (Val.isZero_iff x).1 hx
    obtain ⟨g, hg⟩ := (Val.isZero_iff y).1 hy
    rw [he, hg, exactAdd_zeros, if_neg hs, Exact.round_zero, withSign_zero]
    simp only [beq_iff_eq]
  · rintro n k e rfl rfl
    rw [exactAdd_cancel, Exact.round_zero, withSign_zero]
    simp only [beq_iff_eq]

/-! Products, quotients and roots. -/

theorem exactMul_nan {x y : Val} (hn : x.isNan = true ∨ y.isNan = true) :
    exactMul x y = ⟨.nan false, false, flagIf (x.isSnan || y.isSnan) flagNV⟩ := by
  rw [← snanFlag_pair]
  rcases hn with hn | hn
  · obtain ⟨s, rfl⟩ := (Val.isNan_iff x).1 hn
    rfl
  · obtain ⟨s, rfl⟩ := (Val.isNan_iff y).1 hn
    cases x <;> rfl

theorem exactDiv_nan {x y : Val} (hn : x.isNan = true ∨ y.isNan = true) :
    exactDiv x y = ⟨.nan false, false, flagIf (x.isSnan || y.isSnan) flagNV⟩ := by
  rw [← snanFlag_pair]
  rcases hn with hn | hn
  · obtain ⟨s, rfl⟩ := (Val.isNan_iff x).1 hn
    rfl
  · obtain ⟨s, rfl⟩ := (Val.isNan_iff y).1 hn
    cases x <;> rfl

/-- A zero times an infinity. -/
theorem exactMul_invalid {x y : Val} (hxy : (x.isInf = true ∧ y.isZero = true) ∨ (x.isZero = true ∧ y.isInf = true)) :
    exactMul x y = ⟨.nan false, false, flagNV⟩ := by
  rcases hxy with ⟨hx, hy⟩ | ⟨hx, hy⟩
  · obtain ⟨g, hg⟩ := (Val.isZero_iff y).1 hy
    rw [(Val.isInf_iff x).1 hx, hg]
    rfl
  · obtain ⟨g, hg⟩ := (Val.isZero_iff x).1 hx
    rw [(Val.isInf_iff y).1 hy, hg]
    rfl

/-- An infinity times what is neither NaN nor zero. -/
theorem exactMul_inf {x y : Val} (hx : x.isNan = false) (hy : y.isNan = false) (hx0 : x.isZero = false) (hy0 : y.isZero = false)
    (hi : x.isInf = true ∨ y.isInf = true) : exactMul x y = ⟨.inf (x.neg != y.neg), false, 0⟩ := by
  cases x <;> cases y <;> simp_all [exactMul, Val.isNan, Val.isZero, Val.isInf, Val.neg]

/-- A zero times what is finite. -/
theorem exactMul_zero {x y : Val} (hx : x.isNan = false) (hy : y.isNan = false) (hxi : x.isInf = false) (hyi : y.isInf = false)
    (hz : x.isZero = true ∨ y.isZero = true) : ∃ e, exactMul x y = ⟨.fin (x.neg != y.neg) 0 e, false, 0⟩ := by
  cases x <;> cases y <;> simp_all [exactMul, Val.isNan, Val.isZero, Val.isInf, Val.neg]

/-- A product without NaN and without a zero that meets an infinity. -/
theorem exactMul_valid {x y : Val} (hx : x.isNan = false) (hy : y.isNan = false)
    (hxy : ¬((x.isInf = true ∧ y.isZero = true) ∨ (x.isZero = true ∧ y.isInf = true))) :
    (exactMul x y).v.isNan = false ∧ (exactMul x y).flags = 0 := by
  cases x <;> cases y <;> simp_all [exactMul, Val.isNan, Val.isZero, Val.isInf]

theorem roundedFma_special (x y z : Val) (m : Rm) (sat : Bool) (h : BitVec 16) :
    let r := (exactFma x y z m).round .fp32 m sat h
    let neg := x.neg != y.neg
    ((x.isInf = true ∧ y.isZero = true) ∨ (x.isZero = true ∧ y.isInf = true) → r = ⟨0x7FC00000, flagNV⟩) ∧
    (x.isNan = true ∨ y.isNan = true ∨ (z.isNan = true ∧ ¬((x.isInf = true ∧ y.isZero = true) ∨ (x.isZero = true ∧ y.isInf = true))) →
      r = ⟨0x7FC00000, flagIf (x.isSnan || y.isSnan || z.isSnan) flagNV⟩) ∧
    (x.isNan = false → y.isNan = false → x.isZero = false → y.isZero = false → x.isInf = true ∨ y.isInf = true → z = .inf (!neg) →
      r = ⟨0x7FC00000, flagNV⟩) ∧
    (x.isInf = false → y.isInf = false → x.isNan = false → y.isNan = false → x.isZero = true ∨ y.isZero = true → z.isZero = true →
      r = ⟨if z.neg = neg then (if neg then 0x80000000 else 0) else if m = .rni then 0x80000000 else 0, 0⟩) := by
  dsimp only [exactFma]
  refine ⟨fun hxy => ?_, fun hn => ?_, fun hx hy hx0 hy0 hi hz => ?_, fun hxi hyi hx hy hz hz0 => ?_⟩
  · rw [exactMul_invalid hxy, exactAdd_nan m (.inl rfl), Exact.round_nan]
    cases z.isSnan <;> rfl
  · by_cases hxy : x.isNan = true ∨ y.isNan = true
    · rw [exactMul_nan hxy, exactAdd_nan m (.inl rfl), Exact.round_nan]
      dsimp only [Val.isSnan]
      rw [flagIf_or, Bool.false_or]
    · rw [← or_assoc, or_iff_right hxy] at hn
      rw [not_or, Bool.not_eq_true, Bool.not_eq_true] at hxy
      obtain ⟨hv, hfl⟩ := exactMul_valid hxy.1 hxy.2 hn.2
      have hs : ∀ v : Val, v.isNan = false → v.isSnan = false := by intro v; cases v <;> simp [Val.isNan, Val.isSnan]
      rw [exactAdd_nan m (.inr hn.1), Exact.round_nan, hfl, hs _ hv, hs _ hxy.1, hs _ hxy.2, zero_or_flags]
      rfl
  · rw [exactMul_inf hx hy hx0 hy0 hi, hz]
    simp only [exactAdd]
    rw [if_neg (by simp), Exact.round_nan, zero_or_flags]
  · obtain ⟨e, he⟩ := exactMul_zero hx hy hxi hyi hz
    obtain ⟨g, hg⟩ := (Val.isZero_iff z).1 hz0
    generalize (x.neg != y.neg) = n at he
    generalize z.neg = k at hg
    rw [he, hg, exactAdd_zeros, Exact.round_zero, withSign_zero]
    by_cases hs : k = n
    · simp [hs]
    · simp [hs, Ne.symm hs]

theorem specialSums : Clause.SpecialSums := fun _ _ _ m sat h =>
  ⟨roundedSum_special _ _ m sat h, roundedSum_special _ _ m sat h, roundedFma_special _ _ _ m sat h⟩

theorem specialProductsAndRoots : Clause.SpecialProductsAndRoots := by
  intro a b m sat h x y nan signed
  have hsigned : ∀ p, withSign .fp32 (x.neg != y.neg) p = signed p := fun p => rfl
  have mul : ∀ {z : Exact}, exactMul x y = z → fpMul a b m sat h = z.round .fp32 m sat h := fun hz => congrArg (·.round .fp32 m sat h) hz
  have div : ∀ {z : Exact}, exactDiv x y = z → fpDiv a b m sat h = z.round .fp32 m sat h := fun hz => congrArg (·.round .fp32 m sat h) hz
  have root : ∀ {z : Exact}, exactSqrt x = z → fpSqrt a m sat h = z.round .fp32 m sat h := fun hz => congrArg (·.round .fp32 m sat h) hz
  refine ⟨fun hn => ?_, fun hx hy => ?_, fun hx hy => ?_, fun hx hy => ?_, fun hx hy => ?_, fun n k e hx hy => ?_, fun hn => ?_,
    fun hx => ?_, fun hx => ?_, fun hx => ?_⟩
  · rw [List.forall_mem_cons, List.forall_mem_singleton, mul (exactMul_nan hn), div (exactDiv_nan hn), Exact.round_nan]
    exact ⟨rfl, rfl⟩
  · obtain ⟨g, hg⟩ := (Val.isZero_iff y).1 hy
    have hd : exactDiv x y = ⟨.inf (x.neg != y.neg), false, 0⟩ := by rw [(Val.isInf_iff x).1 hx, hg]; rfl
    rw [mul (exactMul_invalid (.inl ⟨hx, hy⟩)), div hd, Exact.round_nan, Exact.round_inf, hsigned]
    exact ⟨rfl, rfl⟩
  · obtain ⟨g, hg⟩ := (Val.isZero_iff x).1 hx
    have hd : exactDiv x y = ⟨.fin (x.neg != y.neg) 0 0, false, 0⟩ := by rw [(Val.isInf_iff y).1 hy, hg]; rfl
    rw [mul (exactMul_invalid (.inr ⟨hx, hy⟩)), div hd, Exact.round_nan, Exact.round_zero, hsigned]
    exact ⟨rfl, rfl⟩
  · obtain ⟨e, he⟩ := (Val.isZero_iff x).1 hx
    obtain ⟨g, hg⟩ := (Val.isZero_iff y).1 hy
    have hp : exactMul x y = ⟨.fin (x.neg != y.neg) 0 (e + g), false, 0⟩ := by rw [he, hg]; rfl
    have hd : exactDiv x y = ⟨.nan false, false, flagNV⟩ := by rw [he, hg]; rfl
    rw [mul hp, div hd, Exact.round_nan, Exact.round_zero, hsigned]
    exact ⟨rfl, rfl⟩
  · have hp : exactMul x y = ⟨.inf (x.neg != y.neg), false, 0⟩ := by rw [(Val.isInf_iff x).1 hx, (Val.isInf_iff y).1 hy]; rfl
    have hd : exactDiv x y = ⟨.nan false, false, flagNV⟩ := by rw [(Val.isInf_iff x).1 hx, (Val.isInf_iff y).1 hy]; rfl
    rw [mul hp, div hd, Exact.round_nan, Exact.round_inf, hsigned]
    exact ⟨rfl, rfl⟩
  · obtain ⟨g, hg⟩ := (Val.isZero_iff y).1 hy
    have hp : exactMul x y = ⟨.fin (x.neg != y.neg) 0 (e + g), false, 0⟩ := by rw [hx, hg]; rfl
    have hd : exactDiv x y = ⟨.inf (x.neg != y.neg), false, flagDZ⟩ := by rw [hx, hg]; rfl
    rw [mul hp, div hd, Exact.round_zero, Exact.round_inf, hsigned, hsigned]
    exact ⟨rfl, rfl⟩
  · obtain ⟨s, hs⟩ := (Val.isNan_iff x).1 hn
    have hr : exactSqrt x = ⟨.nan false, false, flagIf s flagNV⟩ := by rw [hs]; rfl
    rw [root hr, Exact.round_nan, hs]
    rfl
  · obtain ⟨e, he⟩ := (Val.isZero_iff x).1 hx
    have hr : exactSqrt x = ⟨.fin x.neg 0 0, false, 0⟩ := by rw [he]; rfl
    rw [root hr, Exact.round_zero, withSign_zero]
  · have hr : exactSqrt x = ⟨.inf false, false, 0⟩ := by rw [hx]; rfl
    rw [root hr, Exact.round_inf]
    rfl
  · have hr : exactSqrt x = ⟨.nan false, false, flagNV⟩ := by
      rcases hx with hx | ⟨k, e, hx⟩ <;> rw [hx] <;> rfl
    rw [root hr, Exact.round_nan]

end Sys2Proof.Machine
end

section
namespace Sys2Proof.Machine

/-! The value of a pattern (R38, R39). -/

theorem exists_withSign (f : FFmt) {a : Nat} (ha : a < 2 * f.signBit) : ∃ neg p, p < f.signBit ∧ a = withSign f neg p := by
  rcases Nat.lt_or_ge a f.signBit with hlow | hhigh
  · exact ⟨false, a, hlow, rfl⟩
  · exact ⟨true, a - f.signBit, by omega, (Nat.add_sub_cancel' hhigh).symm⟩

theorem FFmt.maxPat_lt_signBit (f : FFmt) : f.maxPat < f.signBit := by cases f <;> decide

theorem FFmt.maxPat_lt_infPat {f : FFmt} {i : Nat} (h : f.infPat = some i) : f.maxPat < i := by
  cases f <;> simp only [FFmt.infPat, Option.some.injEq, reduceCtorEq] at h <;> subst h <;> decide

theorem withSign_parts {f : FFmt} {neg : Bool} {p : Nat} (hp : p < f.signBit) :
    withSign f neg p % (2 * f.signBit) = withSign f neg p ∧ decide (f.signBit ≤ withSign f neg p) = neg ∧ withSign f neg p % f.signBit = p := by
  cases neg
  · simp only [withSign, Bool.false_eq_true, if_false]
    exact ⟨Nat.mod_eq_of_lt (by omega), decide_eq_false (by omega), Nat.mod_eq_of_lt hp⟩
  · simp only [withSign, if_true]
    exact ⟨Nat.mod_eq_of_lt (by omega), decide_eq_true (by omega), by rw [Nat.add_mod_left, Nat.mod_eq_of_lt hp]⟩

/-- A finite pattern has the magnitude of its scale. -/
theorem valOf_finite {f : FFmt} (neg : Bool) {p : Nat} (hp : p ≤ f.maxPat) :
    ∃ m e, valOf f (withSign f neg p) = .fin neg m e ∧ m * 2 ^ e = f.magOf p := by
  obtain ⟨h1, h2, h3⟩ := withSign_parts (neg := neg) (hp.trans_lt f.maxPat_lt_signBit)
  have hinf : f.infPat.any (fun i => p == i) = false := by
    cases hi : f.infPat with
    | none => rfl
    | some i => exact beq_eq_false_iff_ne.2 (hp.trans_lt (FFmt.maxPat_lt_infPat hi)).ne
  unfold valOf FFmt.magOf
  dsimp only
  rw [h1, h2, h3, hinf, if_neg Bool.false_ne_true, if_neg (by omega)]
  by_cases hex : p / 2 ^ f.mbits = 0
  · rw [if_pos hex, if_pos hex]
    have hlt : p < 2 ^ f.mbits := by rwa [Nat.div_eq_zero_iff_lt (by positivity)] at hex
    exact ⟨_, _, rfl, by rw [Nat.mod_eq_of_lt hlt]⟩
  · rw [if_neg hex, if_neg hex]
    exact ⟨_, _, rfl, rfl⟩

/-- Only a finite pattern has a finite value. -/
theorem le_maxPat_of_valOf {f : FFmt} {neg n : Bool} {p m : Nat} {e : Int} (hp : p < f.signBit)
    (h : valOf f (withSign f neg p) = .fin n m e) : p ≤ f.maxPat := by
  obtain ⟨h1, h2, h3⟩ := withSign_parts (neg := neg) hp
  unfold valOf at h
  dsimp only at h
  rw [h1, h2, h3] at h
  by_contra hlt
  split at h
  · cases h
  · rw [if_pos (not_le.1 hlt)] at h
    cases h

theorem valOf_eq_fin {f : FFmt} {a m : Nat} {e : Int} {neg : Bool} (ha : a < 2 * f.signBit) (h : valOf f a = .fin neg m e) :
    ∃ p, p ≤ f.maxPat ∧ a = withSign f neg p ∧ m * 2 ^ e = f.magOf p := by
  obtain ⟨n, p, hp, rfl⟩ := exists_withSign f ha
  have hmax := le_maxPat_of_valOf hp h
  obtain ⟨k, g, hv, hval⟩ := valOf_finite n hmax
  obtain ⟨rfl, rfl, rfl⟩ := Val.fin.inj (hv.symm.trans h)
  exact ⟨p, hmax, rfl, hval⟩

@[simp] theorem FFmt.magOf_zero (f : FFmt) : f.magOf 0 = 0 := by simp [FFmt.magOf]

theorem valOf_isZero {a : Nat} (ha : a < 2 ^ 32) (hz : (valOf .fp32 a).isZero = true) :
    a = if (valOf .fp32 a).neg then 0x80000000 else 0 := by
  obtain ⟨e, he⟩ := (Val.isZero_iff _).1 hz
  obtain ⟨p, -, hp, hval⟩ := valOf_eq_fin (f := .fp32) ha he
  rw [Nat.cast_zero, zero_mul, ← FFmt.fp32.magOf_zero] at hval
  rw [← withSign_zero, FFmt.fp32.magOf_strictMono.injective hval]
  exact hp

/-! FMIN and FMAX (R57). -/

theorem Val.lt_asymm {x y : Val} (h : x.lt y = true) : y.lt x = false := by
  cases x with
  | nan s => simp [Val.lt] at h
  | inf a => cases y <;> simp_all [Val.lt]
  | fin a m e =>
    cases y with
    | nan s => simp [Val.lt] at h
    | inf b => simp_all [Val.lt]
    | fin b n g =>
      simp only [Val.lt, decide_eq_true_eq, decide_eq_false_iff_not, not_lt] at h ⊢
      rw [min_comm]
      exact h.le

theorem Val.lt_irrefl (x : Val) : x.lt x = false := Bool.eq_false_iff.2 fun h => Bool.false_ne_true ((Val.lt_asymm h).symm.trans h)

theorem Val.lt_zeros {x y : Val} (hx : x.isZero = true) (hy : y.isZero = true) : x.lt y = false := by
  obtain ⟨e, he⟩ := (Val.isZero_iff x).1 hx
  obtain ⟨g, hg⟩ := (Val.isZero_iff y).1 hy
  rw [he, hg]
  simp [Val.lt, signedAt]

theorem fminmax_flags (top : Bool) (a b : Nat) :
    (fminmax top a b).flags = flagIf ((valOf .fp32 a).isSnan || (valOf .fp32 b).isSnan) flagNV := by
  rw [← snanFlag_pair]
  simp only [fminmax]
  split_ifs <;> rfl

theorem fminmax_zeros {a b : Nat} (top : Bool) (hx : (valOf .fp32 a).isZero = true) (hy : (valOf .fp32 b).isZero = true) :
    (fminmax top a b).pat = if top then (if (valOf .fp32 a).neg && (valOf .fp32 b).neg then 0x80000000 else 0)
      else (if (valOf .fp32 a).neg || (valOf .fp32 b).neg then 0x80000000 else 0) := by
  obtain ⟨e, he⟩ := (Val.isZero_iff _).1 hx
  obtain ⟨g, hg⟩ := (Val.isZero_iff _).1 hy
  unfold fminmax
  dsimp only
  rw [hx, hy, show (valOf .fp32 a).isNan = false by rw [he]; rfl, show (valOf .fp32 b).isNan = false by rw [hg]; rfl]
  rfl

/-- Of two numbers, not both zero, the second where it is beyond the first. -/
theorem fminmax_numbers {a b : Nat} (top : Bool) (hx : (valOf .fp32 a).isNan = false) (hy : (valOf .fp32 b).isNan = false)
    (hz : ((valOf .fp32 a).isZero && (valOf .fp32 b).isZero) = false) :
    (fminmax top a b).pat = if (if top then (valOf .fp32 a).lt (valOf .fp32 b) else (valOf .fp32 b).lt (valOf .fp32 a)) then b else a := by
  unfold fminmax
  simp only [hx, hy, hz, Bool.and_false, Bool.false_eq_true, if_false]
  exact apply_ite Rounded.pat _ _ _

theorem smallerAndLarger : Clause.SmallerAndLarger := by
  intro a b top ha hb x y r
  refine ⟨fminmax_flags top a b, fun hx hy => ?_, fun hx hy => ?_, fun hx hy => ?_, fun hx hy hs => ?_, fun hx hy => ?_⟩
  · simp only [r, fminmax, show (valOf .fp32 a).isNan = true from hx, show (valOf .fp32 b).isNan = true from hy, Bool.and_self, if_true]
  · simp only [r, fminmax, show (valOf .fp32 a).isNan = true from hx, show (valOf .fp32 b).isNan = false from hy, Bool.and_false,
      Bool.false_eq_true, if_false, if_true]
  · simp only [r, fminmax, show (valOf .fp32 a).isNan = false from hx, show (valOf .fp32 b).isNan = true from hy, Bool.false_and,
      Bool.false_eq_true, if_false, if_true]
  · rw [show r.pat = _ from fminmax_zeros top hx hy]
    change x.neg ≠ y.neg at hs
    change (if top then if (x.neg && y.neg) = true then _ else _ else if (x.neg || y.neg) = true then _ else _) = _
    cases hxn : x.neg <;> cases hyn : y.neg <;> simp_all
  · by_cases hz : (x.isZero && y.isZero) = true
    · obtain ⟨hx0, hy0⟩ := Bool.and_eq_true_iff.1 hz
      have hpat : r.pat = a ∨ r.pat = b := by
        have h1 : a = if x.neg then 0x80000000 else 0 := valOf_isZero ha hx0
        have h2 : b = if y.neg then 0x80000000 else 0 := valOf_isZero hb hy0
        rw [show r.pat = if top then (if x.neg && y.neg then 0x80000000 else 0) else (if x.neg || y.neg then 0x80000000 else 0)
          from fminmax_zeros top hx0 hy0, h1, h2]
        cases x.neg <;> cases y.neg <;> cases top <;> simp
      have hr0 : (valOf .fp32 r.pat).isZero = true := by
        rcases hpat with h | h <;> rw [h]
        · exact hx0
        · exact hy0
      refine ⟨hpat, List.forall_mem_cons.2 ⟨?_, List.forall_mem_singleton.2 ?_⟩⟩
      · rw [Val.lt_zeros hr0 hx0, Val.lt_zeros hx0 hr0, ite_self]
      · rw [Val.lt_zeros hr0 hy0, Val.lt_zeros hy0 hr0, ite_self]
    · have hpat : r.pat = if (if top then x.lt y else y.lt x) then b else a := fminmax_numbers top hx hy (Bool.eq_false_iff.2 hz)
      rw [List.forall_mem_cons, List.forall_mem_singleton, hpat]
      cases hc : (if top then x.lt y else y.lt x)
      · rw [if_neg Bool.false_ne_true]
        refine ⟨.inl rfl, by cases top <;> exact Val.lt_irrefl _, hc⟩
      · rw [if_pos rfl]
        refine ⟨.inr rfl, ?_, by cases top <;> exact Val.lt_irrefl _⟩
        cases top
        · exact Val.lt_asymm hc
        · exact Val.lt_asymm hc

/-- Settles O5: sums, products, quotients and roots, and the choice of one operand. -/
theorem floatSpecialCases : Obligations.FloatSpecialCases := ⟨specialSums, specialProductsAndRoots, smallerAndLarger⟩

end Sys2Proof.Machine
end

section
namespace Sys2Proof.Machine

/-! Scalar floating point (R57, R91, R105 to R108). -/

theorem toSigned_eq_toInt (n : Nat) : toSigned 32 n = (BitVec.ofNat 32 n).toInt := by
  rw [BitVec.toInt_eq_toNat_cond, BitVec.toNat_ofNat, toSigned]
  split <;> split <;> omega

theorem valOf_mod (f : FFmt) (n : Nat) : valOf f (n % (2 * f.signBit)) = valOf f n := by
  unfold valOf
  rw [Nat.mod_mod]

theorem valOf_eq_inf {f : FFmt} {a : Nat} {neg : Bool} (ha : a < 2 * f.signBit) (h : valOf f a = .inf neg) :
    ∃ i, f.infPat = some i ∧ a = withSign f neg i := by
  obtain ⟨n, p, hp, rfl⟩ := exists_withSign f ha
  obtain ⟨h1, h2, h3⟩ := withSign_parts (neg := n) hp
  unfold valOf at h
  dsimp only at h
  rw [h1, h2, h3] at h
  split at h
  next hinf =>
    obtain ⟨i, hi, hpi⟩ := Option.any_eq_true _ _ |>.1 hinf
    exact ⟨i, hi, by rw [← Val.inf.inj h, beq_iff_eq.1 hpi]⟩
  next =>
    split at h
    · cases h
    · split at h <;> cases h

/-- BF16 is FP32 without its low 16 bits (R38). -/
theorem magOf_bf16 (p : Nat) : FFmt.fp32.magOf (p * 2 ^ 16) = FFmt.bf16.magOf p := by
  have hdiv : p * 2 ^ 16 / 2 ^ 23 = p / 2 ^ 7 := by omega
  have hmod : p * 2 ^ 16 % 2 ^ 23 = p % 2 ^ 7 * 2 ^ 16 := by omega
  have hscale : ∀ k : Int, (2 : ℚ) ^ 16 * 2 ^ (k - 23) = 2 ^ (k - 7) := by
    intro k
    rw [← zpow_natCast, ← zpow_add₀ two_ne_zero]
    congr 1
    push_cast
    ring
  change (if p * 2 ^ 16 / 2 ^ 23 = 0 then ((p * 2 ^ 16 : Nat) : ℚ) * 2 ^ (FFmt.bf16.emin - 23)
      else ((2 ^ 23 + p * 2 ^ 16 % 2 ^ 23 : Nat) : ℚ) * 2 ^ (((p * 2 ^ 16 / 2 ^ 23 : Nat) : Int) - 127 - 23)) =
    if p / 2 ^ 7 = 0 then (p : ℚ) * 2 ^ (FFmt.bf16.emin - 7) else ((2 ^ 7 + p % 2 ^ 7 : Nat) : ℚ) * 2 ^ (((p / 2 ^ 7 : Nat) : Int) - 127 - 7)
  rw [hdiv, hmod, show 2 ^ 23 + p % 2 ^ 7 * 2 ^ 16 = (2 ^ 7 + p % 2 ^ 7) * 2 ^ 16 by ring, Nat.cast_mul, Nat.cast_mul, Nat.cast_pow,
    Nat.cast_ofNat, mul_assoc, mul_assoc, hscale, hscale]

theorem cvtB2f_eq (n : Nat) : cvtB2f n = if (valOf .bf16 (n % 2 ^ 16)).isNan then ⟨0x7FC00000, flagIf (valOf .bf16 (n % 2 ^ 16)).isSnan flagNV⟩
    else ⟨n % 2 ^ 16 * 2 ^ 16, 0⟩ := by
  have hlt : n % 2 ^ 16 < 2 * FFmt.bf16.signBit := Nat.mod_lt _ (by positivity)
  have hmod : valOf .bf16 n = valOf .bf16 (n % 2 ^ 16) := (valOf_mod .bf16 n).symm
  have heq : cvtB2f n = ⟨(roundTo .fp32 (valOf .bf16 n) .rne false 0).pat,
    (roundTo .fp32 (valOf .bf16 n) .rne false 0).flags ||| snanFlag [valOf .bf16 n]⟩ := rfl
  rw [heq, hmod]
  generalize n % 2 ^ 16 = k at hlt
  cases hv : valOf .bf16 k with
  | nan s => rw [Val.isNan, if_pos rfl]; cases s <;> rfl
  | inf neg =>
    obtain ⟨i, hi, rfl⟩ := valOf_eq_inf hlt hv
    obtain rfl : 0x7F80 = i := Option.some.inj hi
    cases neg <;> rfl
  | fin neg m e =>
    obtain ⟨p, hp, rfl, hval⟩ := valOf_eq_fin hlt hv
    have hmax : p * 2 ^ 16 ≤ FFmt.fp32.maxPat := by
      have : p ≤ 0x7F7F := hp
      show _ ≤ 0x7F7FFFFF
      omega
    rw [roundTo, roundMag_exact hmax ((magOf_bf16 p).trans hval.symm)]
    have hquiet : snanFlag [Val.fin neg m e] = 0 := rfl
    dsimp only
    rw [if_neg (show ¬(Val.fin neg m e).isNan = true from Bool.false_ne_true), hquiet, zero_or_flags]
    refine congrArg (Rounded.mk · 0) ?_
    cases neg
    · rfl
    · exact (Nat.add_mul (2 ^ 15) p (2 ^ 16)).symm

section
variable {s : State} {d : Reg} {lat : Nat} {r : Rounded}

/-- A float result leaves its pattern in flight, with its flags. -/
theorem sends_fresult {i : Instr} (h : exec i s = .next (s.fresult d lat r)) : Sends i (.s d) lat (BitVec.ofNat 64 r.pat) r.flags s :=
  ⟨_, h, s.inFlight_later _ _ _ _⟩

end

theorem floatInFlight : Clause.FloatInFlight := by
  intro s d a b p m sat c u w x y h busy out slow
  refine ⟨sends_fresult rfl, sends_fresult rfl, sends_fresult rfl, ⟨_, rfl, busy.inFlight_later _ _ _ _⟩,
    ⟨_, rfl, busy.inFlight_later _ _ _ _⟩, sends_fresult rfl, sends_fresult rfl, sends_fresult rfl, sends_fresult ?_, sends_fresult ?_,
    sends_fresult ?_, ⟨_, rfl, ?_⟩⟩
  · have hint : toSigned 32 u = ((s.src a).extractLsb' 0 32).toInt := by
      rw [toSigned_eq_toInt]
      refine congrArg BitVec.toInt (BitVec.eq_of_toNat_eq ?_)
      simp [u, BitVec.extractLsb'_toNat]
    rw [← hint]
    rfl
  · have hsnan : snanFlag [x] = flagIf x.isSnan flagNV := by simp [snanFlag]
    rw [← hsnan]
    rfl
  · exact congrArg (fun r => Host.Outcome.next (s.fresult d 4 r)) (cvtB2f_eq u)
  · have hnv : snanFlag [x, y] = flagIf (x.isSnan || y.isSnan) flagNV := snanFlag_pair x y
    have hbit : BitVec.ofNat 64 (bit (FCond.holds c x y)) = if FCond.holds c x y then 1 else 0 := by cases FCond.holds c x y <;> rfl
    rw [← hnv, ← hbit]
    exact s.inFlight_later _ _ _ _

/-- Flags join NUMF, but those of the firmware context (R56, R105). -/
theorem State.raise_eq (s : State) (fl : Flags) : ∃ n, s.raise fl = { s with core := { s.core with
    arch := { s.core.arch with csr := { s.core.arch.csr with
      numf := if s.firmware then s.core.arch.csr.numf else s.core.arch.csr.numf ||| fl } }
    numfNow := n } } := by
  by_cases hf : s.firmware = true
  · exact ⟨s.core.numfNow, by rw [State.raise, if_pos hf, if_pos hf]⟩
  · exact ⟨s.core.numfNow ||| fl, by rw [State.raise, if_neg hf, if_neg hf]; rfl⟩

/-- The state after a result in flight has been written. -/
theorem scalarWriteback_eq (d : Dest) (v : Word) (fl : BitVec 8) (s : State) : ∃ n, exec (.scalarWriteback d v fl) s = .next { s with
    core := { s.core with
      arch := { s.core.arch with
        s := (match d with | .s r => s.core.arch.setS r v | .p _ => s.core.arch).s
        p := (match d with | .s _ => s.core.arch | .p r => s.core.arch.setP r (v.getLsbD 0)).p
        csr := { s.core.arch.csr with numf := if s.firmware then s.core.arch.csr.numf else s.core.arch.csr.numf ||| fl } }
      hz := { s.core.hz with pend := s.core.hz.pend.filter fun p => p.dest != destPend d }, numfNow := n } } := by
  cases d with
  | s r =>
    obtain ⟨n, h⟩ := ((s.putS r v).settled (.s r)).raise_eq fl
    refine ⟨n, (congrArg Host.Outcome.next h).trans (congrArg Host.Outcome.next ?_)⟩
    simp only [State.settled, State.putS, State.onArch, State.onHz, State.onCore, Arch.setS]
    split <;> rfl
  | p r =>
    obtain ⟨n, h⟩ := ((s.putP r (v.getLsbD 0)).settled (.p r)).raise_eq fl
    refine ⟨n, (congrArg Host.Outcome.next h).trans (congrArg Host.Outcome.next ?_)⟩
    simp only [State.settled, State.putP, State.onArch, State.onHz, State.onCore, Arch.setP]
    split <;> rfl

theorem resultBecomesVisible : Clause.ResultBecomesVisible := by
  intro s v fl rest after
  refine ⟨fun r => ?_, fun r => ?_⟩
  · obtain ⟨n, h⟩ := scalarWriteback_eq (.s r) v fl s
    refine ⟨_, h, ⟨rfl, rfl, SameBytes.refl s, rfl⟩, ?_, fun q hq => ?_, rfl⟩
    · exact (s.core.arch.sreg_setS r r v).trans (if_pos rfl)
    · exact (s.core.arch.sreg_setS r q v).trans (if_neg hq)
  · obtain ⟨n, h⟩ := scalarWriteback_eq (.p r) v fl s
    refine ⟨_, h, ⟨rfl, rfl, SameBytes.refl s, rfl⟩, ?_, fun q hq => ?_, rfl⟩
    · exact (s.core.arch.preg_setP r r (v.getLsbD 0)).trans (if_pos rfl)
    · exact (s.core.arch.preg_setP r q (v.getLsbD 0)).trans (if_neg hq)

/-- Settles O3: the results as they are sent, and their write-back. -/
theorem floatResults : Obligations.FloatResults := ⟨floatInFlight, resultBecomesVisible⟩

end Sys2Proof.Machine
end

section
namespace Sys2Proof.Machine

/-! Chisel words (R190 to R194). -/

/-- What a word's result does to the element: it moves on, with the flags collected. -/
def Job.after (j : Job) (g : Job → WordResult) (put : Job → Word32 → Job) : Job :=
  { put j (BitVec.ofNat 32 (g j).res) with pc := j.pc + 1, flags := j.flags ||| (g j).flags }

theorem State.nextWord_eq (s : State) (j : Job) : s.nextWord j =
    if j.pc + 1 < j.prog.length ∧ j.trap = none then
      { s with core := { s.core with eng := { s.core.eng with jobs := { j with pc := j.pc + 1 } :: s.core.eng.jobs.drop 1 } } }
    else State.finishJob { s with core := { s.core with eng := { s.core.eng with jobs := s.core.eng.jobs.drop 1 } } } { j with pc := j.pc + 1 } := by
  have hcond : (decide (j.prog.length ≤ j.pc + 1) || j.trap.isSome) = true ↔ ¬(j.pc + 1 < j.prog.length ∧ j.trap = none) := by
    cases j.trap <;> simp
  unfold State.nextWord
  dsimp only
  by_cases h : j.pc + 1 < j.prog.length ∧ j.trap = none
  · rw [if_pos h, if_neg (mt hcond.1 (not_not_intro h))]
    rfl
  · rw [if_neg h, if_pos (hcond.2 h)]
    rfl

/-- A word's trap names its cause and the element as it entered (R194). -/
theorem State.chiselTrap_fields (s : State) (j : Job) (f : Flags) (cpc src res : Nat) :
    (s.chiselTrap j f cpc src res).cause = 0x0D ∧ (s.chiselTrap j f cpc src res).v2.extractLsb' 0 32 = j.entry := by
  refine ⟨rfl, BitVec.eq_of_toNat_eq ?_⟩
  have hlt := j.entry.isLt
  change ((ofFields [(src % 2 ^ 32, 32), (j.entry.toNat, 0)]).extractLsb' 0 32).toNat = _
  rw [ofFields, toNat_extractLsb'_ofNat]
  simp only [List.map_cons, List.map_nil, List.sum_cons, List.sum_nil]
  omega

/-- A word that is run on the element at the head of its lanes, by what it computes and where it puts that. -/
theorem wordRuns_of_chisel {i : Instr} {s : State} {g : Job → WordResult} {put : Job → Word32 → Job} {flags : Job → BitVec 8}
    {makes : Job → Job → Prop} (he : exec i s = .next (s.chisel g put))
    (hput : ∀ j v, (put j v).pc = j.pc ∧ (put j v).prog = j.prog ∧ (put j v).trap = j.trap) (hfl : ∀ j, (g j).flags = flags j)
    (hmakes : ∀ j : Job, makes { j with pc := j.pc + 1, flags := j.flags ||| flags j } (j.after g put)) : WordRuns i flags makes s := by
  intro j hj ht
  rw [he, State.chisel, hj]
  dsimp only
  rw [State.nextWord_eq, State.nextWord_eq, hfl]
  by_cases hen : flags j &&& j.ten = 0
  · obtain ⟨hpc, hprog, htrap⟩ := hput j (BitVec.ofNat 32 (g j).res)
    refine ⟨j.after g put, rfl, ?_, fun _ => hmakes j, fun h => absurd hen h⟩
    rw [if_neg (not_not_intro hen)]
    simp only [Job.after, hpc, hprog, htrap, hfl]
  · refine ⟨{ j with pc := j.pc + 1, trap := some (s.chiselTrap j (flags j) j.pc (g j).src (g j).res) }, rfl, ?_, fun h => absurd h hen,
      fun _ => ⟨_, rfl, s.chiselTrap_fields _ _ _ _ _⟩⟩
    rw [if_pos hen]

theorem wordPuts_of_chisel {i : Instr} {s : State} {d : EReg} {g : Job → WordResult} {v : Job → Nat} {flags : Job → BitVec 8}
    (he : exec i s = .next (s.chisel g (Job.setE d))) (hfl : ∀ j, (g j).flags = flags j)
    (hres : ∀ j p f, (g j).res % 2 ^ 32 = v { j with pc := p, flags := f } % 2 ^ 32) : WordPuts i d v flags s := by
  refine wordRuns_of_chisel he (fun _ _ => ⟨rfl, rfl, rfl⟩) hfl fun j => ⟨?_, fun r hr => ?_, ?_⟩
  · have hget := vector_get_set (w := 3) j.e d d (BitVec.ofNat 32 (g j).res)
    rw [if_pos rfl] at hget
    refine (congrArg BitVec.toNat hget).trans ?_
    rw [BitVec.toNat_ofNat]
    exact hres j _ _
  · have hget := vector_get_set (w := 3) j.e d r (BitVec.ofNat 32 (g j).res)
    rw [if_neg hr] at hget
    exact hget
  · rw [← hfl j]
    rfl

/-- A rounded result goes to its register with its flags. -/
theorem wordPuts_rounded {i : Instr} {s : State} {d a : EReg} {r : Job → Rounded}
    (he : exec i s = .next (s.chisel (fun j => j.rounded a (r j)) (Job.setE d))) (hr : ∀ j p f, r j = r { j with pc := p, flags := f }) :
    WordPuts i d (fun j => (r j).pat) (fun j => (r j).flags) s :=
  wordPuts_of_chisel he (fun _ => rfl) fun j p f => congrArg (fun x : Rounded => x.pat % 2 ^ 32) (hr j p f)

/-- A result that raises nothing. -/
theorem wordPuts_plain {i : Instr} {s : State} {d a : EReg} {v : Job → Nat}
    (he : exec i s = .next (s.chisel (fun j => j.plain a (v j)) (Job.setE d))) (hv : ∀ j p f, v j = v { j with pc := p, flags := f }) :
    WordPuts i d v (fun _ => 0) s :=
  wordPuts_of_chisel he (fun _ => rfl) fun j p f => (Nat.mod_mod _ _).trans (congrArg (· % 2 ^ 32) (hv j p f))

theorem clampOf_eq (x lo hi : Nat) : clampOf x lo hi = if (valOf .fp32 x).isNan then
      ⟨0x7FC00000, if (valOf .fp32 x).isSnan then flagNV else 0⟩
    else ⟨(fminmax false (fminmax true x lo).pat hi).pat, (fminmax true x lo).flags ||| (fminmax false (fminmax true x lo).pat hi).flags⟩ := by
  have hsnan : snanFlag [valOf .fp32 x] = if (valOf .fp32 x).isSnan then flagNV else 0 := by simp [snanFlag, flagIf]
  rw [← hsnan]
  rfl

/-- The sign bit changes by exclusive or as by addition. -/
theorem xor_signBit {n : Nat} (hn : n < 2 ^ 32) : Nat.xor n (2 ^ 31) = (n + 2 ^ 31) % 2 ^ 32 := by
  have hlow : Nat.xor n (2 ^ 31) % 2 ^ 31 = n % 2 ^ 31 := by
    refine (Nat.xor_mod_two_pow (a := n) (b := 2 ^ 31) (n := 31)).trans ?_
    rw [Nat.mod_self, Nat.xor_zero]
  have hhigh : Nat.xor n (2 ^ 31) / 2 ^ 31 = Nat.xor (n / 2 ^ 31) 1 :=
    Nat.xor_div_two_pow (a := n) (b := 2 ^ 31) (n := 31)
  have htwo : n / 2 ^ 31 < 2 := by omega
  have hdm := Nat.div_add_mod (Nat.xor n (2 ^ 31)) (2 ^ 31)
  rw [hlow, hhigh] at hdm
  rw [← hdm]
  rcases Nat.lt_or_ge n (2 ^ 31) with h | h
  · rw [Nat.div_eq_of_lt h, show Nat.xor 0 1 = 1 from rfl]
    omega
  · rw [show n / 2 ^ 31 = 1 by omega, show Nat.xor 1 1 = 0 from rfl]
    omega

theorem bit_ne_zero (t : Bool) : (BitVec.ofNat 32 (bit t) != 0) = t := by cases t <;> rfl

theorem chiselFcmp_runs (s : State) (q : QReg) (a b : EReg) (cond : FCond) :
    WordRuns (.chiselFcmp q a b cond) (fun j => if (valOf .fp32 (j.x a)).isSnan ∨ (valOf .fp32 (j.x b)).isSnan then flagNV else 0)
      (fun j k => k.q.get q.toFin = FCond.holds cond (valOf .fp32 (j.x a)) (valOf .fp32 (j.x b)) ∧
        (∀ r : QReg, r ≠ q → k.q.get r.toFin = j.q.get r.toFin) ∧ { k with q := j.q } = j) s := by
  have hfl : ∀ j : Job, snanFlag [valOf .fp32 (j.x a), valOf .fp32 (j.x b)] =
      if (valOf .fp32 (j.x a)).isSnan ∨ (valOf .fp32 (j.x b)).isSnan then flagNV else 0 := fun j => by simp [snanFlag, flagIf]
  refine wordRuns_of_chisel rfl (fun _ _ => ⟨rfl, rfl, rfl⟩) hfl fun j => ⟨?_, fun r hr => ?_, ?_⟩
  · exact (vector_get_set (w := 2) j.q q q _).trans ((if_pos rfl).trans (bit_ne_zero _))
  · exact (vector_get_set (w := 2) j.q q r _).trans (if_neg hr)
  · rw [← hfl j]
    rfl

theorem chiselFloatWords : Clause.ChiselFloatWords := by
  intro s d a b c q m cond f x sat put
  refine ⟨wordPuts_rounded rfl fun _ _ _ => rfl, wordPuts_rounded rfl fun _ _ _ => rfl, wordPuts_rounded rfl fun _ _ _ => rfl,
    wordPuts_rounded rfl fun _ _ _ => rfl, wordPuts_rounded rfl fun _ _ _ => rfl, wordPuts_rounded rfl fun _ _ _ => rfl,
    wordPuts_plain rfl fun _ _ _ => rfl, ?_, ?_, ?_, wordPuts_plain rfl fun _ _ _ => rfl, wordPuts_rounded rfl fun _ _ _ => rfl, ?_,
    wordPuts_rounded rfl fun _ _ _ => rfl, wordPuts_rounded rfl fun _ _ _ => rfl, wordPuts_rounded rfl fun _ _ _ => rfl,
    wordPuts_rounded rfl fun _ _ _ => rfl⟩
  · refine wordPuts_of_chisel rfl (fun _ => rfl) fun j p fl => ?_
    exact congrArg (· % 2 ^ 32) ((congrArg (· % 2 ^ 32) (xor_signBit (j.e.get a.toFin).isLt)).trans (Nat.mod_mod _ _))
  · refine wordPuts_of_chisel rfl (fun j => ?_) fun j p fl => ?_
    · exact congrArg Rounded.flags (clampOf_eq _ _ _)
    · exact congrArg (fun r : Rounded => r.pat % 2 ^ 32) (clampOf_eq _ _ _)
  · exact chiselFcmp_runs s q a b cond
  · have hval : ∀ j : Job, cvtI2f (j.x a) m j.hash = roundTo .fp32 (valOfInt (BitVec.ofNat 32 (j.x a)).toInt) m false j.hash :=
      fun j => congrArg (fun k => roundTo .fp32 (valOfInt k) m false j.hash) (toSigned_eq_toInt _)
    refine wordPuts_of_chisel rfl (fun j => ?_) fun j p fl => ?_
    · exact congrArg Rounded.flags (hval j)
    · exact congrArg (fun r : Rounded => r.pat % 2 ^ 32) (hval j)

/-! The words on integers, constants, coordinates and carried state (R190 to R192). -/

theorem shiftOf_eq (v k : Nat) : shiftOf v k % 2 ^ 32 =
    (if 0 ≤ (BitVec.ofNat 32 k).toInt ∧ (BitVec.ofNat 32 k).toInt < 32 then v <<< (BitVec.ofNat 32 k).toInt.toNat
      else if -32 < (BitVec.ofNat 32 k).toInt ∧ (BitVec.ofNat 32 k).toInt < 0 then v >>> (-(BitVec.ofNat 32 k).toInt).toNat
      else 0) % 2 ^ 32 := by
  rw [shiftOf, toSigned_eq_toInt]
  generalize (BitVec.ofNat 32 k).toInt = z
  by_cases hl : 0 ≤ z ∧ z ≤ 31
  · rw [if_pos hl, if_pos (by omega), Nat.mod_mod, Nat.shiftLeft_eq]
  · rw [if_neg hl, if_neg (show ¬(0 ≤ z ∧ z < 32) by omega)]
    by_cases hr : -31 ≤ z ∧ z < 0
    · rw [if_pos hr, if_pos (by omega), Nat.shiftRight_eq_div_pow]
    · rw [if_neg hr, if_neg (by omega)]

theorem chiselIshl_puts {i : Instr} {s : State} {d a : EReg} {n : Job → Nat}
    (he : exec i s = .next (s.chisel (fun j => j.plain a (shiftOf (j.x a) (n j))) (Job.setE d)))
    (hn : ∀ j p f, n j = n { j with pc := p, flags := f }) :
    WordPuts i d (fun j => let z := (BitVec.ofNat 32 (n j)).toInt
      if 0 ≤ z ∧ z < 32 then (j.e.get a.toFin).toNat <<< z.toNat
      else if -32 < z ∧ z < 0 then (j.e.get a.toFin).toNat >>> (-z).toNat else 0) (fun _ => 0) s := by
  refine wordPuts_of_chisel he (fun _ => rfl) fun j p f => ?_
  dsimp only
  rw [← hn j p f, ← shiftOf_eq]
  exact Nat.mod_mod _ _

theorem ofNat_toNat_mod (v : Word32) : BitVec.ofNat 32 (v.toNat % 2 ^ 32) = v := by
  rw [Nat.mod_eq_of_lt v.isLt, BitVec.ofNat_toNat, BitVec.setWidth_eq]

/-- What a write of carried state leaves. -/
theorem Job.setC_fields (j : Job) (c : QReg) (v : Word32) : (Job.setC c j v).c.get c.toFin = v ∧
    (∀ o : QReg, o ≠ c → (Job.setC c j v).c.get o.toFin = j.c.get o.toFin) :=
  ⟨(vector_get_set (w := 2) j.c c c v).trans (if_pos rfl), fun o ho => (vector_get_set (w := 2) j.c c o v).trans (if_neg ho)⟩

theorem Job.setE_fields (j : Job) (d : EReg) (v : Word32) : (Job.setE d j v).e.get d.toFin = v ∧
    (∀ r : EReg, r ≠ d → (Job.setE d j v).e.get r.toFin = j.e.get r.toFin) :=
  ⟨(vector_get_set (w := 3) j.e d d v).trans (if_pos rfl), fun r hr => (vector_get_set (w := 3) j.e d r v).trans (if_neg hr)⟩

theorem chiselPutc_runs (s : State) (c : QReg) (a : EReg) : WordRuns (.chiselPutc c a) (fun _ => 0)
    (fun j k => k.c.get c.toFin = j.e.get a.toFin ∧ (∀ r : QReg, r ≠ c → k.c.get r.toFin = j.c.get r.toFin) ∧ { k with c := j.c } = j) s :=
  wordRuns_of_chisel rfl (fun _ _ => ⟨rfl, rfl, rfl⟩) (fun _ => rfl) fun j =>
    ⟨(j.setC_fields c _).1.trans (ofNat_toNat_mod _), (j.setC_fields c _).2, rfl⟩

theorem Job.shiftIn_get (j : Job) (n : BitVec 2) (v : Word32) (r : Fin 4) : (j.shiftIn n v).c.get r =
    if r.val = 0 then v else if r.val ≤ n.toNat then j.c.get (r - 1) else j.c.get r := Vector.get_ofFn _ _

theorem chiselPrev_runs (s : State) (d a : EReg) (n : BitVec 2) : WordRuns (.chiselPrev d a n) (fun _ => 0)
    (fun j k => k.e.get d.toFin = j.c.get n.toFin ∧ (∀ r : EReg, r ≠ d → k.e.get r.toFin = j.e.get r.toFin) ∧
      k.c.get 0 = j.e.get a.toFin ∧ (∀ r : Fin 4, r ≠ 0 → k.c.get r = if r.val ≤ n.toNat then j.c.get (r - 1) else j.c.get r) ∧
      { k with e := j.e, c := j.c } = j) s := by
  have hx : ∀ j : Job, BitVec.ofNat 32 (j.x a) = j.e.get a.toFin := fun j => by
    rw [Job.x, BitVec.ofNat_toNat, BitVec.setWidth_eq]
  refine wordRuns_of_chisel rfl (fun _ _ => ⟨rfl, rfl, rfl⟩) (fun _ => rfl) fun j => ⟨?_, (Job.setE_fields _ d _).2, ?_, fun r hr => ?_, rfl⟩
  · exact (Job.setE_fields _ d _).1.trans (ofNat_toNat_mod _)
  · exact (j.shiftIn_get n _ 0).trans ((if_pos rfl).trans (hx j))
  · exact (j.shiftIn_get n _ r).trans (if_neg fun h0 => hr (Fin.ext h0))

theorem chiselCacc_runs (s : State) (c : QReg) (a : EReg) (mode : CaccMode) (m : Rm) {r : Job → Rounded}
    (hr : ∀ (j : Job) p f, caccOf mode (j.xc c) (j.x a) m j.sat j.hash = r { j with pc := p, flags := f }) :
    WordRuns (.chiselCacc c a mode m) (fun j => (r j).flags) (fun j k => (k.c.get c.toFin).toNat = (r j).pat % 2 ^ 32 ∧
      (∀ o : QReg, o ≠ c → k.c.get o.toFin = j.c.get o.toFin) ∧ { k with c := j.c } = j) s := by
  have hfl : ∀ j : Job, (caccOf mode (j.xc c) (j.x a) m j.sat j.hash).flags = (r j).flags := fun j => congrArg Rounded.flags (hr j j.pc j.flags)
  refine wordRuns_of_chisel rfl (fun _ _ => ⟨rfl, rfl, rfl⟩) hfl fun j => ⟨?_, (j.setC_fields c _).2, ?_⟩
  · refine (congrArg BitVec.toNat (j.setC_fields c _).1).trans ?_
    rw [BitVec.toNat_ofNat, ← hr]
    rfl
  · rw [← hfl j]
    rfl

theorem chiselRaise_runs (s : State) (q : QReg) (a : EReg) (f : BitVec 8) :
    WordRuns (.chiselRaise q a f) (fun j => if j.q.get q.toFin then f else 0) (fun j k => k = j) s := by
  have hfl : ∀ j : Job, (if j.xq q then (⟨0, f, j.x a⟩ : WordResult) else ⟨0, 0, 0⟩).flags = if j.q.get q.toFin then f else 0 :=
    fun j => apply_ite WordResult.flags _ _ _
  refine wordRuns_of_chisel rfl (fun _ _ => ⟨rfl, rfl, rfl⟩) hfl fun j => ?_
  rw [← hfl j]
  rfl

theorem chiselOtherWords : Clause.ChiselOtherWords := by
  intro s d a b c q n i m mode f x xc imm put none_ shift
  refine ⟨wordPuts_plain rfl fun _ _ _ => rfl, wordPuts_plain rfl fun _ _ _ => rfl, wordPuts_plain rfl fun _ _ _ => rfl,
    wordPuts_plain rfl fun _ _ _ => rfl, chiselIshl_puts rfl fun _ _ _ => rfl, chiselIshl_puts rfl fun _ _ _ => rfl,
    wordPuts_of_chisel rfl (fun _ => rfl) fun _ _ _ => rfl, wordPuts_plain rfl fun _ _ _ => rfl,
    wordPuts_of_chisel rfl (fun _ => rfl) fun _ _ _ => rfl, wordPuts_of_chisel rfl (fun _ => rfl) fun _ _ _ => rfl,
    wordPuts_of_chisel rfl (fun _ => rfl) fun _ _ _ => rfl, chiselPutc_runs s c a, chiselPrev_runs s d a n, ?_, chiselRaise_runs s q a f, ?_, ?_⟩
  · cases mode <;> exact chiselCacc_runs s c a _ m fun _ _ _ => rfl
  · refine wordRuns_of_chisel rfl (fun _ _ => ⟨rfl, rfl, rfl⟩) (fun _ => rfl) fun j => ?_
    have hval : BitVec.ofNat 32 (j.x a % 2 ^ 32) = j.e.get a.toFin := ofNat_toNat_mod _
    exact congrArg (fun v => { j with pc := j.pc + 1, flags := j.flags ||| 0, out := some v }) hval
  · exact wordRuns_of_chisel rfl (fun _ _ => ⟨rfl, rfl, rfl⟩) (fun _ => rfl) fun j => rfl

end Sys2Proof.Machine
end

section
namespace Sys2Proof.Machine

/-! The tables of the transcendental functions (R66). Each entry is compared in whole units of 2^-28, which every entry but the zero is a
multiple of. -/

/-- An FP32 magnitude of at least 2^-5, in units of 2^-28. -/
def units28 (p : Nat) : Nat := (2 ^ 23 + p % 2 ^ 23) * 2 ^ (p / 2 ^ 23 - 122)

/-- The sum of a magnitude and the next one, in the same units: their midpoint in units of 2^-29. -/
def mid29 (p : Nat) : Nat := units28 p + units28 (p + 1)

theorem units28_pos (p : Nat) : 0 < units28 p := by
  unfold units28
  positivity

theorem magOf_units28 {p : Nat} (hp : 122 ≤ p / 2 ^ 23) : FFmt.fp32.magOf p = units28 p / 2 ^ 28 := by
  have hexp : (2 : ℚ) ^ (((p / 2 ^ 23 : Nat) : Int) - 127 - 23) * 2 ^ 28 = 2 ^ (p / 2 ^ 23 - 122) := by
    rw [← zpow_natCast, ← zpow_natCast, ← zpow_add₀ two_ne_zero]
    congr 1
    omega
  rw [eq_div_iff (by positivity), units28, Nat.cast_mul, Nat.cast_pow, Nat.cast_ofNat, ← hexp, ← mul_assoc]
  refine congrArg (· * 2 ^ 28) (if_neg ?_)
  exact (Nat.lt_of_lt_of_le (by norm_num) hp).ne'

theorem midpoint_eq {p : Nat} (hp : 122 ≤ p / 2 ^ 23) : (FFmt.fp32.magOf p + FFmt.fp32.magOf (p + 1)) / 2 = mid29 p / 2 ^ 29 := by
  rw [magOf_units28 hp, magOf_units28 (p := p + 1) (hp.trans (Nat.div_le_div_right (Nat.le_succ p))), mid29, Nat.cast_add]
  ring

theorem midpoint_below {p : Nat} (hp : 122 ≤ (p - 1) / 2 ^ 23) :
    (FFmt.fp32.magOf (p - 1) + FFmt.fp32.magOf p) / 2 = mid29 (p - 1) / 2 ^ 29 := by
  have hsucc : p - 1 + 1 = p := by omega
  have h := midpoint_eq hp
  rwa [hsucc] at h

/-- 2^(j/32) lies between the midpoints around its entry. -/
def tableTEOk (j : Nat) : Bool :=
  let p := tableTE.getD j 0
  decide (122 ≤ (p - 1) / 2 ^ 23) && decide (mid29 (p - 1) ^ 32 ≤ 2 ^ j * (2 ^ 29) ^ 32) && decide (2 ^ j * (2 ^ 29) ^ 32 ≤ mid29 p ^ 32)

/-- So does 1 / (1 + j/32). -/
def tableTROk (j : Nat) : Bool :=
  let p := tableTR.getD j 0
  decide (122 ≤ (p - 1) / 2 ^ 23) && decide (mid29 (p - 1) * (32 + j) ≤ 32 * 2 ^ 29) && decide (32 * 2 ^ 29 ≤ mid29 p * (32 + j))

/-- b_j of R66 in sixteenths. -/
def tableB (j : Nat) : Nat := if j < 16 then 16 + j else 2 * j

/-- So does 1 / sqrt(b_j). -/
def tableTQOk (j : Nat) : Bool :=
  let p := tableTQ.getD j 0
  decide (122 ≤ (p - 1) / 2 ^ 23) && decide (mid29 (p - 1) ^ 2 * tableB j ≤ (2 ^ 29) ^ 2 * 16) &&
    decide ((2 ^ 29) ^ 2 * 16 ≤ mid29 p ^ 2 * tableB j)

/-- The entry of TL in units of 2^-28; the first is zero. -/
def logUnits (j : Nat) : Nat := if j = 0 then 0 else units28 (tableTL.getD j 0)

/-- `k` is the whole part of `n` times the logarithm of 2^28 / r. -/
def isLogFloor (n k r : Nat) : Bool := decide (2 ^ k * r ^ n ≤ (2 ^ 28) ^ n) && decide ((2 ^ 28) ^ n < 2 ^ (k + 1) * r ^ n)

/-- The logarithm of the rounded reciprocal, in whole units of 2^-12. -/
def tableTLOk (j : Nat) : Bool :=
  (j == 0 || decide (122 ≤ tableTL.getD j 0 / 2 ^ 23)) && isLogFloor 4096 (logUnits j / 2 ^ 16) (units28 (tableTR.getD j 0))

theorem tableTE_ok : ∀ j, j < 32 → tableTEOk j = true := by decide +kernel
theorem tableTR_ok : ∀ j, j < 32 → tableTROk j = true := by decide +kernel
theorem tableTQ_ok : ∀ j, j < 32 → tableTQOk j = true := by decide +kernel
theorem tableTL_ok : ∀ j, j < 32 → tableTLOk j = true := by decide +kernel

theorem isLogFloor_bounds {n k r : Nat} (hr : 0 < r) (h : isLogFloor n k r = true) :
    2 ^ k ≤ (2 ^ 28 / r : ℚ) ^ n ∧ (2 ^ 28 / r : ℚ) ^ n < 2 ^ (k + 1) := by
  simp only [isLogFloor, Bool.and_eq_true, decide_eq_true_eq] at h
  have hpos : (0 : ℚ) < r := by exact_mod_cast hr
  rw [div_pow, le_div_iff₀ (by positivity), div_lt_iff₀ (by positivity)]
  exact_mod_cast h

theorem tableB_eq (j : Nat) : (if j < 16 then (16 + (j : ℚ)) / 16 else (j : ℚ) / 8) = tableB j / 16 := by
  unfold tableB
  split
  · push_cast
    rfl
  · push_cast
    ring

section
variable {j : Nat} (hj : j < 32)
include hj

theorem tableTE_rounded :
    ((FFmt.fp32.magOf (tableTE.getD j 0 - 1) + FFmt.fp32.magOf (tableTE.getD j 0)) / 2) ^ 32 ≤ 2 ^ j ∧
      2 ^ j ≤ ((FFmt.fp32.magOf (tableTE.getD j 0) + FFmt.fp32.magOf (tableTE.getD j 0 + 1)) / 2) ^ 32 := by
  have hok := tableTE_ok j hj
  simp only [tableTEOk, Bool.and_eq_true, decide_eq_true_eq] at hok
  obtain ⟨⟨hp, hlo⟩, hhi⟩ := hok
  rw [midpoint_below hp, midpoint_eq (hp.trans (Nat.div_le_div_right (Nat.sub_le _ _))), div_pow, div_pow,
    div_le_iff₀ (by positivity), le_div_iff₀ (by positivity)]
  exact ⟨by exact_mod_cast hlo, by exact_mod_cast hhi⟩

theorem tableTR_rounded :
    (FFmt.fp32.magOf (tableTR.getD j 0 - 1) + FFmt.fp32.magOf (tableTR.getD j 0)) / 2 ≤ 32 / (32 + j) ∧
      32 / (32 + j) ≤ (FFmt.fp32.magOf (tableTR.getD j 0) + FFmt.fp32.magOf (tableTR.getD j 0 + 1)) / 2 := by
  have hok := tableTR_ok j hj
  simp only [tableTROk, Bool.and_eq_true, decide_eq_true_eq] at hok
  obtain ⟨⟨hp, hlo⟩, hhi⟩ := hok
  rw [midpoint_below hp, midpoint_eq (hp.trans (Nat.div_le_div_right (Nat.sub_le _ _))),
    div_le_div_iff₀ (by positivity) (by positivity), div_le_div_iff₀ (by positivity) (by positivity)]
  exact ⟨by exact_mod_cast hlo, by exact_mod_cast hhi⟩

theorem tableTQ_rounded :
    ((FFmt.fp32.magOf (tableTQ.getD j 0 - 1) + FFmt.fp32.magOf (tableTQ.getD j 0)) / 2) ^ 2 * (if j < 16 then (16 + (j : ℚ)) / 16 else (j : ℚ) / 8) ≤ 1 ∧
      1 ≤ ((FFmt.fp32.magOf (tableTQ.getD j 0) + FFmt.fp32.magOf (tableTQ.getD j 0 + 1)) / 2) ^ 2 * (if j < 16 then (16 + (j : ℚ)) / 16 else (j : ℚ) / 8) := by
  have hok := tableTQ_ok j hj
  simp only [tableTQOk, Bool.and_eq_true, decide_eq_true_eq] at hok
  obtain ⟨⟨hp, hlo⟩, hhi⟩ := hok
  rw [tableB_eq j, midpoint_below hp, midpoint_eq (hp.trans (Nat.div_le_div_right (Nat.sub_le _ _))), div_pow, div_pow, div_mul_div_comm,
    div_mul_div_comm, div_le_one (by positivity), one_le_div (by positivity)]
  exact ⟨by exact_mod_cast hlo, by exact_mod_cast hhi⟩

theorem magOf_tableTL : FFmt.fp32.magOf (tableTL.getD j 0) = logUnits j / 2 ^ 28 := by
  have hok := tableTL_ok j hj
  simp only [tableTLOk, Bool.and_eq_true, Bool.or_eq_true, beq_iff_eq, decide_eq_true_eq] at hok
  obtain ⟨hp, -⟩ := hok
  by_cases h0 : j = 0
  · rw [h0, logUnits, if_pos rfl, Nat.cast_zero, zero_div]
    exact FFmt.fp32.magOf_zero
  · rw [logUnits, if_neg h0, magOf_units28 (hp.resolve_left h0)]

theorem tableTL_log : ∃ k : Nat, k ≤ 4096 * FFmt.fp32.magOf (tableTL.getD j 0) ∧ 4096 * FFmt.fp32.magOf (tableTL.getD j 0) < k + 1 ∧
    2 ^ k ≤ (1 / FFmt.fp32.magOf (tableTR.getD j 0)) ^ 4096 ∧ (1 / FFmt.fp32.magOf (tableTR.getD j 0)) ^ 4096 < 2 ^ (k + 1) := by
  have hok := tableTL_ok j hj
  simp only [tableTLOk, Bool.and_eq_true, Bool.or_eq_true, beq_iff_eq, decide_eq_true_eq] at hok
  obtain ⟨-, hlog⟩ := hok
  have hrow := tableTR_ok j hj
  simp only [tableTROk, Bool.and_eq_true, decide_eq_true_eq] at hrow
  obtain ⟨⟨hp, -⟩, -⟩ := hrow
  have hr : 1 / FFmt.fp32.magOf (tableTR.getD j 0) = 2 ^ 28 / (units28 (tableTR.getD j 0) : ℚ) := by
    rw [magOf_units28 (hp.trans (Nat.div_le_div_right (Nat.sub_le _ _))), one_div_div]
  have hscale : 4096 * FFmt.fp32.magOf (tableTL.getD j 0) = logUnits j / 2 ^ 16 := by
    rw [magOf_tableTL hj]
    ring
  refine ⟨logUnits j / 2 ^ 16, ?_, ?_, hr ▸ isLogFloor_bounds (units28_pos _) hlog⟩
  · rw [hscale, le_div_iff₀ (by positivity)]
    exact_mod_cast Nat.div_mul_le_self _ _
  · rw [hscale, div_lt_iff₀ (by positivity)]
    exact_mod_cast Nat.lt_mul_of_div_lt (Nat.lt_succ_self _) (by positivity)

end

theorem transcendentalTables : Clause.TranscendentalTables := fun _ hj =>
  ⟨tableTE_rounded hj, tableTR_rounded hj, tableTQ_rounded hj, tableTL_log hj⟩

end Sys2Proof.Machine
end

section
namespace Sys2Proof.Machine

/-! Exact arithmetic as rational numbers (R57). -/

/-- The number that a finite value is. -/
def Val.num : Val → ℚ
  | .fin neg m e => (if neg then -1 else 1) * (m : ℚ) * 2 ^ e
  | _ => 0

/-- Neither NaN nor an infinity. -/
def Val.finite (v : Val) : Prop := v.isNan = false ∧ v.isInf = false

theorem Val.finite_iff (v : Val) : v.finite ↔ ∃ neg m e, v = .fin neg m e := by
  cases v <;> simp [Val.finite, Val.isNan, Val.isInf]

theorem Val.num_flip {v : Val} (hv : v.finite) : v.flip.finite ∧ v.flip.num = -v.num := by
  obtain ⟨neg, m, e, rfl⟩ := v.finite_iff.1 hv
  refine ⟨⟨rfl, rfl⟩, ?_⟩
  cases neg <;> simp [Val.flip, Val.num]

theorem signedAt_mul {neg : Bool} {m : Nat} {e b : Int} (hb : b ≤ e) : (signedAt neg m e b : ℚ) * 2 ^ b = (Val.fin neg m e).num := by
  have hscale : (2 : ℚ) ^ e = 2 ^ (e - b).toNat * 2 ^ b := by
    rw [← zpow_natCast, ← zpow_add₀ two_ne_zero]
    congr 1
    omega
  rw [Val.num, hscale, signedAt]
  cases neg
  · simp only [Bool.false_eq_true, if_false]
    push_cast
    ring
  · simp only [if_true]
    push_cast
    ring

theorem ofSigned_num (k : Int) (e : Int) (z : Bool) : (ofSigned k e z).finite ∧ (ofSigned k e z).num = k * 2 ^ e := by
  unfold ofSigned
  split
  next h => exact ⟨⟨rfl, rfl⟩, by simp [Val.num, h]⟩
  next h =>
    refine ⟨⟨rfl, rfl⟩, ?_⟩
    have habs : (k.natAbs : ℚ) = |(k : ℚ)| := by rw [Nat.cast_natAbs, Int.cast_abs]
    rw [Val.num, habs]
    by_cases hk : k < 0
    · rw [decide_eq_true hk, if_pos rfl, abs_of_neg (by exact_mod_cast hk)]
      ring
    · rw [decide_eq_false hk, if_neg Bool.false_ne_true, abs_of_nonneg (by exact_mod_cast not_lt.1 hk)]
      ring

theorem exactMul_num {x y : Val} (hx : x.finite) (hy : y.finite) :
    ∃ v, exactMul x y = ⟨v, false, 0⟩ ∧ v.finite ∧ v.num = x.num * y.num ∧ v.neg = (x.neg != y.neg) := by
  obtain ⟨a, m, e, rfl⟩ := x.finite_iff.1 hx
  obtain ⟨b, n, g, rfl⟩ := y.finite_iff.1 hy
  refine ⟨_, rfl, ⟨rfl, rfl⟩, ?_, rfl⟩
  rw [Val.num, Val.num, Val.num, zpow_add₀ two_ne_zero]
  cases a <;> cases b <;> simp <;> ring

/-- A sum of finite values is exact; it is a negative zero only of two negative zeros, but under RNI. -/
theorem exactAdd_num {x y : Val} (hx : x.finite) (hy : y.finite) (mode : Rm) :
    ∃ v, exactAdd x y mode = ⟨v, false, 0⟩ ∧ v.finite ∧ v.num = x.num + y.num ∧
      (mode ≠ .rni → x.neg = false ∨ y.neg = false → v.num = 0 → v.neg = false) := by
  obtain ⟨a, m, e, rfl⟩ := x.finite_iff.1 hx
  obtain ⟨b, n, g, rfl⟩ := y.finite_iff.1 hy
  simp only [exactAdd]
  split
  next h =>
    obtain ⟨rfl, rfl, rfl⟩ := h
    exact ⟨_, rfl, ⟨rfl, rfl⟩, by simp [Val.num], fun _ hs _ => hs.elim id id⟩
  next h =>
    obtain ⟨hfin, hnum⟩ := ofSigned_num (signedAt a m e (min e g) + signedAt b n g (min e g)) (min e g) (mode == .rni)
    refine ⟨_, rfl, hfin, ?_, fun hm _ h0 => ?_⟩
    · rw [hnum, Int.cast_add, add_mul, signedAt_mul (min_le_left _ _), signedAt_mul (min_le_right _ _)]
    · rw [hnum, mul_eq_zero, or_iff_left (by positivity), Int.cast_eq_zero] at h0
      rw [h0]
      simpa [ofSigned, Val.neg] using hm

theorem exactFma_num {x y z : Val} (hx : x.finite) (hy : y.finite) (hz : z.finite) (mode : Rm) :
    ∃ v, exactFma x y z mode = ⟨v, false, 0⟩ ∧ v.finite ∧ v.num = x.num * y.num + z.num ∧
      (mode ≠ .rni → (x.neg != y.neg) = false ∨ z.neg = false → v.num = 0 → v.neg = false) := by
  obtain ⟨p, hp, hpfin, hpnum, hpneg⟩ := exactMul_num hx hy
  obtain ⟨v, hv, hvfin, hvnum, hvneg⟩ := exactAdd_num hpfin hz mode
  refine ⟨v, ?_, hvfin, by rw [hvnum, hpnum], fun hm hs => hvneg hm (hpneg ▸ hs)⟩
  rw [exactFma, hp]
  dsimp only
  rw [hv, zero_or_flags]

/-! Exact results on FP32 (R47). -/

/-- The signed magnitude of a pattern. -/
def signedMag (neg : Bool) (p : Nat) : ℚ := (if neg then -1 else 1) * FFmt.fp32.magOf p

theorem f32_num (neg : Bool) {p : Nat} (hp : p ≤ FFmt.fp32.maxPat) : (f32 (withSign .fp32 neg p)).finite ∧
    (f32 (withSign .fp32 neg p)).num = signedMag neg p ∧ (f32 (withSign .fp32 neg p)).neg = neg := by
  obtain ⟨m, e, hv, hval⟩ := valOf_finite neg hp
  rw [f32, hv]
  exact ⟨⟨rfl, rfl⟩, by rw [Val.num, mul_assoc, hval, signedMag], rfl⟩

/-- A finite value that FP32 has is rounded to its pattern, without a flag. -/
theorem Exact.round_num {v : Val} {neg : Bool} {p : Nat} {mode : Rm} {sat : Bool} {h : BitVec 16} {fl : Flags} (hv : v.finite)
    (hp : p ≤ FFmt.fp32.maxPat) (hnum : v.num = signedMag neg p) (hneg : v.num = 0 → v.neg = neg) :
    Exact.round ⟨v, false, fl⟩ .fp32 mode sat h = ⟨withSign .fp32 neg p, fl⟩ := by
  obtain ⟨a, m, e, rfl⟩ := v.finite_iff.1 hv
  have hmag : 0 ≤ FFmt.fp32.magOf p := FFmt.fp32.magOf_zero ▸ FFmt.fp32.magOf_strictMono.monotone (Nat.zero_le p)
  have hm : (0 : ℚ) ≤ m * 2 ^ e := by positivity
  have hsame : a = neg ∧ FFmt.fp32.magOf p = m * 2 ^ e := by
    by_cases h0 : (Val.fin a m e).num = 0
    · rw [h0, signedMag, eq_comm, mul_eq_zero, or_iff_right (by cases neg <;> norm_num)] at hnum
      rw [Val.num, mul_assoc, mul_eq_zero, or_iff_right (by cases a <;> norm_num)] at h0
      exact ⟨hneg (by rw [Val.num, mul_assoc, h0, mul_zero]), by rw [hnum, h0]⟩
    · rw [Val.num, mul_assoc, signedMag] at hnum
      rw [Val.num, mul_assoc] at h0
      cases a <;> cases neg <;> simp only [Bool.false_eq_true, if_false, if_true, one_mul, neg_one_mul] at hnum h0
      · exact ⟨rfl, hnum.symm⟩
      · exact absurd (le_antisymm (hnum.trans_le (neg_nonpos.2 hmag)) hm) h0
      · exact absurd (le_antisymm (neg_nonpos.2 hm) (hmag.trans_eq hnum.symm)) h0
      · exact ⟨rfl, (neg_injective hnum).symm⟩
  obtain ⟨rfl, hval⟩ := hsame
  show (⟨(roundMag .fp32 a m e false mode sat h).pat, (roundMag .fp32 a m e false mode sat h).flags ||| fl⟩ : Rounded) = _
  rw [roundMag_exact hp hval, zero_or_flags]

theorem fma32_exact {x y z : Val} {neg : Bool} {p : Nat} (hx : x.finite) (hy : y.finite) (hz : z.finite) (hp : p ≤ FFmt.fp32.maxPat)
    (hnum : x.num * y.num + z.num = signedMag neg p)
    (hzero : x.num * y.num + z.num = 0 → neg = false ∧ ((x.neg != y.neg) = false ∨ z.neg = false)) :
    fma32 x y z = f32 (withSign .fp32 neg p) := by
  obtain ⟨v, hv, hfin, hval, hsign⟩ := exactFma_num hx hy hz .rne
  have hneg : v.num = 0 → v.neg = neg := fun h0 => by
    obtain ⟨rfl, hs⟩ := hzero (hval.symm.trans h0)
    exact hsign (by decide) hs h0
  rw [fma32, hv, Exact.round_num hfin hp (hval.trans hnum) hneg]

theorem mul32_exact {x y : Val} {p : Nat} (hx : x.finite) (hy : y.finite) (hp : p ≤ FFmt.fp32.maxPat)
    (hnum : x.num * y.num = FFmt.fp32.magOf p) (hneg : x.neg = y.neg) : mul32 x y = f32 p := by
  obtain ⟨v, hv, hfin, hval, hsign⟩ := exactMul_num hx hy
  have hpos : v.num = signedMag false p := by rw [hval, hnum, signedMag, if_neg Bool.false_ne_true, one_mul]
  rw [mul32, hv, Exact.round_num hfin hp hpos fun _ => by rw [hsign, hneg, bne_self_eq_false]]
  rfl

/-! Powers of two. -/

theorem magOf_maxPat : FFmt.fp32.magOf FFmt.fp32.maxPat = (2 ^ 24 - 1) * 2 ^ 104 := by
  have h := FFmt.magOf_packMag (f := .fp32) (n := 2 ^ 24 - 1) (q := 104) ⟨by decide, by decide, fun h => absurd h (by decide)⟩
  refine (congrArg FFmt.fp32.magOf (show FFmt.fp32.maxPat = packMag .fp32 (2 ^ 24 - 1) 104 by decide)).trans (h.trans ?_)
  norm_num

/-- A magnitude whose last bit has a weight that FP32 keeps, and that is not beyond its largest number, is a pattern's. -/
theorem exists_pattern {m : Nat} {e : Int} (hm : m ≠ 0) (hq : FFmt.fp32.quantum m e ≤ e) (hle : (m : ℚ) * 2 ^ e ≤ (2 ^ 24 - 1) * 2 ^ 104) :
    ∃ p, p ≤ FFmt.fp32.maxPat ∧ FFmt.fp32.magOf p = m * 2 ^ e := by
  have hr : FFmt.fp32.rest m e = 0 := if_neg (not_lt.2 hq)
  have hval := (FFmt.rest_eq_zero_iff (f := .fp32) hm).1 hr
  refine ⟨_, ?_, hval⟩
  rw [← FFmt.fp32.magOf_strictMono.le_iff_le, hval, magOf_maxPat]
  exact hle

theorem exists_pattern_two_zpow {k : Int} (hlo : -149 ≤ k) (hhi : k ≤ 127) : ∃ p, p ≤ FFmt.fp32.maxPat ∧ FFmt.fp32.magOf p = 2 ^ k := by
  have hq : FFmt.fp32.quantum 1 k ≤ k := by
    rw [FFmt.quantum, show Nat.log2 1 = 0 by decide, show FFmt.fp32.emin = -126 by decide, show FFmt.fp32.mbits = 23 by decide]
    omega
  have hle : ((1 : Nat) : ℚ) * 2 ^ k ≤ (2 ^ 24 - 1) * 2 ^ 104 := by
    rw [Nat.cast_one, one_mul]
    exact (zpow_le_zpow_right₀ one_le_two hhi).trans (by norm_num)
  obtain ⟨p, hp, hval⟩ := exists_pattern one_ne_zero hq hle
  exact ⟨p, hp, by rw [hval, Nat.cast_one, one_mul]⟩

theorem exists_pattern_nat {n : Nat} (hn : n < 2 ^ 24) : ∃ p, p ≤ FFmt.fp32.maxPat ∧ FFmt.fp32.magOf p = n := by
  by_cases h0 : n = 0
  · exact ⟨0, Nat.zero_le _, by rw [h0, FFmt.magOf_zero, Nat.cast_zero]⟩
  · have hlog : Nat.log2 n < 24 := (Nat.log2_lt h0).2 hn
    have hq : FFmt.fp32.quantum n 0 ≤ 0 := by
      rw [FFmt.quantum, show FFmt.fp32.emin = -126 by decide, show FFmt.fp32.mbits = 23 by decide]
      omega
    have hle : (n : ℚ) * 2 ^ (0 : Int) ≤ (2 ^ 24 - 1) * 2 ^ 104 := by
      have : (n : ℚ) ≤ 2 ^ 24 := by exact_mod_cast hn.le
      rw [zpow_zero, mul_one]
      exact this.trans (by norm_num)
    obtain ⟨p, hp, hval⟩ := exists_pattern h0 hq hle
    exact ⟨p, hp, by rw [hval, zpow_zero, mul_one]⟩

/-- A magnitude that is a power of two has a significand that is one, and the exponent is that of its leading bit. -/
theorem isPow2_of_magnitude {m : Nat} {e k : Int} (h : (m : ℚ) * 2 ^ e = 2 ^ k) : isPow2 m = true ∧ (Nat.log2 m : Int) + e = k := by
  have hm : m ≠ 0 := by
    rintro rfl
    rw [Nat.cast_zero, zero_mul] at h
    exact absurd h.symm (by positivity)
  have hlo := le_magnitude hm e
  have hhi := magnitude_lt m e
  rw [h, zpow_le_zpow_iff_right₀ one_lt_two] at hlo
  rw [h, zpow_lt_zpow_iff_right₀ one_lt_two] at hhi
  have hk : (Nat.log2 m : Int) + e = k := by omega
  refine ⟨?_, hk⟩
  rw [← hk, zpow_add₀ two_ne_zero, zpow_natCast] at h
  have hpow := mul_right_cancel₀ (by positivity) h
  rw [isPow2, beq_iff_eq]
  exact_mod_cast hpow

theorem magnitude_of_isPow2 {m : Nat} (h : isPow2 m = true) (e : Int) : (m : ℚ) * 2 ^ e = 2 ^ ((Nat.log2 m : Int) + e) := by
  rw [isPow2, beq_iff_eq] at h
  rw [zpow_add₀ two_ne_zero, zpow_natCast]
  exact congrArg (· * (2 : ℚ) ^ e) (by exact_mod_cast h)

/-- Powers of two have only powers of two as factors. -/
theorem isPow2_of_mul {n m : Nat} {q e k : Int} (h : (n : ℚ) * 2 ^ q * (m * 2 ^ e) = 2 ^ k) : isPow2 m = true := by
  have hnm : ((n * m : Nat) : ℚ) * 2 ^ (q + e) = 2 ^ k := by
    rw [Nat.cast_mul, zpow_add₀ two_ne_zero, ← h]
    ring
  obtain ⟨hpow, -⟩ := isPow2_of_magnitude hnm
  rw [isPow2, beq_iff_eq] at hpow
  obtain ⟨i, -, hi⟩ := (Nat.dvd_prime_pow Nat.prime_two).1 (hpow ▸ Nat.dvd_mul_left m n)
  rw [isPow2, hi, Nat.log2_two_pow, beq_self_eq_true]

end Sys2Proof.Machine
end

section
namespace Sys2Proof.Machine

/-! EXP2 (R68). -/

/-- A positive zero. -/
def Val.IsPosZero (v : Val) : Prop := v.finite ∧ v.num = 0 ∧ v.neg = false

theorem f32_posZero : (f32 0).IsPosZero := by
  obtain ⟨h1, h2, h3⟩ := f32_num false (p := 0) (Nat.zero_le _)
  exact ⟨h1, h2.trans (by rw [signedMag, FFmt.magOf_zero, mul_zero]), h3⟩

/-- A step of a polynomial at zero gives its constant term. -/
theorem fma32_posZero {x f : Val} {neg : Bool} {p : Nat} (hx : x.finite) (hf : f.IsPosZero) (hp : p ≤ FFmt.fp32.maxPat) (hp0 : 0 < p) :
    fma32 x f (f32 (withSign .fp32 neg p)) = f32 (withSign .fp32 neg p) := by
  obtain ⟨hfin, hnum, -⟩ := hf
  obtain ⟨hz, hzn, -⟩ := f32_num neg hp
  have hpos : 0 < FFmt.fp32.magOf p := FFmt.fp32.magOf_zero ▸ FFmt.fp32.magOf_strictMono hp0
  have hval : x.num * f.num + (f32 (withSign .fp32 neg p)).num = signedMag neg p := by rw [hnum, mul_zero, zero_add, hzn]
  refine fma32_exact hx hfin hz hp hval fun h0 => absurd (hval.symm.trans h0) ?_
  rw [signedMag]
  cases neg <;> simp [hpos.ne']

theorem mul32_posZero {x f : Val} (hx : x.finite) (hf : f.IsPosZero) (hneg : x.neg = false) : mul32 x f = f32 0 := by
  obtain ⟨hfin, hnum, hfneg⟩ := hf
  exact mul32_exact hx hfin (Nat.zero_le _) (by rw [hnum, mul_zero, FFmt.magOf_zero]) (hneg.trans hfneg.symm)

theorem f32_finite (neg : Bool) {p : Nat} (hp : p ≤ FFmt.fp32.maxPat) : (f32 (withSign .fp32 neg p)).finite := (f32_num neg hp).1

theorem f32_one : f32 0x3F800000 = .fin false (2 ^ 23) (-23) := by decide +kernel

theorem f32_one_num : (f32 0x3F800000).finite ∧ (f32 0x3F800000).num = 1 ∧ (f32 0x3F800000).neg = false := by
  rw [f32_one]
  exact ⟨⟨rfl, rfl⟩, by norm_num [Val.num], rfl⟩

theorem magOf_one : FFmt.fp32.magOf 0x3F800000 = 1 := by
  obtain ⟨-, h, -⟩ := f32_num false (p := 0x3F800000) (by decide)
  have h1 : (f32 (withSign .fp32 false 0x3F800000)).num = 1 := f32_one_num.2.1
  rw [h1, signedMag, if_neg Bool.false_ne_true, one_mul] at h
  exact h.symm

/-- The polynomial of R68 at zero is one. -/
theorem exp2_at_posZero {f : Val} (hf : f.IsPosZero) :
    fma32 (f32 0x3F800000) (mul32 (fma32 (fma32 (f32 0x3D635847) f (f32 0x3E75FDF0)) f (f32 0x3F317218)) f) (f32 0x3F800000) =
      f32 0x3F800000 := by
  have h1 : fma32 (f32 0x3D635847) f (f32 0x3E75FDF0) = f32 0x3E75FDF0 :=
    fma32_posZero (neg := false) (f32_finite false (p := 0x3D635847) (by decide)) hf (by decide) (by decide)
  have h2 : fma32 (f32 0x3E75FDF0) f (f32 0x3F317218) = f32 0x3F317218 :=
    fma32_posZero (neg := false) (f32_finite false (p := 0x3E75FDF0) (by decide)) hf (by decide) (by decide)
  have h3 : mul32 (f32 0x3F317218) f = f32 0 := mul32_posZero (f32_finite false (p := 0x3F317218) (by decide)) hf (by decide +kernel)
  have h4 : fma32 (f32 0x3F800000) (f32 0) (f32 0x3F800000) = f32 0x3F800000 :=
    fma32_posZero (neg := false) f32_one_num.1 f32_posZero (by decide) (by decide)
  rw [h1, h2, h3, h4]

/-- A result that adds no flag of its own. -/
theorem Rounded.flags_or_zero (r : Rounded) : (⟨r.pat, r.flags ||| 0⟩ : Rounded) = r := by rw [show r.flags ||| 0 = r.flags from BitVec.or_zero]

section
variable {a : Nat} {neg : Bool} {m : Nat} {e : Int} (hx : f32 a = .fin neg m e) (sat : Bool)
include hx

/-- EXP2 of an integer is that power of two, rounded. -/
theorem exp2Def_integer {n : Int} (hn : (f32 a).num = n) :
    exp2Def a sat = roundMag .fp32 false (2 ^ 23) (-23 + max (-400) (min 400 n)) false .rne sat 0 := by
  have hk : signedAt neg m e (min e 0) = n * (2 ^ (-e).toNat : Nat) := by
    have h := signedAt_mul (neg := neg) (m := m) (min_le_left e 0)
    rw [← hx, hn, show min e 0 = -((-e).toNat : Int) by omega, zpow_neg, zpow_natCast] at h
    rw [show min e 0 = -((-e).toNat : Int) by omega]
    field_simp at h
    rw [mul_comm]
    exact_mod_cast h
  have hpos : ((2 ^ (-e).toNat : Nat) : Int) ≠ 0 := by positivity
  have hzero : (Val.fin false (0 - 0 * 2 ^ (-e).toNat) (-((-e).toNat : Int) - 5)).IsPosZero :=
    ⟨⟨rfl, rfl⟩, by simp [Val.num], rfl⟩
  unfold exp2Def
  rw [hx]
  dsimp only
  rw [hk, Int.mul_emod_left, Int.mul_ediv_cancel _ hpos, Int.toNat_zero, Nat.zero_mul, Nat.zero_div]
  rw [show f32 (tableTE.getD 0 0) = f32 0x3F800000 from rfl, exp2_at_posZero hzero, f32_one]
  exact Rounded.flags_or_zero _

/-- EXP2 of what is no integer is not exact. -/
theorem exp2Def_fraction (hn : ∀ n : Int, (f32 a).num ≠ n) : (exp2Def a sat).flags.getLsbD 4 = true := by
  have hfrac : (signedAt neg m e (min e 0) % (2 ^ (-e).toNat : Nat)).toNat ≠ 0 := by
    intro h0
    have hpos : (0 : Int) < (2 ^ (-e).toNat : Nat) := by positivity
    have hmod : signedAt neg m e (min e 0) % (2 ^ (-e).toNat : Nat) = 0 := by
      have := Int.emod_nonneg (signedAt neg m e (min e 0)) hpos.ne'
      omega
    refine hn (signedAt neg m e (min e 0) / (2 ^ (-e).toNat : Nat)) ?_
    have h := signedAt_mul (neg := neg) (m := m) (min_le_left e 0)
    rw [← hx] at h
    rw [← h, Int.cast_div (Int.dvd_of_emod_eq_zero hmod) (by exact_mod_cast hpos.ne'), div_eq_mul_inv]
    congr 1
    rw [show min e 0 = -((-e).toNat : Int) by omega, zpow_neg, zpow_natCast]
    push_cast
    rfl
  unfold exp2Def
  rw [hx]
  dsimp only
  rw [bne_iff_ne.2 hfrac, BitVec.getLsbD_or, show (flagIf true flagNX).getLsbD 4 = true from rfl, Bool.or_true]

end

/-! LOG2, RCP and RSQRT (R69 to R71). -/

theorem ne_zero_of_isPow2 {m : Nat} (h : isPow2 m = true) : m ≠ 0 := by
  rw [isPow2, beq_iff_eq] at h
  rw [h]
  positivity

/-- The significand of a power of two is one, and the first entry of each table serves it. -/
theorem normal_pow2 {m : Nat} (h : isPow2 m = true) (e : Int) : (normal m e).1.finite ∧ (normal m e).1.num = 1 ∧ (normal m e).1.neg = false ∧
    tableIndex m = 0 ∧ m * 16 / 2 ^ Nat.log2 m - 16 = 0 := by
  have hm := ne_zero_of_isPow2 h
  have hval := magnitude_of_isPow2 h (-(Nat.log2 m : Int))
  rw [add_neg_cancel, zpow_zero] at hval
  rw [isPow2, beq_iff_eq] at h
  refine ⟨⟨rfl, rfl⟩, ?_, rfl, ?_, ?_⟩
  · show (if false = true then (-1 : ℚ) else 1) * m * 2 ^ (-(Nat.log2 m : Int)) = 1
    rw [if_neg Bool.false_ne_true, one_mul, hval]
  · rw [tableIndex, ← h, Nat.mul_div_cancel_left _ (by omega)]
  · rw [← h, Nat.mul_div_cancel_left _ (by omega)]

/-- One minus one is a positive zero. -/
theorem fma32_one_sub {x y z : Val} (hx : x.finite) (hy : y.finite) (hz : z.finite) (hnum : x.num * y.num + z.num = 0)
    (hneg : (x.neg != y.neg) = false ∨ z.neg = false) : fma32 x y z = f32 0 := by
  refine fma32_exact (neg := false) (p := 0) hx hy hz (Nat.zero_le _) ?_ fun _ => ⟨rfl, hneg⟩
  rw [hnum, signedMag, FFmt.magOf_zero, mul_zero]

theorem fma32_one {x y z : Val} (hx : x.finite) (hy : y.finite) (hz : z.finite) (hnum : x.num * y.num + z.num = 1) :
    fma32 x y z = f32 0x3F800000 := by
  refine fma32_exact (neg := false) (p := 0x3F800000) hx hy hz (by decide) ?_ fun h0 => absurd (hnum.symm.trans h0) one_ne_zero
  rw [hnum, signedMag, magOf_one, if_neg Bool.false_ne_true, one_mul]

theorem mul32_one {x y : Val} (hx : x.finite) (hy : y.finite) (hnum : x.num * y.num = 1) (hneg : x.neg = y.neg) :
    mul32 x y = f32 0x3F800000 :=
  mul32_exact hx hy (by decide) (hnum.trans magOf_one.symm) hneg

/-- The polynomial of R69 at zero is zero. -/
theorem log2_at_posZero {u : Val} (hu : u.IsPosZero) :
    mul32 (fma32 (fma32 (fma32 (f32 0xBEB8AA3B) u (f32 0x3EF6384F)) u (f32 0xBF38AA3B)) u (f32 0x3FB8AA3B)) u = f32 0 := by
  have h1 : fma32 (f32 0xBEB8AA3B) u (f32 0x3EF6384F) = f32 0x3EF6384F :=
    fma32_posZero (neg := false) (f32_finite true (p := 0x3EB8AA3B) (by decide)) hu (by decide) (by decide)
  have h2 : fma32 (f32 0x3EF6384F) u (f32 0xBF38AA3B) = f32 0xBF38AA3B :=
    fma32_posZero (neg := true) (p := 0x3F38AA3B) (f32_finite false (p := 0x3EF6384F) (by decide)) hu (by decide) (by decide)
  have h3 : fma32 (f32 0xBF38AA3B) u (f32 0x3FB8AA3B) = f32 0x3FB8AA3B :=
    fma32_posZero (neg := false) (f32_finite true (p := 0x3F38AA3B) (by decide)) hu (by decide) (by decide)
  have h4 : mul32 (f32 0x3FB8AA3B) u = f32 0 := mul32_posZero (f32_finite false (p := 0x3FB8AA3B) (by decide)) hu (by decide +kernel)
  rw [h1, h2, h3, h4]

theorem valOfInt_num (k : Int) : (valOfInt k).finite ∧ (valOfInt k).num = k ∧ (valOfInt k).neg = decide (k < 0) := by
  refine ⟨⟨rfl, rfl⟩, ?_, rfl⟩
  have habs : (k.natAbs : ℚ) = |(k : ℚ)| := by rw [Nat.cast_natAbs, Int.cast_abs]
  rw [valOfInt, Val.num, habs, zpow_zero, mul_one]
  by_cases hk : k < 0
  · rw [decide_eq_true hk, if_pos rfl, abs_of_neg (by exact_mod_cast hk), neg_one_mul, neg_neg]
  · rw [decide_eq_false hk, if_neg Bool.false_ne_true, abs_of_nonneg (by exact_mod_cast not_lt.1 hk), one_mul]

/-- The signed magnitude of an integer's pattern. -/
theorem signedMag_int {k : Int} {p : Nat} (hp : FFmt.fp32.magOf p = |(k : ℚ)|) : signedMag (decide (k < 0)) p = k := by
  rw [signedMag, hp]
  by_cases hk : k < 0
  · rw [decide_eq_true hk, if_pos rfl, abs_of_neg (by exact_mod_cast hk), neg_one_mul, neg_neg]
  · rw [decide_eq_false hk, if_neg Bool.false_ne_true, abs_of_nonneg (by exact_mod_cast not_lt.1 hk), one_mul]

section
variable {a : Nat} {neg : Bool} {m : Nat} {e : Int} (hx : f32 a = .fin neg m e) (sat : Bool)
include hx

/-- The logarithm of a power of two is its exponent. -/
theorem log2Def_pow2 (hneg : neg = false) (hpow : isPow2 m = true) {k : Int} (hk : e + Nat.log2 m = k) {p : Nat} (hp : p ≤ FFmt.fp32.maxPat)
    (hval : FFmt.fp32.magOf p = |(k : ℚ)|) : log2Def a sat = ⟨withSign .fp32 (decide (k < 0)) p, 0⟩ := by
  obtain ⟨hfin, hnum, hvneg, hidx, -⟩ := normal_pow2 hpow e
  obtain ⟨hofin, honum, -⟩ := f32_one_num
  have honeg : (Val.fin false 1 0).flip.num = -1 := by simp [Val.flip, Val.num]
  have hu : fma32 (normal m e).1 (f32 0x3F800000) (Val.fin false 1 0).flip = f32 0 := by
    refine fma32_one_sub hfin hofin ⟨rfl, rfl⟩ (by rw [hnum, honum, honeg]; norm_num) (.inl ?_)
    rw [hvneg, f32_one]
    rfl
  have ht : f32 ((exactAdd (f32 0) (f32 0) .rne).round .fp32 .rne false 0).pat = f32 0 := by decide +kernel
  have hr : (exactAdd (valOfInt k) (f32 0) .rne).round .fp32 .rne sat 0 = ⟨withSign .fp32 (decide (k < 0)) p, 0⟩ := by
    obtain ⟨hkfin, hknum, hkneg⟩ := valOfInt_num k
    obtain ⟨hzfin, hznum, hzneg⟩ := f32_posZero
    obtain ⟨v, hv, hvfin, hvnum, hvsign⟩ := exactAdd_num hkfin hzfin .rne
    rw [hknum, hznum, add_zero] at hvnum
    rw [hv, Exact.round_num hvfin hp (hvnum.trans (signedMag_int hval).symm) fun h0 => ?_]
    rw [hvsign (by decide) (.inr hzneg) h0, eq_comm, decide_eq_false_iff_not]
    rw [hvnum, Int.cast_eq_zero] at h0
    omega
  unfold log2Def
  rw [hx]
  dsimp only
  rw [if_neg (ne_zero_of_isPow2 hpow), hneg, if_neg Bool.false_ne_true, hidx, show f32 (tableTR.getD 0 0) = f32 0x3F800000 from rfl,
    show f32 (tableTL.getD 0 0) = f32 0 from rfl, hu, log2_at_posZero f32_posZero, ht, show (normal m e).2 = k from hk, hr, hpow]
  exact Rounded.flags_or_zero _

theorem log2Def_inexact (hneg : neg = false) (hm : m ≠ 0) (hpow : isPow2 m = false) : (log2Def a sat).flags.getLsbD 4 = true := by
  unfold log2Def
  rw [hx]
  dsimp only
  rw [if_neg hm, hneg, if_neg Bool.false_ne_true, hpow, BitVec.getLsbD_or, show (flagIf (!false) flagNX).getLsbD 4 = true from rfl, Bool.or_true]

/-- The reciprocal of a power of two, rounded. -/
theorem rcpDef_pow2 (hpow : isPow2 m = true) {k : Int} (hk : e + Nat.log2 m = k) :
    rcpDef a sat = roundMag .fp32 neg (2 ^ 23) (-23 + -k) false .rne sat 0 := by
  obtain ⟨hfin, hnum, hvneg, hidx, -⟩ := normal_pow2 hpow e
  obtain ⟨hofin, honum, honeg⟩ := f32_one_num
  have hstep : rcpStep (normal m e).1 (f32 0x3F800000) = f32 0x3F800000 := by
    have hflip := Val.num_flip hfin
    have hh : fma32 (normal m e).1.flip (f32 0x3F800000) (.fin false 1 0) = f32 0 :=
      fma32_one_sub hflip.1 hofin ⟨rfl, rfl⟩ (by rw [hflip.2, hnum, honum]; norm_num [Val.num]) (.inr rfl)
    rw [rcpStep, hh]
    exact fma32_one hofin f32_posZero.1 hofin (by rw [f32_posZero.2.1, honum]; norm_num)
  unfold rcpDef
  rw [hx]
  dsimp only
  rw [if_neg (ne_zero_of_isPow2 hpow), hidx, show f32 (tableTR.getD 0 0) = f32 0x3F800000 from rfl, hstep, hstep, show (normal m e).2 = k from hk,
    hpow, f32_one]
  cases neg <;> exact Rounded.flags_or_zero _

theorem rcpDef_inexact (hm : m ≠ 0) (hpow : isPow2 m = false) : (rcpDef a sat).flags.getLsbD 4 = true := by
  unfold rcpDef
  rw [hx]
  dsimp only
  rw [if_neg hm, hpow, BitVec.getLsbD_or, show (flagIf (!false) flagNX).getLsbD 4 = true from rfl, Bool.or_true]

/-- The reciprocal root of an even power of two, rounded. -/
theorem rsqrtDef_pow4 (hneg : neg = false) (hpow : isPow2 m = true) {k : Int} (hk : e + Nat.log2 m = 2 * k) :
    rsqrtDef a sat = roundMag .fp32 false (2 ^ 23) (-23 + -k) false .rne sat 0 := by
  obtain ⟨hfin, hnum, hvneg, -, hidx⟩ := normal_pow2 hpow e
  obtain ⟨hofin, honum, honeg⟩ := f32_one_num
  have hstep : rsqrtStep (normal m e).1 (f32 0x3F800000) = f32 0x3F800000 := by
    have h1 : mul32 (f32 0x3F800000) (f32 0x3F800000) = f32 0x3F800000 := mul32_one hofin hofin (by rw [honum, one_mul]) rfl
    have h2 : mul32 (normal m e).1 (f32 0x3F800000) = f32 0x3F800000 :=
      mul32_one hfin hofin (by rw [hnum, honum, one_mul]) (hvneg.trans honeg.symm)
    have h3 : fma32 (.fin true 1 (-1)) (f32 0x3F800000) (.fin false 3 (-1)) = f32 0x3F800000 :=
      fma32_one ⟨rfl, rfl⟩ hofin ⟨rfl, rfl⟩ (by rw [honum]; norm_num [Val.num])
    rw [rsqrtStep, h1, h2, h3, h1]
  have heven : ((normal m e).2 % 2 != 0) = false := by
    rw [show (normal m e).2 = 2 * k from hk, Int.mul_emod_right]
    rfl
  unfold rsqrtDef
  rw [hx]
  dsimp only
  rw [if_neg (ne_zero_of_isPow2 hpow), hneg, if_neg Bool.false_ne_true, heven, hidx, if_neg Bool.false_ne_true, if_neg Bool.false_ne_true,
    if_neg Bool.false_ne_true, show f32 (tableTQ.getD (0 + 0) 0) = f32 0x3F800000 from rfl, hstep, hstep, show (normal m e).2 = 2 * k from hk,
    Int.mul_ediv_cancel_left _ two_ne_zero, hpow, f32_one]
  exact Rounded.flags_or_zero _

theorem rsqrtDef_inexact (hneg : neg = false) (hm : m ≠ 0) (hodd : (e + Nat.log2 m) % 2 ≠ 0 ∨ isPow2 m = false) :
    (rsqrtDef a sat).flags.getLsbD 4 = true := by
  have hflag : ((normal m e).2 % 2 != 0 || !isPow2 m) = true := by
    rcases hodd with h | h
    · rw [show ((normal m e).2 % 2 != 0) = true from bne_iff_ne.2 h, Bool.true_or]
    · rw [h, Bool.not_false, Bool.or_true]
  unfold rsqrtDef
  rw [hx]
  dsimp only
  rw [if_neg hm, hneg, if_neg Bool.false_ne_true, hflag, BitVec.getLsbD_or, show (flagIf true flagNX).getLsbD 4 = true from rfl, Bool.or_true]

end

end Sys2Proof.Machine
end

section
namespace Sys2Proof.Machine

/-! What NX says of a rounding (R47). -/

section
variable {f : FFmt} {neg : Bool} {m : Nat} {e : Int} {mode : Rm} {sat : Bool} {h : BitVec 16}

theorem Rounded.noNX (p : Nat) : (⟨p, 0⟩ : Rounded).flags.getLsbD 4 = false := BitVec.getLsbD_zero

theorem overflow_NX : (overflow f neg mode sat).flags.getLsbD 4 = true := by
  cases f <;> cases neg <;> cases mode <;> cases sat <;> decide

theorem overflow_saturated (hof : (overflow f neg mode sat).flags.getLsbD 2 = false) :
    (overflow f neg mode sat).pat = withSign f neg f.maxPat := by
  revert hof
  cases f <;> cases neg <;> cases mode <;> cases sat <;> decide

/-- Without NX the result is exact. -/
theorem roundMag_noNX (hm : m ≠ 0) (hnx : (roundMag f neg m e false mode sat h).flags.getLsbD 4 = false) :
    ∃ p, p ≤ f.maxPat ∧ f.magOf p = m * 2 ^ e ∧ roundMag f neg m e false mode sat h = ⟨withSign f neg p, 0⟩ := by
  have heq := roundMag_eq (f := f) (neg := neg) (e := e) (mode := mode) (sat := sat) (h := h) hm
  by_cases hbig : f.maxPat < f.roundedPat neg m e mode h
  · rw [if_pos hbig] at heq
    rw [heq, BitVec.getLsbD_or, overflow_NX, Bool.true_or] at hnx
    exact absurd hnx (by decide)
  · rw [if_neg hbig] at heq
    rw [heq] at hnx
    have hr : f.rest m e = 0 := by
      by_contra hr
      exact Bool.false_ne_true (hnx.symm.trans (FFmt.cutFlags_NX.2 hr))
    have hval := (FFmt.magOf_roundedPat_eq_iff (neg := neg) (mode := mode) (h := h) hm).2 hr
    exact ⟨_, not_lt.1 hbig, hval, roundMag_exact (not_lt.1 hbig) hval⟩

/-- Without OF the result is finite. -/
theorem roundMag_noOF (hm : m ≠ 0) (hof : (roundMag f neg m e false mode sat h).flags.getLsbD 2 = false) :
    ∃ p, p ≤ f.maxPat ∧ (roundMag f neg m e false mode sat h).pat = withSign f neg p := by
  have heq := roundMag_eq (f := f) (neg := neg) (e := e) (mode := mode) (sat := sat) (h := h) hm
  by_cases hbig : f.maxPat < f.roundedPat neg m e mode h
  · rw [if_pos hbig] at heq
    rw [heq, BitVec.getLsbD_or, Bool.or_eq_false_iff] at hof
    exact ⟨_, le_rfl, heq ▸ overflow_saturated hof.1⟩
  · rw [if_neg hbig] at heq
    exact ⟨_, not_lt.1 hbig, by rw [heq]⟩

theorem roundMag_NX_iff (hm : m ≠ 0) (hof : (roundMag f neg m e false mode sat h).flags.getLsbD 2 = false) :
    (roundMag f neg m e false mode sat h).flags.getLsbD 4 = true ↔
      f.magOf ((roundMag f neg m e false mode sat h).pat % f.signBit) ≠ m * 2 ^ e := by
  have hpart : ∀ {p}, p ≤ f.maxPat → withSign f neg p % f.signBit = p := fun hp => (withSign_parts (hp.trans_lt f.maxPat_lt_signBit)).2.2
  constructor
  · intro hnx hval
    obtain ⟨p, hp, hpat⟩ := roundMag_noOF hm hof
    rw [hpat, hpart hp] at hval
    rw [roundMag_exact hp hval] at hnx
    exact Bool.false_ne_true ((Rounded.noNX _).symm.trans hnx)
  · intro hne
    by_contra hnx
    obtain ⟨p, hp, hval, hr⟩ := roundMag_noNX hm (Bool.eq_false_iff.2 hnx)
    rw [hr] at hne
    exact hne (by rw [hpart hp, hval])

end

/-! Powers of two as operands (R68 to R71). -/

theorem significand_two_zpow (k : Int) : ((2 ^ 23 : Nat) : ℚ) * 2 ^ (-23 + k) = 2 ^ k := by
  rw [Nat.cast_pow, Nat.cast_ofNat, ← zpow_natCast, ← zpow_add₀ two_ne_zero]
  congr 1
  push_cast
  ring

theorem roundMag_two_zpow {k : Int} (hlo : -149 ≤ k) (hhi : k ≤ 127) (neg : Bool) (mode : Rm) (sat : Bool) (h : BitVec 16) :
    ∃ p, p ≤ FFmt.fp32.maxPat ∧ FFmt.fp32.magOf p = 2 ^ k ∧
      roundMag .fp32 neg (2 ^ 23) (-23 + k) false mode sat h = ⟨withSign .fp32 neg p, 0⟩ := by
  obtain ⟨p, hp, hval⟩ := exists_pattern_two_zpow hlo hhi
  exact ⟨p, hp, hval, roundMag_exact hp (hval.trans (significand_two_zpow k).symm)⟩

/-- The pattern of an exponent without a fraction. -/
theorem magOf_exponent {n : Nat} (hn : 1 ≤ n) : FFmt.fp32.magOf (2 ^ 23 * n) = 2 ^ ((n : Int) - 127) := by
  have hs : FFmt.fp32.Scaled (2 ^ 23) (-23 + ((n : Int) - 127)) :=
    ⟨by show (-126 : Int) - 23 ≤ _; omega, by decide, fun hlt => absurd hlt (by decide)⟩
  have hpack : packMag .fp32 (2 ^ 23) (-23 + ((n : Int) - 127)) = 2 ^ 23 * n := by
    rw [packMag_of_normal _ (by decide) (by decide)]
    show (-23 + ((n : Int) - 127) + 23 + 127).toNat * 2 ^ 23 + 0 = 2 ^ 23 * n
    omega
  rw [← hpack, FFmt.magOf_packMag hs, significand_two_zpow]

theorem exponent_le {n : Nat} (hn : n ≤ 254) : 2 ^ 23 * n ≤ FFmt.fp32.maxPat := by
  show _ ≤ 0x7F7FFFFF
  omega

theorem two_zpow_bounds {p : Nat} {k : Int} (hp : p ≤ FFmt.fp32.maxPat) (h : FFmt.fp32.magOf p = 2 ^ k) : -149 ≤ k ∧ k ≤ 127 := by
  have hp0 : 1 ≤ p := by
    rw [Nat.one_le_iff_ne_zero]
    rintro rfl
    rw [FFmt.magOf_zero] at h
    exact absurd h.symm (by positivity)
  have hone : FFmt.fp32.magOf 1 = 2 ^ (-149 : Int) := by
    rw [FFmt.magOf, if_pos (by decide), Nat.cast_one, one_mul]
    rfl
  have hlo := FFmt.fp32.magOf_strictMono.monotone hp0
  have hhi := FFmt.fp32.magOf_strictMono.monotone hp
  rw [hone, h, zpow_le_zpow_iff_right₀ one_lt_two] at hlo
  rw [h, magOf_maxPat] at hhi
  have hlt : (2 : ℚ) ^ k < 2 ^ (128 : Int) := hhi.trans_lt (by norm_num)
  rw [zpow_lt_zpow_iff_right₀ one_lt_two] at hlt
  omega

/-- A finite operand that is not zero. -/
theorem finite_operand {a m : Nat} {e : Int} {neg : Bool} (ha : a < 2 ^ 32) (h : valOf .fp32 a = .fin neg (m + 1) e) :
    ∃ p, p ≤ FFmt.fp32.maxPat ∧ a = withSign .fp32 neg p ∧ a % 2 ^ 31 = p ∧ ((m + 1 : Nat) : ℚ) * 2 ^ e = FFmt.fp32.magOf p ∧
      (f32 a).num = if neg then -FFmt.fp32.magOf p else FFmt.fp32.magOf p := by
  obtain ⟨p, hp, rfl, hval⟩ := valOf_eq_fin (f := .fp32) ha h
  refine ⟨p, hp, rfl, (withSign_parts (f := .fp32) (hp.trans_lt FFmt.fp32.maxPat_lt_signBit)).2.2, hval, ?_⟩
  rw [(f32_num neg hp).2.1, signedMag]
  cases neg <;> simp

/-- EXP2 without NX: an integer, and its power of two. -/
theorem exp2Def_noNX {a m : Nat} {e : Int} {neg : Bool} (hx : f32 a = .fin neg m e) (sat : Bool)
    (hnx : (exp2Def a sat).flags.getLsbD 4 = false) : ∃ n : Int, (f32 a).num = n ∧ FFmt.fp32.magOf (exp2Def a sat).pat = 2 ^ n := by
  obtain ⟨n, hn⟩ : ∃ n : Int, (f32 a).num = n := by
    by_contra hno
    exact Bool.false_ne_true (hnx.symm.trans (exp2Def_fraction hx sat fun n hn => hno ⟨n, hn⟩))
  refine ⟨n, hn, ?_⟩
  rw [exp2Def_integer hx sat hn] at hnx ⊢
  obtain ⟨p, hp, hval, hr⟩ := roundMag_noNX (by positivity) hnx
  rw [significand_two_zpow] at hval
  have hbounds := two_zpow_bounds hp hval
  rw [hr]
  show FFmt.fp32.magOf p = 2 ^ n
  rw [hval]
  congr 1
  omega

theorem log2Def_NX {a m : Nat} {e : Int} (hx : f32 a = .fin false (m + 1) e) {p : Nat} (hp : p ≤ FFmt.fp32.maxPat)
    (hval : ((m + 1 : Nat) : ℚ) * 2 ^ e = FFmt.fp32.magOf p) (sat : Bool) :
    (log2Def a sat).flags.getLsbD 4 = true ↔ ¬∃ k, FFmt.fp32.magOf p = 2 ^ (k : Int) := by
  constructor
  · rintro hnx ⟨k, hk⟩
    obtain ⟨hpow, hexp⟩ := isPow2_of_magnitude (hval.trans hk)
    have hbounds := two_zpow_bounds hp hk
    obtain ⟨q, hq, hqval⟩ := exists_pattern_nat (n := k.natAbs) (by omega)
    rw [log2Def_pow2 hx sat rfl hpow ((add_comm _ _).trans hexp) hq (hqval.trans (by rw [Nat.cast_natAbs, Int.cast_abs]))] at hnx
    exact Bool.false_ne_true ((Rounded.noNX _).symm.trans hnx)
  · intro hno
    refine log2Def_inexact hx sat rfl (Nat.succ_ne_zero m) (Bool.eq_false_iff.2 fun hpow => hno ⟨(Nat.log2 (m + 1) : Int) + e, ?_⟩)
    rw [← hval, magnitude_of_isPow2 hpow]

theorem rcpDef_NX {a m : Nat} {e : Int} {neg : Bool} (hx : f32 a = .fin neg (m + 1) e) {p : Nat}
    (hval : ((m + 1 : Nat) : ℚ) * 2 ^ e = FFmt.fp32.magOf p) (sat : Bool) (hof : (rcpDef a sat).flags.getLsbD 2 = false) :
    (rcpDef a sat).flags.getLsbD 4 = true ↔ FFmt.fp32.magOf ((rcpDef a sat).pat % 2 ^ 31) * FFmt.fp32.magOf p ≠ 1 := by
  cases hpow : isPow2 (m + 1)
  · rw [iff_true_left (rcpDef_inexact hx sat (Nat.succ_ne_zero m) hpow), ← hval]
    intro hone
    obtain ⟨n, q, hs, hq⟩ := exists_packMag .fp32 ((rcpDef a sat).pat % 2 ^ 31)
    rw [← hq, FFmt.magOf_packMag hs, ← zpow_zero 2] at hone
    exact Bool.false_ne_true (hpow.symm.trans (isPow2_of_mul hone))
  · have hp := hval.symm.trans (magnitude_of_isPow2 hpow e)
    rw [rcpDef_pow2 hx sat hpow (add_comm _ _)] at hof ⊢
    rw [roundMag_NX_iff (by positivity) hof, significand_two_zpow, hp, zpow_neg, ne_eq, ne_eq, mul_eq_one_iff_eq_inv₀ (by positivity)]
    rfl

/-- The square of a magnitude times another is one only where the other is an even power of two. -/
theorem even_of_sq_mul {r m : Nat} {e : Int} (h : FFmt.fp32.magOf r ^ 2 * (m * 2 ^ e) = 1) :
    isPow2 m = true ∧ (e + Nat.log2 m) % 2 = 0 := by
  obtain ⟨n, q, hs, rfl⟩ := exists_packMag .fp32 r
  rw [FFmt.magOf_packMag hs] at h
  have hm : isPow2 m = true := by
    refine isPow2_of_mul (n := n * n) (e := e) (q := q + q) (k := 0) (Eq.trans ?_ h)
    rw [Nat.cast_mul, zpow_add₀ two_ne_zero]
    ring
  have hsq : (n : ℚ) * 2 ^ q * (n * 2 ^ q) = 2 ^ (-((Nat.log2 m : Int) + e)) := by
    rw [magnitude_of_isPow2 hm] at h
    rw [zpow_neg, ← mul_eq_one_iff_eq_inv₀ (by positivity), ← h]
    ring
  have hn := magnitude_of_isPow2 (isPow2_of_mul hsq) q
  rw [hn, ← zpow_add₀ two_ne_zero, zpow_right_inj₀ two_pos (by norm_num)] at hsq
  exact ⟨hm, by omega⟩

theorem rsqrtDef_NX {a m : Nat} {e : Int} (hx : f32 a = .fin false (m + 1) e) {p : Nat} (hp : p ≤ FFmt.fp32.maxPat)
    (hval : ((m + 1 : Nat) : ℚ) * 2 ^ e = FFmt.fp32.magOf p) (sat : Bool) :
    (rsqrtDef a sat).flags.getLsbD 4 = true ↔ FFmt.fp32.magOf (rsqrtDef a sat).pat ^ 2 * FFmt.fp32.magOf p ≠ 1 := by
  by_cases hsq : (e + Nat.log2 (m + 1)) % 2 = 0 ∧ isPow2 (m + 1) = true
  · obtain ⟨heven, hpow⟩ := hsq
    obtain ⟨k, hk⟩ := Int.dvd_of_emod_eq_zero heven
    have hpval := hval.symm.trans (magnitude_of_isPow2 hpow e)
    rw [add_comm, hk] at hpval
    have hbounds := two_zpow_bounds hp hpval
    obtain ⟨q, -, hqval, hr⟩ := roundMag_two_zpow (k := -k) (by omega) (by omega) false .rne sat 0
    rw [rsqrtDef_pow4 hx sat rfl hpow hk, hr]
    have hone : FFmt.fp32.magOf q ^ 2 * FFmt.fp32.magOf p = 1 := by
      rw [hqval, hpval, ← zpow_natCast, ← zpow_mul, ← zpow_add₀ two_ne_zero]
      convert zpow_zero (2 : ℚ) using 2
      push_cast
      ring
    exact ⟨fun hnx => absurd ((Rounded.noNX _).symm.trans hnx) Bool.false_ne_true, fun hne => absurd hone hne⟩
  · rw [iff_true_left (rsqrtDef_inexact hx sat rfl (Nat.succ_ne_zero m) ((not_and_or.1 hsq).imp_right Bool.eq_false_iff.2)), ← hval]
    exact fun hone => hsq (even_of_sq_mul hone).symm

/-- EXP2 of an integer whose power FP32 has. -/
theorem exp2Def_exact {a : Nat} {neg : Bool} {m : Nat} {e : Int} (hx : f32 a = .fin neg m e) {k : Int} (hk : (f32 a).num = k)
    (hlo : -149 ≤ k) (hhi : k ≤ 127) (sat : Bool) : ∃ p, exp2Def a sat = ⟨p, 0⟩ ∧ FFmt.fp32.magOf p = 2 ^ k := by
  obtain ⟨p, -, hval, hr⟩ := roundMag_two_zpow hlo hhi false .rne sat 0
  refine ⟨p, ?_, hval⟩
  rw [exp2Def_integer hx sat hk, show max (-400) (min 400 k) = k by omega, hr]
  rfl

theorem exp2Def_zero {a : Nat} {neg : Bool} {e : Int} (hx : f32 a = .fin neg 0 e) (sat : Bool) : exp2Def a sat = ⟨0x3F800000, 0⟩ := by
  have hnum : (f32 a).num = (0 : Int) := by simp [hx, Val.num]
  rw [exp2Def_integer hx sat hnum]
  exact roundMag_exact (p := 0x3F800000) (by decide) (magOf_one.trans (significand_two_zpow 0).symm)

theorem exp2Def_int {k : Int} (hlo : -149 ≤ k) (hhi : k ≤ 127) (sat : Bool) :
    ∃ p, exp2Def (roundTo .fp32 (valOfInt k) .rne false 0).pat sat = ⟨p, 0⟩ ∧ FFmt.fp32.magOf p = 2 ^ k := by
  obtain ⟨q, hq, hqval⟩ := exists_pattern_nat (n := k.natAbs) (by omega)
  have hpat : roundTo .fp32 (valOfInt k) .rne false 0 = ⟨withSign .fp32 (decide (k < 0)) q, 0⟩ :=
    roundMag_exact hq (hqval.trans (by rw [zpow_zero, mul_one]))
  obtain ⟨hfin, hnum, -⟩ := f32_num (decide (k < 0)) hq
  obtain ⟨neg, m, e, hx⟩ := (Val.finite_iff _).1 hfin
  rw [signedMag_int (hqval.trans (by rw [Nat.cast_natAbs, Int.cast_abs]))] at hnum
  rw [hpat]
  exact exp2Def_exact hx hnum hlo hhi sat

section
variable {n : Nat} (hn : 1 ≤ n) (hn' : n ≤ 254) (sat : Bool)
include hn hn'

/-- The operand with an exponent and no fraction. -/
theorem exponent_operand (neg : Bool) : ∃ m e, f32 (withSign .fp32 neg (2 ^ 23 * n)) = .fin neg m e ∧ isPow2 m = true ∧
    e + Nat.log2 m = (n : Int) - 127 := by
  obtain ⟨m, e, hx, hval⟩ := valOf_finite (f := .fp32) neg (exponent_le hn')
  obtain ⟨hpow, hexp⟩ := isPow2_of_magnitude (hval.trans (magOf_exponent hn))
  exact ⟨m, e, hx, hpow, (add_comm _ _).trans hexp⟩

theorem log2Def_exponent : ∃ p, log2Def (2 ^ 23 * n) sat = ⟨withSign .fp32 (decide (n < 127)) p, 0⟩ ∧
    FFmt.fp32.magOf p = |(n : ℚ) - 127| := by
  obtain ⟨m, e, hx, hpow, hexp⟩ := exponent_operand hn hn' false
  obtain ⟨p, hp, hval⟩ := exists_pattern_nat (n := ((n : Int) - 127).natAbs) (by omega)
  have hmag : FFmt.fp32.magOf p = |(((n : Int) - 127 : Int) : ℚ)| := by rw [hval, Nat.cast_natAbs, Int.cast_abs]
  refine ⟨p, ?_, by rw [hmag]; push_cast; rfl⟩
  have hsign : decide ((n : Int) - 127 < 0) = decide (n < 127) := decide_eq_decide.2 (by omega)
  rw [← hsign]
  exact log2Def_pow2 hx sat rfl hpow hexp hp hmag

theorem rcpDef_exponent (neg : Bool) : ∃ p, rcpDef (withSign .fp32 neg (2 ^ 23 * n)) sat = ⟨withSign .fp32 neg p, 0⟩ ∧
    FFmt.fp32.magOf p * FFmt.fp32.magOf (2 ^ 23 * n) = 1 := by
  obtain ⟨m, e, hx, hpow, hexp⟩ := exponent_operand hn hn' neg
  obtain ⟨p, -, hval, hr⟩ := roundMag_two_zpow (k := -((n : Int) - 127)) (by omega) (by omega) neg .rne sat 0
  refine ⟨p, (rcpDef_pow2 hx sat hpow hexp).trans hr, ?_⟩
  rw [hval, magOf_exponent hn, zpow_neg, inv_mul_cancel₀ (by positivity)]

theorem rsqrtDef_exponent (hodd : n % 2 = 1) : ∃ p, rsqrtDef (2 ^ 23 * n) sat = ⟨p, 0⟩ ∧
    FFmt.fp32.magOf p ^ 2 * FFmt.fp32.magOf (2 ^ 23 * n) = 1 := by
  obtain ⟨m, e, hx, hpow, hexp⟩ := exponent_operand hn hn' false
  obtain ⟨k, hk⟩ : ∃ k : Int, (n : Int) - 127 = 2 * k := ⟨((n : Int) - 127) / 2, by omega⟩
  obtain ⟨p, -, hval, hr⟩ := roundMag_two_zpow (k := -k) (by omega) (by omega) false .rne sat 0
  refine ⟨p, (rsqrtDef_pow4 hx sat rfl hpow (hexp.trans hk)).trans hr, ?_⟩
  rw [hval, magOf_exponent hn, hk, mul_comm 2 k, zpow_mul, zpow_neg, zpow_ofNat, inv_pow, inv_mul_cancel₀ (by positivity)]

end

theorem transcendentalValues : Clause.TranscendentalValues := by
  intro a sat ha v x nan signed nx
  refine ⟨fun hn => ?_, fun hi => ?_, fun hz => ?_, fun m e hx => ?_, fun k hlo hhi => exp2Def_int hlo hhi sat,
    fun n hn hn' => ⟨log2Def_exponent hn hn' sat, rcpDef_exponent hn hn' sat, rsqrtDef_exponent hn hn' sat⟩, ?_, fun neg m e hx => ?_⟩
  · obtain ⟨s, hs⟩ := (Val.isNan_iff x).1 hn
    have hx : f32 a = .nan s := hs
    simp only [List.forall_mem_cons, List.not_mem_nil, false_imp_iff, implies_true, and_true]
    refine ⟨?_, ?_, ?_, ?_⟩
    · rw [exp2Def, hx, hs]; rfl
    · rw [log2Def, hx, hs]; rfl
    · rw [rcpDef, hx, hs]; rfl
    · rw [rsqrtDef, hx, hs]; rfl
  · have hx : f32 a = .inf x.neg := (Val.isInf_iff x).1 hi
    refine ⟨?_, ?_, ?_, ?_⟩
    · rw [exp2Def, hx]
    · rw [rcpDef, hx]; rfl
    · rw [log2Def, hx]
    · rw [rsqrtDef, hx]
  · obtain ⟨e, he⟩ := (Val.isZero_iff x).1 hz
    have hx : f32 a = .fin x.neg 0 e := he
    refine ⟨exp2Def_zero hx sat, ?_, ?_, ?_⟩
    · rw [log2Def, hx]; rfl
    · rw [rcpDef, hx]; rfl
    · rw [rsqrtDef, hx]; rfl
  · have hx' : f32 a = .fin true (m + 1) e := hx
    refine ⟨?_, ?_⟩
    · rw [log2Def, hx']; rfl
    · rw [rsqrtDef, hx']; rfl
  · cases sat <;> decide +kernel
  · obtain ⟨p, hp, hpat, hmod, hval, hnum⟩ := finite_operand ha hx
    refine ⟨fun hnx => ?_, fun hneg => ?_, fun hof => ?_⟩
    · obtain ⟨k, hk, hpow⟩ := exp2Def_noNX hx sat (Bool.eq_false_iff.2 hnx)
      refine ⟨k, ?_, hpow⟩
      rw [← hk, hnum, hmod]
      cases neg
      · rw [if_neg Bool.false_ne_true, if_neg Bool.false_ne_true, hpat]
        rfl
      · rfl
    · subst hneg
      obtain rfl : p = a := hpat.symm
      exact ⟨log2Def_NX hx hp hval sat, rsqrtDef_NX hx hp hval sat⟩
    · rw [hmod]
      exact rcpDef_NX hx hval sat hof

/-- Settles O36: the words by what they compute and where they put it; the tables by comparing whole numbers; the four functions by
their exact values at powers of two. -/
theorem chiselWords : Obligations.ChiselWords := ⟨chiselFloatWords, transcendentalTables, transcendentalValues, chiselOtherWords⟩

end Sys2Proof.Machine
end

section
namespace Sys2Proof.Machine

/-! Chunk sums (R58, R63). -/

/-- A running sum that has met finite products only. -/
def Chunk.clean (c : Chunk) : Prop := c.posInf = false ∧ c.negInf = false ∧ c.nan = false ∧ c.flags = 0

/-- The number that a running sum stands for. -/
def Chunk.num (c : Chunk) : ℚ := c.k * 2 ^ c.e

theorem Chunk.addVal_num {c : Chunk} {v : Val} (hc : c.clean) (hv : v.finite) : (c.addVal v).clean ∧ (c.addVal v).num = c.num + v.num := by
  obtain ⟨neg, m, e, rfl⟩ := v.finite_iff.1 hv
  unfold Chunk.addVal
  dsimp only
  split
  next hm => exact ⟨hc, by simp [Val.num, hm]⟩
  next hm =>
    split
    next hk => exact ⟨hc, by simp [Chunk.num, hk, signedAt_mul]⟩
    next hk =>
      refine ⟨hc, ?_⟩
      have hscale : (2 : ℚ) ^ c.e = 2 ^ (c.e - min c.e e).toNat * 2 ^ min c.e e := by
        rw [← zpow_natCast, ← zpow_add₀ two_ne_zero]
        congr 1
        omega
      rw [Chunk.num, Chunk.num, ← signedAt_mul (min_le_right c.e e), hscale]
      push_cast
      ring

theorem Chunk.addProd_num {c : Chunk} {x y : Val} (hc : c.clean) (hx : x.finite) (hy : y.finite) :
    (c.addProd x y).clean ∧ (c.addProd x y).num = c.num + x.num * y.num := by
  obtain ⟨v, hv, hfin, hnum, -⟩ := exactMul_num hx hy
  obtain ⟨neg, m, e, rfl⟩ := v.finite_iff.1 hfin
  have hquiet : snanFlag [x, y] = 0 := by
    obtain ⟨-, -, -, rfl⟩ := x.finite_iff.1 hx
    obtain ⟨-, -, -, rfl⟩ := y.finite_iff.1 hy
    rfl
  have hsame : c.addProd x y = c.addVal (.fin neg m e) := by
    rw [Chunk.addProd, hv, hquiet]
    obtain ⟨k, g, pi, ni, nan, fl⟩ := c
    obtain rfl : fl = 0 := hc.2.2.2
    dsimp only
    rw [zero_or_flags, zero_or_flags]
  rw [hsame, ← hnum]
  exact Chunk.addVal_num hc hfin

/-- A running sum of finite products is exact. -/
theorem Chunk.foldl_num : ∀ (ps : List (Val × Val)) (c : Chunk), c.clean → (∀ p ∈ ps, p.1.finite ∧ p.2.finite) →
    (ps.foldl (fun c p => c.addProd p.1 p.2) c).clean ∧
      (ps.foldl (fun c p => c.addProd p.1 p.2) c).num = c.num + (ps.map fun p => p.1.num * p.2.num).sum
  | [], c, hc, _ => ⟨hc, by simp⟩
  | p :: ps, c, hc, hps => by
    obtain ⟨hp, hrest⟩ := List.forall_mem_cons.1 hps
    obtain ⟨hclean, hnum⟩ := Chunk.addProd_num hc hp.1 hp.2
    obtain ⟨h1, h2⟩ := Chunk.foldl_num ps _ hclean hrest
    refine ⟨h1, ?_⟩
    rw [List.foldl_cons, h2, hnum, List.map_cons, List.sum_cons, add_assoc]

theorem chunkSum_num {ps : List (Val × Val)} (hps : ∀ p ∈ ps, p.1.finite ∧ p.2.finite) :
    ∃ v, chunkSum ps = ⟨v, false, 0⟩ ∧ v.finite ∧ v.num = (ps.map fun p => p.1.num * p.2.num).sum ∧ (v.num = 0 → v = .fin false 0 0) := by
  obtain ⟨⟨hpos, hneg, hnan, hfl⟩, hnum⟩ := Chunk.foldl_num ps Chunk.zero ⟨rfl, rfl, rfl, rfl⟩ hps
  rw [chunkSum]
  generalize ps.foldl (fun c p => c.addProd p.1 p.2) Chunk.zero = c at hpos hneg hnan hfl hnum
  obtain ⟨hfin, hval⟩ := ofSigned_num c.k c.e false
  refine ⟨ofSigned c.k c.e false, ?_, hfin, ?_, fun h0 => ?_⟩
  · simp [Chunk.result, hpos, hneg, hnan, hfl]
  · rw [hval]
    refine hnum.trans ?_
    simp [Chunk.num, Chunk.zero]
  · rw [hval, mul_eq_zero, or_iff_left (by positivity), Int.cast_eq_zero] at h0
    rw [ofSigned, if_pos h0]

/-! I8 chunks (R50, R63). -/

theorem toSigned_ofSignedInt {k : Int} (hlo : -2 ^ 31 ≤ k) (hhi : k ≤ 2 ^ 31 - 1) : toSigned 32 (ofSignedInt 32 k) = k := by
  unfold toSigned ofSignedInt
  push_cast
  split <;> omega

theorem promoteInt_clamps (acc : Rounded) (k : Int) :
    toSigned 32 (promoteInt acc k).pat = max (-2 ^ 31) (min (2 ^ 31 - 1) (toSigned 32 acc.pat + k)) ∧
      (promoteInt acc k).flags = acc.flags |||
        (if -2 ^ 31 ≤ toSigned 32 acc.pat + k ∧ toSigned 32 acc.pat + k ≤ 2 ^ 31 - 1 then 0 else flagSAT) := by
  have hclamp : clampInt 32 (toSigned 32 acc.pat + k) = (max (-2 ^ 31) (min (2 ^ 31 - 1) (toSigned 32 acc.pat + k)),
      if -2 ^ 31 ≤ toSigned 32 acc.pat + k ∧ toSigned 32 acc.pat + k ≤ 2 ^ 31 - 1 then 0 else flagSAT) := by
    generalize toSigned 32 acc.pat + k = v
    change (if v > 2 ^ 31 - 1 then ((2 ^ 31 - 1 : Int), flagSAT) else if v < -2 ^ 31 then (-2 ^ 31, flagSAT) else (v, 0)) = _
    by_cases hhi : v > 2 ^ 31 - 1
    · rw [if_pos hhi, if_neg (by omega)]
      congr 1
      omega
    · rw [if_neg hhi]
      by_cases hlo : v < -2 ^ 31
      · rw [if_pos hlo, if_neg (by omega)]
        congr 1
        omega
      · rw [if_neg hlo, if_pos (by omega)]
        congr 1
        omega
  rw [promoteInt, hclamp]
  exact ⟨toSigned_ofSignedInt (by omega) (by omega), rfl⟩

/-! Rows of an MMA form (R206). -/

theorem exec_mma (x : CmdRec) (b : Beat) (s : State) : exec (.mma x b) s = .next (s.onBeat b s.startMma State.mmaRead State.mmaEarly) := rfl
theorem exec_mmaSp (x : CmdRec) (b : Beat) (s : State) : exec (.mmaSp x b) s = .next (s.onBeat b s.startMma State.mmaRead State.mmaEarly) := rfl
theorem exec_mmaMx (x : CmdRec) (b : Beat) (s : State) : exec (.mmaMx x b) s = .next (s.onBeat b s.startMma State.mmaRead State.mmaEarly) := rfl

/-- A row of at most 64 elements of an accumulator that no longer is EMPTY. -/
theorem Acc.putRow_part {a : Acc} {tag i : Nat} {ws : List Word32} (ht : BitVec.ofNat 6 tag ≠ 0) (hw : ws.length ≤ 64)
    (ha : a.el.Pairwise fun a b => a.1 < b.1) (j k : Nat) (hk : k < 64) :
    (a.putRow tag i 0 (ws.map some)).at j k = if j = i ∧ k < ws.length then ws.getD k 0 else a.at j k := by
  have hel : (if a.tag = 0 then [] else a.el : SMap Word32).Rising := by
    split
    · exact trivial
    · exact SMap.rising_of_pairwise ha
  have hold : SMap.get 0 (j * 64 + k) (if a.tag = 0 then [] else a.el) = a.at j k := by
    unfold Acc.at
    split <;> rfl
  have hget := putRow_elements ws (i * 64) _ 0 hel (j * 64 + k)
  rw [hold, Nat.add_zero] at hget
  rw [Acc.at, if_neg (show (a.putRow tag i 0 (ws.map some)).tag ≠ 0 from ht)]
  refine hget.trans ?_
  by_cases hin : j = i ∧ k < ws.length
  · obtain ⟨rfl, hlt⟩ := hin
    rw [if_pos (by omega), if_pos ⟨rfl, hlt⟩, Nat.add_sub_cancel_left]
  · rw [if_neg (by omega), if_neg hin]

/-- The state after a row: its accumulator, its flags, and what the engines and the lines keep of the command. -/
def State.afterRow (s : State) (r : Run) (eng : Engine) (lines : List Line) (n : Flags) : State :=
  { s with
    core := { s.core with
      acc := Vector.ofFn fun i => if i.val = r.mma.ad then
        (s.core.acc.get i).putRow r.mma.tag r.nw 0 ((r.res.take r.mma.n).map fun v => some v.1) else s.core.acc.get i
      arch := { s.core.arch with csr := { s.core.arch.csr with
        numf := s.core.arch.csr.numf ||| (r.res.take r.mma.n).foldl (fun f v => f ||| v.2) 0 } }
      numfNow := n
      eng := eng }
    lines := lines }

/-- What the engines kept before a row is no matter. -/
theorem State.afterRow_onEng (s : State) (f : Engine → Engine) (r : Run) (eng : Engine) (lines : List Line) (n : Flags) :
    (s.onEng f).afterRow r eng lines n = s.afterRow r eng lines n := rfl

theorem State.mmaRow_eq {s : State} {r : Run} (hf : s.firmware = false) (hd : r.claims .d = false) :
    ∃ eng lines n, s.mmaRow r = s.afterRow r eng lines n ∧ eng.stall = s.core.eng.stall := by
  obtain ⟨n, hraise⟩ := State.raise_eq (s.onAcc r.mma.ad fun a => a.putRow r.mma.tag r.nw 0 ((r.res.take r.mma.n).map fun v => some v.1))
    ((r.res.take r.mma.n).foldl (fun f v => f ||| v.2) 0)
  have hfw : (s.onAcc r.mma.ad fun a => a.putRow r.mma.tag r.nw 0 ((r.res.take r.mma.n).map fun v => some v.1)).firmware = false := hf
  rw [hfw, if_neg Bool.false_ne_true] at hraise
  unfold State.mmaRow
  dsimp only
  rw [hd, if_neg Bool.false_ne_true, hraise]
  split
  next =>
    obtain ⟨l, hl⟩ := State.finish_eq (s.afterRow r s.core.eng s.lines n) { r with
      nw := r.nw + 1, res := r.res.drop r.mma.n, outs := r.outs.filter fun o => decide ((r.nw + 1) * r.mma.n ≤ o.idx) }
    exact ⟨_, l, n, hl, rfl⟩
  next => exact ⟨_, s.lines, n, rfl, rfl⟩

/-- A beat that need not wait is what it does, but for what the engines keep of peers. -/
theorem State.attempt_eq {s t : State} {r : Run} {f : State → State} (ht : f s.unstalled = t) (hs : t.core.eng.stall = none) :
    ∃ eng, s.attempt r f = { t with core := { t.core with eng := eng } } := by
  rw [State.attempt, show f (s.onEng fun e => { e with stall := none }) = t from ht, hs]
  dsimp only
  split
  · split
    · exact ⟨_, rfl⟩
    · exact ⟨_, rfl⟩
  · exact ⟨_, rfl⟩

theorem mmaEarly_row {s : State} {id : Nat} {r : Run} (hr : s.core.eng.runs.find? (fun y => y.id == id) = some r) (hf : s.firmware = false)
    (hdue : r.mmaRowDue s.dcc = true) (hd : r.claims .d = false) :
    ∃ eng lines n, s.onBeat (.write id) s.startMma State.mmaRead State.mmaEarly = s.afterRow r eng lines n := by
  have hrow : ∃ eng lines n, s.unstalled.mmaEarly r = s.afterRow r eng lines n ∧ eng.stall = none := by
    unfold State.mmaEarly
    dsimp only
    split
    next =>
      rw [if_pos (show r.mmaRowDue s.unstalled.dropForest.dcc = true from hdue)]
      obtain ⟨eng, lines, n, heq, hstall⟩ := State.mmaRow_eq (s := s.unstalled.dropForest) hf hd
      exact ⟨eng, lines, n, heq.trans (s.unstalled.afterRow_onEng _ r eng lines n), hstall⟩
    next =>
      rw [if_pos (show r.mmaRowDue s.unstalled.dcc = true from hdue)]
      exact State.mmaRow_eq (s := s.unstalled) hf hd
  obtain ⟨eng, lines, n, heq, hstall⟩ := hrow
  obtain ⟨eng', h⟩ := State.attempt_eq (s := s) (r := r) (f := fun t => t.mmaEarly r) heq hstall
  have hrun : s.runOf id = some r := hr
  rw [State.onBeat, hrun]
  exact ⟨eng', lines, n, h⟩

theorem Mma.tag_ne_zero (m : Mma) : BitVec.ofNat 6 m.tag ≠ 0 := by
  unfold Mma.tag
  split <;> decide

theorem Mma.tag_eq (m : Mma) : BitVec.ofNat 6 m.tag = if m.af = 8 then 9 else 1 := by
  by_cases h : m.af = 8
  · have hint : m.int = true := beq_iff_eq.2 h
    rw [Mma.tag, hint, if_pos rfl, if_pos h]
    rfl
  · have hint : m.int = false := beq_eq_false_iff_ne.2 h
    rw [Mma.tag, hint, if_neg Bool.false_ne_true, if_neg h]
    rfl

theorem wfield_lt (w : Word) {hi lo k : Nat} (h : hi - lo + 1 = k) : wfield w hi lo < 2 ^ k := by
  rw [wfield_eq_extractLsb' w h]
  exact BitVec.isLt _

theorem State.afterRow_acc (s : State) (r : Run) (eng : Engine) (lines : List Line) (n : Flags) :
    (s.afterRow r eng lines n).accOf r.mma.ad = (s.accOf r.mma.ad).putRow r.mma.tag r.nw 0 (((r.res.take r.mma.n).map (·.1)).map some) := by
  have hlt : r.mma.ad < 4 := wfield_lt r.e.r.w1 (hi := 13) (lo := 12) (k := 2) rfl
  rw [State.accOf_lt _ hlt, State.accOf_lt _ hlt, List.map_map]
  exact (Vector.get_ofFn _ _).trans (if_pos rfl)

theorem getD_take_fst {l : List (Word32 × BitVec 8)} {n k : Nat} (hk : k < n) (hn : n ≤ l.length) :
    ((l.take n).map (·.1)).getD k 0 = (l.getD k (0, 0)).1 := by
  have hlt : k < l.length := by omega
  simp [List.getD_eq_getElem?_getD, hk, List.getElem?_eq_getElem hlt]

/-- A row of an MMA form without port D. -/
theorem mma_row {s : State} {id : Nat} {r : Run} (hr : s.core.eng.runs.find? (fun y => y.id == id) = some r) (hf : s.firmware = false)
    (hdue : r.mmaRowDue s.dcc = true) (hd : r.claims .d = false) (hn : r.mma.n ≤ r.res.length)
    (ha : (s.accOf r.mma.ad).el.Pairwise fun a b => a.1 < b.1) :
    ∃ t, s.onBeat (.write id) s.startMma State.mmaRead State.mmaEarly = t ∧ SameBytes s t ∧ t.core.ls = s.core.ls ∧
      (∀ j k, k < 64 → (t.accOf r.mma.ad).at j k =
        if j = r.nw ∧ k < r.mma.n then (r.res.getD k (0, 0)).1 else (s.accOf r.mma.ad).at j k) ∧
      (t.accOf r.mma.ad).tag = (if r.mma.af = 8 then 9 else 1) ∧
      (∀ i : Fin 4, i.val ≠ r.mma.ad → t.core.acc.get i = s.core.acc.get i) ∧
      t.core.arch.csr.numf = s.core.arch.csr.numf ||| ((r.res.take r.mma.n).foldl (fun f v => f ||| v.2) 0) ∧
      t.core.arch.s = s.core.arch.s := by
  obtain ⟨eng, lines, n, h⟩ := mmaEarly_row hr hf hdue hd
  have hlen : ((r.res.take r.mma.n).map (·.1)).length = r.mma.n := by
    rw [List.length_map, List.length_take, Nat.min_eq_left hn]
  have hcols : r.mma.n ≤ 64 := wfield_lt r.e.r.w1 (hi := 25) (lo := 20) (k := 6) rfl
  refine ⟨_, h, SameBytes.of_eq rfl rfl rfl, rfl, fun j k hk => ?_, ?_, fun i hi => (Vector.get_ofFn _ _).trans (if_neg hi), rfl, rfl⟩
  · rw [State.afterRow_acc, Acc.putRow_part r.mma.tag_ne_zero (hlen.trans_le hcols) ha j k hk, hlen]
    by_cases hin : j = r.nw ∧ k < r.mma.n
    · rw [if_pos hin, if_pos hin, getD_take_fst hin.2 hn]
    · rw [if_neg hin, if_neg hin]
  · rw [State.afterRow_acc]
    exact r.mma.tag_eq

/-! ACCST (R212, R213). -/

theorem exec_accst (x : CmdRec) (b : Beat) (s : State) : exec (.accst x b) s = execAccst x b s := rfl

theorem State.setRun_setRun (s : State) {r r' : Run} (h : r'.id = r.id) : (s.setRun r).setRun r' = s.setRun r' := by
  have hmap : ((s.core.eng.runs.map fun x => if x.id = r.id then r else x).map fun x => if x.id = r'.id then r' else x) =
      s.core.eng.runs.map fun x => if x.id = r'.id then r' else x := by
    rw [List.map_map]
    refine List.map_congr_left fun x _ => ?_
    by_cases hx : x.id = r.id
    · simp [hx, h]
    · simp [hx, h]
  unfold State.setRun
  exact congrArg (fun l => { s with core := { s.core with eng := { s.core.eng with runs := l } } }) hmap

theorem State.runOf_setRun {s : State} {r r' : Run} (hr : s.runOf r.id = some r) (h : r'.id = r.id) : (s.setRun r').runOf r.id = some r' := by
  rw [← h] at hr ⊢
  exact (find?_map_update Run.id r'.id (fun _ => r') (fun _ _ => rfl) s.core.eng.runs).trans (congrArg (Option.map fun _ => r') hr)

/-- A beat that need not wait and goes on with its command. -/
theorem State.attempt_setRun {s : State} {r r' : Run} {f : State → State} (hr : s.runOf r.id = some r) (h : r'.id = r.id)
    (ht : f s.unstalled = s.unstalled.setRun r') : s.attempt r f = s.unstalled.setRun { r' with peers := [] } := by
  have hrun : (s.unstalled.setRun r').runOf r.id = some r' := State.runOf_setRun (s := s.unstalled) hr h
  rw [State.attempt, show f (s.onEng fun e => { e with stall := none }) = _ from ht, show (s.unstalled.setRun r').core.eng.stall = none from rfl]
  dsimp only
  rw [hrun]
  dsimp only
  split
  next hp =>
    have hnil : r'.peers = [] := List.isEmpty_iff.1 hp
    rw [← hnil]
  next => exact State.setRun_setRun s.unstalled rfl

theorem runOf_self {s : State} {id : Nat} {r : Run} (hr : s.runOf id = some r) : s.runOf r.id = some r := by
  have hid : (r.id == id) = true := List.find?_some (p := fun x : Run => x.id == id) hr
  rwa [beq_iff_eq.1 hid]

theorem accst_read {s : State} {x : CmdRec} {id : Nat} {r : Run} (hr : s.core.eng.runs.find? (fun y => y.id == id) = some r) :
    let a := accstOf r.e.r
    let out := fun j => convertTo a.df ((s.accOf a.src).tag == 9) ((s.accOf a.src).at (a.r0 + r.nr) (a.c0 + j)).toNat a.rm a.sat
      (r.e.hash (r.e.addr a.d (r.nr * a.d.pitch + j * elemBytes a.df)))
    exec (.accst x (.read id)) s = .next ((s.onEng fun e => { e with stall := none }).setRun { r with
      nr := r.nr + 1, peers := [], res := r.res ++ (List.range a.n).map fun j => (BitVec.ofNat 32 (out j).pat, (out j).flags) }) := by
  intro a out
  have hrun : s.runOf id = some r := hr
  rw [exec_accst, execAccst, State.onBeat, hrun]
  dsimp only
  rw [State.attempt_setRun (f := fun t => t.accstRead r) (r' := { r with
    nr := r.nr + 1, res := r.res ++ (List.range a.n).map fun j => (BitVec.ofNat 32 (out j).pat, (out j).flags) }) (runOf_self hrun) rfl rfl]
  rfl

end Sys2Proof.Machine
end

section
namespace Sys2Proof.Machine

/-! Tables of rising keys by `find` (SUPPORT for what beats write). -/

theorem SMap.find_eq_get_lift {α : Type} (k : Nat) (m : SMap α) : m.find k = m.lift.get none k := by
  induction m with
  | nil => rfl
  | cons e m ih =>
    simp only [SMap.find, SMap.get, SMap.lift, List.map_cons]
    split
    · rfl
    · split
      · rfl
      · exact ih

theorem SMap.find_put {α : Type} {m : SMap α} (h : m.Rising) (k i : Nat) (v : α) :
    (m.put k v).find i = if i = k then some v else m.find i := by
  rw [SMap.find_eq_get_lift, SMap.lift_put, SMap.get_put i h, SMap.find_eq_get_lift]

theorem SMap.rising_put {α : Type} {m : SMap α} (h : m.Rising) (k : Nat) (v : α) : (m.put k v).Rising := by
  unfold SMap.Rising
  rw [SMap.lift_put]
  exact SMap.okFrom_put (Option.some_ne_none v) (Nat.zero_le k) h

theorem SMap.find_below {α : Type} {b i : Nat} {m : SMap α} (h : SMap.okFrom none b m.lift) (hi : i < b) : m.find i = none := by
  rw [SMap.find_eq_get_lift, SMap.get_okFrom h hi]

/-- The first key of a rising table stands in it once. -/
theorem SMap.find_cons {α : Type} {k : Nat} {v : α} {m : SMap α} (h : SMap.okFrom none (k + 1) m.lift) (i : Nat) :
    SMap.find i ((k, v) :: m) = if i = k then some v else m.find i := by
  rw [SMap.find]
  rcases Nat.lt_trichotomy i k with hi | rfl | hi
  · rw [if_neg (by omega), if_pos hi, if_neg (by omega), SMap.find_below h (by omega)]
  · rw [if_pos rfl, if_pos rfl]
  · rw [if_neg (by omega), if_neg (by omega), if_neg (by omega)]

/-- A rising table put into another one. -/
theorem SMap.find_foldl_put {α β : Type} (f : α → β) (i : Nat) : ∀ (m : SMap α) (b : Nat), SMap.okFrom none b m.lift →
    ∀ t : SMap β, t.Rising → SMap.find i (m.foldl (fun t e => t.put e.1 (f e.2)) t) = ((m.find i).map f).or (t.find i)
  | [], _, _, _, _ => rfl
  | (k, v) :: m, _, ⟨_, _, hm⟩, t, ht => by
    rw [List.foldl_cons, SMap.find_foldl_put f i m (k + 1) hm _ (SMap.rising_put ht k (f v)), SMap.find_put ht, SMap.find_cons hm]
    by_cases hi : i = k
    · rw [if_pos hi, if_pos hi, SMap.find_below hm (Nat.lt_succ_of_le hi.le)]
      rfl
    · rw [if_neg hi, if_neg hi]

/-- A rising table of bytes written to memory. -/
theorem Mem.read_foldl_write (i : Nat) : ∀ (m : SMap Byte) (b : Nat), SMap.okFrom none b m.lift →
    ∀ t : Mem, Mem.wf t = true → Mem.read (m.foldl (fun t e => t.write e.1 e.2) t) i = (m.find i).getD (t.read i)
  | [], _, _, _, _ => rfl
  | (k, v) :: m, _, ⟨_, _, hm⟩, t, ht => by
    rw [List.foldl_cons, Mem.read_foldl_write i m (k + 1) hm _ (Mem.wf_write ht k v), Mem.read_write ht, SMap.find_cons hm]
    by_cases hi : i = k
    · rw [if_pos hi, if_pos hi, SMap.find_below hm (Nat.lt_succ_of_le hi.le)]
      rfl
    · rw [if_neg hi, if_neg hi]

theorem putBytes_rising {α : Type} (f : Byte → α) : ∀ (bs : List Byte) (a : Nat) (m : SMap α), m.Rising → (putBytes f a bs m).Rising
  | [], _, _, h => h
  | b :: bs, a, _, h => putBytes_rising f bs (a + 1) _ (SMap.rising_put h a (f b))

theorem putAll_rising (l : List (Nat × List Byte)) : SMap.Rising (putAll l) :=
  List.foldlRecOn l (fun m e => putBytes id e.1 e.2 m) trivial fun _ hm e _ => putBytes_rising id e.2 e.1 _ hm

/-! Runs of consecutive bytes. -/

/-- The first byte of a table stands alone, or before the run of the next byte, in its line. -/
theorem runsOf_cons (a : Nat) (b : Byte) (m : SMap Byte) :
    runsOf ((a, b) :: m) = (a, [b]) :: runsOf m ∨
      ∃ bs rest, runsOf m = (a + 1, bs) :: rest ∧ lineOf a = lineOf (a + 1) ∧ runsOf ((a, b) :: m) = (a, b :: bs) :: rest := by
  rw [runsOf]
  cases hm : runsOf m with
  | nil => exact .inl rfl
  | cons x rest =>
    obtain ⟨c, bs⟩ := x
    by_cases hc : c = a + 1 ∧ lineOf a = lineOf c
    · obtain ⟨rfl, hl⟩ := hc
      exact .inr ⟨bs, rest, rfl, hl, if_pos ⟨rfl, hl⟩⟩
    · exact .inl (if_neg hc)

/-- What is written run by run is written byte by byte. -/
theorem runsOf_foldl {β : Type} (W : Nat → List Byte → β → β) (hcons : ∀ a b bs t, W a (b :: bs) t = W (a + 1) bs (W a [b] t)) :
    ∀ (m : SMap Byte) (t : β), (runsOf m).foldl (fun t x => W x.1 x.2 t) t = m.foldl (fun t e => W e.1 [e.2] t) t
  | [], _ => rfl
  | (a, b) :: m, t => by
    have ih := runsOf_foldl W hcons m (W a [b] t)
    rw [List.foldl_cons, ← ih]
    rcases runsOf_cons a b m with h | ⟨bs, rest, hm, -, h⟩
    · rw [h, List.foldl_cons]
    · rw [h, hm, List.foldl_cons, List.foldl_cons, hcons]

/-- A run is not empty, begins at a byte of the table, and lies in one line. -/
theorem run_bounds : ∀ {m : SMap Byte} {x : Nat × List Byte}, x ∈ runsOf m →
    (∃ e ∈ m, e.1 = x.1) ∧ 0 < x.2.length ∧ x.1 % 128 + x.2.length ≤ 128
  | [], _, h => absurd h List.not_mem_nil
  | (a, b) :: m, x, h => by
    rcases runsOf_cons a b m with heq | ⟨bs, rest, hm, hl, heq⟩
    · rw [heq] at h
      rcases List.mem_cons.1 h with rfl | hx
      · exact ⟨⟨_, List.mem_cons_self, rfl⟩, Nat.one_pos, Nat.succ_le_of_lt (Nat.mod_lt a (by decide))⟩
      · obtain ⟨⟨e, he, h1⟩, h2⟩ := run_bounds hx
        exact ⟨⟨e, List.mem_cons_of_mem _ he, h1⟩, h2⟩
    · rw [heq] at h
      rcases List.mem_cons.1 h with rfl | hx
      · obtain ⟨-, -, hlen⟩ := run_bounds (m := m) (x := (a + 1, bs)) (hm ▸ List.mem_cons_self)
        unfold lineOf at hl
        refine ⟨⟨_, List.mem_cons_self, rfl⟩, Nat.succ_pos _, ?_⟩
        change a % 128 + (bs.length + 1) ≤ 128
        change (a + 1) % 128 + bs.length ≤ 128 at hlen
        omega
      · obtain ⟨⟨e, he, h1⟩, h2⟩ := run_bounds (m := m) (x := x) (hm ▸ List.mem_cons_of_mem _ hx)
        exact ⟨⟨e, List.mem_cons_of_mem _ he, h1⟩, h2⟩

/-- Every byte of a table stands in the line of one of its runs. -/
theorem exists_run : ∀ {m : SMap Byte} {e : Nat × Byte}, e ∈ m → ∃ x ∈ runsOf m, lineOf x.1 = lineOf e.1
  | [], _, h => absurd h List.not_mem_nil
  | (a, b) :: m, e, h => by
    rcases runsOf_cons a b m with heq | ⟨bs, rest, hm, hl, heq⟩
    · rw [heq]
      rcases List.mem_cons.1 h with rfl | he
      · exact ⟨_, List.mem_cons_self, rfl⟩
      · obtain ⟨x, hx, hline⟩ := exists_run he
        exact ⟨x, List.mem_cons_of_mem _ hx, hline⟩
    · rw [heq]
      rcases List.mem_cons.1 h with rfl | he
      · exact ⟨_, List.mem_cons_self, rfl⟩
      · obtain ⟨x, hx, hline⟩ := exists_run he
        rw [hm] at hx
        rcases List.mem_cons.1 hx with rfl | hx
        · exact ⟨_, List.mem_cons_self, hl.trans hline⟩
        · exact ⟨x, List.mem_cons_of_mem _ hx, hline⟩

theorem linesIn_run {a n : Nat} (hn : 0 < n) (h : a % 128 + n ≤ 128) : linesIn a n = [a / 256] := by
  rw [linesIn, if_neg (by omega), show (a + n - 1) / 256 - a / 256 + 1 = 1 by omega]
  rfl

/-! Fences and the state of the core (R352, R366). -/

theorem State.writeBack_onCore (s : State) (f : Core → Core) (a : Nat) : (s.onCore f).writeBack a = (s.writeBack a).onCore f := by
  unfold State.writeBack
  split
  · rfl
  · rfl

theorem State.dropLine_onCore (s : State) (f : Core → Core) (l : Line) : (s.onCore f).dropLine l = (s.dropLine l).onCore f := by
  have hback : (if l.dirty then (s.onCore f).writeBack l.addr else s.onCore f) = (if l.dirty then s.writeBack l.addr else s).onCore f := by
    split
    · exact s.writeBack_onCore f l.addr
    · rfl
  unfold State.dropLine
  rw [hback]
  generalize (if l.dirty then s.writeBack l.addr else s) = t
  generalize List.replicate 128 (0 : Byte) = zeros
  dsimp only
  split
  · rfl
  · rfl

theorem State.makeRoom_onCore (s : State) (f : Core → Core) (a : Nat) : (s.onCore f).makeRoom a = (s.makeRoom a).map (State.onCore · f) := by
  unfold State.makeRoom
  dsimp only
  rw [show (s.onCore f).lines = s.lines from rfl, show (s.onCore f).homeSlice = s.homeSlice from rfl,
    show (s.onCore f).evictable = s.evictable from rfl]
  split
  · rfl
  · rw [Option.map_map]
    exact congrArg (Option.map · _) (funext fun l => s.dropLine_onCore f l)

theorem State.fillLine_onCore (s : State) (f : Core → Core) (a : Nat) : (s.onCore f).fillLine a = (s.fillLine a).map (State.onCore · f) := by
  unfold State.fillLine
  rw [show (s.onCore f).resident a = s.resident a from rfl, State.makeRoom_onCore]
  split
  · rfl
  · rw [Option.map_map, Option.map_map]
    refine congrArg (Option.map · _) (funext fun t => ?_)
    simp only [Function.comp_apply]
    split
    · rfl
    · rfl

theorem State.touch_onCore (s : State) (f : Core → Core) (a : Nat) : (s.onCore f).touch a = (s.touch a).onCore f := by
  unfold State.touch
  rw [State.fillLine_onCore]
  cases s.fillLine a with
  | some t =>
    show (t.onCore f).useLine a id = (t.useLine a id).onCore f
    unfold State.useLine
    rw [State.onCore_lines]
    split
    · rfl
    · rfl
  | none =>
    show (s.onCore f).startFill a = (s.startFill a).onCore f
    unfold State.startFill
    rw [show (s.onCore f).fillDue (lineOf a) = s.fillDue (lineOf a) from rfl]
    split
    · rfl
    · rfl

/-- A fence is no matter of the core. -/
theorem State.fencedAt_onCore (s : State) (f : Core → Core) (p : BitVec 4) (a : Nat) : (s.onCore f).fencedAt p a = s.fencedAt p a := by
  have hword : ∀ q, ((s.onCore f).rankWord p q).1 = (s.rankWord p q).1 := fun q => by
    unfold State.rankWord
    rw [show (s.onCore f).part p = s.part p from rfl]
    split
    · rfl
    · dsimp only
      rw [State.touch_onCore]
      rfl
  have hres : ((s.onCore f).resolve p a).1 = (s.resolve p a).1 := by
    unfold State.resolve
    split
    · rfl
    · exact congrArg (fun w : Word => if w.getLsbD 63 then some (w.toNat % 2 ^ 10, a % 2 ^ 39) else none) (hword _)
  unfold State.fencedAt
  rw [hres]
  rfl

end Sys2Proof.Machine
end

section
namespace Sys2Proof.Machine

/-! What a beat of an engine writes (R115, R116). -/

/-- A state in which a beat's bytes have been sent. -/
def State.sent (s : State) (banks : List BankUse) (lines : SMap HByte) (mem : Mem) (w : List Nat) : State :=
  { s with core := { s.core with
    eng := { s.core.eng with banks := banks }
    held := { s.core.held with lines := lines }
    ls := { s.core.ls with mem := mem, w := w } } }

/-- The bytes `m` are held in uncommitted lines, or they are in the local store and their lines are marked. -/
def State.Takes (s : State) (loc : Bool) (m : Bytes) (lines : SMap HByte) (mem : Mem) (w : List Nat) : Prop :=
  (loc = true → mem = s.core.ls.mem ∧
    ∀ a, SMap.find a lines = ((SMap.find a m).map fun b => (⟨b, s.dcc⟩ : HByte)).or (SMap.find a s.core.held.lines)) ∧
  (loc = false → lines = s.core.held.lines ∧ (∀ e ∈ m, e.1 / 256 ∈ w) ∧
    ∀ a, Mem.read mem a = (SMap.find a m).getD (s.core.ls.mem.read a))

/-- Local writes one after another, each of which marks its line. -/
theorem foldl_sent_local {s : State} {lines : SMap HByte} {f : State → Nat × List Byte → State} {l : List (Nat × List Byte)}
    (hstep : ∀ x ∈ l, ∀ banks mem w, ∃ banks' w',
      f (s.sent banks lines mem w) x = s.sent banks' lines (mem.writeBytes x.1 x.2) w' ∧ w ⊆ w' ∧ x.1 / 256 ∈ w') :
    ∀ banks mem w, ∃ banks' w', l.foldl f (s.sent banks lines mem w) =
      s.sent banks' lines (l.foldl (fun t x => Mem.writeBytes t x.1 x.2) mem) w' ∧ w ⊆ w' ∧ ∀ x ∈ l, x.1 / 256 ∈ w' := by
  induction l with
  | nil => exact fun banks mem w => ⟨banks, w, rfl, fun _ h => h, fun _ h => absurd h List.not_mem_nil⟩
  | cons x l ih =>
    intro banks mem w
    obtain ⟨b1, w1, h1, hsub1, hx⟩ := hstep x List.mem_cons_self banks mem w
    obtain ⟨b2, w2, h2, hsub2, hl⟩ := ih (fun y hy => hstep y (List.mem_cons_of_mem _ hy)) b1 (mem.writeBytes x.1 x.2) w1
    refine ⟨b2, w2, ?_, fun _ h => hsub2 (hsub1 h), List.forall_mem_cons.2 ⟨hsub2 hx, hl⟩⟩
    rw [List.foldl_cons, h1, h2, List.foldl_cons]

theorem subset_mark (w : List Nat) (i : Nat) : w ⊆ if w.contains i then w else w ++ [i] := by
  split
  · exact fun _ h => h
  · exact fun _ h => List.mem_append_left _ h

theorem mem_mark (w : List Nat) (i : Nat) : i ∈ if w.contains i then w else w ++ [i] := by
  split
  next h => exact List.contains_iff_mem.1 h
  next => exact List.mem_append_right _ List.mem_cons_self

theorem find?_poison_nil (l : List Nat) (p : Nat → Bool) : l.find? (fun w => ([] : List Nat).contains w && p w) = none :=
  List.find?_eq_none.2 fun _ _ => by simp

theorem State.localWrite_clean {s : State} {a : Nat} {bs : List Byte} (h : s.core.ls.poison = []) :
    s.localWrite a bs = { s with core := { s.core with ls := { s.core.ls with mem := s.core.ls.mem.writeBytes a bs } } } := by
  have hclear : (s.core.ls.poison.filter fun w => !coversWord a bs.length w) = s.core.ls.poison := by
    rw [h]
    rfl
  exact congrArg (fun p => { s with core := { s.core with ls := { s.core.ls with mem := s.core.ls.mem.writeBytes a bs, poison := p } } }) hclear

theorem State.writeLocal_eq {s : State} {m : Bytes} (r : Run) (hm : SMap.Rising m) (h : s.maySend false m) :
    ∃ banks mem w, s.writeLocal r m = s.sent banks s.core.held.lines mem w ∧ s.Takes false m s.core.held.lines mem w := by
  obtain ⟨hwf, hpoison, hread⟩ := h
  have hfold : ∃ banks w, s.writeLocal r m = s.sent banks s.core.held.lines
      ((runsOf m).foldl (fun t x => Mem.writeBytes t x.1 x.2) s.core.ls.mem) w ∧ s.core.ls.w ⊆ w ∧ ∀ x ∈ runsOf m, x.1 / 256 ∈ w := by
    refine foldl_sent_local (s := s) (fun x hx banks mem w => ?_) s.core.eng.banks s.core.ls.mem s.core.ls.w
    obtain ⟨⟨e, he, hkey⟩, hpos, hline⟩ := run_bounds hx
    have hfree : SMap.find (x.1 / 256) s.core.ls.r = none := hkey ▸ hread e he
    have hlo : max x.1 (x.1 / 256 * 256) = x.1 := by omega
    have hhi : min (x.1 + x.2.length) (x.1 / 256 * 256 + 256) - x.1 = x.2.length := by omega
    rw [linesIn_run hpos hline, List.foldl_cons, List.foldl_nil]
    dsimp only
    rw [hlo, hhi, Nat.sub_self, List.drop_zero, List.take_length,
      show SMap.find (x.1 / 256) ((s.sent banks s.core.held.lines mem w).bankUse r true x.1 x.2.length).core.ls.r = none from hfree]
    dsimp only
    rw [show ((s.sent banks s.core.held.lines mem w).bankUse r true x.1 x.2.length).core.ls.poison = [] from hpoison, find?_poison_nil]
    dsimp only
    rw [State.localWrite_clean (s := (s.sent banks s.core.held.lines mem w).bankUse r true x.1 x.2.length) hpoison]
    exact ⟨_, _, rfl, subset_mark w _, mem_mark w _⟩
  obtain ⟨banks, w, heq, -, hw⟩ := hfold
  rw [runsOf_foldl (fun a bs t => Mem.writeBytes t a bs) fun _ _ _ _ => rfl] at heq
  refine ⟨banks, _, w, heq, fun h => absurd h Bool.false_ne_true, fun _ => ⟨rfl, fun e he => ?_, fun a => Mem.read_foldl_write a m 0 hm _ hwf⟩⟩
  obtain ⟨x, hx, hline⟩ := exists_run he
  have hsame : e.1 / 256 = x.1 / 256 := by
    unfold lineOf at hline
    omega
  exact hsame ▸ hw x hx

/-! Writes through another handle (R116, R283). -/

/-- Writes into lines that the entry owns, one after another. -/
theorem foldl_sent_held {s : State} {f : State → Nat × List Byte → State} {g : Byte → HByte} {l : List (Nat × List Byte)}
    (hstep : ∀ x ∈ l, ∀ lines, f (s.sent s.core.eng.banks lines s.core.ls.mem s.core.ls.w) x =
      s.sent s.core.eng.banks (putBytes g x.1 x.2 lines) s.core.ls.mem s.core.ls.w) :
    ∀ lines, l.foldl f (s.sent s.core.eng.banks lines s.core.ls.mem s.core.ls.w) =
      s.sent s.core.eng.banks (l.foldl (fun t x => putBytes g x.1 x.2 t) lines) s.core.ls.mem s.core.ls.w := by
  induction l with
  | nil => exact fun _ => rfl
  | cons x l ih =>
    intro lines
    rw [List.foldl_cons, hstep x List.mem_cons_self, ih fun y hy => hstep y (List.mem_cons_of_mem _ hy), List.foldl_cons]

theorem State.writeMem_eq {s : State} {m : Bytes} (r : Run) (hm : SMap.Rising m) (h : s.maySend true m) :
    ∃ lines, s.writeMem r m = s.sent s.core.eng.banks lines s.core.ls.mem s.core.ls.w ∧ s.Takes true m lines s.core.ls.mem s.core.ls.w := by
  obtain ⟨hpoison, hlines, hsend⟩ := h
  have hfold : s.writeMem r m = s.sent s.core.eng.banks
      ((runsOf m).foldl (fun t x => putBytes (fun b => (⟨b, s.dcc⟩ : HByte)) x.1 x.2 t) s.core.held.lines) s.core.ls.mem s.core.ls.w := by
    refine foldl_sent_held (s := s) (fun x hx lines => ?_) s.core.held.lines
    obtain ⟨⟨e, he, hkey⟩, -, -⟩ := run_bounds hx
    obtain ⟨hfence, howned⟩ := hsend e he
    rw [hkey] at hfence howned
    have hopen : (s.sent s.core.eng.banks lines s.core.ls.mem s.core.ls.w).fencedAt
        (s.sent s.core.eng.banks lines s.core.ls.mem s.core.ls.w).core.part x.1 = false :=
      (s.fencedAt_onCore (fun c => { c with held := { c.held with lines := lines } }) _ _).trans hfence
    have hown : (s.sent s.core.eng.banks lines s.core.ls.mem s.core.ls.w).ownLine x.1 =
        some (s.sent s.core.eng.banks lines s.core.ls.mem s.core.ls.w) := if_pos howned
    dsimp only
    rw [if_neg (Bool.eq_false_iff.1 hopen), hown]
    dsimp only
    rw [show (s.sent s.core.eng.banks lines s.core.ls.mem s.core.ls.w).poison = [] from hpoison]
    simp only [Bool.and_assoc, find?_poison_nil]
    rfl
  rw [runsOf_foldl (fun a bs t => putBytes (fun b => (⟨b, s.dcc⟩ : HByte)) a bs t) fun _ _ _ _ => rfl] at hfold
  exact ⟨_, hfold, fun _ => ⟨rfl, fun a => SMap.find_foldl_put (fun b => (⟨b, s.dcc⟩ : HByte)) a m 0 hm _ (SMap.rising_of_pairwise hlines)⟩,
    fun h => absurd h.symm Bool.false_ne_true⟩

theorem State.writeTo_eq {s : State} {loc : Bool} {m : Bytes} (r : Run) (hm : SMap.Rising m) (h : s.maySend loc m) :
    ∃ banks lines mem w, s.writeTo r loc m = s.sent banks lines mem w ∧ s.Takes loc m lines mem w := by
  cases loc with
  | true =>
    obtain ⟨lines, heq, htakes⟩ := State.writeMem_eq r hm h
    exact ⟨_, lines, _, _, (if_pos rfl).trans heq, htakes⟩
  | false =>
    obtain ⟨banks, mem, w, heq, htakes⟩ := State.writeLocal_eq r hm h
    exact ⟨banks, _, mem, w, (if_neg Bool.false_ne_true).trans heq, htakes⟩

/-- A beat's bytes land where its state takes them. -/
theorem lands_of_takes {s t : State} {loc : Bool} {m : Bytes} {fl : Flags} (h : s.Takes loc m t.core.held.lines t.core.ls.mem t.core.ls.w)
    (htrap : t.core.trap = s.core.trap) (hmem : t.mem = s.mem) (hcxl : t.cxl = s.cxl) (hs : t.core.arch.s = s.core.arch.s)
    (hheld : t.core.held = { s.core.held with lines := t.core.held.lines })
    (hfl : s.firmware = false → t.core.arch.csr.numf = s.core.arch.csr.numf ||| fl) : Lands loc m fl s t := by
  obtain ⟨hfar, hnear⟩ := h
  refine ⟨htrap, fun a => by rw [hmem], fun a => by rw [hcxl], hs, hfl, fun hloc => ?_, fun hloc => ?_⟩
  · obtain ⟨hls, hlines⟩ := hfar hloc
    refine ⟨fun a => by rw [hls], fun a => ?_⟩
    rw [hlines a]
    cases SMap.find a m with
    | some b => rfl
    | none => rfl
  · obtain ⟨hlines, hw, hread⟩ := hnear hloc
    refine ⟨?_, hw, hread⟩
    rw [hheld, hlines]

theorem State.maySend_unstalled {s : State} {loc : Bool} {m : Bytes} (h : s.maySend loc m) : s.unstalled.maySend loc m := by
  cases loc with
  | true =>
    obtain ⟨hpoison, hlines, hsend⟩ := h
    refine ⟨hpoison, hlines, fun e he => (hsend e he).imp_left fun hfence => ?_⟩
    exact (s.fencedAt_onCore (fun c => { c with eng := { c.eng with stall := none } }) s.core.part e.1).trans hfence
  | false =>
    obtain ⟨hwf, hpoison, hread⟩ := h
    exact ⟨hwf, hpoison, hread⟩

/-! The write of an ACCST's row. -/

/-- A state in which a beat has sent its bytes and raised its flags. -/
def State.beaten (s : State) (lines : SMap HByte) (mem : Mem) (w : List Nat) (tags : Vector TileTag 96) (eng : Engine) (fl n : Flags)
    (l : List Line) : State :=
  { s with
    core := { s.core with
      eng := eng
      held := { s.core.held with lines := lines }
      ls := { s.core.ls with mem := mem, w := w, tags := tags }
      arch := { s.core.arch with csr := { s.core.arch.csr with numf := fl } }
      numfNow := n }
    lines := l }

theorem State.accstWrite_eq {s : State} (r : Run) {banks : List BankUse} {lines : SMap HByte} {mem : Mem} {w : List Nat} (hf : s.firmware = false)
    (hw : s.writeTo r r.accst.d.loc (putAll [(r.e.addr r.accst.d (r.nw * r.accst.d.pitch),
      (r.res.take r.accst.n).flatMap fun v => leBytes (elemBytes r.accst.df) v.1.toNat)]) = s.sent banks lines mem w) :
    ∃ tags eng n l, s.accstWrite r = s.beaten lines mem w tags eng
      (s.core.arch.csr.numf ||| (r.res.take r.accst.n).foldl (fun f v => f ||| v.2) 0) n l ∧ eng.stall = s.core.eng.stall := by
  obtain ⟨n, hraise⟩ := State.raise_eq (s.sent banks lines mem w) ((r.res.take r.accst.n).foldl (fun f v => f ||| v.2) 0)
  rw [show (s.sent banks lines mem w).firmware = false from hf, if_neg Bool.false_ne_true] at hraise
  unfold State.accstWrite
  dsimp only
  rw [hw, hraise]
  split
  next =>
    split
    next =>
      generalize slotsOf r.accst.d 0 r.accst.m (r.accst.n * elemBytes r.accst.df) = slots
      obtain ⟨l, hl⟩ := State.finish_eq ((s.beaten lines mem w s.core.ls.tags { s.core.eng with banks := banks }
        (s.core.arch.csr.numf ||| (r.res.take r.accst.n).foldl (fun f v => f ||| v.2) 0) n s.lines).tagWrite slots r.accst.df (seqOf r.e.r)) r
      exact ⟨_, _, n, l, hl, rfl⟩
    next =>
      obtain ⟨l, hl⟩ := State.finish_eq (s.beaten lines mem w s.core.ls.tags { s.core.eng with banks := banks }
        (s.core.arch.csr.numf ||| (r.res.take r.accst.n).foldl (fun f v => f ||| v.2) 0) n s.lines) r
      exact ⟨_, _, n, l, hl, rfl⟩
  next => exact ⟨s.core.ls.tags, _, n, s.lines, rfl, rfl⟩

theorem accst_lands {s : State} {x : CmdRec} {id : Nat} {r : Run} (hr : s.core.eng.runs.find? (fun y => y.id == id) = some r)
    (hf : s.firmware = false) :
    let a := accstOf r.e.r
    BeatLands (.accst x (.write id)) a.d.loc
      (putAll [(r.e.addr a.d (r.nw * a.d.pitch), (r.res.take a.n).flatMap fun v => leBytes (elemBytes a.df) v.1.toNat)])
      ((r.res.take a.n).foldl (fun f v => f ||| v.2) 0) s := by
  intro a hsend
  obtain ⟨banks, lines, mem, w, hw, htakes⟩ := State.writeTo_eq r (putAll_rising _) (State.maySend_unstalled hsend)
  obtain ⟨tags, eng, n, l, heq, hstall⟩ := State.accstWrite_eq (s := s.unstalled) r hf hw
  obtain ⟨eng', h⟩ := State.attempt_eq (s := s) (r := r) (f := fun t => t.accstWrite r) heq hstall
  have hrun : s.runOf id = some r := hr
  rw [exec_accst, execAccst, State.onBeat, hrun]
  refine ⟨_, congrArg Host.Outcome.next h, lands_of_takes htakes rfl rfl rfl rfl rfl fun _ => rfl⟩

/-! The matrix statements. -/

/-- Settles O42: sums by the number they stand for, rows by what an engine's write leaves in the state. -/
theorem matrixResults : Obligations.MatrixResults := by
  unfold Obligations.MatrixResults
  refine ⟨fun ps hps => ?_, promoteInt_clamps, by decide +kernel, fun s x id r hr hf => ⟨?_, accst_read hr, accst_lands hr hf⟩⟩
  · have hfinite : ∀ p ∈ ps, p.1.finite ∧ p.2.finite := fun p hp => by
      obtain ⟨hn1, hi1, hn2, hi2⟩ := hps p hp
      exact ⟨⟨hn1, hi1⟩, hn2, hi2⟩
    obtain ⟨v, hv, ⟨hnan, hinf⟩, hsum, hzero⟩ := chunkSum_num hfinite
    intro num r
    have hnum : num = Val.num := by
      funext v
      cases v with
      | nan _ => rfl
      | inf _ => rfl
      | fin _ _ _ => rfl
    rw [hnum, show r = _ from hv]
    exact ⟨rfl, rfl, hnan, hinf, hsum, hzero⟩
  · intro m hdue hd hn ha i hi
    obtain ⟨t, ht, hrow⟩ := mma_row hr hf hdue hd hn ha
    have hexec : exec i s = .next (s.onBeat (.write id) s.startMma State.mmaRead State.mmaEarly) := by
      rcases List.mem_cons.1 hi with rfl | hi
      · exact exec_mma x _ s
      rcases List.mem_cons.1 hi with rfl | hi
      · exact exec_mmaSp x _ s
      · obtain rfl := List.mem_singleton.1 hi
        exact exec_mmaMx x _ s
    exact ⟨t, hexec.trans (congrArg Host.Outcome.next ht), hrow⟩

end Sys2Proof.Machine
end

section
namespace Sys2Proof

open Machine

/-! Fields (R72, R78, R85). -/

theorem fits_splitFields : ∀ ls n, Fits ls (splitFields ls n)
  | [], _ => trivial
  | _ :: ls, n => ⟨Nat.mod_lt _ (by positivity), fits_splitFields ls n⟩

theorem toNat_lt_of_le {w n : Nat} (a : BitVec w) (h : 2 ^ w ≤ n) : a.toNat < n := a.isLt.trans_le h

theorem exists_toNat {w n : Nat} (h : n < 2 ^ w) : ∃ a : BitVec w, a.toNat = n := ⟨BitVec.ofNat w n, by simp [Nat.mod_eq_of_lt h]⟩

theorem exists_bit {n : Nat} (h : n < 2 ^ 1) : ∃ b, bit b = n := by
  obtain rfl | rfl : n = 0 ∨ n = 1 := by omega
  · exact ⟨false, rfl⟩
  · exact ⟨true, rfl⟩

@[simp] theorem bit_false : bit false = 0 := rfl
@[simp] theorem bit_true : bit true = 1 := rfl
@[simp] theorem bit_beq_one (b : Bool) : (bit b == 1) = b := by cases b <;> rfl
@[simp] theorem bit_eq_zero {b : Bool} : bit b = 0 ↔ b = false := by cases b <;> decide

@[simp] theorem r6_toNat (a : Reg) : r6 a.toNat = a := by simp [r6]
@[simp] theorem p3_toNat (a : Pred) : p3 a.toNat = a := by simp [p3]
@[simp] theorem h4_toNat (a : HReg) : h4 a.toNat = a := by simp [h4]

theorem toNat_r6 {n : Nat} (h : n < 64) : (r6 n).toNat = n := by simp [r6, Nat.mod_eq_of_lt h]
theorem toNat_p3 {n : Nat} (h : n < 8) : (p3 n).toNat = n := by simp [p3, Nat.mod_eq_of_lt h]

/-! The checks of the decoder (R79). -/

@[simp] theorem need_eq_ok {ok : Bool} {r : Reject} {k : Except Reject Instr} {i : Instr} :
    need ok r k = .ok i ↔ ok = true ∧ k = .ok i := by
  cases ok <;> simp [need]

@[simp] theorem want_eq_ok {α : Type} {x : Option α} {k : α → Except Reject Instr} {i : Instr} :
    want x k = .ok i ↔ ∃ v, x = some v ∧ k v = .ok i := by
  cases x <;> simp [want]

/-! Codes of the closed lists (R21, R45, R46, R79, R83, R84, R88, R108, R175, R191, R293). -/

@[simp] theorem Cond.ofCode_eq_some {n : Nat} {c : Cond} : Cond.ofCode n = some c ↔ n = c.code := by
  refine ⟨fun h => ?_, fun h => h ▸ by cases c <;> rfl⟩
  unfold Cond.ofCode at h
  split at h <;> cases h <;> rfl

@[simp] theorem Cond.code_lt (c : Cond) {n : Nat} (h : 16 ≤ n) : c.code < n := lt_of_lt_of_le (by cases c <;> decide) h

@[simp] theorem FCond.ofCode_eq_some {n : Nat} {c : FCond} : FCond.ofCode n = some c ↔ n = c.code := by
  refine ⟨fun h => ?_, fun h => h ▸ by cases c <;> rfl⟩
  unfold FCond.ofCode at h
  split at h <;> cases h <;> rfl

@[simp] theorem FCond.code_lt (c : FCond) {n : Nat} (h : 8 ≤ n) : c.code < n := lt_of_lt_of_le (by cases c <;> decide) h

@[simp] theorem Rm.ofCode_eq_some {n : Nat} {c : Rm} : Rm.ofCode n = some c ↔ n = c.code := by
  refine ⟨fun h => ?_, fun h => h ▸ by cases c <;> rfl⟩
  unfold Rm.ofCode at h
  split at h <;> cases h <;> rfl

@[simp] theorem Rm.code_lt (c : Rm) {n : Nat} (h : 8 ≤ n) : c.code < n := lt_of_lt_of_le (by cases c <;> decide) h

@[simp] theorem Queue.ofCode_eq_some {n : Nat} {c : Queue} : Queue.ofCode n = some c ↔ n = c.code := by
  refine ⟨fun h => ?_, fun h => h ▸ by cases c <;> rfl⟩
  unfold Queue.ofCode at h
  split at h <;> cases h <;> rfl

@[simp] theorem Queue.code_lt (c : Queue) {n : Nat} (h : 8 ≤ n) : c.code < n := lt_of_lt_of_le (by cases c <;> decide) h

@[simp] theorem Scope.ofCode_eq_some {n : Nat} {c : Scope} : Scope.ofCode n = some c ↔ n = c.code := by
  refine ⟨fun h => ?_, fun h => h ▸ by cases c <;> rfl⟩
  unfold Scope.ofCode at h
  split at h <;> cases h <;> rfl

@[simp] theorem Scope.code_lt (c : Scope) {n : Nat} (h : 16 ≤ n) : c.code < n := lt_of_lt_of_le (by cases c <;> decide) h

@[simp] theorem AmoFn.ofCode_eq_some {n : Nat} {c : AmoFn} : AmoFn.ofCode n = some c ↔ n = c.code := by
  refine ⟨fun h => ?_, fun h => h ▸ by cases c <;> rfl⟩
  unfold AmoFn.ofCode at h
  split at h <;> cases h <;> rfl

@[simp] theorem AmoFn.code_lt (c : AmoFn) {n : Nat} (h : 16 ≤ n) : c.code < n := lt_of_lt_of_le (by cases c <;> decide) h

@[simp] theorem Csr.ofCode_eq_some {n : Nat} {c : Csr} : Csr.ofCode n = some c ↔ n = c.code := by
  refine ⟨fun h => ?_, fun h => h ▸ by cases c <;> rfl⟩
  unfold Csr.ofCode at h
  split at h <;> cases h <;> rfl

@[simp] theorem Csr.code_lt (c : Csr) {n : Nat} (h : 4096 ≤ n) : c.code < n := lt_of_lt_of_le (by cases c <;> decide) h

@[simp] theorem CvtFmt.ofCode_eq_some {n : Nat} {c : CvtFmt} : CvtFmt.ofCode n = some c ↔ n = c.code := by
  refine ⟨fun h => ?_, fun h => h ▸ by cases c <;> rfl⟩
  unfold CvtFmt.ofCode at h
  split at h <;> cases h <;> rfl

@[simp] theorem CvtFmt.code_lt (c : CvtFmt) {n : Nat} (h : 16 ≤ n) : c.code < n := lt_of_lt_of_le (by cases c <;> decide) h

@[simp] theorem Size.ofCode_code (s : Size) : Size.ofCode s.code = s := by cases s <;> rfl
@[simp] theorem Size.code_lt (s : Size) : s.code < 4 := by cases s <;> decide
theorem Size.exists_code {n : Nat} (h : n < 2 ^ 2) : ∃ s : Size, s.code = n := by
  interval_cases n
  exacts [⟨.b, rfl⟩, ⟨.h, rfl⟩, ⟨.w, rfl⟩, ⟨.d, rfl⟩]

@[simp] theorem Port.ofCode_code (p : Port) : Port.ofCode p.code = p := by cases p <;> rfl
@[simp] theorem Port.code_lt (p : Port) : p.code < 4 := by cases p <;> decide
theorem Port.exists_code {n : Nat} (h : n < 2 ^ 2) : ∃ p : Port, p.code = n := by
  interval_cases n
  exacts [⟨.a, rfl⟩, ⟨.b, rfl⟩, ⟨.d, rfl⟩, ⟨.s, rfl⟩]

@[simp] theorem CaccMode.ofCode_code (m : CaccMode) : CaccMode.ofCode m.code = m := by cases m <;> rfl
@[simp] theorem CaccMode.code_lt (m : CaccMode) : m.code < 4 := by cases m <;> decide
theorem CaccMode.exists_code {n : Nat} (h : n < 2 ^ 2) : ∃ m : CaccMode, m.code = n := by
  interval_cases n
  exacts [⟨.add, rfl⟩, ⟨.max, rfl⟩, ⟨.min, rfl⟩, ⟨.sqadd, rfl⟩]

theorem AmoFn.ofCode_code (fn : AmoFn) : AmoFn.ofCode fn.code = some fn := AmoFn.ofCode_eq_some.2 rfl

theorem Size.code_eq_three {s : Size} : s.code = 3 ↔ s = .d := by cases s <;> decide
theorem Size.two_le_code {s : Size} : 2 ≤ s.code ↔ s = .w ∨ s = .d := by cases s <;> decide

theorem toNat_eq_zero_iff {w : Nat} {a : BitVec w} : a.toNat = 0 ↔ a = 0#w := by
  rw [← BitVec.toNat_inj, BitVec.toNat_zero]

@[simp] theorem Perms.szField_lt (p : Perms) : p.szField < 4 := by
  have h := bit_le_one p.rd
  have h' := bit_le_one p.wr
  unfold Perms.szField
  omega

/-- The permissions as the decoder reads them (R123). -/
@[simp] theorem Perms.of_szField (p : Perms) : (⟨decide (2 ≤ p.szField), p.szField % 2 == 1, p.at_⟩ : Perms) = p := by
  obtain ⟨rd, wr, at_⟩ := p
  cases rd <;> cases wr <;> simp [szField, bit]

theorem Perms.exists_szField {n : Nat} (h : n < 2 ^ 2) (x : Bool) : ∃ p : Perms, p.szField = n ∧ p.at_ = x := by
  interval_cases n
  exacts [⟨⟨false, false, x⟩, rfl, rfl⟩, ⟨⟨false, true, x⟩, rfl, rfl⟩, ⟨⟨true, false, x⟩, rfl, rfl⟩, ⟨⟨true, true, x⟩, rfl, rfl⟩]

end Sys2Proof
end

section
namespace Sys2Proof

open Machine

/-! From an instruction to its word. -/

/-- What the decoder reads from an opcode and a body, both within their fields (R72). -/
def ReadAs (w : Word) (op body : Nat) (i : Instr) : Prop := op < 2 ^ 7 ∧ body < 2 ^ 52 ∧ decodeBody w op body = .ok i

/-- A body put together from fields that fit is read as what those fields say. -/
theorem readAs_of_fields {w : Word} {op op' body : Nat} {lay vs : List Nat} {i : Instr}
    (he : some (Code.word op' (joinFields lay vs)) = some (.word op body)) (hop : op' < 2 ^ 7) (hlay : widthSum lay = 52) (hf : Fits lay vs)
    (h : ∀ n, splitFields lay n = vs → decodeBody w op' n = .ok i) : ReadAs w op body i := by
  obtain ⟨rfl, rfl⟩ := Code.word.inj (Option.some.inj he)
  exact ⟨hop, hlay ▸ joinFields_lt lay vs, h _ (splitFields_joinFields lay vs hf)⟩

theorem readAs_of_encode {i : Instr} {op body : Nat} (w : Word) (hwf : wellFormed i = true)
    (he : encode i = some (.word op body)) : ReadAs w op body i := by
  cases i
  case add d a b | sub d a b | and d a b | or d a b | xor d a b | andn d a b | shl d a b | shr d a b | sar d a b | rol d a b | ror d a b
    | mul d a b | mulh d a b | mulhn d a b | div d a b | divn d a b | rem d a b | remn d a b | min d a b | max d a b | minn d a b
    | maxn d a b | sext d a b | zext d a b | clz d a | ctz d a | popc d a | bswap d a =>
    exact readAs_of_fields he (by decide) rfl (by simp [Fits, layRRR, toNat_lt_of_le]) fun _ h => by
      simp [decodeBody, decodeRRR, h, decodeAlu]
  case pand d a b | por d a b | pxor d a b | pnot d a | pmov d a =>
    exact readAs_of_fields he (by decide) rfl (by simp [Fits, layRRR, toNat_lt_of_le]) fun _ h => by
      simp [decodeBody, decodeRRR, h, decodePlog, toNat_lt_of_le]
  case cmp d a b c | sel d a b c | movpsGet d | movpsSet a =>
    exact readAs_of_fields he (by decide) rfl (by simp [Fits, layRRR, toNat_lt_of_le]) fun _ h => by
      simp [decodeBody, decodeRRR, h, toNat_lt_of_le]
  case fadd d a b m s | fsub d a b m s | fmul d a b m s | fdiv d a b m s | fmin d a b | fmax d a b | fsqrt d a m s | fabs d a | fneg d a
    | fcmp d a b c | fcvtF2i d a m | fcvtI2f d a m | fcvtF2b d a m s | fcvtB2f d a =>
    exact readAs_of_fields he (by decide) rfl (by simp [Fits, layRRR, toNat_lt_of_le, bit_le_one]) fun _ h => by
      simp [decodeBody, decodeRRR, h, decodeFalu, toNat_lt_of_le]
  case addi d a n | andi d a n | ori d a n | xori d a n | muli d a n | cmpi d a c n =>
    exact readAs_of_fields he (by decide) rfl (by simp [Fits, layRI, toNat_lt_of_le]) fun _ h => by
      simp [decodeBody, decodeRI, h, toNat_lt_of_le]
  case shli d a n | shri d a n | sari d a n =>
    have hle := of_decide_eq_true hwf
    exact readAs_of_fields he (by decide) rfl (by simp [Fits, layRI, toNat_lt_of_le]) fun _ h => by
      simp [decodeBody, decodeRI, h, hle]
  case li d n | lih d n | la d n =>
    exact readAs_of_fields he (by decide) rfl (by simp [Fits, layLI, toNat_lt_of_le]) fun _ h => by
      simp [decodeBody, decodeLI, h, toNat_lt_of_le]
  case b t | bcmp a b c t | call a t | ret a | bi a | loop a t | bzm t =>
    exact readAs_of_fields he (by decide) rfl (by simp [Fits, layB, toNat_lt_of_le]) fun _ h => by
      simp [decodeBody, decodeB, h]
  case xlate h x p | hinv h | hinfo d h | ld d m sz sx inc | st d m sz inc | probe d x p | pref m =>
    simp [wellFormed] at hwf
    exact readAs_of_fields he (by decide) rfl (by simp [Fits, layM, toNat_lt_of_le, bit_le_one]) fun _ h => by
      simp [decodeBody, decodeM, h, hwf, BitVec.toNat_inj, toNat_eq_zero_iff, Size.code_eq_three]
  case amo d m sz sx b c fn | amop m sz b fn =>
    simp [wellFormed, atomOk] at hwf
    exact readAs_of_fields he (by decide) rfl (by simp [Fits, layMA, toNat_lt_of_le, bit_le_one]) fun _ h => by
      simp [decodeBody, decodeMA, h, hwf, toNat_eq_zero_iff, Size.code_eq_three, Size.two_le_code, AmoFn.ofCode_code]
  case mpush a b | minv | mpop | qpusht q pd n b c | qstat q a | shape a | layer e a | pbind slot p | pbindUn slot | pconst p k a | pstat a slot =>
    exact readAs_of_fields he (by decide) rfl (by simp [Fits, layQ, toNat_lt_of_le]) fun _ h => by
      simp [decodeBody, decodeQ, h, toNat_lt_of_le]
  case mget a b | qpush q pd a | tmpl n a | mburst n | pload slot a n | pctl slot ctl | ttagRd a t | ttagWr t a | tclr t =>
    simp [wellFormed] at hwf
    exact readAs_of_fields he (by decide) rfl (by simp [Fits, layQ, toNat_lt_of_le]) fun _ h => by
      simp [decodeBody, decodeQ, h, hwf, BitVec.toNat_inj, toNat_eq_zero_iff, toNat_lt_of_le]
  case commit sc | bar g | flagw n a | dccr a | waitc a =>
    exact readAs_of_fields he (by decide) rfl (by simp [Fits, layS, toNat_lt_of_le]) fun _ h => by
      simp [decodeBody, decodeS, h, toNat_lt_of_le]
  case region len am | fence sc m | arrive g pt | waitrv g pt | rvinit g pt a | rvflags g pt a | align g t =>
    simp [wellFormed] at hwf
    exact readAs_of_fields he (by decide) rfl (by simp [Fits, layS, toNat_lt_of_le]) fun _ h => by
      simp [decodeBody, decodeS, h, hwf, toNat_eq_zero_iff, toNat_lt_of_le]
  case csrr a c | csrw c a | trap k | eret | halt | yield | nop | lsstep a | seed a | event k a | ctxsave a | ctxload a =>
    exact readAs_of_fields he (by decide) rfl (by simp [Fits, layX, toNat_lt_of_le]) fun _ h => by
      simp [decodeBody, decodeX, h, toNat_lt_of_le]
  any_goals cases he
  -- the commands of the engines are left, whose encodings are records
  all_goals
    simp only [encode] at he
    split at he <;> cases he

end Sys2Proof
end

section
namespace Sys2Proof

open Machine

/-! From a word to the instruction. A check that has passed (`need`, `want`) says of the fields what it asks of them. -/

/-- The instruction is unassigned, or well-formed with this opcode and body (R79, R81). -/
def EncodedBy (w : Word) (op body : Nat) (i : Instr) : Prop :=
  i = .unassignedOpcode w ∨ (wellFormed i = true ∧ encode i = some (.word op body))

theorem fits_cons_iff {l : Nat} {ls vs : List Nat} : Fits (l :: ls) vs ↔ ∃ (x : BitVec l) (us : List Nat), Fits ls us ∧ x.toNat :: us = vs := by
  constructor
  · intro h
    match vs, h with
    | v :: us, ⟨hv, hus⟩ =>
      obtain ⟨x, rfl⟩ := exists_toNat hv
      exact ⟨x, us, hus, rfl⟩
  · rintro ⟨x, us, hus, rfl⟩
    exact ⟨x.isLt, hus⟩

theorem fits_nil_iff {vs : List Nat} : Fits [] vs ↔ [] = vs := by
  cases vs <;> simp [Fits]

/-- A body cut into the fields of a format, which put it together again. -/
theorem exists_split {lay : List Nat} {n : Nat} (h : n < 2 ^ widthSum lay) :
    ∃ vs, Fits lay vs ∧ splitFields lay n = vs ∧ n = joinFields lay vs :=
  ⟨_, fits_splitFields lay n, rfl, by rw [joinFields_splitFields, Nat.mod_eq_of_lt h]⟩

section
variable {w : Word} {i : Instr} {d a b c : Reg} {fn : BitVec 8} {rm : BitVec 3} {sat : Bool} {z : BitVec 16}

theorem encodedBy_of_decodeAlu (h : decodeAlu w d.toNat a.toNat b.toNat c.toNat fn.toNat rm.toNat (bit sat) z.toNat = .ok i) :
    EncodedBy w 0x00 (joinFields layRRR [d.toNat, a.toNat, b.toNat, c.toNat, fn.toNat, rm.toNat, bit sat, z.toNat]) i := by
  unfold decodeAlu at h
  split at h
  case h_29 => exact .inl (Except.ok.inj h).symm
  all_goals
    rename_i hfn
    simp at h
    obtain ⟨hzero, rfl⟩ := h
    exact .inr ⟨rfl, by simp [encode, encAlu, encRRR, hfn, hzero]⟩

theorem encodedBy_of_decodePlog (h : decodePlog w d.toNat a.toNat b.toNat c.toNat fn.toNat rm.toNat (bit sat) z.toNat = .ok i) :
    EncodedBy w 0x0E (joinFields layRRR [d.toNat, a.toNat, b.toNat, c.toNat, fn.toNat, rm.toNat, bit sat, z.toNat]) i := by
  unfold decodePlog at h
  split at h
  case h_6 => exact .inl (Except.ok.inj h).symm
  all_goals
    rename_i hfn
    simp at h
    obtain ⟨hzero, rfl⟩ := h
    exact .inr ⟨rfl, by simp [encode, encRRR, toNat_p3, hfn, hzero]⟩

theorem encodedBy_of_decodeFalu (h : decodeFalu w d.toNat a.toNat b.toNat c.toNat fn.toNat rm.toNat (bit sat) z.toNat = .ok i) :
    EncodedBy w 0x11 (joinFields layRRR [d.toNat, a.toNat, b.toNat, c.toNat, fn.toNat, rm.toNat, bit sat, z.toNat]) i := by
  unfold decodeFalu at h
  split at h
  case h_12 => exact .inl (Except.ok.inj h).symm
  case h_5 hfn | h_6 hfn | h_8 hfn | h_9 hfn =>
    simp at h
    obtain ⟨hzero, rfl⟩ := h
    exact .inr ⟨rfl, by simp [encode, encRRR, hfn, hzero]⟩
  case h_11 hfn =>
    split at h
    case h_5 => cases h
    case h_4 hc =>
      simp at h
      obtain ⟨hzero, rfl⟩ := h
      exact .inr ⟨rfl, by simp [encode, encRRR, hfn, hc, hzero]⟩
    all_goals
      rename_i hc
      simp at h
      obtain ⟨hzero, m, hm, rfl⟩ := h
      exact .inr ⟨rfl, by simp [encode, encRRR, hfn, hc, hzero, hm]⟩
  all_goals
    rename_i hfn
    simp at h
    obtain ⟨hzero, m, hm, rfl⟩ := h
    exact .inr ⟨rfl, by simp [encode, encRRR, toNat_p3, hfn, hzero, hm]⟩

theorem encodedBy_of_decodeRRR {op body : Nat} (hop : op = 0x00 ∨ op = 0x0C ∨ (0x0E ≤ op ∧ op ≤ 0x11)) (hbody : body < 2 ^ 52)
    (h : decodeRRR w op body = .ok i) : EncodedBy w op body i := by
  obtain ⟨vs, hf, hs, rfl⟩ := exists_split (lay := layRRR) hbody
  simp only [layRRR, fits_cons_iff, fits_nil_iff] at hf
  obtain ⟨d, _, ⟨a, _, ⟨b, _, ⟨c, _, ⟨fn, _, ⟨rm, _, ⟨sat, _, ⟨z, _, rfl, rfl⟩, rfl⟩, rfl⟩, rfl⟩, rfl⟩, rfl⟩, rfl⟩, rfl⟩ := hf
  obtain ⟨t, ht⟩ := exists_bit sat.isLt
  rw [decodeRRR, hs, ← ht] at h
  rw [← ht]
  clear ht hs hbody
  obtain rfl | rfl | rfl | rfl | rfl | rfl : op = 0x00 ∨ op = 0x0C ∨ op = 0x0E ∨ op = 0x0F ∨ op = 0x10 ∨ op = 0x11 := by omega
  · exact encodedBy_of_decodeAlu h
  · simp at h
    obtain ⟨hzero, k, hk, rfl⟩ := h
    exact .inr ⟨rfl, by simp [encode, encRRR, toNat_p3, hzero, hk]⟩
  · exact encodedBy_of_decodePlog h
  · simp at h
    obtain ⟨hzero, rfl⟩ := h
    exact .inr ⟨rfl, by simp [encode, encRRR, toNat_p3, hzero]⟩
  · simp at h
    split at h
    case h_3 => exact .inl (Except.ok.inj h).symm
    all_goals
      rename_i hfn
      simp at h
      obtain ⟨hzero, rfl⟩ := h
      exact .inr ⟨rfl, by simp [encode, encRRR, hfn, hzero]⟩
  · exact encodedBy_of_decodeFalu h
end

section
variable {w : Word} {i : Instr} {op body : Nat}

theorem encodedBy_of_decodeRI (hop : (0x01 ≤ op ∧ op ≤ 0x08) ∨ op = 0x0D) (hbody : body < 2 ^ 52) (h : decodeRI op body = .ok i) :
    EncodedBy w op body i := by
  obtain ⟨vs, hf, hs, rfl⟩ := exists_split (lay := layRI) hbody
  simp only [layRI, fits_cons_iff, fits_nil_iff] at hf
  obtain ⟨d, _, ⟨a, _, ⟨c, _, ⟨n, _, rfl, rfl⟩, rfl⟩, rfl⟩, rfl⟩ := hf
  rw [decodeRI, hs] at h
  obtain hplain | hshift | rfl :
    (op = 0x01 ∨ op = 0x02 ∨ op = 0x03 ∨ op = 0x04 ∨ op = 0x08) ∨ (op = 0x05 ∨ op = 0x06 ∨ op = 0x07) ∨ op = 0x0D := by omega
  · obtain rfl | rfl | rfl | rfl | rfl := hplain
    all_goals
      simp at h
      obtain ⟨hzero, rfl⟩ := h
      exact .inr ⟨rfl, by simp [encode, encRI, hzero]⟩
  · obtain rfl | rfl | rfl := hshift
    all_goals
      simp at h
      obtain ⟨hzero, hle, rfl⟩ := h
      exact .inr ⟨decide_eq_true hle, by simp [encode, encRI, hzero]⟩
  · simp at h
    obtain ⟨hzero, k, hk, rfl⟩ := h
    exact .inr ⟨rfl, by simp [encode, encRI, toNat_p3, hzero, hk]⟩

theorem encodedBy_of_decodeLI (hop : 0x09 ≤ op ∧ op ≤ 0x0B) (hbody : body < 2 ^ 52) (h : decodeLI op body = .ok i) :
    EncodedBy w op body i := by
  obtain ⟨vs, hf, hs, rfl⟩ := exists_split (lay := layLI) hbody
  simp only [layLI, fits_cons_iff, fits_nil_iff] at hf
  obtain ⟨d, _, ⟨n, _, rfl, rfl⟩, rfl⟩ := hf
  rw [decodeLI, hs] at h
  obtain rfl | rfl | rfl : op = 0x09 ∨ op = 0x0A ∨ op = 0x0B := by omega
  · simp at h
    subst h
    exact .inr ⟨rfl, rfl⟩
  · simp at h
    obtain ⟨hlt, rfl⟩ := h
    exact .inr ⟨rfl, by simp [encode, Nat.mod_eq_of_lt hlt]⟩
  · simp at h
    subst h
    exact .inr ⟨rfl, rfl⟩

theorem encodedBy_of_decodeB (hop : 0x18 ≤ op ∧ op ≤ 0x1E) (hbody : body < 2 ^ 52) (h : decodeB op body = .ok i) :
    EncodedBy w op body i := by
  obtain ⟨vs, hf, hs, rfl⟩ := exists_split (lay := layB) hbody
  simp only [layB, fits_cons_iff, fits_nil_iff] at hf
  obtain ⟨a, _, ⟨b, _, ⟨c, _, ⟨z, _, ⟨t, _, rfl, rfl⟩, rfl⟩, rfl⟩, rfl⟩, rfl⟩ := hf
  rw [decodeB, hs] at h
  obtain rfl | hplain : op = 0x19 ∨ (op = 0x18 ∨ op = 0x1A ∨ op = 0x1B ∨ op = 0x1C ∨ op = 0x1D ∨ op = 0x1E) := by omega
  · simp at h
    obtain ⟨hzero, k, hk, rfl⟩ := h
    exact .inr ⟨rfl, by simp [encode, encB, hzero, hk]⟩
  · obtain rfl | rfl | rfl | rfl | rfl | rfl := hplain
    all_goals
      simp at h
      obtain ⟨hzero, rfl⟩ := h
      exact .inr ⟨rfl, by simp [encode, encB, hzero]⟩

theorem encodedBy_of_decodeX (hop : 0x60 ≤ op ∧ op ≤ 0x6B) (hbody : body < 2 ^ 52) (h : decodeX op body = .ok i) :
    EncodedBy w op body i := by
  obtain ⟨vs, hf, hs, rfl⟩ := exists_split (lay := layX) hbody
  simp only [layX, fits_cons_iff, fits_nil_iff] at hf
  obtain ⟨a, _, ⟨b, _, ⟨c, _, ⟨n, _, rfl, rfl⟩, rfl⟩, rfl⟩, rfl⟩ := hf
  rw [decodeX, hs] at h
  obtain hcsr | ⟨hlow, hhigh⟩ : (op = 0x60 ∨ op = 0x61) ∨ (0x62 ≤ op ∧ op ≤ 0x6B) := by omega
  · obtain rfl | rfl := hcsr
    all_goals
      simp at h
      obtain ⟨hzero, k, hk, rfl⟩ := h
      exact .inr ⟨rfl, by simp [encode, encX, hzero, hk]⟩
  · interval_cases op
    all_goals
      simp at h
      obtain ⟨hzero, rfl⟩ := h
      exact .inr ⟨rfl, by simp [encode, encX, Nat.mod_eq_of_lt, hzero]⟩

theorem encodedBy_of_decodeS (hop : 0x38 ≤ op ∧ op ≤ 0x43) (hbody : body < 2 ^ 52) (h : decodeS op body = .ok i) :
    EncodedBy w op body i := by
  obtain ⟨vs, hf, hs, rfl⟩ := exists_split (lay := layS) hbody
  simp only [layS, fits_cons_iff, fits_nil_iff] at hf
  obtain ⟨z, _, ⟨a, _, ⟨g, _, ⟨pt, _, ⟨am, _, ⟨sc, _, ⟨n, _, rfl, rfl⟩, rfl⟩, rfl⟩, rfl⟩, rfl⟩, rfl⟩, rfl⟩ := hf
  rw [decodeS, hs] at h
  obtain rfl | rfl | hplain | hlimit : op = 0x39 ∨ op = 0x3A ∨ (op = 0x3D ∨ op = 0x40 ∨ op = 0x41 ∨ op = 0x42) ∨
    (op = 0x38 ∨ op = 0x3B ∨ op = 0x3C ∨ op = 0x3E ∨ op = 0x3F ∨ op = 0x43) := by omega
  · simp at h
    obtain ⟨hzero, k, hk, rfl⟩ := h
    exact .inr ⟨rfl, by simp [encode, encS, hzero, hk]⟩
  · simp at h
    obtain ⟨hzero, hmask, k, hk, rfl⟩ := h
    exact .inr ⟨by simpa [wellFormed, ← toNat_eq_zero_iff, Nat.mod_eq_of_lt, hzero] using hmask, by simp [encode, encS, Nat.mod_eq_of_lt, hzero, hk]⟩
  · obtain rfl | rfl | rfl | rfl := hplain
    all_goals
      simp at h
      obtain ⟨hzero, rfl⟩ := h
      exact .inr ⟨rfl, by simp [encode, encS, toNat_r6, hzero]⟩
  · obtain rfl | rfl | rfl | rfl | rfl | rfl := hlimit
    all_goals
      simp at h
      obtain ⟨hzero, hlim, rfl⟩ := h
      exact .inr ⟨by simpa [wellFormed, toNat_eq_zero_iff] using hlim, by simp [encode, encS, hzero]⟩

theorem encodedBy_of_decodeM (hop : op = 0x30 ∨ op = 0x2F ∨ (0x28 ≤ op ∧ op ≤ 0x2C)) (hbody : body < 2 ^ 52) (h : decodeM op body = .ok i) :
    EncodedBy w op body i := by
  obtain ⟨vs, hf, hs, rfl⟩ := exists_split (lay := layM) hbody
  simp only [layM, fits_cons_iff, fits_nil_iff] at hf
  obtain ⟨d, _, ⟨r, _, ⟨x, _, ⟨oc, _, ⟨sz, _, ⟨ext, _, ⟨inc, _, ⟨off, _, rfl, rfl⟩, rfl⟩, rfl⟩, rfl⟩, rfl⟩, rfl⟩, rfl⟩, rfl⟩ := hf
  obtain ⟨sx, hsx⟩ := exists_bit ext.isLt
  obtain ⟨bump, hbump⟩ := exists_bit inc.isLt
  obtain ⟨size, hsize⟩ := Size.exists_code sz.isLt
  obtain ⟨p, hp, hat⟩ := Perms.exists_szField sz.isLt sx
  rw [decodeM, hs, ← hsx, ← hbump] at h
  rw [← hsx, ← hbump]
  obtain rfl | rfl | rfl | rfl | rfl | rfl | rfl :
    op = 0x28 ∨ op = 0x29 ∨ op = 0x2A ∨ op = 0x2B ∨ op = 0x2C ∨ op = 0x2F ∨ op = 0x30 := by omega
  · rw [← hp, ← hat] at h
    simp at h
    obtain ⟨hzero, hlim, rfl⟩ := h
    exact .inr ⟨by simpa [wellFormed, toNat_eq_zero_iff] using hlim, by simp [encode, encM, hzero, hp, hat]⟩
  · simp at h
    obtain ⟨hzero, hlim, rfl⟩ := h
    exact .inr ⟨by simpa [wellFormed, toNat_eq_zero_iff] using hlim, by simp [encode, encM, hzero]⟩
  · simp at h
    obtain ⟨hzero, hlim, rfl⟩ := h
    exact .inr ⟨by simpa [wellFormed, toNat_eq_zero_iff] using hlim, by simp [encode, encM, hzero]⟩
  · rw [← hsize] at h
    simp at h
    obtain ⟨hlim, rfl⟩ := h
    exact .inr ⟨by simpa [wellFormed, toNat_eq_zero_iff, BitVec.toNat_inj, Size.code_eq_three] using hlim, by simp [encode, encM, hsize]⟩
  · rw [← hsize] at h
    simp at h
    obtain ⟨⟨hzero, hlim⟩, rfl⟩ := h
    exact .inr ⟨by simpa [wellFormed, toNat_eq_zero_iff] using hlim, by simp [encode, encM, hzero, hsize]⟩
  · rw [← hp, ← hat] at h
    simp at h
    obtain ⟨hzero, hlim, rfl⟩ := h
    exact .inr ⟨by simpa [wellFormed, toNat_eq_zero_iff] using hlim, by simp [encode, encM, hzero, hp, hat]⟩
  · simp at h
    obtain ⟨hzero, rfl⟩ := h
    exact .inr ⟨rfl, by simp [encode, encM, hzero]⟩

theorem encodedBy_of_decodeMA (hop : op = 0x2D ∨ op = 0x2E) (hbody : body < 2 ^ 52) (h : decodeMA w op body = .ok i) :
    EncodedBy w op body i := by
  obtain ⟨vs, hf, hs, rfl⟩ := exists_split (lay := layMA) hbody
  simp only [layMA, fits_cons_iff, fits_nil_iff] at hf
  obtain ⟨d, _, ⟨r, _, ⟨x, _, ⟨oc, _, ⟨sz, _, ⟨ext, _, ⟨z, _, ⟨b, _, ⟨c, _, ⟨fn, _, ⟨off, _, rfl, rfl⟩, rfl⟩, rfl⟩, rfl⟩, rfl⟩, rfl⟩, rfl⟩,
    rfl⟩, rfl⟩, rfl⟩, rfl⟩ := hf
  obtain ⟨sx, hsx⟩ := exists_bit ext.isLt
  obtain ⟨size, hsize⟩ := Size.exists_code sz.isLt
  rw [decodeMA, hs, ← hsx, ← hsize] at h
  rw [← hsx, ← hsize]
  dsimp only at h
  split at h
  next => exact .inl (Except.ok.inj h).symm
  next f hfn =>
    rw [AmoFn.ofCode_eq_some] at hfn
    obtain rfl | rfl := hop
    all_goals
      simp at h
      obtain ⟨hzero, hlim, rfl⟩ := h
      exact .inr ⟨by simpa [wellFormed, atomOk, toNat_eq_zero_iff, Size.code_eq_three, Size.two_le_code] using hlim,
        by simp [encode, hzero, hfn]⟩

theorem encodedBy_of_decodeQ (hop : (0x20 ≤ op ∧ op ≤ 0x23) ∨ (0x48 ≤ op ∧ op ≤ 0x4E) ∨ (0x50 ≤ op ∧ op ≤ 0x56)) (hbody : body < 2 ^ 52)
    (h : decodeQ op body = .ok i) : EncodedBy w op body i := by
  obtain ⟨vs, hf, hs, rfl⟩ := exists_split (lay := layQ) hbody
  simp only [layQ, fits_cons_iff, fits_nil_iff] at hf
  obtain ⟨a, _, ⟨b, _, ⟨c, _, ⟨qn, _, ⟨pd, _, ⟨slot, _, ⟨port, _, ⟨tile, _, ⟨n, _, rfl, rfl⟩, rfl⟩, rfl⟩, rfl⟩, rfl⟩, rfl⟩, rfl⟩, rfl⟩, rfl⟩ := hf
  obtain ⟨pt, hpt⟩ := Port.exists_code port.isLt
  rw [decodeQ, hs, ← hpt] at h
  rw [← hpt]
  clear hpt hs hbody
  obtain hplain | hlimit | hqueue | rfl | rfl | rfl : (op = 0x20 ∨ op = 0x21 ∨ op = 0x22 ∨ op = 0x4B ∨ op = 0x4D ∨ op = 0x52 ∨ op = 0x54) ∨
    (op = 0x23 ∨ op = 0x4C ∨ op = 0x4E ∨ op = 0x50 ∨ op = 0x53 ∨ op = 0x56) ∨ (op = 0x49 ∨ op = 0x4A) ∨ op = 0x48 ∨ op = 0x51 ∨ op = 0x55 := by
    omega
  · obtain rfl | rfl | rfl | rfl | rfl | rfl | rfl := hplain
    all_goals
      simp at h
      obtain ⟨hzero, rfl⟩ := h
      exact .inr ⟨rfl, by simp [encode, encQ, toNat_p3, Nat.mod_eq_of_lt, hzero]⟩
  · obtain rfl | rfl | rfl | rfl | rfl | rfl := hlimit
    all_goals
      simp at h
      obtain ⟨hzero, hlim, rfl⟩ := h
      exact .inr ⟨by simpa [wellFormed, toNat_eq_zero_iff, BitVec.toNat_inj, Nat.mod_eq_of_lt, hzero] using hlim,
        by simp [encode, encQ, toNat_r6, Nat.mod_eq_of_lt, hzero]⟩
  · obtain rfl | rfl := hqueue
    all_goals
      simp at h
      obtain ⟨hzero, q, hq, rfl⟩ := h
      exact .inr ⟨rfl, by simp [encode, encQ, toNat_r6, hzero, hq]⟩
  · simp at h
    obtain ⟨hzero, hlim, q, hq, rfl⟩ := h
    exact .inr ⟨decide_eq_true hlim, by simp [encode, encQ, hzero, hq]⟩
  · simp at h
    obtain ⟨hzero, h⟩ := h
    split at h
    next hn =>
      cases h
      exact .inr ⟨rfl, by simp [encode, encQ, hzero, hn]⟩
    next hn =>
      simp at h
      obtain ⟨hport, rfl⟩ := h
      have hn : n.toNat = 0 := by omega
      exact .inr ⟨rfl, by simp [encode, encQ, hzero, hport, hn]⟩
  · simp at h
    obtain ⟨hzero, hlim, h⟩ := h
    split at h
    next hn =>
      cases h
      exact .inr ⟨by simpa [wellFormed] using hlim, by simp [encode, encQ, hzero, hn]⟩
    next hn =>
      cases h
      have hn : n.toNat = 1 := by omega
      exact .inr ⟨by simpa [wellFormed] using hlim, by simp [encode, encQ, hzero, hn]⟩
end

section
variable {w : Word} {i : Instr} {op body : Nat}

theorem encodedBy_of_decodeBody (hbody : body < 2 ^ 52) (h : decodeBody w op body = .ok i) : EncodedBy w op body i := by
  unfold decodeBody at h
  split at h
  next hop => exact encodedBy_of_decodeRRR hop hbody h
  split at h
  next hop => exact encodedBy_of_decodeRI hop hbody h
  split at h
  next hop => exact encodedBy_of_decodeLI hop hbody h
  split at h
  next hop => exact encodedBy_of_decodeB hop hbody h
  split at h
  next hop => exact encodedBy_of_decodeQ hop hbody h
  split at h
  next hop => exact encodedBy_of_decodeMA hop hbody h
  split at h
  next hma hop => exact encodedBy_of_decodeM (by omega) hbody h
  split at h
  next hop => exact encodedBy_of_decodeS hop hbody h
  split at h
  next hop => exact encodedBy_of_decodeX hop hbody h
  exact .inl (Except.ok.inj h).symm

/-- What a word with a given header decodes to (R72, R73). -/
theorem decodeSlot_headWord {e : Bool} {pg : Pred} {pn : Bool} (hop : op < 2 ^ 7) (hbody : body < 2 ^ 52)
    (h : decodeBody (headWord e pg pn op body) op body = .ok i) (hg : guardFree i = true → pg = 0 ∧ pn = false) :
    decodeSlot (headWord e pg pn op body) = .ok ⟨e, pg, pn, classOf op, i, headWord e pg pn op body⟩ := by
  have hguard : (guardFree i && (pg.toNat != 0 || bit pn != 0)) = false := by
    cases hi : guardFree i
    · rfl
    · obtain ⟨rfl, rfl⟩ := hg hi
      rfl
  rw [decodeSlot, splitFields_headWord e pg pn op body hop hbody]
  simp [h, hguard]

/-- A word that decodes is put together from what it decodes to, and its body decodes (R72, R73). -/
theorem decodeSlot_eq_ok {y : Slot} (h : decodeSlot w = .ok y) : ∃ op body, op < 2 ^ 7 ∧ body < 2 ^ 52 ∧ w = headWord y.e y.pg y.pn op body ∧
    decodeBody w op body = .ok y.instr ∧ (guardFree y.instr = true → y.pg = 0 ∧ y.pn = false) := by
  obtain ⟨vs, hf, hs, hw⟩ := exists_split (lay := layHead) w.isLt
  simp only [layHead, fits_cons_iff, fits_nil_iff] at hf
  obtain ⟨e, _, ⟨pg, _, ⟨pn, _, ⟨op, _, ⟨body, _, rfl, rfl⟩, rfl⟩, rfl⟩, rfl⟩, rfl⟩ := hf
  obtain ⟨last, hend⟩ := exists_bit e.isLt
  obtain ⟨neg, hneg⟩ := exists_bit pn.isLt
  rw [decodeSlot, hs, ← hend, ← hneg] at h
  rw [← hend, ← hneg] at hw
  refine ⟨op.toNat, body.toNat, op.isLt, body.isLt, ?_⟩
  dsimp only at h
  split at h
  next => cases h
  next i hi =>
    split at h
    next => cases h
    next hguard =>
      cases h
      refine ⟨?_, hi, fun hfree => ?_⟩
      · rw [bit_beq_one, bit_beq_one, p3_toNat, headWord, ← hw, BitVec.ofNat_toNat, BitVec.setWidth_eq]
      · simpa [hfree, toNat_eq_zero_iff] using hguard

end

/-- Settles O53: the encoder's body read by the decoder of its format, and the header around it. -/
theorem instructionWordRoundTrip : Obligations.InstructionWordRoundTrip := by
  intro i op body hwf he
  obtain ⟨hop, hbody, -⟩ := readAs_of_encode 0 hwf he
  refine ⟨hop, hbody, fun e pg pn hg => ?_⟩
  obtain ⟨-, -, h⟩ := readAs_of_encode (headWord e pg pn op body) hwf he
  exact ⟨_, decodeSlot_headWord hop hbody h hg, rfl, rfl, rfl, rfl⟩

/-- Settles O54, by the format that the opcode selects. -/
theorem decodedWordsAreEncodings : Obligations.DecodedWordsAreEncodings := by
  intro w y h
  obtain ⟨op, body, -, hbody, hw, hd, hguard⟩ := decodeSlot_eq_ok h
  refine ⟨decodeSlot_word h, ?_⟩
  rcases encodedBy_of_decodeBody hbody hd with hun | ⟨hwf, he⟩
  · exact .inl ⟨w, hun⟩
  · exact .inr ⟨hwf, hguard, op, body, he, hw⟩

/-! Chisel words (R85, R86, R191). -/

@[simp] theorem q2_eq_ok {n : Nat} {k : QReg → Except Reject Instr} {i : Instr} :
    q2 n k = .ok i ↔ n < 4 ∧ k (BitVec.ofNat 2 n) = .ok i := by
  simp [q2, Nat.lt_succ_iff]

/-- A chisel word put together from fields that fit is read as what those fields say. -/
theorem decodeChisel_of_fields {vs : List Nat} {n : Nat} {i : Instr} (he : some (Code.chisel (joinFields layChisel vs)) = some (.chisel n))
    (hf : Fits layChisel vs) (h : ∀ x : Word32, splitFields layChisel x.toNat = vs → decodeChisel x = .ok i) :
    n < 2 ^ 32 ∧ decodeChisel (BitVec.ofNat 32 n) = .ok i := by
  obtain rfl := Code.chisel.inj (Option.some.inj he)
  exact ⟨joinFields_lt layChisel vs, h _ (splitFields_chiselWord vs hf)⟩

theorem decodeChisel_of_encode {i : Instr} {n : Nat} (hwf : wellFormed i = true) (he : encode i = some (.chisel n)) :
    n < 2 ^ 32 ∧ decodeChisel (BitVec.ofNat 32 n) = .ok i := by
  cases i
  case chiselFadd d a b m | chiselFsub d a b m | chiselFmul d a b m | chiselFma d a b c m | chiselFmin d a b | chiselFmax d a b | chiselFabs d a
    | chiselFneg d a | chiselClamp d a lo hi | chiselExp2 d a | chiselLog2 d a | chiselRcp d a | chiselRsqrt d a | chiselIadd d a b
    | chiselIand d a b | chiselIshl d a b | chiselMovk d k | chiselMovkX d a | chiselOut a | chiselCoordRow d | chiselCoordCol d
    | chiselFcmp q a b c | chiselSel d a b q | chiselGetc d q | chiselPutc q a | chiselPrev d a k | chiselDrop q =>
    exact decodeChisel_of_fields he (by simp [Fits, layChisel, toNat_lt_of_le]) fun x h => by
      simp [decodeChisel, h, toNat_lt_of_le]
  case chiselIaddImm d a n | chiselIandImm d a n | chiselIshlImm d a n =>
    have hn := n.isLt
    exact decodeChisel_of_fields he (by simp [Fits, layChisel, toNat_lt_of_le]; omega) fun x h => by
      simp [decodeChisel, h, BitVec.ofNat_add]
  case chiselRaise q a f =>
    simp [wellFormed] at hwf
    exact decodeChisel_of_fields he (by simp [Fits, layChisel, toNat_lt_of_le]) fun x h => by
      simp [decodeChisel, h, toNat_lt_of_le, toNat_eq_zero_iff, hwf]
  case chiselCvt d a f m =>
    obtain rfl := Code.chisel.inj (Option.some.inj he)
    have hf := f.code_lt le_rfl
    have hm := m.code_lt le_rfl
    generalize hk : f.code * 8 + m.code = k
    obtain ⟨h1, h2, h3, h4⟩ : k < 1024 ∧ k % 8 = m.code ∧ ¬k / 512 = 1 ∧ k / 8 % 64 = f.code := by omega
    exact decodeChisel_of_fields rfl (by simp [Fits, layChisel, toNat_lt_of_le]; omega) fun x h => by
      simp [decodeChisel, h, h1, h2, h3, h4]
  case chiselCvtI2f d a m =>
    obtain rfl := Code.chisel.inj (Option.some.inj he)
    have hm := m.code_lt le_rfl
    generalize hk : 512 + m.code = k
    obtain ⟨h1, h2, h3, h4⟩ : k < 1024 ∧ k % 8 = m.code ∧ k / 512 = 1 ∧ k / 8 % 64 = 0 := by omega
    exact decodeChisel_of_fields rfl (by simp [Fits, layChisel, toNat_lt_of_le]; omega) fun x h => by
      simp [decodeChisel, h, h1, h2, h3, h4]
  case chiselCacc q a mode rm =>
    obtain rfl := Code.chisel.inj (Option.some.inj he)
    have hm := mode.code_lt
    have hr := rm.code_lt le_rfl
    generalize hk : mode.code * 8 + rm.code = k
    obtain ⟨h1, h2, h3⟩ : k < 32 ∧ k % 8 = rm.code ∧ k / 8 = mode.code := by omega
    simp [wellFormed] at hwf
    exact decodeChisel_of_fields rfl (by simp [Fits, layChisel, toNat_lt_of_le]; omega) fun x h => by
      simp [decodeChisel, h, h1, h2, h3, hwf, toNat_lt_of_le]
  any_goals cases he
  -- the commands of the engines are left, whose encodings are records
  all_goals
    simp only [encode] at he
    split at he <;> cases he

section
variable {w : Word32} {i : Instr}

theorem encode_of_decodeChisel (h : decodeChisel w = .ok i) : wellFormed i = true ∧ encode i = some (.chisel w.toNat) := by
  obtain ⟨vs, hf, hs, hw⟩ := exists_split (lay := layChisel) w.isLt
  simp only [layChisel, fits_cons_iff, fits_nil_iff] at hf
  obtain ⟨op, _, ⟨d, _, ⟨a, _, ⟨b, _, ⟨c, _, ⟨n, _, rfl, rfl⟩, rfl⟩, rfl⟩, rfl⟩, rfl⟩, rfl⟩ := hf
  rw [decodeChisel, hs] at h
  rw [hw]
  dsimp only at h
  split at h
  case h_29 => cases h
  case h_1 hop | h_2 hop | h_3 hop | h_4 hop =>
    simp at h
    obtain ⟨hzero, m, hm, rfl⟩ := h
    exact ⟨rfl, by simp [encode, encC, hop, hzero, hm]⟩
  case h_5 hop | h_6 hop | h_7 hop | h_8 hop | h_9 hop | h_13 hop | h_14 hop | h_15 hop | h_16 hop | h_23 hop | h_26 hop =>
    simp at h
    obtain ⟨hzero, rfl⟩ := h
    exact ⟨rfl, by simp [encode, encC, hop, hzero, Nat.mod_eq_of_lt]⟩
  case h_10 hop =>
    simp at h
    obtain ⟨hzero, c, hc, hd, rfl⟩ := h
    exact ⟨rfl, by simp [encode, encC, hop, hzero, hc, Nat.mod_eq_of_lt hd]⟩
  case h_11 hop | h_21 hop | h_22 hop | h_28 hop =>
    simp at h
    obtain ⟨hzero, hq, rfl⟩ := h
    exact ⟨rfl, by simp [encode, encC, hop, hzero, Nat.mod_eq_of_lt hq]⟩
  case h_12 hop =>
    simp at h
    obtain ⟨hzero, m, hm, h⟩ := h
    split at h
    next hn =>
      simp at h
      obtain ⟨hfmt, rfl⟩ := h
      have hn : n.toNat = 512 + m.code := by omega
      exact ⟨rfl, by simp [encode, encC, hop, hzero, hn]⟩
    next hn =>
      simp at h
      obtain ⟨f, hf, rfl⟩ := h
      have hn : n.toNat = f.code * 8 + m.code := by omega
      exact ⟨rfl, by simp [encode, encC, hop, hzero, hn]⟩
  case h_17 hop | h_18 hop | h_19 hop =>
    split at h
    next hn =>
      simp at h
      obtain ⟨hzero, rfl⟩ := h
      exact ⟨rfl, by simp [encode, encC, hop, hzero]⟩
    next hn =>
      simp at h
      obtain ⟨hzero, rfl⟩ := h
      have hn : 8192 + n.toNat % 8192 = n.toNat := by omega
      exact ⟨rfl, by simp [encode, encC, hop, hzero, hn]⟩
  case h_20 hop | h_27 hop =>
    simp at h
    obtain ⟨hzero, h⟩ := h
    split at h
    next hn =>
      cases h
      exact ⟨rfl, by simp [encode, encC, hop, hzero, hn]⟩
    next hn =>
      cases h
      have hn : n.toNat = 0 := by omega
      exact ⟨rfl, by simp [encode, encC, hop, hzero, hn]⟩
  case h_24 hop =>
    simp at h
    obtain ⟨hzero, m, hm, hq, hmode, rfl⟩ := h
    obtain ⟨mode, hcode⟩ := CaccMode.exists_code (show n.toNat / 8 < 2 ^ 2 by omega)
    rw [← hcode, CaccMode.ofCode_code] at hmode ⊢
    have hn : n.toNat = mode.code * 8 + m.code := by omega
    exact ⟨by simpa [wellFormed] using hmode, by simp [encode, encC, hop, hzero, hn, Nat.mod_eq_of_lt hq]⟩
  case h_25 hop =>
    simp at h
    obtain ⟨⟨hzero, hlt⟩, hflags, hq, rfl⟩ := h
    exact ⟨by simpa [wellFormed, ← toNat_eq_zero_iff, Nat.mod_eq_of_lt hlt] using hflags,
      by simp [encode, encC, hop, hzero, Nat.mod_eq_of_lt hlt, Nat.mod_eq_of_lt hq]⟩
end

/-! Command records (R87, R88). -/

theorem decodeRecord_of_encode {i : Instr} {r : CmdRec} (hwf : wellFormed i = true) (he : encode i = some (.record r)) :
    ∃ q, decodeRecord q r = some i := by
  cases i
  case mma r b | mmaSp r b | mmaMx r b | accz r b | accst r b | fload r b | forest r b | leafg r b | copy r b | fill r b | reduce r b
    | quant r b | deq r b | attn r b | kappend r b | kchase r b | rspanK r b | rspanC r b | ktopk r b | kcompact r b | beamset r b | sgath r b
    | sgpat r b | setf r b | waitf r b =>
    cases b with
    | read | write => cases he
    | start q =>
      cases he
      refine ⟨q, ?_⟩
      simp [wellFormed, startOk, startAnyOk] at hwf
      simp [decodeRecord, hwf]
  all_goals cases he

theorem encode_of_decodeRecord {q : Queue} {r : CmdRec} {i : Instr} (h : decodeRecord q r = some i) :
    wellFormed i = true ∧ encode i = some (.record r) := by
  unfold decodeRecord at h
  split at h
  case h_25 => cases h
  case h_17 hcode =>
    split at h
    next hmode =>
      cases h
      exact ⟨by simp [wellFormed, startOk, hcode, hmode], rfl⟩
    next hmode =>
      cases h
      exact ⟨by simp [wellFormed, startOk, hcode, hmode], rfl⟩
  all_goals
    rename_i hcode
    cases h
    exact ⟨by simp [wellFormed, startOk, startAnyOk, hcode], rfl⟩

/-- Settles O55: chisel words by their opcode, records by their queue and command code. -/
theorem chiselAndRecordRoundTrip : Obligations.ChiselAndRecordRoundTrip :=
  ⟨fun _ _ hwf he => decodeChisel_of_encode hwf he, fun _ _ h => encode_of_decodeChisel h,
    fun _ _ hwf he => decodeRecord_of_encode hwf he, fun _ _ _ h => encode_of_decodeRecord h⟩

end Sys2Proof
end

section
namespace Sys2Proof.Machine

/-! The words that the spec writes out, and unassigned op values (R72 to R88). -/

/-- Settles O56: each word read by the decoder. -/
theorem wordsOfTheSpec : Obligations.WordsOfTheSpec :=
  ⟨rfl, rfl, rfl, rfl, rfl, rfl, rfl, rfl, rfl, rfl, rfl, rfl, rfl, rfl, rfl, rfl, rfl, rfl, rfl, rfl, rfl⟩

theorem exec_unassignedOpcode (w : Word) (s : State) : exec (.unassignedOpcode w) s = .next (s.fault cILLEGAL 0) := rfl

/-- Settles O30: no format has the op value, so that the word decodes to the instruction that raises ILLEGAL. -/
theorem unassignedOpsAreIllegal : Obligations.UnassignedOpsAreIllegal := by
  refine ⟨fun op body hbody hop => ?_, fun q pd n a => ⟨fun h => ?_, fun h => ?_⟩⟩
  · have hdec : ∀ w, decodeBody w op body = .ok (.unassignedOpcode w) := fun w => by
      rw [decodeBody, if_neg (by omega), if_neg (by omega), if_neg (by omega), if_neg (by omega), if_neg (by omega), if_neg (by omega),
        if_neg (by omega), if_neg (by omega), if_neg (by omega)]
    exact ⟨_, decodeSlot_headWord (e := true) (pg := 0) (pn := false) (by omega) hbody (hdec _) fun _ => ⟨rfl, rfl⟩, rfl, fun s =>
      ⟨trapsWith_of_fault fun _ => exec_unassignedOpcode _ s, abandonsWith_of_fault fun _ => exec_unassignedOpcode _ s⟩⟩
  · have hle : a.toNat ≤ 56 := of_decide_eq_true h
    omega
  · have hle : a.toNat ≤ 56 := of_decide_eq_true h
    omega

end Sys2Proof.Machine
end

section
namespace Sys2Proof.Machine

/-! Immediate forms, constants, compares, predicates and selection (R57, R83, R99 to R104, R147). -/

theorem putsS_of_exec {i : Instr} {d : Reg} {v : Word} {s : State} (h : exec i s = .next (s.putS d v)) : PutsS i d v s :=
  ⟨_, h, s.writesS_putS d v⟩

theorem putsP_of_exec {i : Instr} {d : Pred} {v : Bool} {s : State} (h : exec i s = .next (s.putP d v)) : PutsP i d v s :=
  ⟨_, h, s.writesP_putP d v⟩

/-- LIH keeps bits [45:0] (R100). -/
theorem lih_eq_append (k : BitVec 18) (x : Word) :
    (k.setWidth 64 <<< 46) ||| BitVec.ofNat 64 (x.toNat % 2 ^ 46) = (k ++ x.extractLsb' 0 46 : BitVec (18 + 46)) := by
  refine BitVec.eq_of_getLsbD_eq fun i hi => ?_
  have hi : i < 64 := hi
  rw [BitVec.getLsbD_or, BitVec.getLsbD_shiftLeft, BitVec.getLsbD_setWidth, BitVec.getLsbD_ofNat, Nat.testBit_mod_two_pow, BitVec.getLsbD_append,
    BitVec.getLsbD_extractLsb']
  by_cases h : i < 46
  · simp only [h, hi, BitVec.getLsbD, decide_true, Bool.true_and, Bool.not_true, Bool.false_and, Bool.and_false, Bool.false_or, if_true, Nat.zero_add]
  · have : i - 46 < 64 := by omega
    simp [h, hi, this]

theorem fabs_eq_and (x : Word) : BitVec.ofNat 64 (x.toNat % 2 ^ 32 % 2 ^ 31) = x &&& 0x7FFFFFFF := by
  refine BitVec.eq_of_toNat_eq ?_
  have h : (x &&& 0x7FFFFFFF).toNat = x.toNat % 2 ^ 31 := Nat.and_two_pow_sub_one_eq_mod x.toNat 31
  rw [h, BitVec.toNat_ofNat]
  omega

theorem fneg_eq_xor (x : Word) : BitVec.ofNat 64 ((x.toNat % 2 ^ 32 + 2 ^ 31) % 2 ^ 32) = (x &&& 0xFFFFFFFF) ^^^ 0x80000000 := by
  refine BitVec.eq_of_toNat_eq ?_
  have hlow : (x &&& 0xFFFFFFFF).toNat = x.toNat % 2 ^ 32 := Nat.and_two_pow_sub_one_eq_mod x.toNat 32
  have h : ((x &&& 0xFFFFFFFF) ^^^ 0x80000000).toNat = Nat.xor (x.toNat % 2 ^ 32) (2 ^ 31) := by
    rw [BitVec.toNat_xor, hlow]
    rfl
  rw [h, xor_signBit (Nat.mod_lt _ (by decide)), BitVec.toNat_ofNat]
  omega

/-! Bits as one number. -/

/-- The number whose bit `i` is `f i`, of `n` bits. -/
def bitSum (f : Nat → Bool) (n : Nat) : Nat := ((List.range n).map fun i => bit (f i) * 2 ^ i).sum

theorem bitSum_succ (f : Nat → Bool) (n : Nat) : bitSum f (n + 1) = 2 ^ n * bit (f n) + bitSum f n := by
  simp [bitSum, List.range_succ, Nat.mul_comm, Nat.add_comm]

theorem bitSum_lt (f : Nat → Bool) : ∀ n, bitSum f n < 2 ^ n
  | 0 => Nat.one_pos
  | n + 1 => by
    have ih := bitSum_lt f n
    have hbit := Nat.mul_le_mul_left (2 ^ n) (bit_le_one (f n))
    rw [bitSum_succ, Nat.pow_succ]
    omega

theorem testBit_bitSum (f : Nat → Bool) : ∀ n i, i < n → (bitSum f n).testBit i = f i
  | n + 1, i, hi => by
    rw [bitSum_succ, Nat.testBit_two_pow_mul_add _ (bitSum_lt f n)]
    split
    next h => exact testBit_bitSum f n i h
    next h =>
      obtain rfl : i = n := by omega
      rw [Nat.sub_self]
      cases f i <;> rfl

theorem predBits_eq (s : State) : predBits s = BitVec.ofNat 64 (bitSum (fun i => s.srcP (BitVec.ofNat 3 i)) 8) := rfl

/-- MOVPS.GET: bit 0 is p0, which reads as true. -/
theorem predBits_fields (s : State) :
    (predBits s).toNat < 256 ∧ (predBits s).getLsbD 0 = true ∧ ∀ q : Pred, (predBits s).getLsbD q.toNat = s.srcP q := by
  have hlt := bitSum_lt (fun i => s.srcP (BitVec.ofNat 3 i)) 8
  have hnat : (predBits s).toNat = bitSum (fun i => s.srcP (BitVec.ofNat 3 i)) 8 := by
    rw [predBits_eq, BitVec.toNat_ofNat, Nat.mod_eq_of_lt (by omega)]
  have hbits : ∀ q : Pred, (predBits s).getLsbD q.toNat = s.srcP q := fun q => by
    rw [BitVec.getLsbD, hnat, testBit_bitSum _ 8 _ q.isLt, BitVec.ofNat_toNat, BitVec.setWidth_eq]
  exact ⟨by omega, hbits 0, hbits⟩

theorem constantsAndSelection : Clause.ConstantsAndSelection := by
  intro s d a b p i j k x y
  refine ⟨putsS_of_exec rfl, putsS_of_exec rfl, putsS_of_exec rfl, putsS_of_exec rfl, putsS_of_exec rfl, putsS_of_exec rfl, putsS_of_exec rfl,
    putsS_of_exec rfl, putsS_of_exec ?_, fun hl => putsS_of_exec ?_, putsS_of_exec rfl, ⟨predBits s, putsS_of_exec rfl, predBits_fields s⟩,
    putsS_of_exec ?_, putsS_of_exec ?_, putsS_of_exec rfl⟩
  · exact congrArg (fun v => Host.Outcome.next (s.putS d v)) (lih_eq_append k (s.src d))
  · exact congrArg Host.Outcome.next (if_neg (by rw [show (s.core.sequence.isSome && !s.firmware) = false from hl]; exact Bool.false_ne_true))
  · exact congrArg (fun v => Host.Outcome.next (s.putS d v)) (fabs_eq_and x)
  · exact congrArg (fun v => Host.Outcome.next (s.putS d v)) (fneg_eq_xor x)

/-- The conditions of R83 by the comparisons of words. -/
theorem condHolds_eq (x y : Word) : condHolds .ge x y = !x.slt y ∧ condHolds .le x y = !y.slt x ∧ condHolds .gen x y = !x.ult y ∧
    condHolds .len x y = !y.ult x := by
  simp only [condHolds, BitVec.slt, BitVec.ult, ← decide_not, not_lt, and_self]

/-- Predicates of a list but p0, each from its bit of a word. -/
def Arch.setPs (a : Arch) (v : Word) (l : List Nat) : Arch := l.foldl (fun a i => a.setP (BitVec.ofNat 3 i) (v.getLsbD i)) a

theorem Arch.setPs_eq (v : Word) : ∀ (l : List Nat) (a : Arch), ∃ q, a.setPs v l = { a with p := q }
  | [], a => ⟨a.p, rfl⟩
  | i :: l, a => by
    obtain ⟨q, h⟩ := Arch.setPs_eq v l (a.setP (BitVec.ofNat 3 i) (v.getLsbD i))
    refine ⟨q, h.trans ?_⟩
    unfold Arch.setP
    split <;> rfl

theorem Arch.preg_setPs (v : Word) (r : Pred) : ∀ (l : List Nat) (a : Arch), (∀ i ∈ l, 0 < i ∧ i < 8) →
    (a.setPs v l).preg r = if r.toNat ∈ l then v.getLsbD r.toNat else a.preg r
  | [], _, _ => rfl
  | i :: l, a, hl => by
    obtain ⟨hpos, hlt⟩ := hl i (by simp)
    have hnat : (BitVec.ofNat 3 i).toNat = i := by simp [Nat.mod_eq_of_lt hlt]
    have hne : r = BitVec.ofNat 3 i ↔ r.toNat = i := by rw [← BitVec.toNat_inj, hnat]
    have hzero : BitVec.ofNat 3 i ≠ 0 := fun h => Nat.ne_of_gt hpos (hnat.symm.trans (congrArg BitVec.toNat h))
    refine (Arch.preg_setPs v r l _ fun j hj => hl j (by simp [hj])).trans ?_
    rw [Arch.preg_setP, if_neg hzero]
    by_cases hi : r.toNat = i
    · simp [hne.2 hi, hnat]
    · simp [hne, hi]

theorem foldl_putP_eq (v : Word) : ∀ (l : List Nat) (s : State),
    l.foldl (fun t i => t.putP (BitVec.ofNat 3 i) (v.getLsbD i)) s = s.onArch fun a => a.setPs v l
  | [], _ => rfl
  | i :: l, s => foldl_putP_eq v l (s.putP (BitVec.ofNat 3 i) (v.getLsbD i))

theorem exec_movpsSet (a : Reg) (s : State) :
    exec (.movpsSet a) s = .next (s.onArch fun c => c.setPs (s.src a) [1, 2, 3, 4, 5, 6, 7]) :=
  congrArg Host.Outcome.next (foldl_putP_eq (s.src a) _ s)

/-- MOVPS.SET writes p1 to p7 (R104). -/
theorem movpsSet_writes (a : Reg) (s : State) : ∃ t, exec (.movpsSet a) s = .next t ∧ t.core.arch.preg 0 = true ∧
    (∀ r : Pred, r ≠ 0 → t.core.arch.preg r = (s.src a).getLsbD r.toNat) ∧ SameBytes s t ∧
      (t.onArch fun c => { c with p := s.core.arch.p }) = s := by
  have hmem : ∀ r : Pred, r ≠ 0 → r.toNat ∈ [1, 2, 3, 4, 5, 6, 7] := by decide
  refine ⟨_, exec_movpsSet a s, ?_, fun r hr => ?_, SameBytes.refl s, ?_⟩
  · exact Arch.preg_setPs _ 0 _ s.core.arch (by decide)
  · exact (Arch.preg_setPs _ r _ s.core.arch (by decide)).trans (if_pos (hmem r hr))
  · obtain ⟨m, hm⟩ := Arch.setPs_eq (s.src a) [1, 2, 3, 4, 5, 6, 7] s.core.arch
    rw [State.onArch, State.onArch, State.onCore, State.onCore, hm]

theorem predicateResults : Clause.PredicateResults := by
  intro s d p q a b i x all
  have hall : ∀ (f : Cond → Instr) (y : Word), (∀ c, exec (f c) s = .next (s.putP d (condHolds c x y))) → all f y := by
    intro f y h
    obtain ⟨hge, hle, hgen, hlen⟩ := condHolds_eq x y
    exact ⟨putsP_of_exec (h _), putsP_of_exec (h _), putsP_of_exec (h _), hge ▸ putsP_of_exec (h _), hle ▸ putsP_of_exec (h _),
      putsP_of_exec (h _), putsP_of_exec (h _), hgen ▸ putsP_of_exec (h _), hlen ▸ putsP_of_exec (h _), putsP_of_exec (h _)⟩
  exact ⟨hall (fun c => .cmp d a b c) (s.src b) fun _ => rfl, hall (fun c => .cmpi d a c i) (i.signExtend 64) fun _ => rfl,
    putsP_of_exec rfl, putsP_of_exec rfl, putsP_of_exec rfl, putsP_of_exec rfl,
    putsP_of_exec rfl, movpsSet_writes a s⟩

/-- Settles O2: both clauses. -/
theorem immediatesAndPredicates : Obligations.ImmediatesAndPredicates := ⟨constantsAndSelection, predicateResults⟩

end Sys2Proof.Machine
end

section
namespace Sys2Proof.Machine

/-! Branches (R72, R93, R109, R110, R112, R345). -/

theorem State.outside_of_notInLayer {s : State} {t : Word} (h : s.inLayer = false) : s.outside t = false := by
  unfold State.outside
  split
  · rw [h, Bool.false_and]
  · rfl

/-- A target beyond the sequence that runs is outside it (R345). -/
theorem State.outside_beyond {s : State} {l : Layer} {t : Word} (hf : s.firmware = false) (hl : s.core.sequence = some l)
    (ht : 8 * l.words.length ≤ t.toNat) : s.outside t = true := by
  simp [State.outside, State.inLayer, hl, hf, ht]

theorem State.jump_outside {s : State} {t : Word} (h : s.outside t = true) : s.jump t = s.fault cILLEGAL 0 := by
  rw [State.jump, if_pos h]
  rfl

theorem State.jumpTo_aligned {s : State} {t : Word} (h : t.toNat % 8 = 0) : s.jumpTo t = s.jump t := if_pos h
theorem State.jumpTo_misaligned {s : State} {t : Word} (h : t.toNat % 8 ≠ 0) : s.jumpTo t = s.fault cILLEGAL 0 := if_neg h

theorem exec_b (disp : BitVec 32) (s : State) : exec (.b disp) s = execB disp s := rfl
theorem exec_bcmp (a b : Reg) (c : Cond) (disp : BitVec 32) (s : State) : exec (.bcmp a b c disp) s = execBcmp a b c disp s := rfl
theorem exec_call (a : Reg) (disp : BitVec 32) (s : State) : exec (.call a disp) s = execCall a disp s := rfl
theorem exec_ret (a : Reg) (s : State) : exec (.ret a) s = execRet a s := rfl
theorem exec_bi (a : Reg) (s : State) : exec (.bi a) s = execBi a s := rfl
theorem exec_loop (a : Reg) (disp : BitVec 32) (s : State) : exec (.loop a disp) s = execLoop a disp s := rfl
theorem exec_bzm (disp : BitVec 32) (s : State) : exec (.bzm disp) s = execBzm disp s := rfl
theorem exec_la (a : Reg) (j : BitVec 46) (s : State) : exec (.la a j) s = execLa a j s := rfl

/-- The state of `BranchEffects` after a transfer of control to an address (R93). -/
def State.goTo (s : State) (t : Word) : State :=
  { s with core := { s.core with pc := t, hz := { s.core.hz with issueAt := s.dcc + 3 } } }

theorem State.jump_goTo {s : State} {t : Word} (h : s.outside t = false) : s.jump t = s.goTo t := s.jump_eq t h

/-- A register that is written before the jump. -/
theorem State.writesS_putS_jump {s : State} {t : Word} (a : Reg) (v : Word) (h : s.outside t = false) :
    WritesS a v (s.goTo t) ((s.putS a v).jump t) := by
  rw [State.jump_goTo (show (s.putS a v).outside t = false from h)]
  exact (s.goTo t).writesS_putS a v

theorem branchEffects : Clause.BranchEffects := by
  intro s a b c disp target go
  refine ⟨fun hout => ⟨?_, ?_, fun hgt => ⟨_, ?_, s.writesS_putS_jump a _ hout⟩, fun hf => ?_, fun hl => ⟨_, ?_, s.writesS_putS_jump a _ hout⟩⟩,
    fun hle => ⟨_, ?_, s.writesS_putS a 0⟩, fun hl hal => ⟨?_, ?_⟩⟩
  · exact congrArg Host.Outcome.next (State.jump_goTo hout)
  · rw [exec_bcmp, execBcmp, show s.jump (s.target disp) = go target from State.jump_goTo hout]
  · rw [exec_loop, execLoop, if_pos (decide_eq_true hgt)]
    rfl
  · rw [exec_bzm, execBzm, State.userOnly_user hf, show s.jump (s.target disp) = go target from State.jump_goTo hout]
  · rw [exec_call, execCall, State.notInLayer_out hl]
    rfl
  · rw [exec_loop, execLoop, if_neg (by simpa using hle)]
  · rw [exec_ret, execRet, State.notInLayer_out hl, State.jumpTo_aligned hal, State.jump_goTo (State.outside_of_notInLayer hl)]
    rfl
  · rw [exec_bi, execBi, State.notInLayer_out hl, State.jumpTo_aligned hal, State.jump_goTo (State.outside_of_notInLayer hl)]
    rfl

theorem branchFaults : Clause.BranchFaults := by
  intro s a b c disp j target
  refine ⟨fun hl hal => ⟨trapsWith_of_fault fun _ => ?_, trapsWith_of_fault fun _ => ?_⟩,
    fun hl => ⟨trapsWith_of_fault fun _ => ?_, trapsWith_of_fault fun _ => ?_, trapsWith_of_fault fun _ => ?_, trapsWith_of_fault fun _ => ?_⟩,
    fun l hs ht => ⟨trapsWith_of_fault fun hf => ?_, fun hc => trapsWith_of_fault fun hf => ?_, fun hm => trapsWith_of_fault fun hf => ?_⟩,
    abandonsWith_of_userOnly (exec_bzm disp s)⟩
  · rw [exec_ret, execRet, State.notInLayer_out hl, State.jumpTo_misaligned hal]
    rfl
  · rw [exec_bi, execBi, State.notInLayer_out hl, State.jumpTo_misaligned hal]
    rfl
  · rw [exec_call, execCall, State.notInLayer_in hl]
    rfl
  · rw [exec_ret, execRet, State.notInLayer_in hl]
    rfl
  · rw [exec_bi, execBi, State.notInLayer_in hl]
    rfl
  · rw [exec_la, execLa, if_pos (show (s.core.sequence.isSome && !s.firmware) = true from hl)]
    rfl
  · exact congrArg Host.Outcome.next (State.jump_outside (State.outside_beyond hf hs ht))
  · rw [exec_bcmp, execBcmp, if_pos hc]
    exact congrArg Host.Outcome.next (State.jump_outside (State.outside_beyond hf hs ht))
  · rw [exec_bzm, execBzm, State.userOnly_user hf, if_pos hm]
    exact congrArg Host.Outcome.next (State.jump_outside (State.outside_beyond hf hs ht))

/-- Settles O6: both clauses. -/
theorem branches : Obligations.Branches := ⟨branchEffects, branchFaults⟩

end Sys2Proof.Machine
end

section
namespace Sys2Proof.Machine

/-! AMO and AMOP (R84, R133, R134). -/

/-- An access that the handle grants is made. -/
theorem State.reach_granted {s k : State} {r : HReg} {o n : Nat} {right : Bool} (h : s.granted r o n right) :
    s.reach r o n k = .next k := by
  obtain ⟨-, -, -, hfar⟩ := h
  exact State.reach_next fun hr _ _ => (hfar hr).2.1

theorem State.throughHandle_granted {s k : State} {r : HReg} {o n : Nat} {right : Bool} (h : s.granted r o n right) :
    s.throughHandle r o n right k = k := by
  obtain ⟨hv, hfit, rfl, hfar⟩ := h
  have hnear : (s.firmware && r != 0) = false ∧ (r != 0 && s.fencedAt s.core.part ((s.srcH r).addr o)) = false := by
    by_cases hr : r = 0
    · simp [hr]
    · simp [hfar hr]
  rw [State.throughHandle, hnear.1, if_neg Bool.false_ne_true, hv, hfit]
  exact if_neg (hnear.2 ▸ Bool.false_ne_true)

/-- What has been added to the accesses outstanding is on its way to its slice. -/
theorem State.startsAccess_toSlice {s u : State} {a : Access} (n : Nat) (i : Instr) (hio : u.core.io = s.core.io ++ [a])
    (hagenda : u.agenda = s.agenda) (hdcc : u.dcc = s.dcc) (hq : Quiet s u) : StartsAccess a i n s (u.toSlice n i) := by
  have hmem : ∀ e, e ∈ (u.toSlice n i).agenda ↔ e = ⟨u.dcc + n + u.delay.1, ordSlice u.core.phys, u.me, i⟩ ∨ e ∈ s.agenda :=
    fun e => (Ev.mem_insert _ e _).trans (by rw [show u.delay.2.agenda = s.agenda from hagenda])
  exact ⟨hio, ⟨_, (hmem _).2 (.inl rfl), rfl, hdcc ▸ Nat.le_add_right _ _⟩, fun e he => (hmem e).2 (.inr he), hq⟩

/-- A pending destination is noted and changes nothing else. -/
theorem State.pending_eq (s : State) (d : PendDest) (due : Option Nat) : ∃ l, s.pending d due = s.onHz (fun z => { z with pend := l }) ∧
    (d.real = true → ⟨d, due⟩ ∈ l) := by
  cases hd : d.real with
  | true => exact ⟨⟨d, due⟩ :: s.core.hz.pend, by rw [State.pending, if_pos hd]; rfl, fun _ => by simp⟩
  | false => exact ⟨s.core.hz.pend, by rw [State.pending, if_neg (by simp [hd])]; rfl, fun h => by cases h⟩

theorem State.startAmo_starts (s : State) (d : Reg) (h : Handle) (o : Nat) (oc : Oc) (sz : Size) (sx : Bool) (fn : AmoFn) (y c : Word) :
    ∃ a, a.kind = .amo d sz sx fn ∧ a.pa = h.addr o ∧ a.oc = oc ∧ a.y = y ∧ a.c = c ∧
      StartsAccess a (.homeSliceApply a.id) 24 s (s.startAmo d h o oc sz sx fn y c) ∧
      (d ≠ 0 → (⟨.s d, none⟩ : Pend) ∈ (s.startAmo d h o oc sz sx fn y c).core.hz.pend) := by
  let a : Access := { s.newAccess (.amo d sz sx fn) oc (h.addr o) (sizeBytes sz) h with y := y, c := c }
  obtain ⟨l, hl, hmem⟩ := (s.addAccess a).pending_eq (.s d) none
  refine ⟨a, rfl, rfl, rfl, rfl, rfl, ?_, fun hd => ?_⟩
  · rw [State.startAmo, hl]
    exact State.startsAccess_toSlice _ _ rfl rfl rfl ⟨rfl, rfl, rfl, rfl, rfl, rfl, rfl, SameBytes.refl s⟩
  · rw [State.startAmo, hl]
    exact hmem (by simpa [PendDest.real] using hd)

theorem State.startAmop_starts (s : State) (h : Handle) (o : Nat) (oc : Oc) (sz : Size) (fn : AmoFn) (y : Word) :
    ∃ a, a.kind = .amop sz fn ∧ a.pa = h.addr o ∧ a.oc = oc ∧ a.y = y ∧
      StartsAccess a (.homeSliceApply a.id) 24 s (s.startAmop h o oc sz fn y) ∧ (s.startAmop h o oc sz fn y).core.hz = s.core.hz :=
  ⟨{ s.newAccess (.amop sz fn) oc (h.addr o) (sizeBytes sz) h with y := y }, rfl, rfl, rfl, rfl,
    State.startsAccess_toSlice _ _ rfl rfl rfl ⟨rfl, rfl, rfl, rfl, rfl, rfl, rfl, SameBytes.refl s⟩, rfl⟩

theorem State.logAtomic_eq {s : State} (c : Combine) (oc : Oc) (h : s.logEntries < 2048) : s.logAtomic c oc =
    s.onHeld fun x => { x with log := x.log ++ [c], classes := x.classes ++ [(lineOf c.addr, oc)] } := by
  have hlog : s.logCombine c = s.onHeld fun x => { x with log := x.log ++ [c] } := if_neg (Nat.not_le.2 h)
  rw [State.logAtomic, hlog, if_neg (by simp)]
  rfl

/-- Settles O12: in boundary code an access starts, in a region the log takes an entry. -/
theorem atomicStarts : Obligations.AtomicStarts := by
  intro s d b c m sz sx fn n o h _ hgr
  have hamo : s.inRegion = false → exec (.amo d m sz sx b c fn) s = .next (s.startAmo d h o m.oc sz sx fn (s.src b) (s.src c)) := fun hr => by
    rw [exec_amo]
    exact (State.reach_granted hgr).trans (by rw [State.boundaryOnly_boundary hr]; exact congrArg _ (State.throughHandle_granted hgr))
  have hamop : exec (.amop m sz b fn) s = .next (if s.inRegion then s.logAtomic ⟨h.addr o, .atomic fn sz (s.src b)⟩ m.oc
      else s.startAmop h o m.oc sz fn (s.src b)) := by
    rw [exec_amop]
    exact (State.reach_granted hgr).trans (congrArg _ (State.throughHandle_granted hgr))
  refine ⟨fun hr => ⟨?_, ?_⟩, fun hr hlog => ?_⟩
  · obtain ⟨a, hkind, hpa, hoc, hy, hc, hstart, hpend⟩ := s.startAmo_starts d h o m.oc sz sx fn (s.src b) (s.src c)
    exact ⟨_, a, hamo hr, hkind, hpa, hoc, hy, hc, hstart, hpend⟩
  · obtain ⟨a, hkind, hpa, hoc, hy, hstart, hhz⟩ := s.startAmop_starts h o m.oc sz fn (s.src b)
    exact ⟨_, a, by rw [hamop, hr]; rfl, hkind, hpa, hoc, hy, hstart, hhz⟩
  · rw [hamop, if_pos hr, State.logAtomic_eq _ _ hlog]
    rfl

end Sys2Proof.Machine
end

section
namespace Sys2Proof.Machine

/-! The integer ALU (R91, R92, R97, R98). -/

/-! Functions of latency 1 on whole words. -/

theorem aluRol_eq (x y : Word) :
    aluRol x y = if y.toNat % 64 = 0 then x else (x <<< (y.toNat % 64)) ||| (x >>> (64 - y.toNat % 64)) := by
  split
  next h => rw [aluRol, h, BitVec.shiftLeft_zero, BitVec.ushiftRight_eq_zero (Nat.le_refl 64), BitVec.or_zero]
  next => rfl

theorem aluRor_eq (x y : Word) :
    aluRor x y = if y.toNat % 64 = 0 then x else (x >>> (y.toNat % 64)) ||| (x <<< (64 - y.toNat % 64)) := by
  split
  next h => rw [aluRor, h, BitVec.ushiftRight_zero, BitVec.shiftLeft_eq_zero (Nat.le_refl 64), BitVec.or_zero]
  next => rfl

theorem aluMin_eq (x y : Word) : aluMin x y = if y.toInt < x.toInt then y else x := by
  simp only [aluMin, ← not_lt, ite_not]

theorem aluMinn_eq (x y : Word) : aluMinn x y = if y.toNat < x.toNat then y else x := by
  simp only [aluMinn, ← not_lt, ite_not]

/-- Operands of one value are one word, so that a maximum may take either. -/
theorem aluMax_eq (x y : Word) : aluMax x y = if x.toInt < y.toInt then y else x := by
  rcases lt_trichotomy x.toInt y.toInt with h | h | h
  · rw [aluMax, if_pos h.le, if_pos h]
  · rw [aluMax, if_pos h.le, if_neg h.not_lt, BitVec.toInt_inj.1 h]
  · rw [aluMax, if_neg h.not_ge, if_neg h.not_gt]

theorem aluMaxn_eq (x y : Word) : aluMaxn x y = if x.toNat < y.toNat then y else x := by
  rcases lt_trichotomy x.toNat y.toNat with h | h | h
  · rw [aluMaxn, if_pos h.le, if_pos h]
  · rw [aluMaxn, if_pos h.le, if_neg h.not_lt, BitVec.toNat_inj.1 h]
  · rw [aluMaxn, if_neg h.not_ge, if_neg h.not_gt]

theorem integerResults : Clause.IntegerResults := by
  intro s d a b x y n
  exact ⟨putsS_of_exec rfl, putsS_of_exec rfl, putsS_of_exec rfl, putsS_of_exec rfl, putsS_of_exec rfl, putsS_of_exec rfl,
    putsS_of_exec rfl, putsS_of_exec rfl, putsS_of_exec rfl, aluRol_eq x y ▸ putsS_of_exec rfl, aluRor_eq x y ▸ putsS_of_exec rfl,
    aluMin_eq x y ▸ putsS_of_exec rfl, aluMax_eq x y ▸ putsS_of_exec rfl, aluMinn_eq x y ▸ putsS_of_exec rfl,
    aluMaxn_eq x y ▸ putsS_of_exec rfl⟩

/-! Counts of zeros and ones, each count a number of at most 64. -/

theorem toNat_ofNat_count {n : Nat} (h : n ≤ 64) : (BitVec.ofNat 64 n).toNat = n := by
  rw [BitVec.toNat_ofNat, Nat.mod_eq_of_lt (by omega)]

/-- CLZ: the highest one of a word that is not zero stands at its logarithm. -/
theorem clzOf_spec (x : Word) : (clzOf x).toNat ≤ 64 ∧ (∀ i, i < (clzOf x).toNat → x.getMsbD i = false) ∧
    ((clzOf x).toNat < 64 → x.getMsbD (clzOf x).toNat = true) := by
  by_cases hx : x = 0
  · subst hx
    exact ⟨by decide, fun i _ => BitVec.getMsbD_zero, fun h => absurd h (by decide)⟩
  · have hne : x.toNat ≠ 0 := fun h => hx (BitVec.eq_of_toNat_eq h)
    have hlog : x.toNat.log2 < 64 := (Nat.log2_lt hne).2 x.isLt
    have hclz : (clzOf x).toNat = 63 - x.toNat.log2 := by rw [clzOf, if_neg hx, toNat_ofNat_count (by omega)]
    rw [hclz]
    refine ⟨by omega, fun i hi => ?_, fun _ => ?_⟩
    · have hlt : x.toNat < 2 ^ (64 - 1 - i) := Nat.lt_of_lt_of_le Nat.lt_log2_self (Nat.pow_le_pow_right (by decide) (by omega))
      rw [BitVec.getMsbD_eq_getLsbD, BitVec.getLsbD, Nat.testBit_lt_two_pow hlt, Bool.and_false]
    · rw [BitVec.getMsbD_eq_getLsbD, BitVec.getLsbD, show 64 - 1 - (63 - x.toNat.log2) = x.toNat.log2 by omega, Nat.testBit_log2 hne,
        Bool.and_true, decide_eq_true (by omega)]

theorem ctzCount_spec : ∀ k n, ctzCount k n ≤ k ∧ (∀ i, i < ctzCount k n → n.testBit i = false) ∧
    (ctzCount k n < k → n.testBit (ctzCount k n) = true)
  | 0, _ => ⟨Nat.le_refl 0, fun _ h => absurd h (Nat.not_lt_zero _), fun h => absurd h (Nat.not_lt_zero _)⟩
  | k + 1, n => by
    rw [ctzCount]
    split
    next hodd => exact ⟨Nat.zero_le _, fun _ h => absurd h (Nat.not_lt_zero _), fun _ => by rw [Nat.testBit_zero, decide_eq_true hodd]⟩
    next heven =>
      obtain ⟨hle, hzeros, hone⟩ := ctzCount_spec k (n / 2)
      rw [Nat.add_comm 1]
      refine ⟨Nat.succ_le_succ hle, fun i hi => ?_, fun h => ?_⟩
      · cases i with
        | zero => rw [Nat.testBit_zero, decide_eq_false heven]
        | succ i => rw [Nat.testBit_succ, hzeros i (Nat.lt_of_succ_lt_succ hi)]
      · rw [Nat.testBit_succ, hone (Nat.lt_of_succ_lt_succ h)]

theorem ctzOf_spec (x : Word) : (ctzOf 64 x.toNat).toNat ≤ 64 ∧ (∀ i, i < (ctzOf 64 x.toNat).toNat → x.getLsbD i = false) ∧
    ((ctzOf 64 x.toNat).toNat < 64 → x.getLsbD (ctzOf 64 x.toNat).toNat = true) := by
  have hspec := ctzCount_spec 64 x.toNat
  rw [ctzOf, toNat_ofNat_count hspec.1]
  exact hspec

theorem popCount_eq_countP : ∀ k n, popCount k n = (List.range k).countP fun i => n.testBit i
  | 0, _ => rfl
  | k + 1, n => by
    have htail : ((fun i => n.testBit i) ∘ Nat.succ) = fun i => (n / 2).testBit i := funext fun i => Nat.testBit_succ n i
    have hhead : (if n.testBit 0 = true then 1 else 0) = n % 2 := by
      simp only [Nat.testBit_zero, decide_eq_true_eq]
      split <;> omega
    rw [popCount, popCount_eq_countP k, List.range_succ_eq_map, List.countP_cons, List.countP_map, htail, hhead, Nat.add_comm]

theorem popcOf_eq_countP (x : Word) : (popcOf 64 x.toNat).toNat = (List.range 64).countP fun i => x.getLsbD i := by
  have hle : popCount 64 x.toNat ≤ 64 := by
    rw [popCount_eq_countP]
    exact List.countP_le_length.trans_eq List.length_range
  rw [popcOf, toNat_ofNat_count hle, popCount_eq_countP]
  rfl

/-! Bytes in the other order. -/

theorem leNat_div_mod : ∀ (k : Nat) (bs : List Byte), leNat bs / 256 ^ k % 256 = (bs.getD k 0).toNat
  | k, [] => by rw [leNat, Nat.zero_div]; rfl
  | 0, b :: bs => by
    have := b.isLt
    rw [leNat, List.getD_cons_zero]
    omega
  | k + 1, b :: bs => by
    have hrest : (b.toNat + 256 * leNat bs) / 256 = leNat bs := by
      have := b.isLt
      omega
    rw [leNat, List.getD_cons_succ, Nat.pow_succ', ← Nat.div_div_eq_div_mul, hrest, leNat_div_mod k bs]

theorem extractLsb'_leWord (bs : List Byte) {k : Nat} (hk : k < 8) : (leWord bs).extractLsb' (8 * k) 8 = bs.getD k 0 := by
  refine BitVec.eq_of_toNat_eq ?_
  rw [BitVec.extractLsb'_toNat, leWord, BitVec.toNat_ofNat, Nat.shiftRight_eq_div_pow, ← leNat_div_mod]
  interval_cases k <;> omega

theorem aluBswap_bytes (x : Word) {k : Nat} (hk : k < 8) :
    (aluBswap x).extractLsb' (8 * k) 8 = x.extractLsb' (56 - 8 * k) 8 := by
  have hlen : (leBytes 8 x.toNat).length = 8 := length_leBytes 8 _
  calc (aluBswap x).extractLsb' (8 * k) 8
      = (leBytes 8 x.toNat).reverse.getD k 0 := extractLsb'_leWord _ hk
    _ = (leBytes 8 x.toNat).getD (7 - k) 0 := by rw [List.getD_reverse _ (by omega), hlen]
    _ = (leWord (leBytes 8 x.toNat)).extractLsb' (8 * (7 - k)) 8 := (extractLsb'_leWord _ (by omega)).symm
    _ = x.extractLsb' (56 - 8 * k) 8 := by rw [leWord_leBytes, Nat.mul_sub]

/-! Extensions of the low bits. -/

theorem toSigned_succ_eq_toInt (w n : Nat) : toSigned (w + 1) n = (BitVec.ofNat (w + 1) n).toInt := by
  rw [BitVec.toInt_eq_toNat_cond, BitVec.toNat_ofNat, toSigned, Nat.add_sub_cancel, Nat.pow_succ]
  split <;> split <;> omega

theorem aluSext_bits (x y : Word) {i : Nat} (hi : i < 64) : (aluSext x y).getLsbD i = x.getLsbD (Nat.min i (y.toNat % 64)) := by
  have hext : aluSext x y = (BitVec.ofNat (y.toNat % 64 + 1) x.toNat).signExtend 64 := by rw [aluSext, toSigned_succ_eq_toInt]; rfl
  rw [hext, BitVec.getLsbD_signExtend, decide_eq_true hi, Bool.true_and]
  split
  next h =>
    rw [BitVec.getLsbD_ofNat, decide_eq_true h, Bool.true_and]
    exact congrArg x.getLsbD (Nat.min_eq_left (Nat.le_of_lt_succ h)).symm
  next h =>
    rw [BitVec.msb_eq_getLsbD_last, BitVec.getLsbD_ofNat, Nat.add_sub_cancel, decide_eq_true (Nat.lt_succ_self _), Bool.true_and]
    exact congrArg x.getLsbD (Nat.min_eq_right (by omega)).symm

theorem aluZext_bits (x y : Word) {i : Nat} (hi : i < 64) :
    (aluZext x y).getLsbD i = (decide (i ≤ y.toNat % 64) && x.getLsbD i) := by
  rw [aluZext, BitVec.getLsbD_ofNat, decide_eq_true hi, Bool.true_and, Nat.testBit_mod_two_pow]
  simp only [Nat.lt_succ_iff]
  rfl

theorem bitCountResults : Clause.BitCountResults := by
  intro s d a b x n
  exact ⟨⟨_, putsS_of_exec rfl, clzOf_spec x⟩, ⟨_, putsS_of_exec rfl, ctzOf_spec x⟩, ⟨_, putsS_of_exec rfl, popcOf_eq_countP x⟩,
    ⟨_, putsS_of_exec rfl, fun _ => aluBswap_bytes x⟩, ⟨_, putsS_of_exec rfl, fun _ => aluSext_bits x (s.src b)⟩,
    ⟨_, putsS_of_exec rfl, fun _ => aluZext_bits x (s.src b)⟩⟩

/-! Products and quotients in flight. -/

theorem sends_of_exec {i : Instr} {d : Dest} {lat : Nat} {v : Word} {fl : BitVec 8} {s : State}
    (h : exec i s = .next (s.later d lat v fl)) : Sends i d lat v fl s :=
  ⟨_, h, s.inFlight_later d lat v fl⟩

/-- The identity of R98: the remainder is what the product of divisor and quotient leaves, a division by zero among them. -/
theorem aluRem_eq (x y : Word) : aluRem x y = x - y * aluDiv x y := by
  by_cases hy : y = 0
  · rw [aluRem, if_pos hy, hy, zero_mul, sub_zero]
  · rw [aluRem, aluDiv, if_neg hy, if_neg hy]
    refine eq_sub_of_add_eq ?_
    calc BitVec.ofInt 64 (x.toInt.tmod y.toInt) + y * BitVec.ofInt 64 (x.toInt.tdiv y.toInt)
        = BitVec.ofInt 64 (x.toInt.tmod y.toInt + y.toInt * x.toInt.tdiv y.toInt) := by
          rw [BitVec.ofInt_add, BitVec.ofInt_mul, BitVec.ofInt_toInt]
      _ = x := by rw [Int.tmod_add_mul_tdiv, BitVec.ofInt_toInt]

theorem aluRemn_eq (x y : Word) : aluRemn x y = x - y * aluDivn x y := by
  by_cases hy : y = 0
  · rw [aluRemn, if_pos hy, hy, zero_mul, sub_zero]
  · rw [aluRemn, aluDivn, if_neg hy, if_neg hy]
    refine eq_sub_of_add_eq ?_
    calc BitVec.ofNat 64 (x.toNat % y.toNat) + y * BitVec.ofNat 64 (x.toNat / y.toNat)
        = BitVec.ofNat 64 (x.toNat % y.toNat + y.toNat * (x.toNat / y.toNat)) := by
          rw [BitVec.ofNat_add, BitVec.ofNat_mul, BitVec.ofNat_toNat, BitVec.setWidth_eq]
      _ = x := by rw [Nat.mod_add_div, BitVec.ofNat_toNat, BitVec.setWidth_eq]

theorem productAndQuotientInFlight : Clause.ProductAndQuotientInFlight := by
  intro s d a b i x y q u busy
  have hrem : aluRem x y = x - y * q := aluRem_eq x y
  have hremn : aluRemn x y = x - y * u := aluRemn_eq x y
  exact ⟨sends_of_exec rfl, sends_of_exec rfl, sends_of_exec rfl, sends_of_exec rfl, ⟨_, rfl, busy.inFlight_later _ _ _ _⟩,
    ⟨_, rfl, busy.inFlight_later _ _ _ _⟩, ⟨_, rfl, hrem ▸ busy.inFlight_later _ _ _ _⟩, ⟨_, rfl, hremn ▸ busy.inFlight_later _ _ _ _⟩⟩

/-- Settles O1: the functions on whole words, those bit by bit, and the results in flight. -/
theorem aluResults : Obligations.AluResults := ⟨integerResults, bitCountResults, productAndQuotientInFlight⟩

end Sys2Proof.Machine
end

section
namespace Sys2Proof.Machine

/-! LD (R115, R117, R128 to R131). -/

/-- A key that is put into a table is found, and every other key as before, whether or not the keys rise. -/
theorem SMap.find_put_any {α : Type} (k i : Nat) (v : α) (m : SMap α) : (m.put k v).find i = if i = k then some v else m.find i := by
  induction m with
  | nil => grind [SMap.put, SMap.find]
  | cons e m ih =>
    obtain ⟨j, w⟩ := e
    rcases Nat.lt_trichotomy k j with h | h | h <;> grind [SMap.put, SMap.find]

/-- Every line that a range touches is marked. -/
theorem State.markRead_marks {s : State} (h : s.inRegion = true) (o n : Nat) {i : Nat} (hi : i ∈ linesIn o n) :
    (SMap.find i (s.markRead o n).core.ls.r).isSome = true := by
  have hstep : ∀ (j : Nat) (r : SMap Nat), i = j ∨ (SMap.find i r).isSome = true →
      (SMap.find i (if (SMap.find j r).isSome then r else SMap.put j s.cyc r)).isSome = true := by
    intro j r hr
    split
    next hj => exact hr.elim (fun h => h ▸ hj) id
    next =>
      rw [SMap.find_put_any]
      split
      next => rfl
      next hij => exact hr.resolve_left hij
  have key : ∀ (l : List Nat) (r : SMap Nat), i ∈ l ∨ (SMap.find i r).isSome = true →
      (SMap.find i (l.foldl (fun m i => if (SMap.find i m).isSome then m else SMap.put i s.cyc m) r)).isSome = true := by
    intro l
    induction l with
    | nil => exact fun r h => h.resolve_left List.not_mem_nil
    | cons j l ih =>
      intro r hr
      refine ih _ (hr.elim (fun h => ?_) fun h => .inr (hstep j r (.inr h)))
      exact (List.mem_cons.1 h).elim (fun h => .inr (hstep j r (.inl h))) .inl
  rw [State.markRead, if_pos h]
  exact key _ _ (.inl hi)

/-- The post-increment writes the offset's register, and nothing where none is asked for. -/
theorem State.postInc_writes {s t : State} (hpre : t.core.pre = s.core.pre) (inc : Bool) (x : Reg) (n : Nat) :
    if inc then WritesS x (s.src x + BitVec.ofNat 64 n) t (t.postInc inc x n) else t.postInc inc x n = t := by
  have hsrc : t.src x = s.src x := congrArg (Arch.sreg · x) hpre
  cases inc with
  | true => exact hsrc ▸ t.writesS_putS x _
  | false => rfl

/-- The post-increment changes registers alone. -/
theorem State.postInc_ls (s : State) (inc : Bool) (x : Reg) (n : Nat) : (s.postInc inc x n).core.ls = s.core.ls := by
  cases inc <;> rfl

/-- More work in the agenda. -/
theorem StartsAccess.at_ {a : Access} {i : Instr} {n : Nat} {s t : State} (h : StartsAccess a i n s t) (d o : Nat) (g : Target) (j : Instr) :
    StartsAccess a i n s (t.at_ d o g j) := by
  obtain ⟨hio, ⟨e, he, hdue⟩, hkeep, hq⟩ := h
  exact ⟨hio, ⟨e, (Ev.mem_insert _ _ _).2 (.inr he), hdue⟩, fun e he => (Ev.mem_insert _ _ _).2 (.inr (hkeep e he)), hq⟩

/-- No poisoned word is read where it is stored, if the reader's own bytes cover each of them. -/
theorem find?_readWords_none {own : Nat → Bool} {poison : List Nat} {o n : Nat}
    (h : ∀ w ∈ poison, ∀ i, i < n → (o + i) / 8 * 8 = w → own (o + i) = true) :
    (readWords own o n).find? (fun w => poison.contains w) = none := by
  refine List.find?_eq_none.2 fun w hw hp => ?_
  obtain ⟨i, hi, hb⟩ := List.any_eq_true.1 (List.mem_filter.1 hw).2
  obtain ⟨hword, hown⟩ := Bool.and_eq_true_iff.1 hb
  rw [h w (List.contains_iff_mem.1 hp) i (List.mem_range.1 hi) (beq_iff_eq.1 hword)] at hown
  cases hown

/-- A granted LD is made, through the window or to a home slice. -/
theorem ld_granted {s : State} {d : Reg} {m : MemOp} {sz : Size} {sx inc : Bool}
    (h : s.granted m.h (s.memOff m) (sizeBytes sz) (s.srcH m.h).rd) : exec (.ld d m sz sx inc) s =
      .next ((if m.h = 0 then s.localLoad d (s.memOff m) m.oc sz sx else s.farLoad d (s.srcH m.h) (s.memOff m) m.oc sz sx).postInc inc m.x
        (sizeBytes sz)) := by
  rw [exec_ld]
  exact (State.reach_granted h).trans (congrArg _ (State.throughHandle_granted h))

/-- The first poisoned word that an LD through the window reads where it is stored (R117, R338). -/
def State.localBad (s : State) (o n : Nat) : Option Nat :=
  (readWords (fun i => (SMap.find i s.core.held.sbLs).isSome) o n).find? fun w => s.core.ls.poison.contains w

/-- The access of an LD through the window, which has its value at issue. -/
def State.localAccess (s : State) (d : Reg) (o : Nat) (oc : Oc) (sz : Size) (sx : Bool) : Access :=
  let bad := s.localBad o (sizeBytes sz)
  { (s.markRead o (sizeBytes sz)).newAccess (.ld d sz sx) oc o (sizeBytes sz) Handle.local with
    performed := true, value := if bad.isSome then none else some ((List.range (sizeBytes sz)).map fun i => s.localByte (o + i))
    poison := bad, back := s.dcc + 4 }

/-- An LD of the user context through the window: its lines are marked, its access is noted, s(d) is pending, and the value is due. -/
theorem State.localLoad_user {s : State} (hf : s.firmware = false) (d : Reg) (o : Nat) (oc : Oc) (sz : Size) (sx : Bool) :
    let a := s.localAccess d o oc sz sx
    s.localLoad d o oc sz sx = ((((s.markRead o (sizeBytes sz)).addAccess a).pending (.s d) (some (s.dcc + 4))).at_ (s.dcc + 4) ordResult
      s.me (.ldReturn a.id)) := by
  unfold State.localLoad
  rw [hf]
  rfl

/-- An access outstanding more, and its destination pending. -/
theorem State.addAccess_pending_eq (s : State) (a : Access) (d : Reg) (due : Option Nat) : ∃ l,
    (s.addAccess a).pending (.s d) due = { s with serial := s.serial + 1, core := { s.core with
      io := s.core.io ++ [a], hz := { s.core.hz with pend := l } } } ∧ (d ≠ 0 → (⟨.s d, due⟩ : Pend) ∈ l) := by
  obtain ⟨l, hl, hmem⟩ := (s.addAccess a).pending_eq (.s d) due
  exact ⟨l, hl, fun hd => hmem (by simpa [PendDest.real] using hd)⟩

theorem State.localLoad_starts {s : State} (hf : s.firmware = false) (d : Reg) (o : Nat) (oc : Oc) (sz : Size) (sx : Bool) :
    let a := s.localAccess d o oc sz sx
    let t := s.localLoad d o oc sz sx
    StartsAccess a (.ldReturn a.id) 4 (s.markRead o (sizeBytes sz)) t ∧ (d ≠ 0 → (⟨.s d, some (s.dcc + 4)⟩ : Pend) ∈ t.core.hz.pend) ∧
      t.core.ls = (s.markRead o (sizeBytes sz)).core.ls ∧ t.core.pre = s.core.pre := by
  intro a t
  obtain ⟨r, hr⟩ := s.markRead_eq o (sizeBytes sz)
  obtain ⟨l, hl, hmem⟩ := (s.markRead o (sizeBytes sz)).addAccess_pending_eq a d (some (s.dcc + 4))
  have ht : t = _ := (State.localLoad_user hf d o oc sz sx).trans (congrArg (State.at_ · _ _ _ _) hl)
  rw [ht, show (s.localAccess d o oc sz sx) = a from rfl]
  clear_value t a
  rw [hr]
  exact ⟨⟨rfl, ⟨_, (Ev.mem_insert _ _ _).2 (.inl rfl), rfl, Nat.le_refl _⟩, fun e he => (Ev.mem_insert _ _ _).2 (.inr he),
    rfl, rfl, rfl, rfl, rfl, rfl, rfl, SameBytes.refl _⟩, hmem, rfl, rfl⟩

/-- The value of an LD through the window, where no poisoned word matters. -/
theorem State.localAccess_value {s : State} {o : Nat} {sz : Size}
    (h : ∀ w ∈ s.core.ls.poison, ∀ i, i < sizeBytes sz → (o + i) / 8 * 8 = w → (SMap.find (o + i) s.core.held.sbLs).isSome = true)
    (d : Reg) (oc : Oc) (sx : Bool) :
    (s.localAccess d o oc sz sx).value = some ((List.range (sizeBytes sz)).map fun i => s.localByte (o + i)) := by
  have hbad : s.localBad o (sizeBytes sz) = none := find?_readWords_none h
  rw [State.localAccess, hbad]
  rfl

/-- The access of an LD to a home slice. -/
def State.farAccess (s : State) (d : Reg) (h : Handle) (o : Nat) (oc : Oc) (sz : Size) (sx : Bool) : Access :=
  { s.newAccess (.ld d sz sx) oc (h.addr o) (sizeBytes sz) h with ovl := if s.inRegion then s.ownBytes (h.addr o) (sizeBytes sz) else [] }

theorem State.farLoad_starts (s : State) (d : Reg) (h : Handle) (o : Nat) (oc : Oc) (sz : Size) (sx : Bool) :
    let a := s.farAccess d h o oc sz sx
    let t := s.farLoad d h o oc sz sx
    StartsAccess a (.ldReturn a.id) 24 s t ∧ (d ≠ 0 → (⟨.s d, none⟩ : Pend) ∈ t.core.hz.pend) ∧ t.core.pre = s.core.pre := by
  intro a t
  obtain ⟨l, hl, hmem⟩ := s.addAccess_pending_eq a d none
  obtain ⟨u, hu⟩ : ∃ u, u = ((s.addAccess a).pending (.s d) none).toSlice 24 (.ldReturn a.id) := ⟨_, rfl⟩
  have ht : t = if s.strict then u.at_ (s.dcc + returnTime) (ordLate s.core.phys) s.me (.ldReturn a.id) else u := by
    rw [hu]
    rfl
  rw [hl] at hu
  have hstart : StartsAccess a (.ldReturn a.id) 24 s u :=
    hu ▸ State.startsAccess_toSlice _ _ rfl rfl rfl ⟨rfl, rfl, rfl, rfl, rfl, rfl, rfl, SameBytes.refl s⟩
  have hcore : (d ≠ 0 → (⟨.s d, none⟩ : Pend) ∈ u.core.hz.pend) ∧ u.core.pre = s.core.pre := by
    rw [hu]
    exact ⟨hmem, rfl⟩
  rw [ht]
  split
  · exact ⟨hstart.at_ _ _ _ _, hcore⟩
  · exact ⟨hstart, hcore⟩

theorem loadIsOutstanding : Clause.LoadIsOutstanding := by
  intro s d m sz sx inc n o byte z hf hgr
  have hexec : exec (.ld d m sz sx inc) s = .next ((if m.h = 0 then s.localLoad d o m.oc sz sx
      else s.farLoad d (s.srcH m.h) o m.oc sz sx).postInc inc m.x n) := ld_granted hgr
  by_cases h0 : m.h = 0
  · obtain ⟨hstart, hpend, hls, hpre⟩ := State.localLoad_starts hf d o m.oc sz sx
    rw [if_pos h0] at hexec
    have hz : z = s.markRead o n := if_pos h0
    rw [if_pos h0, if_pos h0, hz]
    refine ⟨_, _, s.localAccess d o m.oc sz sx, hexec, ?_, ?_, ?_, hstart, fun h => absurd h0 h, fun _ => ?_, fun _ hr i hi => ?_,
      fun hr => State.markRead_boundary hr o n, hpend, State.postInc_writes hpre inc m.x n⟩
    · rfl
    · obtain ⟨r, hr⟩ := s.markRead_eq o n
      show (s.markRead o n).dcc = s.dcc
      rw [hr]
      rfl
    · rfl
    · exact ⟨rfl, rfl, rfl, rfl, fun h => State.localAccess_value h d m.oc sx⟩
    · rw [State.postInc_ls, hls]
      exact State.markRead_marks hr o n hi
  · obtain ⟨hstart, hpend, hpre⟩ := s.farLoad_starts d (s.srcH m.h) o m.oc sz sx
    rw [if_neg h0] at hexec
    have hz : z = s := if_neg h0
    rw [if_neg h0, if_neg h0, hz]
    exact ⟨_, _, s.farAccess d (s.srcH m.h) o m.oc sz sx, hexec, rfl, rfl, rfl, hstart, fun _ => ⟨rfl, rfl, rfl⟩, fun h => absurd h h0,
      fun h => absurd h h0, fun _ => rfl, hpend, State.postInc_writes hpre inc m.x n⟩

/-- The bits of bytes, the lowest byte first. -/
theorem testBit_leNat (bs : List Byte) (i : Nat) : (leNat bs).testBit i = (bs.getD (i / 8) 0).getLsbD (i % 8) := by
  have h : leNat bs / 2 ^ (8 * (i / 8)) % 2 ^ 8 = (bs.getD (i / 8) 0).toNat := by
    rw [Nat.pow_mul]
    exact leNat_div_mod (i / 8) bs
  rw [BitVec.getLsbD, ← h, Nat.testBit_mod_two_pow, Nat.testBit_div_two_pow, decide_eq_true (Nat.mod_lt i (by decide)), Bool.true_and,
    Nat.mod_add_div]

theorem sizeBytes_pos (sz : Size) : 0 < sizeBytes sz := by cases sz <;> decide

/-- The bits of a value that is read: those of its bytes, and above them zeros or copies of the sign. -/
theorem extend_getLsbD (sx : Bool) (sz : Size) (bs : List Byte) {i : Nat} (hi : i < 64) : (extend sx sz (leNat bs)).getLsbD i =
    if i < 8 * sizeBytes sz then (bs.getD (i / 8) 0).getLsbD (i % 8) else sx && (bs.getD (sizeBytes sz - 1) 0).getLsbD 7 := by
  have hpos := sizeBytes_pos sz
  obtain ⟨w, hw⟩ : ∃ w, 8 * sizeBytes sz = w + 1 := ⟨8 * sizeBytes sz - 1, by omega⟩
  have hlast : (bs.getD (sizeBytes sz - 1) 0).getLsbD 7 = (leNat bs).testBit w := by
    rw [testBit_leNat, show w / 8 = sizeBytes sz - 1 by omega, show w % 8 = 7 by omega]
  rw [← testBit_leNat, hlast, extend, hw]
  cases sx with
  | false =>
    rw [if_neg Bool.false_ne_true, BitVec.getLsbD_ofNat, decide_eq_true hi, Bool.true_and, Nat.testBit_mod_two_pow]
    split <;> simp [*]
  | true =>
    rw [if_pos rfl, toSigned_succ_eq_toInt]
    show ((BitVec.ofNat (w + 1) (leNat bs)).signExtend 64).getLsbD i = _
    rw [BitVec.getLsbD_signExtend, decide_eq_true hi, Bool.true_and, BitVec.msb_eq_getLsbD_last, BitVec.getLsbD_ofNat, BitVec.getLsbD_ofNat]
    split <;> simp [*]

/-- An LD of the firmware context through the window: the value is in flight, and goes to the Cruiser with it. -/
theorem State.localLoad_firmware {s : State} (hf : s.firmware = true) (hr : s.inRegion = false) {o : Nat} {sz : Size}
    (hp : ∀ w ∈ s.core.ls.poison, ∀ i, i < sizeBytes sz → (o + i) / 8 * 8 ≠ w) (d : Reg) (oc : Oc) (sx : Bool) :
    s.localLoad d o oc sz sx = (s.later (.s d) 4 (extend sx sz (leNat ((List.range (sizeBytes sz)).map fun i => s.localByte (o + i)))) 0).relayAt
      (s.dcc + 4) true (.s d (extend sx sz (leNat ((List.range (sizeBytes sz)).map fun i => s.localByte (o + i))))) := by
  have hbad : s.localBad o (sizeBytes sz) = none := find?_readWords_none fun w hw i hi h => absurd h (hp w hw i hi)
  unfold State.localBad at hbad
  unfold State.localLoad
  dsimp only
  rw [hbad, hf, State.markRead_boundary hr]
  rfl

/-- A result in flight that goes to the Cruiser too. -/
theorem State.inFlight_relayAt (s : State) (d : Dest) (lat : Nat) (v : Word) (fl : BitVec 8) (t : Nat) (fw : Bool) (g : Given) :
    InFlight d lat v fl (s.relayAt t fw g) ((s.later d lat v fl).relayAt t fw g) := by
  have h : (s.later d lat v fl).relayAt t fw g = (s.relayAt t fw g).later d lat v fl := by
    unfold State.later State.pending
    split <;> rfl
  rw [h]
  exact State.inFlight_later _ d lat v fl

theorem firmwareLoad : Clause.FirmwareLoad := by
  intro s d m sz sx inc n o byte h0 hf hr hgr hp
  let v := extend sx sz (leNat ((List.range n).map fun i => s.localByte (o + i)))
  have hexec : exec (.ld d m sz sx inc) s = .next ((s.localLoad d o m.oc sz sx).postInc inc m.x n) :=
    (ld_granted (by rw [h0]; exact hgr)).trans (by rw [if_pos h0]; rfl)
  rw [State.localLoad_firmware hf hr hp] at hexec
  have hbyte : ∀ k, k < n → ((List.range n).map fun i => s.localByte (o + i)).getD k 0 = byte k := fun k hk => by
    simp [List.getD_eq_getElem?_getD, hk, State.localByte, byte]
  refine ⟨_, _, v, hexec, s.inFlight_relayAt (.s d) 4 v 0 (s.dcc + 4) true (.s d v), fun i hi => ?_, State.postInc_writes ?_ inc m.x n⟩
  · rw [extend_getLsbD sx sz _ hi]
    split
    next h => rw [hbyte _ (by omega)]
    next h => rw [hbyte _ (Nat.sub_lt (sizeBytes_pos sz) Nat.one_pos)]
  · unfold State.later State.pending
    split <;> rfl

/-- Settles O9: through the window and to a home slice, and in the firmware context. -/
theorem loadsStart : Obligations.LoadsStart := ⟨loadIsOutstanding, firmwareLoad⟩

end Sys2Proof.Machine
end

section
namespace Sys2Proof.Machine

/-! ST (R116, R128, R129, R131). -/

theorem getD_leBytes : ∀ (n v i : Nat), i < n → (leBytes n v).getD i 0 = BitVec.ofNat 8 (v / 256 ^ i)
  | n + 1, v, 0, _ => by rw [leBytes, List.getD_cons_zero, Nat.pow_zero, Nat.div_one]
  | n + 1, v, i + 1, h => by
    rw [leBytes, List.getD_cons_succ, getD_leBytes n (v / 256) i (Nat.lt_of_succ_lt_succ h), Nat.div_div_eq_div_mul, ← Nat.pow_succ']

/-- The bytes of a word, the lowest first. -/
theorem getD_leBytes_word (x : Word) {n i : Nat} (h : i < n) : (leBytes n x.toNat).getD i 0 = x.extractLsb' (8 * i) 8 := by
  rw [getD_leBytes n _ i h]
  refine BitVec.eq_of_toNat_eq ?_
  rw [BitVec.extractLsb'_toNat, BitVec.toNat_ofNat, Nat.shiftRight_eq_div_pow, Nat.pow_mul]

/-- A granted ST is made: into the store buffer in a region, through the window or to a home slice in boundary code. -/
theorem st_granted {s : State} {d : Reg} {m : MemOp} {sz : Size} {inc : Bool}
    (h : s.granted m.h (s.memOff m) (sizeBytes sz) (s.srcH m.h).wr) : exec (.st d m sz inc) s =
      .next ((if s.inRegion then s.holdStore m.h ((s.srcH m.h).addr (s.memOff m)) m.oc (leBytes (sizeBytes sz) (s.src d).toNat)
        else if m.h = 0 then s.localWrite (s.memOff m) (leBytes (sizeBytes sz) (s.src d).toNat)
        else s.farStore (s.srcH m.h) (s.memOff m) m.oc (leBytes (sizeBytes sz) (s.src d).toNat)).postInc inc m.x (sizeBytes sz)) := by
  rw [exec_st]
  exact (State.reach_granted h).trans (congrArg _ (State.throughHandle_granted h))

/-- What the entry holds after an ST: the window's bytes stand apart from those of memory, whose line keeps its class. -/
def State.heldWith (s : State) (r : HReg) (a : Nat) (oc : Oc) (bs : List Byte) : Held :=
  { s.core.held with
    sb := if r = 0 then s.core.held.sb else putBytes (fun b => (⟨b, s.dcc⟩ : HByte)) a bs s.core.held.sb
    sbLs := if r = 0 then putBytes id a bs s.core.held.sbLs else s.core.held.sbLs
    classes := if r = 0 then s.core.held.classes else s.core.held.classes ++ [(lineOf a, oc)] }

/-- The store buffer takes an ST, or overflows. -/
theorem State.holdStore_eq (s : State) (r : HReg) (a : Nat) (oc : Oc) (bs : List Byte) : s.holdStore r a oc bs =
    if 1024 < granules (s.heldWith r a oc bs).sb + granules (s.heldWith r a oc bs).sbLs then s.fault cREGION_OVERFLOW (BitVec.ofNat 64 a)
    else s.onHeld fun _ => s.heldWith r a oc bs := by
  have hheld : (if r = 0 then { s.core.held with sbLs := putBytes id a bs s.core.held.sbLs }
      else { s.core.held with
        sb := putBytes (fun b => (⟨b, s.dcc⟩ : HByte)) a bs s.core.held.sb, classes := s.core.held.classes ++ [(lineOf a, oc)] }) =
      s.heldWith r a oc bs := by
    unfold State.heldWith
    split <;> rfl
  rw [State.holdStore, ← hheld]
  rfl

theorem State.holdStore_holds {s : State} {r : HReg} {a : Nat} {oc : Oc} {bs : List Byte}
    (h : granules (s.heldWith r a oc bs).sb + granules (s.heldWith r a oc bs).sbLs ≤ 1024) :
    s.holdStore r a oc bs = s.onHeld fun _ => s.heldWith r a oc bs := by
  rw [State.holdStore_eq, if_neg (Nat.not_lt.2 h)]

theorem State.holdStore_overflows {s : State} {r : HReg} {a : Nat} {oc : Oc} {bs : List Byte}
    (h : 1024 < granules (s.heldWith r a oc bs).sb + granules (s.heldWith r a oc bs).sbLs) :
    s.holdStore r a oc bs = s.fault cREGION_OVERFLOW (BitVec.ofNat 64 a) := by
  rw [State.holdStore_eq, if_pos h]

/-- An ST in boundary code through another handle. -/
theorem State.farStore_starts (s : State) (h : Handle) (o : Nat) (oc : Oc) (bs : List Byte) :
    ∃ a, a.kind = .st ∧ a.pa = h.addr o ∧ a.oc = oc ∧ a.data = bs ∧ StartsAccess a (.homeSliceApply a.id) 24 s (s.farStore h o oc bs) :=
  ⟨{ s.newAccess .st oc (h.addr o) 0 h with data := bs }, rfl, rfl, rfl, rfl,
    State.startsAccess_toSlice _ _ rfl rfl rfl ⟨rfl, rfl, rfl, rfl, rfl, rfl, rfl, SameBytes.refl s⟩⟩

/-- Settles O11: in a region the store buffer takes the bytes or overflows, in boundary code they are written or an access starts. -/
theorem storeEffects : Obligations.StoreEffects := by
  intro s d m sz inc n o h bs sb sbLs classes bump hgr
  have hexec : ∀ inc, exec (.st d m sz inc) s = .next ((if s.inRegion then s.holdStore m.h (h.addr o) m.oc bs
      else if m.h = 0 then s.localWrite o bs else s.farStore h o m.oc bs).postInc inc m.x n) := fun inc => st_granted hgr
  refine ⟨fun i hi => getD_leBytes_word _ hi, fun hr => ⟨fun hle => ?_, fun hlt => trapsWith_of_fault fun _ => ?_⟩,
    fun hr h0 hm => ⟨s.localWrite o bs, _, ?_, State.postInc_writes rfl inc m.x n, fun a => ?_, rfl⟩, fun hr h0 => ?_⟩
  · rw [hexec, if_pos hr, State.holdStore_holds hle]
    exact ⟨_, rfl, State.postInc_writes rfl inc m.x n⟩
  · rw [hexec, if_pos hr, State.holdStore_overflows hlt]
    rfl
  · rw [hexec, hr, if_neg Bool.false_ne_true, if_pos h0]
  · have hlen : bs.length = n := length_leBytes n _
    rw [← hlen]
    exact Mem.read_writeBytes hm o a bs
  · obtain ⟨a, hkind, hpa, hoc, hdata, hstart⟩ := s.farStore_starts h o m.oc bs
    refine ⟨s.farStore h o m.oc bs, _, a, ?_, State.postInc_writes rfl inc m.x n, hkind, hpa, hoc, hdata, hstart⟩
    rw [hexec, hr, if_neg Bool.false_ne_true, if_neg h0]

end Sys2Proof.Machine
end

section
namespace Sys2Proof.Machine

/-! What reads that deliver words leave (R338, R341): armed injections fire, and corrected errors are logged. -/

/-- One state behind another by injections that fire and events that are logged. -/
def Injected (s t : State) : Prop := ∃ inj others log seq,
  t = { s with core := { s.core with errinjC := inj }, others := others, himos := { s.himos with log := log, logSeq := seq } }

theorem Injected.refl (s : State) : Injected s s := ⟨_, _, _, _, rfl⟩

theorem Injected.trans {s t u : State} (h1 : Injected s t) (h2 : Injected t u) : Injected s u := by
  obtain ⟨_, _, _, _, rfl⟩ := h1
  obtain ⟨_, _, _, _, rfl⟩ := h2
  exact ⟨_, _, _, _, rfl⟩

theorem State.onCores_fire_injected (s : State) (p : Core → Bool) : Injected s (s.onCores fun c => if p c then c.fire else c) := by
  have hcore : ∃ inj, (if p s.core then s.core.fire else s.core) = { s.core with errinjC := inj } := by
    split
    · exact ⟨_, rfl⟩
    · exact ⟨_, rfl⟩
  obtain ⟨inj, hinj⟩ := hcore
  exact ⟨inj, s.others.map fun c => if p c then c.fire else c, s.himos.log, s.himos.logSeq, by rw [State.onCores, hinj]⟩

theorem State.consumeWords_injected (s : State) (ws : List Nat) (scale : Bool) : Injected s (s.consumeWords ws scale).2 := by
  have hfire : ∀ (b : Bool) (p : Core → Bool), Injected s (if b then s.onCores fun c => if p c then c.fire else c else s) := by
    intro b p
    split
    · exact s.onCores_fire_injected p
    · exact Injected.refl s
  have hlog : ∀ (c b : Bool) (p : Core → Bool) (w : Nat),
      Injected s (if c then (if b then s.onCores fun c => if p c then c.fire else c else s).log logCorrected w
        else if b then s.onCores fun c => if p c then c.fire else c else s) := by
    intro c b p w
    split
    · exact (hfire b p).trans ⟨_, _, _, _, rfl⟩
    · exact hfire b p
  unfold State.consumeWords
  dsimp only
  split
  · exact hlog _ _ _ _
  · exact hlog _ _ _ _

/-! The return of an LD and of an AMO (R130, R131, R134). -/

theorem exec_ldReturn (id : Nat) (s : State) : exec (.ldReturn id) s = execLdReturn id s := rfl
theorem exec_amoReturn (id : Nat) (s : State) : exec (.amoReturn id) s = execAmoReturn id s := rfl

/-- The access that a number finds has that number. -/
theorem Access.id_of_find {l : List Access} {id : Nat} {a : Access} (h : l.find? (fun b => b.id == id) = some a) : a.id = id :=
  beq_iff_eq.1 (List.find?_some (p := fun b : Access => b.id == id) h)

/-- The value of an access that the open entry has not outlived is written to s(d). -/
theorem State.finishLoad_writes {s : State} {a : Access} (h : s.inRegion = true → a.entry = s.core.reg.entry) (d : Reg) (v : Word) :
    WritesS d v { s with core := { s.core with
      hz := { s.core.hz with pend := s.core.hz.pend.filter fun q => q.dest != .s d }
      io := s.core.io.filter fun b => b.id != a.id
      cruiser := { s.core.cruiser with told := s.core.cruiser.told ++ [⟨s.dcc + 6, false, .s d v⟩] } } } (s.finishLoad a d v) := by
  rw [State.finishLoad, State.landBoth_now h]
  exact State.writesS_putS _ d v

/-- An LD whose value is back. -/
theorem ldReturn_back {s : State} {id : Nat} {a : Access} {d : Reg} {sz : Size} {sx : Bool} {bs : List Byte}
    (ha : s.core.io.find? (fun b => b.id == id) = some a) (hk : a.kind = .ld d sz sx) (hp : a.performed = true) (hb : a.back ≤ s.dcc)
    (hv : a.value = some bs) : exec (.ldReturn id) s = .next (s.finishLoad a d (extend sx sz (leNat bs))) := by
  rw [exec_ldReturn, execLdReturn, State.findAccess, ha]
  dsimp only
  rw [hk, hv]
  dsimp only
  rw [if_pos (by simp [hp, hb])]

theorem amoReturn_back {s : State} {id : Nat} {a : Access} {d : Reg} {sz : Size} {sx : Bool} {fn : AmoFn} {bs : List Byte}
    (ha : s.core.io.find? (fun b => b.id == id) = some a) (hk : a.kind = .amo d sz sx fn)
    (hv : a.value = some bs) : exec (.amoReturn id) s = .next (s.finishLoad a d (extend sx sz (leNat bs))) := by
  rw [exec_amoReturn, execAmoReturn, State.findAccess, ha]
  dsimp only
  rw [hk, hv]

/-- An LD that its home slice has still to supply. -/
theorem ldReturn_supply {s : State} {id : Nat} {a : Access} {d : Reg} {sz : Size} {sx : Bool}
    (ha : s.core.io.find? (fun b => b.id == id) = some a) (hk : a.kind = .ld d sz sx) (hp : a.performed = false) (hy : a.y = 0)
    (hr : s.inRegion = false) : exec (.ldReturn id) s = .next (s.supply a) := by
  have hlate : s.mayBeLate a = false := by simp [State.mayBeLate, State.ofEntry, hr]
  rw [exec_ldReturn, execLdReturn, State.findAccess, ha]
  dsimp only
  rw [hk]
  dsimp only
  rw [hp, hlate, hy]
  rfl

/-- The access as its home slice has supplied it with a value, which is back no sooner than 96 cycles after issue. -/
def State.supplied (s : State) (a : Access) : Access :=
  { a with
    performed := true, value := some ((List.range a.data.length).map fun i => s.loadByte a (a.pa + i)), poison := none
    back := max (a.issued + returnTime) (s.dcc + s.delay.1) }

/-- What a home slice does that supplies an LD from its resident line. -/
theorem State.supply_eq {s : State} {a : Access} (hpref : (a.kind == .pref) = false) (hb : s.blocked a = false)
    (hf : s.fencedAt s.core.part a.pa = false) (hfab : isFabric a.pa = false) (hw : s.lineWaits a.pa = false)
    (hc : (s.consumeWords (readWords (s.ownByte a) a.pa a.data.length) false).1 = none) :
    ∃ u l, Injected s u ∧ s.supply a = State.at_ { (u.setAccess (s.supplied a)) with lines := l, free := s.free + 1 }
      (s.supplied a).back ordResult s.me (.ldReturn a.id) := by
  have hu := s.consumeWords_injected (readWords (s.ownByte a) a.pa a.data.length) false
  obtain ⟨l, hl⟩ := (s.consumeWords (readWords (s.ownByte a) a.pa a.data.length) false).2.useLine_eq a.pa id
  refine ⟨_, l, hu, ?_⟩
  rw [State.supply]
  dsimp only
  rw [hb, hf, hfab, hw, hpref, hl, hc]
  obtain ⟨_, _, _, _, hu⟩ := hu
  rw [hu]
  rfl

/-- In boundary code with none of the context's own writes on their way, an LD reads what its home slice shows. -/
theorem State.loadByte_shown {s : State} {a : Access} {i : Nat} (hovl : a.ovl = []) (hr : s.inRegion = false)
    (hp : s.pendingByte a i = none) : s.loadByte a i = s.peek i := by
  have hentry : s.ofEntry a = false := by simp [State.ofEntry, hr]
  rw [State.loadByte, hovl, hentry, hp]
  rfl

/-- The access that a number found stands in the list in its new form. -/
theorem State.mem_setAccess {s : State} {id : Nat} {a b : Access} (ha : s.core.io.find? (fun c => c.id == id) = some a) (hb : b.id = a.id) :
    b ∈ (s.setAccess b).core.io :=
  List.mem_map.2 ⟨a, List.mem_of_find?_eq_some ha, if_pos hb.symm⟩

/-- A value that is not back in time, in the strict entry that asked for it. -/
theorem ldReturn_late {s : State} {id : Nat} {a : Access} {d : Reg} {sz : Size} {sx : Bool}
    (ha : s.core.io.find? (fun b => b.id == id) = some a) (hk : a.kind = .ld d sz sx) (hlate : s.mayBeLate a = true)
    (hfar : a.hnd.lgsz ≠ 0) (hdue : a.issued + 96 ≤ s.dcc) (h : a.performed = false ∨ s.dcc < a.back) :
    exec (.ldReturn id) s = .next (s.accessFault a cSCHED_MISS 0) := by
  have hnot : (a.performed && decide (a.back ≤ s.dcc)) = false := by
    rcases h with h | h
    · simp [h]
    · simp [Nat.not_le.2 h]
  have hmiss : (s.mayBeLate a && a.hnd.lgsz != 0 && decide (a.issued + returnTime ≤ s.dcc)) = true := by
    rw [hlate, bne_iff_ne.2 hfar]
    exact decide_eq_true hdue
  rw [exec_ldReturn, execLdReturn, State.findAccess, ha]
  dsimp only
  rw [hk]
  dsimp only
  rw [hnot, if_neg Bool.false_ne_true, if_pos hmiss]

/-- Settles O10: the value lands, its home slice supplies it, or it is late. -/
theorem loadReturns : Obligations.LoadReturns := by
  intro s id a d sz sx ha lands
  refine ⟨fun hentry => ⟨fun bs hk hp hb hv => ⟨_, ldReturn_back ha hk hp hb hv, State.finishLoad_writes hentry d _⟩,
    fun bs fn hk hv => ⟨_, amoReturn_back ha hk hv, State.finishLoad_writes hentry d _⟩⟩,
    fun hk hp hy hovl hr hb hf hfab hw hown hc => ?_, fun hk hs hr he hfar hdue h ht => ⟨_, ldReturn_late ha hk ?_ hfar hdue h, ?_⟩⟩
  · obtain ⟨u, l, hu, ht⟩ := State.supply_eq (s := s) (a := a) (by rw [hk]; rfl) hb hf hfab hw hc
    have hvalue : (s.supplied a).value = some ((List.range a.data.length).map fun i => s.peek (a.pa + i)) :=
      congrArg some (List.map_congr_left fun i hi => State.loadByte_shown hovl hr (hown i (List.mem_range.1 hi)))
    have hback : a.issued + 96 ≤ (s.supplied a).back := Nat.le_max_left _ _
    refine ⟨_, s.supplied a, (ldReturn_supply ha hk hp hy hr).trans (congrArg _ ht), ?_, rfl, rfl, hvalue, hback, ?_, ?_⟩
    · obtain ⟨_, _, _, _, rfl⟩ := hu
      exact State.mem_setAccess ha rfl
    · exact ⟨_, (Ev.mem_insert _ _ _).2 (.inl rfl), congrArg Instr.ldReturn (Access.id_of_find ha), rfl⟩
    · obtain ⟨_, _, _, _, rfl⟩ := hu
      exact ⟨rfl, SameBytes.of_eq rfl rfl rfl⟩
  · exact (s.mayBeLate_iff a).2 ⟨hs, hr, he⟩
  · rw [State.accessFault, State.takeTrap_eq ht]
    exact ⟨rfl, rfl, rfl, rfl, SameBytes.refl s⟩

end Sys2Proof.Machine
end

section
namespace Sys2Proof.Machine

/-! Writes at a home slice (R133, R294, R295). -/

theorem exec_homeSliceApply (id : Nat) (s : State) : exec (.homeSliceApply id) s = execHomeSliceApply id s := rfl

theorem State.resident_iff (s : State) (a : Nat) : s.resident a = true ↔ ∃ l ∈ s.lines, l.addr = lineOf a := by
  simp [State.resident]

/-- The use of a line brings none in, and drops none. -/
theorem State.useLine_resident (s : State) (a : Nat) {f : Line → Line} (hf : ∀ l, (f l).addr = l.addr) (b : Nat) :
    (s.useLine a f).resident b = s.resident b := by
  unfold State.useLine
  split
  next l hl =>
    have haddr : l.addr = lineOf a := beq_iff_eq.1 (List.find?_some (p := fun l : Line => l.addr == lineOf a) hl)
    refine Bool.eq_iff_iff.2 ((State.resident_iff _ b).trans (Iff.trans ?_ (s.resident_iff b).symm))
    constructor
    · rintro ⟨m, hm, hb⟩
      rcases List.mem_append.1 hm with hm | hm
      · exact ⟨m, (List.mem_filter.1 hm).1, hb⟩
      · rw [List.mem_singleton.1 hm, hf] at hb
        exact ⟨l, List.mem_of_find?_eq_some hl, hb⟩
    · rintro ⟨m, hm, hb⟩
      by_cases hma : m.addr = lineOf a
      · exact ⟨f l, List.mem_append_right _ List.mem_cons_self, by rw [hf, haddr, ← hma, hb]⟩
      · exact ⟨m, List.mem_append_left _ (List.mem_filter.2 ⟨hm, bne_iff_ne.2 hma⟩), hb⟩
  next => rfl

/-- A write of a resident line changes its bytes, and what L2 keeps of the line and of its poison; the same lines are resident. -/
theorem State.poke_resident {s : State} {a : Nat} (h : s.resident a = true) (bs : List Byte) :
    (∃ l p, s.poke a bs = { s with mem := s.mem.writeBytes a bs, lines := l, poison := p }) ∧
      ∀ b, (s.poke a bs).resident b = s.resident b := by
  have hfill : (s.fillLine a).getD s = s := by rw [State.fillLine, if_pos h]; rfl
  have hpast : (isTier2 a && !s.resident a) = false := by simp [h]
  have hpoke : s.poke a bs = State.useLine
      { s with mem := s.mem.writeBytes a bs, poison := s.poison.filter fun w => !coversWord a bs.length w } a
      fun l => { l with dirty := true, header := l.header || s.headerLine a } := by
    unfold State.poke
    rw [hfill]
    dsimp only
    rw [hpast]
    rfl
  rw [hpoke]
  refine ⟨?_, fun b => State.useLine_resident _ a (f := fun l => { l with dirty := true, header := l.header || s.headerLine a }) (fun _ => rfl) b⟩
  obtain ⟨l, hl⟩ := State.useLine_eq { s with
    mem := s.mem.writeBytes a bs, poison := s.poison.filter fun w => !coversWord a bs.length w } a
    fun l => { l with dirty := true, header := l.header || s.headerLine a }
  exact ⟨l, _, hl⟩

/-- The note of a store's context changes what L2 keeps of the line, and the encoders' copies. -/
theorem State.noteWriter_eq (s : State) (a : Nat) (w : Writer) : ∃ l e, s.noteWriter a w = { s with lines := l, encs := e } := by
  obtain ⟨l, hl⟩ := s.useLine_eq a fun l => { l with writers := if l.writers.contains w then l.writers else l.writers ++ [w] }
  rw [State.noteWriter, hl]
  exact ⟨l, _, rfl⟩

/-- A store or an atomic that its home slice applies: its bytes are there, and nothing a context sees has changed but them. -/
theorem State.pokeNote_eq {s : State} {a : Nat} (h : s.resident a = true) (bs : List Byte) (w : Writer) :
    ∃ l p e, (s.poke a bs).noteWriter a w = { s with mem := s.mem.writeBytes a bs, lines := l, poison := p, encs := e } := by
  obtain ⟨⟨l, p, hpoke⟩, -⟩ := State.poke_resident h bs
  obtain ⟨l', e, hnote⟩ := (s.poke a bs).noteWriter_eq a w
  rw [hnote, hpoke]
  exact ⟨l', p, e, rfl⟩

/-- The new bytes of an atomic, from what its home slice shows. -/
def State.atomicBytes (s : State) (a : Access) (fn : AmoFn) (sz : Size) (c : Nat) : List Byte :=
  leBytes (sizeBytes sz) (atomicResult fn sz (leNat (s.peekBytes a.pa a.data.length)) (a.y.toNat % 2 ^ (8 * sizeBytes sz))
    (c % 2 ^ (8 * sizeBytes sz)))

/-- An atomic on words that are not poisoned. -/
theorem State.applyAtomic_clean {s : State} {a : Access} {sz : Size} (hlen : a.data.length = sizeBytes sz)
    (hp : s.poisonedWord a.pa a.data.length = none) (fn : AmoFn) (c : Word) :
    s.applyAtomic fn sz a.pa a.y c = (s.peekBytes a.pa a.data.length, s.poke a.pa (s.atomicBytes a fn sz c.toNat)) := by
  rw [State.applyAtomic, ← hlen, hp, State.atomicBytes, ← hlen]

/-- An access that has arrived at its home slice and is the next to perform there: its line is resident, on the device. -/
structure State.MayApply (s : State) (a : Access) : Prop where
  notBlocked : s.blocked a = false
  notFenced : s.fencedAt s.core.part a.pa = false
  notFabric : isFabric a.pa = false
  notWaiting : s.lineWaits a.pa = false

theorem State.MayApply.resident {s : State} {a : Access} (h : s.MayApply a) : s.resident a.pa = true := by
  have hw := h.notWaiting
  rw [State.lineWaits, Bool.or_eq_false_iff, Bool.not_eq_false'] at hw
  exact hw.1

theorem State.sliceApply_eq {s : State} {a : Access} (h : s.MayApply a) : s.sliceApply a =
    match a.kind with
    | .st => ((s.poke a.pa a.data).noteWriter a.pa (s.core.launch, s.core.lcore, a.oc)).dropAccess a.id
    | .amop sz fn => ((s.applyAtomic fn sz a.pa a.y 0).2.noteWriter a.pa (s.core.launch, s.core.lcore, a.oc)).dropAccess a.id
    | .amo _ sz _ fn =>
      let q := s.consume a.pa a.data.length false
      let r := match q.1 with
        | some (w, _) => q.2.setAccess { a with performed := true, poison := some w }
        | none =>
          let v := q.2.applyAtomic fn sz a.pa a.y a.c
          (v.2.noteWriter a.pa (s.core.launch, s.core.lcore, a.oc)).setAccess { a with performed := true, value := some v.1 }
      let e := r.delay
      e.2.at_ (max (a.issued + returnTime) (s.dcc + e.1)) ordResult s.me (.amoReturn a.id)
    | _ => s := by
  obtain ⟨hb, hf, hfab, hw⟩ := h
  rw [State.sliceApply]
  dsimp only
  rw [hb, hf, hfab, hw]
  rfl

theorem homeSliceApply_eq {s : State} {id : Nat} {a : Access} (ha : s.core.io.find? (fun b => b.id == id) = some a)
    (hf : a.fenced = false) (hp : a.performed = false) : exec (.homeSliceApply id) s = .next (s.sliceApply a) := by
  rw [exec_homeSliceApply, execHomeSliceApply, State.findAccess, ha]
  dsimp only
  rw [hf, hp]
  rfl

/-- A store, and a posted atomic, is over when its bytes are there. -/
theorem State.sliceApply_st {s : State} {a : Access} (h : s.MayApply a) (hk : a.kind = .st) : ∃ l p e,
    s.sliceApply a = State.dropAccess { s with mem := s.mem.writeBytes a.pa a.data, lines := l, poison := p, encs := e } a.id := by
  obtain ⟨l, p, e, hnote⟩ := State.pokeNote_eq h.resident a.data (s.core.launch, s.core.lcore, a.oc)
  refine ⟨l, p, e, ?_⟩
  rw [State.sliceApply_eq h, hk]
  dsimp only
  rw [hnote]

theorem State.sliceApply_amop {s : State} {a : Access} {sz : Size} {fn : AmoFn} (h : s.MayApply a) (hk : a.kind = .amop sz fn)
    (hlen : a.data.length = sizeBytes sz) (hp : s.poisonedWord a.pa a.data.length = none) : ∃ l p e,
    s.sliceApply a = State.dropAccess { s with
      mem := s.mem.writeBytes a.pa (s.atomicBytes a fn sz 0), lines := l, poison := p, encs := e } a.id := by
  obtain ⟨l, p, e, hnote⟩ := State.pokeNote_eq h.resident (s.atomicBytes a fn sz 0) (s.core.launch, s.core.lcore, a.oc)
  refine ⟨l, p, e, ?_⟩
  rw [State.sliceApply_eq h, hk]
  dsimp only
  rw [State.applyAtomic_clean hlen hp, ← hnote]
  rfl

/-- An AMO that its home slice applies: its bytes are there, and the access has the old value, which is on its way. -/
theorem State.sliceApply_amo {s : State} {a : Access} {d : Reg} {sz : Size} {sx : Bool} {fn : AmoFn} (h : s.MayApply a)
    (hk : a.kind = .amo d sz sx fn) (hlen : a.data.length = sizeBytes sz) (hc : (s.consume a.pa a.data.length false).1 = none)
    (hp : s.poisonedWord a.pa a.data.length = none) : ∃ u l p e due, Injected s u ∧ a.issued + 96 ≤ due ∧
      s.sliceApply a = State.at_ (State.setAccess
        { u with mem := s.mem.writeBytes a.pa (s.atomicBytes a fn sz a.c.toNat), lines := l, poison := p, encs := e, free := s.free + 1 }
        { a with performed := true, value := some (s.peekBytes a.pa a.data.length) }) due ordResult s.me (.amoReturn a.id) := by
  obtain ⟨u, hu⟩ : ∃ u, u = (s.consume a.pa a.data.length false).2 := ⟨_, rfl⟩
  have hinj : Injected s u := hu ▸ s.consumeWords_injected _ _
  have hatomic : u.applyAtomic fn sz a.pa a.y a.c =
      (s.peekBytes a.pa a.data.length, u.poke a.pa (s.atomicBytes a fn sz a.c.toNat)) := by
    obtain ⟨_, _, _, _, rfl⟩ := hinj
    refine State.applyAtomic_clean hlen ?_ fn a.c
    exact hp
  have hres : u.resident a.pa = true := by
    obtain ⟨_, _, _, _, rfl⟩ := hinj
    exact h.resident
  obtain ⟨l, p, e, hnote⟩ := State.pokeNote_eq hres (s.atomicBytes a fn sz a.c.toNat) (s.core.launch, s.core.lcore, a.oc)
  refine ⟨u, l, p, e, max (a.issued + returnTime) (s.dcc + s.delay.1), hinj, Nat.le_max_left _ _, ?_⟩
  rw [State.sliceApply_eq h, hk]
  dsimp only
  rw [hc, ← hu]
  dsimp only
  rw [hatomic]
  dsimp only
  rw [hnote]
  obtain ⟨_, _, _, _, rfl⟩ := hinj
  rfl

theorem homeSliceAppliesAccesses : Clause.HomeSliceApplies := by
  intro s id a ha hfenced hperf hb hf hfab hw hm hc hp old writes new
  have hmay : s.MayApply a := ⟨hb, hf, hfab, hw⟩
  have hexec := homeSliceApply_eq ha hfenced hperf
  have hread : ∀ bs x, (s.mem.writeBytes a.pa bs).read x = if a.pa ≤ x ∧ x < a.pa + bs.length then bs.getD (x - a.pa) 0 else s.mem.read x :=
    fun bs x => Mem.read_writeBytes hm a.pa x bs
  refine ⟨fun hk => ?_, fun sz fn hk hlen => ?_, fun d sz sx fn hk hlen => ?_⟩
  · obtain ⟨l, p, e, hst⟩ := State.sliceApply_st hmay hk
    exact ⟨_, hexec.trans (congrArg _ hst), ⟨hread a.data, rfl, rfl, rfl, rfl⟩, rfl⟩
  · obtain ⟨l, p, e, hamop⟩ := State.sliceApply_amop hmay hk hlen hp
    exact ⟨_, hexec.trans (congrArg _ hamop), hread _, rfl, rfl, rfl, rfl⟩
  · obtain ⟨u, l, p, e, due, hinj, hdue, hamo⟩ := State.sliceApply_amo hmay hk hlen hc hp
    refine ⟨_, hexec.trans (congrArg _ hamo), ?_⟩
    obtain ⟨_, _, _, _, rfl⟩ := hinj
    exact ⟨⟨hread _, rfl, rfl, rfl, rfl⟩, ⟨_, State.mem_setAccess ha rfl, rfl, rfl⟩, _, (Ev.mem_insert _ _ _).2 (.inl rfl), rfl, hdue⟩

/-! The functions of the atomics (R133). -/

/-- Signed values compare as the bit vectors do. -/
theorem toSigned_sizeBytes (sz : Size) (n : Nat) : toSigned (8 * sizeBytes sz) n = (BitVec.ofNat (8 * sizeBytes sz) n).toInt := by
  obtain ⟨w, hw⟩ : ∃ w, 8 * sizeBytes sz = w + 1 := ⟨8 * sizeBytes sz - 1, by have := sizeBytes_pos sz; omega⟩
  rw [hw]
  exact toSigned_succ_eq_toInt w n

/-- The lesser of two values, and the greater, by either comparison. -/
theorem ite_le_eq_ite_lt {α β : Type} [LinearOrder α] (i j : α) (x y : β) : (if i ≤ j then x else y) = if decide (j < i) then y else x := by
  rcases lt_or_ge j i with h | h
  · rw [if_neg (not_le.2 h), if_pos (decide_eq_true h)]
  · rw [if_pos h, if_neg (by simpa using h)]

theorem ite_le_eq_ite_lt_of_eq {α β : Type} [LinearOrder α] {i j : α} {x y : β} (hxy : i = j → x = y) :
    (if i ≤ j then x else y) = if decide (i < j) then x else y := by
  rcases lt_trichotomy i j with h | h | h
  · rw [if_pos h.le, if_pos (decide_eq_true h)]
  · rw [hxy h, ite_self, ite_self]
  · rw [if_neg (not_le.2 h), if_neg (by simpa using h.le)]

theorem atomicFunctions : Clause.AtomicFunctions := by
  intro sz x y c w hx hy f a b
  have hxa : a.toNat = x := by rw [BitVec.toNat_ofNat, Nat.mod_eq_of_lt hx]
  have hyb : b.toNat = y := by rw [BitVec.toNat_ofNat, Nat.mod_eq_of_lt hy]
  have hf : ∀ fn, f fn = BitVec.ofNat w (atomicResult fn sz x y c) := fun _ => rfl
  refine ⟨?_, ?_, ?_, ?_, rfl, ?_, ?_, ?_, ?_, ?_, rfl⟩
  · refine BitVec.eq_of_toNat_eq ?_
    rw [hf, BitVec.toNat_ofNat, BitVec.toNat_add, hxa, hyb]
    exact Nat.mod_mod _ _
  · refine BitVec.eq_of_toNat_eq ?_
    rw [hf, BitVec.toNat_ofNat, BitVec.toNat_and, hxa, hyb]
    exact Nat.mod_eq_of_lt (Nat.and_lt_two_pow x hy)
  · refine BitVec.eq_of_toNat_eq ?_
    rw [hf, BitVec.toNat_ofNat, BitVec.toNat_or, hxa, hyb]
    exact Nat.mod_eq_of_lt (Nat.or_lt_two_pow hx hy)
  · refine BitVec.eq_of_toNat_eq ?_
    rw [hf, BitVec.toNat_ofNat, BitVec.toNat_xor, hxa, hyb]
    exact Nat.mod_eq_of_lt (Nat.xor_lt_two_pow hx hy)
  · rw [hf, atomicResult, toSigned_sizeBytes, toSigned_sizeBytes, apply_ite (BitVec.ofNat w), BitVec.slt]
    exact ite_le_eq_ite_lt _ _ a b
  · rw [hf, atomicResult, toSigned_sizeBytes, toSigned_sizeBytes, apply_ite (BitVec.ofNat w), BitVec.slt]
    exact ite_le_eq_ite_lt_of_eq fun h => BitVec.eq_of_toInt_eq h.symm
  · rw [hf, atomicResult, apply_ite (BitVec.ofNat w), BitVec.ult, hxa, hyb]
    exact ite_le_eq_ite_lt _ _ a b
  · rw [hf, atomicResult, apply_ite (BitVec.ofNat w), BitVec.ult, hxa, hyb]
    exact ite_le_eq_ite_lt_of_eq fun h => congrArg (BitVec.ofNat w) h.symm
  · rw [hf, atomicResult]
    split <;> rfl

/-- Settles O13: both clauses. -/
theorem homeSliceApplies : Obligations.HomeSliceApplies := ⟨homeSliceAppliesAccesses, atomicFunctions⟩

end Sys2Proof.Machine
end

section
namespace Sys2Proof.Machine

/-! PROBE (R124, R125, R135, R321). -/

theorem exec_probe (d x : Reg) (p : Perms) (s : State) : exec (.probe d x p) s = execProbe d x p s := rfl
theorem exec_probeComplete (id : Nat) (s : State) : exec (.probeComplete id) s = execProbeComplete id s := rfl

/-- What the walks of a PROBE leave: what reads through L2 do, and the translations that the walkers keep. -/
def Probed (s t : State) : Prop := ∃ w, ReadsL2 { s with walked := w } t

theorem Probed.trans {s t u : State} (h1 : Probed s t) (h2 : Probed t u) : Probed s u := by
  obtain ⟨w, hw⟩ := h1
  obtain ⟨_, _, _, _, _, _, _, _, _, rfl, hm, ha⟩ := hw
  obtain ⟨w', h⟩ := h2
  exact ⟨w', ReadsL2.trans ⟨_, _, _, _, _, _, _, _, _, rfl, hm, ha⟩ h⟩

theorem ReadsL2.probed {s t : State} (h : ReadsL2 s t) : Probed s t := ⟨s.walked, h⟩

theorem State.keepWalk_probed (s : State) (cluster : Nat) (vf : BitVec 7) (h : Handle) : Probed s (s.keepWalk cluster vf h) := by
  unfold State.keepWalk
  dsimp only
  split
  · exact (ReadsL2.refl s).probed
  · exact ⟨_, ReadsL2.refl _⟩

theorem State.probePages_probed (p : Perms) (last : Nat) : ∀ (k : Nat) (s : State) (v : Nat), Probed s (s.probePages p v last k).2
  | 0, s, _ => (ReadsL2.refl s).probed
  | k + 1, s, v => by
    have h := s.xlated_reads s.core.part s.core.vf (BitVec.ofNat 64 v) p
    rw [State.probePages]
    split
    next => exact (ReadsL2.refl s).probed
    next =>
      split
      next he =>
        rw [he] at h
        exact h.probed
      next he =>
        rw [he] at h
        exact (h.probed.trans (State.keepWalk_probed _ _ _ _)).trans (State.probePages_probed p last k _ _)

section
variable {s : State} {d x : Reg} {p : Perms} (h0 : (s.src d).toNat ≠ 0) (h : (s.src d).toNat ≤ 2 ^ 36)
include h0 h

/-- A PROBE whose pages all pass holds later bundles. -/
theorem probe_passes {t : State} (hp : s.probePages p (s.src x).toNat ((s.src x).toNat + (s.src d).toNat - 1) maxPages = (none, t)) :
    exec (.probe d x p) s = .next (t.delay.2.holdProbe p ((s.src x).toNat + (s.src d).toNat) ((s.src x).toNat + (s.src d).toNat - 1)
      (s.dcc + 1 + t.delay.1)) := by
  rw [exec_probe, execProbe]
  dsimp only
  rw [if_neg (Nat.not_lt.2 h), if_neg h0, hp]

variable {b : BadPage} {t : State}
  (hp : s.probePages p (s.src x).toNat ((s.src x).toNat + (s.src d).toNat - 1) maxPages = (some b, t))
include hp

/-- A page that fails raises its cause where it is the first, where the code is an entry's, and where the walker has come to it. -/
theorem probe_fails (hnow : s.inRegion = true ∨ b.va = (s.src x).toNat ∨ ∃ u, s.core.walk = some u ∧ u ≤ s.dcc) :
    exec (.probe d x p) s = .next (t.fault b.cause b.data) := by
  rw [exec_probe, execProbe]
  dsimp only
  rw [if_neg (Nat.not_lt.2 h), if_neg h0, hp]
  dsimp only
  split
  next => rfl
  next hnot =>
    rw [Bool.or_eq_true, Bool.or_eq_true, beq_iff_eq, not_or, not_or] at hnot
    obtain ⟨⟨hregion, -⟩, hva⟩ := hnot
    obtain ⟨u, hu, hle⟩ := (hnow.resolve_left hregion).resolve_left hva
    rw [hu]
    dsimp only
    rw [if_pos hle]

/-- Boundary code waits for the walker to come to a page that fails behind the first. -/
theorem probe_waits (hr : s.inRegion = false) (hf : s.firmware = false) (hva : b.va ≠ (s.src x).toNat) (hw : s.core.walk = none) :
    exec (.probe d x p) s = .next s.walkTo := by
  have hlater : (s.inRegion || s.firmware || b.va == (s.src x).toNat) = false := by simp [hr, hf, hva]
  rw [exec_probe, execProbe]
  dsimp only
  rw [if_neg (Nat.not_lt.2 h), if_neg h0, hp]
  dsimp only
  rw [hlater, hw]
  rfl

/-- A bundle that takes effect before the walker comes to that page leaves the page to be checked. -/
theorem probe_stopped (hr : s.inRegion = false) (hf : s.firmware = false) (hva : b.va ≠ (s.src x).toNat) {u : Nat}
    (hw : s.core.walk = some u) (hu : s.dcc < u) : exec (.probe d x p) s =
      .next ((s.probePages p (s.src x).toNat (b.va - 1) maxPages).2.holdProbe p b.va ((s.src x).toNat + (s.src d).toNat - 1) u) := by
  have hlater : (s.inRegion || s.firmware || b.va == (s.src x).toNat) = false := by simp [hr, hf, hva]
  rw [exec_probe, execProbe]
  dsimp only
  rw [if_neg (Nat.not_lt.2 h), if_neg h0, hp]
  dsimp only
  rw [hlater, hw, if_neg Bool.false_ne_true]
  dsimp only
  rw [if_neg (Nat.not_le.2 hu)]

end

/-- The access of a PROBE whose remaining pages lie from `v` to `last`. -/
def State.probeAccess (s : State) (p : Perms) (v last t : Nat) : Access :=
  { s.newAccess (.probe p last) 0 0 0 Handle.empty with va := BitVec.ofNat 64 v, back := t }

/-- A PROBE of the user context is outstanding, and holds later bundles. -/
theorem State.holdProbe_starts {s : State} (hf : s.firmware = false) (hb : s.core.blk = .none) (p : Perms) (v last : Nat) {n t : Nat}
    (hn : s.dcc + n ≤ t) : let a := s.probeAccess p v last t
    StartsAccess a (.probeComplete a.id) n s (s.holdProbe p v last t) ∧ (s.holdProbe p v last t).core.blk = .probe a.id := by
  intro a
  have hhold : s.holdProbe p v last t =
      State.at_ ((s.addAccess a).onCore fun c => { c with blk := .probe a.id }) t ordResult s.me (.probeComplete a.id) := by
    have hcore : (s.addAccess a).core.hold (.probe a.id) = { (s.addAccess a).core with blk := .probe a.id } := if_pos hb
    rw [State.holdProbe, hf, if_neg Bool.false_ne_true]
    exact congrArg (fun c => State.at_ { s.addAccess a with core := c } t ordResult s.me (.probeComplete a.id)) hcore
  rw [hhold]
  exact ⟨⟨rfl, ⟨_, (Ev.mem_insert _ _ _).2 (.inl rfl), rfl, hn⟩, fun e he => (Ev.mem_insert _ _ _).2 (.inr he),
    rfl, rfl, rfl, rfl, rfl, rfl, rfl, SameBytes.refl s⟩, rfl⟩

/-- The walker has no page left to check: the PROBE is over, and holds nothing any more. -/
theorem probeComplete_over {s : State} {id : Nat} {a : Access} {p : Perms} {last : Nat}
    (ha : s.core.io.find? (fun b => b.id == id) = some a) (hk : a.kind = .probe p last) (hp : a.performed = false)
    (hlast : last < a.va.toNat) (hblk : s.core.blk = .probe id) (hw : ∀ b ∈ s.core.blocked, ∀ r, b.act ≠ .waitc r) :
    exec (.probeComplete id) s = .next { s with core := { s.core with io := s.core.io.filter fun b => b.id != id, blk := .none } } := by
  have hwalk : s.walkOn a p last = { s with core := { s.core with io := s.core.io.filter fun b => b.id != id, blk := .none } } := by
    have hpages : s.probePages p a.va.toNat last maxPages = (none, s) := by
      rw [show maxPages = 2 ^ 24 + 1 + 1 from rfl, State.probePages, if_pos hlast]
    rw [State.walkOn, hpages]
    dsimp only [State.dropAccess, State.onCore]
    rw [Access.id_of_find ha, if_pos hblk]
  have hgone : (s.core.io.filter fun b => b.id != id).find? (fun b => b.id == id) = none :=
    List.find?_eq_none.2 fun b hb hid => by simp [beq_iff_eq.1 hid] at hb
  rw [exec_probeComplete, execProbeComplete, State.findAccess, ha]
  dsimp only
  rw [hk]
  dsimp only
  rw [hp, if_neg Bool.false_ne_true, hwalk, State.findAccess, hgone]
  exact congrArg _ (State.unblock_eq hw)

/-- A walker that has a page to come to is waited for. -/
theorem State.walkTo_eq (s : State) : ∃ n u, s.walkTo = { s with free := n, core := { s.core with walk := some u } } ∧ s.dcc < u :=
  ⟨_, _, rfl, Nat.lt_of_lt_of_le (Nat.lt_succ_self _) (Nat.le_add_right _ _)⟩

/-! PREF (R136, R289). -/

theorem exec_pref (m : MemOp) (s : State) : exec (.pref m) s = execPref m s := rfl

theorem State.hostOwned_reads (s : State) (h : Handle) (o : Nat) : ReadsL2 s (s.hostOwned h o).2 := by
  have hw := s.walk_reads s.core.vf (h.vpage.toNat * 2 ^ 12 + o)
  unfold State.hostOwned
  split
  next he =>
    rw [he] at hw
    exact hw
  next he =>
    rw [he] at hw
    exact hw
  next he =>
    rw [he] at hw
    exact hw

/-- Which PREFs do nothing before the tables are asked. -/
theorem State.prefIgnored_iff (s : State) (m : MemOp) : s.prefIgnored m = true ↔
    m.h = 0 ∨ s.firmware = true ∨ (s.srcH m.h).v = false ∨ (s.srcH m.h).rd = false ∨ (s.srcH m.h).bytes m.h ≤ s.memOff m := by
  simp [State.prefIgnored, or_assoc]

theorem pref_ignored {s : State} {m : MemOp} (h : s.prefIgnored m = true ∨ isFabric ((s.srcH m.h).addr (s.memOff m)) = true) :
    exec (.pref m) s = .next s := by
  rw [exec_pref, execPref, if_pos (Bool.or_eq_true_iff.2 h)]

/-- A PREF of a page that belongs to the host does nothing but the walk. -/
theorem pref_host {s z : State} {m : MemOp} (hi : s.prefIgnored m = false) (hf : isFabric ((s.srcH m.h).addr (s.memOff m)) = false)
    (hz : s.hostOwned (s.srcH m.h) (s.memOff m) = (true, z)) : exec (.pref m) s = .next z := by
  rw [exec_pref, execPref, hi, hf, hz]
  rfl

/-- Any other PREF is outstanding in its class. -/
theorem pref_starts {s z : State} {m : MemOp} (hi : s.prefIgnored m = false) (hf : isFabric ((s.srcH m.h).addr (s.memOff m)) = false)
    (hz : s.hostOwned (s.srcH m.h) (s.memOff m) = (false, z)) : ∃ t a, exec (.pref m) s = .next t ∧ a.kind = .pref ∧
      a.pa = lineOf ((s.srcH m.h).addr (s.memOff m)) ∧ a.oc = m.oc ∧ StartsAccess a (.ldReturn a.id) 24 z t := by
  let a := z.newAccess .pref m.oc (lineOf ((s.srcH m.h).addr (s.memOff m))) 0 (s.srcH m.h)
  refine ⟨(z.addAccess a).toSlice sliceTime (.ldReturn a.id), a, ?_, rfl, rfl, rfl,
    State.startsAccess_toSlice _ _ rfl rfl rfl ⟨rfl, rfl, rfl, rfl, rfl, rfl, rfl, SameBytes.refl z⟩⟩
  rw [exec_pref, execPref, hi, hf, hz]
  rfl

/-! Fills (R282). -/

theorem exec_l2Fill (line : Nat) (s : State) : exec (.l2Fill line) s = execL2Fill line s := rfl

/-- With a way free in its set, a line of HBM is brought in. -/
theorem State.fillLine_free {s : State} {a : Nat} (ht : isTier2 a = false)
    (hfree : (s.lines.filter fun l => setOf l.addr == setOf a && s.homeSlice l.addr == s.homeSlice a).length < 16) :
    ∃ l p, s.fillLine a = some { s with lines := l, poison := p } ∧ (l.any fun x => x.addr == lineOf a) = true := by
  by_cases hr : s.resident a = true
  · exact ⟨s.lines, s.poison, by rw [State.fillLine, if_pos hr], hr⟩
  · have hroom : s.makeRoom a = some s := by rw [State.makeRoom, if_pos hfree]
    refine ⟨_, _, by rw [State.fillLine, if_neg hr, hroom, Option.map_some, ht, if_neg Bool.false_ne_true], ?_⟩
    rw [List.any_append, Bool.or_eq_true]
    exact .inr (by simp)

/-- A fill of such a line ends. -/
theorem l2Fill_ends {s : State} {line : Nat} (ht : isTier2 line = false)
    (hfree : (s.lines.filter fun l => setOf l.addr == setOf line && s.homeSlice l.addr == s.homeSlice line).length < 16) :
    ∃ t, exec (.l2Fill line) s = .next t ∧ t.resident line = true ∧ SameBytes s t ∧
      t.core = { s.core with eng := { s.core.eng with runs := s.core.eng.runs.map fun r => r.cameBack line } } := by
  obtain ⟨l, p, hfill, hres⟩ := State.fillLine_free ht hfree
  refine ⟨State.onCores { s with lines := l, poison := p } fun c => { c with eng := { c.eng with runs := c.eng.runs.map fun r => r.cameBack line } },
    ?_, hres, SameBytes.of_eq rfl rfl rfl, rfl⟩
  rw [exec_l2Fill, execL2Fill, hfill]

/-- Settles O15: PROBE by what its pages answer, its end, PREF by the page, and a fill. -/
theorem probePrefetchFill : Obligations.ProbePrefetchFill := by
  intro s d x p id m len v
  refine ⟨fun h0 => ?_, fun hlt => trapsWith_of_fault fun _ => ?_, fun s' h0 hle hp hf hb hdcc => ?_,
    fun b s' h0 hle hp hnow ht hf => ⟨_, probe_fails h0 hle hp hnow, s'.raises_fault _ _ hf ht⟩, fun b s' h0 hle hp hr hf hva => ⟨fun hw => ?_, fun u hw hu hb => ?_⟩,
    fun a last ha hk hperf hlast hblk hw => probeComplete_over ha hk hperf hlast hblk hw, ?_, fun line ht hfree => l2Fill_ends ht hfree⟩
  · rw [exec_probe, execProbe]
    dsimp only
    rw [if_neg (by omega), if_pos h0]
  · rw [exec_probe, execProbe]
    dsimp only
    rw [if_pos hlt]
    rfl
  · have hdue : s'.delay.2.dcc + 1 ≤ s.dcc + 1 + s'.delay.1 := hdcc ▸ Nat.le_add_right _ _
    obtain ⟨hstart, hblk⟩ := State.holdProbe_starts (s := s'.delay.2) hf hb p (v + len) (v + len - 1) hdue
    exact ⟨_, _, probe_passes h0 hle hp, rfl, hblk, hstart⟩
  · obtain ⟨n, u, hwalk, hu⟩ := s.walkTo_eq
    exact ⟨_, u, probe_waits h0 hle hp hr hf hva hw, hu, hwalk ▸ rfl⟩
  · obtain ⟨w, hreads⟩ := State.probePages_probed p (b.va - 1) maxPages s v
    obtain ⟨_, _, _, _, _, _, _, _, _, hz, -, -⟩ := hreads
    obtain ⟨z, hz'⟩ : ∃ z, z = (s.probePages p v (b.va - 1) maxPages).2 := ⟨_, rfl⟩
    rw [← hz'] at hz
    obtain ⟨⟨hio, -, -, harch, -, -, -, -, -, htrap, -⟩, hblk⟩ := State.holdProbe_starts (s := z) (n := 0) (t := u)
      (by rw [hz]; exact hf) (by rw [hz]; exact hb) p b.va (v + len - 1) (by rw [hz]; exact hu.le)
    refine ⟨_, z.probeAccess p b.va (v + len - 1) u, (probe_stopped h0 hle hp hr hf hva hw hu).trans (by rw [hz']), rfl, rfl, rfl, hblk, ?_, ?_, ?_⟩
    · rw [hio]
      exact List.mem_append_right _ List.mem_cons_self
    · rw [harch, hz]
    · rw [htrap, hz]
  · intro h o
    refine ⟨fun hno => pref_ignored ?_, fun b z hz => ?_⟩
    · rw [State.prefIgnored_iff]
      rcases hno with hno | hno | hno | hno | hno
      · exact .inl (.inl hno)
      · exact .inl (.inr (.inr (.inl hno)))
      · exact .inl (.inr (.inr (.inr (.inl hno))))
      · exact .inl (.inr (.inr (.inr (.inr hno))))
      · exact .inr hno
    · have hreads := s.hostOwned_reads h o
      rw [hz] at hreads
      have hhbm := hreads.sameHbm
      obtain ⟨_, _, _, _, _, _, _, _, _, rfl, -, -⟩ := hreads
      refine ⟨rfl, rfl, hhbm, fun h0 hf hv hrd ho hfab => ?_⟩
      have hi : s.prefIgnored m = false := by
        rw [← Bool.not_eq_true, State.prefIgnored_iff]
        rintro (hno | hno | hno | hno | hno)
        · exact h0 hno
        · exact absurd (hf.symm.trans hno) Bool.false_ne_true
        · exact absurd (hno.symm.trans hv) Bool.false_ne_true
        · exact absurd (hno.symm.trans hrd) Bool.false_ne_true
        · exact absurd ho (Nat.not_lt.2 hno)
      refine ⟨fun hb => pref_host hi hfab (hb ▸ hz), fun hb => pref_starts hi hfab (hb ▸ hz)⟩

end Sys2Proof.Machine
end

section
namespace Sys2Proof.Machine

/-! A publish set becomes visible (R119, R120, R294). -/

theorem exec_publishApply (id : Nat) (s : State) : exec (.publishApply id) s = execPublishApply id s := rfl

theorem exec_commitCheck (s : State) : exec .commitCheck s = execCommitCheck s := rfl

/-- A table of bytes that is written run by run is read back, and every other byte as before. -/
theorem Mem.read_runs {m : SMap Byte} (hm : m.Pairwise fun x y => x.1 < y.1) {t : Mem} (ht : Mem.wf t = true) (a : Nat) :
    Mem.read ((runsOf m).foldl (fun t x => Mem.writeBytes t x.1 x.2) t) a = (SMap.find a m).getD (t.read a) := by
  rw [runsOf_foldl (fun a bs t => Mem.writeBytes t a bs) fun _ _ _ _ => rfl]
  exact Mem.read_foldl_write a m 0 (SMap.rising_of_pairwise hm) t ht

theorem not_isFabric_of_isHbm {a : Nat} (h : isHbm a = true) : isFabric a = false := by
  have hlt : a < 0x6000000000 := of_decide_eq_true h
  exact Bool.and_eq_false_iff.2 (.inl (decide_eq_false (by omega)))

theorem State.fencedAt_hbm (s : State) (q : BitVec 4) {a : Nat} (h : isHbm a = true) : s.fencedAt q a = false := by
  rw [State.fencedAt, not_isFabric_of_isHbm h, Bool.false_and]

/-- Writes of resident lines, one after another. -/
theorem State.pokes_eq (l : List (Nat × List Byte)) : ∀ s : State, (∀ x ∈ l, s.resident x.1 = true) →
    ∃ k p, l.foldl (fun (t : State) x => t.poke x.1 x.2) s =
      { s with mem := l.foldl (fun m x => Mem.writeBytes m x.1 x.2) s.mem, lines := k, poison := p } := by
  induction l with
  | nil => exact fun s _ => ⟨s.lines, s.poison, rfl⟩
  | cons x l ih =>
    intro s h
    obtain ⟨⟨k, p, hpoke⟩, hres⟩ := State.poke_resident (h x List.mem_cons_self) x.2
    obtain ⟨k', p', hl⟩ := ih (s.poke x.1 x.2) fun y hy => (hres y.1).trans (h y (List.mem_cons_of_mem _ hy))
    refine ⟨k', p', ?_⟩
    rw [List.foldl_cons, List.foldl_cons, hl, hpoke]

/-- The notes of a set's stores change what L2 keeps of the lines, and the encoders' copies. -/
theorem State.noteSet_eq (s : State) (p : PubSet) : ∃ l e, s.noteSet p = { s with lines := l, encs := e } := by
  unfold State.noteSet
  generalize p.classes = cs
  induction cs generalizing s with
  | nil => exact ⟨s.lines, s.encs, rfl⟩
  | cons c cs ih =>
    rw [List.foldl_cons]
    split
    next => exact ih s
    next =>
      obtain ⟨l, e, hnote⟩ := s.noteWriter_eq c.1 (p.launch, p.lcore, c.2)
      obtain ⟨l', e', hrest⟩ := ih (s.noteWriter c.1 (p.launch, p.lcore, c.2))
      exact ⟨l', e', by rw [hrest, hnote]⟩

/-- A set with no combines, of resident lines in HBM, whose scope asks for nothing but its place there. -/
structure State.PlainSet (s : State) (p : PubSet) : Prop where
  log : p.log = []
  fenced : p.fenced = none
  here : ∀ e ∈ p.plain, isHbm e.1 = true ∧ s.resident e.1 = true
  tier : scopeTier p.sc = false
  media : scopeMedia p.sc = false
  acked : s.unacked p.id = false
  ctx : s.core.isCtx p.launch p.lcore = true

/-- The set that has made no combines: the ends of its lines that are past are dropped. -/
def PubSet.onward (p : PubSet) (dcc : Nat) : PubSet := { p with ends := p.ends.filter fun e => decide (dcc < e.2) }

theorem State.combineFlags_plain {s : State} {p : PubSet} (h : p.log = []) :
    s.combineFlags p = { s with pubs := s.pubs.map fun q => if q.id = p.id then q.onward s.dcc else q } := by
  have hnone : ∀ l : List (Nat × Nat), l.filter (fun e => p.combinesAt e.1) = [] := fun l =>
    List.filter_eq_nil_iff.2 fun e _ => by simp [PubSet.combinesAt, h]
  rw [State.combineFlags]
  dsimp only
  rw [hnone]
  rfl

theorem State.applySet_plain {s : State} {p : PubSet} (hlog : p.log = [])
    (hp : ∀ e ∈ p.plain, isHbm e.1 = true ∧ s.resident e.1 = true) (q : BitVec 4) :
    ∃ l o, s.applySet p q =
      ({ s with mem := (runsOf p.plain).foldl (fun m x => Mem.writeBytes m x.1 x.2) s.mem, lines := l, poison := o }, 0) := by
  have hopen : p.plain.filter (fun e => !s.fencedAt q e.1) = p.plain :=
    List.filter_eq_self.2 fun e he => by rw [s.fencedAt_hbm q (hp e he).1]; rfl
  have hrun : ∀ x ∈ runsOf p.plain, isHbm x.1 = true ∧ s.resident x.1 = true := fun x hx => by
    obtain ⟨⟨e, he, hkey⟩, -, -⟩ := run_bounds hx
    exact hkey ▸ hp e he
  have hpoke : (runsOf p.plain).foldl (fun (t : State) r => if isFabric r.1 then
        t.sendTxn q r.1 (PubSet.classAt { p with log := [] } r.1) p.launch p.lcore p.id (.write r.2) else t.poke r.1 r.2) s =
      (runsOf p.plain).foldl (fun (t : State) x => t.poke x.1 x.2) s :=
    List.foldl_ext _ _ s fun t x hx => if_neg (Bool.eq_false_iff.1 (not_isFabric_of_isHbm (hrun x hx).1))
  obtain ⟨l, o, hl⟩ := State.pokes_eq (runsOf p.plain) s fun x hx => (hrun x hx).2
  refine ⟨l, o, ?_⟩
  rw [State.applySet, hopen, hlog]
  exact Prod.ext (hpoke.trans hl) rfl

/-- A plain set becomes visible: its bytes are written, and the COMMIT that waited for it ends. -/
theorem State.publish_plain {s : State} {p : PubSet} (h : s.PlainSet p) :
    ∃ l o e, s.publish p = State.endCommit { s with
      pubs := s.pubs.filter fun q => q.id != p.id
      mem := (runsOf p.plain).foldl (fun m x => Mem.writeBytes m x.1 x.2) s.mem, lines := l, poison := o, encs := e }
      p.id (s.dcc + 1) := by
  obtain ⟨hlog, hfenced, hhere, htier, hmedia, hacked, hctx⟩ := h
  have hopen : ∀ q, s.fencedIn p q = none := fun q => List.find?_eq_none.2 fun a ha => by
    rw [hlog, List.filter_nil, List.map_nil, List.append_nil] at ha
    obtain ⟨e, he, rfl⟩ := List.mem_map.1 ha
    rw [s.fencedAt_hbm q (hhere e he).1]
    exact Bool.false_ne_true
  obtain ⟨l, o, happly⟩ := State.applySet_plain (s := { s with pubs := s.pubs.filter fun q => q.id != p.id }) hlog hhere
    (((s.launchOf p.launch).map (·.part)).getD s.core.part)
  obtain ⟨l', e, hnote⟩ := State.noteSet_eq { s with
    pubs := s.pubs.filter fun q => q.id != p.id
    mem := (runsOf p.plain).foldl (fun m x => Mem.writeBytes m x.1 x.2) s.mem, lines := l, poison := o } p
  refine ⟨l', o, e, ?_⟩
  obtain ⟨w, hw⟩ : ∃ w : State, w = { s with
    pubs := s.pubs.filter fun q => q.id != p.id
    mem := (runsOf p.plain).foldl (fun m x => Mem.writeBytes m x.1 x.2) s.mem, lines := l', poison := o, encs := e } := ⟨_, rfl⟩
  have hctxw : w.core.isCtx p.launch p.lcore = true := hw ▸ hctx
  have hackedw : w.unacked p.id = false := hw ▸ hacked
  have hset : State.noteSet (State.applySet { s with pubs := s.pubs.filter fun q => q.id != p.id } p
      (((s.launchOf p.launch).map (·.part)).getD s.core.part)).1 p = w := by
    rw [happly, hw]
    exact hnote
  rw [← hw]
  unfold State.publish
  simp only [hset, hfenced, hopen, htier, hmedia, Option.orElse_none, Option.map_none, Option.getD_none, Option.isSome_none,
    Bool.false_and, Bool.or_false, Bool.false_eq_true, if_false, hackedw]
  rw [State.withCtx, if_pos hctxw, hlog]
  rfl

/-- A core whose COMMIT has ended: its next bundle may issue from cycle `t` on. -/
def Core.pastCommit (c : Core) (t : Nat) : Core :=
  { c with reg := { c.reg with commit := .none }, blk := .none, hz := { c.hz with issueAt := max c.hz.issueAt t } }

/-- The end of the COMMIT that waits for a set. -/
theorem State.endCommit_waiting {s : State} {id : Nat} (h : s.core.reg.commit = .publishing id) (t : Nat) :
    s.endCommit id t = State.unblock { s with core := s.core.pastCommit t } := if_pos h

/-- Where no WAITC holds the next bundle, a COMMIT that waited for its set lets it issue, and nothing else changes. -/
theorem State.endCommit_publishing {s : State} {id : Nat} (h : s.core.reg.commit = .publishing id)
    (hw : ∀ b ∈ s.core.blocked, ∀ r, b.act ≠ .waitc r) (t : Nat) : s.endCommit id t = { s with core := s.core.pastCommit t } :=
  (State.endCommit_waiting h t).trans (State.unblock_eq hw)

theorem State.endCommit_other {s : State} {id : Nat} (h : s.core.reg.commit ≠ .publishing id) (c : Nat) : s.endCommit id c = s :=
  if_neg h

/-- A set that is due and has only writes is published. -/
theorem publishApply_plain {s : State} {id : Nat} {p : PubSet} (hp : s.pubs.find? (fun q => q.id == id) = some p)
    (ha : p.applied = false) (hlog : p.log = []) (hv : p.vis ≤ s.dcc) :
    exec (.publishApply id) s = .next (State.publish
      { s with pubs := s.pubs.map fun q => if q.id = p.id then q.onward s.dcc else q } (p.onward s.dcc)) := by
  have hid : p.id = id := beq_iff_eq.1 (List.find?_some (p := fun q : PubSet => q.id == id) hp)
  have hfind : (s.pubs.map fun q => if q.id = id then q.onward s.dcc else q).find? (fun q => q.id == id) = some (p.onward s.dcc) := by
    rw [find?_map_update PubSet.id id (fun q => q.onward s.dcc) fun _ h => h, hp]
    rfl
  rw [exec_publishApply, execPublishApply, hp]
  dsimp only
  rw [State.duePub, ha, State.combineFlags_plain hlog, hid]
  dsimp only
  rw [if_neg Bool.false_ne_true, hfind]
  exact congrArg _ (if_pos hv)

theorem publishedBytesAreVisible : Clause.PublishedBytesAreVisible := by
  intro s id p hp ha hlog hfenced hv hwf hrise hhere htier hmedia hacked hctx _ hw
  have hid : p.id = id := beq_iff_eq.1 (List.find?_some (p := fun q : PubSet => q.id == id) hp)
  obtain ⟨l, o, e, hpub⟩ := State.publish_plain (p := p.onward s.dcc)
    (s := { s with pubs := s.pubs.map fun q => if q.id = p.id then q.onward s.dcc else q })
    ⟨hlog, hfenced, hhere, htier, hmedia, hacked, hctx⟩
  refine ⟨_, publishApply_plain hp ha hlog hv, ?_⟩
  rw [hpub, show (p.onward s.dcc).id = id from hid]
  have hother : ∀ (k : List PubSet), ∀ q ∈ k.filter (fun q => q.id != id), q.id ≠ id := fun k q hq =>
    bne_iff_ne.1 (List.mem_filter.1 hq).2
  by_cases hc : s.core.reg.commit = .publishing id
  · rw [State.endCommit_publishing (s := { s with
      pubs := (s.pubs.map fun q => if q.id = p.id then q.onward s.dcc else q).filter fun q => q.id != id
      mem := _, lines := l, poison := o, encs := e }) hc hw]
    exact ⟨Mem.read_runs hrise hwf, rfl, rfl, rfl, hother _, fun _ => ⟨rfl, rfl, rfl⟩⟩
  · rw [State.endCommit_other (s := { s with
      pubs := (s.pubs.map fun q => if q.id = p.id then q.onward s.dcc else q).filter fun q => q.id != id
      mem := _, lines := l, poison := o, encs := e }) hc]
    exact ⟨Mem.read_runs hrise hwf, rfl, rfl, rfl, hother _, fun h => absurd h hc⟩

/-! The commit point (R31, R119, R335). -/

/-- Stores through h0, one after another. -/
theorem State.localWrites_eq (l : List (Nat × List Byte)) : ∀ s : State,
    ∃ p, l.foldl (fun (t : State) x => t.localWrite x.1 x.2) s = { s with core := { s.core with ls := { s.core.ls with
      mem := l.foldl (fun m x => Mem.writeBytes m x.1 x.2) s.core.ls.mem, poison := p } } } := by
  induction l with
  | nil => exact fun s => ⟨s.core.ls.poison, rfl⟩
  | cons x l ih => exact fun s => ih (s.localWrite x.1 x.2)

/-- The marks of the arrivals that a set holds change the arrival records only. -/
theorem State.markArrivals_eq (l : List Combine) : ∀ s : State,
    ∃ a, l.foldl (fun (t : State) e => match e.op with
      | .arrive g pt => t.setArr g pt ArrRec.mark
      | _ => t) s = { s with core := { s.core with arr := a } } := by
  have hset : ∀ (s : State) g pt, ∃ a, s.setArr g pt ArrRec.mark = { s with core := { s.core with arr := a } } := by
    intro s g pt
    by_cases h : s.core.arrIndex g pt < 96
    · exact ⟨_, State.setArr_eq h _⟩
    · exact ⟨s.core.arr, by simp only [State.setArr, State.onCore, dif_neg h]⟩
  induction l with
  | nil => exact fun s => ⟨s.core.arr, rfl⟩
  | cons e l ih =>
    intro s
    rw [List.foldl_cons]
    split
    next g pt _ =>
      obtain ⟨a, ha⟩ := hset s g pt
      rw [ha]
      exact ih { s with core := { s.core with arr := a } }
    next => exact ih s

theorem le_foldl_max {α : Type} (f : α → Nat) (l : List α) : ∀ m : Nat, m ≤ l.foldl (fun m e => max m (f e)) m := by
  induction l with
  | nil => exact fun m => Nat.le_refl m
  | cons e l ih => exact fun m => (Nat.le_max_left m (f e)).trans (ih _)

/-- A set that takes its place is due when it becomes visible. -/
theorem State.queueSet_eq (s : State) (p : PubSet) : ∃ a, s.queueSet p = { s with pubs := s.pubs ++ [p], agenda := a } ∧
    ∃ e ∈ a, e.act = .publishApply p.id ∧ e.due = p.vis := by
  have hfold : ∀ (l : List Nat) (t : State), ∃ a,
      l.foldl (fun (t : State) c => t.at_ c ordPublish .chip (.publishApply p.id)) t = { t with agenda := a } := by
    intro l
    induction l with
    | nil => exact fun t => ⟨t.agenda, rfl⟩
    | cons c l ih => exact fun t => ih (t.at_ c ordPublish .chip (.publishApply p.id))
  obtain ⟨a, ha⟩ := hfold ((p.ends.filter fun e => p.combinesAt e.1 && decide (e.2 < p.vis)).map (·.2))
    { s with pubs := s.pubs ++ [p] }
  refine ⟨Ev.insert ⟨p.vis, ordPublish, .chip, .publishApply p.id⟩ a, ?_, _, (Ev.mem_insert _ _ a).2 (.inl rfl), rfl, rfl⟩
  rw [State.queueSet, List.foldl_append, ha]
  rfl

/-- The lines of a set of scope CORE take their places one after another. -/
theorem State.queueParts_eq (l : List PubSet) : ∀ s : State, ∃ n a q,
    l.foldl (fun (t : State) q => { t with serial := t.serial + 1 }.queueSet { q with id := t.serial }) s =
      { s with serial := n, agenda := a, pubs := q } := by
  induction l with
  | nil => exact fun s => ⟨s.serial, s.agenda, s.pubs, rfl⟩
  | cons p l ih =>
    intro s
    obtain ⟨a, ha, -⟩ := State.queueSet_eq { s with serial := s.serial + 1 } { p with id := s.serial }
    obtain ⟨n, b, q, hl⟩ := ih ({ s with serial := s.serial + 1 }.queueSet { p with id := s.serial })
    exact ⟨n, b, q, by rw [List.foldl_cons, hl, ha]⟩

/-- A set's publication changes nothing but the sets, the slices' work and what is due; a part of the set becomes visible later. -/
theorem State.startPublish_eq (s : State) (p : PubSet) : ∃ n f a q,
    (s.startPublish p).2 = { s with serial := n, sliceFree := f, agenda := a, pubs := q } ∧
      ∃ r ∈ q, r.launch = p.launch ∧ r.lcore = p.lcore ∧ r.sc = p.sc ∧ ∃ e ∈ a, e.act = .publishApply r.id ∧ s.dcc ≤ e.due := by
  unfold State.startPublish
  extract_lets work slots ends p' v s'
  have hv : s.dcc ≤ v := by
    refine le_trans ?_ (le_foldl_max (fun e : Nat × Nat => max e.2 (s.lineVisible e.1)) ends _)
    split
    next => exact Nat.le_refl _
    next => exact Nat.le_add_right _ 8
  split
  next parts rest _ hcore =>
    obtain ⟨n, a, q, hparts⟩ := State.queueParts_eq parts s'
    obtain ⟨b, hrest, e, he, hact, hdue⟩ := State.queueSet_eq { s' with serial := n, agenda := a, pubs := q } rest
    exact ⟨n, s'.sliceFree, b, q ++ [rest], (congrArg (State.queueSet · rest) hparts).trans hrest, rest,
      List.mem_append_right _ List.mem_cons_self, rfl, rfl, rfl, e, he, hact, hdue ▸ hv⟩
  next =>
    obtain ⟨b, hset, e, he, hact, hdue⟩ := State.queueSet_eq s' { p' with vis := v }
    exact ⟨s'.serial, s'.sliceFree, b, s'.pubs ++ [{ p' with vis := v }], hset, { p' with vis := v },
      List.mem_append_right _ List.mem_cons_self, rfl, rfl, rfl, e, he, hact, hdue ▸ hv⟩

/-- The end of a wait keeps what is due, and changes what holds the next bundle only. -/
theorem State.unblock_keeps (s : State) : ∃ b a, s.unblock = { s with core := { s.core with blk := b }, agenda := a } ∧
    ∀ e ∈ s.agenda, e ∈ a := by
  unfold State.unblock
  split
  next => exact ⟨s.core.blk, s.agenda, rfl, fun _ h => h⟩
  next =>
    split
    next t _ => exact ⟨.waitc t, _, rfl, fun e h => (Ev.mem_insert _ e _).2 (.inr h)⟩
    next => exact ⟨s.core.blk, s.agenda, rfl, fun _ h => h⟩

theorem State.endCommit_keeps (s : State) (id t : Nat) : ∃ m b z a, s.endCommit id t = { s with
    core := { s.core with reg := { s.core.reg with commit := m }, blk := b, hz := z }, agenda := a } ∧ ∀ e ∈ s.agenda, e ∈ a := by
  by_cases h : s.core.reg.commit = .publishing id
  · obtain ⟨b, a, hu, ha⟩ := State.unblock_keeps { s with core := s.core.pastCommit t }
    exact ⟨.none, b, _, a, (State.endCommit_waiting h t).trans hu, ha⟩
  · exact ⟨s.core.reg.commit, s.core.blk, s.core.hz, s.agenda, State.endCommit_other h t, fun _ h => h⟩

/-- What the commit point does in its cycle: the region is closed and what the entry held is gone, its stores through h0 are in the
local store, memory is as before, and a set of the entry is due. -/
structure State.CommitsTo (s : State) (sc : Scope) (t : State) : Prop where
  region : t.inRegion = false
  held : t.core.held = Held.empty
  arch : t.core.arch = s.core.arch
  local_ : t.core.ls.mem = (runsOf s.core.held.sbLs).foldl (fun m x => Mem.writeBytes m x.1 x.2) s.core.ls.mem
  mem : t.mem = s.mem
  cxl : t.cxl = s.cxl
  set : ∃ p ∈ t.pubs, p.launch = s.core.launch ∧ p.lcore = s.core.lcore ∧ p.sc = sc ∧ Due (.publishApply p.id) 0 s t

theorem State.CommitsTo.endCommit {s t : State} {sc : Scope} (h : s.CommitsTo sc t) (id c : Nat) : s.CommitsTo sc (t.endCommit id c) := by
  obtain ⟨m, b, z, a, heq, hkeep⟩ := t.endCommit_keeps id c
  obtain ⟨p, hp, hl, hc, hsc, e, he, hact, hdue⟩ := h.set
  rw [heq]
  exact ⟨h.region, h.held, h.arch, h.local_, h.mem, h.cxl, p, hp, hl, hc, hsc, e, hkeep e he, hact, hdue⟩

theorem State.commitPoint_commits (s : State) (sc : Scope) : s.CommitsTo sc (s.commitPoint sc) := by
  unfold State.commitPoint
  extract_lets c h pub r t₀ t₁ t₂ t₃ t₄
  obtain ⟨l, h₀⟩ := s.releaseLines_eq
  obtain ⟨o, h₁⟩ := State.localWrites_eq (runsOf h.sbLs) t₀
  obtain ⟨a, h₂⟩ := State.markArrivals_eq h.log t₁
  obtain ⟨n, f, b, q, h₄, p, hp, hl, hc, hsc, e, he, hact, hdue⟩ := t₃.startPublish_eq pub
  have h₂' : t₂ = { s with lines := l, serial := s.serial + 1, core := { s.core with arr := a, ls := { s.core.ls with
      mem := (runsOf h.sbLs).foldl (fun m x => Mem.writeBytes m x.1 x.2) s.core.ls.mem, poison := o } } } := by
    rw [show t₂ = _ from h₂, show t₁ = _ from h₁, show t₀ = { s with lines := l, serial := s.serial + 1 } by simp only [t₀, r, h₀]]
  have hcommit : s.CommitsTo sc t₄ := by
    rw [show t₄ = _ from h₄]
    exact ⟨rfl, rfl, congrArg (·.core.arch) h₂', congrArg (·.core.ls.mem) h₂', congrArg (·.mem) h₂', congrArg (·.cxl) h₂',
      p, hp, hl, hc, hsc, e, he, hact, (congrArg State.dcc h₂').ge.trans hdue⟩
  split
  next => exact hcommit.endCommit _ _
  next => exact hcommit

theorem commitPoint : Clause.CommitPoint := by
  intro s sc hr hc htrap
  have hcheck : exec .commitCheck s = .next (if s.core.reg.digest = s.core.cruiser.digest then s.commitPoint sc
      else s.takeTrap (s.digestRec s.core.cruiser.digest)) := by
    rw [exec_commitCheck, execCommitCheck, hc]
    dsimp only
    rw [hr, htrap]
    rfl
  refine ⟨fun hd => ?_, fun hd hwf hrise => ?_⟩
  · refine ⟨_, hcheck.trans (congrArg _ (if_neg hd)), ?_⟩
    rw [State.takeTrap_eq htrap]
    exact ⟨rfl, rfl, rfl, rfl, rfl, rfl, SameBytes.of_eq rfl rfl rfl⟩
  · obtain ⟨hregion, hheld, harch, hlocal, hmem, hcxl, hset⟩ := s.commitPoint_commits sc
    exact ⟨_, hcheck.trans (congrArg _ (if_pos hd)), hregion, hheld, harch, fun a => hlocal ▸ Mem.read_runs hrise hwf a,
      fun a => congrArg (fun m => Mem.read m a) hmem, fun a => congrArg (fun m => Mem.read m a) hcxl, hset⟩

/-- Settles O17, by the writes of the runs of bytes that a set holds, one after another. -/
theorem commitAndPublish : Obligations.CommitAndPublish := ⟨commitPoint, publishedBytesAreVisible⟩

end Sys2Proof.Machine
end

section
namespace Sys2Proof.Machine

/-! What a walk of the tables leaves of the cores (R280, R341): armed injections fire, and nothing else of a core changes. -/

theorem exec_translationInvalidate (vf : BitVec 7) (va len : Nat) (s : State) :
    exec (.translationInvalidate vf va len) s = execTranslationInvalidate vf va len s := rfl

theorem State.writeBack_cores (s : State) (a : Nat) : (s.writeBack a).cores = s.cores := by
  unfold State.writeBack
  split <;> rfl

theorem State.dropLine_cores (s : State) (l : Line) : (s.dropLine l).cores = s.cores := by
  have hback : (if l.dirty then s.writeBack l.addr else s).cores = s.cores := by
    split
    · exact s.writeBack_cores l.addr
    · rfl
  unfold State.dropLine
  dsimp only
  generalize (if l.dirty then s.writeBack l.addr else s) = u at hback ⊢
  split
  · change u.core :: u.others = s.cores
    exact hback
  · exact hback

theorem State.makeRoom_cores {s t : State} {a : Nat} (h : s.makeRoom a = some t) : t.cores = s.cores := by
  unfold State.makeRoom at h
  dsimp only at h
  split at h
  · rw [← Option.some.inj h]
  · obtain ⟨l, -, rfl⟩ := Option.map_eq_some_iff.1 h
    exact s.dropLine_cores l

theorem State.fillLine_cores {s t : State} {a : Nat} (h : s.fillLine a = some t) : t.cores = s.cores := by
  unfold State.fillLine at h
  split at h
  · rw [← Option.some.inj h]
  · obtain ⟨u, hu, rfl⟩ := Option.map_eq_some_iff.1 h
    rw [← s.makeRoom_cores hu]
    dsimp only
    split <;> rfl

theorem State.useLine_cores (s : State) (a : Nat) (f : Line → Line) : (s.useLine a f).cores = s.cores := by
  obtain ⟨l, hl⟩ := s.useLine_eq a f
  rw [hl]
  rfl

theorem State.touch_cores (s : State) (a : Nat) : (s.touch a).cores = s.cores := by
  unfold State.touch
  split
  next t ht => exact (t.useLine_cores a id).trans (s.fillLine_cores ht)
  next =>
    unfold State.startFill
    split <;> rfl

/-- A core but for the injections armed in it. -/
def Core.disarmed (c : Core) : Core := { c with errinjC := 0 }

theorem State.consumeWords_disarmed (s : State) (ws : List Nat) (scale : Bool) :
    (s.consumeWords ws scale).2.cores.map Core.disarmed = s.cores.map Core.disarmed := by
  have hfire : ∀ (b : Bool) (p : Core → Bool), (if b then s.onCores fun c => if p c then c.fire else c else s).cores.map Core.disarmed =
      s.cores.map Core.disarmed := by
    intro b p
    split
    · refine (List.map_map (l := s.cores) (f := fun c => if p c then c.fire else c) (g := Core.disarmed)).trans
        (List.map_congr_left fun c _ => ?_)
      dsimp only [Function.comp]
      split <;> rfl
    · rfl
  have hlog : ∀ (c : Bool) (u : State) (w : Nat), (if c then u.log logCorrected w else u).cores = u.cores := by
    intro c u w
    split <;> rfl
  unfold State.consumeWords
  dsimp only
  split
  · exact (congrArg _ (hlog _ _ _)).trans (hfire _ _)
  · exact (congrArg _ (hlog _ _ _)).trans (hfire _ _)

/-- One state behind another by reads through L2 that leave the cores but for their armed injections. -/
def ReadsTables (s t : State) : Prop := ReadsL2 s t ∧ t.cores.map Core.disarmed = s.cores.map Core.disarmed

theorem ReadsTables.refl (s : State) : ReadsTables s s := ⟨ReadsL2.refl s, rfl⟩

theorem ReadsTables.trans {s t u : State} (h : ReadsTables s t) (k : ReadsTables t u) : ReadsTables s u :=
  ⟨h.1.trans k.1, k.2.trans h.2⟩

theorem State.tableEntry_tables (s : State) (v level table : Nat) : ReadsTables s (s.tableEntry v level table).2 := by
  refine ⟨s.tableEntry_reads v level table, ?_⟩
  unfold State.tableEntry
  dsimp only
  generalize table + 8 * (v / 2 ^ (12 + 9 * level) % (if level = 4 then 256 else 512)) = a
  have h : ((s.touch a).consume a 8 false).2.cores.map Core.disarmed = s.cores.map Core.disarmed :=
    ((s.touch a).consumeWords_disarmed _ _).trans (congrArg _ (s.touch_cores a))
  split
  next he =>
    rw [he] at h
    exact h
  next he =>
    rw [he] at h
    split
    · exact h
    · split
      · exact h
      · split <;> exact h

theorem State.walkFrom_tables (v level : Nat) : ∀ (s : State) (table : Nat), ReadsTables s (s.walkFrom v level table).2 := by
  induction level with
  | zero =>
    intro s table
    have h := s.tableEntry_tables v 0 table
    unfold State.walkFrom
    split
    next he =>
      rw [he] at h
      exact h
    next he =>
      rw [he] at h
      exact h
  | succ level ih =>
    intro s table
    have h := s.tableEntry_tables v (level + 1) table
    unfold State.walkFrom
    split
    next he =>
      rw [he] at h
      exact h
    next he =>
      rw [he] at h
      exact h.trans (ih _ _)

theorem State.walk_tables (s : State) (vf : BitVec 7) (v : Nat) : ReadsTables s (s.walk vf v).2 := by
  unfold State.walk
  split
  · split
    · exact State.walkFrom_tables _ _ _ _
    · exact ReadsTables.refl s
  · exact ReadsTables.refl s

theorem State.tierPagesOf_tables (vf : BitVec 7) (last n : Nat) : ∀ (s : State) (v : Nat), ReadsTables s (s.tierPagesOf vf v last n).2 := by
  induction n with
  | zero => exact fun s _ => ReadsTables.refl s
  | succ n ih =>
    intro s v
    have h := s.walk_tables vf v
    unfold State.tierPagesOf
    split
    · exact ReadsTables.refl s
    · split
      next he =>
        rw [he] at h
        exact h.trans (ih _ _)
      next he =>
        rw [he] at h
        exact h
      next he =>
        rw [he] at h
        exact h

theorem State.tierRange_tables (s : State) (vf : BitVec 7) (va len : Nat) : ReadsTables s (s.tierRange vf va len).2 := by
  unfold State.tierRange
  dsimp only
  split
  · exact ReadsTables.refl s
  · exact s.tierPagesOf_tables vf (va + len - 1) (len / 4096 + 2) va

/-! Revocation at the cores (R126). -/

/-- No handle of a context, other than the window, is valid with a page that overlaps the range. -/
def Core.Clean (va len : Nat) (c : Core) : Prop := ∀ h : HReg, h ≠ 0 → (c.arch.hreg h).v = true → (c.arch.hreg h).overlaps va len = false

/-- A core that stays the same one, of the same function, with its scalar and predicate registers. -/
structure Core.Stays (c d : Core) : Prop where
  phys : d.phys = c.phys
  vf : d.vf = c.vf
  s : d.arch.s = c.arch.s
  p : d.arch.p = c.arch.p

theorem Core.Stays.trans {c d e : Core} (h : c.Stays d) (k : d.Stays e) : c.Stays e :=
  ⟨k.phys.trans h.phys, k.vf.trans h.vf, k.s.trans h.s, k.p.trans h.p⟩

theorem Core.Stays.refl (c : Core) : c.Stays c := ⟨rfl, rfl, rfl, rfl⟩

theorem Core.Stays.of_disarmed {c d : Core} (h : d.disarmed = c.disarmed) : c.Stays d :=
  ⟨congrArg (·.phys) h, congrArg (·.vf) h, congrArg (·.arch.s) h, congrArg (·.arch.p) h⟩

/-- A handle after a revocation of a range: V is cleared where the page overlaps it. -/
def Handle.without (h : Handle) (va len : Nat) : Handle := if h.v && h.overlaps va len then { h with v := false } else h

/-- A revocation changes the handles of a context but the window, and what is kept of them elsewhere. -/
theorem Core.revoke_eq (c : Core) (va len : Nat) : ∃ pre cruiser io reg, c.revoke va len = { c with
    arch := { c.arch with h := Vector.ofFn fun i => if i.val = 0 then c.arch.h.get i else (c.arch.h.get i).without va len }
    pre := pre, cruiser := cruiser, io := io, reg := reg } := ⟨_, _, _, _, rfl⟩

theorem Core.revoke_stays (c : Core) (va len : Nat) : c.Stays (c.revoke va len) := by
  obtain ⟨pre, cruiser, io, reg, h⟩ := c.revoke_eq va len
  rw [h]
  exact ⟨rfl, rfl, rfl, rfl⟩

theorem Core.revoke_clean (c : Core) (va len : Nat) : (c.revoke va len).Clean va len := by
  intro h h0 hv
  have hget : (c.revoke va len).arch.hreg h = (c.arch.hreg h).without va len := by
    obtain ⟨pre, cruiser, io, reg, heq⟩ := c.revoke_eq va len
    rw [heq]
    exact (Vector.getElem_ofFn h.toFin.isLt).trans (if_neg fun he => h0 (BitVec.eq_of_toNat_eq he))
  rw [hget] at hv ⊢
  unfold Handle.without at hv ⊢
  split at hv
  next => cases hv
  next hmiss =>
    rw [if_neg hmiss]
    rw [hv, Bool.true_and] at hmiss
    exact Bool.eq_false_iff.2 hmiss

/-- The cores of a state behind another are the same ones, in some order, and the invalidations are as before. -/
structure State.CoresStay (s t : State) : Prop where
  phys : (t.cores.map Core.phys).Perm (s.cores.map Core.phys)
  stay : ∀ d ∈ t.cores, ∃ c ∈ s.cores, c.Stays d
  invals : t.invals = s.invals

theorem State.CoresStay.trans {s t u : State} (h : s.CoresStay t) (k : t.CoresStay u) : s.CoresStay u := by
  refine ⟨k.phys.trans h.phys, fun e he => ?_, k.invals.trans h.invals⟩
  obtain ⟨d, hd, hde⟩ := k.stay e he
  obtain ⟨c, hc, hcd⟩ := h.stay d hd
  exact ⟨c, hc, hcd.trans hde⟩

theorem State.CoresStay.refl (s : State) : s.CoresStay s := ⟨List.Perm.refl _, fun c hc => ⟨c, hc, Core.Stays.refl c⟩, rfl⟩

theorem ReadsTables.coresStay {s t : State} (h : ReadsTables s t) : s.CoresStay t := by
  obtain ⟨⟨_, _, _, _, _, _, _, _, _, heq, -⟩, hcores⟩ := h
  have hphys : ∀ u : State, u.cores.map Core.phys = (u.cores.map Core.disarmed).map Core.phys := fun u =>
    (List.map_map (f := Core.disarmed) (g := Core.phys)).symm
  refine ⟨by rw [hphys t, hcores, ← hphys s], fun d hd => ?_, congrArg (·.invals) heq⟩
  obtain ⟨c, hc, hcd⟩ := List.mem_map.1 (hcores ▸ List.mem_map_of_mem (f := Core.disarmed) hd)
  exact ⟨c, hc, Core.Stays.of_disarmed hcd.symm⟩

theorem State.takeTrap_core (s : State) (r : TrapRec) : ∃ x y, s.takeTrap r = { s with core := { s.core with stat := x, trap := y } } := by
  unfold State.takeTrap
  split
  · exact ⟨s.core.stat, s.core.trap, rfl⟩
  · exact ⟨_, _, rfl⟩

/-- The revocation at one core: it is the same core, with its handles revoked; a trap of it may be raised. -/
theorem State.revokeCore_eq {s : State} {n : Nat} (va len : Nat) (hd : (s.cores.map Core.phys).Nodup) (hn : n ∈ s.cores.map Core.phys) :
    ∃ (c d : Core) (os : List Core), s.revokeCore va len n = { s with core := d, others := os } ∧ c.phys = n ∧ (c :: os).Perm s.cores ∧
      c.Stays d ∧ d.Clean va len := by
  obtain ⟨c, os, hf, hphys, hperm⟩ := State.focusPhys_perm hd hn
  have hstay := c.revoke_stays va len
  have hclean := c.revoke_clean va len
  unfold State.revokeCore
  rw [hf]
  dsimp only [State.onCore]
  generalize c.revoke va len = d at hstay hclean ⊢
  split
  · split
    · obtain ⟨x, y, htrap⟩ := State.takeTrap_core { s with core := d, others := os } _
      exact ⟨c, { d with stat := x, trap := y }, os, htrap, hphys, hperm, hstay.trans ⟨rfl, rfl, rfl, rfl⟩, hclean⟩
    · exact ⟨c, d, os, rfl, hphys, hperm, hstay, hclean⟩
  · exact ⟨c, d, os, rfl, hphys, hperm, hstay, hclean⟩

/-- A revocation at one core leaves it clean and the others as they are. -/
theorem State.revokeCore_cores {s : State} {n : Nat} (va len : Nat) (hd : (s.cores.map Core.phys).Nodup)
    (hn : n ∈ s.cores.map Core.phys) :
    s.CoresStay (s.revokeCore va len n) ∧
      ∀ e ∈ (s.revokeCore va len n).cores, e.Clean va len ∨ e ∈ s.cores ∧ e.phys ≠ n := by
  obtain ⟨c, d, os, heq, hphys, hperm, hstay, hclean⟩ := State.revokeCore_eq va len hd hn
  have hmem : ∀ e ∈ os, e ∈ s.cores := fun e he => hperm.mem_iff.1 (List.mem_cons_of_mem c he)
  have hother : c.phys ∉ os.map Core.phys := (List.nodup_cons.1 ((hperm.map Core.phys).nodup_iff.2 hd)).1
  rw [heq]
  refine ⟨⟨?_, fun e he => ?_, rfl⟩, fun e he => ?_⟩
  · change (d.phys :: os.map Core.phys).Perm _
    rw [hstay.phys]
    exact hperm.map Core.phys
  · rcases List.mem_cons.1 he with rfl | he
    · exact ⟨c, hperm.mem_iff.1 List.mem_cons_self, hstay⟩
    · exact ⟨e, hmem e he, Core.Stays.refl e⟩
  · rcases List.mem_cons.1 he with rfl | he
    · exact .inl hclean
    · exact .inr ⟨hmem e he, fun hne => hother (List.mem_map.2 ⟨e, he, hne.trans hphys.symm⟩)⟩

/-- A revocation at one core after the other leaves each of them clean and the others as they are. -/
theorem State.revokeCores_cores (va len : Nat) : ∀ (ns : List Nat) (s : State), (s.cores.map Core.phys).Nodup → ns ⊆ s.cores.map Core.phys →
    s.CoresStay (ns.foldl (fun (t : State) n => t.revokeCore va len n) s) ∧
      ∀ d ∈ (ns.foldl (fun (t : State) n => t.revokeCore va len n) s).cores, d.Clean va len ∨ d ∈ s.cores ∧ d.phys ∉ ns
  | [], s, _, _ => ⟨State.CoresStay.refl s, fun _ hd => .inr ⟨hd, List.not_mem_nil⟩⟩
  | n :: ns, s, hd, hsub => by
    obtain ⟨hstay, hone⟩ := State.revokeCore_cores va len hd (hsub List.mem_cons_self)
    obtain ⟨hstays, hall⟩ := State.revokeCores_cores va len ns (s.revokeCore va len n) (hstay.phys.nodup_iff.2 hd)
      fun m hm => hstay.phys.mem_iff.2 (hsub (List.mem_cons_of_mem n hm))
    refine ⟨hstay.trans hstays, fun d hdt => ?_⟩
    rcases hall d hdt with hclean | ⟨hdu, hns⟩
    · exact .inl hclean
    · exact (hone d hdu).imp_right fun ⟨hds, hn⟩ => ⟨hds, fun hm => (List.mem_cons.1 hm).elim hn hns⟩

/-- A core that is brought into focus is there, and the cores and the saved contexts stay. -/
theorem State.focusPhys_stays {s : State} {n : Nat} (hd : (s.cores.map Core.phys).Nodup) (hn : n ∈ s.cores.map Core.phys) :
    s.CoresStay (s.focusPhys n) ∧ (s.focusPhys n).core.phys = n ∧ (s.focusPhys n).cores.Perm s.cores ∧ (s.focusPhys n).saved = s.saved := by
  obtain ⟨c, os, hf, hphys, hperm⟩ := State.focusPhys_perm hd hn
  rw [hf]
  exact ⟨⟨hperm.map Core.phys, fun d hdt => ⟨d, hperm.mem_iff.1 hdt, Core.Stays.refl d⟩, rfl⟩, hphys, hperm, rfl⟩

/-- The contexts of a function, at the cores and saved, after the revocation of a range. -/
def State.revokedAll (s : State) (vf : BitVec 7) (va len : Nat) : State :=
  let t := ((s.cores.filter fun c => c.vf == vf).map Core.phys).foldl (fun (t : State) n => t.revokeCore va len n) s
  State.dropWalks { t with saved := t.saved.map fun (c : Core) => if c.vf = vf then c.revoke va len else c } vf va len

theorem State.revokedAll_clean {s : State} (vf : BitVec 7) (va len : Nat) (hd : (s.cores.map Core.phys).Nodup) :
    s.CoresStay (s.revokedAll vf va len) ∧
      (∀ c ∈ (s.revokedAll vf va len).cores, c.vf = vf → c.Clean va len) ∧
      ∀ c ∈ (s.revokedAll vf va len).saved, c.vf = vf → c.Clean va len := by
  obtain ⟨hstay, hall⟩ := State.revokeCores_cores va len ((s.cores.filter fun c => c.vf == vf).map Core.phys) s hd
    (List.map_subset Core.phys (List.filter_subset_self _))
  refine ⟨⟨hstay.phys, hstay.stay, hstay.invals⟩, fun c hc hvf => ?_, fun c hc hvf => ?_⟩
  · rcases hall c hc with hclean | ⟨hcs, hns⟩
    · exact hclean
    · exact (hns (List.mem_map.2 ⟨c, List.mem_filter.2 ⟨hcs, beq_iff_eq.2 hvf⟩, rfl⟩)).elim
  · obtain ⟨d, -, rfl⟩ := List.mem_map.1 hc
    by_cases hdvf : d.vf = vf
    · rw [if_pos hdvf]
      exact d.revoke_clean va len
    · rw [if_neg hdvf] at hvf
      exact absurd hvf hdvf

/-! What an invalidation waits for (R290). -/

/-- A handle other than the window is one of those behind the first. -/
theorem get_mem_drop (v : Vector Handle 16) {h : HReg} (h0 : h ≠ 0) : v.get h.toFin ∈ v.toList.drop 1 := by
  have hpos : 0 < h.toNat := Nat.pos_of_ne_zero fun he => h0 (BitVec.eq_of_toNat_eq he)
  have hlt : h.toNat < 16 := h.isLt
  refine List.mem_iff_getElem.2 ⟨h.toNat - 1, by simp; omega, ?_⟩
  rw [List.getElem_drop, Vector.getElem_toList]
  exact congrArg v.get (Fin.ext (by change 1 + (h.toNat - 1) = h.toNat; omega))

theorem State.mem_entriesOn {s : State} {c : Core} {vf : BitVec 7} {va len : Nat} (hc : c ∈ s.cores) (hvf : c.vf = vf)
    (hopen : c.reg.isOpen = true) {h : HReg} (h0 : h ≠ 0) (hv : (c.arch.hreg h).v = true) (ho : (c.arch.hreg h).overlaps va len = true) :
    (c.launch, c.lcore, c.reg.entry) ∈ s.entriesOn vf va len := by
  have hany : (c.arch.h.toList.drop 1 ++ c.reg.snap.arch.h.toList.drop 1 ++ c.reg.had).any (fun h => h.v && h.overlaps va len) = true :=
    List.any_eq_true.2 ⟨c.arch.hreg h, List.mem_append_left _ (List.mem_append_left _ (get_mem_drop _ h0)), by rw [hv, ho]; rfl⟩
  exact List.mem_map.2 ⟨c, List.mem_filter.2 ⟨hc, by rw [hany, hopen, beq_iff_eq.2 hvf]; rfl⟩, rfl⟩

theorem State.mem_throughRange {s : State} {c : Core} {a : Access} {vf : BitVec 7} {va len : Nat} (hc : c ∈ s.cores) (hvf : c.vf = vf)
    (ha : a ∈ c.io) (hk : a.kind.mem = true) (hp : a.performed = false) (ho : a.hnd.overlaps va len = true) :
    a.id ∈ s.throughRange vf va len := by
  refine List.mem_flatMap.2 ⟨c, List.mem_append_left _ hc, ?_⟩
  rw [if_pos hvf]
  exact List.mem_map.2 ⟨a, List.mem_filter.2 ⟨ha, by rw [hk, hp, ho]; rfl⟩, rfl⟩

/-- What an invalidation is to wait for. -/
def State.invalidation (s : State) (vf : BitVec 7) (va len : Nat) : Inval :=
  ⟨vf, va, len, (s.tierRange vf va len).1, s.throughRange vf va len,
    (s.pubs.filter fun p => (s.launchOf p.launch).any fun l => l.vf == vf).map (·.id), s.entriesOn vf va len⟩

theorem execTranslationInvalidate_eq (vf : BitVec 7) (va len : Nat) (s : State) :
    exec (.translationInvalidate vf va len) s = .next { ((s.tierRange vf va len).2.revokedAll vf va len).focusPhys s.core.phys with
      invals := (((s.tierRange vf va len).2.revokedAll vf va len).focusPhys s.core.phys).invals ++ [s.invalidation vf va len] } :=
  exec_translationInvalidate vf va len s

/-- Settles O19: the cores of the function are revoked one after the other, each other core staying as it is. -/
theorem revocationClearsHandles : Obligations.RevocationClearsHandles := by
  intro s vf va len hd
  refine ⟨_, execTranslationInvalidate_eq vf va len s, ?_⟩
  have hu := (s.tierRange_tables vf va len).coresStay
  generalize (s.tierRange vf va len).2 = u at hu ⊢
  obtain ⟨hv, hcores, hsaved⟩ := State.revokedAll_clean vf va len (hu.phys.nodup_iff.2 hd)
  generalize u.revokedAll vf va len = v at hv hcores hsaved ⊢
  have hkeys := hv.phys.trans hu.phys
  obtain ⟨hw, hhere, hperm, hkept⟩ := State.focusPhys_stays (n := s.core.phys) (hkeys.nodup_iff.2 hd) (hkeys.mem_iff.2 List.mem_cons_self)
  generalize v.focusPhys s.core.phys = w at hw hhere hperm hkept ⊢
  have hall := (hu.trans hv).trans hw
  have hsame : s.core.Stays w.core := by
    obtain ⟨c, hc, hcs⟩ := hall.stay w.core List.mem_cons_self
    have hcore : c = s.core := List.inj_on_of_nodup_map hd hc List.mem_cons_self (hcs.phys.symm.trans hhere)
    exact hcore ▸ hcs
  refine ⟨fun c hc hvf => ?_, hsame.phys, hsame.s, hsame.p, s.invalidation vf va len, congrArg (· ++ _) hall.invals, rfl, rfl, rfl, ?_, ?_⟩
  · rcases List.mem_append.1 hc with hc | hc
    · exact hcores c (hperm.mem_iff.1 hc) hvf
    · exact hsaved c (hkept ▸ hc) hvf
  · exact fun c hc hvf hopen ⟨h, h0, hvalid, ho⟩ => State.mem_entriesOn hc hvf hopen h0 hvalid ho
  · exact fun c hc hvf a ha hk hp ho => State.mem_throughRange hc hvf ha hk hp ho

end Sys2Proof.Machine
end
